-- ==== Sys2Proof/Word.lean ====
section
/-! DEFINITION. Word.lean: the word types of the model and their plainest arithmetic.
The machine's registers are 32 bits (R12), bytes are 8 bits and multi-byte fields are little-endian (R10). -/

namespace Sys2Proof

/-- A byte of memory, of a command entry or of a message (R10). -/
abbrev Byte := BitVec 8

/-- A 32-bit register or scalar register (R12, R153). -/
abbrev Word := BitVec 32

/-- A byte sequence, lowest address first. -/
abbrev Bytes := List Byte

end Sys2Proof
end

