-- ==== Sys2Proof/Syntax.lean ====
section
/-! DEFINITION. Syntax.lean: the commands of the block, one constructor of `Instr` for each row of
spec/opcode_table.json. Tile rows name a context (its ASN) and a context-relative core; what the core
executes is the instruction its sequencer fetches (R152). Event rows carry what the outside world or
an agent of the module supplies: a sensor reading, a host read, the packet that arrives. -/

namespace Sys2Proof

/-- The outcome of one PCIe memory read of the CD9: the bytes, or Unsupported Request, Completer
Abort or a completion timeout (R471, R627). -/
inductive HostRead where
  | data (bytes : Bytes)
  | failed
  deriving DecidableEq, Repr

/-- The header of a host command entry (R632) with the queue that carries it: BARRIER and CMD_ID. -/
structure CmdHdr where
  queue : Nat
  barrier : Bool
  id : Nat
  deriving DecidableEq, Repr

/-- One finding of built-in test (R731, R732): a core slot, or a cluster pool or router, that failed. -/
inductive TestFinding where
  | slot (cluster slot : Nat)
  | pool (cluster : Nat)
  deriving DecidableEq, Repr

/-- What one training of a near-tier channel found (R494): the lanes whose margin failed, whether a
command/address lane failed, and the banks (bits [29:19] of a row word) whose post-package repair resources do not reach for
every row, with the rows each can still repair (R500). -/
structure ChanTrain where
  stack : Nat
  chan : Nat
  badDq : List Nat
  badCa : Nat
  pprLeft : List (Nat × Nat)
  deriving DecidableEq, Repr

/-- What training a Vinelink port found: nobody answered, or the lanes that failed and the module id
and port the far end announced (R530, R531). -/
inductive PortTrain where
  | noPartner
  | partner (lanesFailed peerMod peerPort : Nat)
  deriving DecidableEq, Repr

/-- What training a far-tier port found: nobody, a partner that needs features outside R450, or an
expander with its width, rate and pages. -/
inductive FarTrain where
  | absent
  | refused
  | up (lanes rate pages : Nat)
  deriving DecidableEq, Repr

/-- One packet of a firing as it arrives (R534): which firing it belongs to (tag, generation,
sequence number, R548), its place in the destination, its bytes and the lines that carry the poison
mark (R536). -/
structure Packet where
  tag : Nat
  gen : Nat
  seq : Nat
  offset : Nat
  data : Bytes
  poisoned : List Nat
  deriving DecidableEq, Repr

/-- A clear-to-send as it arrives (R554). -/
structure Cts where
  tag : Nat
  gen : Nat
  seq : Nat
  bytes : Nat
  addFmt : Nat
  deriving DecidableEq, Repr

/-- One pass of a screen round as its engine saw it (R736, R737): the slots (cluster, slot) whose 64-bit digest is not the one a
healthy slot gives, each with its digest, whether the first mismatching slot fails its built-in test, and whether the service
memory met an uncorrectable error (R723). -/
structure ScreenRound where
  deviating : List (Nat × Nat × Nat)
  testFails : Bool
  serviceError : Bool
  deriving DecidableEq, Repr

/-- The end of an instruction in flight, with the errors met in on-die state while it ran (R723): those that SECDED corrected in
core stores and cluster pools, those that it corrected in the hub's control arrays, and whether one of its own could not be
corrected. -/
structure Completion where
  id : Nat
  corrected : Nat
  hub : Nat
  uncorrected : Bool
  deriving DecidableEq, Repr

/-- One read of the host over the bus (R13, R623): whether it is of BAR2 instead of BAR0, its offset and its width in bytes. -/
structure BusRead where
  bar2 : Bool
  off : Nat
  width : Nat
  deriving DecidableEq, Repr

/-- Whose read a command of the near tier belongs to (R492, R502): a core's operand read or instruction fetch, the copy of a migration
or a decant with the line it is written to, an uncork, an XFER, or another reader (a network interface or a codec unit). -/
inductive CaReader where
  | core (asn core : Nat)
  | fetch (asn core : Nat)
  | mover (dst : Nat)
  | uncork (asn : Nat)
  | xfer (id : Nat)
  | other
  deriving DecidableEq, Repr

/-- The commands of the block: one constructor for each row of spec/opcode_table.json, in its order. -/
inductive Instr where
  -- tile programs (R165): the next instruction of one core issues
  | endProg (asn core : Nat)
  | loop (asn core : Nat)
  | branch (asn core : Nat)
  | waitConsume (asn core : Nat)
  | waitPeek (asn core : Nat)
  | signal (asn core : Nat)
  | fence (asn core : Nat)
  | trig (asn core : Nat)
  | stint (asn core : Nat)
  | loadCopy (asn core : Nat)
  | loadXreg (asn core : Nat)
  | storeCopy (asn core : Nat)
  | storeAddInt32 (asn core : Nat)
  | storeMinInt32 (asn core : Nat)
  | storeMaxInt32 (asn core : Nat)
  | storeCas (asn core : Nat)
  | storeAddFloat (asn core : Nat)
  | storeOrdered (asn core : Nat)
  | storeAddInt64 (asn core : Nat)
  | decantFromVirtual (asn core : Nat)
  | decantFromHost (asn core : Nat)
  | leesCheck (asn core : Nat)
  | matProd (asn core : Nat)
  | attnWindow (asn core : Nat)
  | attnCross (asn core : Nat)
  | attnPiece (asn core : Nat)
  | convolve (asn core : Nat)
  | poolMax (asn core : Nat)
  | poolAvg (asn core : Nat)
  | poolNearest (asn core : Nat)
  | foldStats (asn core : Nat)
  | foldMerge (asn core : Nat)
  | foldNorm (asn core : Nat)
  | vecEw (asn core : Nat)
  | vecRowb (asn core : Nat)
  | vecColb (asn core : Nat)
  | vecReduce (asn core : Nat)
  | vecScalar (asn core : Nat)
  | funcApply (asn core : Nat)
  | funcReload (asn core : Nat)
  | blendRun (asn core : Nat)
  | blendLoad (asn core : Nat)
  -- events of cores, units and dies
  | instructionComplete (asn core : Nat) (done : Completion)
  | tasterVerdict (asn cluster : Nat)
  | promotionDone (asn vpn : Nat)
  | waitSatisfied (asn sem : Nat)
  | pieceLandingReady (asn core id : Nat)
  | orderedTurn (asn core id : Nat)
  | decantAccepted (asn core : Nat)
  | decantPageDone (id : Nat) (host : HostRead)
  | stintOverrun (asn core : Nat)
  | fabricHang (die : Nat)
  | dieLogicResetDone (die : Nat)
  | builtInTestDone (die : Nat) (findings : List TestFinding)
  -- jobs, seating, corks
  | jobComplete (asn : Nat)
  | seatingDecision
  | sliceExpiry (asn : Nat)
  | corkBegin (asn : Nat)
  | corkDone (asn : Nat)
  | uncorkDone (asn : Nat)
  -- host commands (R633)
  | nop (h : CmdHdr)
  | reservedCmd (h : CmdHdr) (code first : Nat)
  | ctxCreate (h : CmdHdr) (asn cls kind sliceUs clusters imageVA resumeVA resumeCount : Nat)
  | ctxDestroy (h : CmdHdr) (asn : Nat)
  | ctxCork (h : CmdHdr) (asn : Nat)
  | ctxUncork (h : CmdHdr) (asn clusters : Nat)
  | ctxExport (h : CmdHdr) (asn move imageVA : Nat)
  | ctxSetClass (h : CmdHdr) (asn cls sliceUs : Nat)
  | asnDestroy (h : CmdHdr) (asn : Nat)
  | semAliasSet (h : CmdHdr) (asn index ownerAsn ownerIndex : Nat)
  | semAliasClear (h : CmdHdr) (asn index ownerAsn ownerIndex : Nat)
  | semSignal (h : CmdHdr) (asn index n : Nat)
  | jobLaunch (h : CmdHdr) (asn p rank progLen progVA seed : Nat)
  | jobEnd (h : CmdHdr) (asn : Nat)
  | descBind (h : CmdHdr) (asn first count srcVA : Nat)
  | trellisBind (h : CmdHdr) (asn entries tableVA : Nat)
  | versionSet (h : CmdHdr) (asn set slots semBase record : Nat)
  | memAlloc (h : CmdHdr) (asn tier w pages va place : Nat)
  | zeroFillDone (asn : Nat)
  | memMigrate (h : CmdHdr) (asn tier access pages va place : Nat)
  | migratePageDone (asn : Nat)
  | memFree (h : CmdHdr) (asn pages va : Nat)
  | xferToHost (h : CmdHdr) (asn window va winOff bytes : Nat)
  | xferFromHost (h : CmdHdr) (asn window va winOff bytes : Nat)
  | xferComplete (id : Nat) (host : HostRead)
  | groupCreate (h : CmdHdr) (asn size tag gen credits wdMs members : Nat)
  | groupDestroy (h : CmdHdr) (asn slot : Nat)
  | streamOpen (h : CmdHdr) (unit asn semBase paramVA : Nat)
  | streamClose (h : CmdHdr) (stream : Nat)
  | frameSubmit (h : CmdHdr) (stream : Nat) (entry : Bytes)
  | frameRelease (h : CmdHdr) (stream count : Nat)
  | modeSetVintage (h : CmdHdr) (value rateLog2 expectEpoch timeoutUs : Nat)
  | modeSetTaster (h : CmdHdr) (value rateLog2 expectEpoch timeoutUs : Nat)
  | dieEpochAck (die : Nat)
  | epochTimeout
  | applyConfig (h : CmdHdr) (writeFlash : Bool) (imageBus imageBytes : Nat) (image : HostRead)
  | applyStoreOnly (h : CmdHdr) (writeFlash : Bool) (imageBus imageBytes : Nat) (image : HostRead)
  | dormantEnter (h : CmdHdr)
  | dormantPowerDown
  | wake (h : CmdHdr)
  | wakeDone
  | dieDrainHold (h : CmdHdr) (die : Nat)
  | dieDrainRepair (h : CmdHdr) (die : Nat)
  | dieRestore (h : CmdHdr) (die : Nat)
  -- doorbells and register writes
  | sqTailDoorbell (q : Nat) (val : Word) (fetched : List Bytes) (images : List HostRead)
  | commandFetchError (q : Nat)
  | cqHeadDoorbell (q : Nat) (val : Word)
  | hqCtlWrite (q : Nat) (val : Word)
  | msgCtlWrite (val : Word)
  | msgHeadWrite (val : Word)
  | registerWrite (off width : Nat) (val : BitVec 64)
  | loReadLatch (r : BusRead)
  | hubResetModule (val : Word)
  | islVsetWrite (die isl : Nat) (val : Word)
  | islMarginWrite (die isl : Nat) (val : Word)
  | islRateMinReset (die isl : Nat) (val : Word)
  | islRampDone (die isl : Nat)
  | islRateUpdate (die isl rate : Nat)
  | mcC0LatMaxClr (die mc : Nat) (val : Word)
  | trkPeakClr (die : Nat) (val : Word)
  | tqNearQuotaWrite (asn : Nat) (val : Word)
  | tqCellarQuotaWrite (asn : Nat) (val : Word)
  | hwWindowWrite (asn window reg : Nat) (val : Word)
  | precSettingWrite (die slot reg : Nat) (val : Word)
  | relDieFlagSet (die : Nat) (val : Word)
  | relDieFlagClr (die : Nat) (val : Word)
  | relFlashRelease (val : Word)
  | relFlashAttach (val : Word) (supported : Bool)
  | relVrmRelease (pos : Nat) (val : Word)
  | scrStart (die : Nat) (val : Word)
  | scrStop (die : Nat) (val : Word)
  | screenRoundDone (die : Nat) (round : ScreenRound)
  | relLogIndexWrite (val : Word)
  | relMapIndexWrite (val : Word)
  | pwrLimitWrite (val : Word)
  | pwrPeakClr (val : Word)
  | acctClr (asn : Nat) (val : Word)
  | appClr (val : Word)
  -- accounting and the Tally
  | acctFlush
  | tallyRelease (val : Word)
  | tallyReleaseDone
  | tallyAttach (val : Word)
  | tallySelfTestDone (passed : Bool) (fwRev serial seconds total recSeq : Nat) (sealBroken : Bool)
  | tallyRecIndexWrite (val : Word)
  | tallyIntervalClose (energyMJ watts vin10mV : Nat) (overrange : Bool)
  | tallyRecordClose
  | unmeteredRecord
  | tallyPulled
  | tallyFault
  | tallySealOpened
  | tallyFlashCopy
  -- power, thermal and input events
  | powerLoopTick (inputMw : Nat)
  | thermalCapTick (die : Nat) (tj : Int)
  | thermal (source cause : Nat) (reading : Int)
  | thermalTrip (source cause : Nat) (reading : Int)
  | envelopeReturn
  | inputVoltageChange (mv : Nat)
  | inputPowerLoss (energyMJ watts vin10mV : Nat)
  | regulatorFail (pos : Nat)
  | regulatorFitted (pos : Nat)
  | refClockLost
  | refClockReturn
  -- resets and start-up
  | moduleReset
  | hostLinkTrained
  | configReadDone
  | memTrainDone (serviceOk : Bool) (chans : List ChanTrain)
  | repairStepDone (up : List Nat) (findings : List (Nat × TestFinding))
  | portTrainDone (ports : List PortTrain) (far : List FarTrain)
  | bootStepTimeout (applied : Nat) (up : List Nat) (findings : List (Nat × TestFinding)) (ports : List PortTrain) (far : List FarTrain)
  | hostLinkReset
  | hubUncorrectable
  | faultLogFlush
  | flashWriteDone (region : Nat) (verified : Bool)
  -- memory controllers, ports and links
  | patrolScrub (die mc chan line rowWord : Nat) (correctable : Bool)
  | rowRemap (die mc chan rowWord : Nat)
  | caParityError (die mc chan retries : Nat) (read : Bool) (line : Nat) (reader : CaReader)
  | flitReplay (port : Nat)
  | laneFail (port lane : Nat)
  | laneRetrainDone (port : Nat)
  | portDown (port : Nat)
  | vlPortRetrain (port : Nat) (val : Word)
  | portRetrainDone (port : Nat) (result : PortTrain)
  | peerTraining (port : Nat)
  | farPortDown (port : Nat)
  | cxlRequestTimeout (port : Nat)
  -- trellis and packets
  | trellisFire (asn entry : Nat)
  | ctsArrival (cts : Cts) (fromRank : Nat)
  | ctsRetry (cts : Cts) (fromRank : Nat)
  | packetArrival (p : Packet)
  | packetAck (tag gen seq offset : Nat)
  | firingComplete (asn entry : Nat)
  | abortArrival (tag gen seq reason : Nat)
  | groupWait (asn entry : Nat)
  -- tier stall and the version keeper
  | tierStall (asn sem : Nat)
  | keeperPin (asn set : Nat)
  | keeperRetire (asn set : Nat)
  | keeperClaim (asn set : Nat)
  | keeperPublish (asn set : Nat)
  -- codec units
  | codecSubmitConsume (stream : Nat)
  | codecStreamSwitch (unit : Nat)
  | codecFrameDone (unit : Nat)
  | codecReleaseConsume (stream : Nat)
  | codecPacedRecord (stream : Nat)
  -- rows the table lists last
  | unmeteredIntervalClose (energyMJ : Nat)
  | ctxExportDone (asn : Nat)
  deriving DecidableEq, Repr

end Sys2Proof
end

