-- ==== Sys2Proof/Decode.lean ====
section
/-! DEFINITION. Decode.lean: the command a word of opcode-table bits spells. The table gives its commands no bits (the spec gives
the block no instruction words of its own), so no word spells a command. What the block itself decodes is elsewhere: 64-byte host
command entries in Machine/Pump.lean, 128-bit tile instruction words in Machine/Tile.lean and the files after it. -/

namespace Sys2Proof

/-- The command that a word spells by the table's bits: none, since no row has bits. -/
def decodeTableWord (_nbits _w : Nat) : Option Instr := none

end Sys2Proof
end

