-- ==== Sys2Proof/Machine/State.lean ====
section
/-! DEFINITION. Machine/State.lean: everything the module holds, as plain data, and the state right after
a module reset at power-on. Registers that software reads or writes whole are kept as 32-bit words in
`regs`, keyed by BAR0 offset (only their stored bits: RW, RWL and W1C fields); every other field is
kept under its own name and computed into register reads by Machine/Registers.lean. Where the spec gives
no reset value the value is named in notes/assumptions (entries 3 to 8). -/

namespace Sys2Proof.Machine

/-- Sparse memory: (byte address, byte), addresses strictly rising, no byte equal to 0, which is what
an unlisted address reads as (zero-fill, R457; notes/assumptions/4). -/
abbrev Mem := List Host.Cell

/-- Why a step has no next state. Raised by nothing that the spec gives an effect. -/
inductive Fault where
  /-- Never raised by this model: the block has no stop of its own outside the state (a refused
  configuration, a lost context or a die reset are states). Safe. -/
  | none
  deriving DecidableEq, Repr

/-- Why a command has no meaning. -/
inductive Refusal where
  /-- Raised by the dispatch of a row whose meaning is not written. Safe. -/
  | notModelled (mnemonic : String)
  /-- Raised by every meaning on a command that is not well-formed (a die above 3, a core index no
  context has, a byte string of the wrong length): no such command exists. Safe. -/
  | illFormed
  deriving DecidableEq, Repr

/-! ### Statuses and codes -/

/-- Completion and job-end statuses (R635). -/
inductive Status where
  | ok | stateIllegal | tableFull | bounds | quota | formatUnsupported | filterTooLarge
  | epochMismatch | abortedByDrain | dieLost | ended
  deriving DecidableEq, Repr

/-- Job fault codes (R213). -/
inductive FaultCode where
  | boundsRuntime | unmapped | malformedOperand | stateUncorrectable | stintOverrun | fabricHang
  deriving DecidableEq, Repr

/-- BOOT_STATE (R703). -/
inductive BootState where
  | powerOn | configRead | configApply | memTrain | repair | portTrain | ready | awaitConfig
  | refusedPermanent | enteringDormant | dormant | waking
  deriving DecidableEq, Repr

/-- Refusal reasons (R696). -/
inductive RefuseReason where
  | none | noValidBank | identity | badTarget | badValue | serviceMemory | trainFailed | stepTimeout
  deriving DecidableEq, Repr

/-- CONFIG_SRC (R702). -/
inductive ConfigSrc where
  | none | bankA | bankB | apply
  deriving DecidableEq, Repr

/-- Why a virtual access fails: the page is unmapped (R441), lost (R453), mapped with W = 0 (R443), or a
line read is poisoned (R492). -/
inductive VErr where
  | unmapped | lost | readOnly | poison
  deriving DecidableEq, Repr

/-- Bytes and traffic that leave the module: posted writes to host memory, MSI-X, what a register read returned (`readZero`: a read
that touches no register and gives 0 in every byte), and what its network interfaces send to a member of a group. -/
inductive Out where
  | hostWrite (addr : Nat) (bytes : Bytes)
  | msix (vector : Nat)
  | readValue (off : Nat) (val : Word)
  | readZero (bar off width : Nat)
  | cts (tag gen seq bytes addFmt toRank : Nat)
  | packet (port tag gen seq offset toRank : Nat) (data : Bytes) (poisoned : List Nat)
  | ctsRefused (tag gen seq toRank : Nat)
  | ack (tag gen seq offset toRank : Nat)
  | abort (tag gen seq toRank reason : Nat)
  deriving DecidableEq, Repr

/-! ### Host queues, messages, flash, boot -/

/-- QUEUE STATE of HQ_STATUS (R625). -/
inductive QState where
  | disabled | running | stopped
  deriving DecidableEq, Repr

/-- A command of a queue that has started and not completed (R628): its CMD_ID and code. -/
structure InProgress where
  id : Nat
  cmd : Nat
  deriving DecidableEq, Repr

/-- One host queue (R623 to R631). Its bases and HQ_CTL are in `regs`; `waiting` are commands fetched and not started, each with
the time its doorbell reached the hub (R675). -/
structure HostQueue where
  state : QState
  sqHead : Nat
  sqTail : Nat
  cqTail : Nat
  cqHead : Nat
  phase : Bool
  waiting : List (Nat × Instr)
  inProg : List InProgress
  held : List Bytes
  deriving DecidableEq, Repr

/-- The message ring (R710 to R713); `held` are entries without their PHASE. -/
structure MsgRing where
  head : Nat
  tail : Nat
  phase : Bool
  held : List Bytes
  lost : Nat
  lostFlag : Bool
  seq : Nat
  deriving DecidableEq, Repr

/-- One flash bank (R685): its 64 header bytes and its body. -/
structure FlashBank where
  header : Bytes
  body : Bytes
  deriving DecidableEq, Repr

/-- The flash regions of R684, each with bank A and bank B. -/
inductive Region where
  | config | repairMap | faultLog | tally
  deriving DecidableEq, Repr

/-- REL_FLASH.STATE (R753). -/
inductive FlashState where
  | attached | releasing | released | attachFailed
  deriving DecidableEq, Repr

/-- A bank write (R688): the region, the body, and the header fields PART_CODE and PKG_VARIANT it
carries, and for the fault log the number of records logged when the write began (R749). The first write of a region in the list is
in progress: its target bank is already erased. -/
structure FlashWrite where
  region : Region
  body : Bytes
  part : Nat
  pkg : Nat
  upTo : Nat
  deriving DecidableEq, Repr

/-- The flash: attachment, eight banks, writes in progress. -/
structure Flash where
  state : FlashState
  configA : FlashBank
  configB : FlashBank
  mapA : FlashBank
  mapB : FlashBank
  logA : FlashBank
  logB : FlashBank
  tallyA : FlashBank
  tallyB : FlashBank
  writing : List FlashWrite
  deriving DecidableEq, Repr

/-- An APPLY in progress (R698, R700, R701). -/
structure ApplyJob where
  hdr : CmdHdr
  storeOnly : Bool
  deriving DecidableEq, Repr

/-- The hub's boot sequencer, timebase and host link. `refuse` keeps the reason, the stack and channel
and the failing record of CONFIG_REFUSED. -/
structure Hub where
  boot : BootState
  refuse : RefuseReason
  cfgSrc : ConfigSrc
  bankAValid : Bool
  bankBValid : Bool
  cfgSeq : Nat
  timebase : Nat
  refLost : Bool
  powered : Bool
  link : Bool
  bootCount : Nat
  apply : Option ApplyJob
  dormantCmd : Option CmdHdr
  wakeCmd : Option CmdHdr
  dormantFrom : Nat
  wakeFrom : Nat
  corkedCount : Nat
  deriving DecidableEq, Repr

/-! ### Dies -/

/-- DIE_STATE (R46). -/
inductive DieState where
  | online | resetting | draining | offline | poweredDown
  deriving DecidableEq, Repr

/-- SPARE_ROLE (R49). -/
inductive SpareRole where
  | taster | repair | failed | none
  deriving DecidableEq, Repr

/-- One cluster's mapping (R48). `faulty` is the 17-bit SLOT_FAULTY. -/
structure ClusterMap where
  active : Bool
  role : SpareRole
  replaced : Nat
  faulty : Nat
  deriving DecidableEq, Repr

/-- One voltage island (R66, R79, R80, R767). `veff` is the effective code the regulator was last told. -/
structure Island where
  veff : Nat
  pcap : Nat
  tcap : Nat
  ramping : Bool
  rateNow : Nat
  rateMin : Nat
  deriving DecidableEq, Repr

/-- MC STATE (R517). -/
inductive McState where
  | off | training | ready | selfRefresh | trainFailed
  deriving DecidableEq, Repr

/-- One remap entry (R522): the row word of bits [29:0] and FROM_REPAIR_MAP. -/
structure RemapEntry where
  row : Nat
  fromMap : Bool
  deriving DecidableEq, Repr

/-- One channel (R497, R519): lanes replaced (0x7F for none), the remap table, the corrected-error
counts of up to 256 rows, oldest last error first, and the rows remapped before a module reset, which its training repairs
(R500). -/
structure Chan where
  degraded : Bool
  caSpare : Bool
  dqA : Nat
  dqB : Nat
  remap : List RemapEntry
  corrRows : List (Nat × Nat)
  toRepair : List Nat
  deriving DecidableEq, Repr

/-- One memory controller (R516 to R521). -/
structure Mc where
  state : McState
  chans : List Chan
  errCorr : Nat
  errUncorr : Nat
  caRetry : Nat
  caExhausted : Nat
  nominated : List (Nat × Nat)
  deriving DecidableEq, Repr

/-- Tracker and bridge counters of a die (R523 to R525): TRK_FULL_NS, the most entries held since the last PEAK_CLR, and the bytes
sent on bridges 0 to 2. OUTSTANDING is the sum of the entries that the flights of the die's cores hold. -/
structure Tracker where
  peak : Nat
  fullNs : Nat
  brg : List Nat
  deriving DecidableEq, Repr

/-- Class-0 reads of one stack (R507, R520, R521): the longest latency seen in ns and the reads over 1.2 µs. -/
structure ReadTimes where
  maxNs : Nat
  slow : Nat
  deriving DecidableEq, Repr

/-- What moves between cores, hub and stacks leaves in counters: one tracker per die, read times per stack, and the count of the
model's own free values drawn for them (notes/assumptions/54). -/
structure Traffic where
  trk : List Tracker
  reads : List ReadTimes
  drawn : Nat
  deriving DecidableEq, Repr

/-- An error in a stack's cells that no read has met (R490, R491): the line, the word of its row and whether the code corrects
it. -/
structure CellError where
  line : Nat
  row : Nat
  fixable : Bool
  deriving DecidableEq, Repr

/-- Screen engine STATE (R754). -/
inductive ScreenState where
  | idle | running | confirming
  deriving DecidableEq, Repr

/-- A die's screen engine (R735 to R739): `seen` are mismatches so far with the round number, and the
facts the outcome needs. -/
structure Screen where
  state : ScreenState
  outcome : Nat
  round : Nat
  mismatches : Nat
  firstCluster : Nat
  firstSlot : Nat
  slots : List (Nat × Nat)
  noMajority : Bool
  moved : Bool
  again : Bool
  id : Nat
  deriving DecidableEq, Repr

/-- Why a die is in reset or draining and what follows (R726, R742, R744, R720). -/
inductive DieGoal where
  | none
  | fault
  | hold (hdr : Option CmdHdr) (flag : Nat)
  | repair (hdr : CmdHdr)
  | restore (hdr : CmdHdr)
  | boot
  | wake
  deriving DecidableEq, Repr

/-- One compute die. `flag` is the REASON of REL_DIE_FLAG_d (0 none, R745), `pending` the slots whose
repair waits for the next die reset (R733), `hwFaults` the times of counted hardware faults (R730),
`repeated` that the reset in progress ends flagged REPEATED_FAULT, `stage` the step of the reset in
progress (0 none, 1 logic reset, 2 built-in test, 3 mapped and waiting for the sequence), `fnPending` and `tastePending` the EPOCH_PENDING bits, `wasOnline` the state
before Dormant entry (R720). -/
structure Die where
  state : DieState
  goal : DieGoal
  stage : Nat
  clusters : List ClusterMap
  inService : Nat
  islands : List Island
  mcs : List Mc
  screen : Screen
  pending : List (Nat × Nat)
  flag : Nat
  hwFaults : List Nat
  repeated : Bool
  hangFlag : Bool
  wasOnline : Bool
  vintage : Bool
  tasteEn : Bool
  tasteRate : Nat
  fnPending : Bool
  tastePending : Bool
  corr : Nat
  corked : Nat
  deriving DecidableEq, Repr

/-! ### Address spaces, pages and the agents that move them -/

/-- One mapped page (R441): its page number, its physical page number (physical address / 2 MiB), W,
and whether it is lost (R453). -/
structure Page where
  vpn : Nat
  ppn : Nat
  w : Bool
  lost : Bool
  deriving DecidableEq, Repr

/-- One address space (R440, R444). -/
structure Space where
  asn : Nat
  pages : List Page
  deriving DecidableEq, Repr

/-- A promotion in progress (R460): the page and the near page it moves to. -/
structure Promotion where
  asn : Nat
  vpn : Nat
  dst : Nat
  deriving DecidableEq, Repr

/-- A MEM_ALLOC whose zero-fill is in progress (R457). -/
structure ZeroFill where
  hdr : CmdHdr
  asn : Nat
  deriving DecidableEq, Repr

/-- A MEM_MIGRATE in progress (R458, R459): the pages left, each with the physical page it moves to; the first
one is moving. A page that moves between stacks takes its page when its move ends (notes/assumptions/56), and one that a write
has moved already needs none; `cursor` is where the search for the next page between stacks starts (R456). -/
structure Migration where
  hdr : CmdHdr
  asn : Nat
  left : List (Nat × Option Nat)
  tier : Nat
  place : Nat
  cursor : Nat
  moved : Nat
  kept : Nat
  deriving DecidableEq, Repr

/-- One contiguous run a decant still has to copy; `src` is a virtual address or a byte offset in the
host window. -/
structure CopyRun where
  src : Nat
  dst : Nat
  bytes : Nat
  deriving DecidableEq, Repr

/-- A decant in progress (R469 to R476). `window` is the host window for FROM_HOST, `into` the destination ranges (start, bytes)
of the whole decant. -/
structure Decant where
  id : Nat
  asn : Nat
  core : Nat
  index : Nat
  sem : Nat
  window : Option Nat
  runs : List CopyRun
  into : List (Nat × Nat)
  deriving DecidableEq, Repr

/-- An XFER in progress (R637). -/
structure Xfer where
  id : Nat
  hdr : CmdHdr
  asn : Nat
  toHost : Bool
  window : Nat
  va : Nat
  winOff : Nat
  bytes : Nat
  deriving DecidableEq, Repr

/-! ### Contexts, cores and jobs -/

/-- Context states (R642). -/
inductive CtxState where
  | benched | seating | seated | benching | corking | corked
  deriving DecidableEq, Repr

/-- What a core's sequencer does between instructions (R661, R208, R211). -/
inductive CoreRun where
  | idle
  | running
  | waiting (sem n : Nat) (consume : Bool)
  | parked
  | decantWait
  | epochHold
  | ended
  | stopped
  deriving DecidableEq, Repr

/-- A byte range of one store that an instruction plans to touch (R159): space (0 VIRTUAL, 1 CORE,
2 POOL), start, end (exclusive) and whether it writes it; `aux` marks an AUX region, which R159 does not compare. -/
structure Buf where
  space : Nat
  lo : Nat
  hi : Nat
  writes : Bool
  aux : Bool := false
  deriving DecidableEq, Repr

/-- The running values of one query row as FP32 patterns (R268): m_r, l_r and O_r. -/
structure PieceRow where
  m : Word
  l : Word
  o : List Word
  deriving DecidableEq, Repr

/-- A key of ATTN's key sequence (R266): whether it is a global token, and its indices behind the channel. -/
structure AKey where
  isGlobal : Bool
  ix : List Nat
  deriving DecidableEq, Repr

/-- How far a PIECE has come (R277, R278): the head and the key step it waits for, its key sequence, for which the bitmap has been
fetched (R263), and its rows' running values. -/
structure Piece where
  head : Nat
  step : Nat
  keys : List AKey
  rows : List PieceRow
  deriving DecidableEq, Repr

/-- What an in-flight instruction still waits for, beside its last write: its turn in an ordered accumulation (the target's
start address, length, format and CNT, and its index, R249, R251), or the landing of the next keys of a PIECE (R277). -/
inductive FlightWait where
  | none
  | ordered (lo len fmt cnt idx : Nat)
  | piece (p : Piece)
  deriving DecidableEq, Repr

/-- A sampled tile in a taster's queue (R386 to R396): whose PROD it is, its window with BOUND, the layer and the pass value at
issue, the taster's beats at widths 8 and 16 (R397), the FP32 patterns before conversion of the engines', the width-8 and the
reference result, the replacement writes, and the flags of each result. -/
structure TasterTile where
  core : Nat
  flight : Nat
  window : Nat
  ordinal : Nat
  width : Nat
  bound : Word
  layer : Word
  pass : Word
  beats8 : Nat
  beats16 : Nat
  y : List Word
  y8 : List Word
  r : List Word
  writes8 : List (Nat × Nat × Bytes)
  writesR : List (Nat × Nat × Bytes)
  flagsY : Nat
  flags8 : Nat
  flagsR : Nat
  deriving DecidableEq, Repr

/-- An instruction in flight (R157, R158): its place, the index it was issued at, its word, its planned buffers, the scalar
registers it writes, whether it is the core's most recent CAS, its semaphore if SIG is set, the sampled tiles whose verdict is due
(R389), those of them that the taster's queue has no place for yet (R396), and what it waits for. It runs with what it read at
issue: the scalar registers `xs`, the parameter block `par` of an ATTN (R257), the ordinal of a windowed PROD (R384) and `since`, the
first ordinal that its escalation count reaches back to (R392). `started` is false while it waits for the core's engines or its unit
(R219, R298), `fill` is set where its engines were idle at issue (R243), `engines` are the engines it holds, `olds` the function
tables of which a RELOAD issued after it has completed (R316), `want` the memory transactions it makes and `entries` the tracker
entries they hold (R509). -/
structure Flight where
  id : Nat
  index : Nat
  word : BitVec 128
  bufs : List Buf
  regs : List Nat
  cas : Bool
  sem : Option Nat
  verdicts : Nat
  sampled : List TasterTile
  wait : FlightWait
  xs : List Word
  par : Bytes
  windowed : Bool
  ordinal : Nat
  since : Nat
  fill : Bool
  started : Bool
  engines : List Nat
  olds : List Nat
  want : Nat
  entries : Nat
  deriving DecidableEq, Repr

/-- A blend slot (R324, R330): a valid image's bytes, or marked invalid. -/
inductive BlendSlot where
  | invalid
  | image (bytes : Bytes)
  deriving DecidableEq, Repr

/-- A function-table bank (R306, R317): a loaded image, valid or not. -/
inductive TableBank where
  | empty
  | invalid
  | image (bytes : Bytes)
  deriving DecidableEq, Repr

/-- A core's escalation record of one precision window (R392): the ordinals of the PRODs whose tiles failed, one entry a tile, the
ordinal of the PROD at which the record was last reset, from which its count is taken, the layer and pass values, and the pass
values of this job under which the limit was reached (R395). -/
structure EscRecord where
  fails : List Nat
  since : Nat
  layer : Word
  pass : Word
  reached : List Word
  deriving DecidableEq, Repr

/-- One core of a context. `tables` are four (active, shadow) pairs, `casOk` the last CAS's outcome,
`ordinal` the count of R384, `stintNs` the stint timer (R207). `hold` is a write held for the move of a page (R459, R461): the page
and the index of the instruction that writes. -/
structure Core where
  x : List Word
  pc : Nat
  run : CoreRun
  hold : Option (Nat × Nat)
  flight : List Flight
  casOk : Option Bool
  stintNs : Nat
  tables : List (TableBank × TableBank)
  blend : List (Option BlendSlot)
  ordinal : Nat
  esc : List EscRecord
  store : Mem
  deriving DecidableEq, Repr

/-- An open accumulation track of a pool (R251). -/
structure Track where
  lo : Nat
  len : Nat
  fmt : Nat
  cnt : Nat
  next : Nat
  deriving DecidableEq, Repr

/-- One cluster of a context: its pool, open tracks and the taster's queue (R396). -/
structure Cluster where
  pool : Mem
  tracks : List Track
  taster : List TasterTile
  deriving DecidableEq, Repr

/-- A core blocked in WAIT on a semaphore, in first-come order (R200). -/
structure Waiter where
  sem : Nat
  asn : Nat
  core : Nat
  n : Nat
  consume : Bool
  deriving DecidableEq, Repr

/-- A semaphore alias (R668); `dangling` once the owner is gone (R670). -/
structure Alias where
  index : Nat
  ownerAsn : Nat
  ownerIndex : Nat
  dangling : Bool
  deriving DecidableEq, Repr

/-- An armed trellis entry (R545 to R548): its 64 bytes, the present threshold, whether it is still
armed, and the firings started. -/
structure Armed where
  entry : Nat
  bytes : Bytes
  threshold : Nat
  live : Bool
  firings : Nat
  deriving DecidableEq, Repr

/-- A version set (R430 to R438): slot versions and pins, the pin queue (oldest first), the granted slot. Its newest
version number is the count of its PUBLISHED semaphore (R432). -/
structure VersionSet where
  set : Nat
  slots : Nat
  semBase : Nat
  record : Nat
  newest : Nat
  granted : Option Nat
  versions : List (Option Nat)
  pins : List Nat
  queue : List Nat
  deriving DecidableEq, Repr

/-- The state of a job (R652): running, or stopping with a status, a core and an index (R211). -/
inductive JobEnd where
  | running
  | stopping (status : Status) (core index : Nat)
  deriving DecidableEq, Repr

/-- A job in progress (R651). `launchTb` is the time its doorbell reached the hub (R675). -/
structure Job where
  hdr : CmdHdr
  p : Nat
  rank : Nat
  len : Nat
  progVA : Nat
  seed : Nat
  fate : JobEnd
  endCmd : List CmdHdr
  launchTb : Nat
  issued : Bool
  deriving DecidableEq, Repr

/-- The accounting counters of R677. -/
structure Acct where
  queueWait : Nat
  cork : Nat
  tierStall : Nat
  seated : Nat
  m1 : Nat
  m2 : Nat
  m4 : Nat
  m8 : Nat
  taste : Nat
  stall : Nat
  preempts : Nat
  corks : Nat
  c0First : Nat
  deriving DecidableEq, Repr

/-- A blocked period on a weight fence (R478). -/
structure FencePeriod where
  sem : Nat
  ns : Nat
  sent : Nat
  cores : List (Nat × Nat)
  deriving DecidableEq, Repr

/-- A context (R639 to R642). `set` holds global cluster numbers 32d + c in ascending order, `slots`
the slot taken on each die, `moving` the transfer in progress (`some true` an uncork, `some false` a
cork), `claim` whether it has claimed its clusters (R654), `raised` the classes inherited from waiters
(waiter's ASN, core and class, R669), `toPark` the cores that have not been parked since it was seated,
`offClusters` that a CORKING context was BENCHED when its cork began,
`live` the per-die counts since the slot was taken and `fresh` those not yet added to the hub's totals
(R678), `exporting` the CTX_EXPORT in progress. -/
structure Ctx where
  asn : Nat
  cls : Nat
  cd6 : Bool
  sliceUs : Nat
  set : List Nat
  state : CtxState
  slots : List (Option Nat)
  raised : List (Nat × Nat × Nat)
  toPark : List Nat
  moving : Option Bool
  offClusters : Bool
  claim : Bool
  corkCmds : List CmdHdr
  expired : Bool
  sliceNs : Nat
  readyNs : Nat
  cores : List Core
  clusters : List Cluster
  desc : List (Option Bytes)
  sems : List Nat
  aliases : List Alias
  waiters : List Waiter
  counters : List Nat
  trellis : Option (Nat × Nat)
  armed : List Armed
  sets : List VersionSet
  flags : Nat
  job : Option Job
  corkPages : List Nat
  resume : Nat × Nat
  savedPrec : List (Nat × Nat × Word)
  tasteSent : List (Nat × Word)
  fences : List FencePeriod
  exporting : Option (CmdHdr × Bool × Nat)
  live : List Acct
  fresh : List Acct
  deriving DecidableEq, Repr

/-! ### Vinelink, groups, firings -/

/-- VL_PORT STATE (R577). -/
inductive PortState where
  | absent | training | up | up3 | down | miswired | disabled
  deriving DecidableEq, Repr

/-- One Vinelink port (R576, R579). `spent` is the time it has sent for, in units of 1 ÷ 600 GB/s per packet, since the ports last
changed state, `turn` the group slot it served last (R533, R571). -/
structure Port where
  state : PortState
  peerSeen : Nat
  laneFailed : Nat
  replay : Nat
  resend : Nat
  spent : Nat
  turn : Nat
  deriving DecidableEq, Repr

/-- Far-tier port STATE (R481). -/
inductive FarState where
  | absent | training | up | down | refused
  deriving DecidableEq, Repr

/-- One far-tier port (R480, R482). -/
structure FarPort where
  state : FarState
  lanes : Nat
  rate : Nat
  backed : Nat
  deriving DecidableEq, Repr

/-- A clear-to-send held in a group's table (R554). -/
structure HeldCts where
  seq : Nat
  bytes : Nat
  addFmt : Nat
  fromRank : Nat
  deriving DecidableEq, Repr

/-- A group slot in use (R537, R542). `aborts` are aborts (sequence number, reason) that came before the firing they name
(R568), `overSeqs` the sequence numbers of firings that have ended under the present job, `overLanded` for each of these its number, the rank
it received from and the (offset, length) of what landed. -/
structure Group where
  asn : Nat
  tag : Nat
  gen : Nat
  members : List Nat
  rank : Nat
  credits : Nat
  wdMs : Nat
  stale : Bool
  cts : List HeldCts
  aborts : List (Nat × Nat)
  overSeqs : List Nat
  overLanded : List (Nat × Nat × List (Nat × Nat))
  deriving DecidableEq, Repr

/-- A packet that its interface holds until it is acknowledged (R534): its offset, its bytes, and which of its lines are poisoned. -/
structure HeldPacket where
  off : Nat
  data : Bytes
  poisoned : List Nat
  deriving DecidableEq, Repr

/-- A firing in progress (R547 to R559). `unsent` are packet offsets not sent yet, `unacked` the packets
sent and not acknowledged, `resend` those of them that are to be sent again, each with the port that went DOWN (R534), `landed` the
(offset, length) of what has landed, `cleared` that the partner's clear-to-send is held. -/
structure Firing where
  asn : Nat
  entry : Nat
  slot : Nat
  k : Nat
  seq : Nat
  bytes : Nat
  addFmt : Nat
  srcVA : Nat
  dstVA : Nat
  toRank : Nat
  fromRank : Nat
  recVA : Option Nat
  doneSem : Option Nat
  landSem : Option Nat
  landBytes : Nat
  chain : Option Nat
  cleared : Bool
  unsent : List Nat
  unacked : List HeldPacket
  resend : List (HeldPacket × Nat)
  landed : List (Nat × Nat)
  signalled : Nat
  flags : Nat
  waitNs : Nat
  reports : Nat
  deriving DecidableEq, Repr

/-! ### Codec units -/

/-- CDC_STRM STATE (R620); FREE is the absence of a stream. -/
inductive StreamState where
  | opened | ended | error | stale
  deriving DecidableEq, Repr

/-- A host-fed entry waiting for its unit, with the FRAME_SUBMIT that waits (R616). -/
structure FedEntry where
  hdr : CmdHdr
  entry : Bytes
  deriving DecidableEq, Repr

/-- A consumed entry of a stream that waits for its frame (R596): its index, its bytes, the FRAME_SUBMIT that carried it, and
whether its ring line was poisoned or could not be read. -/
structure CodedEntry where
  index : Nat
  entry : Bytes
  hdr : Option CmdHdr
  poisoned : Bool
  unread : Bool
  deriving DecidableEq, Repr

/-- The samples of one picture: luma, Cb and Cr codes, row by row (R605). -/
structure Samples where
  y : List Nat
  cb : List Nat
  cr : List Nat
  deriving DecidableEq, Repr

/-- What an encoder has taken in so far: one submit entry and the samples of its tensor (R586, R606). -/
structure EncInput where
  entry : Bytes
  samples : Samples
  deriving DecidableEq, Repr

/-- A picture that holds a frame buffer (R602): its number in submission (encode) or decoding order, its frame of the pool, its
reference mark (0 NONE, 1 SHORT, 2 LONG), PENDING, the samples with their size and depth, and what its record will say of it
(R598): its PTS, STATUS, TYPE and render size. -/
structure Pic where
  num : Nat
  frame : Nat
  mark : Nat
  pending : Bool
  width : Nat
  height : Nat
  depth : Nat
  samples : Samples
  pts : Nat
  status : Nat
  type : Nat
  renderW : Nat
  renderH : Nat
  deriving DecidableEq, Repr

/-- One output of a stream on its way to its record (R598): an access unit (`data`), a decoded picture (`pic` and its samples, `hevc`
whether its render size is its own), a record that only carries a status, or the END record. -/
structure CodecOut where
  kind : Nat
  status : Nat
  type : Nat
  pts : Nat
  clip : Nat
  data : Bytes
  pic : Option Pic
  hevc : Bool
  deriving DecidableEq, Repr

/-- An open stream (R591 to R602). `par` are the 256 bytes of its parameter block; `ready` are entries consumed whose frame is
not done, `inputs` and `units` what an encoder and a decoder have taken in, `clips` the CLIP_COUNT of each frame, `coded` the frames already coded, `outbox`
outputs not yet written, `paced` records that wait for their time on the unit's pacing clock, `live` the place of each output not yet
released, `lastPic` and `priorPic` the picture decoded last and the one before it, `waiting` the decoded pictures still to be output, in
output order, `bad` the pictures whose prediction is REF_CORRUPT, `ending` that the END record is on its way. -/
structure Stream where
  asn : Nat
  semBase : Nat
  par : Bytes
  state : StreamState
  lastStatus : Nat
  inCount : Nat
  outCount : Nat
  released : Nat
  fed : List FedEntry
  fedEnd : Bool
  ready : List CodedEntry
  ending : Bool
  failed : Bool
  closing : List CmdHdr
  inputs : List EncInput
  clips : List Nat
  units : List (Option Bytes)
  coded : List Nat
  pics : List Pic
  decoded : Nat
  lastPic : Option Pic
  priorPic : Option Pic
  waiting : List Nat
  bad : List Nat
  outbox : List CodecOut
  paced : List (Bytes × Nat)
  paceFrom : Option Nat
  bsNext : Nat
  bsTotal : Nat
  live : List (Nat × Nat)
  openedAt : Nat
  servedAt : Nat
  frames : Nat
  deriving DecidableEq, Repr

/-- The two engines of a codec unit (R587). -/
inductive CodecEngine where
  | entropy | pixel
  deriving DecidableEq, Repr

/-- A frame inside a unit (R587, R588): the engine that fills the syntax buffer, the syntax bytes it has yet to make, and those that lie
in the buffer. -/
structure FrameWork where
  producer : CodecEngine
  left : Nat
  buffered : Nat
  deriving DecidableEq, Repr

/-- One codec unit: the slot it serves, the frame that its engines work on, its pacing clock in ns (R87, R611), and its 32 stream
slots. -/
structure Codec where
  current : Option Nat
  work : Option FrameWork
  clock : Nat
  streams : List (Option Stream)
  deriving DecidableEq, Repr

/-! ### Modes, power, Tally, reliability -/

/-- A mode epoch in progress (R680): `dies` are those that must acknowledge, `late` those that were RESETTING at
step 1 and acknowledged at once. -/
structure Epoch where
  hdr : CmdHdr
  taster : Bool
  value : Nat
  rate : Nat
  since : Nat
  timeoutNs : Nat
  dies : List Nat
  late : List Nat
  acked : List Nat
  deriving DecidableEq, Repr

/-- The committed modes and the epoch in progress (R679 to R682). -/
structure Modes where
  epoch : Nat
  vintage : Bool
  tasteEn : Bool
  rate : Nat
  lastReason : Nat
  ackMissing : Nat
  pending : Option Epoch
  deriving DecidableEq, Repr

/-- REL_VRM STATE (R753). -/
inductive VrmState where
  | absent | healthy | failed | releasing | released
  deriving DecidableEq, Repr

/-- Sensors and loops of the power and thermal manager (R761 to R775). `conds` are the (source, cause)
pairs whose THERMAL condition has begun, `quiet` the 50 µs ticks with P below 0.97 L, `sinceRaise`
the ticks since the last raise, `cool` per die whether every junction was at or below 100.0 °C at the
last tick, `causes` the active power causes. -/
structure Power where
  inputMw : Nat
  peakMw : Nat
  vinMv : Nat
  vrms : List VrmState
  tjDie : List Int
  tjHub : Int
  inlet : Int
  flow : Nat
  conds : List (Nat × Nat)
  quiet : Nat
  sinceRaise : Nat
  cool : List Bool
  causes : Nat
  capped : Bool
  deriving DecidableEq, Repr

/-- TALLY STATE (R787). -/
inductive TallyState where
  | absent | starting | metering | releasing | released | fault
  deriving DecidableEq, Repr

/-- The Tally and the hub's copies (R776 to R787). `records` are the Tally's last 1,024, newest first,
`copied` the flash copy, newest first; the rest is the record being accumulated and the hub's unmetered
count. -/
structure Tally where
  state : TallyState
  bypass : Bool
  fwRev : Nat
  sealBroken : Bool
  serial : Nat
  total : Nat
  seconds : Nat
  recSeq : Nat
  records : List Bytes
  copied : List Bytes
  uncopied : Nat
  lastCopy : Option Nat
  recEnergy : Nat
  recIntervals : Nat
  peakW : Nat
  vinMin : Nat
  vinMax : Nat
  overrange : Bool
  gap : Bool
  first : Bool
  latched : Bytes
  unmSeq : Nat
  unmTotal : Nat
  unmRecord : Nat
  unmIntervals : Nat
  unmPeak : Nat
  unmFrom : Nat
  deriving DecidableEq, Repr

/-- The apportioning totals (R788) and the activity totals of the last closed interval. -/
structure Apportion where
  idle : Nat
  asn : List (Nat × Nat)
  last : List (Nat × Acct)
  weights : List Nat
  deriving DecidableEq, Repr

/-- The hub's copies of the repair map and fault log (R747 to R749): records as bytes; `unwritten`
counts the newest log records not yet in flash, `logged` every record logged. -/
structure Rel where
  map : List Bytes
  log : List Bytes
  unwritten : Nat
  logged : Nat
  lastFlush : Option Nat
  latched : Bytes
  corrHub : Nat
  screens : Nat
  deriving DecidableEq, Repr

/-- The whole module, with the queue of commands that wait (first in, first out); `paused` is what comes over Vinelink ports that idle
(R572). -/
structure State where
  pending : List Instr
  paused : List Instr
  hub : Hub
  flash : Flash
  regs : List (Nat × Word)
  latches : List (Nat × Word)
  queues : List (Nat × HostQueue)
  msg : MsgRing
  out : List Out
  dies : List Die
  spaces : List Space
  ctxs : List Ctx
  promotions : List Promotion
  fills : List ZeroFill
  migrations : List Migration
  decants : List Decant
  xfers : List Xfer
  ports : List Port
  farPorts : List FarPort
  groups : List (Option Group)
  firings : List Firing
  codecs : List Codec
  modes : Modes
  power : Power
  tally : Tally
  app : Apportion
  rel : Rel
  totals : List (Nat × Acct)
  mem : Mem
  poison : List Nat
  cells : List CellError
  traffic : Traffic
  exported : List Ctx
  nextId : Nat
  free : Nat
  deriving DecidableEq, Repr

/-! ### Reset -/

/-- A queue before it is enabled (R625). -/
def HostQueue.reset : HostQueue :=
  { state := .disabled, sqHead := 0, sqTail := 0, cqTail := 0, cqHead := 0, phase := true,
    waiting := [], inProg := [], held := [] }

/-- The message ring at reset (R710). -/
def MsgRing.reset : MsgRing :=
  { head := 0, tail := 0, phase := true, held := [], lost := 0, lostFlag := false, seq := 0 }

/-- An erased flash bank: a header that reads as all ones (notes/assumptions/7). -/
def FlashBank.erased : FlashBank := { header := List.replicate 64 0xFF#8, body := [] }

/-- The flash as the first start-up finds it: attached, every bank erased (notes/assumptions/7). -/
def Flash.reset : Flash :=
  { state := .attached, configA := .erased, configB := .erased, mapA := .erased, mapB := .erased,
    logA := .erased, logB := .erased, tallyA := .erased, tallyB := .erased, writing := [] }

/-- The boot sequencer at step 1 of R692. -/
def Hub.reset : Hub :=
  { boot := .powerOn, refuse := .none, cfgSrc := .none, bankAValid := false, bankBValid := false,
    cfgSeq := 0, timebase := 0, refLost := false, powered := true, link := false, bootCount := 0,
    apply := none, dormantCmd := none, wakeCmd := none, dormantFrom := 0, wakeFrom := 0,
    corkedCount := 0 }

/-- A cluster before its die comes into service (R48). -/
def ClusterMap.reset : ClusterMap := { active := false, role := .none, replaced := 0, faulty := 0 }

/-- An island at reset (R79, R80): 0x28 effective, no cap. -/
def Island.reset : Island :=
  { veff := 0x28, pcap := 0x32, tcap := 0x32, ramping := false, rateNow := 0, rateMin := 0xFFF }

/-- A channel at reset (R519). -/
def Chan.reset : Chan :=
  { degraded := false, caSpare := false, dqA := 0x7F, dqB := 0x7F, remap := [], corrRows := [], toRepair := [] }

/-- A controller at reset (R516 to R521). -/
def Mc.reset : Mc :=
  { state := .off, chans := List.replicate 32 .reset, errCorr := 0, errUncorr := 0, caRetry := 0,
    caExhausted := 0, nominated := [] }

/-- Tracker and bridge counters at a die reset (R523 to R525). -/
def Tracker.reset : Tracker := { peak := 0, fullNs := 0, brg := [0, 0, 0] }

/-- No traffic yet. -/
def Traffic.reset : Traffic :=
  { trk := List.replicate 4 .reset, reads := List.replicate 12 { maxNs := 0, slow := 0 }, drawn := 0 }

/-- A screen engine at reset (R754): no first mismatch reads slot 0x1F. -/
def Screen.reset : Screen :=
  { state := .idle, outcome := 0, round := 0, mismatches := 0, firstCluster := 0, firstSlot := 0x1F,
    slots := [], noMajority := false, moved := false, again := false, id := 0 }

/-- A die at module reset: RESETTING (R45, R692). -/
def Die.reset : Die :=
  { state := .resetting, goal := .boot, stage := 1, clusters := List.replicate 32 .reset, inService := 0,
    islands := List.replicate 32 .reset, mcs := List.replicate 3 .reset,
    screen := .reset, pending := [], flag := 0, hwFaults := [], repeated := false, hangFlag := false,
    wasOnline := false, vintage := false, tasteEn := false, tasteRate := 12, fnPending := false,
    tastePending := false, corr := 0, corked := 0 }

/-- Counters at 0 (R677). -/
def Acct.zero : Acct :=
  { queueWait := 0, cork := 0, tierStall := 0, seated := 0, m1 := 0, m2 := 0, m4 := 0, m8 := 0,
    taste := 0, stall := 0, preempts := 0, corks := 0, c0First := 0 }

/-- A Vinelink port at reset (R576). -/
def Port.reset : Port := { state := .absent, peerSeen := 0, laneFailed := 0, replay := 0, resend := 0, spent := 0, turn := 63 }

/-- A far-tier port at reset (R480). -/
def FarPort.reset : FarPort := { state := .absent, lanes := 0, rate := 0, backed := 0 }

/-- A codec unit with every slot FREE (R619). -/
def Codec.reset : Codec := { current := none, work := none, clock := 0, streams := List.replicate 32 none }

/-- The modes at module reset (R682). -/
def Modes.reset : Modes :=
  { epoch := 0, vintage := false, tasteEn := false, rate := 12, lastReason := 0, ackMissing := 0,
    pending := none }

/-- Sensors before the first reading (every R775 register reads 0; `vinMv` 0 means not measured yet), nine
healthy regulators (notes/assumptions/8). -/
def Power.reset : Power :=
  { inputMw := 0, peakMw := 0, vinMv := 0, vrms := List.replicate 9 .healthy,
    tjDie := [0, 0, 0, 0], tjHub := 0, inlet := 0, flow := 0, conds := [], quiet := 0,
    sinceRaise := 0, cool := [false, false, false, false], causes := 0, capped := false }

/-- No Tally fitted: STATE ABSENT and the bypass closed (R787). -/
def Tally.reset : Tally :=
  { state := .absent, bypass := true, fwRev := 0, sealBroken := false, serial := 0, total := 0,
    seconds := 0, recSeq := 0, records := [], copied := [], uncopied := 0, lastCopy := none,
    recEnergy := 0, recIntervals := 0, peakW := 0, vinMin := 0, vinMax := 0, overrange := false,
    gap := false, first := false, latched := [], unmSeq := 0, unmTotal := 0, unmRecord := 0,
    unmIntervals := 0, unmPeak := 0, unmFrom := 0 }

/-- Apportioning at reset (R790): totals 0, default weights in force. -/
def Apportion.reset : Apportion :=
  { idle := 0, asn := [], last := [], weights := [22, 24, 26, 28, 22, 3072] }

/-- The reliability block's copies at reset. -/
def Rel.reset : Rel :=
  { map := [], log := [], unwritten := 0, logged := 0, lastFlush := none, latched := [], corrHub := 0, screens := 0 }

/-- The module right after power-on: step 1 of R692, every register at its reset value. -/
def State.reset : State :=
  { pending := [], paused := [], hub := .reset, flash := .reset, regs := [], latches := [], queues := [],
    msg := .reset, out := [], dies := List.replicate 4 .reset, spaces := [], ctxs := [],
    promotions := [], fills := [], migrations := [], decants := [], xfers := [],
    ports := List.replicate 18 .reset, farPorts := List.replicate 2 .reset,
    groups := List.replicate 64 none, firings := [], codecs := List.replicate 4 .reset,
    modes := .reset, power := .reset, tally := .reset, app := .reset, rel := .reset, totals := [],
    mem := [], poison := [], cells := [], traffic := .reset, exported := [], nextId := 0, free := 0 }

end Sys2Proof.Machine
end

