-- ==== Sys2Proof/Config.lean ====
section
/-! DEFINITION. Config.lean: what one module is made with and the values the spec leaves open, as
constants without a body: no proof can see what they are, so a statement holds whatever they are. Every
constant is named in notes/assumptions. -/

namespace Sys2Proof

/-- The module's 64-bit serial number (R7; notes/assumptions/14). -/
opaque Config.serial : BitVec 64

/-- The X.509 certificate of the Tally with a given serial number, in DER (R779; notes/assumptions/15). -/
opaque Config.tallyCert : Nat → Bytes

/-- The ECDSA signature a Tally with a given serial number puts over bytes 0 to 63 of a record (R779;
notes/assumptions/15). -/
opaque Config.tallySign : Nat → Bytes → Bytes

/-- The bytes of a context's cork image, 21 × 2 MiB for each cluster (R646; notes/assumptions/16). -/
opaque Config.imageBytes : Machine.Ctx → Bytes

/-- What an exported image of another module holds: PART_CODE, ARITH_REV and the context (R646). -/
structure CorkImage where
  part : Nat
  arith : Nat
  ctx : Machine.Ctx
  deriving DecidableEq, Repr

/-- Reads an image that this module did not export: nothing where its CRC fails (R647;
notes/assumptions/16). -/
opaque Config.readImage : Bytes → Option CorkImage

/-- The stored endpoints of the built-in function tables (R800): set (0 for the CD9 set, 1 for the CD6 set), table 1 to 8,
endpoint; they are fixed data of the device that the spec does not print. The model takes a word only where it keeps what R312 and
R800 state of the set (Machine.stdSet; notes/assumptions/17). -/
opaque Config.tableEndpoint : Nat → Nat → Nat → BitVec 32

/-- Which store a DST_VA of a resume list names where the CORE and POOL ranges of R182 overlap (R673;
notes/assumptions/25): true for the cluster pool. -/
opaque Config.resumeToPool : Nat → Bool

/-! ### Codec units (notes/assumptions/18)

What the entropy and pixel engines compute is given by ITU-T H.265 and the AV1 specification, and for an encoder by choices the
spec does not state; R586 says only what they are functions of. -/

/-- Which frames an encoder codes next, in bitstream order, once it has taken in these submit entries (R586, R592). -/
opaque Config.encodeOrder : Bytes → List Machine.EncInput → List Nat

/-- One coded frame: its TYPE beside key frames, whether later frames may refer to it, the frames it is predicted from, its temporal
layer, its NAL unit type among those its kind of picture may have (HEVC), the payload of its access unit delimiter (HEVC), and the
pieces that follow the headers: for HEVC the slices and other NAL units of the picture, each with whether its start code has a leading
zero byte, for AV1 the OBUs with their types. -/
structure CodedFrame where
  type : Nat
  isRef : Bool
  refs : List Nat
  layer : Nat
  nalType : Nat
  delimiter : Bytes
  pieces : List (Bool × Nat × Bytes)
  deriving DecidableEq, Repr, Inhabited

/-- What coding frame `n` gives (R586, R609). -/
opaque Config.encodeFrame : Bytes → List Machine.EncInput → Nat → CodedFrame

/-- The payload of a parameter set (HEVC: NAL unit type 32 VPS, 33 SPS, 34 PPS) or of a sequence header (AV1: OBU type 1), for a
parameter block, which holds MATRIX, RANGE and TRANSFER, and for the level, as ten times its number, and High tier that it signals (R609). -/
opaque Config.codecHeader : Nat → Bytes → Nat → Bool → Bytes

/-- Syntax bytes of the frame that a stream with this parameter block codes or decodes next, after so many frames (R587). -/
opaque Config.syntaxBytes : Bytes → Nat → Nat

/-- Syntax bytes that an engine makes or takes in one ns (R587); its argument counts the draws. -/
opaque Config.engineRate : Machine.CodecEngine → Nat → Nat

/-- Pictures that carry a mark (1 SHORT, 2 LONG) and pictures still to be output, in output order (R602). -/
structure PicMarks where
  marks : List (Nat × Nat)
  waiting : List Nat
  deriving DecidableEq, Repr, Inhabited

/-- One frame an access unit decodes to: whether it had a syntax or semantic error, the frames it is predicted from, whether it is
an IRAP picture or key frame, its TYPE beside those, its size and render size (R598, R599), its samples, and the marks when it takes its
frame buffer: for HEVC those of its reference picture set. -/
structure DecodedFrame where
  corrupt : Bool
  refs : List Nat
  key : Bool
  type : Nat
  width : Nat
  height : Nat
  renderW : Nat
  renderH : Nat
  samples : Machine.Samples
  before : PicMarks
  deriving DecidableEq, Repr

/-- What R582 asks of an access unit: its chroma format (0 monochrome, 1 4:2:0, 2 4:2:2, 3 4:4:4), its depth, whether it uses one of
the HEVC range, screen-content, scalable and multiview extensions, field or frame-packing coding, its AV1 profile (0 Main, 1 High,
2 Professional), whether it uses AV1 large-scale tile, and ten times its level (R581). -/
structure StreamFeatures where
  chroma : Nat
  depth : Nat
  extension : Bool
  fields : Bool
  packing : Bool
  profile : Nat
  largeTiles : Bool
  level : Nat
  deriving DecidableEq, Repr, Inhabited

/-- What decoding one more access unit gives: the features it uses, the decoded-picture buffering a new HEVC sequence needs, the
frames decoded, the pictures now output, in output order, and the marks afterwards. -/
structure DecodedUnit where
  features : StreamFeatures
  sequence : Option Nat
  frames : List DecodedFrame
  outputs : List Nat
  after : PicMarks
  deriving DecidableEq, Repr, Inhabited

/-- What a decoder gets from its parameter block and its access units so far; `none` is an access unit read with poison (R586). -/
opaque Config.decodeUnit : Bytes → List (Option Bytes) → DecodedUnit

/-- What a frame buffer holds for the picture of a number with these samples: 16-bit luma, 16-bit CbCr and the motion store (R593). -/
opaque Config.frameBuffer : Bytes → Nat → Machine.Samples → Bytes

/-- Bytes that cross a bridge beside the data of a transfer: requests, acknowledgements, headers, and how often an instruction
reads a line again (R525; notes/assumptions/54); its argument counts the draws. -/
opaque Config.moreTraffic : Nat → Nat

/-- The latency in ns of a class-0 read (R506, R507; notes/assumptions/54); its argument counts the draws. -/
opaque Config.readNs : Nat → Nat

/-- Beats an engine instruction's engines are held by operands that do not keep pace (R246; notes/assumptions/75); its argument counts
the draws. -/
opaque Config.operandStall : Nat → Nat

/-- The 64-bit digest a healthy slot reduces a screen round to, for SCR_SEED and the round number (R736; notes/assumptions/71). -/
opaque Config.screenDigest : Nat → Nat → Nat

/-- Fresh free bits: the `n`-th undefined value of the run (notes/assumptions/6). -/
opaque Config.freeWord : Nat → BitVec 32

end Sys2Proof
end

