-- ==== Sys2Proof/Machine/Bytes.lean ====
section
/-! DEFINITION. Machine/Bytes.lean: bit fields, little-endian byte strings (R10), list updates, CRC-32C
(R685, R646) and the sparse memory's own operations. -/

namespace Sys2Proof.Machine

/-! ### Lists -/

/-- The list with its `i`-th entry changed; unchanged when there is none. -/
def modAt {α : Type} (l : List α) (i : Nat) (f : α → α) : List α := l.modify i f

/-- The value a key has in an association list, or `d`. -/
def assocD {α : Type} (l : List (Nat × α)) (k : Nat) (d : α) : α :=
  match l with
  | [] => d
  | (j, v) :: t => if j = k then v else assocD t k d

/-- Sets a key of an association list kept in ascending key order. -/
def assocSet {α : Type} (l : List (Nat × α)) (k : Nat) (v : α) : List (Nat × α) :=
  match l with
  | [] => [(k, v)]
  | (j, w) :: t => if k < j then (k, v) :: (j, w) :: t
                   else if k = j then (k, v) :: t else (j, w) :: assocSet t k v

/-- Inserts a number into an ascending list without repeats. -/
def insertAsc (l : List Nat) (k : Nat) : List Nat :=
  match l with
  | [] => [k]
  | j :: t => if k < j then k :: j :: t else if k = j then j :: t else j :: insertAsc t k

/-- The positions of `l` whose entry meets `p`, in ascending order. -/
def positions {α : Type} (p : α → Bool) (l : List α) : List Nat :=
  (List.range l.length).filter fun i => (l[i]?).any p

/-! ### Bit fields -/

/-- Bits [hi:lo] of a number (R10). -/
def bits (w hi lo : Nat) : Nat := w / 2 ^ lo % 2 ^ (hi + 1 - lo)

/-- Bit `i` of a number. -/
def bit (w i : Nat) : Bool := w.testBit i

/-- 1 for true, 0 for false. -/
def b2n (b : Bool) : Nat := if b then 1 else 0

/-- A value placed at bit `lo`. -/
def at_ (lo v : Nat) : Nat := v * 2 ^ lo

/-- A counter that stays at 2^32 − 1 once it gets there (R197, R520). -/
def sat32 (n : Nat) : Nat := min n (2 ^ 32 - 1)

/-- Two's-complement reading of the low `w` bits. -/
def signed (w n : Nat) : Int := if n % 2 ^ w < 2 ^ (w - 1) then (n % 2 ^ w : Nat) else (n % 2 ^ w : Nat) - (2 ^ w : Nat)

/-- The low `w` bits of an integer in two's complement. -/
def unsigned (w : Nat) (i : Int) : Nat := (i % (2 ^ w : Nat)).toNat

/-! ### Byte strings -/

/-- The `n` little-endian bytes of a number (R10). -/
def leBytes (n v : Nat) : Bytes :=
  match n with
  | 0 => []
  | k + 1 => BitVec.ofNat 8 v :: leBytes k (v / 256)

/-- The number that little-endian bytes hold (R10). -/
def leNat (b : Bytes) : Nat :=
  match b with
  | [] => 0
  | x :: t => x.toNat + 256 * leNat t

/-- The bytes [off, off + n), padded with zeros. -/
def slice (b : Bytes) (off n : Nat) : Bytes :=
  let t := (b.drop off).take n
  t ++ List.replicate (n - t.length) 0#8

/-- The little-endian field of `n` bytes at `off`. -/
def field (b : Bytes) (off n : Nat) : Nat := leNat (slice b off n)

/-- The byte string with a little-endian field written at `off`. -/
def putField (b : Bytes) (off n v : Nat) : Bytes := b.take off ++ leBytes n v ++ b.drop (off + n)

/-- `len` zero bytes with the fields (offset, size, value) written into them. -/
def record (len : Nat) (fs : List (Nat × Nat × Nat)) : Bytes :=
  fs.foldl (fun b f => putField b f.1 f.2.1 f.2.2) (List.replicate len 0#8)

/-- Whether the bytes [off, off + n) are all 0. -/
def zeroAt (b : Bytes) (off n : Nat) : Bool := (slice b off n).all (· == 0#8)

/-! ### CRC-32C -/

/-- One bit step of the reflected Castagnoli polynomial. -/
def crcBit (c : BitVec 32) : BitVec 32 :=
  if c.getLsbD 0 then (c >>> 1) ^^^ 0x82F63B78#32 else c >>> 1

/-- One byte of CRC-32C. -/
def crcByte (c : BitVec 32) (b : Byte) : BitVec 32 :=
  let x := c ^^^ b.setWidth 32
  crcBit (crcBit (crcBit (crcBit (crcBit (crcBit (crcBit (crcBit x)))))))

/-- CRC-32C of a byte string (R685; notes/assumptions/9 for the conventional initial value, bit order
and final complement). -/
def crc32c (b : Bytes) : BitVec 32 := ~~~ (b.foldl crcByte 0xFFFFFFFF#32)

/-! ### Sparse memory -/

/-- The byte at an address: what is listed, or 0. -/
def Mem.read (m : Mem) (a : Nat) : Byte :=
  match m with
  | [] => 0#8
  | (k, v) :: t => if k = a then v else Mem.read t a

/-- Writes one byte, keeping addresses rising and zeros unlisted. -/
def Mem.write (m : Mem) (a : Nat) (v : Byte) : Mem :=
  match m with
  | [] => if v = 0#8 then [] else [(a, v)]
  | (k, w) :: t =>
    if a < k then (if v = 0#8 then (k, w) :: t else (a, v) :: (k, w) :: t)
    else if a = k then (if v = 0#8 then t else (a, v) :: t)
    else (k, w) :: Mem.write t a v

/-- The canonical form of a memory. -/
def Mem.wf (m : Mem) : Bool :=
  match m with
  | [] => true
  | [(_, v)] => v != 0#8
  | (k, v) :: (k', v') :: t => v != 0#8 && decide (k < k') && Mem.wf ((k', v') :: t)

/-- A list of (address, byte) pairs put into canonical form; a later pair of one address wins. -/
def Mem.tidy (m : List Host.Cell) : Mem := m.foldl (fun acc c => acc.write c.1 c.2) []

/-- `n` bytes from an address. -/
def Mem.readN (m : Mem) (a n : Nat) : Bytes := (List.range n).map fun i => m.read (a + i)

/-- Writes bytes from an address up. -/
def Mem.writeN (m : Mem) (a : Nat) (b : Bytes) : Mem :=
  match b with
  | [] => m
  | x :: t => Mem.writeN (m.write a x) (a + 1) t

/-- Memory with the bytes [lo, hi) read as 0. -/
def Mem.clear (m : Mem) (lo hi : Nat) : Mem := m.filter fun c => decide (c.1 < lo) || decide (hi ≤ c.1)

/-- Memory with `n` bytes copied from `src` to `dst`, as they stood before the copy. -/
def Mem.copy (m : Mem) (src dst n : Nat) : Mem :=
  (m.filter fun c => decide (src ≤ c.1) && decide (c.1 < src + n)).foldl
    (fun acc c => acc.write (c.1 - src + dst) c.2) (m.clear dst (dst + n))

end Sys2Proof.Machine
end

