-- ==== Sys2Proof/WellFormed.lean ====
section
/-! DEFINITION. WellFormed.lean: which terms of `Instr` name a command of the block: every operand fits the field
that carries it (R624, R632, R636, R616, R697, R741) or names a part of the module (R21 to R35, R526). Whether a
command is legal is its meaning's business. -/

namespace Sys2Proof

/-- A value of an 8-bit field. -/
def u8 (n : Nat) : Bool := decide (n < 2 ^ 8)
/-- A value of a 16-bit field. -/
def u16 (n : Nat) : Bool := decide (n < 2 ^ 16)
/-- A value of a 30-bit field. -/
def u30 (n : Nat) : Bool := decide (n < 2 ^ 30)
/-- A value of a 31-bit field. -/
def u31 (n : Nat) : Bool := decide (n < 2 ^ 31)
/-- A value of a 32-bit field. -/
def u32 (n : Nat) : Bool := decide (n < 2 ^ 32)
/-- A value of a 64-bit field. -/
def u64 (n : Nat) : Bool := decide (n < 2 ^ 64)

/-- A header that some queue of R623 can carry. -/
def CmdHdr.wf (h : CmdHdr) : Bool := decide (h.queue < 256) && u32 h.id

/-- Bytes of one host read, at most the longest image (R684). -/
def HostRead.wf (r : HostRead) : Bool :=
  match r with
  | .data b => decide (b.length ≤ 0x1000000)
  | .failed => true

/-- A slot or cluster that exists (R21, R36). -/
def TestFinding.wf (f : TestFinding) : Bool :=
  match f with
  | .slot c k => decide (c < 32) && decide (k < 17)
  | .pool c => decide (c < 32)

/-- A channel that exists, and lanes of it (R486, R494). -/
def ChanTrain.wf (t : ChanTrain) : Bool :=
  decide (t.stack < 12) && decide (t.chan < 32) && t.badDq.all (fun l => decide (l < 72)) && t.pprLeft.all fun b => decide (b.1 < 2048)

/-- Lanes and a partner that can exist (R526, R575). -/
def PortTrain.wf (p : PortTrain) : Bool :=
  match p with
  | .noPartner => true
  | .partner lanes m q => decide (lanes < 16) && decide (m < 4096) && decide (q < 18)

/-- Widths and rates of R480. -/
def FarTrain.wf (f : FarTrain) : Bool :=
  match f with
  | .absent | .refused => true
  | .up lanes rate _ => (lanes == 4 || lanes == 8 || lanes == 16) && (rate == 1 || rate == 2)

/-- A packet of at most 4 KiB, in lines (R532). -/
def Packet.wf (p : Packet) : Bool :=
  u16 p.tag && u8 p.gen && u32 p.seq && decide (p.data.length ≤ 4096) && p.data.length % 64 == 0 && p.offset % 64 == 0 &&
  p.poisoned.all fun l => decide (64 * l < p.data.length)

/-- A clear-to-send's fields (R554). -/
def Cts.wf (c : Cts) : Bool := u16 c.tag && u8 c.gen && u32 c.seq && u64 c.bytes && u8 c.addFmt

/-- A context, core or line that can exist. -/
def CaReader.wf (r : CaReader) : Bool :=
  match r with
  | .core a k | .fetch a k => u8 a && decide (k < 2048)
  | .mover dst => decide (dst < 2 ^ 42)
  | .uncork a => u8 a
  | .xfer _ | .other => true

/-- Slots that exist (R735). -/
def ScreenRound.wf (r : ScreenRound) : Bool :=
  r.deviating.all fun x => decide (x.1 < 32) && decide (x.2.1 < 17) && u64 x.2.2

/-- The (source, cause) pairs of THERMAL (R714): junctions of the dies and the hub, inlet and flow, and
their trips. -/
def thermalPair (source cause : Nat) : Bool :=
  (decide (source < 5) && (cause == 1 || cause == 4)) ||
  (source == 5 && (cause == 2 || cause == 3 || cause == 5 || cause == 6))

/-- Whether a term names a command of the block. -/
def Instr.wf (i : Instr) : Bool :=
  match i with
  | .endProg asn core => u8 asn && decide (core < 2048)
  | .loop asn core => u8 asn && decide (core < 2048)
  | .branch asn core => u8 asn && decide (core < 2048)
  | .waitConsume asn core => u8 asn && decide (core < 2048)
  | .waitPeek asn core => u8 asn && decide (core < 2048)
  | .signal asn core => u8 asn && decide (core < 2048)
  | .fence asn core => u8 asn && decide (core < 2048)
  | .trig asn core => u8 asn && decide (core < 2048)
  | .stint asn core => u8 asn && decide (core < 2048)
  | .loadCopy asn core => u8 asn && decide (core < 2048)
  | .loadXreg asn core => u8 asn && decide (core < 2048)
  | .storeCopy asn core => u8 asn && decide (core < 2048)
  | .storeAddInt32 asn core => u8 asn && decide (core < 2048)
  | .storeMinInt32 asn core => u8 asn && decide (core < 2048)
  | .storeMaxInt32 asn core => u8 asn && decide (core < 2048)
  | .storeCas asn core => u8 asn && decide (core < 2048)
  | .storeAddFloat asn core => u8 asn && decide (core < 2048)
  | .storeOrdered asn core => u8 asn && decide (core < 2048)
  | .storeAddInt64 asn core => u8 asn && decide (core < 2048)
  | .decantFromVirtual asn core => u8 asn && decide (core < 2048)
  | .decantFromHost asn core => u8 asn && decide (core < 2048)
  | .leesCheck asn core => u8 asn && decide (core < 2048)
  | .matProd asn core => u8 asn && decide (core < 2048)
  | .attnWindow asn core => u8 asn && decide (core < 2048)
  | .attnCross asn core => u8 asn && decide (core < 2048)
  | .attnPiece asn core => u8 asn && decide (core < 2048)
  | .convolve asn core => u8 asn && decide (core < 2048)
  | .poolMax asn core => u8 asn && decide (core < 2048)
  | .poolAvg asn core => u8 asn && decide (core < 2048)
  | .poolNearest asn core => u8 asn && decide (core < 2048)
  | .foldStats asn core => u8 asn && decide (core < 2048)
  | .foldMerge asn core => u8 asn && decide (core < 2048)
  | .foldNorm asn core => u8 asn && decide (core < 2048)
  | .vecEw asn core => u8 asn && decide (core < 2048)
  | .vecRowb asn core => u8 asn && decide (core < 2048)
  | .vecColb asn core => u8 asn && decide (core < 2048)
  | .vecReduce asn core => u8 asn && decide (core < 2048)
  | .vecScalar asn core => u8 asn && decide (core < 2048)
  | .funcApply asn core => u8 asn && decide (core < 2048)
  | .funcReload asn core => u8 asn && decide (core < 2048)
  | .blendRun asn core => u8 asn && decide (core < 2048)
  | .blendLoad asn core => u8 asn && decide (core < 2048)
  | .instructionComplete asn core _ => u8 asn && decide (core < 2048)
  | .tasterVerdict asn cluster => u8 asn && decide (cluster < 128)
  | .promotionDone asn _ => u8 asn
  | .waitSatisfied asn sem => u8 asn && u8 sem
  | .pieceLandingReady asn core _ => u8 asn && decide (core < 2048)
  | .orderedTurn asn core _ => u8 asn && decide (core < 2048)
  | .decantAccepted asn core => u8 asn && decide (core < 2048)
  | .decantPageDone _ host => host.wf
  | .stintOverrun asn core => u8 asn && decide (core < 2048)
  | .fabricHang die => decide (die < 4)
  | .dieLogicResetDone die => decide (die < 4)
  | .builtInTestDone die findings => decide (die < 4) && findings.all TestFinding.wf
  | .jobComplete asn => u8 asn
  | .seatingDecision => true
  | .sliceExpiry asn => u8 asn
  | .corkBegin asn => u8 asn
  | .corkDone asn => u8 asn
  | .uncorkDone asn => u8 asn
  | .nop h => h.wf
  | .reservedCmd h code first => h.wf && u16 code && u8 first
  | .ctxCreate h asn cls kind sliceUs clusters imageVA resumeVA resumeCount =>
      h.wf && u8 asn && u8 cls && u8 kind && u32 sliceUs && decide (clusters < 2 ^ 128) && u64 imageVA && u64 resumeVA && u16 resumeCount
  | .ctxDestroy h asn => h.wf && u8 asn
  | .ctxCork h asn => h.wf && u8 asn
  | .ctxUncork h asn clusters => h.wf && u8 asn && decide (clusters < 2 ^ 128)
  | .ctxExport h asn move imageVA => h.wf && u8 asn && u8 move && u64 imageVA
  | .ctxSetClass h asn cls sliceUs => h.wf && u8 asn && u8 cls && u32 sliceUs
  | .asnDestroy h asn => h.wf && u8 asn
  | .semAliasSet h asn index ownerAsn ownerIndex => h.wf && u8 asn && u8 index && u8 ownerAsn && u8 ownerIndex
  | .semAliasClear h asn index ownerAsn ownerIndex => h.wf && u8 asn && u8 index && u8 ownerAsn && u8 ownerIndex
  | .semSignal h asn index n => h.wf && u8 asn && u8 index && u32 n
  | .jobLaunch h asn p rank progLen progVA seed =>
      h.wf && u8 asn && u32 p && u32 rank && u32 progLen && u64 progVA && u64 seed
  | .jobEnd h asn => h.wf && u8 asn
  | .descBind h asn first count srcVA => h.wf && u8 asn && u8 first && u16 count && u64 srcVA
  | .trellisBind h asn entries tableVA => h.wf && u8 asn && u16 entries && u64 tableVA
  | .versionSet h asn set slots semBase record => h.wf && u8 asn && u8 set && u8 slots && u8 semBase && u64 record
  | .memAlloc h asn tier w pages va place => h.wf && u8 asn && u8 tier && u8 w && u32 pages && u64 va && u16 place
  | .zeroFillDone asn => u8 asn
  | .memMigrate h asn tier access pages va place =>
      h.wf && u8 asn && u8 tier && u8 access && u32 pages && u64 va && u16 place
  | .migratePageDone asn => u8 asn
  | .memFree h asn pages va => h.wf && u8 asn && u32 pages && u64 va
  | .xferToHost h asn window va winOff bytes => h.wf && u8 asn && u8 window && u64 va && u64 winOff && u64 bytes
  | .xferFromHost h asn window va winOff bytes => h.wf && u8 asn && u8 window && u64 va && u64 winOff && u64 bytes
  | .xferComplete _ host => host.wf
  | .groupCreate h asn size tag gen credits wdMs members =>
      h.wf && u8 asn && u16 size && u16 tag && u8 gen && u16 credits && u16 wdMs && u64 members
  | .groupDestroy h asn slot => h.wf && u8 asn && u8 slot
  | .streamOpen h unit asn semBase paramVA => h.wf && u8 unit && u8 asn && u8 semBase && u64 paramVA
  | .streamClose h stream => h.wf && u8 stream
  | .frameSubmit h stream entry => h.wf && u8 stream && entry.length == 48
  | .frameRelease h stream count => h.wf && u8 stream && u16 count
  | .modeSetVintage h value rateLog2 expectEpoch timeoutUs =>
      h.wf && u8 value && u8 rateLog2 && u32 expectEpoch && u32 timeoutUs
  | .modeSetTaster h value rateLog2 expectEpoch timeoutUs =>
      h.wf && u8 value && u8 rateLog2 && u32 expectEpoch && u32 timeoutUs
  | .dieEpochAck die => decide (die < 4)
  | .epochTimeout => true
  | .applyConfig h _ imageBus imageBytes image => h.wf && u64 imageBus && u32 imageBytes && image.wf
  | .applyStoreOnly h _ imageBus imageBytes image => h.wf && u64 imageBus && u32 imageBytes && image.wf
  | .dormantEnter h => h.wf
  | .dormantPowerDown => true
  | .wake h => h.wf
  | .wakeDone => true
  | .dieDrainHold h die => h.wf && u8 die
  | .dieDrainRepair h die => h.wf && u8 die
  | .dieRestore h die => h.wf && u8 die
  | .sqTailDoorbell q _ fetched images =>
      decide (q < 256) && fetched.all (fun b => b.length == 64) && images.all HostRead.wf
  | .commandFetchError q => decide (q < 256)
  | .cqHeadDoorbell q _ => decide (q < 256)
  | .hqCtlWrite q _ => decide (q < 256)
  | .msgCtlWrite _ => true
  | .msgHeadWrite _ => true
  | .registerWrite off _ _ => decide (off < 0x1000000)
  | .loReadLatch r => decide (r.off < 0x1000000) && decide (1 ≤ r.width) && decide (r.width ≤ 4096)
  | .hubResetModule _ => true
  | .islVsetWrite die isl _ => decide (die < 4) && decide (isl < 32)
  | .islMarginWrite die isl _ => decide (die < 4) && decide (isl < 32)
  | .islRateMinReset die isl _ => decide (die < 4) && decide (isl < 32)
  | .islRampDone die isl => decide (die < 4) && decide (isl < 32)
  | .islRateUpdate die isl rate => decide (die < 4) && decide (isl < 32) && decide (rate < 4096)
  | .mcC0LatMaxClr die mc _ => decide (die < 4) && decide (mc < 3)
  | .trkPeakClr die _ => decide (die < 4)
  | .tqNearQuotaWrite asn _ => u8 asn
  | .tqCellarQuotaWrite asn _ => u8 asn
  | .hwWindowWrite asn window reg _ => u8 asn && decide (window < 16) && decide (reg < 16)
  | .precSettingWrite die slot reg _ => decide (die < 4) && decide (slot < 64) && u8 reg
  | .relDieFlagSet die _ => decide (die < 4)
  | .relDieFlagClr die _ => decide (die < 4)
  | .relFlashRelease _ => true
  | .relFlashAttach _ _ => true
  | .relVrmRelease pos _ => decide (pos < 9)
  | .scrStart die _ => decide (die < 4)
  | .scrStop die _ => decide (die < 4)
  | .screenRoundDone die round => decide (die < 4) && round.wf
  | .relLogIndexWrite _ => true
  | .relMapIndexWrite _ => true
  | .pwrLimitWrite _ => true
  | .pwrPeakClr _ => true
  | .acctClr asn _ => u8 asn
  | .appClr _ => true
  | .acctFlush => true
  | .tallyRelease _ => true
  | .tallyReleaseDone => true
  | .tallyAttach _ => true
  | .tallySelfTestDone _ fwRev serial seconds total recSeq _ =>
      u8 fwRev && u64 serial && u64 seconds && u64 total && u32 recSeq
  | .tallyRecIndexWrite _ => true
  | .tallyIntervalClose energyMJ watts vin10mV _ => u32 energyMJ && u16 watts && u16 vin10mV
  | .tallyRecordClose => true
  | .unmeteredRecord => true
  | .tallyPulled => true
  | .tallyFault => true
  | .tallySealOpened => true
  | .tallyFlashCopy => true
  | .powerLoopTick inputMw => u31 inputMw
  | .thermalCapTick die _ => decide (die < 4)
  | .thermal source cause _ => thermalPair source cause && decide (cause < 4)
  | .thermalTrip source cause _ => thermalPair source cause && decide (4 ≤ cause)
  | .envelopeReturn => true
  | .inputVoltageChange mv => decide (46000 ≤ mv) && decide (mv ≤ 60000)
  | .inputPowerLoss energyMJ watts vin10mV => u32 energyMJ && u16 watts && u16 vin10mV
  | .regulatorFail pos => decide (pos < 9)
  | .regulatorFitted pos => decide (pos < 9)
  | .refClockLost => true
  | .refClockReturn => true
  | .moduleReset => true
  | .hostLinkTrained => true
  | .configReadDone => true
  | .memTrainDone _ chans => chans.all ChanTrain.wf
  | .repairStepDone up findings => up.all (· < 4) && findings.all (fun f => decide (f.1 < 4) && f.2.wf)
  | .portTrainDone ports far => ports.length == 18 && ports.all PortTrain.wf && far.length == 2 && far.all FarTrain.wf
  | .bootStepTimeout _ up findings ports far =>
      up.all (· < 4) && findings.all (fun f => decide (f.1 < 4) && f.2.wf) && ports.length == 18 && ports.all PortTrain.wf && far.length == 2 && far.all FarTrain.wf
  | .hostLinkReset => true
  | .hubUncorrectable => true
  | .faultLogFlush => true
  | .flashWriteDone region _ => decide (region < 4)
  | .patrolScrub die mc chan line rowWord _ =>
      decide (die < 4) && decide (mc < 3) && decide (chan < 32) && u30 rowWord && decide (line < 2 ^ 42)
  | .rowRemap die mc chan rowWord => decide (die < 4) && decide (mc < 3) && decide (chan < 32) && u30 rowWord
  | .caParityError die mc chan retries _ line reader =>
      reader.wf && decide (die < 4) && decide (mc < 3) && decide (chan < 32) && u32 retries && decide (line < 2 ^ 42)
  | .flitReplay port => decide (port < 18)
  | .laneFail port lane => decide (port < 18) && decide (lane < 4)
  | .laneRetrainDone port => decide (port < 18)
  | .portDown port => decide (port < 18)
  | .vlPortRetrain port _ => decide (port < 18)
  | .portRetrainDone port result => decide (port < 18) && result.wf
  | .peerTraining port => decide (port < 18)
  | .farPortDown port => decide (port < 2)
  | .cxlRequestTimeout port => decide (port < 2)
  | .trellisFire asn entry => u8 asn && u16 entry
  | .ctsArrival cts fromRank => cts.wf && decide (fromRank < 256)
  | .ctsRetry cts fromRank => cts.wf && decide (fromRank < 256)
  | .packetArrival p => p.wf
  | .packetAck tag gen seq offset => u16 tag && u8 gen && u32 seq && u64 offset
  | .firingComplete asn entry => u8 asn && u16 entry
  | .abortArrival tag gen seq reason => u16 tag && u8 gen && u32 seq && (reason == 0 || reason == 6 || reason == 7)
  | .groupWait asn entry => u8 asn && u16 entry
  | .tierStall asn sem => u8 asn && u8 sem
  | .keeperPin asn set => u8 asn && decide (set < 32)
  | .keeperRetire asn set => u8 asn && decide (set < 32)
  | .keeperClaim asn set => u8 asn && decide (set < 32)
  | .keeperPublish asn set => u8 asn && decide (set < 32)
  | .codecSubmitConsume stream => decide (stream < 128)
  | .codecStreamSwitch unit => decide (unit < 4)
  | .codecFrameDone unit => decide (unit < 4)
  | .codecReleaseConsume stream => decide (stream < 128)
  | .codecPacedRecord stream => decide (stream < 128)
  | .unmeteredIntervalClose energyMJ => u32 energyMJ
  | .ctxExportDone asn => u8 asn

end Sys2Proof
end

