-- ==== Sys2Proof/Machine/Ops.lean ====
section
/-! DEFINITION. Machine/Ops.lean: the named operations every meaning shares: stored register words,
the message ring, completion entries, the repair map, fault log and flash banks, address spaces and
their pages, physical and virtual memory, contexts, semaphores. -/

namespace Sys2Proof.Machine

/-! ### Outcomes -/

/-- A meaning of a well-formed command answers the next state; an ill-formed term names no command. -/
def event (wf : Bool) (s : State) (f : State → State) : Host.Outcome State Fault Refusal :=
  if wf then .next (f s) else .refused .illFormed

/-! ### Codes -/

/-- The status byte of a completion entry (R635). -/
def Status.code : Status → Nat
  | .ok => 0 | .stateIllegal => 1 | .tableFull => 2 | .bounds => 3 | .quota => 4
  | .formatUnsupported => 5 | .filterTooLarge => 6 | .epochMismatch => 7 | .abortedByDrain => 8
  | .dieLost => 9 | .ended => 10

/-- The fault code byte (R213). -/
def FaultCode.code : FaultCode → Nat
  | .boundsRuntime => 1 | .unmapped => 2 | .malformedOperand => 3 | .stateUncorrectable => 4
  | .stintOverrun => 5 | .fabricHang => 6

/-- BOOT_STATE's encoding (R703). -/
def BootState.code : BootState → Nat
  | .powerOn => 0 | .configRead => 1 | .configApply => 2 | .memTrain => 3 | .repair => 4
  | .portTrain => 5 | .ready => 6 | .awaitConfig => 7 | .refusedPermanent => 8
  | .enteringDormant => 9 | .dormant => 10 | .waking => 11

/-- The refusal reasons' encoding (R696). -/
def RefuseReason.code : RefuseReason → Nat
  | .none => 0 | .noValidBank => 1 | .identity => 2 | .badTarget => 3 | .badValue => 4
  | .serviceMemory => 5 | .trainFailed => 6 | .stepTimeout => 7

/-- CONFIG_SRC's encoding (R702). -/
def ConfigSrc.code : ConfigSrc → Nat
  | .none => 0 | .bankA => 1 | .bankB => 2 | .apply => 3

/-- DIE_STATE's encoding (R46). -/
def DieState.code : DieState → Nat
  | .online => 0 | .resetting => 1 | .draining => 2 | .offline => 3 | .poweredDown => 4

/-- SPARE_ROLE's encoding (R49). -/
def SpareRole.code : SpareRole → Nat
  | .taster => 0 | .repair => 1 | .failed => 2 | .none => 3

/-- VL_PORT_STATUS STATE's encoding (R577). -/
def PortState.code : PortState → Nat
  | .absent => 0 | .training => 1 | .up => 2 | .up3 => 3 | .down => 4 | .miswired => 5 | .disabled => 6

/-- TIER_PORT_STATUS STATE's encoding (R481). -/
def FarState.code : FarState → Nat
  | .absent => 0 | .training => 1 | .up => 2 | .down => 3 | .refused => 4

/-! ### Stored register words -/

/-- Reset words of the registers whose stored bits do not all reset to 0 (R78, R404 to R406, R483, R518,
R625, R710, R751, R754, R775, R790), by BAR0 offset. MSI-X vector control words reset to 1
(notes/assumptions/10). -/
def regReset (off : Nat) : Word :=
  if 0x10000 ≤ off ∧ off < 0x12000 ∧ off % 0x20 = 0x10 then 0x404#32
  else if 0x80000 ≤ off ∧ off < 0x88000 ∧ off % 16 = 12 then 1#32
  else if off = 0x408 then 4#32
  else if 0x310000 ≤ off ∧ off < 0x312000 ∧ off % 0x20 = 0x10 then 50#32
  else if 0x400000 ≤ off ∧ off < 0xC00000 then
    let o := off % 0x200000
    if 0x1000 ≤ o ∧ o < 0x1200 ∧ o % 16 = 0 then 0x28#32
    else if 0x40000 ≤ o ∧ o < 0x70000 ∧ o % 0x10000 = 4 then 0x401#32
    else if 0x101000 ≤ o ∧ o < 0x105000 then
      let p := o % 0x100
      if p = 4 then 0x3D000000#32
      else if 0x10 ≤ p ∧ p < 0x50 ∧ p % 8 = 4 then 0x00FFFF00#32 else 0#32
    else 0#32
  else if off = 0xC00004 then 3400#32
  else if off = 0xC02000 then 22#32
  else if off = 0xC02004 then 24#32
  else if off = 0xC02008 then 26#32
  else if off = 0xC0200C then 28#32
  else if off = 0xC02010 then 22#32
  else if off = 0xC02014 then 3072#32
  else if off = 0xD00004 then 0x05A00003#32
  else if 0xD00100 ≤ off ∧ off < 0xD00200 ∧ off % 0x40 = 0 then 0x10280300#32
  else 0#32

/-- The stored word of the register at a BAR0 offset. -/
def getReg (s : State) (off : Nat) : Word := assocD s.regs off (regReset off)

/-- Replaces the stored word of a register. -/
def setReg (s : State) (off : Nat) (v : Word) : State := { s with regs := assocSet s.regs off v }

/-- Bits [hi:lo] of a stored word. -/
def regBits (s : State) (off hi lo : Nat) : Nat := bits (getReg s off).toNat hi lo

/-- Sets the bits of `m` in a stored word: how W1C flags are raised. -/
def setBits (s : State) (off : Nat) (m : Word) : State := setReg s off (getReg s off ||| m)

/-- The start of die `d`'s window (R54). -/
def dieBase (d : Nat) : Nat := 0x400000 + d * 0x200000

/-- The precision block of a context slot (R401 f.). -/
def precBase (d slot : Nat) : Nat := dieBase d + 0x101000 + 0x100 * slot

/-! ### Dies -/

/-- Die `d`. -/
def getDie (s : State) (d : Nat) : Die := s.dies.getD d Die.reset

/-- Changes die `d`. -/
def modDie (s : State) (d : Nat) (f : Die → Die) : State := { s with dies := modAt s.dies d f }

/-- Whether die `d` is in the given state. -/
def dieIs (s : State) (d : Nat) (st : DieState) : Bool := (getDie s d).state == st

/-- The mapping of cluster `c` of die `d` (R48). -/
def clusterMap (s : State) (g : Nat) : ClusterMap := (getDie s (g / 32)).clusters.getD (g % 32) .reset

/-- Dies that are ONLINE, as a bit mask. -/
def onlineMask (s : State) : Nat :=
  ((List.range 4).map fun d => b2n (dieIs s d .online) * 2 ^ d).sum

/-! ### Interrupts -/

/-- BAR0 offset of MSI-X entry `v` (R707). -/
def msixEntry (v : Nat) : Nat := 0x80000 + 16 * v

/-- BAR0 offset and bit of a vector's pending bit (R707). -/
def msixPending (v : Nat) : Nat × Nat := (0x90000 + 4 * (v / 32), v % 32)

/-- Raises an MSI-X vector (R706 to R708): sent, or pending while its table entry is masked (notes/assumptions/10). -/
def raiseMsix (v : Nat) (s : State) : State :=
  if bit (getReg s (msixEntry v + 12)).toNat 0 then setBits s (msixPending v).1 (BitVec.ofNat 32 (2 ^ (msixPending v).2))
  else { s with out := s.out ++ [.msix v] }

/-! ### The message ring -/

/-- Bus address of the message ring (R710). -/
def msgBase (s : State) : Nat := (getReg s 0x400).toNat / 0x1000 * 0x1000 + (getReg s 0x404).toNat * 2 ^ 32

/-- Entries of the message ring. -/
def msgSize (s : State) : Nat := 2 ^ regBits s 0x408 3 0

/-- Whether writing one more message would make TAIL equal to HEAD (R712). -/
def msgFull (s : State) : Bool := (s.msg.tail + 1) % msgSize s == s.msg.head

/-- Writes the oldest held message, with LOST and PHASE (R712, R713), and raises its vector. -/
def msgWriteOne (s : State) : State :=
  match s.msg.held with
  | [] => s
  | e :: t =>
    let e1 := if s.msg.lostFlag then putField e 2 1 1 else e
    let e2 := putField e1 63 1 (b2n s.msg.phase)
    let nt := (s.msg.tail + 1) % msgSize s
    raiseMsix (regBits s 0x408 26 16) { s with
      out := s.out ++ [.hostWrite (msgBase s + 64 * s.msg.tail) e2]
      msg := { s.msg with held := t, tail := nt, lostFlag := false
                          phase := if nt = 0 then !s.msg.phase else s.msg.phase } }

/-- Writes held messages oldest first while there is room and EN is 1 (R712). -/
def msgDrainN (n : Nat) (s : State) : State :=
  match n with
  | 0 => s
  | k + 1 => if bit (getReg s 0x408).toNat 31 && !msgFull s && !s.msg.held.isEmpty then
               msgDrainN k (msgWriteOne s) else s

/-- Writes every held message there is room for. -/
def msgDrain (s : State) : State := msgDrainN s.msg.held.length s

/-- Sends a message (R712, R713): header, TIME and the payload fields (offset in the entry, size,
value); lost when 256 are held. -/
def sendMsg (s : State) (code : Nat) (fs : List (Nat × Nat × Nat)) : State :=
  let e := record 64 ((0, 2, code) :: (4, 4, s.msg.seq) :: (8, 8, s.hub.timebase) :: fs)
  if s.msg.held.length < 256 then
    msgDrain { s with msg := { s.msg with held := s.msg.held ++ [e], seq := (s.msg.seq + 1) % 2 ^ 32 } }
  else
    { s with msg := { s.msg with lost := sat32 (s.msg.lost + 1), lostFlag := true
                                 seq := (s.msg.seq + 1) % 2 ^ 32 } }

/-! ### Host queues and completion entries -/

/-- Queue `q`. -/
def getQ (s : State) (q : Nat) : HostQueue := assocD s.queues q .reset

/-- Replaces queue `q`. -/
def setQ (s : State) (q : Nat) (v : HostQueue) : State := { s with queues := assocSet s.queues q v }

/-- BAR0 offset of queue `q`'s register block (R625). -/
def hqBase (q : Nat) : Nat := 0x10000 + 0x20 * q

/-- Bus address of queue `q`'s completion ring. -/
def cqAddr (s : State) (q : Nat) : Nat :=
  (getReg s (hqBase q + 8)).toNat / 0x1000 * 0x1000 + (getReg s (hqBase q + 12)).toNat * 2 ^ 32

/-- Entries of queue `q`'s submission and completion rings. -/
def sqSize (s : State) (q : Nat) : Nat := 2 ^ regBits s (hqBase q + 16) 11 8
/-- Entries of queue `q`'s completion ring. -/
def cqSize (s : State) (q : Nat) : Nat := 2 ^ regBits s (hqBase q + 16) 3 0

/-- HQ_CTL.EN of queue `q`. -/
def hqEnabled (s : State) (q : Nat) : Bool := bit (getReg s (hqBase q + 16)).toNat 31

/-- Whether writing one more completion entry would make CQ_TAIL equal to the host's HEAD (R631). -/
def cqFull (s : State) (q : Nat) : Bool := ((getQ s q).cqTail + 1) % cqSize s q == (getQ s q).cqHead

/-- Writes the oldest held completion entry of queue `q` with its PHASE, and raises its vector (R631); a JOB_LAUNCH is in progress
until its launch entry is written (R628). -/
def cqWriteOne (s : State) (q : Nat) : State :=
  let h := getQ s q
  match h.held with
  | [] => s
  | e :: t =>
    let nt := (h.cqTail + 1) % cqSize s q
    let run := if field e 4 2 = 0x0020 ∧ field e 6 1 = 0 then h.inProg.erase { id := field e 0 4, cmd := 0x0020 } else h.inProg
    let s1 := setQ s q { h with held := t, inProg := run, cqTail := nt, phase := if nt = 0 then !h.phase else h.phase }
    raiseMsix (regBits s (hqBase q + 16) 26 16)
      { s1 with out := s1.out ++ [.hostWrite (cqAddr s q + 32 * h.cqTail) (putField e 31 1 (b2n h.phase))] }

/-- Writes up to `n` held completion entries while EN is 1 and there is room (R631, R709). -/
def cqDrainN (n : Nat) (s : State) (q : Nat) : State :=
  match n with
  | 0 => s
  | k + 1 => if hqEnabled s q && !cqFull s q && !(getQ s q).held.isEmpty then cqDrainN k (cqWriteOne s q) q
             else s

/-- Writes every held completion entry there is room for. -/
def cqDrain (s : State) (q : Nat) : State := cqDrainN (getQ s q).held.length s q

/-- A completion entry without its PHASE (R638). `detail` holds 16 bytes. -/
def completionEntry (id cmd kind : Nat) (st : Status) (detail : Bytes) : Bytes :=
  (record 8 [(0, 4, id), (4, 2, cmd), (6, 1, kind), (7, 1, st.code)]) ++ slice detail 0 16 ++ List.replicate 8 0#8

/-- Appends a completion entry to queue `q` and writes what can be written. -/
def pushCompletion (s : State) (q : Nat) (e : Bytes) : State :=
  let h := getQ s q
  cqDrain (setQ s q { h with held := h.held ++ [e] }) q

/-- Completes a command (R628, R631): it is no longer in progress, a JOB_LAUNCH apart, and its entry follows. -/
def complete (s : State) (h : CmdHdr) (cmd : Nat) (st : Status) (detail : Bytes) : State :=
  let qq := getQ s h.queue
  pushCompletion (setQ s h.queue { qq with inProg := if cmd = 0x0020 then qq.inProg else qq.inProg.erase { id := h.id, cmd := cmd } })
    h.queue (completionEntry h.id cmd 0 st detail)

/-- Marks a command as started (R628). -/
def beginCmd (s : State) (h : CmdHdr) (cmd : Nat) : State :=
  let qq := getQ s h.queue
  setQ s h.queue { qq with inProg := qq.inProg ++ [{ id := h.id, cmd := cmd }] }

/-! ### Flash banks (R684 to R688) -/

/-- MAGIC of a region (R684). -/
def Region.magic : Region → Nat
  | .config => 0x46434C4B | .repairMap => 0x4D524C4B | .faultLog => 0x4C464C4B | .tally => 0x59544C4B

/-- Size of one bank of a region (R684). -/
def Region.bankSize : Region → Nat
  | .config => 0x1000000 | .repairMap => 0x200000 | .faultLog => 0x800000 | .tally => 0x40000

/-- A header without its CRC (R685). -/
def bankHeader (r : Region) (seq len part pkg : Nat) : Bytes :=
  record 64 [(0, 4, r.magic), (4, 4, seq), (8, 4, len), (16, 2, 1), (18, 2, part), (20, 1, pkg)]

/-- CRC of a bank: the header with its CRC field taken as 0, then LENGTH body bytes (R685). -/
def bankCrc (header body : Bytes) : Nat :=
  (crc32c (putField header 12 4 0 ++ slice body 0 (field header 8 4))).toNat

/-- A complete bank. -/
def mkBank (r : Region) (seq part pkg : Nat) (body : Bytes) : FlashBank :=
  let h := bankHeader r seq body.length part pkg
  { header := putField h 12 4 (bankCrc h body), body := body }

/-- Whether a bank is valid (R686). -/
def bankValid (r : Region) (b : FlashBank) : Bool :=
  let len := field b.header 8 4
  b.header.length == 64 && field b.header 0 4 == r.magic && field b.header 16 2 == 1 &&
  len % 8 == 0 && decide (len ≤ r.bankSize - 64) && decide (len ≤ b.body.length) &&
  zeroAt b.header 21 43 && field b.header 12 4 == bankCrc b.header b.body

/-- The two banks of a region. -/
def Flash.banks (f : Flash) : Region → FlashBank × FlashBank
  | .config => (f.configA, f.configB) | .repairMap => (f.mapA, f.mapB)
  | .faultLog => (f.logA, f.logB) | .tally => (f.tallyA, f.tallyB)

/-- Replaces bank B (`true`) or A of a region. -/
def Flash.setBank (f : Flash) (r : Region) (toB : Bool) (b : FlashBank) : Flash :=
  match r, toB with
  | .config, false => { f with configA := b } | .config, true => { f with configB := b }
  | .repairMap, false => { f with mapA := b } | .repairMap, true => { f with mapB := b }
  | .faultLog, false => { f with logA := b } | .faultLog, true => { f with logB := b }
  | .tally, false => { f with tallyA := b } | .tally, true => { f with tallyB := b }

/-- The selected bank: `some true` for B, `some false` for A (R687). -/
def selectBank (r : Region) (a b : FlashBank) : Option Bool :=
  match bankValid r a, bankValid r b with
  | true, true =>
    let d := (field b.header 4 4 + 2 ^ 32 - field a.header 4 4) % 2 ^ 32
    some (decide (1 ≤ d) && decide (d ≤ 2 ^ 31 - 1))
  | true, false => some false
  | false, true => some true
  | false, false => none

/-- The bank a write goes to and the SEQ it carries (R688). -/
def writeTarget (f : Flash) (r : Region) : Bool × Nat :=
  let (a, b) := f.banks r
  match selectBank r a b with
  | some true => (false, (field b.header 4 4 + 1) % 2 ^ 32)
  | some false => (true, (field a.header 4 4 + 1) % 2 ^ 32)
  | none => (false, 1)

/-- Erases the target of the first queued write of a region (R688). -/
def eraseTarget (f : Flash) (r : Region) : Flash := f.setBank r (writeTarget f r).1 .erased

/-- Starts a bank write, or queues it behind one of the same region (R688). -/
def startFlashWrite (s : State) (w : FlashWrite) : State :=
  let f := s.flash
  let f1 := if f.writing.any (fun x => x.region == w.region) then f else eraseTarget f w.region
  { s with flash := { f1 with writing := f.writing ++ [w] } }

/-- Whether the flash can be written: attached (R757). -/
def flashReady (s : State) : Bool := s.flash.state == .attached

/-- The part and package codes this module writes into its own banks (R2, R685). -/
def ownPart : Nat := 0x0CD9

/-! ### Fault log and repair map (R747 to R749) -/

/-- Writes the fault log to flash where the flash is attached. -/
def flushLog (s : State) : State :=
  if flashReady s then
    let keep := (Region.faultLog.bankSize - 64) / 64
    let recs := s.rel.log.drop (s.rel.log.length - keep)
    { startFlashWrite s { region := .faultLog, body := recs.flatten, part := ownPart, pkg := 0, upTo := s.rel.logged } with
      rel := { s.rel with log := recs, lastFlush := some s.hub.timebase } }
  else s

/-- Writes the repair map to flash where the flash is attached (R749). -/
def flushMap (s : State) : State :=
  if flashReady s then
    startFlashWrite s { region := .repairMap, body := s.rel.map.flatten, part := ownPart, pkg := 0, upTo := 0 }
  else s

/-- The fields of a fault-log record (R748); 0xFF, 0xFFFF and 0xFFFF_FFFF stand for none. -/
structure LogEntry where
  type : Nat
  die : Nat := 0xFF
  code : Nat := 0
  core : Nat := 0xFFFF
  cluster : Nat := 0xFF
  slot : Nat := 0xFF
  asn : Nat := 0xFF
  ctxSlot : Nat := 0xFF
  index : Nat := 0xFFFFFFFF
  screen : Bytes := []
  deriving DecidableEq, Repr

/-- A fault-log record's 64 bytes (R748); ARITH_REV is 3 (R3). -/
def logBytes (s : State) (e : LogEntry) : Bytes :=
  record 32 [(0, 2, e.type), (2, 1, e.die), (3, 1, e.code), (4, 2, e.core), (6, 1, e.cluster),
    (7, 1, e.slot), (8, 1, e.asn), (9, 1, e.ctxSlot), (12, 4, e.index), (16, 8, s.hub.timebase),
    (24, 4, s.hub.bootCount), (28, 1, 3)] ++ slice e.screen 0 32

/-- Adds a record to the hub's copy; with 4,096 unwritten the oldest unwritten one is lost. TYPE 3, 5
and 9 are written to flash at once, and so is a SCREEN record whose outcome is not PASS (R749). -/
def logFault (s : State) (e : LogEntry) : State :=
  let l := if s.rel.unwritten < 4096 then s.rel.log else s.rel.log.eraseIdx (s.rel.log.length - 4096)
  let s1 := { s with rel := { s.rel with log := l ++ [logBytes s e]
                                         unwritten := min 4096 (s.rel.unwritten + 1), logged := s.rel.logged + 1 } }
  if e.type = 3 ∨ e.type = 5 ∨ e.type = 9 ∨ (e.type = 4 ∧ e.code ≠ 0) then flushLog s1 else s1

/-- Adds a repair-map record (R747): TYPE, bytes 1 to 7, BOOT. -/
def mapRecord (s : State) (type b1 b2 b3 w4 : Nat) : Bytes :=
  record 16 [(0, 1, type), (1, 1, b1), (2, 1, b2), (3, 1, b3), (4, 4, w4), (8, 4, s.hub.bootCount)]

/-- Records a repair, retirement or flag and writes the map to flash (R749). -/
def addMap (s : State) (type b1 b2 b3 w4 : Nat) : State :=
  flushMap { s with rel := { s.rel with map := s.rel.map ++ [mapRecord s type b1 b2 b3 w4] } }

/-! ### Address spaces and pages (R440 to R448) -/

/-- Bytes of a page (R441). -/
def pageBytes : Nat := 2 ^ 21
/-- Near-tier physical pages lie below this page number (R56). -/
def nearEnd : Nat := 442368
/-- Whether a physical page is in the near tier. -/
def isNear (ppn : Nat) : Bool := decide (ppn < nearEnd)
/-- The far-tier port of a cellar page (R56). -/
def portOf (ppn : Nat) : Nat := if ppn < 16777216 then 0 else 1

/-- The space of an ASN, if it exists (R639). -/
def spaceOf (s : State) (asn : Nat) : Option Space := s.spaces.find? fun x => x.asn == asn

/-- Changes an ASN's space. -/
def modSpace (s : State) (asn : Nat) (f : Space → Space) : State :=
  { s with spaces := s.spaces.map fun x => if x.asn = asn then f x else x }

/-- The page of an ASN at a page number. -/
def pageOf (s : State) (asn vpn : Nat) : Option Page :=
  (spaceOf s asn).bind fun x => x.pages.find? fun p => p.vpn == vpn

/-- Changes one page of an ASN. -/
def modPage (s : State) (asn vpn : Nat) (f : Page → Page) : State :=
  modSpace s asn fun x => { x with pages := x.pages.map fun p => if p.vpn = vpn then f p else p }

/-- Physical pages in use: mapped pages, cork areas, and pages copies are on their way to. -/
def usedPpns (s : State) : List Nat :=
  s.spaces.flatMap (fun x => x.pages.map (·.ppn)) ++ s.ctxs.flatMap (·.corkPages) ++
  s.promotions.map (·.dst) ++ s.migrations.flatMap (fun m => m.left.filterMap (·.2))

/-- A place pages can be taken from (R454): a stack, or a far-tier port with its backed pages. -/
def placeRange (s : State) (tier p : Nat) : Nat × Nat :=
  if tier = 0 then (p * 36864, 36861) else ((p + 1) * 8388608, (s.farPorts.getD p .reset).backed)

/-- Whether far-tier port `p` is UP. -/
def farUp (s : State) (p : Nat) : Bool := (s.farPorts.getD p .reset).state == .up

/-- The places PLACE allows, in ascending order (R454). -/
def places (s : State) (tier place : Nat) : List Nat :=
  if tier = 0 then (List.range 12).filter fun i => place == 0 || bit place i
  else (List.range 2).filter fun i => farUp s i && (place == 0 || bit place i)

/-- The lowest free page of a range, given the pages in use. -/
def freeIn (used : List Nat) (lo n : Nat) : Option Nat :=
  ((List.range (min n (used.length + 1))).map (lo + ·)).find? fun p => !used.contains p

/-- The first place at or after position `i`, cyclically over `n` tries, that has a free page (R456). -/
def takeFrom (s : State) (tier : Nat) (pl used : List Nat) (i n : Nat) : Option (Nat × Nat) :=
  match n with
  | 0 => none
  | k + 1 =>
    let j := i % pl.length
    let r := placeRange s tier (pl.getD j 0)
    match freeIn used r.1 r.2 with
    | some p => some (p, j + 1)
    | none => takeFrom s tier pl used (j + 1) k

/-- Takes `n` pages under R456: ascending cyclic order over the allowed places, from the lowest. -/
def takePages (s : State) (tier : Nat) (pl used : List Nat) (i n : Nat) : Option (List Nat) :=
  match n with
  | 0 => some []
  | k + 1 =>
    match takeFrom s tier pl used i pl.length with
    | none => none
    | some (p, j) => (takePages s tier pl (p :: used) j k).map (p :: ·)

/-! ### Near-tier controllers and errors in cells (R487 to R491, R497) -/

/-- The controller of a stack: die stack / 3, controller stack mod 3 (R28). -/
def modMc (s : State) (stack : Nat) (f : Mc → Mc) : State :=
  modDie s (stack / 3) fun d => { d with mcs := modAt d.mcs (stack % 3) f }

/-- Changes one channel of a stack. -/
def modChan (s : State) (stack chan : Nat) (f : Chan → Chan) : State :=
  modMc s stack fun m => { m with chans := modAt m.chans chan f }

/-- A channel of a stack. -/
def getChan (s : State) (stack chan : Nat) : Chan :=
  ((getDie s (stack / 3)).mcs.getD (stack % 3) .reset).chans.getD chan .reset

/-- The controller of a die. -/
def getMc (s : State) (d mc : Nat) : Mc := (getDie s d).mcs.getD mc .reset

/-- MC_CTL of a controller (R518). -/
def mcCtl (d mc : Nat) : Nat := dieBase d + 0x40004 + 0x10000 * mc

/-- The channel of a line of a stack (R487): c′ XOR o[25:21]. -/
def channelOf (line : Nat) : Nat :=
  let o := 64 * line % (36864 * pageBytes)
  Nat.xor (bits o 12 8) (bits o 25 21)

/-- The pseudo-channel of a line (R487): o[13]. -/
def pcOf (line : Nat) : Bool := bit (64 * line) 13

/-- Whether a line lies on a channel of a controller (R28, R56, R487). -/
def lineOn (d mc chan line : Nat) : Bool := 64 * line / (36864 * pageBytes) == 3 * d + mc && channelOf line == chan

/-- Whether a row word (R522) can be the row of a line: its PC is the line's pseudo-channel. -/
def rowFits (row line : Nat) : Bool := bit row 29 == pcOf line

/-- Nominates a row for remapping (R497). -/
def Mc.nominate (m : Mc) (chan row : Nat) : Mc :=
  if m.nominated.contains (chan, row) then m else { m with nominated := m.nominated ++ [(chan, row)] }

/-- Counts a corrected error of a row: at most 256 rows, the one whose last error is oldest dropped (R497). -/
def Chan.countRow (c : Chan) (row : Nat) : Chan × Nat :=
  let n := assocD c.corrRows row 0 + 1
  let rest := c.corrRows.filter fun r => r.1 != row
  let kept := if rest.length < 256 then rest else rest.drop 1
  ({ c with corrRows := kept ++ [(row, n)] }, n)

/-- One corrected error (R490, R497): a row whose count has reached MC_CTL.REMAP_THRESH is nominated, where a lowered threshold is
below the count at its next error. -/
def correctedError (s : State) (d mc chan row : Nat) : State :=
  let m := getMc s d mc
  let r := (m.chans.getD chan .reset).countRow row
  let m1 := { m with errCorr := sat32 (m.errCorr + 1), chans := m.chans.set chan r.1 }
  let m2 := if regBits s (mcCtl d mc) 15 8 ≤ r.2 then m1.nominate chan row else m1
  modMc s (3 * d + mc) fun _ => m2

/-- Marks lines poisoned (R491, R536). -/
def addPoison (s : State) (lines : List Nat) : State := { s with poison := lines.foldl insertAsc s.poison }

/-- One uncorrectable error (R491): the line is written back with the poison mark, its row is nominated. -/
def uncorrectable (s : State) (d mc chan line row : Nat) : State :=
  let s1 := modMc s (3 * d + mc) fun m => Mc.nominate { m with errUncorr := sat32 (m.errUncorr + 1) } chan row
  addPoison s1 [line]

/-- An access meets an error in a line (R490, R491): it is corrected in the stack, or the line is poisoned; no later access meets
it. -/
def meetCell (s : State) (c : CellError) : State :=
  let s1 := { s with cells := s.cells.erase c }
  let st := 64 * c.line / (36864 * pageBytes)
  if c.fixable then correctedError s1 (st / 3) (st % 3) (channelOf c.line) c.row
  else uncorrectable s1 (st / 3) (st % 3) (channelOf c.line) c.line c.row

/-- A read of [pa, pa + n) meets the errors in its lines. -/
def meetCells (s : State) (pa n : Nat) : State :=
  (s.cells.filter fun c => decide (pa / 64 ≤ c.line) && decide (c.line ≤ (pa + n - 1) / 64)).foldl meetCell s

/-- A write of [pa, pa + n) reads the lines it covers in part, and leaves no error in a line it covers whole. -/
def meetWrite (s : State) (pa n : Nat) : State :=
  let whole := fun (c : CellError) => decide (pa ≤ 64 * c.line) && decide (64 * c.line + 64 ≤ pa + n)
  if s.cells.isEmpty then s else meetCells { s with cells := s.cells.filter fun c => !whole c } pa n

/-! ### Contexts -/

/-- The context of an ASN (R639). -/
def ctxOf (s : State) (asn : Nat) : Option Ctx := s.ctxs.find? fun c => c.asn == asn

/-- Changes the context of an ASN. -/
def modCtx (s : State) (asn : Nat) (f : Ctx → Ctx) : State :=
  { s with ctxs := s.ctxs.map fun c => if c.asn = asn then f c else c }

/-- Changes one core of a context. -/
def modCore (s : State) (asn core : Nat) (f : Core → Core) : State :=
  modCtx s asn fun c => { c with cores := modAt c.cores core f }

/-- A core of a context. -/
def coreOf (s : State) (asn core : Nat) : Option Core := (ctxOf s asn).bind fun c => c.cores[core]?

/-- Resident: holds slots (R642). -/
def Ctx.resident (c : Ctx) : Bool := c.state != .corked

/-- Effective class: inherited, or assigned; a raise of a CORKED context takes effect when it is uncorked (R669). -/
def Ctx.effClass (c : Ctx) : Nat := if c.state = .corked then c.cls else c.raised.foldl (fun k r => min k r.2.2) c.cls

/-- The dies a context's set touches, ascending. -/
def Ctx.dies (c : Ctx) : List Nat := (List.range 4).filter fun d => c.set.any fun g => g / 32 == d

/-- The die of context-relative core `k`. -/
def Ctx.dieOfCore (c : Ctx) (k : Nat) : Nat := c.set.getD (k / 16) 0 / 32

/-- Logical core id of R35 for context-relative core `k`. -/
def Ctx.coreId (c : Ctx) (k : Nat) : Nat := c.set.getD (k / 16) 0 * 16 + k % 16

/-- The resident context that holds slot `sl` on die `d`. -/
def slotOwner (s : State) (d sl : Nat) : Option Ctx :=
  s.ctxs.find? fun c => c.slots.getD d none == some sl

/-- Whether a job of the ASN's context runs (R651). -/
def jobRunning (s : State) (asn : Nat) : Bool := ((ctxOf s asn).bind (·.job)).isSome

/-- Core registers at job start (R153). -/
def startRegs (core cores p rank : Nat) : List Word :=
  [0#32, BitVec.ofNat 32 core, BitVec.ofNat 32 cores, BitVec.ofNat 32 p, BitVec.ofNat 32 rank] ++
    List.replicate 11 0#32

/-- Reads X[i]; X0 reads 0 (R153). -/
def Core.xr (c : Core) (i : Nat) : Word := if i = 0 then 0#32 else c.x.getD i 0#32

/-- Writes X[i]; X0 ignores writes (R153). -/
def Core.setX (c : Core) (i : Nat) (v : Word) : Core := if i = 0 then c else { c with x := c.x.set i v }

/-! ### Physical memory and poison (R490 to R492) -/

/-- Whether any line of [pa, pa + n) is poisoned. -/
def poisonedIn (s : State) (pa n : Nat) : Bool :=
  decide (0 < n) && s.poison.any fun l => decide (pa / 64 ≤ l) && decide (l ≤ (pa + n - 1) / 64)

/-- Whether a write of [pa, pa + n) covers a whole line. -/
def coversLine (pa n l : Nat) : Bool := decide (pa ≤ 64 * l) && decide (64 * l + 64 ≤ pa + n)

/-- The bytes of a write that take effect: those of lines covered whole or not poisoned (R492). -/
def physWriteBytes (m : Mem) (poison : List Nat) (pa n : Nat) (a : Nat) (b : Bytes) : Mem :=
  match b with
  | [] => m
  | x :: t =>
    let m1 := if coversLine pa n (a / 64) || !poison.contains (a / 64) then m.write a x else m
    physWriteBytes m1 poison pa n (a + 1) t

/-- A physical write: a whole line clears its poison mark, a partial write to a poisoned line is
discarded (R492); a partial write reads its line and meets an error in its cells. -/
def physWrite (s0 : State) (pa : Nat) (b : Bytes) : State :=
  let s := meetWrite s0 pa b.length
  { s with mem := physWriteBytes s.mem s.poison pa b.length pa b
           poison := s.poison.filter fun l => !coversLine pa b.length l }

/-- Copies one physical page to another, marks included (R452, R459); the reads meet errors in its cells, the writes leave none. -/
def copyPage (s0 : State) (src dst : Nat) : State :=
  let s1 := meetCells s0 (src * pageBytes) pageBytes
  let s := { s1 with cells := s1.cells.filter fun c => decide (c.line / 32768 != dst) }
  let a := src * pageBytes
  let b := dst * pageBytes
  let la := a / 64
  let lb := b / 64
  let lines := pageBytes / 64
  let keep := s.poison.filter fun l => decide (l < lb) || decide (lb + lines ≤ l)
  let moved := (s.poison.filter fun l => decide (la ≤ l) && decide (l < la + lines)).map fun l => l - la + lb
  { s with mem := s.mem.copy a b pageBytes, poison := moved.foldl insertAsc keep }

/-- Zero-fills a physical page (R457). -/
def zeroPage (s : State) (ppn : Nat) : State :=
  let a := ppn * pageBytes
  { s with mem := s.mem.clear a (a + pageBytes)
           poison := s.poison.filter fun l => decide (l < a / 64) || decide (a / 64 + pageBytes / 64 ≤ l)
           cells := s.cells.filter fun c => decide (c.line / 32768 != ppn) }

/-! ### Virtual memory -/

/-- The pieces of a virtual range, page by page: page number, offset in the page, length. `n` bounds
the number of pages. -/
def vaPieces (va len n : Nat) : List (Nat × Nat × Nat) :=
  match n with
  | 0 => []
  | k + 1 =>
    if len = 0 then [] else
      let o := va % pageBytes
      let l := min len (pageBytes - o)
      (va / pageBytes, o, l) :: vaPieces (va + l) (len - l) k

/-- The pieces of a virtual range. -/
def pieces (va len : Nat) : List (Nat × Nat × Nat) := vaPieces va len (len / pageBytes + 2)

/-- Whether every page of a virtual range is mapped (and not lost). -/
def mappedRange (s : State) (asn va len : Nat) : Bool :=
  (pieces va len).all fun p => match pageOf s asn p.1 with
    | some g => !g.lost
    | none => false

/-- Whether every page of a virtual range is mapped with W = 1. -/
def writableRange (s : State) (asn va len : Nat) : Bool :=
  (pieces va len).all fun p => match pageOf s asn p.1 with
    | some g => g.w && !g.lost
    | none => false

/-- Reads pieces of a virtual range. -/
def readPieces (s : State) (asn : Nat) : List (Nat × Nat × Nat) → Except VErr Bytes
  | [] => .ok []
  | (vpn, o, l) :: t =>
    match pageOf s asn vpn with
    | none => .error .unmapped
    | some g =>
      if g.lost then .error .lost
      else if poisonedIn s (g.ppn * pageBytes + o) l then .error .poison
      else match readPieces s asn t with
        | .error e => .error e
        | .ok r => .ok (s.mem.readN (g.ppn * pageBytes + o) l ++ r)

/-- Reads a virtual range of an ASN; the first page or line that stops it decides the error. -/
def virtRead (s : State) (asn va len : Nat) : Except VErr Bytes := readPieces s asn (pieces va len)

/-- A read of a virtual range of an ASN meets the errors in its cells, before what it reads is looked at (R490, R491). -/
def meetVirt (s : State) (asn va len : Nat) : State :=
  if s.cells.isEmpty then s else
    (pieces va len).foldl (fun s p => match pageOf s asn p.1 with
      | some g => meetCells s (g.ppn * pageBytes + p.2.1) p.2.2
      | none => s) s

/-- Reads a virtual range ignoring poison marks: what a mover that carries the marks reads (R452). -/
def virtBytes (s : State) (asn va len : Nat) : Bytes :=
  (pieces va len).flatMap fun p => match pageOf s asn p.1 with
    | some g => s.mem.readN (g.ppn * pageBytes + p.2.1) p.2.2
    | none => List.replicate p.2.2 0#8

/-- The poisoned lines of a virtual range, as line numbers counted from the range's start line. -/
def virtPoison (s : State) (asn va len : Nat) : List Nat :=
  (pieces va len).flatMap fun p => match pageOf s asn p.1 with
    | some g =>
      let a := g.ppn * pageBytes + p.2.1
      (s.poison.filter fun l => decide (a / 64 ≤ l) && decide (l < (a + p.2.2 + 63) / 64)).map
        fun l => l - a / 64 + (p.1 * pageBytes + p.2.1 - va) / 64
    | none => []

/-- The first error a write to a virtual range meets: unmapped, lost or W = 0 (R443, R453). -/
def writeError (s : State) (asn va len : Nat) : Option VErr :=
  (pieces va len).findSome? fun p => match pageOf s asn p.1 with
    | none => some .unmapped
    | some g => if g.lost then some .lost else if !g.w then some .readOnly else none

/-- Writes pieces of a virtual range that is known to be writable; a cellar-resident page is never written in place (R448). -/
def writePieces (s : State) (asn : Nat) : List (Nat × Nat × Nat) → Bytes → State
  | [], _ => s
  | (vpn, o, l) :: t, b =>
    match pageOf s asn vpn with
    | none => s
    | some g => writePieces (if isNear g.ppn then physWrite s (g.ppn * pageBytes + o) (b.take l) else s) asn t (b.drop l)

/-- A write cancels the move down of the page it meets (R459): the page stays and counts as KEPT. -/
def Migration.meetWrite (m : Migration) (asn : Nat) (vpns : List Nat) : Migration :=
  match m.left with
  | [] => m
  | (v, _) :: t => if m.asn = asn && m.tier == 1 && vpns.contains v then { m with left := t, kept := m.kept + 1 } else m

/-- Every migration meets a write to pages of an ASN. -/
def cancelMoves (s : State) (asn : Nat) (vpns : List Nat) : State :=
  { s with migrations := s.migrations.map fun m => m.meetWrite asn vpns }

/-- Writes a virtual range of an ASN. -/
def virtWrite (s : State) (asn va : Nat) (b : Bytes) : State :=
  let ps := pieces va b.length
  writePieces (cancelMoves s asn (ps.map (·.1))) asn ps b

/-- Marks lines of a virtual range poisoned, counted from its start line. -/
def poisonVirt (s : State) (asn va : Nat) (lines : List Nat) : State :=
  lines.foldl (fun s l => match pageOf s asn ((va + 64 * l) / pageBytes) with
    | some g => addPoison s [(g.ppn * pageBytes + (va + 64 * l) % pageBytes) / 64]
    | none => s) s

/-! ### Bridges, trackers and class-0 reads (R25 to R30, R506 to R511, R523 to R525; notes/assumptions/54) -/

/-- The die of a near physical page (R28, R56). -/
def dieOfPage (ppn : Nat) : Nat := ppn / 36864 / 3

/-- The bridges that traffic from one die to another leaves by, in order, as (die, bridge) pairs (R25, R27, R525): a neighbour
directly, the opposite die through die (d + 1) mod 4, or through die (d + 3) mod 4 while that one is powered down. -/
def ringPath (s : State) (src dst : Nat) : List (Nat × Nat) :=
  let up := (src + 1) % 4
  let down := (src + 3) % 4
  if src = dst then []
  else if dst = up then [(src, 0)]
  else if dst = down then [(src, 1)]
  else if dieIs s up .poweredDown then [(src, 1), (down, 1)]
  else [(src, 0), (up, 0)]

/-- Adds bytes to the count of a bridge of a tracker. -/
def Tracker.send (t : Tracker) (b n : Nat) : Tracker := { t with brg := modAt t.brg b fun v => (v + n) % 2 ^ 64 }

/-- `n` bytes of data leave die `h.1` on bridge `h.2`, with what goes beside them: a number of bytes that the spec leaves open. -/
def Traffic.hop (t : Traffic) (h : Nat × Nat) (n : Nat) : Traffic :=
  { t with trk := modAt t.trk h.1 fun x => x.send h.2 (n + Config.moreTraffic t.drawn), drawn := t.drawn + 1 }

/-- `n` bytes go along a path. -/
def sendOver (s : State) (path : List (Nat × Nat)) (n : Nat) : State :=
  { s with traffic := path.foldl (fun t h => t.hop h n) s.traffic }

/-- Die `d` reads `n` bytes of a page: the request goes to the stack's die and the data come back (R25, R29); a cellar page is
reached over the die's hub bridge. -/
def dieReads (s : State) (d ppn n : Nat) : State :=
  if isNear ppn then
    sendOver (sendOver s (ringPath s d (dieOfPage ppn)) 0) (ringPath s (dieOfPage ppn) d) n
  else sendOver s [(d, 2)] 0

/-- A core of die `d` reads from a page. How often and how much an instruction reads of a page is not stated, so the bytes are the
free value alone. -/
def coreReads (s : State) (d ppn : Nat) : State := dieReads s d ppn 0

/-- A core of die `d` writes `n` bytes to a near page (R25, R29): the data go to the stack's die and the acknowledgement comes
back. -/
def coreWrites (s : State) (d ppn n : Nat) : State :=
  sendOver (sendOver s (ringPath s d (dieOfPage ppn)) n) (ringPath s (dieOfPage ppn) d) 0

/-- An agent of the hub reads `n` bytes of a page: near data leave their die over its hub bridge (R30). -/
def hubReads (s : State) (ppn n : Nat) : State := if isNear ppn then sendOver s [(dieOfPage ppn, 2)] n else s

/-- An agent of the hub writes a page: what a near page's die sends over its hub bridge is the acknowledgement (R30). -/
def hubWrites (s : State) (ppn : Nat) : State := if isNear ppn then sendOver s [(dieOfPage ppn, 2)] 0 else s

/-- What `f` does for the physical page and the length of each mapped piece of a virtual range. -/
def eachPiece (asn va len : Nat) (f : State → Nat → Nat → State) (s : State) : State :=
  (pieces va len).foldl (fun s p => match pageOf s asn p.1 with
    | some g => f s g.ppn p.2.2
    | none => s) s

/-- A hub agent's read of a virtual range, as traffic. -/
def hubReadsVirt (s : State) (asn va len : Nat) : State := eachPiece asn va len hubReads s

/-- A hub agent's write of a virtual range, as traffic. -/
def hubWritesVirt (s : State) (asn va len : Nat) : State := eachPiece asn va len (fun s p _ => hubWrites s p) s

/-- One read of a class-0 context from a stack (R507, R521): its latency in ns is a free value; one over 1.2 µs is counted. -/
def ReadTimes.note (r : ReadTimes) (ns : Nat) : ReadTimes :=
  { maxNs := max r.maxNs (min 65535 ns), slow := if 1200 < ns then sat32 (r.slow + 1) else r.slow }

/-- A class-0 read of a near page is timed at its stack. -/
def timeRead (s : State) (ppn : Nat) : State :=
  if isNear ppn then
    { s with traffic := { s.traffic with reads := modAt s.traffic.reads (ppn / 36864) fun r => r.note (Config.readNs s.traffic.drawn)
                                         drawn := s.traffic.drawn + 1 } }
  else s

/-- Tracker entries that the flights of a core hold (R509). -/
def Core.entries (k : Core) : Nat := k.flight.foldl (fun n f => n + f.entries) 0

/-- Tracker entries that a context's cores on die `d` hold. -/
def Ctx.entriesOn (c : Ctx) (d : Nat) : Nat :=
  (c.cores.mapIdx fun i k => if c.dieOfCore i = d then k.entries else 0).foldl (· + ·) 0

/-- OUTSTANDING: the entries of die `d`'s tracker that are held (R509, R523). -/
def outstanding (s : State) (d : Nat) : Nat := s.ctxs.foldl (fun n c => n + c.entriesOn d) 0

/-- Whether a context of class 0 is on die `d`. -/
def class0OnDie (s : State) (d : Nat) : Bool := s.ctxs.any fun c => c.resident && c.cls == 0 && c.dies.contains d

/-- Entries of die `d`'s tracker that a context of class 0, or another one, may still take (R509): 16,384 in all, 1,024 of them
reserved while a class-0 context is on the die. -/
def trackerRoom (s : State) (d : Nat) (zero : Bool) : Nat :=
  let rest := (s.ctxs.filter fun c => c.cls != 0).foldl (fun n c => n + c.entriesOn d) 0
  let left := 16384 - outstanding s d
  if zero || !class0OnDie s d then left else min left (15360 - rest)

/-- PEAK follows OUTSTANDING (R523). -/
def notePeak (s : State) (d : Nat) : State :=
  { s with traffic := { s.traffic with trk := modAt s.traffic.trk d fun t => { t with peak := max t.peak (outstanding s d) } } }

/-! ### Moving pages -/

/-- Switches a page to a copy at another physical page (R459). -/
def switchPage (s : State) (asn vpn dst : Nat) : State :=
  match pageOf s asn vpn with
  | none => s
  | some g => modPage (copyPage s g.ppn dst) asn vpn fun p => { p with ppn := dst }

/-- The place a physical page is in: its stack or its port. -/
def placeOf (ppn : Nat) : Nat := if isNear ppn then ppn / 36864 else portOf ppn

/-- Whether a page is in an allowed place of a tier. -/
def inPlace (tier : Nat) (pl : List Nat) (p : Page) : Bool := isNear p.ppn == (tier == 0) && pl.contains (placeOf p.ppn)

/-- Whether a migration is moving a page up, or between stacks, now (R459). -/
def Migration.lifts (m : Migration) (s : State) (asn : Nat) (g : Page) : Bool :=
  m.asn == asn && m.tier == 0 && m.left.head?.any (fun l => l.1 == g.vpn) && !inPlace 0 (places s 0 m.place) g

/-- The migration that is moving a page up, or between stacks, now (R459). -/
def lifting (s : State) (asn : Nat) (g : Page) : Option Migration := s.migrations.find? fun m => m.lifts s asn g

/-- The physical page that the page a migration is moving goes to, with the place the next search starts at: the page taken for it,
or for a move between stacks the next one free in cyclic order (R456; notes/assumptions/56). -/
def moveDst (s : State) (m : Migration) : Option (Nat × Nat) :=
  match m.left.head? with
  | none => none
  | some (_, some d) => some (d, m.cursor)
  | some (_, none) =>
    let pl := places s m.tier m.place
    takeFrom s m.tier pl (usedPpns s) m.cursor pl.length

/-- POISON_SEEN of the port a cellar page lies on, when an event reads poison from it (R452). -/
def poisonSeen (s : State) (ppn o len : Nat) : State :=
  if !isNear ppn && poisonedIn s (ppn * pageBytes + o) len then setBits s (0x300000 + 4 * portOf ppn) 8#32 else s

/-- A page moves to another physical page: its poison is seen (R452), its copy is traffic of the hub, the translation switches
(R459). -/
def movePage (s : State) (asn : Nat) (g : Page) (dst : Nat) : State :=
  hubWrites (hubReads (switchPage (poisonSeen s g.ppn 0 pageBytes) asn g.vpn dst) g.ppn pageBytes) dst

/-- A migration's page is where it goes; the next search for a page starts at place `cur`. -/
def Migration.arrived (m : Migration) (cur : Nat) : Migration :=
  { m with
    cursor := cur
    left := match m.left with
      | [] => []
      | (v, _) :: t => (v, none) :: t }

/-- What a hub agent's write does first for one page with W = 1: a page in the cellar is promoted to any stack (R448, R460), and one
that a migration is moving up or between stacks completes that move (R459). -/
def promotePage (s : State) (asn vpn : Nat) : State :=
  match pageOf s asn vpn with
  | none => s
  | some g =>
    if !g.w || g.lost then s else
      match lifting s asn g with
      | some m => match moveDst s m with
        | some d => { movePage s asn g d.1 with migrations := s.migrations.map fun x => if x = m then m.arrived d.2 else x }
        | none => s
      | none => if isNear g.ppn then s else
        match takePages s 0 (List.range 12) (usedPpns s) 0 1 with
        | some [p] => movePage s asn g p
        | _ => s

/-- A hub agent's write: pages in the cellar with W = 1 are promoted first (R460), a page on its way to a stack arrives (R459), then
the bytes are written. A write that meets a page on its way down to the cellar cancels that move (R459). -/
def agentWrite (s : State) (asn va : Nat) (b : Bytes) : State :=
  let s1 := (pieces va b.length).foldl (fun s p => promotePage s asn p.1) s
  hubWritesVirt (virtWrite s1 asn va b) asn va b.length

/-- A hub agent's read of a virtual range: it meets the errors in its cells (R490, R491) and its data cross the hub bridges (R30). -/
def agentReads (s : State) (asn va n : Nat) : State := hubReadsVirt (meetVirt s asn va n) asn va n

/-- The hub reads a virtual range and acts on what it finds. -/
def readThen (s : State) (asn va n : Nat) (f : State → Except VErr Bytes → State) : State :=
  let s1 := agentReads s asn va n
  f s1 (virtRead s1 asn va n)

/-! ### Tier use (R464, R466) -/

/-- Whether a migration in progress still has this page to move to the given tier. -/
def movingTo (s : State) (tier asn vpn : Nat) : Bool :=
  s.migrations.any fun m => m.asn == asn && m.tier == tier && m.left.any (fun l => l.1 == vpn)

/-- Pages of an ASN with a property. -/
def countPages (s : State) (asn : Nat) (f : Page → Bool) : Nat :=
  match spaceOf s asn with
  | some x => (x.pages.filter f).length
  | none => 0

/-- Pages of an ASN's cork areas (R465). -/
def corkUse (s : State) (asn : Nat) : Nat :=
  (s.ctxs.filter fun c => c.asn == asn).foldl (fun n c => n + c.corkPages.length) 0

/-- Near use of an ASN in pages (R464). -/
def nearUse (s : State) (asn : Nat) : Nat := countPages s asn (fun p => isNear p.ppn || p.w) + corkUse s asn

/-- Cellar use of an ASN in pages (R464). -/
def cellarUse (s : State) (asn : Nat) : Nat := countPages s asn fun p => !isNear p.ppn

/-- Near use of an ASN once its migrations in progress have ended: what a command that adds to it is checked against (R455;
notes/assumptions/56). -/
def nearDue (s : State) (asn : Nat) : Nat := countPages s asn (fun p => isNear p.ppn || p.w || movingTo s 0 asn p.vpn) + corkUse s asn

/-- Cellar use of an ASN once its migrations in progress have ended. -/
def cellarDue (s : State) (asn : Nat) : Nat := countPages s asn fun p => !isNear p.ppn || movingTo s 1 asn p.vpn

/-- BAR0 offset of an ASN's quota block. -/
def tqBase (asn : Nat) : Nat := 0x310000 + 0x20 * asn

/-- Near quota of an ASN. -/
def nearQuota (s : State) (asn : Nat) : Nat := regBits s (tqBase asn) 18 0
/-- Cellar quota of an ASN. -/
def cellarQuota (s : State) (asn : Nat) : Nat := regBits s (tqBase asn + 8) 22 0

/-- Near reservation of an ASN (R466), against its use once the migrations in progress have ended: the near pages that pages on
their way up already hold stay reserved, as R462 needs (notes/assumptions/56). -/
def nearReserve (s : State) (asn : Nat) : Nat := max (nearQuota s asn) (nearDue s asn)
/-- Cellar reservation of an ASN, likewise. -/
def cellarReserve (s : State) (asn : Nat) : Nat := max (cellarQuota s asn) (cellarDue s asn)

/-- Pages backed by far-tier ports that are UP. -/
def backedPages (s : State) : Nat :=
  (s.farPorts.filter fun p => p.state == .up).foldl (fun n p => n + p.backed) 0

/-- QUOTA_EXCEEDED (R468, R714). -/
def sendQuota (s : State) (asn tier cause use quota asked : Nat) : State :=
  sendMsg s 0x0031 [(16, 1, asn), (17, 1, tier), (18, 1, cause), (20, 4, use), (24, 4, quota), (28, 4, asked)]

/-! ### Semaphores and trellis counters -/

/-- Where operations on a semaphore index act: the context and index (R196), or nothing once the owner
is gone (R670). -/
def semTarget (c : Ctx) (idx : Nat) : Option (Nat × Nat) :=
  match c.aliases.find? fun a => a.index == idx with
  | some a => if a.dangling then none else some (a.ownerAsn, a.ownerIndex)
  | none => some (c.asn, idx)

/-- Adds to a semaphore of a context itself, saturating (R197). -/
def addOwnSem (s : State) (asn idx n : Nat) : State :=
  modCtx s asn fun c => { c with sems := modAt c.sems idx fun v => sat32 (v + n) }

/-- Adds to a semaphore, through an alias where there is one (R196, R205). -/
def addSem (s : State) (asn idx n : Nat) : State :=
  match ctxOf s asn with
  | none => s
  | some c => match semTarget c idx with
    | none => s
    | some (a, i) => addOwnSem s a i n

/-- The count of a semaphore, through an alias. -/
def semCount (s : State) (asn idx : Nat) : Nat :=
  match ctxOf s asn with
  | none => 0
  | some c => match semTarget c idx with
    | none => 0
    | some (a, i) => match ctxOf s a with
      | some o => o.sems.getD i 0
      | none => 0

/-- Takes from a semaphore, through an alias. -/
def takeSem (s : State) (asn idx n : Nat) : State :=
  match ctxOf s asn with
  | none => s
  | some c => match semTarget c idx with
    | none => s
    | some (a, i) => modCtx s a fun o => { o with sems := modAt o.sems i fun v => v - n }

/-- Adds to a trellis counter, saturating (R544). -/
def addCounter (s : State) (asn ctr n : Nat) : State :=
  modCtx s asn fun c => { c with counters := modAt c.counters ctr fun v => sat32 (v + n) }

/-- ORs bits into a context's flag word (R132). -/
def orFlags (s : State) (asn f : Nat) : State := modCtx s asn fun c => { c with flags := c.flags ||| f }

/-- A fresh free value's index: the counter steps (notes/assumptions/6). -/
def stepFree (s : State) : State := { s with free := s.free + 1 }

end Sys2Proof.Machine
end

