-- ==== Sys2Proof/Machine/Jobs.lean ====
section
/-! DEFINITION. Machine/Jobs.lean: what contexts and jobs share across chapters: islands (R66), the
accounting of R677, cores and parking (R661), stopping and completing a job (R211, R652), losing and
destroying a context (R214, R643), starting corks (R661, R665). -/

namespace Sys2Proof.Machine

/-! ### Envelope and islands -/

/-- Healthy regulators (R764). -/
def healthyVrms (s : State) : Nat := (s.power.vrms.filter fun v => v == .healthy).length

/-- Whether the last reading of a sensor is beyond R70: a junction above 105 °C, an inlet above 40 °C, a flow below
2.0 L/min. A flow of 0 counts once a reading has begun a flow condition (no sensor has been read before, notes/assumptions/8). -/
def sensorsBeyond (p : Power) : Bool :=
  p.tjDie.any (fun t => decide (1050 < t)) || decide (1050 < p.tjHub) || decide (400 < p.inlet) ||
  (decide (p.flow < 200) && (p.flow != 0 || p.conds.any fun c => c.2 == 3 || c.2 == 6))

/-- Whether any condition of R70 fails: a junction, the inlet or the flow, an input voltage outside 50.0 V to 57.0 V,
input power above 3,400 W, or fewer than eight regulators. -/
def outOfEnvelope (s : State) : Bool :=
  sensorsBeyond s.power ||
  (s.power.vinMv != 0 && (decide (s.power.vinMv < 50000) || decide (57000 < s.power.vinMv))) ||
  decide (3400000 < s.power.inputMw) || decide (healthyVrms s < 8)

/-- Whether the screen of die `d` runs on cluster `c` (R735). -/
def screening (s : State) (d c : Nat) : Bool :=
  (getDie s d).screen.state != .idle && bit (getReg s (0xD00104 + 0x40 * d)).toNat c

/-- Whether a resident class-0 context holds cluster `g` (R66). -/
def class0On (s : State) (g : Nat) : Bool :=
  s.ctxs.any fun c => c.resident && c.cls == 0 && c.set.contains g

/-- VCAP_CODE: the lower of the power cap and the thermal cap (R767). -/
def Island.vcap (i : Island) : Nat := min i.pcap i.tcap

/-- The requested voltage code: the screen's while one runs, else ISL_VSET_n (R78, R735). -/
def vset (s : State) (d c : Nat) : Nat :=
  if screening s d c then regBits s (0xD00100 + 0x40 * d) 23 16
  else regBits s (dieBase d + 0x1000 + 16 * c) 7 0

/-- The effective voltage code (R66). -/
def effVolt (s : State) (d c : Nat) (i : Island) : Nat :=
  let v := min (vset s d c) i.vcap
  if class0On s (32 * d + c) && !outOfEnvelope s then max v 20 else v

/-- An island whose effective code changed slews towards it (R75, R76). -/
def settleIsland (s : State) (d c : Nat) (i : Island) : Island :=
  let v := effVolt s d c i
  if v = i.veff then i else { i with veff := v, ramping := true }

/-- Applies R66 to every island. -/
def resettle (s : State) : State :=
  { s with dies := s.dies.mapIdx fun d x => { x with islands := x.islands.mapIdx fun c i => settleIsland s d c i } }

/-- ISL_MARGIN_n in force: the screen's while one runs (R735), 0 for a round's re-run. -/
def margin (s : State) (d c : Nat) : Nat :=
  if screening s d c then (if (getDie s d).screen.state == .confirming then 0 else regBits s (0xD00100 + 0x40 * d) 6 4)
  else regBits s (dieBase d + 0x100C + 16 * c) 3 0

/-! ### Accounting -/

/-- Sum of two sets of counters; C0_FIRST_MAX_NS is a maximum (R677). -/
def Acct.add (a b : Acct) : Acct :=
  { queueWait := a.queueWait + b.queueWait, cork := a.cork + b.cork, tierStall := a.tierStall + b.tierStall
    seated := a.seated + b.seated, m1 := a.m1 + b.m1, m2 := a.m2 + b.m2, m4 := a.m4 + b.m4
    m8 := a.m8 + b.m8, taste := a.taste + b.taste, stall := a.stall + b.stall
    preempts := a.preempts + b.preempts, corks := a.corks + b.corks, c0First := max a.c0First b.c0First }

/-- The hub totals of an ASN (R677). -/
def totalOf (s : State) (asn : Nat) : Acct := assocD s.totals asn .zero

/-- Adds to the hub totals of an ASN. -/
def addTotal (s : State) (asn : Nat) (a : Acct) : State :=
  { s with totals := assocSet s.totals asn ((totalOf s asn).add a) }

/-- Counts on die `d` for a context: in the live counts and in those not yet flushed. -/
def Ctx.count (c : Ctx) (d : Nat) (a : Acct) : Ctx :=
  { c with live := modAt c.live d (·.add a), fresh := modAt c.fresh d (·.add a) }

/-- Counts a context-wide amount on the lowest die it has a slot on (notes/assumptions/11). -/
def Ctx.countLow (c : Ctx) (a : Acct) : Ctx := c.count (c.dies.headD 0) a

/-- Adds each die's counts of a context into the hub totals (R678). -/
def flushCtx (s : State) (asn : Nat) : State :=
  match ctxOf s asn with
  | none => s
  | some c =>
    let sum := c.fresh.foldl Acct.add .zero
    modCtx (addTotal s asn sum) asn fun c => { c with fresh := List.replicate 4 .zero }

/-! ### Cores -/

/-- A core with empty state: empty tables and blend slots, zero registers (R645). -/
def Core.fresh (store : Mem) : Core :=
  { x := List.replicate 16 0#32, pc := 0, run := .idle, hold := none, flight := [], casOk := none, stintNs := 0
    tables := List.replicate 4 (.empty, .empty), blend := List.replicate 16 none, ordinal := 0
    esc := List.replicate 8 { fails := [], since := 0, layer := 0#32, pass := 0#32, reached := [] }, store := store }

/-- A core whose sequencer state is cleared, its stores, tables and blend slots kept (R653). -/
def Core.clearSeq (c : Core) : Core :=
  { c with pc := 0, run := .idle, hold := none, flight := [], stintNs := 0 }

/-- Whether a flight is a PIECE that has not done its last key step. -/
def Flight.isPiece (f : Flight) : Bool :=
  match f.wait with
  | .piece _ => true
  | _ => false

/-- Whether a core issues instructions: its sequencer runs, no write of it is held (R461), and no PIECE of it waits for landing
(R278). -/
def Core.issues (c : Core) : Bool := c.run == .running && c.hold.isNone && !c.flight.any Flight.isPiece

/-- Whether a core is parked: R661, or idle because no job runs it. -/
def Core.isParked (c : Core) : Bool := !c.issues

/-- Whether a core is parked in WAIT (R655). -/
def Core.inWait (c : Core) : Bool :=
  match c.run with
  | .waiting _ _ _ => true
  | _ => false

/-- Whether a core has executed END, or has no program to run. -/
def Core.isEnded (c : Core) : Bool :=
  match c.run with
  | .ended | .idle | .stopped => true
  | _ => false

/-- Whether an in-flight instruction may be saved in its waiting state (R661). -/
def Flight.savable (f : Flight) : Bool :=
  match f.wait with
  | .none => false
  | _ => true

/-- Whether a cork may begin with an instruction in flight: it waits for another party, the taster of R398 among them
(R661), or it has not started. -/
def Flight.corkable (f : Flight) : Bool := f.savable || f.verdicts != 0 || !f.started

/-- Whether every core is parked and every in-flight instruction has completed or waits for another
party: the moment a cork begins (R661). -/
def Ctx.allParked (c : Ctx) : Bool := c.cores.all fun k => k.isParked && k.flight.all Flight.corkable

/-- Records that a core was parked after its context was seated, and drops an inherited class once
every core has been (R669). -/
def Ctx.notePark (c : Ctx) (core : Nat) : Ctx :=
  let t := c.toPark.erase core
  if c.toPark.contains core && t.isEmpty then { c with toPark := t, raised := [] } else { c with toPark := t }

/-- Removes the waits of one core of a context from every semaphore's queue, and the class its wait
lent (R669). -/
def dropWaits (s : State) (asn : Nat) (core : Nat → Bool) : State :=
  { s with ctxs := s.ctxs.map fun c =>
      { c with waiters := c.waiters.filter fun w => !(w.asn == asn && core w.core)
               raised := c.raised.filter fun r => !(r.1 == asn && core r.2.1)
               fences := c.fences.filterMap fun f =>
                 if c.asn = asn then
                   let l := f.cores.filter fun x => !core x.1
                   if l.isEmpty then none else some { f with cores := l }
                 else some f } }

/-! ### Stopping and completing a job -/

/-- A core that stops under R211: its waits are abandoned; a write held for a promotion, also that of a PIECE, is not. -/
def Core.stop (k : Core) : Core :=
  let holds := fun (f : Flight) => f.isPiece && k.hold.any fun h => h.2 == f.index
  { k with run := if k.run = .ended ∨ k.run = .idle then k.run else .stopped
           flight := k.flight.filter fun f => !f.savable || holds f }

/-- Stops the job of an ASN (R211, R212): issue ends at the next boundary, waits are abandoned, waiting
ordered contributions are dropped and open tracks close. The lowest core index is reported; a JOB_END overrides (R653). -/
def stopJob (s : State) (asn : Nat) (st : Status) (core index : Nat) : State :=
  match (ctxOf s asn).bind (·.job) with
  | none => s
  | some j =>
    let fate := match j.fate with
      | .running => JobEnd.stopping st core index
      | .stopping st' c' i' =>
        if st = .ended ∨ (st' ≠ .ended ∧ core < c') then .stopping st core index else .stopping st' c' i'
    let s1 := dropWaits s asn fun _ => true
    modCtx s1 asn fun c =>
      { c with job := some { j with fate := fate }, cores := c.cores.map Core.stop
               clusters := c.clusters.map fun k => { k with tracks := [] } }

/-- DETAIL of a JOB_END entry (R638). -/
def jobDetail (flags core fault die index : Nat) : Bytes :=
  record 16 [(0, 4, flags), (4, 2, core), (6, 1, fault), (7, 1, die), (8, 4, index)]

/-- Aborts that an ended job's groups still hold, for firings it never started, are over with it (R568). -/
def dropAborts (s : State) (asn : Nat) : State :=
  { s with groups := s.groups.map fun g => g.map fun g => if g.asn = asn then { g with aborts := [] } else g }

/-- Ends the job of an ASN with a status: the JOB_END entry goes to the queue that launched it, the
JOB_END commands that wait complete, the sequencer state is cleared (R652, R653). -/
def endJob (s : State) (asn : Nat) (st : Status) (core fault die index : Nat) : State :=
  match ctxOf s asn with
  | none => s
  | some c => match c.job with
    | none => s
    | some j =>
      let s1 := flushCtx s asn
      let s2 := dropWaits s1 asn fun _ => true
      let s3 := modCtx s2 asn fun c =>
        { c with job := none, cores := c.cores.map Core.clearSeq, claim := false, readyNs := 0
                 clusters := c.clusters.map fun k => { k with tracks := [], taster := [] } }
      let s4 := pushCompletion (dropAborts s3 asn) j.hdr.queue
        (completionEntry j.hdr.id 0x0020 1 st (jobDetail c.flags core fault die index))
      j.endCmd.foldl (fun s h => complete s h 0x0021 (if st == .dieLost then .dieLost else .ok) []) s4

/-- Whether nothing of a job remains in flight: instructions, held writes, and decants (R154, R474). -/
def jobQuiet (s : State) (c : Ctx) : Bool :=
  (c.cores.all fun k => k.flight.isEmpty && k.isEnded) && !(s.decants.any fun d => d.asn == c.asn)

/-! ### Leaving clusters -/

/-- Clears the stored words of one slot's precision block. -/
def clearPrec (s : State) (d sl : Nat) : State :=
  { s with regs := s.regs.filter fun r => decide (r.1 < precBase d sl) || decide (precBase d sl + 0x100 ≤ r.1) }

/-- Clears the precision blocks of every slot a context holds. -/
def clearSlots (s : State) (c : Ctx) : State :=
  c.dies.foldl (fun s d => match c.slots.getD d none with
    | some sl => clearPrec s d sl
    | none => s) s

/-- The semaphore that an index of a context names, through an alias (R196). -/
def fenceKey (s : State) (asn sem : Nat) : Option (Nat × Nat) := (ctxOf s asn).bind fun c => semTarget c sem

/-- Whether a decant that signals this semaphore, under whatever name, is in progress (R196, R202). -/
def weightFence (s : State) (asn sem : Nat) : Bool :=
  match fenceKey s asn sem with
  | none => false
  | some x => s.decants.any fun d => fenceKey s d.asn d.sem == some x

/-- Blocked periods of contexts on semaphores that are weight fences no longer end (R202, R478). -/
def pruneFences (s : State) : State :=
  { s with ctxs := s.ctxs.map fun c => { c with fences := c.fences.filter fun f => weightFence s c.asn f.sem } }

/-- Frees what a context holds beside its address space: migrations and pages stay (R444); its waits,
decants, firings, credits in flight and the aliases to it do not. -/
def forget (s : State) (asn : Nat) : State :=
  let s0 := match ctxOf s asn with
    | some c => clearSlots s c
    | none => s
  let s1 := dropWaits s0 asn fun _ => true
  let blocked := (s1.ctxs.filter fun c => c.asn == asn).flatMap (·.waiters)
  let s2 := { s1 with ctxs := (s1.ctxs.filter fun c => c.asn != asn).map fun c =>
                        { c with aliases := c.aliases.map fun a => if a.ownerAsn = asn then { a with dangling := true } else a }
                      decants := s1.decants.filter fun d => d.asn != asn
                      promotions := s1.promotions }
  blocked.foldl (fun s w => match coreOf s w.asn w.core with
    | some k => stopJob s w.asn .stateIllegal w.core k.pc
    | none => s) (pruneFences s2)

/-- A context lost to a die fault (R214, R542, R615): its job completes with DIE_LOST, commands that
wait for its cork complete with DIE_LOST, its groups and streams go STALE, its firings are abandoned. -/
def loseCtx (s : State) (asn fault die core index : Nat) : State :=
  match ctxOf s asn with
  | none => s
  | some c =>
    let s1 := endJob s asn .dieLost core fault die index
    let s2 := c.corkCmds.foldl (fun s h => complete s h 0x0012 .dieLost []) s1
    let s3 := { s2 with
      groups := s2.groups.map fun g => g.map fun g => if g.asn = asn then { g with stale := true, cts := [] } else g
      firings := s2.firings.filter fun f => f.asn != asn
      codecs := s2.codecs.map fun u => { u with streams := u.streams.map fun t => t.map fun t =>
        if t.asn = asn then { t with state := .stale } else t } }
    resettle (forget s3 asn)

/-- Destroys a context (R648). -/
def destroyCtx (s : State) (asn : Nat) : State := resettle (forget (flushCtx s asn) asn)

/-! ### Corks -/

/-- Saves the precision blocks of a context's slots, and returns the slots to their reset values (R641,
R662). -/
def savePrec (s : State) (c : Ctx) : List (Nat × Nat × Word) :=
  c.dies.flatMap fun d => match c.slots.getD d none with
    | some sl => (List.range 0x24).map fun k => (d, 4 * k, getReg s (precBase d sl + 4 * k))
    | none => []

/-- Starts corking a resident context to CORKED (R643): a seated one waits for its cores to park, one
whose state is in its cork area only moves its slot registers, one in a transfer waits for it. Its counts go to the totals (R678). -/
def startCork (s : State) (asn : Nat) : State :=
  modCtx (flushCtx s asn) asn fun c => match c.state with
    | .benched => { c with state := .corking, moving := some false, offClusters := true, claim := false }
    | .corked => c
    | _ => { c with state := .corking, claim := false }

/-- Starts benching a seated context (R654): a class it inherited ends (R669). -/
def startBench (s : State) (asn : Nat) : State :=
  modCtx s asn fun c => if c.state = .seated then
    { (if c.job.isSome then c.countLow { Acct.zero with preempts := 1 } else c) with state := .benching, raised := [] } else c

/-- Whether a context is on its clusters or moving off them: a CORKING one was, unless its cork found it BENCHED (R34, R643). -/
def Ctx.onClusters (c : Ctx) : Bool :=
  match c.state with
  | .seated | .benching => true
  | .corking => !c.offClusters
  | .seating => true
  | _ => false

end Sys2Proof.Machine
end

