-- ==== Sys2Proof/Machine/Dies.lean ====
section
/-! DEFINITION. Machine/Dies.lean: job faults and die resets (R213, R214, R726 to R730), the repair map
(R36 to R43, R731 to R734), drains (R741 to R743), flags (R745, R746), the end of a screen (R739) and
the abort of a mode epoch (R681): the operations other chapters' meanings call. -/

namespace Sys2Proof.Machine

/-! ### Mode epochs -/

/-- A bit mask of die numbers. -/
def dieMask (l : List Nat) : Nat := (l.eraseDups.map fun d => 2 ^ d).sum

/-- DETAIL of MODE_SET (R638): the epoch number after the command, REASON, the dies that failed to
acknowledge. -/
def modeDetail (s : State) (reason missing : Nat) : Bytes :=
  record 16 [(0, 4, s.modes.epoch), (4, 1, reason), (5, 1, missing)]

/-- Releases cores held by a mode epoch (R680, R681). -/
def releaseHeld (s : State) : State :=
  { s with ctxs := s.ctxs.map fun c => { c with cores := c.cores.map fun k =>
      if k.run = .epochHold then { k with run := .running } else k } }

/-- Aborts the epoch in progress on every die (R681). -/
def epochAbort (s : State) (reason : Nat) : State :=
  match s.modes.pending with
  | none => s
  | some e =>
    let miss := dieMask (e.dies.filter fun d => !e.acked.contains d)
    let s1 := { s with
      modes := { s.modes with pending := none, lastReason := reason, ackMissing := miss }
      dies := s.dies.map fun x => { x with fnPending := false, tastePending := false } }
    let s2 := complete (releaseHeld s1) e.hdr 0x0060 .epochMismatch (modeDetail s1 reason miss)
    sendMsg s2 0x0080 [(16, 1, b2n e.taster), (17, 1, reason), (18, 1, miss), (20, 4, s.modes.epoch)]

/-! ### Screens -/

/-- A screen's id: BOOT × 2^32 + COUNT (R754). -/
def screenId (s : State) (x : Screen) : Nat := s.hub.bootCount * 2 ^ 32 + x.id

/-- BAR0 offset of die `d`'s screen registers (R753). -/
def scrBase (d : Nat) : Nat := 0xD00100 + 0x40 * d

/-- Ends a screen (R739): margins return to 0 and voltages to ISL_VSET, a screen record is written and
SCREEN_RESULT is sent. -/
def finishScreen (s : State) (d outcome : Nat) : State :=
  let x := (getDie s d).screen
  let m := regBits s (scrBase d) 6 4
  let id := screenId s x
  let isl := (List.range 32).filter fun c => screening s d c
  let s0 := modDie s d fun y => { y with screen := { x with state := .idle, outcome := outcome } }
  let s1 := isl.foldl (fun s c => setReg s (dieBase d + 0x100C + 16 * c) 0#32) s0
  let s2 := logFault (resettle s1)
    { type := 4, die := d, code := outcome
      cluster := if x.slots.isEmpty then 0xFF else x.firstCluster, slot := if x.slots.isEmpty then 0xFF else x.firstSlot
      screen := record 32 [(0, 1, m), (1, 1, regBits s (scrBase d) 23 16), (2, 1, regBits s (scrBase d) 11 8),
        (4, 4, x.mismatches), (8, 8, id)] }
  sendMsg s2 0x0041 [(16, 1, d), (17, 1, x.firstCluster), (18, 1, outcome), (19, 1, m), (20, 4, x.mismatches), (24, 8, id)]

/-- Ends a running screen with ABORTED (R740, R742). -/
def abortScreen (s : State) (d : Nat) : State :=
  if (getDie s d).screen.state == .idle then s else finishScreen s d 5

/-! ### Flags -/

/-- Flags a die (R745, R746): the flag is recorded in the repair map and DIE_FLAGGED is sent. -/
def flagDie (s : State) (d reason : Nat) : State :=
  let s1 := modDie s d fun x => { x with flag := reason }
  let s2 := addMap s1 7 d reason 0 0
  sendMsg (logFault s2 { type := 5, die := d, code := reason }) 0x0012 [(16, 1, d), (17, 1, reason)]

/-! ### Resets -/

/-- A die's power-on reset begins (R726 step 1 to 3): the die reads RESETTING, a running screen ends, and a mode epoch at whose
step 1 the die was not RESETTING is aborted (R681), also one a die that was OFFLINE takes no part in. -/
def enterReset (s : State) (d : Nat) (goal : DieGoal) : State :=
  let s1 := abortScreen s d
  let s2 := modDie s1 d fun x => { x with state := .resetting, stage := 1, goal := goal }
  let s3 := logFault s2 { type := 2, die := d }
  match s3.modes.pending with
  | some e => if e.late.contains d then s3 else epochAbort s3 3
  | none => s3

/-- The drains whose contexts have all left: DIE_DRAIN_DONE is sent and the die reset starts (R742
steps 3 and 4). -/
def drainCheckDie (s : State) (d : Nat) : State :=
  let x := getDie s d
  if x.state = .draining && !(s.ctxs.any fun c => c.resident && c.dies.contains d) then
    let s1 := sendMsg s 0x0011 [(16, 1, d), (17, 1, x.corked)]
    enterReset s1 d x.goal
  else s

/-- `drainCheckDie` for every die. -/
def drainCheck (s : State) : State := [0, 1, 2, 3].foldl drainCheckDie s

/-- Commands in progress that a draining die aborts: none waits for a die in this model, which decides
every command that needs a die in the step that starts it (R742, notes/assumptions/12). -/
def startDrain (s : State) (d : Nat) (goal : DieGoal) : State :=
  let s1 := abortScreen s d
  let s2 := modDie s1 d fun x => { x with state := .draining, goal := goal, corked := 0 }
  let s3 := logFault s2 { type := 6, die := d, code := match goal with | .repair _ => 1 | _ => 0 }
  let l := (s3.ctxs.filter fun c => c.resident && c.dies.contains d).map (·.asn)
  drainCheck (l.foldl startCork s3)

/-- Drains an ONLINE die with HOLD for the CD9 itself (R739, R764, R772); a die in any other state is
left as it is. `flag` is the reason the die is flagged with when its reset ends, 0 for none. -/
def drainHold (s : State) (d flag : Nat) : State :=
  if dieIs s d .online then startDrain s d (.hold none flag) else s

/-- While fewer than four regulators are healthy, every ONLINE die is drained with HOLD, a die that has just come
ONLINE too (R764). -/
def regulatorWatch (s : State) : State :=
  if healthyVrms s < 4 then [0, 1, 2, 3].foldl (fun s d => drainHold s d 0) s else s

/-- Whether a fault counts as a hardware fault: code 0x04 in on-die state, or 0x06 (R730). -/
def isHardware (code : FaultCode) (onDie : Bool) : Bool :=
  match code with
  | .stateUncorrectable => onDie
  | .fabricHang => true
  | _ => false

/-- WINDOW_MIN and FAULT_LIMIT (R751): whether this hardware fault flags the die (R730). -/
def recordHwFault (s : State) (d : Nat) : State :=
  let win := regBits s 0xD00004 31 16 * 60000000000
  let lim := regBits s 0xD00004 7 0
  modDie s d fun x =>
    let l := (x.hwFaults ++ [s.hub.timebase]).filter fun t => decide (s.hub.timebase ≤ t + win)
    { x with hwFaults := l, repeated := x.repeated || (decide (0 < lim) && decide (lim ≤ l.length)) }

/-- The counts of die `d` not yet flushed are lost (R678). -/
def dropFresh (d : Nat) (c : Ctx) : Ctx := { c with fresh := modAt c.fresh d fun _ => Acct.zero }

/-- A job fault, or a hang, on a die (R214, R726): contexts with a cluster on it are lost, DIE_FAULT is
sent, the die resets. A further fault on a die already RESETTING is logged and joins (R728). `onDie`
says whether a code 0x04 lies in on-die state (R730). -/
def dieFault (s : State) (d : Nat) (code : FaultCode) (onDie : Bool) (asn core index : Option Nat) : State :=
  let c := asn.bind (ctxOf s)
  let slot := (c.bind fun c => c.slots.getD d none).getD 0xFF
  let lid := match c, core with
    | some c, some k => c.coreId k
    | _, _ => 0xFFFF
  let s0 := logFault s { type := 1, die := d, code := code.code, core := lid, asn := asn.getD 0xFF,
                         ctxSlot := slot, index := index.getD 0xFFFFFFFF }
  let s1 := if isHardware code onDie then recordHwFault s0 d else s0
  if dieIs s d .resetting then s1 else
    let hits := (s1.ctxs.filter fun c => c.resident && c.dies.contains d).map (·.asn)
    let gap := hits.foldl (fun s a => setBits s (0x4005C + 0x100 * a) 0x80000000#32) s1
    let cleared := gap.ctxs.map (fun c => if hits.elem c.asn then dropFresh d c else c)
    let gap' := { gap with ctxs := cleared }
    let s2 := hits.foldl (fun s a =>
      if asn = some a then loseCtx s a code.code d (core.getD 0xFFFF) (index.getD 0)
      else loseCtx s a code.code d 0xFFFF 0) gap'
    let s3 := sendMsg s2 0x0010
      [(16, 1, d), (17, 1, code.code), (18, 1, slot), (19, 1, hits.length), (20, 2, lid),
       (22, 1, asn.getD 0xFF), (24, 4, index.getD 0xFFFFFFFF)]
    let x := getDie s3 d
    let s4 := if x.state = .draining then sendMsg s3 0x0011 [(16, 1, d), (17, 1, x.corked)] else s3
    drainCheck (enterReset s4 d (if x.state = .draining then x.goal else .fault))

/-! ### The repair map -/

/-- The slots of cluster `c` of die `d` that the repair map records as faulty, as a bit mask. -/
def faultySlots (m : List Bytes) (d c : Nat) : Nat :=
  m.foldl (fun a r => if field r 0 1 = 1 ∧ field r 1 1 = d ∧ field r 2 1 = c
                      then a ||| 2 ^ field r 3 1 else a) 0

/-- Whether the repair map retires the cluster outright. -/
def retiredIn (m : List Bytes) (d c : Nat) : Bool :=
  m.any fun r => field r 0 1 == 2 && field r 1 1 == d && field r 2 1 == c

/-- The mapping of one cluster from its faulty slots (R36 to R43, R732). -/
def mapCluster (faulty : Nat) (retired : Bool) : ClusterMap :=
  let act := (List.range 16).filter fun k => bit faulty k
  let spare := bit faulty 16
  if retired || decide (2 ≤ act.length) || (decide (1 ≤ act.length) && spare) then
    { active := false, role := .none, replaced := 0, faulty := faulty }
  else if spare then { active := true, role := .failed, replaced := 0, faulty := faulty }
  else match act with
    | [] => { active := true, role := .taster, replaced := 0, faulty := faulty }
    | k :: _ => { active := true, role := .repair, replaced := k, faulty := faulty }

/-- The mapping the repair map gives cluster `c` of die `d`. -/
def clusterFrom (m : List Bytes) (d c : Nat) : ClusterMap := mapCluster (faultySlots m d c) (retiredIn m d c)

/-- REPAIR_EVENT with a kind of R714 or R734. -/
def sendRepair (s : State) (kind d which slot row : Nat) : State :=
  sendMsg s 0x0050 [(16, 1, kind), (17, 1, d), (18, 1, which), (19, 1, slot), (20, 4, row)]

/-- Records one finding of built-in test: a faulty slot, or a retired cluster; findings already
recorded add nothing (R732). -/
def addFinding (s : State) (d : Nat) (f : TestFinding) : State :=
  match f with
  | .slot c k => if bit (faultySlots s.rel.map d c) k then s else
      addMap (logFault s { type := 3, die := d, cluster := c, slot := k }) 1 d c k 0
  | .pool c => if retiredIn s.rel.map d c then s else
      sendRepair (addMap (logFault s { type := 3, die := d, cluster := c }) 2 d c 0 0) 8 d c 0xFF 0

/-- The slot whose finding retires a cluster: the last one found, in ascending order (R42, R714; notes/assumptions/50). -/
def newestFault (old new : ClusterMap) : Nat :=
  ((List.range 17).filter fun k => bit new.faulty k && !bit old.faulty k).getLastD 0xFF

/-- The events of one cluster whose mapping changed (R42, R734); a pool or router that failed has had its event (R732). -/
def repairEvents (s : State) (d c : Nat) (old new : ClusterMap) : State :=
  let s1 := if new.role = .repair ∧ old.role ≠ .repair then sendRepair s 6 d c new.replaced 0 else s
  let s2 := if bit new.faulty 16 && !bit old.faulty 16 then sendRepair s1 7 d c 16 0 else s1
  if old.active && !new.active && !retiredIn s2.rel.map d c then
    sendRepair (addMap s2 2 d c 0 0) 4 d c (newestFault old new) 0
  else s2

/-- Records the slots of a die that are held pending (R733), where they are not recorded yet. -/
def recordPending (s : State) (d : Nat) : State :=
  (getDie s d).pending.foldl (fun s p => if bit (faultySlots s.rel.map d p.1) p.2 then s else addMap s 1 d p.1 p.2 0) s

/-- Applies the repair map to a die (R41, R50, R732), with the slots held pending and the findings of its built-in test: changes
against the mapping that held without them are reported. -/
def applyMap (s : State) (d : Nat) (findings : List TestFinding) : State :=
  let before := s.rel.map
  let s1 := findings.foldl (fun s f => addFinding s d f) (recordPending s d)
  let new := (List.range 32).map fun c => clusterFrom s1.rel.map d c
  let s2 := (List.range 32).foldl (fun s c =>
    repairEvents s d c (clusterFrom before d c) (new.getD c .reset)) s1
  modDie s2 d fun x => { x with clusters := new, pending := [] }

/-- The clusters of a die that its mapping keeps in service (R42). -/
def Die.activeCount (x : Die) : Nat := (x.clusters.filter (·.active)).length

/-- Whether die `d` was RESETTING when the pending epoch of a kind began, and so has acknowledged it (R338, R401, R680). -/
def lateOf (s : State) (d : Nat) (taster : Bool) : Bool :=
  s.modes.pending.any fun e => e.taster == taster && e.late.contains d

/-- The registers of a die's window after a die reset (R795): margins 0, RATE_MIN 0xFFF, tracker and
bridge counters 0, slot table free, committed modes in force. -/
def resetWindow (s : State) (d : Nat) : State :=
  let s1 := { s with
    latches := s.latches.filter fun l => decide (l.1 < dieBase d) || decide (dieBase d + 0x200000 ≤ l.1)
    traffic := { s.traffic with trk := s.traffic.trk.set d .reset }
    regs := s.regs.filter fun r =>
      !((decide (dieBase d + 0x1000 ≤ r.1) && decide (r.1 < dieBase d + 0x1200) && r.1 % 16 == 12) ||
        (decide (dieBase d + 0x101000 ≤ r.1) && decide (r.1 < dieBase d + 0x105000))) }
  modDie s1 d fun x =>
    { x with vintage := s.modes.vintage, tasteEn := s.modes.tasteEn, tasteRate := s.modes.rate
             fnPending := lateOf s d false, tastePending := lateOf s d true
             islands := x.islands.map fun i => { i with rateMin := 0xFFF } }

/-- A die reset's last step (R726 step 6, R742 step 5, R743, R744, R730, R739): ONLINE, or OFFLINE where
it is held, flagged, or has no cluster; the command that waits completes; a die that R764 keeps down drains again.
CLUSTERS_IN_SERVICE shows the new mapping from here on (R45, R795). -/
def finishReset (s : State) (d : Nat) : State :=
  let x := getDie s d
  let s1 := modDie (resetWindow s d) d fun y =>
    { y with stage := 0, goal := .none, state := .offline, repeated := false, hangFlag := false, inService := x.activeCount }
  let noCl := x.activeCount == 0
  let drained := match x.goal with
    | .hold _ _ | .repair _ => true
    | _ => false
  let s2 := if x.flag = 0 && x.repeated then flagDie s1 d 2
            else if x.flag = 0 && x.hangFlag then flagDie s1 d 1
            else if x.flag = 0 && drained && noCl then flagDie s1 d 3
            else match x.goal with
              | .hold _ f => if x.flag = 0 && f != 0 then flagDie s1 d f else s1
              | _ => s1
  let keepOff := (getDie s2 d).flag != 0 || (drained && noCl)
  let online := match x.goal with
    | .hold _ _ => false
    | _ => !keepOff
  let s3 := if online then modDie s2 d fun y => { y with state := .online } else s2
  let s4 := resettle s3
  regulatorWatch (match x.goal with
  | .hold (some h) _ => complete s4 h 0x0078 .ok []
  | .repair h => complete s4 h 0x0078 .ok []
  | .restore h => complete s4 h 0x0079 .ok []
  | _ => s4)

end Sys2Proof.Machine
end

