-- ==== Sys2Proof/Machine/RegMap.lean ====
section
/-! DEFINITION. Machine/RegMap.lean: which bits of which BAR0 registers software writes (R12 to R17): the
RW, RWL and W1C masks of every register of the spec, the configurable registers of R691 and the values
that may be written to them (R690). -/

namespace Sys2Proof.Machine

/-- Whether `off` is one of `n` registers from `lo` at a stride. -/
def inArray (off lo stride n : Nat) : Bool :=
  decide (lo ≤ off) && decide (off < lo + stride * n) && (off - lo) % stride == 0

/-- RWL bits (R573, R575). -/
def rwlMask (off : Nat) : Nat :=
  if off = 0x100000 then 0xFFF
  else if inArray off 0x100100 4 18 then 0x801F0FFF else 0

/-- RW bits of a register of the precision block at block offset `p` (R404 to R407). -/
def precMask (p : Nat) : Nat :=
  if p = 0 then 0x0FF3FF01
  else if p = 4 then 0xFFFFFFFF
  else if 0x10 ≤ p ∧ p < 0x50 then (if p % 8 = 0 then 0xFFFFFFFF else 0x00FFFF03)
  else if 0x50 ≤ p ∧ p < 0x70 then 0xFFFFFFFF else 0

/-- RW bits of a register of a die window at window offset `o` (R78, R96, R404 to R407, R518). -/
def dieRwMask (o : Nat) : Nat :=
  if inArray o 0x1000 16 32 then 0xFF
  else if inArray o 0x100C 16 32 then 0xF
  else if inArray o 0x40004 0x10000 3 then 0xFF01
  else if 0x101000 ≤ o ∧ o < 0x105000 then precMask (o % 0x100)
  else 0

/-- RW bits of a register (R14). -/
def rwMask (off : Nat) : Nat :=
  if 0x10000 ≤ off ∧ off < 0x12000 then
    let p := off % 0x20
    if p = 0 ∨ p = 8 then 0xFFFFF000 else if p = 4 ∨ p = 12 then 0xFFFFFFFF
    else if p = 16 then 0xC7FF0F0F else 0
  else if 0x80000 ≤ off ∧ off < 0x88000 then (if off % 16 = 12 then 1 else if off % 16 = 0 then 0xFFFFFFFC else 0xFFFFFFFF)
  else if off = 0x400 then 0xFFFFF000
  else if off = 0x404 then 0xFFFFFFFF
  else if off = 0x408 then 0x87FF000F
  else if off = 0x40C then 0xFFF
  else if 0x310000 ≤ off ∧ off < 0x312000 then
    let p := off % 0x20
    if p = 0 then 0x7FFFF else if p = 8 then 0x7FFFFF else if p = 16 then 0xFFFF else 0
  else if 0x320000 ≤ off ∧ off < 0x330000 then
    let p := off % 16
    if p = 0 then 0xFFFFF000 else if p = 4 ∨ p = 8 then 0xFFFFFFFF else 0
  else if 0x400000 ≤ off ∧ off < 0xC00000 then dieRwMask (off % 0x200000)
  else if off = 0xC00004 then 0xFFF
  else if off = 0xC00124 then 0x400007FF
  else if inArray off 0xC02000 4 6 then 0xFFFFFFFF
  else if off = 0xD00004 then 0xFFFF00FF
  else if 0xD00100 ≤ off ∧ off < 0xD00200 then
    let p := off % 0x40
    if p = 0 then 0xFFFF0F70 else if p = 4 ∨ p = 8 ∨ p = 12 then 0xFFFFFFFF else 0
  else if off = 0xD01004 then 0x3FFFF
  else if off = 0xD02004 then 0xFFFFFFFF
  else 0

/-- W1C bits of a register (R14). -/
def w1cMask (off : Nat) : Nat :=
  if 0x10000 ≤ off ∧ off < 0x12000 ∧ off % 0x20 = 0x14 then 0x90000000
  else if off = 0x208 then 2
  else if off = 0x410 then 0x80000000
  else if inArray off 0x4005C 0x100 256 then 0x80000000
  else if inArray off 0x100200 4 18 then 0x100
  else if off = 0x300000 ∨ off = 0x300004 then 8
  else if 0x310000 ≤ off ∧ off < 0x312000 ∧ off % 0x20 = 0x10 then 0xC0000000
  else if 0x400000 ≤ off ∧ off < 0xC00000 then
    let o := off % 0x200000
    if inArray o 0x1004 16 32 then 6
    else if 0x101000 ≤ o ∧ o < 0x105000 ∧ o % 0x100 = 0 then 0x80000000 else 0
  else if off = 0xC00000 then 0x100
  else if inArray off 0xD00114 0x40 4 then 0x04000000
  else 0

/-- Stores the bits of `v` that `mask` names, keeping the others. -/
def storeMasked (s : State) (off mask : Nat) (v : Word) : State :=
  let m := BitVec.ofNat 32 mask
  setReg s off ((getReg s off &&& ~~~m) ||| (v &&& m))

/-- Clears W1C bits written as 1. -/
def clearW1c (s : State) (off : Nat) (v : Word) : State :=
  setReg s off (getReg s off &&& ~~~(v &&& BitVec.ofNat 32 (w1cMask off)))

/-- Whether RWL registers are locked: READY has been sent since the module reset (R14, R15). -/
def locked (s : State) : Bool :=
  match s.hub.boot with
  | .ready | .enteringDormant | .dormant | .waking => true
  | _ => false

/-! ### Configuration images (R689 to R691) -/

/-- Whether a register is configurable (R691). -/
def configurable (off : Nat) : Bool :=
  rwlMask off != 0 || (decide (0xC00000 ≤ off) && decide (off < 0xE00000) && rwMask off != 0)

/-- Fields of configurable registers that software does not write and that are not reserved: BUSY of TALLY_REC_INDEX and of
REL_LOG_INDEX (R755, R787). -/
def busyMask (off : Nat) : Nat := if off = 0xC00124 ∨ off = 0xD01004 then 0x80000000 else 0

/-- Whether a value would be stored: reserved fields 0 and no rule of its register discards it (R690;
R754, R775). PEER_PORT names a port (R575, notes/assumptions/13). -/
def valueOk (off v : Nat) : Bool :=
  let mask := rwlMask off ||| rwMask off ||| busyMask off
  v &&& (0xFFFFFFFF - mask) == 0 &&
  (if off = 0xC00004 then decide (1000 ≤ v) && decide (v ≤ 3400)
   else if inArray off 0xD00100 0x40 4 then bits v 31 24 != 0 && decide (bits v 23 16 ≤ 50)
   else if inArray off 0x100100 4 18 then decide (bits v 20 16 ≤ 17)
   else true)

/-- The records of an image body: (offset, value) pairs in list order (R689). -/
def imageRecords (body : Bytes) : List (Nat × Nat) :=
  (List.range (body.length / 8)).map fun i => (field body (8 * i) 4, field body (8 * i + 4) 4)

/-- The value a register has after the records, later records overriding earlier ones. -/
def valueAfter (s : State) (recs : List (Nat × Nat)) (off : Nat) : Nat :=
  recs.foldl (fun v r => if r.1 = off then r.2 else v) (getReg s off).toNat

/-- The rule between fields: an enabled port's PEER_MOD differs from MOD_ID (R575, R690). -/
def crossOk (s : State) (recs : List (Nat × Nat)) : Bool :=
  let id := bits (valueAfter s recs 0x100000) 11 0
  (List.range 18).all fun n =>
    let v := valueAfter s recs (0x100100 + 4 * n)
    !bit v 31 || bits v 11 0 != id

/-- The first failing check of R690 with the index of the failing record (0xFFFF_FFFF for none). -/
def checkImage (s : State) (part pkg : Nat) (recs : List (Nat × Nat)) : Option (RefuseReason × Nat) :=
  if part ≠ ownPart ∨ pkg ≠ 0 then some (.identity, 0xFFFFFFFF)
  else match recs.findIdx? fun r => !(r.1 % 4 == 0 && configurable r.1) with
    | some i => some (.badTarget, i)
    | none => match recs.findIdx? fun r => !valueOk r.1 r.2 with
      | some i => some (.badValue, i)
      | none => if crossOk s recs then none else some (.badValue, 0xFFFFFFFF)

/-- Whether a Tally answers (R787). -/
def tallyAnswers (s : State) : Bool :=
  match s.tally.state with
  | .metering | .releasing => true
  | _ => false

/-- The records TALLY_REC reads (R787): the Tally's, or the copy in flash. -/
def tallyRecords (s : State) (src : Bool) : List Bytes :=
  if src then s.tally.copied else if tallyAnswers s then s.tally.records else []

/-- A write to TALLY_REC_INDEX latches a record (R787). -/
def tallyRecIndex (s : State) (v : Word) : State :=
  let s1 := storeMasked s 0xC00124 0x400007FF v
  { s1 with tally := { s1.tally with latched := (tallyRecords s (bit v.toNat 30)).getD (bits v.toNat 10 0) [] } }

/-- A write to REL_LOG_INDEX latches a record, index 0 the newest (R755). -/
def logIndexWrite (s : State) (v : Word) : State :=
  let s1 := storeMasked s 0xD01004 (rwMask 0xD01004) v
  { s1 with rel := { s1.rel with latched := s.rel.log.reverse.getD (bits v.toNat 17 0) [] } }

/-- One record of an image writes its register, with what the write does there (R689, R755, R787). -/
def applyRecord (s : State) (r : Nat × Nat) : State :=
  let v := BitVec.ofNat 32 r.2
  if r.1 = 0xC00124 then tallyRecIndex s v
  else if r.1 = 0xD01004 then logIndexWrite s v
  else storeMasked s r.1 (rwlMask r.1 ||| rwMask r.1) v

/-- Applies the records of an image in order (R689). -/
def applyRecords (s : State) (recs : List (Nat × Nat)) : State := recs.foldl applyRecord s

end Sys2Proof.Machine
end

