-- ==== Sys2Proof/Machine/Boot.lean ====
section
/-! DEFINITION. Machine/Boot.lean: resets and the power-on sequence (R683, R692 to R696), the flash
(R684 to R688, R757), APPLY (R697 to R701) and Dormant (R715 to R722). -/

namespace Sys2Proof.Machine

/-! ### Module reset -/

/-- What keeps through a module reset: the banks of the flash with any write in progress abandoned (R688), the Tally
(R683), the regulators and the loss of the reference clock, which are facts of the world, the free
values' counter. Repair of remapped rows waits for training, so each channel's remapped rows are carried to it (R500); its remap
table is empty until then (R519, R522, R795). -/
def moduleReset (s : State) : State :=
  { State.reset with
    pending := s.pending
    out := s.out
    hub := { Hub.reset with refLost := s.hub.refLost }
    flash := { s.flash with state := .attached, writing := [] }
    dies := s.dies.map fun d => { Die.reset with pending := d.pending, mcs := d.mcs.map fun m => { Mc.reset with
      chans := m.chans.map fun c => { Chan.reset with toRepair := (c.toRepair ++ c.remap.map (·.row)).eraseDups } } }
    power := { Power.reset with vrms := s.power.vrms }
    tally := { s.tally with latched := [], unmSeq := 0, unmTotal := 0, unmRecord := 0, unmIntervals := 0
                            unmPeak := 0, unmFrom := 0 }
    exported := s.exported
    free := s.free }

/-- MODULE_RESET: power-on or a reset request starts the sequence (R692 step 1). -/
def execModuleReset (s : State) : Host.Outcome State Fault Refusal :=
  event (Instr.wf .moduleReset) s moduleReset

/-- A write to HUB_RESET: with the correct KEY and MODULE it starts a module reset (R705). -/
def hubResetWrite (s : State) (v : Word) : State :=
  if bits v.toNat 31 16 = 0x0CD9 ∧ bit v.toNat 0 then moduleReset s else s

/-- HUB_RESET_MODULE (R705). -/
def execHubResetModule (v : Word) (s : State) : Host.Outcome State Fault Refusal :=
  event (Instr.wf (.hubResetModule v)) s fun s => hubResetWrite s v

/-- HOST_LINK_TRAINED: configuration space, BARs and host queues answer (R692 step 2). -/
def hostLinkTrained (s : State) : State :=
  if s.hub.powered then
    { s with hub := { s.hub with link := true
                                 boot := if s.hub.boot = .powerOn then .configRead else s.hub.boot } }
  else s

/-- HOST_LINK_TRAINED (R692). -/
def execHostLinkTrained (s : State) : Host.Outcome State Fault Refusal := event (Instr.wf .hostLinkTrained) s hostLinkTrained

/-! ### Refusal -/

/-- Whether a refusal reason can be recovered by APPLY (R696). -/
def RefuseReason.recoverable : RefuseReason → Bool
  | .serviceMemory | .trainFailed => false
  | _ => true

/-- The module refuses to start its outputs (R695): every die OFFLINE, CONFIG_REFUSED sent. -/
def refuse (s : State) (r : RefuseReason) (stack chan index off : Nat) : State :=
  let s1 := { s with
    hub := { s.hub with refuse := r, boot := if r.recoverable then .awaitConfig else .refusedPermanent }
    dies := s.dies.map fun d => { d with state := .offline, stage := 0, goal := .none } }
  sendMsg s1 0x0002 [(16, 1, r.code), (17, 1, b2n s.hub.bankAValid + 2 * b2n s.hub.bankBValid),
    (18, 1, stack), (19, 1, chan), (20, 4, index), (24, 4, off)]

/-! ### Steps 3 and 4 -/

/-- Splits a byte string into `n` records of `k` bytes. -/
def chunks (k n : Nat) (b : Bytes) : List Bytes :=
  match n with
  | 0 => []
  | m + 1 => slice b 0 k :: chunks k m (b.drop k)

/-- The body of the selected bank of a region, or nothing (R687). -/
def selectedBody (f : Flash) (r : Region) : Option Bytes :=
  let (a, b) := f.banks r
  match selectBank r a b with
  | some true => some (slice b.body 0 (field b.header 8 4))
  | some false => some (slice a.body 0 (field a.header 8 4))
  | none => none

/-- Reads the repair map and the fault log of the selected banks, BOOT and the die flags (R692 step 3,
R746, R747); records logged since the reset and not yet written stay behind those read (R749, R755). -/
def readCopies (s : State) : State :=
  let m := match selectedBody s.flash .repairMap with
    | some b => chunks 16 (b.length / 16) b
    | none => []
  let l := match selectedBody s.flash .faultLog with
    | some b => chunks 64 (b.length / 64) b
    | none => []
  let boot := (m.foldl (fun n r => if field r 0 1 = 0 then field r 4 4 else n) 0) + 1
  let flagOf := fun d => m.foldl (fun n r => if field r 0 1 = 7 ∧ field r 1 1 = d then field r 2 1 else n) 0
  { s with
    rel := { s.rel with map := m, log := l ++ s.rel.log.drop (s.rel.log.length - s.rel.unwritten) }
    hub := { s.hub with bootCount := boot }
    dies := s.dies.mapIdx fun d x => { x with flag := flagOf d } }

/-- The configuration image of the selected bank: whether it is bank B's, PART_CODE, PKG_VARIANT, SEQ and its records (R685, R687,
R689). -/
def selectedImage (f : Flash) : Option (Bool × Nat × Nat × Nat × List (Nat × Nat)) :=
  let (a, b) := f.banks .config
  (selectBank .config a b).map fun toB =>
    let h := (if toB then b else a).header
    (toB, field h 18 2, field h 20 1, field h 4 4, imageRecords (slice (if toB then b else a).body 0 (field h 8 4)))

/-- Step 3 of R692: the copies of repair map and fault log are read, and which configuration banks are valid. -/
def readBanks (s : State) (f : Flash) : State :=
  let (a, b) := f.banks .config
  let s0 := readCopies { s with flash := f }
  { s0 with flash := s.flash, hub := { s0.hub with bankAValid := bankValid .config a, bankBValid := bankValid .config b } }

/-- The flash as the hub reads it: erased banks where it is not attached (R757). -/
def readableFlash (s : State) : Flash := if flashReady s then s.flash else Flash.reset

/-- Step 3 and 4 of R692: selects and reads the banks, checks and applies the configuration or refuses. HUB_CONFIG_SEQ and CONFIG_SRC
name the image once it is in force (R704): a refused image changes no register (R690). -/
def configReadDone (s : State) : State :=
  if (s.hub.boot = .powerOn ∨ s.hub.boot = .configRead ∨ s.hub.boot = .configApply) ∧ s.hub.powered then
    let f := readableFlash s
    let s1 := readBanks s f
    match selectedImage f with
    | none => refuse s1 .noValidBank 0xFF 0xFF 0xFFFFFFFF 0
    | some (toB, part, pkg, seq, recs) =>
      match checkImage s1 part pkg recs with
      | some (r, i) => refuse s1 r 0xFF 0xFF i (if i = 0xFFFFFFFF then 0 else (recs.getD i (0, 0)).1)
      | none =>
        let s2 := applyRecords s1 recs
        { s2 with hub := { s2.hub with boot := .memTrain, cfgSrc := if toB then .bankB else .bankA, cfgSeq := seq }
                  dies := s2.dies.map fun d => { d with mcs := d.mcs.map fun m => { m with state := .training } } }
  else s

/-- CONFIG_READ_DONE (R690, R692). -/
def execConfigReadDone (s : State) : Host.Outcome State Fault Refusal := event (Instr.wf .configReadDone) s configReadDone

/-! ### Step 5: memory training -/

/-- Repair-map records of a type for a stack and channel. -/
def chanRecords (m : List Bytes) (type stack chan : Nat) : List Bytes :=
  m.filter fun r => field r 0 1 == type && field r 1 1 == stack && field r 2 1 == chan

/-- Whether post-package repair reaches row word `w` among the rows to repair (R500): its bank's resources last for it, in the order
of the rows. -/
def repairable (left : List (Nat × Nat)) (rows : List Nat) (w : Nat) : Bool :=
  match left.find? fun b => b.1 == w / 2 ^ 19 with
  | none => true
  | some b => decide (((rows.takeWhile (· != w)).filter fun r => r / 2 ^ 19 == w / 2 ^ 19).length < b.2)

/-- Trains one channel (R494, R495, R500): lanes once replaced stay replaced, new ones take the spares
left, remapped rows are repaired where the bank still has resources. Nothing when spares run out. -/
def trainChan (s : State) (t : ChanTrain) : Option State :=
  let oldDq := (chanRecords s.rel.map 3 t.stack t.chan).map fun r => field r 4 1
  let newDq := t.badDq.filter fun l => !oldDq.contains l
  let dq := oldDq ++ newDq
  let oldCa := (chanRecords s.rel.map 4 t.stack t.chan).length
  if 2 < dq.length ∨ 1 < oldCa + t.badCa then none else
    let recs3 := newDq.mapIdx fun i l => mapRecord s 3 t.stack t.chan (oldDq.length + i) l
    let recs4 := if t.badCa = 0 then [] else [mapRecord s 4 t.stack t.chan 0 0]
    let kept := (chanRecords s.rel.map 6 t.stack t.chan).map fun r => field r 4 4
    let rows := (kept ++ (getChan s t.stack t.chan).toRepair).eraseDups
    let other := s.rel.map.filter fun r => !(field r 0 1 == 6 && field r 1 1 == t.stack && field r 2 1 == t.chan)
    let full := fun (w : Nat) => !repairable t.pprLeft rows w
    let recs56 := rows.map fun w => mapRecord s (if full w then 6 else 5) t.stack t.chan 0 w
    let ch : Chan := { degraded := false, caSpare := decide (0 < oldCa + t.badCa), dqA := dq.getD 0 0x7F
                       dqB := dq.getD 1 0x7F, corrRows := [], toRepair := []
                       remap := (rows.filter full).map fun w => { row := w, fromMap := true } }
    some (modChan { s with rel := { s.rel with map := other ++ recs3 ++ recs4 ++ recs56 } } t.stack t.chan fun _ => ch)

/-- Trains channels one after another; the first that runs out of spares is named. -/
def trainAll (s : State) : List ChanTrain → Except (Nat × Nat) State
  | [] => .ok s
  | t :: l => match trainChan s t with
    | none => .error (t.stack, t.chan)
    | some s1 => trainAll s1 l

/-- The findings of training for all 384 channels: those reported, and none for the rest. -/
def allChans (l : List ChanTrain) : List ChanTrain :=
  (List.range 384).map fun i => (l.find? fun t => t.stack == i / 32 && t.chan == i % 32).getD
    { stack := i / 32, chan := i % 32, badDq := [], badCa := 0, pprLeft := [] }

/-- BOOT_COUNT brought up to date in the repair map, which is then written (R747, R749). -/
def writeBootCount (s : State) : State :=
  let rest := s.rel.map.filter fun r => field r 0 1 != 0
  flushMap { s with rel := { s.rel with map := mapRecord s 0 0 0 0 s.hub.bootCount :: rest } }

/-- Step 5 of R692 ends. -/
def memTrainDone (s : State) (serviceOk : Bool) (chans : List ChanTrain) : State :=
  if s.hub.boot ≠ .memTrain then s
  else if !serviceOk then refuse s .serviceMemory 0xFF 0xFF 0xFFFFFFFF 0
  else match trainAll s (allChans chans) with
    | .error (st, ch) =>
      refuse (modMc s st fun m => { m with state := .trainFailed }) .trainFailed st ch 0xFFFFFFFF 0
    | .ok s1 =>
      let s2 := writeBootCount { s1 with dies := s1.dies.map fun d =>
        { d with mcs := d.mcs.map fun m => { m with state := .ready } } }
      { s2 with hub := { s2.hub with boot := .repair } }

/-- MEM_TRAIN_DONE (R494). -/
def execMemTrainDone (ok : Bool) (chans : List ChanTrain) (s : State) : Host.Outcome State Fault Refusal :=
  event (Instr.wf (.memTrainDone ok chans))
    s fun s => memTrainDone s ok chans

/-! ### Step 6: repair map and dies -/

/-- DIE_FAULT with code 0x06 and no context for a die that did not come up (R693, R722); its window is as after every
reset (R795). -/
def dieAbsent (s : State) (d : Nat) : State :=
  let s1 := modDie (resetWindow s d) d fun x => { x with state := .offline, stage := 0, goal := .none }
  sendMsg (logFault s1 { type := 1, die := d, code := 6 }) 0x0010
    [(16, 1, d), (17, 1, 6), (18, 1, 0xFF), (19, 1, 0), (20, 2, 0xFFFF), (22, 1, 0xFF), (24, 4, 0xFFFFFFFF)]

/-- One die of step 6: the mapping is applied with its test's findings, or the die stays out. -/
def bringUp (up : List Nat) (findings : List (Nat × TestFinding)) (s : State) (d : Nat) : State :=
  if up.contains d then
    let s1 := applyMap s d ((findings.filter fun f => f.1 == d).map (·.2))
    modDie s1 d fun x => { x with stage := 3 }
  else dieAbsent s d

/-- Step 6 of R692 ends: the ports that are enabled train, the others are DISABLED (R23, R531). -/
def repairStepDone (s : State) (up : List Nat) (findings : List (Nat × TestFinding)) : State :=
  if s.hub.boot ≠ .repair then s else
    let s1 := [0, 1, 2, 3].foldl (bringUp up findings) s
    { s1 with
      hub := { s1.hub with boot := .portTrain }
      ports := s1.ports.mapIdx fun n p => { p with state := if bit (getReg s1 (0x100100 + 4 * n)).toNat 31 then .training else .disabled }
      farPorts := s1.farPorts.map fun p => { p with state := .training } }

/-- REPAIR_STEP_DONE (R692). -/
def execRepairStepDone (up : List Nat) (findings : List (Nat × TestFinding)) (s : State) :
    Host.Outcome State Fault Refusal :=
  event (Instr.wf (.repairStepDone up findings)) s fun s => repairStepDone s up findings

/-! ### Step 7 and 8: ports, READY -/

/-- Number of bits set among the low four. -/
def lanesOut (m : Nat) : Nat := (List.range 4).filter (bit m) |>.length

/-- The state training leaves a Vinelink port in (R528, R530, R531): a partner that does not match is
MISWIRED; with two lanes failed no link trains. -/
def trainedState (cfg : Nat) (r : PortTrain) : PortState :=
  match r with
  | .noPartner => .absent
  | .partner lanes m p =>
    if m ≠ bits cfg 11 0 ∨ p ≠ bits cfg 20 16 then .miswired
    else if lanesOut lanes = 0 then .up else if lanesOut lanes = 1 then .up3 else .absent

/-- LINK_EVENT for a Vinelink port (R714). -/
def sendLink (s : State) (n : Nat) : State :=
  let p := s.ports.getD n .reset
  sendMsg (logFault s { type := 8, code := 1 }) 0x0051 [(16, 1, 1), (17, 1, n), (18, 1, p.state.code), (19, 1, p.laneFailed)]

/-- A Vinelink port's STATE changes: after READY EVENT_SEEN is set and LINK_EVENT is sent (R576, R796). The spreading of packets over
the ports starts afresh (R533). -/
def setPort (s : State) (n : Nat) (f : Port → Port) : State :=
  let old := (s.ports.getD n .reset).state
  let s1 := { s with ports := modAt s.ports n f }
  if (s1.ports.getD n .reset).state = old then s1
  else
    let s2 := { s1 with ports := s1.ports.map fun p => { p with spent := 0 } }
    if locked s then sendLink (setBits s2 (0x100200 + 4 * n) 0x100#32) n else s2

/-- Training of Vinelink port `n` ends (R528, R530, R531). -/
def endTraining (s : State) (n : Nat) (r : PortTrain) : State :=
  let cfg := (getReg s (0x100100 + 4 * n)).toNat
  let st := if bit cfg 31 then trainedState cfg r else .disabled
  setPort s n fun p => match r with
    | .noPartner => { p with state := st, laneFailed := 0 }
    | .partner lanes m _ => if bit cfg 31 then { p with state := st, peerSeen := m, laneFailed := lanes % 16 }
                            else { p with state := st }

/-- A far-tier port trains (R450, R480, R482). -/
def farTrained (r : FarTrain) : FarPort :=
  match r with
  | .absent => .reset
  | .refused => { FarPort.reset with state := .refused }
  | .up lanes rate pages => { state := .up, lanes := lanes, rate := rate, backed := min pages 2097152 }

/-- A die leaves its reset: ONLINE where the test holds, else OFFLINE; CLUSTERS_IN_SERVICE shows its mapping (R45). -/
def settleDie (up : Die → Bool) (y : Die) : Die :=
  { y with stage := 0, goal := .none, state := if up y then .online else .offline, inService := y.activeCount }

/-- Step 8 of R692: dies with clusters in service and no flag go ONLINE, RWL locks, READY is sent. -/
def goReady (s : State) : State :=
  let s1 := [0, 1, 2, 3].foldl (fun s d =>
    let x := getDie s d
    if x.stage = 3 then
      modDie (resetWindow s d) d (settleDie fun y => y.flag == 0 && y.activeCount != 0)
    else s) s
  let s2 := { s1 with hub := { s1.hub with boot := .ready } }
  regulatorWatch (sendMsg s2 0x0001 [(16, 1, onlineMask s2), (17, 1, s2.hub.cfgSrc.code),
    (18, 1, (s2.ports.filter fun p => p.state == .up || p.state == .up3).length),
    (19, 1, (s2.farPorts.filter fun p => p.state == .up).length), (20, 4, s2.hub.cfgSeq)])

/-- Steps 7 and 8 of R692. -/
def portTrainDone (s : State) (ports : List PortTrain) (far : List FarTrain) : State :=
  if s.hub.boot ≠ .portTrain then s else
    let s1 := (List.range 18).foldl (fun s n =>
      let s' := endTraining s n (ports.getD n .noPartner)
      if (s'.ports.getD n .reset).state = .miswired then sendLink s' n else s') s
    goReady { s1 with farPorts := (List.range 2).map fun p => farTrained (far.getD p .absent) }

/-- PORT_TRAIN_DONE (R692). -/
def execPortTrainDone (ports : List PortTrain) (far : List FarTrain) (s : State) :
    Host.Outcome State Fault Refusal :=
  event (Instr.wf (.portTrainDone ports far)) s fun s => portTrainDone s ports far

/-- A power-on step exceeds its bound (R693): in step 4 the records applied so far stay applied (R695), of an image that passed the
checks that come before any (R690). -/
def bootTimeout (s : State) (applied : Nat) (up : List Nat) (findings : List (Nat × TestFinding))
    (ports : List PortTrain) (far : List FarTrain) : State :=
  match s.hub.boot with
  | .powerOn | .configRead | .configApply =>
    let f := readableFlash s
    let s1 := readBanks s f
    let s2 := match selectedImage f with
      | some (_, part, pkg, _, recs) => if (checkImage s1 part pkg recs).isNone then applyRecords s1 (recs.take applied) else s1
      | none => s1
    refuse s2 .stepTimeout 0xFF 0xFF 0xFFFFFFFF 0
  | .memTrain => refuse s .trainFailed 0xFF 0xFF 0xFFFFFFFF 0
  | .repair => repairStepDone s up findings
  | .portTrain => portTrainDone s ports far
  | _ => s

/-- BOOT_STEP_TIMEOUT (R693). -/
def execBootStepTimeout (applied : Nat) (up : List Nat) (findings : List (Nat × TestFinding))
    (ports : List PortTrain) (far : List FarTrain) (s : State) : Host.Outcome State Fault Refusal :=
  event (Instr.wf (.bootStepTimeout applied up findings ports far)) s
    fun s => bootTimeout s applied up findings ports far

/-! ### Flash writes -/

/-- Programs and verifies the first queued write of a region, or leaves its target bank invalid (R688). -/
def programBank (f : Flash) (w : FlashWrite) (verified : Bool) : Flash :=
  let (toB, seq) := writeTarget f w.region
  let f1 := if verified then f.setBank w.region toB (mkBank w.region seq w.part w.pkg w.body) else f
  let rest := f1.writing.erase w
  let f2 := { f1 with writing := rest }
  if rest.any fun x => x.region == w.region then eraseTarget f2 w.region else f2

/-- APPLY's DETAIL (R698). -/
def applyDetail (flash reason index : Nat) : Bytes := record 16 [(0, 1, flash), (1, 1, reason), (4, 4, index)]

/-- Every controller of a die goes to a state. -/
def Die.setMcs (d : Die) (st : McState) : Die := { d with mcs := d.mcs.map fun m => { m with state := st } }

/-- The boot sequencer resumes at step 5 after an APPLY (R700). -/
def resumeBoot (s : State) : State :=
  { s with
    hub := { s.hub with boot := .memTrain }
    dies := s.dies.map fun d => { d.setMcs .training with state := .resetting, stage := 1, goal := .boot } }

/-- The APPLY in progress ends with its flash result (R700, R701). -/
def applyEnd (s : State) (result : Nat) : State :=
  match s.hub.apply with
  | none => s
  | some a =>
    let s1 := complete { s with hub := { s.hub with apply := none } } a.hdr 0x0070 .ok (applyDetail result 0 0xFFFFFFFF)
    if a.storeOnly then s1 else resumeBoot s1

/-- The region a number names, in the order of R684. -/
def regionOf (n : Nat) : Region :=
  if n = 0 then .config else if n = 1 then .repairMap else if n = 2 then .faultLog else .tally

/-- A bank write ends with its read-back (R688); records logged while the fault log was written stay unwritten (R749). -/
def flashWriteDone (s : State) (r : Region) (verified : Bool) : State :=
  match s.flash.writing.find? fun w => w.region == r with
  | none => s
  | some w =>
    let f := programBank s.flash w verified
    let f1 := if f.state = .releasing ∧ f.writing.isEmpty then { f with state := .released } else f
    let s1 := { s with flash := f1 }
    match r with
    | .config =>
      let s2 := { s1 with hub := { s1.hub with bankAValid := bankValid .config f1.configA, bankBValid := bankValid .config f1.configB } }
      applyEnd s2 (if verified then 1 else 2)
    | .faultLog => if verified then { s1 with rel := { s1.rel with unwritten := min s1.rel.unwritten (s1.rel.logged - w.upTo) } } else s1
    | _ => s1

/-- FLASH_WRITE_DONE (R688). -/
def execFlashWriteDone (region : Nat) (verified : Bool) (s : State) : Host.Outcome State Fault Refusal :=
  event (Instr.wf (.flashWriteDone region verified)) s fun s => flashWriteDone s (regionOf region) verified

/-- FAULT_LOG_FLUSH: routine records go to flash, no more often than once in 30 min (R749). -/
def faultLogFlush (s : State) : State :=
  let due := match s.rel.lastFlush with
    | some t => decide (t + 1800000000000 ≤ s.hub.timebase)
    | none => true
  if due && decide (0 < s.rel.unwritten) then flushLog s else s

/-- FAULT_LOG_FLUSH (R749). -/
def execFaultLogFlush (s : State) : Host.Outcome State Fault Refusal := event (Instr.wf .faultLogFlush) s faultLogFlush

/-- The Tally records not copied yet go to flash (R781): the region's body is up to 2,047 records, oldest
first. -/
def tallyCopy (s : State) : State :=
  if flashReady s ∧ 0 < s.tally.uncopied then
    let l := (s.tally.records.take s.tally.uncopied ++ s.tally.copied).take 2047
    { startFlashWrite s { region := .tally, body := l.reverse.flatten, part := ownPart, pkg := 0, upTo := 0 } with
      tally := { s.tally with copied := l, uncopied := 0, lastCopy := some s.hub.timebase } }
  else s

/-- Every queued write ends verified: what the hub waits for before a reset it starts (R724, R781). -/
def finishWrites (n : Nat) (s : State) : State :=
  match n with
  | 0 => s
  | k + 1 => match s.flash.writing with
    | [] => s
    | w :: _ => finishWrites k (flashWriteDone s w.region true)

/-- HUB_UNCORRECTABLE: an error in one of the hub's control arrays that SECDED cannot correct. The record goes to flash and a module
reset follows (R724). One that it corrects counts with the instruction that runs meanwhile (`onDieErrors`). -/
def hubUncorrectable (s : State) : State :=
  let s1 := tallyCopy (logFault s { type := 9 })
  moduleReset (finishWrites s1.flash.writing.length s1)

/-- HUB_UNCORRECTABLE (R724). -/
def execHubUncorrectable (s : State) : Host.Outcome State Fault Refusal :=
  event (Instr.wf .hubUncorrectable) s fun s => hubUncorrectable s

/-- A write to REL_FLASH with RELEASE (R757). -/
def flashRelease (s : State) (v : Word) : State :=
  if bit v.toNat 3 && s.flash.state == .attached then
    { s with flash := { s.flash with state := if s.flash.writing.isEmpty then .released else .releasing } }
  else s

/-- REL_FLASH_RELEASE (R757). -/
def execRelFlashRelease (v : Word) (s : State) : Host.Outcome State Fault Refusal :=
  event (Instr.wf (.relFlashRelease v)) s fun s => flashRelease s v

/-- A write to REL_FLASH with ATTACH (R757): both banks of the repair map and the fault log are written
from the hub's copies; the configuration region of the new part is empty. The part fitted is supported
or not. -/
def flashAttach (s : State) (v : Word) (supported : Bool) : State :=
  if bit v.toNat 2 && (s.flash.state == .released || s.flash.state == .attachFailed) then
    if supported then
      let keep := (Region.faultLog.bankSize - 64) / 64
      let recs := s.rel.log.drop (s.rel.log.length - keep)
      let f : Flash := { Flash.reset with
        mapA := mkBank .repairMap 1 ownPart 0 s.rel.map.flatten
        mapB := mkBank .repairMap 2 ownPart 0 s.rel.map.flatten
        logA := mkBank .faultLog 1 ownPart 0 recs.flatten
        logB := mkBank .faultLog 2 ownPart 0 recs.flatten }
      logFault { s with flash := f, tally := { s.tally with copied := [], uncopied := s.tally.records.length }
                        hub := { s.hub with bankAValid := false, bankBValid := false }
                        rel := { s.rel with log := recs, unwritten := 0 } } { type := 12, code := 1 }
    else { s with flash := { s.flash with state := .attachFailed } }
  else s

/-- REL_FLASH_ATTACH (R757). -/
def execRelFlashAttach (v : Word) (supported : Bool) (s : State) : Host.Outcome State Fault Refusal :=
  event (Instr.wf (.relFlashAttach v supported)) s fun s => flashAttach s v supported

/-! ### APPLY -/

/-- APPLY's fields (R698, first check). -/
def applyFieldsOk (storeOnly writeFlash : Bool) (bus bytes : Nat) : Bool :=
  bus % 64 == 0 && ((bytes == 0) == (bus == 0)) && decide (bytes ≤ 0x1000000) &&
  (!(writeFlash || storeOnly) || bus != 0) && (!storeOnly || writeFlash)

/-- The states APPLY runs in (R698, R701). -/
def applyStateOk (s : State) (storeOnly : Bool) : Bool :=
  s.hub.apply.isNone &&
  (if storeOnly then
     match s.hub.boot with
     | .ready | .awaitConfig | .refusedPermanent | .enteringDormant | .dormant | .waking => true
     | _ => false
   else s.hub.boot == .awaitConfig)

/-- An image as a bank (R685): header and body. -/
def imageBank (b : Bytes) : FlashBank := { header := slice b 0 64, body := b.drop 64 }

/-- Writes the image of an APPLY to flash, or ends it at once where none is written (R700, R757). -/
def applyStore (s : State) (h : CmdHdr) (storeOnly writeFlash : Bool) (k : FlashBank) : State :=
  let s1 := { s with hub := { s.hub with apply := some { hdr := h, storeOnly := storeOnly } } }
  if !writeFlash then applyEnd s1 0
  else if flashReady s then
    startFlashWrite s1 { region := .config, body := slice k.body 0 (field k.header 8 4),
                         part := field k.header 18 2, pkg := field k.header 20 1, upTo := 0 }
  else applyEnd s1 2

/-- APPLY once it starts (R698 to R701). -/
def startApply (h : CmdHdr) (storeOnly writeFlash : Bool) (bus bytes : Nat) (image : HostRead) (s : State) : State :=
  let fail := fun (st : Status) (reason idx : Nat) => complete s h 0x0070 st (applyDetail 0 reason idx)
  if !applyFieldsOk storeOnly writeFlash bus bytes then fail .formatUnsupported 0 0xFFFFFFFF
  else if !applyStateOk s storeOnly then fail .stateIllegal 0 0xFFFFFFFF
  else if bus = 0 then
    if crossOk s [] then
      applyStore { s with hub := { s.hub with cfgSrc := .apply, cfgSeq := 0 } } h storeOnly writeFlash .erased
    else fail .formatUnsupported RefuseReason.badValue.code 0xFFFFFFFF
  else match image with
    | .failed => fail .bounds 0 0xFFFFFFFF
    | .data b =>
      let k := imageBank b
      if !(bankValid .config k && b.length == bytes && bytes == 64 + field k.header 8 4) then
        fail .formatUnsupported 0 0xFFFFFFFF
      else
        let recs := imageRecords (slice k.body 0 (field k.header 8 4))
        match checkImage s (field k.header 18 2) (field k.header 20 1) recs with
        | some (r, i) => fail .formatUnsupported r.code i
        | none =>
          if storeOnly then applyStore s h true writeFlash k
          else
            let s1 := applyRecords s recs
            applyStore { s1 with hub := { s1.hub with cfgSrc := .apply, cfgSeq := field k.header 4 4 } } h false writeFlash k

/-! ### Dormant -/

/-- DORMANT_ENTER once it starts (R715, R716 steps 1 and 2, R740). -/
def startDormant (h : CmdHdr) (s : State) : State :=
  if s.hub.boot = .ready ∧ s.modes.pending.isNone ∧ !(s.dies.any fun d => d.state == .draining) then
    let s1 := { s with
      hub := { s.hub with boot := .enteringDormant, dormantCmd := some h, dormantFrom := s.hub.timebase
                          corkedCount := 0 }
      dies := s.dies.map fun d => { d with wasOnline := d.state == .online } }
    let s2 := [0, 1, 2, 3].foldl abortScreen s1
    let l := (s2.ctxs.filter (·.resident)).map (·.asn)
    l.foldl startCork s2
  else complete s h 0x0071 .stateIllegal []

/-- Whether Dormant entry's steps 2 and 3 are over: every context CORKED, every other command complete but FRAME_SUBMITs of
paused streams (R615), no migration or promotion in progress (R716, R476). -/
def dormantQuiet (s : State) (h : CmdHdr) : Bool :=
  s.ctxs.all (fun c => !c.resident && c.exporting.isNone) &&
  s.queues.all (fun q => q.2.inProg.all fun p => p.cmd == 0x0052 || p.cmd == 0x0071 && p.id == h.id) &&
  s.migrations.isEmpty && s.promotions.isEmpty && s.fills.isEmpty && s.xfers.isEmpty &&
  s.codecs.all (fun u => u.current.isNone)

/-- Steps 4 and 5 of Dormant entry (R716). -/
def dormantPowerDown (s : State) : State :=
  match s.hub.dormantCmd with
  | none => s
  | some h =>
    if s.hub.boot = .enteringDormant ∧ dormantQuiet s h then
      let s1 := { s with
        hub := { s.hub with boot := .dormant, dormantCmd := none }
        dies := s.dies.map fun d => { d.setMcs .selfRefresh with state := .poweredDown, stage := 0, goal := .none } }
      let s2 := sendMsg s1 0x0090 [(16, 4, s.hub.corkedCount), (24, 8, s.hub.timebase - s.hub.dormantFrom)]
      complete s2 h 0x0071 .ok []
    else s

/-- DORMANT_POWER_DOWN (R716). -/
def execDormantPowerDown (s : State) : Host.Outcome State Fault Refusal := event (Instr.wf .dormantPowerDown) s dormantPowerDown

/-- WAKE once it starts (R715, R720 step 1). -/
def startWake (h : CmdHdr) (s : State) : State :=
  if s.hub.boot = .dormant then
    { s with
      hub := { s.hub with boot := .waking, wakeCmd := some h, wakeFrom := s.hub.timebase }
      dies := s.dies.map fun d => { d with state := .resetting, stage := 1, goal := .wake } }
  else complete s h 0x0072 .stateIllegal []

/-- A die at the end of wake (R720 step 4, R722): up if its mapping was applied. -/
def wakeDie (s : State) (d : Nat) : State :=
  let x := getDie s d
  if x.stage = 3 then
    modDie (resetWindow s d) d (settleDie fun y => y.wasOnline && y.flag == 0)
  else flagDie (dieAbsent s d) d 4

/-- WAKE ends: dies return, the module is READY (R720, R722). -/
def wakeDone (s : State) : State :=
  match s.hub.wakeCmd with
  | none => s
  | some h =>
    if s.hub.boot = .waking then
      let s1 := [0, 1, 2, 3].foldl wakeDie s
      let s2 := { s1 with
        hub := { s1.hub with boot := .ready, wakeCmd := none }
        dies := s1.dies.map fun d => { d with mcs := d.mcs.map fun m => { m with state := .ready } } }
      let s3 := sendMsg s2 0x0091 [(16, 1, onlineMask s2), (24, 8, s.hub.timebase - s.hub.wakeFrom)]
      regulatorWatch (complete (resettle s3) h 0x0072 .ok [])
    else s

/-! ### Die resets -/

/-- The power-on reset of a die's logic ends: built-in test begins, or, at wake, the repair map is applied
(R726 step 3, R729). -/
def dieLogicResetDone (s : State) (d : Nat) : State :=
  let x := getDie s d
  if x.state = .resetting ∧ x.stage = 1 then
    match x.goal with
    | .boot | .none => s
    | .wake => modDie (applyMap s d []) d fun y => { y with stage := 3 }
    | _ => modDie s d fun y => { y with stage := 2 }
  else s

/-- DIE_LOGIC_RESET_DONE (R726, R729). -/
def execDieLogicResetDone (d : Nat) (s : State) : Host.Outcome State Fault Refusal :=
  event (Instr.wf (.dieLogicResetDone d)) s fun s => dieLogicResetDone s d

/-- Built-in test ends: findings are applied to the repair map, the die leaves RESETTING (R726 steps 4
to 6, R731, R732). -/
def builtInTestDone (s : State) (d : Nat) (findings : List TestFinding) : State :=
  let x := getDie s d
  if x.state = .resetting ∧ x.stage = 2 then finishReset (applyMap s d findings) d else s

/-- BUILT_IN_TEST_DONE (R731). -/
def execBuiltInTestDone (d : Nat) (findings : List TestFinding) (s : State) : Host.Outcome State Fault Refusal :=
  event (Instr.wf (.builtInTestDone d findings)) s fun s => builtInTestDone s d findings

/-- FABRIC_HANG: the die's handshake network stops; the die is reset with code 0x06 and no context named
(R99, R213). A screen running there ends HANG, and the die is flagged SUSPECT when its margin step is
at most GUARD (R739). -/
def fabricHang (s : State) (d : Nat) : State :=
  if dieIs s d .online ∨ dieIs s d .draining then
    let x := getDie s d
    if x.screen.state == .idle then dieFault s d .fabricHang true none none none
    else
      let bad := decide (regBits s (scrBase d) 6 4 ≤ regBits s (scrBase d) 11 8)
      let s1 := dieFault (finishScreen s d 4) d .fabricHang true none none none
      modDie s1 d fun y => { y with hangFlag := bad }
  else s

/-- FABRIC_HANG (R99). -/
def execFabricHang (d : Nat) (s : State) : Host.Outcome State Fault Refusal :=
  event (Instr.wf (.fabricHang d)) s fun s => fabricHang s d

end Sys2Proof.Machine
end

