-- ==== Sys2Proof/Machine/Power.lean ====
section
/-! DEFINITION. Machine/Power.lean: the power loop (R761 to R769, R799), thermal limits and trips (R770 to
R772), regulators (R763, R764, R757, R758), the reference clock (R93), island registers' events (R75,
R78 to R81, R97) and the power registers' writes (R775). -/

namespace Sys2Proof.Machine

/-! ### Limits and tiers -/

/-- The terms of L in mW by cause 1 to 3 (R765, R769): the limit register, regulators, input voltage. A
voltage not measured yet gives no term. -/
def limitTerms (s : State) : List (Nat × Nat) :=
  [(1, 1000 * regBits s 0xC00004 11 0), (2, 433000 * healthyVrms s)] ++
  (if s.power.vinMv = 0 then [] else [(3, 68 * s.power.vinMv)])

/-- The effective limit L in mW (R765). -/
def powerLimit (s : State) : Nat := (limitTerms s).foldl (fun m t => min m t.2) (1000 * regBits s 0xC00004 11 0)

/-- The tier of cluster `g`'s island (R766): by the effective class of the context seated there. -/
def tierOf (s : State) (g : Nat) : Nat :=
  match s.ctxs.find? fun c => c.state == .seated && c.set.contains g with
  | none => 1
  | some c => if c.effClass = 0 then 4 else if c.effClass = 1 then 3 else if c.effClass = 2 then 2 else 1

/-- The floor the manager lowers caps to: code 20 inside the envelope, code 0 outside (R767). -/
def capFloor (s : State) : Nat := if outOfEnvelope s then 0 else 20

/-- Whether some island of a tier meets `p`. -/
def tierHas (s : State) (t : Nat) (p : Nat → Nat → Island → Bool) : Bool :=
  (List.range 4).any fun d => (List.range 32).any fun c =>
    tierOf s (32 * d + c) == t && p d c ((getDie s d).islands.getD c .reset)

/-- Changes the islands of a tier that meet `p`. -/
def modTier (s : State) (t : Nat) (p : Nat → Nat → Island → Bool) (f : Island → Island) : State :=
  let one := fun (d c : Nat) (i : Island) => if tierOf s (32 * d + c) == t && p d c i then f i else i
  { s with dies := s.dies.mapIdx fun d x => { x with islands := x.islands.mapIdx (one d) } }

/-- Islands whose PCAP is below 0x32 (R769). -/
def powerCapped (s : State) : Nat :=
  (s.dies.map fun x => (x.islands.filter fun i => decide (i.pcap < 0x32)).length).sum

/-- Whether any island is capped thermally. -/
def thermalCapped (s : State) : Bool := s.dies.any fun x => x.islands.any fun i => decide (i.tcap < 0x32)

/-- The active power causes as bits 0 to 2 (R769). -/
def activeCauses (s : State) : Nat :=
  if powerCapped s = 0 then 0 else
    ((limitTerms s).filter fun t => t.2 == powerLimit s).foldl (fun m t => m ||| 2 ^ (t.1 - 1)) 0

/-- Whether the thermal sensors hold die `d` outside the envelope (R70, R771): its junction, the hub's, the inlet or the flow. -/
def thermalOutside (s : State) (d : Nat) : Bool :=
  sensorsBeyond { s.power with tjDie := [s.power.tjDie.getD d 0] }

/-- Whether an island's cap results from a condition outside the envelope (R72, R79): a cap below code 20, which only the floor
outside the envelope lets through (R67, R767); a thermal cap under a thermal condition outside it (R771); a power cap from
failed regulators, a low input voltage or an input power above 3,400 W. -/
def capOutside (s : State) (d : Nat) (i : Island) : Bool :=
  (decide (i.vcap < 20) && outOfEnvelope s) ||
  (i.tcap == i.vcap && decide (i.tcap < 0x32) && thermalOutside s d) ||
  (i.pcap == i.vcap && decide (i.pcap < 0x32) &&
    ((bit (activeCauses s) 1 && decide (healthyVrms s < 8)) || (bit (activeCauses s) 2 && decide (s.power.vinMv < 50000)) ||
     decide (3400000 < s.power.inputMw)))

/-- The lowest-numbered cause of a set, 0 for none. -/
def lowestCause (m : Nat) : Nat := if bit m 0 then 1 else if bit m 1 then 2 else if bit m 2 then 3 else 0

/-- Sends POWER_CAP where R769 says so, and remembers the causes and whether an island is capped. It acts once in each 50 µs
step of the loop, so that the changes within one step send one message. -/
def reportCaps (s : State) : State :=
  let n := powerCapped s
  let now := activeCauses s
  let was := s.power.causes
  let rose := now &&& (15 - was)
  let fell := was &&& (15 - now)
  let s1 := { s with power := { s.power with causes := now, capped := decide (0 < n) } }
  let send := fun (cause st : Nat) => sendMsg s1 0x0061
    [(16, 1, cause), (17, 1, st), (18, 1, n), (19, 1, now), (20, 4, s.power.inputMw), (24, 4, powerLimit s)]
  if 0 < n then
    if !s.power.capped then send (lowestCause rose) 1
    else if now ≠ was then send (if rose ≠ 0 then lowestCause rose else lowestCause fell) 2
    else s1
  else if s.power.capped then send (lowestCause was) 0 else s1

/-! ### The power loop -/

/-- Lowering: the lowest tier that holds an island above the floor (R767). -/
def lowerCaps (s : State) : State :=
  let fl := capFloor s
  let p := fun (_ _ : Nat) (i : Island) => decide (fl < i.vcap)
  match [1, 2, 3, 4].find? fun t => tierHas s t p with
  | some t => modTier s t p fun i => { i with pcap := i.vcap - 1 }
  | none => s

/-- Raising: the highest tier that holds an island with PCAP below 0x32 (R767). -/
def raiseCaps (s : State) : State :=
  let p := fun (_ _ : Nat) (i : Island) => decide (i.pcap < 0x32)
  match [4, 3, 2, 1].find? fun t => tierHas s t p with
  | some t => { modTier s t p (fun i => { i with pcap := i.pcap + 1 }) with power := { s.power with sinceRaise := 0 } }
  | none => s

/-- One 50 µs step of the power loop with P in mW (R765, R767). -/
def powerTick (s : State) (p : Nat) : State :=
  let l := powerLimit s
  let low := decide (100 * p < 97 * l)
  let s1 := { s with power := { s.power with
    inputMw := p, peakMw := max s.power.peakMw p, quiet := if low then min 20 (s.power.quiet + 1) else 0
    sinceRaise := min 4 (s.power.sinceRaise + 1) } }
  let s2 := if l < p then lowerCaps s1
            else if s1.power.quiet = 20 ∧ s1.power.sinceRaise = 4 then raiseCaps s1 else s1
  reportCaps (resettle s2)

/-- POWER_LOOP_TICK (R767). -/
def execPowerLoopTick (inputMw : Nat) (s : State) : Host.Outcome State Fault Refusal :=
  event (Instr.wf (.powerLoopTick inputMw)) s fun s => powerTick s inputMw

/-- ENVELOPE_RETURN: inside the envelope every cap below code 20 is raised to it (R799, R67). -/
def envelopeReturn (s : State) : State :=
  if outOfEnvelope s then s else
    let up := fun (i : Island) => { i with pcap := max i.pcap 20, tcap := max i.tcap 20 }
    let s1 := { s with dies := s.dies.map fun d => { d with islands := d.islands.map up } }
    resettle s1

/-- ENVELOPE_RETURN (R799). -/
def execEnvelopeReturn (s : State) : Host.Outcome State Fault Refusal := event (Instr.wf .envelopeReturn) s envelopeReturn

/-! ### Thermal -/

/-- One 1 ms step of a die's thermal loop with its hottest junction in 0.1 °C (R770); the floor is that of the envelope as this
reading leaves it (R67). -/
def thermalTick (s : State) (d : Nat) (tj : Int) : State :=
  let capped := fun (e _ : Nat) (i : Island) => e == d && decide (i.tcap < 0x32)
  let cool := decide (tj ≤ 1000)
  let s1 := { s with power := { s.power with
    tjDie := s.power.tjDie.set d tj
    cool := s.power.cool.set d cool } }
  let fl := capFloor s1
  let hot := fun (e _ : Nat) (i : Island) => e == d && decide (fl < i.tcap)
  let s2 :=
    if 1030 ≤ tj then
      match [1, 2, 3, 4].find? fun t => tierHas s1 t hot with
      | some t => modTier s1 t hot fun i => { i with tcap := i.tcap - 1 }
      | none => s1
    else if cool && s.power.cool.getD d false then
      match [4, 3, 2, 1].find? fun t => tierHas s1 t capped with
      | some t => modTier s1 t capped fun i => { i with tcap := i.tcap + 1 }
      | none => s1
    else s1
  resettle s2

/-- THERMAL_CAP_TICK (R770). -/
def execThermalCapTick (d : Nat) (tj : Int) (s : State) : Host.Outcome State Fault Refusal :=
  event (Instr.wf (.thermalCapTick d tj)) s fun s => thermalTick s d tj

/-- Whether a reading begins a condition (R771, R772). -/
def thermalBegins (cause : Nat) (r : Int) : Bool :=
  if cause = 1 then decide (1050 < r) else if cause = 2 then decide (400 < r) else if cause = 3 then decide (r < 200)
  else if cause = 4 then decide (1120 ≤ r) else if cause = 5 then decide (500 ≤ r) else decide (r < 100)

/-- Whether a reading ends a condition, with the hysteresis of R771. -/
def thermalEnds (cause : Nat) (r : Int) : Bool :=
  if cause = 1 then decide (r ≤ 1040) else if cause = 2 then decide (r ≤ 390) else if cause = 3 then decide (205 ≤ r)
  else if cause = 4 then decide (r ≤ 1110) else if cause = 5 then decide (r ≤ 490) else decide (105 ≤ r)

/-- Stores a reading in the sensor it comes from. A die's junction above 100.0 °C ends the cool 1 ms that a raise of its TCAP
waits for (R770). -/
def setSensor (p : Power) (source cause : Nat) (r : Int) : Power :=
  if source < 4 then { p with tjDie := p.tjDie.set source r
                              cool := p.cool.set source (p.cool.getD source false && decide (r ≤ 1000)) }
  else if source = 4 then { p with tjHub := r }
  else if cause = 2 ∨ cause = 5 then { p with inlet := r } else { p with flow := r.toNat }

/-- A reading that may begin or end its condition: THERMAL is sent with STATE 1 or 0, an ENVELOPE record
is logged (R771, R714). -/
def thermalReading (s : State) (source cause : Nat) (r : Int) : State :=
  let s1 := { s with power := setSensor s.power source cause r }
  let on := s.power.conds.contains (source, cause)
  let send := fun (s : State) (st : Nat) =>
    sendMsg (logFault s { type := 11, die := if source < 4 then source else 0xFF, code := cause }) 0x0060
      [(16, 1, source), (17, 1, cause), (18, 1, st), (20, 2, unsigned 16 r)]
  if !on && thermalBegins cause r then
    resettle (send { s1 with power := { s1.power with conds := s1.power.conds ++ [(source, cause)] } } 1)
  else if on && thermalEnds cause r then
    resettle (send { s1 with power := { s1.power with conds := s1.power.conds.erase (source, cause) } } 0)
  else resettle s1

/-- THERMAL (R771). -/
def execThermal (source cause : Nat) (r : Int) (s : State) : Host.Outcome State Fault Refusal :=
  event (Instr.wf (.thermal source cause r)) s fun s => thermalReading s source cause r

/-- A trip: THERMAL, and when it begins the dies of R772 are drained with HOLD. -/
def thermalTrip (s : State) (source cause : Nat) (r : Int) : State :=
  let begins := !s.power.conds.contains (source, cause) && thermalBegins cause r
  let s1 := thermalReading s source cause r
  if begins then
    if source < 4 then drainHold s1 source 0
    else [0, 1, 2, 3].foldl (fun s d => drainHold s d 0) s1
  else s1

/-- THERMAL_TRIP (R772). -/
def execThermalTrip (source cause : Nat) (r : Int) (s : State) : Host.Outcome State Fault Refusal :=
  event (Instr.wf (.thermalTrip source cause r)) s fun s => thermalTrip s source cause r

/-! ### Input and regulators -/

/-- Whether a voltage lies in the band that runs outside the envelope without a cap (R761). -/
def highBand (mv : Nat) : Bool := decide (57000 < mv) && decide (mv ≤ 60000)

/-- The input voltage moves between operating bands (R761). -/
def voltageChange (s : State) (mv : Nat) : State :=
  let s1 := { s with power := { s.power with vinMv := mv } }
  let s2 := if highBand mv != highBand s.power.vinMv then logFault s1 { type := 11, code := 0 } else s1
  resettle s2

/-- INPUT_VOLTAGE_CHANGE (R761): the bands in which the module runs. -/
def execInputVoltageChange (mv : Nat) (s : State) : Host.Outcome State Fault Refusal :=
  event (Instr.wf (.inputVoltageChange mv)) s fun s => voltageChange s mv

/-- REL_VRM STATE of a position. -/
def vrm (s : State) (n : Nat) : VrmState := s.power.vrms.getD n .absent

/-- Sets a regulator position's state. -/
def setVrm (s : State) (n : Nat) (v : VrmState) : State :=
  { s with power := { s.power with vrms := s.power.vrms.set n v } }

/-- A regulator fails (R763, R764). -/
def regulatorFail (s : State) (n : Nat) : State :=
  if vrm s n = .healthy ∨ vrm s n = .releasing then
    let s1 := logFault (setVrm s n .failed) { type := 10, code := n }
    resettle (regulatorWatch s1)
  else s

/-- REGULATOR_FAIL (R763). -/
def execRegulatorFail (n : Nat) (s : State) : Host.Outcome State Fault Refusal :=
  event (Instr.wf (.regulatorFail n)) s fun s => regulatorFail s n

/-- A fitted regulator is brought into load sharing (R757). -/
def regulatorFitted (s : State) (n : Nat) : State :=
  match vrm s n with
  | .healthy | .releasing => s
  | _ => resettle (logFault (setVrm s n .healthy) { type := 12, code := 2 })

/-- REGULATOR_FITTED (R757). -/
def execRegulatorFitted (n : Nat) (s : State) : Host.Outcome State Fault Refusal :=
  event (Instr.wf (.regulatorFitted n)) s fun s => regulatorFitted s n

/-- A write of RELEASE to REL_VRM_n (R758). -/
def vrmRelease (s : State) (n : Nat) (v : Word) : State :=
  if bit v.toNat 3 && vrm s n == .healthy && decide (9 ≤ healthyVrms s) then setVrm s n .released else s

/-- REL_VRM_RELEASE (R758). -/
def execRelVrmRelease (n : Nat) (v : Word) (s : State) : Host.Outcome State Fault Refusal :=
  event (Instr.wf (.relVrmRelease n v)) s fun s => vrmRelease s n v

/-! ### Reference clock -/

/-- REF_CLOCK_LOST (R93, R95). -/
def refLost (s : State) : State :=
  if s.hub.refLost then s else setBits { s with hub := { s.hub with refLost := true } } 0x208 2#32

/-- REF_CLOCK_LOST (R93). -/
def execRefClockLost (s : State) : Host.Outcome State Fault Refusal := event (Instr.wf .refClockLost) s refLost

/-- REF_CLOCK_RETURN (R93). -/
def execRefClockReturn (s : State) : Host.Outcome State Fault Refusal :=
  event (Instr.wf .refClockReturn) s fun s => { s with hub := { s.hub with refLost := false } }

/-! ### Power registers -/

/-- A write to PWR_LIMIT (R775). -/
def pwrLimitWrite (s : State) (v : Word) : State :=
  let w := bits v.toNat 11 0
  if 1000 ≤ w ∧ w ≤ 3400 then setReg s 0xC00004 (BitVec.ofNat 32 w)
  else setBits s 0xC00000 0x100#32

/-- PWR_LIMIT_WRITE (R775). -/
def execPwrLimitWrite (v : Word) (s : State) : Host.Outcome State Fault Refusal :=
  event (Instr.wf (.pwrLimitWrite v)) s fun s => pwrLimitWrite s v

/-- A write to PWR_PEAK (R775). -/
def pwrPeakClr (s : State) (v : Word) : State :=
  if bit v.toNat 31 then { s with power := { s.power with peakMw := 0 } } else s

/-- PWR_PEAK_CLR (R775). -/
def execPwrPeakClr (v : Word) (s : State) : Host.Outcome State Fault Refusal :=
  event (Instr.wf (.pwrPeakClr v)) s fun s => pwrPeakClr s v

/-! ### Islands -/

/-- Whether die `d`'s window answers (R47). -/
def windowOpen (s : State) (d : Nat) : Bool :=
  match (getDie s d).state with
  | .resetting | .poweredDown => false
  | _ => true

/-- BAR0 offset of island `n`'s registers on die `d`. -/
def islBase (d n : Nat) : Nat := dieBase d + 0x1000 + 16 * n

/-- Changes an island. -/
def modIsland (s : State) (d n : Nat) (f : Island → Island) : State :=
  modDie s d fun x => { x with islands := modAt x.islands n f }

/-- A write to ISL_VSET_n (R78): a code above 50 is discarded and VSET_BAD is set. -/
def islVset (s : State) (d n : Nat) (v : Word) : State :=
  if !windowOpen s d then s
  else if 50 < bits v.toNat 7 0 then setBits s (islBase d n + 4) 2#32
  else resettle (setReg s (islBase d n) (BitVec.ofNat 32 (bits v.toNat 7 0)))

/-- ISL_VSET_WRITE (R78). -/
def execIslVsetWrite (d n : Nat) (v : Word) (s : State) : Host.Outcome State Fault Refusal :=
  event (Instr.wf (.islVsetWrite d n v)) s fun s => islVset s d n v

/-- A write to ISL_MARGIN_n (R97). -/
def islMargin (s : State) (d n : Nat) (v : Word) : State :=
  let m := bits v.toNat 3 0
  if !windowOpen s d then s
  else if 8 ≤ m ∨ (m ≠ 0 ∧ s.ctxs.any fun c => c.resident && c.set.contains (32 * d + n)) then
    setBits s (islBase d n + 4) 4#32
  else setReg s (islBase d n + 12) (BitVec.ofNat 32 m)

/-- ISL_MARGIN_WRITE (R97). -/
def execIslMarginWrite (d n : Nat) (v : Word) (s : State) : Host.Outcome State Fault Refusal :=
  event (Instr.wf (.islMarginWrite d n v)) s fun s => islMargin s d n v

/-- A write to ISL_RATE_n with MIN_RESET (R80). -/
def islRateMinReset (s : State) (d n : Nat) (v : Word) : State :=
  if windowOpen s d && bit v.toNat 31 then modIsland s d n fun i => { i with rateMin := i.rateNow } else s

/-- ISL_RATE_MIN_RESET (R80). -/
def execIslRateMinReset (d n : Nat) (v : Word) (s : State) : Host.Outcome State Fault Refusal :=
  event (Instr.wf (.islRateMinReset d n v)) s fun s => islRateMinReset s d n v

/-- ISL_RAMP_DONE: the island reaches its effective voltage (R75). -/
def execIslRampDone (d n : Nat) (s : State) : Host.Outcome State Fault Refusal :=
  event (Instr.wf (.islRampDone d n)) s fun s => modIsland s d n fun i => { i with ramping := false }

/-- RATE_NOW of an island whose replica stage would complete `rate` operations unstressed (R100): the delays injected by step
`m` of ISL_MARGIN_n stretch each operation by m × 4 %, the rate becomes 1 / (1 − 0.04 × m) times, rounded down, at most the
field's 4,095 (DESIGN CHOICE, notes/assumptions/70). -/
def stressedRate (rate m : Nat) : Nat := min 4095 (rate * 100 / (100 - 4 * m))

/-- ISL_RATE_UPDATE: the replica stage's rate over the last 10 µs (R80, R81, R100). -/
def islRateUpdate (s : State) (d n rate : Nat) : State :=
  let r := stressedRate rate (margin s d n)
  modIsland s d n fun i => { i with rateNow := r, rateMin := min i.rateMin r }

/-- ISL_RATE_UPDATE (R80). -/
def execIslRateUpdate (d n rate : Nat) (s : State) : Host.Outcome State Fault Refusal :=
  event (Instr.wf (.islRateUpdate d n rate)) s fun s => islRateUpdate s d n rate

end Sys2Proof.Machine
end

