-- ==== Sys2Proof/Machine/TallyOps.lean ====
section
/-! DEFINITION. Machine/TallyOps.lean: the Tally's intervals, records, removal and fitting (R776 to R787),
unmetered running (R786) and the apportioning of energy to address spaces (R788 to R790). -/

namespace Sys2Proof.Machine

/-- W_k of PWR_APP_W_k (R790). -/
def appWeights (s : State) : List Nat := (List.range 6).map fun k => (getReg s (0xC02000 + 4 * k)).toNat

/-- The activity of an ASN over an interval (R788): the weighted growth of its hub totals. -/
def activity (w : List Nat) (now last : Acct) : Nat :=
  w.getD 0 0 * (now.m1 - last.m1) + w.getD 1 0 * (now.m2 - last.m2) + w.getD 2 0 * (now.m4 - last.m4) +
  w.getD 3 0 * (now.m8 - last.m8) + w.getD 4 0 * (now.taste - last.taste) + w.getD 5 0 * (now.seated - last.seated)

/-- Divides the energy `e` of one closed interval among address spaces (R788). -/
def apportion (s : State) (e : Nat) : State :=
  let acts := s.totals.map fun t => (t.1, activity s.app.weights t.2 (assocD s.app.last t.1 .zero))
  let sum := (acts.map (·.2)).sum
  let shares := if sum = 0 then [] else acts.map fun a => (a.1, e * a.2 / sum)
  let given := (shares.map (·.2)).sum
  let asn' := shares.foldl (fun m a => if a.2 = 0 then m else assocSet m a.1 (assocD m a.1 0 + a.2)) s.app.asn
  { s with app := { idle := s.app.idle + (e - given), asn := asn', last := s.totals, weights := appWeights s } }

/-- FLAGS of a record (R778). -/
def tallyFlags (unmetered broken gap final first overrange : Bool) : Nat :=
  b2n unmetered + 2 * b2n broken + 4 * b2n gap + 8 * b2n final + 16 * b2n first + 32 * b2n overrange

/-- Bytes 0 to 63 of the Tally's next record (R778). -/
def recordBody (s : State) (final : Bool) : Bytes :=
  let t := s.tally
  record 64 [(0, 2, 1), (2, 1, tallyFlags false t.sealBroken t.gap final t.first t.overrange), (4, 4, t.recSeq),
    (8, 8, t.serial), (16, 8, Config.serial.toNat), (24, 8, t.total), (32, 8, t.recEnergy), (40, 8, t.seconds),
    (48, 8, s.hub.timebase), (56, 2, t.recIntervals), (58, 2, t.peakW), (60, 2, t.vinMin), (62, 2, t.vinMax)]

/-- The accumulation of the next record starts (R778). -/
def startRecord (t : Tally) : Tally :=
  { t with recEnergy := 0, recIntervals := 0, peakW := 0, vinMin := 0, vinMax := 0, overrange := false
           gap := false, first := false }

/-- The Tally closes a signed record, stores it, and TALLY_RECORD is sent (R777 to R781). -/
def closeRecord (s : State) (final : Bool) : State :=
  let b := recordBody s final
  let r := b ++ slice (Config.tallySign s.tally.serial b) 0 64
  let t := s.tally
  let t1 := { startRecord t with recSeq := t.recSeq + 1, records := (r :: t.records).take 1024
                                 uncopied := min 1024 (t.uncopied + 1) }
  sendMsg { s with tally := t1 } 0x0070 [(16, 1, 0), (20, 4, t.recSeq), (24, 8, t.total)]

/-- Adds one closed interval of the Tally to its totals (R777, R778). -/
def addInterval (t : Tally) (e watts vin : Nat) (overrange : Bool) : Tally :=
  { t with total := t.total + e, seconds := t.seconds + 1, recEnergy := t.recEnergy + e
           recIntervals := t.recIntervals + 1, peakW := max t.peakW watts
           vinMin := if t.recIntervals = 0 then vin else min t.vinMin vin
           vinMax := max t.vinMax vin, overrange := t.overrange || overrange }

/-- TALLY_INTERVAL_CLOSE: a 1 s interval closes and its energy is apportioned; the 60th closes its record too (R777, R788). -/
def tallyInterval (s : State) (e watts vin : Nat) (overrange : Bool) : State :=
  if s.tally.state = .metering then
    let s1 := apportion { s with tally := addInterval s.tally e watts vin overrange } e
    if 60 ≤ s1.tally.recIntervals then closeRecord s1 false else s1
  else s

/-- TALLY_INTERVAL_CLOSE (R777). -/
def execTallyIntervalClose (e watts vin : Nat) (overrange : Bool) (s : State) : Host.Outcome State Fault Refusal :=
  event (Instr.wf (.tallyIntervalClose e watts vin overrange)) s fun s => tallyInterval s e watts vin overrange

/-- TALLY_RECORD_CLOSE: the partial record after power returns (R780), or a record whose 60 intervals are over. -/
def tallyRecordClose (s : State) : State :=
  if s.tally.state = .metering ∧ (60 ≤ s.tally.recIntervals ∨ (s.tally.gap ∧ 0 < s.tally.recIntervals)) then
    closeRecord s false else s

/-- TALLY_RECORD_CLOSE (R778). -/
def execTallyRecordClose (s : State) : Host.Outcome State Fault Refusal := event (Instr.wf .tallyRecordClose) s tallyRecordClose

/-- UNMETERED_INTERVAL_CLOSE: the manager's sense gives the interval's energy (R786, R788). -/
def unmeteredInterval (s : State) (e : Nat) : State :=
  if s.tally.state = .metering then s else
    apportion { s with tally := { s.tally with
      unmTotal := s.tally.unmTotal + e, unmRecord := s.tally.unmRecord + e
      unmIntervals := s.tally.unmIntervals + 1, unmPeak := max s.tally.unmPeak (e / 1000) } } e

/-- UNMETERED_INTERVAL_CLOSE (R788). -/
def execUnmeteredIntervalClose (e : Nat) (s : State) : Host.Outcome State Fault Refusal :=
  event (Instr.wf (.unmeteredIntervalClose e)) s fun s => unmeteredInterval s e

/-- UNMETERED_RECORD: the hub's own record, not stored (R786). -/
def unmeteredRecord (s : State) : State :=
  if s.tally.state = .metering then s else
    let t := s.tally
    sendMsg { s with tally := { t with unmSeq := t.unmSeq + 1, unmRecord := 0, unmIntervals := 0, unmPeak := 0
                                       unmFrom := s.hub.timebase } } 0x0070
      [(16, 1, 1), (20, 4, t.unmSeq), (24, 8, t.unmTotal)]

/-- UNMETERED_RECORD (R786). -/
def execUnmeteredRecord (s : State) : Host.Outcome State Fault Refusal := event (Instr.wf .unmeteredRecord) s unmeteredRecord

/-! ### Removal and fitting -/

/-- RELEASE in TALLY_CTL (R784 steps 1 and 2): a metering Tally closes its partial interval, whose energy
and power the meter alone knows (free values), and a record with FINAL. -/
def tallyRelease (s : State) : State :=
  let t := s.tally
  match t.state with
  | .metering =>
    let s0 := if 60 ≤ t.recIntervals then closeRecord s false else s
    let e := (Config.freeWord s0.free).toNat
    let w := (Config.freeWord (s0.free + 1)).toNat % 65536
    let v := (Config.freeWord (s0.free + 2)).toNat % 65536
    let s1 := { s0 with tally := { addInterval s0.tally e w v false with state := .releasing }
                        free := s0.free + 3 }
    closeRecord (apportion s1 e) true
  | .fault => { s with tally := { t with state := .releasing } }
  | _ => s

/-- ATTACH in TALLY_CTL (R785): the socket is energised. -/
def tallyAttach (s : State) : State :=
  match s.tally.state with
  | .absent | .released => { s with tally := { s.tally with state := .starting } }
  | _ => s

/-- A write to TALLY_CTL (R787): with the correct KEY, RELEASE and ATTACH act. -/
def tallyCtl (s : State) (v : Word) : State :=
  if bits v.toNat 31 16 ≠ 0x0CD9 then s else
    let s1 := if bit v.toNat 0 then tallyRelease s else s
    if bit v.toNat 1 then tallyAttach s1 else s1

/-- TALLY_RELEASE (R784). -/
def execTallyRelease (v : Word) (s : State) : Host.Outcome State Fault Refusal :=
  event (Instr.wf (.tallyRelease v)) s fun s => tallyCtl s v

/-- TALLY_ATTACH (R785). -/
def execTallyAttach (v : Word) (s : State) : Host.Outcome State Fault Refusal :=
  event (Instr.wf (.tallyAttach v)) s fun s => tallyCtl s v

/-- TALLY_RELEASE_DONE: the bypass carries the current, records go to flash, the socket is off (R784
steps 3 and 4). -/
def tallyReleaseDone (s : State) : State :=
  if s.tally.state = .releasing then
    let s1 := tallyCopy { s with tally := { s.tally with bypass := true } }
    { s1 with tally := { s1.tally with state := .released, fwRev := 0, unmFrom := s.hub.timebase } }
  else s

/-- TALLY_RELEASE_DONE (R784). -/
def execTallyReleaseDone (s : State) : Host.Outcome State Fault Refusal := event (Instr.wf .tallyReleaseDone) s tallyReleaseDone

/-- TALLY_SELF_TEST_DONE (R785): a Tally that passes meters, with FIRST in its first record; one that
fails, or no answer, is FAULT with the bypass closed. The part's serial and totals are its own. -/
def tallySelfTest (s : State) (passed : Bool) (fw serial secs total seq : Nat) (broken : Bool) : State :=
  if s.tally.state ≠ .starting then s else
    let s1 := logFault s { type := 12, code := 3 }
    let t := s1.tally
    if passed then
      { s1 with tally := { startRecord t with
          state := .metering, bypass := false, fwRev := fw, serial := serial, seconds := secs, total := total
          recSeq := seq, sealBroken := broken, first := true, gap := t.gap && t.serial == serial
          records := if t.serial = serial then t.records else []
          uncopied := if t.serial = serial then t.uncopied else 0 } }
    else { s1 with tally := { t with state := .fault, bypass := true, fwRev := 0, unmFrom := s.hub.timebase } }

/-- TALLY_SELF_TEST_DONE (R785). -/
def execTallySelfTestDone (passed : Bool) (fw serial secs total seq : Nat) (broken : Bool) (s : State) :
    Host.Outcome State Fault Refusal :=
  event (Instr.wf (.tallySelfTestDone passed fw serial secs total seq broken)) s fun s => tallySelfTest s passed fw serial secs total seq broken

/-- TALLY_PULLED: removed without release, the bypass closes (R783). -/
def tallyPulled (s : State) : State :=
  if s.tally.state = .absent then s else
    { s with tally := { s.tally with state := .absent, bypass := true, fwRev := 0, gap := true, unmFrom := s.hub.timebase } }

/-- TALLY_PULLED (R783). -/
def execTallyPulled (s : State) : Host.Outcome State Fault Refusal := event (Instr.wf .tallyPulled) s tallyPulled

/-- TALLY_FAULT: a Tally fails in service (R785). -/
def tallyFaulted (s : State) : State :=
  match s.tally.state with
  | .metering | .starting =>
    { s with tally := { s.tally with state := .fault, bypass := true, fwRev := 0, unmFrom := s.hub.timebase } }
  | _ => s

/-- TALLY_FAULT (R785). -/
def execTallyFault (s : State) : Host.Outcome State Fault Refusal := event (Instr.wf .tallyFault) s tallyFaulted

/-- TALLY_SEAL_OPENED (R782). -/
def execTallySealOpened (s : State) : Host.Outcome State Fault Refusal :=
  event (Instr.wf .tallySealOpened) s fun s => { s with tally := { s.tally with sealBroken := true } }

/-- TALLY_FLASH_COPY: at most once in 30 min (R781). -/
def tallyFlashCopy (s : State) : State :=
  let due := match s.tally.lastCopy with
    | some t => decide (t + 1800000000000 ≤ s.hub.timebase)
    | none => true
  if due then tallyCopy s else s

/-- TALLY_FLASH_COPY (R781). -/
def execTallyFlashCopy (s : State) : Host.Outcome State Fault Refusal := event (Instr.wf .tallyFlashCopy) s tallyFlashCopy

/-- TALLY_REC_INDEX_WRITE (R787). -/
def execTallyRecIndexWrite (v : Word) (s : State) : Host.Outcome State Fault Refusal :=
  event (Instr.wf (.tallyRecIndexWrite v)) s fun s => tallyRecIndex s v

/-- INPUT_POWER_LOSS: the module switches off; the Tally saves its partial interval with GAP set (R761,
R780). On return MODULE_RESET follows (R683). -/
def inputPowerLoss (s : State) (e watts vin : Nat) : State :=
  let t := if s.tally.state = .metering then { addInterval s.tally e watts vin false with gap := true }
           else s.tally
  let s1 := moduleReset { s with tally := t }
  { s1 with hub := { s1.hub with powered := false } }

/-- INPUT_POWER_LOSS (R761). -/
def execInputPowerLoss (e watts vin : Nat) (s : State) : Host.Outcome State Fault Refusal :=
  event (Instr.wf (.inputPowerLoss e watts vin)) s fun s => inputPowerLoss s e watts vin

/-! ### Accounting registers -/

/-- ACCT_FLUSH: each die's counts are added into the hub totals (R678). -/
def acctFlush (s : State) : State := (s.ctxs.map (·.asn)).foldl flushCtx s

/-- ACCT_FLUSH (R678). -/
def execAcctFlush (s : State) : Host.Outcome State Fault Refusal := event (Instr.wf .acctFlush) s acctFlush

/-- A write to ACCT_CTL of an ASN's block (R677): CLR sets every counter of the block to 0, GAP is W1C. -/
def acctCtl (s : State) (asn : Nat) (v : Word) : State :=
  let s1 := clearW1c s (0x4005C + 0x100 * asn) v
  if bit v.toNat 0 then
    { s1 with totals := assocSet s1.totals asn .zero, app := { s1.app with last := assocSet s1.app.last asn .zero } }
  else s1

/-- ACCT_CLR (R677). -/
def execAcctClr (asn : Nat) (v : Word) (s : State) : Host.Outcome State Fault Refusal :=
  event (Instr.wf (.acctClr asn v)) s fun s => acctCtl s asn v

/-- A write to APP_CTL (R790). -/
def appCtl (s : State) (v : Word) : State :=
  if bit v.toNat 0 then { s with app := { s.app with idle := 0, asn := [] } } else s

/-- APP_CLR (R790). -/
def execAppClr (v : Word) (s : State) : Host.Outcome State Fault Refusal := event (Instr.wf (.appClr v)) s fun s => appCtl s v

end Sys2Proof.Machine
end

