-- ==== Sys2Proof/Machine/Queue.lean ====
section
/-! DEFINITION. Machine/Queue.lean: how a host command comes off its ring and starts (R627 to R631, R699, R717):
ring order, BARRIER, the limit of 64 in progress and held completions; and the commands that only a queue
or the boot sequencer answers: NOP, reserved commands, APPLY, DORMANT_ENTER, WAKE and the die commands. -/

namespace Sys2Proof.Machine

/-! ### Starting -/

/-- Whether the boot state lets a command that starts run (R699, R717). -/
def admitted (s : State) (code : Nat) : Bool :=
  code == 0x0001 || code == 0x0070 ||
  (if code = 0x0072 then s.hub.boot == .dormant else s.hub.boot == .ready)

/-- DETAIL of an entry whose command did nothing (R638): no slot taken, the first slot of DESC_BIND, the present
epoch, no failing record. -/
def failDetail (s : State) (code first : Nat) : Bytes :=
  if code = 0x0010 ∨ code = 0x0013 then List.replicate 4 0xFF#8
  else if code = 0x0022 then record 16 [(0, 1, first)]
  else if code = 0x0060 then modeDetail s 0 0
  else if code = 0x0070 then applyDetail 0 0 0xFFFFFFFF
  else []

/-- Whether the next command of a queue may start (R628, R631): fewer than 64 in progress, no completion held,
and, with BARRIER, none in progress. -/
def mayStart (s : State) (h : CmdHdr) : Bool :=
  let q := getQ s h.queue
  q.held.isEmpty && decide (q.inProg.length < 64) && (!h.barrier || q.inProg.isEmpty)

/-- The header of a host command, and the ASN it names. -/
def cmdHead : Instr → Option (CmdHdr × Option Nat)
  | .nop h | .dormantEnter h | .wake h => some (h, none)
  | .streamClose h _ | .frameSubmit h _ _ | .frameRelease h _ _ => some (h, none)
  | .modeSetVintage h _ _ _ _ | .modeSetTaster h _ _ _ _ => some (h, none)
  | .applyConfig h _ _ _ _ | .applyStoreOnly h _ _ _ _ => some (h, none)
  | .dieDrainHold h _ | .dieDrainRepair h _ | .dieRestore h _ => some (h, none)
  | .reservedCmd h _ _ => some (h, none)
  | .ctxCreate h a _ _ _ _ _ _ _ => some (h, some a)
  | .ctxDestroy h a | .ctxCork h a | .ctxUncork h a _ | .ctxExport h a _ _ | .ctxSetClass h a _ _ => some (h, some a)
  | .asnDestroy h a | .semAliasSet h a _ _ _ | .semAliasClear h a _ _ _ | .semSignal h a _ _ => some (h, some a)
  | .jobLaunch h a _ _ _ _ _ | .jobEnd h a => some (h, some a)
  | .descBind h a _ _ _ | .trellisBind h a _ _ | .versionSet h a _ _ _ _ => some (h, some a)
  | .memAlloc h a _ _ _ _ _ | .memMigrate h a _ _ _ _ _ | .memFree h a _ _ => some (h, some a)
  | .xferToHost h a _ _ _ _ | .xferFromHost h a _ _ _ _ => some (h, some a)
  | .groupCreate h a _ _ _ _ _ _ | .groupDestroy h a _ => some (h, some a)
  | .streamOpen h _ a _ _ => some (h, some a)
  | _ => none

/-- Whether an earlier command on the ASN that a command names must end first (R630): a CTX_EXPORT, or, for ASN_DESTROY, what still
moves bytes or pages of the address space. The other commands that take time are those whose overlap the spec's own conditions
describe (R455, R637, R643, R653; DEDUCED, notes/assumptions/74). -/
def asnBusy (s : State) (i : Instr) : Bool :=
  match cmdHead i with
  | some (_, some a) =>
    (ctxOf s a).any (fun c => c.exporting.isSome) ||
    match i with
    | .asnDestroy _ _ => (s.migrations.any fun m => m.asn == a) || (s.fills.any fun f => f.asn == a) || s.xfers.any fun x => x.asn == a
    | _ => false
  | _ => false

/-- Whether a command at the head of queue `q` may start. -/
def canStart (s : State) (q : Nat) (i : Instr) : Bool :=
  (cmdHead i).any (fun x => mayStart s { x.1 with queue := q }) && !asnBusy s i

/-- HQ_CTL.PRIO of a queue. -/
def prioQueue (s : State) (q : Nat) : Bool := bit (getReg s (hqBase q + 16)).toNat 30

/-- Whether a PRIO queue has a command that goes ahead of those of queue `q` (R629). -/
def prioFirst (s : State) (q : Nat) : Bool :=
  !prioQueue s q && s.queues.any fun p => prioQueue s p.1 && p.2.waiting.head?.any fun x => canStart s p.1 x.2

/-- Starts a command: it is in progress until its completion entry is written. -/
def startNow (s : State) (h : CmdHdr) (code first : Nat) (start : State → State) : State :=
  let s1 := beginCmd s h code
  if admitted s1 code then start s1 else complete s1 h code .stateIllegal (failDetail s1 code first)

/-- The CD9 fetches one entry: SQ_HEAD moves on (R627). -/
def fetchOne (s : State) (q : Nat) : State :=
  let x := getQ s q
  let n := (x.sqHead + 1) % sqSize s q
  setQ s q { x with sqHead := n, sqTail := if x.sqTail = x.sqHead then n else x.sqTail }

/-- Puts a fetched command behind those of its queue that wait to start. -/
def enqueue (s : State) (q : Nat) (i : Instr) : State :=
  let x := getQ s q
  setQ s q { x with waiting := x.waiting ++ [(s.hub.timebase, i)] }

/-- Whether a command just fetched starts at once: none waits before it in its queue, it may start, and no PRIO queue goes first. -/
def startsNow (s : State) (q : Nat) (i : Instr) : Bool := (getQ s q).waiting.isEmpty && canStart s q i && !prioFirst s q

/-- One command entry of a RUNNING queue: it is fetched and starts, or waits behind the commands before it. A
queue that is not RUNNING fetches nothing. -/
def submit (s : State) (h : CmdHdr) (i : Instr) (code first : Nat) (start : State → State) : State :=
  if (getQ s h.queue).state = .running then
    let s1 := fetchOne s h.queue
    if startsNow s1 h.queue i then startNow s1 h code first start
    else enqueue s1 h.queue i
  else s

/-! ### NOP, reserved commands -/

/-- NOP once it starts (R633). -/
def startNop (h : CmdHdr) (s : State) : State := complete s h 0x0001 .ok []

/-- NOP (R633). -/
def execNop (h : CmdHdr) (s : State) : Host.Outcome State Fault Refusal :=
  event (Instr.wf (.nop h)) s fun s => submit s h (.nop h) 0x0001 0 (startNop h)

/-- A command with a reserved code or bit (R634): FORMAT_UNSUPPORTED whatever the boot state. -/
def startReserved (h : CmdHdr) (code first : Nat) (s : State) : State :=
  complete (beginCmd s h code) h code .formatUnsupported (failDetail s code first)

/-- RESERVED_CMD (R634): it does not pass the admission of R699, which is for commands that exist. -/
def reservedCmd (s : State) (h : CmdHdr) (code first : Nat) : State :=
  if (getQ s h.queue).state = .running then
    let s1 := fetchOne s h.queue
    if startsNow s1 h.queue (.reservedCmd h code first) then startReserved h code first s1
    else enqueue s1 h.queue (.reservedCmd h code first)
  else s

/-- RESERVED_CMD (R634). -/
def execReservedCmd (h : CmdHdr) (code first : Nat) (s : State) : Host.Outcome State Fault Refusal :=
  event (Instr.wf (.reservedCmd h code first)) s fun s => reservedCmd s h code first

/-! ### APPLY, Dormant -/

/-- APPLY (R700). -/
def execApplyConfig (h : CmdHdr) (writeFlash : Bool) (imageBus imageBytes : Nat) (image : HostRead) (s : State) :
    Host.Outcome State Fault Refusal :=
  event (Instr.wf (.applyConfig h writeFlash imageBus imageBytes image)) s fun s =>
    submit s h (.applyConfig h writeFlash imageBus imageBytes image) 0x0070 0
      (startApply h false writeFlash imageBus imageBytes image)

/-- APPLY with STORE_ONLY (R701). -/
def execApplyStoreOnly (h : CmdHdr) (writeFlash : Bool) (imageBus imageBytes : Nat) (image : HostRead) (s : State) :
    Host.Outcome State Fault Refusal :=
  event (Instr.wf (.applyStoreOnly h writeFlash imageBus imageBytes image)) s fun s =>
    submit s h (.applyStoreOnly h writeFlash imageBus imageBytes image) 0x0070 0
      (startApply h true writeFlash imageBus imageBytes image)

/-- DORMANT_ENTER (R715, R716). -/
def execDormantEnter (h : CmdHdr) (s : State) : Host.Outcome State Fault Refusal :=
  event (Instr.wf (.dormantEnter h)) s fun s => submit s h (.dormantEnter h) 0x0071 0 (startDormant h)

/-- WAKE (R715, R720). -/
def execWake (h : CmdHdr) (s : State) : Host.Outcome State Fault Refusal :=
  event (Instr.wf (.wake h)) s fun s => submit s h (.wake h) 0x0072 0 (startWake h)

end Sys2Proof.Machine
end

