-- ==== Sys2Proof/Machine/Screens.lean ====
section
/-! DEFINITION. Machine/Screens.lean: field screens (R735 to R740), die flags (R745, R746, R752), drains and restores
by command (R741 to R744), and the reading windows of the fault log and the repair map (R755). -/

namespace Sys2Proof.Machine

/-! ### Screens -/

/-- The screen mask of die `d`. -/
def scrMask (s : State) (d : Nat) : Nat := (getReg s (scrBase d + 4)).toNat

/-- Whether START is accepted (R735). -/
def screenOk (s : State) (d : Nat) : Bool :=
  let m := scrMask s d
  s.hub.boot == .ready && dieIs s d .online && (getDie s d).screen.state == .idle && m != 0 &&
  (List.range 32).all fun c => !bit m c ||
    ((clusterMap s (32 * d + c)).active &&
     !(s.ctxs.any fun x => x.resident && x.set.contains (32 * d + c)) &&
     !((getDie s d).pending.any fun p => p.1 == c))

/-- START in SCR_CMD (R735): the engine takes the clusters, their margins and their voltages, or REFUSED is set. -/
def screenStart (s : State) (d : Nat) : State :=
  if screenOk s d then
    let n := sat32 (s.rel.screens + 1)
    let x := { Screen.reset with state := ScreenState.running, outcome := (getDie s d).screen.outcome, id := n }
    resettle (modDie { s with rel := { s.rel with screens := n } } d fun y => { y with screen := x })
  else setBits s (scrBase d + 0x14) 0x04000000#32

/-- A write to SCR_CMD (R754). -/
def scrCmd (s : State) (d : Nat) (v : Word) : State :=
  let s1 := if bit v.toNat 31 then screenStart s d else s
  if bit v.toNat 30 then abortScreen s1 d else s1

/-- SCR_START (R735). -/
def execScrStart (d : Nat) (v : Word) (s : State) : Host.Outcome State Fault Refusal :=
  event (Instr.wf (.scrStart d v)) s fun s => scrCmd s d v

/-- SCR_STOP (R754). -/
def execScrStop (d : Nat) (v : Word) (s : State) : Host.Outcome State Fault Refusal :=
  event (Instr.wf (.scrStop d v)) s fun s => scrCmd s d v

/-- The outcome decided after the last round (R737, R738). -/
def screenOutcome (x : Screen) (step guardStep : Nat) : Nat :=
  if 1 < x.slots.length || x.noMajority || x.moved then 3
  else if x.slots.isEmpty then 0
  else if x.again || decide (step ≤ guardStep) then 1 else 2

/-- A confirmed slot is held pending until the next reset of its die (R733, R739), which records it: the repair map does not
change while the die is in service (R41). -/
def confirmSlot (s : State) (d c k : Nat) : State :=
  sendRepair (modDie s d fun y => { y with pending := y.pending ++ [(c, k)] }) 5 d c k 0

/-- After the last round: the screen ends and its outcome is acted on (R739). -/
def decideScreen (s : State) (d : Nat) : State :=
  let x := (getDie s d).screen
  let o := screenOutcome x (regBits s (scrBase d) 6 4) (regBits s (scrBase d) 11 8)
  let s1 := finishScreen s d o
  if o = 1 then match x.slots with
    | p :: _ => confirmSlot s1 d p.1 p.2
    | [] => s1
  else if o = 3 then drainHold s1 d 1
  else s1

/-- Goes on to the next round, or decides after the last (R737). -/
def nextRound (s : State) (d : Nat) : State :=
  let s1 := modDie s d fun y => { y with screen := { y.screen with state := .running, round := y.screen.round + 1 } }
  if (getDie s1 d).screen.round < regBits s (scrBase d) 31 24 then resettle s1 else decideScreen s1 d

/-- The slots a screen of die `d` drives (R736): those of the screened clusters whose SPARE_ROLE is not FAILED. -/
def screenSlots (s : State) (d : Nat) : List (Nat × Nat) :=
  ((List.range 32).filter fun c => bit (scrMask s d) c && (clusterMap s (32 * d + c)).role != .failed).flatMap fun c =>
    (List.range 17).map fun k => (c, k)

/-- The digest a slot of a round gives: the healthy slots' digest of the seed and the round, or the one its engine saw (R736). -/
def slotDigest (s : State) (d : Nat) (r : ScreenRound) (x : Nat × Nat) : Nat :=
  match r.deviating.find? fun v => v.1 == x.1 && v.2.1 == x.2 with
  | some v => v.2.2
  | none => Config.screenDigest ((getReg s (scrBase d + 8)).toNat + 2 ^ 32 * (getReg s (scrBase d + 12)).toNat) (getDie s d).screen.round

/-- The reference digest of a round: the one held by a strict majority of the screened slots (R736). -/
def screenReference (s : State) (d : Nat) (r : ScreenRound) : Option Nat :=
  let l := (screenSlots s d).map (slotDigest s d r)
  l.find? fun x => decide (l.length < 2 * l.count x)

/-- The slots whose digest is not the reference; none where there is no reference to differ from. -/
def screenMismatches (s : State) (d : Nat) (r : ScreenRound) : List (Nat × Nat) :=
  match screenReference s d r with
  | some g => (screenSlots s d).filter fun x => slotDigest s d r x != g
  | none => []

/-- Adds the mismatches of a round to what the screen has seen (R737, R754). -/
def Screen.see (x : Screen) (ms : List (Nat × Nat)) (majority testFails : Bool) : Screen :=
  { x with
    mismatches := min 65535 (x.mismatches + ms.length)
    firstCluster := if x.slots.isEmpty then (ms.headD (x.firstCluster, 0)).1 else x.firstCluster
    firstSlot := if x.slots.isEmpty then (ms.headD (0, x.firstSlot)).2 else x.firstSlot
    slots := (x.slots ++ ms).eraseDups
    noMajority := x.noMajority || !majority
    again := x.again || (testFails && !ms.isEmpty) }

/-- A pass of a round ends (R736, R737). A round with a mismatch is re-run once at MARGIN 0; the re-run shows whether
the slot mismatches again or another one does, or that no digest has a strict majority. A screen whose service memory met an
uncorrectable error ends ABORTED (R723). -/
def screenRound (s : State) (d : Nat) (r : ScreenRound) : State :=
  let x := (getDie s d).screen
  let ms := screenMismatches s d r
  let majority := (screenReference s d r).isSome
  if x.state ≠ .idle ∧ r.serviceError then abortScreen s d else
  match x.state with
  | .idle => s
  | .running =>
    let s1 := modDie s d fun y => { y with screen := y.screen.see ms majority r.testFails }
    if ms.isEmpty then nextRound s1 d
    else resettle (modDie s1 d fun y => { y with screen := { y.screen with state := .confirming } })
  | .confirming =>
    let s1 := modDie s d fun y => { y with screen := { y.screen with
      noMajority := y.screen.noMajority || !majority
      again := y.screen.again || r.testFails || ms.any fun p => x.slots.contains p
      moved := y.screen.moved || ms.any fun p => !x.slots.contains p } }
    nextRound s1 d

/-- SCREEN_ROUND_DONE (R737). -/
def execScreenRoundDone (d : Nat) (r : ScreenRound) (s : State) : Host.Outcome State Fault Refusal :=
  event (Instr.wf (.screenRoundDone d r)) s fun s => screenRound s d r

/-! ### Flags -/

/-- Clears a die's flag (R746): its records leave the repair map. -/
def clearFlag (s : State) (d : Nat) : State :=
  if (getDie s d).flag = 0 then s else
    flushMap { (modDie s d fun y => { y with flag := 0 }) with
      rel := { s.rel with map := s.rel.map.filter fun r => !(field r 0 1 == 7 && field r 1 1 == d) } }

/-- A write to REL_DIE_FLAG_d (R752). -/
def dieFlagWrite (s : State) (d : Nat) (v : Word) : State :=
  if bits v.toNat 31 16 ≠ 0x0CD9 then s else
    let s1 := if bit v.toNat 9 && dieIs s d .offline then flagDie s d 5 else s
    if bit v.toNat 8 then clearFlag s1 d else s1

/-- REL_DIE_FLAG_SET (R752). -/
def execRelDieFlagSet (d : Nat) (v : Word) (s : State) : Host.Outcome State Fault Refusal :=
  event (Instr.wf (.relDieFlagSet d v)) s fun s => dieFlagWrite s d v

/-- REL_DIE_FLAG_CLR (R746). -/
def execRelDieFlagClr (d : Nat) (v : Word) (s : State) : Host.Outcome State Fault Refusal :=
  event (Instr.wf (.relDieFlagClr d v)) s fun s => dieFlagWrite s d v

/-! ### Drains and restores -/

/-- DIE_DRAIN once it starts (R741, R742). -/
def startDieDrain (h : CmdHdr) (die : Nat) (goal : DieGoal) (s : State) : State :=
  if 3 < die then complete s h 0x0078 .formatUnsupported []
  else if s.hub.boot = .ready ∧ dieIs s die .online then startDrain s die goal
  else complete s h 0x0078 .stateIllegal []

/-- DIE_DRAIN_HOLD (R742). -/
def execDieDrainHold (h : CmdHdr) (die : Nat) (s : State) : Host.Outcome State Fault Refusal :=
  event (Instr.wf (.dieDrainHold h die)) s fun s =>
    submit s h (.dieDrainHold h die) 0x0078 0 (startDieDrain h die (.hold (some h) 0))

/-- DIE_DRAIN_REPAIR (R742). -/
def execDieDrainRepair (h : CmdHdr) (die : Nat) (s : State) : Host.Outcome State Fault Refusal :=
  event (Instr.wf (.dieDrainRepair h die)) s fun s =>
    submit s h (.dieDrainRepair h die) 0x0078 0 (startDieDrain h die (.repair h))

/-- DIE_RESTORE once it starts (R744). -/
def startDieRestore (h : CmdHdr) (die : Nat) (s : State) : State :=
  if 3 < die then complete s h 0x0079 .formatUnsupported []
  else if s.hub.boot = .ready ∧ dieIs s die .offline ∧ (getDie s die).flag = 0 then enterReset s die (.restore h)
  else complete s h 0x0079 .stateIllegal []

/-- DIE_RESTORE (R744). -/
def execDieRestore (h : CmdHdr) (die : Nat) (s : State) : Host.Outcome State Fault Refusal :=
  event (Instr.wf (.dieRestore h die)) s fun s => submit s h (.dieRestore h die) 0x0079 0 (startDieRestore h die)

/-! ### Reading the log and the map -/

/-- REL_LOG_INDEX_WRITE (R755). -/
def execRelLogIndexWrite (v : Word) (s : State) : Host.Outcome State Fault Refusal :=
  event (Instr.wf (.relLogIndexWrite v)) s fun s => logIndexWrite s v

/-- REL_MAP_INDEX_WRITE (R755). -/
def execRelMapIndexWrite (v : Word) (s : State) : Host.Outcome State Fault Refusal :=
  event (Instr.wf (.relMapIndexWrite v)) s fun s => storeMasked s 0xD02004 (rwMask 0xD02004) v

end Sys2Proof.Machine
end

