-- ==== Sys2Proof/Machine/Pages.lean ====
section
/-! DEFINITION. Machine/Pages.lean: the page commands (R454 to R459), promotion on write (R460 to R463), quotas
(R464 to R468), XFER (R637), the decant engine (R471 to R476), tier stall (R478), the loss of a far-tier port
(R453) and the host-window registers (R485). -/

namespace Sys2Proof.Machine

/-! ### Checks shared by the page commands (R455) -/

/-- Bits PLACE may name in a tier (R454). -/
def placeBits (tier : Nat) : Nat := if tier = 0 then 12 else 2

/-- Whether PLACE names only existing stacks or UP ports, and at least one (R455). -/
def placeOk (s : State) (tier place : Nat) : Bool :=
  decide (place < 2 ^ placeBits tier) && !(places s tier place).isEmpty &&
  (tier == 0 || (List.range 2).all fun p => !bit place p || farUp s p)

/-- The mapped pages of an ASN with page numbers in [v, v + n), ascending. -/
def pagesIn (s : State) (asn v n : Nat) : List Page :=
  match spaceOf s asn with
  | some x => x.pages.filter fun p => decide (v ≤ p.vpn) && decide (p.vpn < v + n)
  | none => []

/-- Whether a page of the range is in a migration, or is the destination of a decant in progress (R455). -/
def busyIn (s : State) (asn v n : Nat) : Bool :=
  (s.migrations.any fun m => m.asn == asn && m.left.any fun l => decide (v ≤ l.1) && decide (l.1 < v + n)) ||
  (s.decants.any fun d => d.asn == asn && d.into.any fun r => decide (0 < r.2) &&
    decide (r.1 / pageBytes < v + n) && decide (v ≤ (r.1 + r.2 - 1) / pageBytes))

/-- Free pages of one place. -/
def freeAt (s : State) (tier p : Nat) : Nat :=
  let r := placeRange s tier p
  r.2 - ((usedPpns s).filter fun q => decide (r.1 ≤ q) && decide (q < r.1 + r.2)).length

/-- Free pages of the allowed places. -/
def freePages (s : State) (tier : Nat) (pl : List Nat) : Nat := (pl.map (freeAt s tier)).sum

/-- Fails a command for its quota: QUOTA_EXCEEDED is sent (R468). -/
def failQuota (s : State) (h : CmdHdr) (cmd asn tier asked : Nat) (detail : Bytes) : State :=
  let s1 := if tier = 0 then sendQuota s asn 0 1 (nearUse s asn) (nearQuota s asn) asked
            else sendQuota s asn 1 1 (cellarUse s asn) (cellarQuota s asn) asked
  complete s1 h cmd .quota detail

/-! ### MEM_ALLOC, MEM_FREE -/

/-- Inserts a page in ascending order of page numbers. -/
def insertPage (l : List Page) (p : Page) : List Page :=
  match l with
  | [] => [p]
  | q :: t => if p.vpn < q.vpn then p :: q :: t else q :: insertPage t p

/-- Maps new pages, zero-filled (R454, R456, R457). -/
def mapPages (s : State) (asn v : Nat) (w : Bool) (ppns : List Nat) : State :=
  let new := ppns.mapIdx fun i p => ({ vpn := v + i, ppn := p, w := w, lost := false } : Page)
  let s1 := ppns.foldl zeroPage s
  modSpace s1 asn fun x => { x with pages := new.foldl insertPage x.pages }

/-- MEM_ALLOC once it starts: the checks of R455 in order. -/
def startAlloc (h : CmdHdr) (asn tier w n va place : Nat) (s : State) : State :=
  let fail := fun st => complete s h 0x0030 st []
  let v := va / pageBytes
  let pl := places s tier place
  if va % pageBytes ≠ 0 ∨ n = 0 ∨ 1 < tier ∨ 1 < w ∨ !placeOk s tier place then fail .formatUnsupported
  else if 2 ^ 56 < va + pageBytes * n then fail .bounds
  else if (spaceOf s asn).isNone then fail .stateIllegal
  else if !(pagesIn s asn v n).isEmpty then fail .stateIllegal
  else if (tier = 0 ∨ w = 1) ∧ nearQuota s asn < nearDue s asn + n then failQuota s h 0x0030 asn 0 n []
  else if tier = 1 ∧ cellarQuota s asn < cellarDue s asn + n then failQuota s h 0x0030 asn 1 n []
  else if freePages s tier pl < n then fail .tableFull
  else match takePages s tier pl (usedPpns s) 0 n with
    | none => fail .tableFull
    | some ppns =>
      let s1 := mapPages s asn v (w == 1) ppns
      { s1 with fills := s1.fills ++ [{ hdr := h, asn := asn }] }

/-- MEM_ALLOC (R454). -/
def execMemAlloc (h : CmdHdr) (asn tier w pages va place : Nat) (s : State) : Host.Outcome State Fault Refusal :=
  event (Instr.wf (.memAlloc h asn tier w pages va place)) s fun s =>
    submit s h (.memAlloc h asn tier w pages va place) 0x0030 0 (startAlloc h asn tier w pages va place)

/-- Every new page of the ASN's oldest MEM_ALLOC holds zeros, and it completes (R457). -/
def zeroFillDone (s : State) (asn : Nat) : State :=
  match s.fills.find? fun f => f.asn == asn with
  | none => s
  | some f => complete { s with fills := s.fills.erase f } f.hdr 0x0030 .ok []

/-- ZERO_FILL_DONE (R457). -/
def execZeroFillDone (asn : Nat) (s : State) : Host.Outcome State Fault Refusal :=
  event (Instr.wf (.zeroFillDone asn)) s fun s => zeroFillDone s asn

/-- Unmaps a range and releases its pages. -/
def unmapPages (s : State) (asn v n : Nat) : State :=
  modSpace s asn fun x => { x with pages := x.pages.filter fun p => !(decide (v ≤ p.vpn) && decide (p.vpn < v + n)) }

/-- MEM_FREE once it starts (R455, R457). -/
def startFree (h : CmdHdr) (asn n va : Nat) (s : State) : State :=
  let fail := fun st => complete s h 0x0032 st []
  let v := va / pageBytes
  if va % pageBytes ≠ 0 ∨ n = 0 then fail .formatUnsupported
  else if 2 ^ 56 < va + pageBytes * n then fail .bounds
  else if (spaceOf s asn).isNone then fail .stateIllegal
  else if (pagesIn s asn v n).length ≠ n ∨ busyIn s asn v n then fail .stateIllegal
  else if jobRunning s asn then fail .stateIllegal
  else complete (unmapPages s asn v n) h 0x0032 .ok []

/-- MEM_FREE (R454). -/
def execMemFree (h : CmdHdr) (asn pages va : Nat) (s : State) : Host.Outcome State Fault Refusal :=
  event (Instr.wf (.memFree h asn pages va)) s fun s =>
    submit s h (.memFree h asn pages va) 0x0032 0 (startFree h asn pages va)

/-! ### MEM_MIGRATE -/

/-- W after ACCESS (R454). -/
def newW (access : Nat) (w : Bool) : Bool := if access = 1 then false else if access = 2 then true else w

/-- DETAIL of MEM_MIGRATE (R638). -/
def migrateDetail (moved kept : Nat) : Bytes := record 16 [(0, 4, moved), (4, 4, kept)]

/-- A migration ends when nothing is left of it, and stops at a lost page (R458, R463). -/
def settleMigration (s : State) (m : Migration) : State :=
  match m.left with
  | [] => complete { s with migrations := s.migrations.erase m } m.hdr 0x0031 .ok (migrateDetail m.moved m.kept)
  | (v, _) :: _ => match pageOf s m.asn v with
    | some g => if g.lost then
        complete { s with migrations := s.migrations.erase m } m.hdr 0x0031 .stateIllegal (migrateDetail m.moved m.kept)
      else s
    | none => s

/-- `settleMigration` for every migration. -/
def settleMigrations (s : State) : State := s.migrations.foldl settleMigration s

/-- Where a page that MEM_MIGRATE moves goes: to the physical page taken for it, or between stacks to one it takes when its move ends
(notes/assumptions/56). -/
def goal (tier : Nat) (x : Page × Nat) : Nat × Option Nat :=
  (x.1.vpn, if tier = 0 && isNear x.1.ppn then none else some x.2)

/-- MEM_MIGRATE once it starts (R455, R458): ACCESS is applied to the whole range at once, then pages move. -/
def startMigrate (h : CmdHdr) (asn tier access n va place : Nat) (s : State) : State :=
  let fail := fun st => complete s h 0x0031 st (migrateDetail 0 0)
  let v := va / pageBytes
  let pl := places s tier place
  let ps := pagesIn s asn v n
  let move := ps.filter fun p => !inPlace tier pl p
  let nearOld := (ps.filter fun p => isNear p.ppn || p.w).length
  let nearNew := (ps.filter fun p => tier == 0 || newW access p.w).length
  let cellOld := (ps.filter fun p => !isNear p.ppn).length
  let cellNew := if tier = 1 then ps.length else 0
  if va % pageBytes ≠ 0 ∨ n = 0 ∨ 1 < tier ∨ 2 < access ∨ !placeOk s tier place then fail .formatUnsupported
  else if 2 ^ 56 < va + pageBytes * n then fail .bounds
  else if (spaceOf s asn).isNone then fail .stateIllegal
  else if ps.length ≠ n ∨ busyIn s asn v n then fail .stateIllegal
  else if ps.any (·.lost) then fail .stateIllegal
  else if access ≠ 0 ∧ jobRunning s asn then fail .stateIllegal
  else if nearOld < nearNew ∧ nearQuota s asn < nearDue s asn - nearOld + nearNew then
    failQuota s h 0x0031 asn 0 (nearNew - nearOld) (migrateDetail 0 0)
  else if cellOld < cellNew ∧ cellarQuota s asn < cellarDue s asn - cellOld + cellNew then
    failQuota s h 0x0031 asn 1 (cellNew - cellOld) (migrateDetail 0 0)
  else if freePages s tier pl < move.length then fail .tableFull
  else match takePages s tier pl (usedPpns s) 0 move.length with
    | none => fail .tableFull
    | some ppns =>
      let s1 := modSpace s asn fun x => { x with pages := x.pages.map fun p =>
        if v ≤ p.vpn ∧ p.vpn < v + n then { p with w := newW access p.w } else p }
      let m : Migration := { hdr := h, asn := asn, left := move.zip ppns |>.map (goal tier), tier := tier
                             place := place, cursor := 0, moved := 0, kept := 0 }
      settleMigration { s1 with migrations := s1.migrations ++ [m] } m

/-- MEM_MIGRATE (R454). -/
def execMemMigrate (h : CmdHdr) (asn tier access pages va place : Nat) (s : State) : Host.Outcome State Fault Refusal :=
  event (Instr.wf (.memMigrate h asn tier access pages va place)) s fun s =>
    submit s h (.memMigrate h asn tier access pages va place) 0x0031 0 (startMigrate h asn tier access pages va place)

/-- Whether a core holds a write for a page. -/
def Core.holds (k : Core) (vpn : Nat) : Bool := k.hold.any fun h => h.1 == vpn

/-- Writes held for a page may leave (R459, R461). -/
def releaseHolders (s : State) (asn vpn : Nat) : State :=
  modCtx s asn fun c => { c with cores := c.cores.map fun k => if k.holds vpn then { k with hold := none } else k }

/-- Whether a far-tier port has promotions to run, which go ahead of any MEM_MIGRATE work on it (R460). -/
def promoting (s : State) (port : Nat) : Bool :=
  s.promotions.any fun p => (pageOf s p.asn p.vpn).any fun g => !isNear g.ppn && portOf g.ppn == port

/-- Whether the move of a page to a physical page waits for promotions on a port it uses. -/
def waitsFor (s : State) (g : Page) (dst : Nat) : Bool :=
  (!isNear g.ppn && promoting s (portOf g.ppn)) || (!isNear dst && promoting s (portOf dst))

/-- One page's copy ends and the translation switches (R459); writes held for it proceed. -/
def migratePageDone (s : State) (asn : Nat) : State :=
  match s.migrations.find? fun m => m.asn == asn with
  | none => s
  | some m => match m.left with
    | [] => settleMigration s m
    | (v, _) :: t =>
      match pageOf s asn v with
      | none => s
      | some g =>
        let m1 := { m with left := t, moved := m.moved + 1 }
        let next := fun (n : Migration) (s : State) =>
          settleMigration { s with migrations := s.migrations.map fun x => if x = m then n else x } n
        if g.lost then settleMigration s m
        else if inPlace m.tier (places s m.tier m.place) g then next m1 s
        else match moveDst s m with
          | none => s
          | some d => if waitsFor s g d.1 then s
            else next { m1 with cursor := d.2 } (releaseHolders (movePage s asn g d.1) asn v)

/-! ### Promotion of a core's write -/

/-- Starts the promotion a core's write waits for (R460): to a stack of the writing die that has a free page, else
to any. A page that is near, or that a migration is moving, is not promoted: the write waits for that move's switch (R459). -/
def startPromotion (s : State) (asn vpn die : Nat) : State :=
  let busy := match pageOf s asn vpn with
    | some g => isNear g.ppn || (lifting s asn g).isSome
    | none => true
  if busy || s.promotions.any (fun p => p.asn == asn && p.vpn == vpn) then s else
    let own := takePages s 0 [3 * die, 3 * die + 1, 3 * die + 2] (usedPpns s) 0 1
    let dst := match own with
      | some (p :: _) => some p
      | _ => (takePages s 0 (List.range 12) (usedPpns s) 0 1).bind List.head?
    match dst with
    | some d => { s with promotions := s.promotions ++ [{ asn := asn, vpn := vpn, dst := d }] }
    | none => s

/-- The promotions that a port runs: the first four that wait for it (R460). -/
def running (s : State) (port : Nat) : List Promotion :=
  (s.promotions.filter fun p => (pageOf s p.asn p.vpn).any fun g => !isNear g.ppn && portOf g.ppn == port).take 4

/-- Whether a promotion is among the four its port runs; one whose page is near already has nothing to wait for. -/
def isRunning (s : State) (p : Promotion) : Bool :=
  match pageOf s p.asn p.vpn with
  | some g => isNear g.ppn || (running s (portOf g.ppn)).contains p
  | none => true

/-- Cores of an ASN's context that hold a write for a page. -/
def holders (s : State) (asn vpn : Nat) : List Nat :=
  match ctxOf s asn with
  | none => []
  | some c => positions (fun k => k.holds vpn) c.cores

/-- A promotion ends: the page is near, and the writes held for it proceed (R460, R461). -/
def promotionDone (s : State) (asn vpn : Nat) : State :=
  match s.promotions.find? fun p => p.asn == asn && p.vpn == vpn with
  | none => s
  | some p =>
    if !isRunning s p then s else
      let src := match pageOf s asn vpn with
        | some g => if isNear g.ppn then s else movePage s asn g p.dst
        | none => s
      releaseHolders { src with promotions := s.promotions.erase p } asn vpn

/-! ### Loss of a far-tier port -/

/-- Pages of a port become lost (R453). -/
def losePages (s : State) (p : Nat) : State :=
  let one := fun (g : Page) => if !isNear g.ppn && portOf g.ppn == p then { g with lost := true } else g
  { s with spaces := s.spaces.map fun x => { x with pages := x.pages.map one } }

/-- Whether a page left of a migration goes to a far-tier port. -/
def goesTo (p : Nat) (l : Nat × Option Nat) : Bool := l.2.any fun d => portOf d == p

/-- A migration down loses its port (R463): the page on its way counts as KEPT, and those left go to the other
allowed ports that are UP, or are KEPT too. -/
def rerouteDown (s : State) (p : Nat) (m : Migration) : State :=
  if m.tier = 1 ∧ m.left.any (fun l => goesTo p l) then
    let keepHead := m.left.head?.any (goesTo p)
    let rest := if keepHead then m.left.drop 1 else m.left
    let stay := rest.filter fun l => !goesTo p l
    let used := usedPpns { s with migrations := s.migrations.erase m } ++ stay.filterMap (·.2)
    let go := rest.filter (goesTo p)
    let room := go.take (freePages { s with migrations := s.migrations.erase m } 1 (places s 1 m.place) - stay.length)
    let ppns := (takePages s 1 (places s 1 m.place) used 0 room.length).getD []
    let moved := (room.map (·.1)).zip (ppns.map some)
    let order := rest.filterMap fun l => if goesTo p l then moved.find? (fun x => x.1 == l.1) else some l
    let m1 := { m with left := order, kept := m.kept + (m.left.length - order.length) }
    { s with migrations := s.migrations.map fun x => if x = m then m1 else x }
  else s

/-- Whether a page is lost. -/
def lostPage (s : State) (asn vpn : Nat) : Bool := (pageOf s asn vpn).any (·.lost)

/-- Cores whose held write is one to a lost page (R463). -/
def heldLost (c : Ctx) (s : State) : List Nat :=
  positions (fun (k : Core) => k.hold.any fun h => lostPage s c.asn h.1) c.cores

/-- What becomes of writes held for pages that are lost (R463): the access faults. A context that is CORKED is on no die, so its
core goes on to make the access, and to fault, once it is resident again (R643). -/
def faultHolder (s : State) (x : Nat × Nat) : State :=
  match ctxOf s x.1 with
  | none => s
  | some c =>
    if c.resident then dieFault s (c.dieOfCore x.2) .unmapped false (some x.1) (some x.2) (((c.cores[x.2]?).bind (·.hold)).map (·.2))
    else modCore s x.1 x.2 fun k => { k with hold := none }

/-- A far-tier port goes DOWN (R450, R453, R463): LINK_EVENT, its pages are lost, promotions and migrations that read
from it end, and a core that holds a write for a lost page faults. -/
def farPortDown (s : State) (p : Nat) : State :=
  if !farUp s p then s else
    let s1 := { s with farPorts := modAt s.farPorts p fun x => { x with state := .down } }
    let s2 := losePages (sendMsg (logFault s1 { type := 8, code := 2 }) 0x0051 [(16, 1, 2), (17, 1, p), (18, 1, 3)]) p
    let s3 := settleMigrations (s2.migrations.foldl (fun s m => rerouteDown s p m) s2)
    let s4 := { s3 with promotions := s3.promotions.filter fun q => !lostPage s3 q.asn q.vpn && (pageOf s3 q.asn q.vpn).isSome }
    (s4.ctxs.flatMap fun c => (heldLost c s4).map fun k => (c.asn, k)).foldl faultHolder s4

/-- FAR_PORT_DOWN (R453). -/
def execFarPortDown (p : Nat) (s : State) : Host.Outcome State Fault Refusal :=
  event (Instr.wf (.farPortDown p)) s fun s => farPortDown s p

/-- CXL_REQUEST_TIMEOUT: the port goes DOWN (R450). -/
def execCxlRequestTimeout (p : Nat) (s : State) : Host.Outcome State Fault Refusal :=
  event (Instr.wf (.cxlRequestTimeout p)) s fun s => farPortDown s p

/-! ### XFER -/

/-- BAR0 offset of a host window's registers. -/
def hwBase (asn w : Nat) : Nat := 0x320000 + 0x100 * asn + 0x10 * w

/-- SIZE of a host window in bytes. -/
def hwBytes (s : State) (asn w : Nat) : Nat := (getReg s (hwBase asn w + 8)).toNat * 4096

/-- Bus address of a byte of a host window. -/
def hwAddr (s : State) (asn w off : Nat) : Nat :=
  (getReg s (hwBase asn w)).toNat / 0x1000 * 0x1000 + (getReg s (hwBase asn w + 4)).toNat * 2 ^ 32 + off

/-- XFER once it starts (R637). -/
def startXfer (h : CmdHdr) (toHost : Bool) (asn w va off n : Nat) (s : State) : State :=
  let fail := fun st => complete s h 0x0033 st []
  if 15 < w ∨ va % 64 ≠ 0 ∨ off % 64 ≠ 0 ∨ n % 64 ≠ 0 then fail .formatUnsupported
  else if (spaceOf s asn).isNone ∨ hwBytes s asn w = 0 then fail .stateIllegal
  else if hwBytes s asn w < off + n then fail .bounds
  else { s with xfers := s.xfers ++ [{ id := s.nextId, hdr := h, asn := asn, toHost := toHost, window := w, va := va
                                       winOff := off, bytes := n }]
                nextId := s.nextId + 1 }

/-- XFER_TO_HOST (R637). -/
def execXferToHost (h : CmdHdr) (asn window va winOff bytes : Nat) (s : State) : Host.Outcome State Fault Refusal :=
  event (Instr.wf (.xferToHost h asn window va winOff bytes)) s fun s =>
    submit s h (.xferToHost h asn window va winOff bytes) 0x0033 0 (startXfer h true asn window va winOff bytes)

/-- XFER_FROM_HOST (R637). -/
def execXferFromHost (h : CmdHdr) (asn window va winOff bytes : Nat) (s : State) : Host.Outcome State Fault Refusal :=
  event (Instr.wf (.xferFromHost h asn window va winOff bytes)) s fun s =>
    submit s h (.xferFromHost h asn window va winOff bytes) 0x0033 0 (startXfer h false asn window va winOff bytes)

/-- The bytes a TO_HOST copy reads before the first bad page or poisoned line (R492, R637). -/
def readGood (s : State) (asn : Nat) : List (Nat × Nat × Nat) → Bytes
  | [] => []
  | (vpn, o, l) :: t =>
    match pageOf s asn vpn with
    | none => []
    | some g =>
      if g.lost then [] else
        let a := g.ppn * pageBytes + o
        match (List.range ((l + 63) / 64)).find? fun i => poisonedIn s (a + 64 * i) 64 with
        | some i => s.mem.readN a (64 * i)
        | none => s.mem.readN a l ++ readGood s asn t

/-- Sets POISON_SEEN of every port a virtual range reads poison from. -/
def seenIn (s : State) (asn va n : Nat) : State :=
  (pieces va n).foldl (fun s p => match pageOf s asn p.1 with
    | some g => poisonSeen s g.ppn p.2.1 p.2.2
    | none => s) s

/-- The part of a FROM_HOST copy that lands before the first bad page: pages that are mapped, not lost, with
W = 1. -/
def goodLen (s : State) (asn : Nat) : List (Nat × Nat × Nat) → Nat
  | [] => 0
  | (vpn, _, l) :: t => match pageOf s asn vpn with
    | some g => if g.w && !g.lost then l + goodLen s asn t else 0
    | none => 0

/-- An XFER ends (R637): the bytes read from host memory reach as far as the host answered. -/
def xferComplete (s : State) (id : Nat) (host : HostRead) : State :=
  match s.xfers.find? fun x => x.id == id with
  | none => s
  | some x =>
    let s0 := { s with xfers := s.xfers.erase x }
    let fin := fun (s : State) (n : Nat) =>
      complete s x.hdr 0x0033 (if n = x.bytes then .ok else .bounds) (record 16 [(0, 8, n)])
    if x.toHost then
      let sr := meetVirt s0 x.asn x.va x.bytes
      let b := readGood sr x.asn (pieces x.va x.bytes)
      let s1 := hubReadsVirt sr x.asn x.va b.length
      fin (if b.isEmpty then s1 else { s1 with out := s1.out ++ [.hostWrite (hwAddr s x.asn x.window x.winOff) b] }) b.length
    else
      let b := match host with
        | .data b => b
        | .failed => []
      let n := min (b.length / 64 * 64) (goodLen s0 x.asn (pieces x.va x.bytes))
      fin (agentWrite s0 x.asn x.va (b.take n)) n

/-- XFER_COMPLETE (R637). -/
def execXferComplete (id : Nat) (host : HostRead) (s : State) : Host.Outcome State Fault Refusal :=
  event (Instr.wf (.xferComplete id host)) s fun s => xferComplete s id host

/-! ### The decant engine -/

/-- The rank of a decant in the engine's order (R475): its context's class, then its place in issue order. -/
def decantBefore (s : State) (a b : Decant) : Bool :=
  let c := fun d => match ctxOf s d.asn with
    | some x => x.cls
    | none => 4
  decide (c a < c b)

/-- The decant the engine serves: lowest class, first issued (R475). -/
def nextDecant (s : State) : Option Decant :=
  s.decants.foldl (fun best d => match best with
    | none => some d
    | some b => if decantBefore s d b then some d else some b) none

/-- Bytes of the next step of a run: within one source page and one destination page (R471). -/
def runStep (w : Option Nat) (r : CopyRun) : Nat :=
  let d := pageBytes - r.dst % pageBytes
  let n := min r.bytes d
  match w with
  | some _ => n
  | none => min n (pageBytes - r.src % pageBytes)

/-- Whether a page can be written by a hub agent. -/
def agentWritable (s : State) (asn vpn : Nat) : Bool :=
  match pageOf s asn vpn with
  | some g => g.w && !g.lost
  | none => false

/-- Whether a page can be read by a hub agent. -/
def agentReadable (s : State) (asn vpn : Nat) : Bool :=
  match pageOf s asn vpn with
  | some g => !g.lost
  | none => false

/-- The destination lines a copy poisons (R452): those that receive a byte of a poisoned source line. -/
def carryPoison (s : State) (asn src dst n : Nat) : List Nat :=
  (virtPoison s asn src n).flatMap fun l =>
    let lo := max src (src / 64 * 64 + 64 * l)
    let hi := min (src + n) (src / 64 * 64 + 64 * l + 64)
    if lo < hi then [(lo - src + dst) / 64 - dst / 64, (hi - 1 - src + dst) / 64 - dst / 64] else []

/-- Copies one step of a FROM_VIRTUAL decant or a resume entry, marks included. -/
def copyVirt (s0 : State) (asn src dst n : Nat) : State :=
  let s := agentReads s0 asn src n
  let marks := carryPoison s asn src dst n
  let b := virtBytes s asn src n
  poisonVirt (agentWrite (seenIn s asn src n) asn dst b) asn (dst / 64 * 64) marks

/-- A decant whose copy is over signals its fence and ends (R473). -/
def endDecant (s : State) (d : Decant) : State :=
  addSem (pruneFences { s with decants := s.decants.erase d }) d.asn d.sem 1

/-- One page of a decant (R471): a bad page or a failed host read stops the job with BOUNDS; after the last byte the
fence is signalled. Decants pause from Dormant entry to the end of wake (R476). -/
def decantPage (s : State) (id : Nat) (host : HostRead) : State :=
  match s.decants.find? fun d => d.id == id with
  | none => s
  | some d =>
    if s.hub.boot ≠ .ready ∨ nextDecant s ≠ some d then s else
      match d.runs with
      | [] => endDecant s d
      | r :: t =>
        let n := runStep d.window r
        let stop := stopJob (pruneFences { s with decants := s.decants.erase d }) d.asn .bounds d.core d.index
        let left := if n = r.bytes then t else { r with src := r.src + n, dst := r.dst + n, bytes := r.bytes - n } :: t
        let go := fun (s : State) =>
          let d1 := { d with runs := left }
          let s1 := { s with decants := s.decants.map fun x => if x = d then d1 else x }
          if left.isEmpty then endDecant s1 d1 else s1
        if !agentWritable s d.asn (r.dst / pageBytes) then stop
        else match d.window, host with
          | some _, .data b => if b.length < n then stop else go (agentWrite s d.asn r.dst (b.take n))
          | some _, .failed => stop
          | none, _ => if agentReadable s d.asn (r.src / pageBytes) then go (copyVirt s d.asn r.src r.dst n) else stop

/-- DECANT_PAGE_DONE (R471). -/
def execDecantPageDone (id : Nat) (host : HostRead) (s : State) : Host.Outcome State Fault Refusal :=
  event (Instr.wf (.decantPageDone id host)) s fun s => decantPage s id host

/-! ### Host-link reset -/

/-- A host read of an XFER FROM_HOST in progress fails (R637, R709): nothing of it has landed. -/
def failXfer (s : State) (x : Xfer) : State :=
  complete { s with xfers := s.xfers.erase x } x.hdr 0x0033 .bounds (record 16 [(0, 8, 0)])

/-- Host reads in progress fail as completion timeouts (R709): those of XFERs FROM_HOST (R637), and that of the decant the engine
serves (R471). -/
def failHostReads (s : State) : State :=
  let s1 := (s.xfers.filter fun x => !x.toHost).foldl failXfer s
  match nextDecant s1 with
  | some d => if d.window.isSome then decantPage s1 d.id .failed else s1
  | none => s1

/-- A host-link reset (R709): queues and the message ring are disabled, the MSI-X table returns to its
reset values, host reads in progress fail, everything else goes on. -/
def hostLinkReset (s : State) : State :=
  let off := s.queues.map fun q => (q.1, { q.2 with state := QState.disabled, waiting := [] })
  let s1 := { s with
    regs := s.regs.filter fun r => !(decide (0x80000 ≤ r.1) && decide (r.1 < 0x90100))
    queues := off }
  let s2 := off.foldl (fun s q => setReg s (hqBase q.1 + 16) (getReg s (hqBase q.1 + 16) &&& 0x7FFFFFFF#32)) s1
  failHostReads (setReg s2 0x408 (getReg s2 0x408 &&& 0x7FFFFFFF#32))

/-- HOST_LINK_RESET (R709). -/
def execHostLinkReset (s : State) : Host.Outcome State Fault Refusal := event (Instr.wf .hostLinkReset) s hostLinkReset

/-! ### Quotas, windows, tier stall -/

/-- The sum of near reservations (R466). -/
def nearSum (s : State) : Nat := ((List.range 256).map (nearReserve s)).sum
/-- The sum of cellar reservations (R466). -/
def cellarSum (s : State) : Nat := ((List.range 256).map (cellarReserve s)).sum

/-- Usable near pages (R446). -/
def nearPages : Nat := 442332

/-- A lowering that leaves use above the quota sends QUOTA_EXCEEDED once (R468). -/
def lowered (s : State) (asn tier old use new : Nat) : State :=
  if new < old ∧ new < use then sendQuota s asn tier 0 use new 0 else s

/-- A write to TQ_NEAR_QUOTA_a: refused where it would make the sum of reservations exceed the usable pages, which a lowering never
does (R466, R467). -/
def nearQuotaWrite (s : State) (asn : Nat) (v : Word) : State :=
  let s1 := storeMasked s (tqBase asn) (rwMask (tqBase asn)) v
  if nearPages < nearSum s1 ∧ nearSum s < nearSum s1 then setBits s (tqBase asn + 16) 0x80000000#32
  else lowered s1 asn 0 (nearQuota s asn) (nearUse s asn) (nearQuota s1 asn)

/-- TQ_NEAR_QUOTA_WRITE (R466). -/
def execTqNearQuotaWrite (asn : Nat) (v : Word) (s : State) : Host.Outcome State Fault Refusal :=
  event (Instr.wf (.tqNearQuotaWrite asn v)) s fun s => nearQuotaWrite s asn v

/-- A write to TQ_CELLAR_QUOTA_a, likewise against the pages backed by ports that are UP; after a port has gone DOWN the sum may
stand above them, and a lowering is taken (R466, R467). -/
def cellarQuotaWrite (s : State) (asn : Nat) (v : Word) : State :=
  let s1 := storeMasked s (tqBase asn + 8) (rwMask (tqBase asn + 8)) v
  if backedPages s < cellarSum s1 ∧ cellarSum s < cellarSum s1 then setBits s (tqBase asn + 16) 0x80000000#32
  else lowered s1 asn 1 (cellarQuota s asn) (cellarUse s asn) (cellarQuota s1 asn)

/-- TQ_CELLAR_QUOTA_WRITE (R466). -/
def execTqCellarQuotaWrite (asn : Nat) (v : Word) (s : State) : Host.Outcome State Fault Refusal :=
  event (Instr.wf (.tqCellarQuotaWrite asn v)) s fun s => cellarQuotaWrite s asn v

/-- A write to a register of a host window (R485, R637): refused while a decant or an XFER uses the window. -/
def hwWrite (s : State) (asn w reg : Nat) (v : Word) : State :=
  if reg ≠ 0 ∧ reg ≠ 4 ∧ reg ≠ 8 then s
  else if (s.decants.any fun d => d.asn == asn && d.window == some w) || (s.xfers.any fun x => x.asn == asn && x.window == w) then
    setBits s (tqBase asn + 16) 0x40000000#32
  else storeMasked s (hwBase asn w + reg) (rwMask (hwBase asn w + reg)) v

/-- HW_WINDOW_WRITE (R485). -/
def execHwWindowWrite (asn window reg : Nat) (v : Word) (s : State) : Host.Outcome State Fault Refusal :=
  event (Instr.wf (.hwWindowWrite asn window reg v)) s fun s => hwWrite s asn window reg v

/-- TIER_STALL: a blocked period on a weight fence has reached its next multiple of TSTALL_MS (R478). -/
def tierStall (s : State) (asn sem : Nat) : State :=
  let period := regBits s (tqBase asn + 16) 15 0 * 1000000
  match (ctxOf s asn).bind fun c => (c.fences.find? fun f => f.sem == sem).map fun f => (c, f) with
  | none => s
  | some (c, f) =>
    if period = 0 ∨ f.ns < period * (f.sent + 1) then s else
      let first := (f.cores.headD (0, 0)).1
      let s1 := modCtx s asn fun c => { c with fences := c.fences.map fun x => if x.sem = sem then { x with sent := x.sent + 1 } else x }
      sendMsg s1 0x0030 [(16, 1, asn), (17, 1, sem), (18, 2, c.coreId first), (24, 8, f.ns)]

/-- TIER_STALL (R478). -/
def execTierStall (asn sem : Nat) (s : State) : Host.Outcome State Fault Refusal :=
  event (Instr.wf (.tierStall asn sem)) s fun s => tierStall s asn sem

end Sys2Proof.Machine
end

