-- ==== Sys2Proof/Machine/NearMem.lean ====
section
/-! DEFINITION. Machine/NearMem.lean: the near-tier controllers' own events (R490 to R502) and the writes that clear
their counters (R521, R523). -/

namespace Sys2Proof.Machine

/-- Patrol scrub comes to a line that has an error (R493). The row must be one the line can lie in, and a line that is poisoned
already has no error to find. While the controller is READY and SCRUB_EN is 1 the scrub finds the error; otherwise it stays in
the cells until an access meets it (R490, R491; DESIGN CHOICE, notes/assumptions/55). -/
def patrolScrub (s : State) (d mc chan line row : Nat) (correctable : Bool) : State :=
  let c : CellError := { line := line, row := row, fixable := correctable }
  if !lineOn d mc chan line || !rowFits row line || s.poison.contains line then s
  else if (getMc s d mc).state = .ready ∧ bit (getReg s (mcCtl d mc)).toNat 0 then
    meetCell { s with cells := s.cells.filter fun x => x.line != line } c
  else if s.cells.any (fun x => x.line == line) then s
  else { s with cells := s.cells ++ [c] }

/-- PATROL_SCRUB (R493). -/
def execPatrolScrub (die mc chan line rowWord : Nat) (correctable : Bool) (s : State) :
    Host.Outcome State Fault Refusal :=
  event (Instr.wf (.patrolScrub die mc chan line rowWord correctable)) s fun s =>
    patrolScrub s die mc chan line rowWord correctable

/-- REPAIR_EVENT of a channel, with its fault-log record. -/
def sendChan (s : State) (kind d mc chan row : Nat) : State :=
  sendRepair (logFault s { type := 7, die := d, code := kind }) kind d mc chan row

/-- One line of a row that is copied to a spare row has an error (R498): copied corrected, or copied poisoned; either is counted
(R490, R491). -/
def copyCell (d mc : Nat) (s : State) (c : CellError) : State :=
  let s1 := { s with cells := s.cells.erase c }
  if c.fixable then modMc s1 (3 * d + mc) fun m => { m with errCorr := sat32 (m.errCorr + 1) }
  else addPoison (modMc s1 (3 * d + mc) fun m => { m with errUncorr := sat32 (m.errUncorr + 1) }) [c.line]

/-- A nominated row is copied to a spare row, or its channel's table is full (R498, R499): the lines of the row that hold an error
are copied corrected or poisoned. The corrected errors of the row counted so far are those of the row it has left. -/
def rowRemap (s : State) (d mc chan row : Nat) : State :=
  let m := getMc s d mc
  if !m.nominated.contains (chan, row) then s else
    let c := m.chans.getD chan .reset
    let s1 := modMc s (3 * d + mc) fun m => { m with nominated := m.nominated.erase (chan, row) }
    if 64 ≤ c.remap.length then sendChan s1 2 d mc chan row
    else
      let s2 := (s1.cells.filter fun x => x.row == row && lineOn d mc chan x.line).foldl (copyCell d mc) s1
      sendChan (modChan s2 (3 * d + mc) chan fun c => { c with
        remap := c.remap ++ [{ row := row, fromMap := false }], corrRows := c.corrRows.filter fun r => r.1 != row }) 1 d mc chan row

/-- ROW_REMAP (R498). -/
def execRowRemap (die mc chan rowWord : Nat) (s : State) : Host.Outcome State Fault Refusal :=
  event (Instr.wf (.rowRemap die mc chan rowWord)) s fun s => rowRemap s die mc chan rowWord

/-- The context's core that a failed read belongs to, while its job runs on its clusters. -/
def caCore (s : State) (a k : Nat) : Option (Ctx × Core) :=
  match ctxOf s a, coreOf s a k with
  | some c, some x => if c.job.isSome && c.onClusters then some (c, x) else none
  | _, _ => none

/-- What a read that returned poison does to its reader (R492): a core's operand is a job fault with code 0x04, its instruction a stop
with BOUNDS, a mover writes the destination line poisoned, an uncork is a job fault with code 0x04 on the die it loads, an XFER
ends with BOUNDS. A packet or a frame carries the mark away. -/
def poisonReader (s : State) (reader : CaReader) : State :=
  match reader with
  | .core a k => match caCore s a k with
    | some (c, x) => dieFault s (c.dieOfCore k) .stateUncorrectable false (some a) (some k) (some x.pc)
    | none => s
  | .fetch a k => match caCore s a k with
    | some (_, x) => stopJob s a .bounds k x.pc
    | none => s
  | .mover dst => addPoison s [dst]
  | .uncork a => match ctxOf s a with
    | some c => if c.state = .seating ∧ c.moving = some true then
        dieFault s (c.dies.headD 0) .stateUncorrectable false (some a) none none else s
    | none => s
  | .xfer id => match s.xfers.find? fun x => x.id == id && x.toHost with
    | some x => complete { s with xfers := s.xfers.erase x } x.hdr 0x0033 .bounds (record 16 [(0, 8, 0)])
    | none => s
  | .other => s

/-- A command that still fails after its last retry (R502): a write leaves its line poisoned, a read returns poison to its
reader and leaves the line as it is (notes/assumptions/55). -/
def caFailed (s : State) (d mc : Nat) (read : Bool) (line : Nat) (reader : CaReader) : State :=
  let s1 := modMc s (3 * d + mc) fun m => { m with caExhausted := sat32 (m.caExhausted + 1) }
  if read then poisonReader s1 reader else addPoison s1 [line]

/-- A command parity error that goes away after `retries` retries (R501, R502): three retries at full rate, then the
channel is DEGRADED and the command is retried up to 15 times. -/
def caParity (s : State) (d mc chan retries : Nat) (read : Bool) (line : Nat) (reader : CaReader) : State :=
  if !lineOn d mc chan line then s else
    let was := ((getMc s d mc).chans.getD chan .reset).degraded
    let s1 := modMc s (3 * d + mc) fun m => { m with caRetry := sat32 (m.caRetry + min retries 15) }
    let s2 := if retries ≤ 3 ∨ was then s1
              else sendChan (modChan s1 (3 * d + mc) chan fun c => { c with degraded := true }) 3 d mc chan 0
    if 15 < retries then caFailed s2 d mc read line reader else s2

/-- CA_PARITY_ERROR (R501). -/
def execCaParityError (die mc chan retries : Nat) (read : Bool) (line : Nat) (reader : CaReader) (s : State) :
    Host.Outcome State Fault Refusal :=
  event (Instr.wf (.caParityError die mc chan retries read line reader)) s fun s =>
    caParity s die mc chan retries read line reader

/-- MAX_NS of a stack goes to 0 (R521). -/
def clearReadMax (s : State) (stack : Nat) : State :=
  { s with traffic := { s.traffic with reads := modAt s.traffic.reads stack fun r => { r with maxNs := 0 } } }

/-- A write to MC_C0_LAT_MAX with CLR (R521); a die window that does not answer discards it (R47). -/
def c0LatClr (s : State) (d mc : Nat) (v : Word) : State :=
  if windowOpen s d && bit v.toNat 31 then clearReadMax s (3 * d + mc) else s

/-- MC_C0_LAT_MAX_CLR (R521). -/
def execMcC0LatMaxClr (die mc : Nat) (v : Word) (s : State) : Host.Outcome State Fault Refusal :=
  event (Instr.wf (.mcC0LatMaxClr die mc v)) s fun s => c0LatClr s die mc v

/-- PEAK becomes OUTSTANDING (R523). -/
def clearPeak (s : State) (d : Nat) : State :=
  { s with traffic := { s.traffic with trk := modAt s.traffic.trk d fun t => { t with peak := outstanding s d } } }

/-- A write to TRK_STATUS with PEAK_CLR (R523). -/
def trkPeakClr (s : State) (d : Nat) (v : Word) : State :=
  if windowOpen s d && bit v.toNat 31 then clearPeak s d else s

/-- TRK_PEAK_CLR (R523). -/
def execTrkPeakClr (die : Nat) (v : Word) (s : State) : Host.Outcome State Fault Refusal :=
  event (Instr.wf (.trkPeakClr die v)) s fun s => trkPeakClr s die v

end Sys2Proof.Machine
end

