-- ==== Sys2Proof/Machine/Contexts.lean ====
section
/-! DEFINITION. Machine/Contexts.lean: the context commands (R639 to R649), semaphore aliases and host signals (R668 to
R671, R798), and mode epochs (R679 to R682). -/

namespace Sys2Proof.Machine

/-! ### Cluster sets, slots, cork areas -/

/-- The clusters of a CLUSTERS mask, bit 32 × d + c (R636). -/
def maskClusters (m : Nat) : List Nat := (List.range 128).filter (bit m)

/-- The dies a list of clusters touches. -/
def diesOf (set : List Nat) : List Nat := (List.range 4).filter fun d => set.any fun g => g / 32 == d

/-- Whether a cluster may be named by CTX_CREATE or CTX_UNCORK (R644, R733, R735): in service on an ONLINE die, at
MARGIN 0, not withheld. -/
def clusterUsable (s : State) (g : Nat) : Bool :=
  let d := g / 32
  let c := g % 32
  (clusterMap s g).active && dieIs s d .online && margin s d c == 0 && !screening s d c &&
  !((getDie s d).pending.any fun p => p.1 == c)

/-- Whether another resident class-0 context holds a cluster on a die of the set (R644). -/
def class0Clash (s : State) (asn : Nat) (set : List Nat) : Bool :=
  s.ctxs.any fun c => c.asn != asn && c.resident && c.cls == 0 && (diesOf c.set).any fun d => (diesOf set).contains d

/-- The lowest free slot of a die (R641). -/
def freeSlot (s : State) (d : Nat) : Option Nat := (List.range 64).find? fun k => (slotOwner s d k).isNone

/-- The slots a set takes, one on each die it touches. -/
def takeSlots (s : State) (set : List Nat) : List (Option Nat) :=
  (List.range 4).map fun d => if (diesOf set).contains d then freeSlot s d else none

/-- Dies of a set without a free slot, as a mask. -/
def fullDies (s : State) (set : List Nat) : Nat := dieMask ((diesOf set).filter fun d => (freeSlot s d).isNone)

/-- DETAIL with the slot taken on dies 0 to 3 (R638). -/
def slotDetail (slots : List (Option Nat)) : Bytes := slots.map fun x => BitVec.ofNat 8 (x.getD 0xFF)

/-- Takes up to `n` pages under R456. -/
def takeSome (s : State) (pl used : List Nat) (i n : Nat) : List Nat :=
  match n with
  | 0 => []
  | k + 1 => match takeFrom s 0 pl used i pl.length with
    | some (p, j) => p :: takeSome s pl (p :: used) j k
    | none => []

/-- The pages of a cork area (R645): 21 for each cluster, from the stacks of its die, else from any. -/
def corkArea (s : State) (set : List Nat) : List Nat :=
  let used := usedPpns s
  (diesOf set).foldl (fun acc d =>
    let n := 21 * (set.filter fun g => g / 32 == d).length
    let own := takeSome s [3 * d, 3 * d + 1, 3 * d + 2] (acc ++ used) 0 n
    acc ++ own ++ takeSome s (List.range 12) (own ++ acc ++ used) 0 (n - own.length)) []

/-- The lost command ends: CTX_REJECTED is sent and it completes with TABLE_FULL (R644). -/
def rejectCtx (s : State) (h : CmdHdr) (cmd asn : Nat) (set : List Nat) : State :=
  let s1 := sendMsg s 0x0020 [(16, 1, asn), (17, 1, fullDies s set), (18, 2, cmd), (20, 4, h.id)]
  complete s1 h cmd .tableFull (failDetail s cmd 0)

/-! ### CTX_CREATE -/

/-- A cluster of a new context: its pool reads 0 (notes/assumptions/4). -/
def newCluster : Cluster := { pool := [], tracks := [], taster := [] }

/-- A new context with empty state (R645). -/
def newCtx (asn cls : Nat) (cd6 : Bool) (sliceUs : Nat) (set : List Nat) : Ctx :=
  { asn := asn, cls := cls, cd6 := cd6, sliceUs := sliceUs, set := set, state := .benched
    slots := List.replicate 4 none, raised := [], toPark := [], moving := none, offClusters := false, claim := false, corkCmds := []
    expired := false, sliceNs := 0, readyNs := 0
    cores := List.replicate (16 * set.length) (Core.fresh []), clusters := List.replicate set.length newCluster
    desc := List.replicate 255 none, sems := List.replicate 256 0, aliases := [], waiters := []
    counters := List.replicate 256 0, trellis := none, armed := [], sets := [], flags := 0, job := none
    corkPages := [], resume := (0, 0), savedPrec := [], tasteSent := [], fences := [], exporting := none
    live := List.replicate 4 .zero, fresh := List.replicate 4 .zero }

/-- Writes a context's saved precision settings into the slots it takes (R641, R662): each die's own where they
were saved from that die, else those of the lowest die saved. -/
def loadPrec (s : State) (c : Ctx) : State :=
  c.dies.foldl (fun s d => match c.slots.getD d none with
    | none => s
    | some sl =>
      let own := c.savedPrec.filter fun r => r.1 == d
      let low := (c.savedPrec.head?.map (·.1)).getD d
      let use := if own.isEmpty then c.savedPrec.filter fun r => r.1 == low else own
      use.foldl (fun s r => setReg s (precBase d sl + r.2.1) r.2.2) (clearPrec s d sl)) s

/-- A context becomes resident and BENCHED on a set, taking its slots (R641). -/
def makeResident (s : State) (c : Ctx) (set : List Nat) : State :=
  let c1 := { c with set := set, state := .benched, slots := takeSlots s set, moving := none, claim := false
                     live := List.replicate 4 .zero, fresh := List.replicate 4 .zero, readyNs := 0 }
  let s1 := { s with ctxs := s.ctxs.filter (fun x => x.asn != c.asn) ++ [c1] }
  resettle (modCtx (loadPrec s1 c1) c.asn fun x => { x with savedPrec := [] })

/-- An image as a context of this ASN (R647): class, slice and set come from the command, a job in progress reports
to the command's queue, and aliases to contexts this module does not hold point at nothing. -/
def fromImage (s : State) (h : CmdHdr) (asn cls sliceUs : Nat) (i : Ctx) : Ctx :=
  { i with
    asn := asn
    cls := cls
    sliceUs := sliceUs
    raised := []
    toPark := []
    corkCmds := []
    waiters := []
    fences := []
    exporting := none
    job := i.job.map fun j => { j with hdr := { h with id := j.hdr.id }, endCmd := [] }
    aliases := i.aliases.map fun a => { a with dangling := a.dangling || (ctxOf s a.ownerAsn).isNone } }

/-- The bytes of an image of `n` clusters. -/
def imageLen (n : Nat) : Nat := n * 21 * pageBytes

/-- A context read from bytes holds its stores and pools in the form every memory of the model has. -/
def Ctx.tidy (c : Ctx) : Ctx :=
  { c with cores := c.cores.map fun k => { k with store := Mem.tidy k.store }
           clusters := c.clusters.map fun k => { k with pool := Mem.tidy k.pool } }

/-- The image at IMAGE_VA (R647): one this module exported, or one it can read. -/
def findImage (s : State) (asn va n : Nat) : Option CorkImage :=
  let b := virtBytes s asn va (imageLen n)
  match s.exported.find? fun c => c.set.length == n && slice (Config.imageBytes c) 0 (imageLen n) == b with
  | some c => some { part := ownPart, arith := 3, ctx := c }
  | none => (Config.readImage b).map fun i => { i with ctx := i.ctx.tidy }

/-- The hub's read of an image of `n` clusters (R647). -/
def readImageAt (s : State) (asn va n : Nat) : State :=
  if va = 0 || !mappedRange s asn va (imageLen n) then s else agentReads s asn va (imageLen n)

/-- What CTX_CREATE makes the context from: a new one, or the image; or the status it fails with. -/
def createFrom (s : State) (h : CmdHdr) (asn cls kind sliceUs : Nat) (set : List Nat) (imageVA : Nat) : Except Status Ctx :=
  if imageVA = 0 then .ok (newCtx asn cls (kind == 1) sliceUs set)
  else if !mappedRange s asn imageVA (imageLen set.length) then .error .bounds
  else match findImage s asn imageVA set.length with
    | none => .error .formatUnsupported
    | some i =>
      if i.part ≠ ownPart ∨ i.arith ≠ 3 then .error .stateIllegal
      else if i.ctx.set.length ≠ set.length then .error .stateIllegal
      else .ok (fromImage s h asn cls sliceUs { i.ctx with cd6 := kind == 1 })

/-- Creates the address space of an ASN if it does not exist (R639). -/
def ensureSpace (s : State) (asn : Nat) : State :=
  if (spaceOf s asn).isSome then s else { s with spaces := s.spaces ++ [{ asn := asn, pages := [] }] }

/-- CTX_CREATE once it starts: the checks of R644 in order. -/
def startCreate (h : CmdHdr) (asn cls kind sliceUs clusters imageVA resumeVA resumeCount : Nat) (s0 : State) : State :=
  let fail := fun (s : State) st => complete s h 0x0010 st (failDetail s 0x0010 0)
  let set := maskClusters clusters
  if 3 < cls ∨ 1 < kind ∨ sliceUs < 100 ∨ 1000000 < sliceUs ∨ 64 < resumeCount ∨ (kind = 0 ∧ resumeCount ≠ 0) ∨
     set.isEmpty ∨ imageVA % 64 ≠ 0 ∨ resumeVA % 64 ≠ 0 then fail s0 .formatUnsupported
  else if (ctxOf s0 asn).isSome then fail s0 .stateIllegal
  else if !set.all (clusterUsable s0) then fail s0 .stateIllegal
  else
    let s := readImageAt s0 asn imageVA set.length
    match createFrom s h asn cls kind sliceUs set imageVA with
    | .error st => fail s st
    | .ok c =>
      if cls = 0 ∧ (kind = 1 ∨ class0Clash s asn set) then fail s .stateIllegal
      else if nearQuota s asn < nearDue s asn + 21 * set.length then
        failQuota s h 0x0010 asn 0 (21 * set.length) (failDetail s 0x0010 0)
      else if fullDies s set ≠ 0 then rejectCtx s h 0x0010 asn set
      else
        let c1 := { c with corkPages := corkArea s set, resume := (resumeVA, resumeCount) }
        let s1 := makeResident (ensureSpace s asn) c1 set
        let s2 := if imageVA = 0 then s1 else c1.corkPages.foldl hubWrites s1
        complete s2 h 0x0010 .ok (slotDetail (takeSlots s set))

/-- CTX_CREATE (R644). -/
def execCtxCreate (h : CmdHdr) (asn cls kind sliceUs clusters imageVA resumeVA resumeCount : Nat) (s : State) :
    Host.Outcome State Fault Refusal :=
  event (Instr.wf (.ctxCreate h asn cls kind sliceUs clusters imageVA resumeVA resumeCount)) s fun s =>
    submit s h (.ctxCreate h asn cls kind sliceUs clusters imageVA resumeVA resumeCount) 0x0010 0
      (startCreate h asn cls kind sliceUs clusters imageVA resumeVA resumeCount)

/-! ### CTX_DESTROY, CTX_CORK, CTX_UNCORK, CTX_SET_CLASS -/

/-- CTX_DESTROY once it starts (R648). -/
def startDestroy (h : CmdHdr) (asn : Nat) (s : State) : State :=
  match ctxOf s asn with
  | none => complete s h 0x0011 .stateIllegal []
  | some c =>
    if c.job.isSome ∨ !(c.state = .benched ∨ c.state = .corked) then complete s h 0x0011 .stateIllegal []
    else complete (destroyCtx s asn) h 0x0011 .ok []

/-- CTX_DESTROY (R648). -/
def execCtxDestroy (h : CmdHdr) (asn : Nat) (s : State) : Host.Outcome State Fault Refusal :=
  event (Instr.wf (.ctxDestroy h asn)) s fun s => submit s h (.ctxDestroy h asn) 0x0011 0 (startDestroy h asn)

/-- CTX_CORK once it starts (R643): it completes when the context is CORKED. -/
def startCtxCork (h : CmdHdr) (asn : Nat) (s : State) : State :=
  match ctxOf s asn with
  | none => complete s h 0x0012 .stateIllegal []
  | some c =>
    if c.state = .corked ∨ c.state = .corking then complete s h 0x0012 .stateIllegal []
    else modCtx (startCork s asn) asn fun c => { c with corkCmds := c.corkCmds ++ [h] }

/-- CTX_CORK (R643). -/
def execCtxCork (h : CmdHdr) (asn : Nat) (s : State) : Host.Outcome State Fault Refusal :=
  event (Instr.wf (.ctxCork h asn)) s fun s => submit s h (.ctxCork h asn) 0x0012 0 (startCtxCork h asn)

/-- CTX_UNCORK once it starts (R644). -/
def startUncork (h : CmdHdr) (asn clusters : Nat) (s : State) : State :=
  let fail := fun st => complete s h 0x0013 st (failDetail s 0x0013 0)
  match ctxOf s asn with
  | none => fail .stateIllegal
  | some c =>
    let set := if clusters = 0 then c.set else maskClusters clusters
    if c.state ≠ .corked then fail .stateIllegal
    else if !set.all (clusterUsable s) then fail .stateIllegal
    else if set.length ≠ c.set.length then fail .stateIllegal
    else if c.cls = 0 ∧ class0Clash s asn set then fail .stateIllegal
    else if fullDies s set ≠ 0 then rejectCtx s h 0x0013 asn set
    else complete (makeResident (flushCtx s asn) c set) h 0x0013 .ok (slotDetail (takeSlots s set))

/-- CTX_UNCORK (R644). -/
def execCtxUncork (h : CmdHdr) (asn clusters : Nat) (s : State) : Host.Outcome State Fault Refusal :=
  event (Instr.wf (.ctxUncork h asn clusters)) s fun s =>
    submit s h (.ctxUncork h asn clusters) 0x0013 0 (startUncork h asn clusters)

/-- CTX_SET_CLASS once it starts (R649); it is no command of a CORKED context (R642). -/
def startSetClass (h : CmdHdr) (asn cls sliceUs : Nat) (s : State) : State :=
  let fail := fun st => complete s h 0x0015 st []
  if 3 < cls ∨ sliceUs < 100 ∨ 1000000 < sliceUs then fail .formatUnsupported
  else match ctxOf s asn with
    | none => fail .stateIllegal
    | some c =>
      if !c.resident ∨ (cls = 0 ∧ (c.cd6 ∨ class0Clash s asn c.set)) then fail .stateIllegal
      else complete (resettle (modCtx s asn fun c => { c with cls := cls, sliceUs := sliceUs })) h 0x0015 .ok []

/-- CTX_SET_CLASS (R649). -/
def execCtxSetClass (h : CmdHdr) (asn cls sliceUs : Nat) (s : State) : Host.Outcome State Fault Refusal :=
  event (Instr.wf (.ctxSetClass h asn cls sliceUs)) s fun s =>
    submit s h (.ctxSetClass h asn cls sliceUs) 0x0015 0 (startSetClass h asn cls sliceUs)

/-! ### CTX_EXPORT -/

/-- Whether the ASN has an open stream. -/
def hasStream (s : State) (asn : Nat) : Bool :=
  s.codecs.any fun u => u.streams.any fun t => t.any fun t => t.asn == asn

/-- Whether the ASN has a group. -/
def hasGroup (s : State) (asn : Nat) : Bool := s.groups.any fun g => g.any fun g => g.asn == asn

/-- What keeps MOVE from destroying the context (R646). -/
def moveBlocked (s : State) (asn : Nat) : Bool :=
  (s.decants.any fun d => d.asn == asn) || (s.firings.any fun f => f.asn == asn) || hasStream s asn

/-- CTX_EXPORT once it starts (R646). -/
def startExport (h : CmdHdr) (asn move va : Nat) (s : State) : State :=
  let fail := fun st => complete s h 0x0014 st []
  if 1 < move ∨ va % 64 ≠ 0 then fail .formatUnsupported
  else match ctxOf s asn with
    | none => fail .stateIllegal
    | some c =>
      if c.state ≠ .corked ∨ (move = 1 ∧ moveBlocked s asn) then fail .stateIllegal
      else if !writableRange s asn va (imageLen c.set.length) then fail .bounds
      else modCtx s asn fun c => { c with exporting := some (h, move == 1, va) }

/-- CTX_EXPORT (R646). -/
def execCtxExport (h : CmdHdr) (asn move imageVA : Nat) (s : State) : Host.Outcome State Fault Refusal :=
  event (Instr.wf (.ctxExport h asn move imageVA)) s fun s =>
    submit s h (.ctxExport h asn move imageVA) 0x0014 0 (startExport h asn move imageVA)

/-- The copy of a cork image ends (R646): with MOVE the context is destroyed without a JOB_END entry. -/
def exportDone (s : State) (asn : Nat) : State :=
  match ctxOf s asn with
  | none => s
  | some c => match c.exporting with
    | none => s
    | some (h, move, va) =>
      let img := { c with exporting := none }
      let s0 := c.corkPages.foldl (fun s p => hubReads s p pageBytes) s
      let s1 := modCtx s0 asn fun c => { c with exporting := none }
      if !writableRange s1 asn va (imageLen c.set.length) then complete s1 h 0x0014 .bounds []
      else
        let s2 := agentWrite s1 asn va (slice (Config.imageBytes img) 0 (imageLen c.set.length))
        let s3 := { s2 with exported := s2.exported ++ [img] }
        complete (if move then destroyCtx s3 asn else s3) h 0x0014 .ok []

/-- CTX_EXPORT_DONE (R646). -/
def execCtxExportDone (asn : Nat) (s : State) : Host.Outcome State Fault Refusal :=
  event (Instr.wf (.ctxExportDone asn)) s fun s => exportDone s asn

/-! ### ASN_DESTROY -/

/-- ASN_DESTROY once it starts (R648): no migration, zero-fill or XFER of the ASN is in progress then (`asnBusy`). -/
def startAsnDestroy (h : CmdHdr) (asn : Nat) (s : State) : State :=
  if (spaceOf s asn).isNone ∨ (ctxOf s asn).isSome ∨ hasStream s asn ∨ hasGroup s asn then complete s h 0x0016 .stateIllegal []
  else
    complete { s with spaces := s.spaces.filter (fun x => x.asn != asn)
                      promotions := s.promotions.filter fun p => p.asn != asn } h 0x0016 .ok []

/-- ASN_DESTROY (R648). -/
def execAsnDestroy (h : CmdHdr) (asn : Nat) (s : State) : Host.Outcome State Fault Refusal :=
  event (Instr.wf (.asnDestroy h asn)) s fun s => submit s h (.asnDestroy h asn) 0x0016 0 (startAsnDestroy h asn)

/-! ### Aliases and host signals -/

/-- SEM_ALIAS with OP SET once it starts (R668). -/
def startAliasSet (h : CmdHdr) (asn i oa oi : Nat) (s : State) : State :=
  let fail := fun st => complete s h 0x0017 st []
  if oa = asn then fail .formatUnsupported
  else match ctxOf s asn, ctxOf s oa with
    | some c, some o =>
      if c.job.isSome ∨ (o.aliases.any fun a => a.index == oi) then fail .stateIllegal
      else if 64 ≤ c.aliases.length then fail .tableFull
      else complete (modCtx s asn fun c => { c with
        aliases := (c.aliases.filter fun a => a.index != i) ++ [{ index := i, ownerAsn := oa, ownerIndex := oi, dangling := false }] })
        h 0x0017 .ok []
    | _, _ => fail .stateIllegal

/-- SEM_ALIAS_SET (R668). -/
def execSemAliasSet (h : CmdHdr) (asn index ownerAsn ownerIndex : Nat) (s : State) : Host.Outcome State Fault Refusal :=
  event (Instr.wf (.semAliasSet h asn index ownerAsn ownerIndex)) s fun s =>
    submit s h (.semAliasSet h asn index ownerAsn ownerIndex) 0x0017 0 (startAliasSet h asn index ownerAsn ownerIndex)

/-- SEM_ALIAS with OP CLEAR once it starts (R798). -/
def startAliasClear (h : CmdHdr) (asn i oa oi : Nat) (s : State) : State :=
  let fail := fun st => complete s h 0x0017 st []
  if oa ≠ 0 ∨ oi ≠ 0 then fail .formatUnsupported
  else match ctxOf s asn with
    | none => fail .stateIllegal
    | some c =>
      if c.job.isSome then fail .stateIllegal
      else complete (modCtx s asn fun c => { c with
        aliases := c.aliases.filter fun a => a.index != i
        sems := c.sems.set i 0 }) h 0x0017 .ok []

/-- SEM_ALIAS_CLEAR (R798). -/
def execSemAliasClear (h : CmdHdr) (asn index ownerAsn ownerIndex : Nat) (s : State) : Host.Outcome State Fault Refusal :=
  event (Instr.wf (.semAliasClear h asn index ownerAsn ownerIndex)) s fun s =>
    submit s h (.semAliasClear h asn index ownerAsn ownerIndex) 0x0017 0 (startAliasClear h asn index ownerAsn ownerIndex)

/-- SEM_SIGNAL once it starts (R671). -/
def startSemSignal (h : CmdHdr) (asn i n : Nat) (s : State) : State :=
  let fail := fun st => complete s h 0x0018 st []
  if n = 0 then fail .formatUnsupported
  else match ctxOf s asn with
    | none => fail .stateIllegal
    | some c => match semTarget c i with
      | none => fail .stateIllegal
      | some _ => complete (addSem s asn i n) h 0x0018 .ok []

/-- SEM_SIGNAL (R671). -/
def execSemSignal (h : CmdHdr) (asn index n : Nat) (s : State) : Host.Outcome State Fault Refusal :=
  event (Instr.wf (.semSignal h asn index n)) s fun s =>
    submit s h (.semSignal h asn index n) 0x0018 0 (startSemSignal h asn index n)

/-! ### Mode epochs -/

/-- Commits the epoch once every die has acknowledged (R680 step 3). -/
def tryCommit (s : State) : State :=
  match s.modes.pending with
  | none => s
  | some e =>
    if !e.dies.all (fun d => e.acked.contains d) then s else
      let m := s.modes
      let m1 := if e.taster then { m with tasteEn := e.value == 1, rate := e.rate } else { m with vintage := e.value == 1 }
      let take := fun (d : Nat) (x : Die) =>
        let y := { x with fnPending := false, tastePending := false }
        if e.dies.contains d || e.late.contains d then
          { y with vintage := m1.vintage, tasteEn := m1.tasteEn, tasteRate := m1.rate } else y
      let s1 := { s with
        modes := { m1 with pending := none, epoch := (m.epoch + 1) % 2 ^ 32, lastReason := 0, ackMissing := 0 }
        dies := s.dies.mapIdx take }
      complete (releaseHeld s1) e.hdr 0x0060 .ok (modeDetail s1 0 0)

/-- Whether MODE_SET's fields are in range (R636). -/
def modeFieldsOk (taster : Bool) (value rate timeout : Nat) : Bool :=
  decide (value ≤ 1) && (if taster then decide (8 ≤ rate) && decide (rate ≤ 16) else rate == 0) &&
  (timeout == 0 || (decide (10 ≤ timeout) && decide (timeout ≤ 100000)))

/-- The word of a core's present instruction. -/
def wordAt (s : State) (c : Ctx) (k : Core) : Nat :=
  match c.job with
  | none => 0
  | some j => match virtRead s c.asn (j.progVA + 16 * k.pc) 16 with
    | .ok b => leNat b
    | .error _ => 0

/-- MODE_SET once it starts (R679, R680 step 1). -/
def startModeSet (h : CmdHdr) (taster : Bool) (value rate expect timeout : Nat) (s : State) : State :=
  if !modeFieldsOk taster value rate timeout then complete s h 0x0060 .formatUnsupported (modeDetail s 0 0)
  else if expect ≠ s.modes.epoch then
    complete { s with modes := { s.modes with lastReason := 1 } } h 0x0060 .epochMismatch (modeDetail s 1 0)
  else if s.modes.pending.isSome then complete s h 0x0060 .stateIllegal (modeDetail s 0 0)
  else
    let inState := fun st => (List.range 4).filter fun d => dieIs s d st
    let e : Epoch := { hdr := h, taster := taster, value := value, rate := rate, since := s.hub.timebase
                       timeoutNs := 1000 * (if timeout = 0 then 10000 else timeout)
                       dies := inState .online ++ inState .draining, late := inState .resetting, acked := [] }
    tryCommit { s with modes := { s.modes with pending := some e } }

/-- MODE_SET_VINTAGE (R679). -/
def execModeSetVintage (h : CmdHdr) (value rateLog2 expectEpoch timeoutUs : Nat) (s : State) :
    Host.Outcome State Fault Refusal :=
  event (Instr.wf (.modeSetVintage h value rateLog2 expectEpoch timeoutUs)) s fun s =>
    submit s h (.modeSetVintage h value rateLog2 expectEpoch timeoutUs) 0x0060 0
      (startModeSet h false value rateLog2 expectEpoch timeoutUs)

/-- MODE_SET_TASTER (R679). -/
def execModeSetTaster (h : CmdHdr) (value rateLog2 expectEpoch timeoutUs : Nat) (s : State) :
    Host.Outcome State Fault Refusal :=
  event (Instr.wf (.modeSetTaster h value rateLog2 expectEpoch timeoutUs)) s fun s =>
    submit s h (.modeSetTaster h value rateLog2 expectEpoch timeoutUs) 0x0060 0
      (startModeSet h true value rateLog2 expectEpoch timeoutUs)

/-- Whether a flight is of the kind an epoch waits for (R338, R680): FUNC APPLY, or a PROD in a precision window; opcodes of
R165. -/
def Flight.heldKind (taster : Bool) (f : Flight) : Bool :=
  if taster then f.windowed else let w := f.word.toNat
                                 bits w 7 0 == 0x26 && bits w 11 8 == 0

/-- Whether die `d` has quiesced for an epoch (R680 step 2). -/
def dieQuiet (s : State) (d : Nat) (taster : Bool) : Bool :=
  s.ctxs.all fun c => !c.onClusters || (List.range c.set.length).all fun i =>
    (c.set.getD i 0) / 32 != d ||
    ((List.range 16).all (fun k => ((c.cores[16 * i + k]?).all fun x => x.flight.all fun f => !f.heldKind taster)) &&
     (!taster || ((c.clusters[i]?).all fun k => k.taster.isEmpty)))

/-- A die acknowledges the pending epoch (R680). -/
def epochAck (s : State) (d : Nat) : State :=
  match s.modes.pending with
  | none => s
  | some e =>
    if e.dies.contains d && !e.acked.contains d && dieQuiet s d e.taster then
      let s1 := { s with modes := { s.modes with pending := some { e with acked := e.acked ++ [d] } } }
      tryCommit (modDie s1 d fun x => if e.taster then { x with tastePending := true } else { x with fnPending := true })
    else s

/-- DIE_EPOCH_ACK (R680). -/
def execDieEpochAck (die : Nat) (s : State) : Host.Outcome State Fault Refusal :=
  event (Instr.wf (.dieEpochAck die)) s fun s => epochAck s die

/-- TIMEOUT_US expires (R681). -/
def epochTimeout (s : State) : State :=
  match s.modes.pending with
  | none => s
  | some e => if e.since + e.timeoutNs ≤ s.hub.timebase then epochAbort s 2 else s

/-- EPOCH_TIMEOUT (R681). -/
def execEpochTimeout (s : State) : Host.Outcome State Fault Refusal :=
  event (Instr.wf .epochTimeout) s epochTimeout

end Sys2Proof.Machine
end

