-- ==== Sys2Proof/Machine/Numerics.lean ====
section
/-! DEFINITION. Machine/Numerics.lean: number formats and their arithmetic (R101 to R116, R127 to R137): exact values,
one rounding into each format with its flags, microscaling, stochastic rounding. -/

namespace Sys2Proof.Machine

/-! ### Exact values -/

/-- The value of a float before rounding: NaN, an infinity, or (−1)^neg × m × 2^e exactly; m = 0 is a signed zero. -/
inductive XV where
  | nan
  | inf (neg : Bool)
  | fin (neg : Bool) (m : Nat) (e : Int)
  deriving DecidableEq, Repr

/-- INT_SAT (R132). -/
def flIntSat : Nat := 1
/-- FP_OVF (R132). -/
def flFpOvf : Nat := 2
/-- CONV_SAT (R132). -/
def flConvSat : Nat := 4
/-- NAN_MADE (R132). -/
def flNanMade : Nat := 8
/-- NAN_LOST (R132). -/
def flNanLost : Nat := 16

/-- +0. -/
def XV.zero : XV := .fin false 0 0
/-- 1. -/
def XV.one : XV := .fin false 1 0
/-- An integer. -/
def XV.ofInt (i : Int) : XV := .fin (decide (i < 0)) i.natAbs 0
/-- 2^e. -/
def XV.pow2 (e : Int) : XV := .fin false 1 e

/-- Whether a value is NaN. -/
def XV.isNan : XV → Bool
  | .nan => true
  | _ => false
/-- Whether a value is an infinity. -/
def XV.isInf : XV → Bool
  | .inf _ => true
  | _ => false
/-- Whether a value is a zero. -/
def XV.isZero : XV → Bool
  | .fin _ m _ => m == 0
  | _ => false
/-- The sign. -/
def XV.neg : XV → Bool
  | .nan => false
  | .inf n => n
  | .fin n _ _ => n

/-- The negated value. -/
def XV.minus : XV → XV
  | .nan => .nan
  | .inf n => .inf !n
  | .fin n m e => .fin (!n) m e
/-- The magnitude. -/
def XV.abs : XV → XV
  | .nan => .nan
  | .inf _ => .inf false
  | .fin _ m e => .fin false m e

/-- A finite value as an integer multiple of 2^e, for an exponent e at or below its own. -/
def XV.scaled (e : Int) : XV → Int
  | .fin n m k => let v : Int := m * 2 ^ (k - e).toNat
                  if n then -v else v
  | _ => 0

/-- Exact sum: an exact zero is +0 unless both addends are −0 (R107). -/
def XV.add (a b : XV) : XV :=
  match a, b with
  | .nan, _ => .nan
  | _, .nan => .nan
  | .inf x, .inf y => if x = y then .inf x else .nan
  | .inf x, _ => .inf x
  | _, .inf y => .inf y
  | .fin n1 m1 e1, .fin n2 m2 e2 =>
    let e := min e1 e2
    let v := (XV.fin n1 m1 e1).scaled e + (XV.fin n2 m2 e2).scaled e
    if v = 0 then .fin (n1 && n2) 0 0 else .fin (decide (v < 0)) v.natAbs e

/-- Exact difference. -/
def XV.sub (a b : XV) : XV := a.add b.minus

/-- Exact product (R107: a zero takes the sign of the product). -/
def XV.mul (a b : XV) : XV :=
  match a, b with
  | .nan, _ => .nan
  | _, .nan => .nan
  | .inf x, .inf y => .inf (x != y)
  | .inf x, .fin n m _ => if m = 0 then .nan else .inf (x != n)
  | .fin n m _, .inf y => if m = 0 then .nan else .inf (n != y)
  | .fin n1 m1 e1, .fin n2 m2 e2 => .fin (n1 != n2) (m1 * m2) (e1 + e2)

/-- NAN_MADE when a NaN result came from operands that are not NaN (R132). -/
def madeFrom (ins : List XV) (r : XV) : Nat := if r.isNan && !ins.any XV.isNan then flNanMade else 0

/-- Order of values that are not NaN: whether a < b. The zeros are equal. -/
def XV.lt (a b : XV) : Bool :=
  match a, b with
  | .nan, _ => false
  | _, .nan => false
  | .inf x, .inf y => x && !y
  | .inf x, _ => x
  | _, .inf y => !y
  | .fin n1 m1 e1, .fin n2 m2 e2 =>
    let e := min e1 e2
    decide ((XV.fin n1 m1 e1).scaled e < (XV.fin n2 m2 e2).scaled e)

/-- Whether two values that are not NaN are equal. -/
def XV.eq (a b : XV) : Bool := !a.isNan && !b.isNan && !a.lt b && !b.lt a

/-- The integer square root, bit by bit from bit `n - 1` down. -/
def isqrtN (n v r : Nat) : Nat :=
  match n with
  | 0 => r
  | k + 1 => let t := r + 2 ^ k
             if t * t ≤ v then isqrtN k v t else isqrtN k v r

/-- The integer square root of a number. -/
def isqrt (v : Nat) : Nat := isqrtN (v.log2 / 2 + 1) v 0

/-- Quotient of finite non-zero magnitudes to 80 bits with a sticky last bit, so that one rounding to 24 bits or fewer
is that of the exact quotient. -/
def divSticky (m1 m2 : Nat) (e : Int) (n : Bool) : XV :=
  let k := 80 + m2.log2
  let v := m1 * 2 ^ k
  .fin n (2 * (v / m2) + b2n (v % m2 != 0)) (e - k - 1)

/-- Quotient, ready for one rounding. 0 / 0 and ∞ / ∞ are NaN; x / 0 is an infinity. -/
def XV.div (a b : XV) : XV :=
  match a, b with
  | .nan, _ => .nan
  | _, .nan => .nan
  | .inf _, .inf _ => .nan
  | .inf x, .fin n _ _ => .inf (x != n)
  | .fin n _ _, .inf y => .fin (n != y) 0 0
  | .fin n1 m1 e1, .fin n2 m2 e2 =>
    if m2 = 0 then (if m1 = 0 then .nan else .inf (n1 != n2))
    else if m1 = 0 then .fin (n1 != n2) 0 0
    else divSticky m1 m2 (e1 - e2) (n1 != n2)

/-- Quotient of a result that is not a VEC division: a quotient is no sum and no product, so an exact zero is +0 (R107). -/
def XV.quot (a b : XV) : XV := if (a.div b).isZero then XV.zero else a.div b

/-- Square root, ready for one rounding: NaN below 0; the root of −0 is −0. -/
def XV.sqrt (a : XV) : XV :=
  match a with
  | .nan => .nan
  | .inf n => if n then .nan else .inf false
  | .fin n m e =>
    if m = 0 then .fin n 0 0
    else if n then .nan
    else
      let odd := (e % 2).toNat
      let v := m * 2 ^ (odd + 128)
      let r := isqrt v
      .fin false (2 * r + b2n (r * r != v)) ((e - odd) / 2 - 65)

/-- The floor of a finite value. -/
def XV.floorInt : XV → Int
  | .fin n m e =>
    let v : Int := if n then -(m : Int) else m
    if 0 ≤ e then v * 2 ^ e.toNat
    else if m.log2 < (-e).toNat then (if n && m != 0 then -1 else 0)
    else v / 2 ^ (-e).toNat
  | _ => 0

/-- One over the square root, ready for one rounding: +∞ at +0, −∞ at −0, NaN below 0. -/
def XV.rsqrt (a : XV) : XV :=
  match a with
  | .nan => .nan
  | .inf n => if n then .nan else XV.zero
  | .fin n m e =>
    if m = 0 then .inf n
    else if n then .nan
    else
      let odd := (e % 2).toNat
      let v := m * 2 ^ odd
      let t := 66 + v.log2
      let r := isqrt (2 ^ (2 * t) / v)
      .fin false (2 * r + b2n (r * r * v != 2 ^ (2 * t))) (-((e - odd) / 2) - t - 1)

/-- a + p ÷ n exactly, ready for one rounding; a sum of opposite addends is +0 (R107). -/
def XV.addQuot (a p n : XV) : XV :=
  match a, p, n with
  | .fin _ (_ + 1) _, .fin _ (_ + 1) _, .fin _ (_ + 1) _ =>
    let v := (a.mul n).add p
    if v.isZero then XV.zero else v.div n
  | _, _, _ => a.add (p.div n)

/-! ### Formats -/

/-- Element formats (R101, R181). -/
inductive Fmt where
  | fp32 | bf16 | fp16 | e4m3 | e5m2 | e2m1 | int8 | uint8 | int4
  | mxE4m3 | mxE5m2 | mxFp4 | mxInt8 | widthBlock
  deriving DecidableEq, Repr

/-- FORMAT's encoding (R181); 0x00 is an unbound slot. -/
def Fmt.ofCode (c : Nat) : Option Fmt :=
  if c = 1 then some .fp32 else if c = 2 then some .bf16 else if c = 3 then some .fp16
  else if c = 4 then some .e4m3 else if c = 5 then some .e5m2 else if c = 6 then some .e2m1
  else if c = 7 then some .int8 else if c = 8 then some .uint8 else if c = 9 then some .int4
  else if c = 0x10 then some .mxE4m3 else if c = 0x11 then some .mxE5m2 else if c = 0x12 then some .mxFp4
  else if c = 0x13 then some .mxInt8 else if c = 0x20 then some .widthBlock else none

/-- FORMAT's code. -/
def Fmt.code : Fmt → Nat
  | .fp32 => 1 | .bf16 => 2 | .fp16 => 3 | .e4m3 => 4 | .e5m2 => 5 | .e2m1 => 6 | .int8 => 7 | .uint8 => 8 | .int4 => 9
  | .mxE4m3 => 0x10 | .mxE5m2 => 0x11 | .mxFp4 => 0x12 | .mxInt8 => 0x13 | .widthBlock => 0x20

/-- Whether a format is a microscaling format. -/
def Fmt.isMx : Fmt → Bool
  | .mxE4m3 | .mxE5m2 | .mxFp4 | .mxInt8 => true
  | _ => false
/-- Whether a format is one of the plain integer formats. -/
def Fmt.isInt : Fmt → Bool
  | .int8 | .uint8 | .int4 => true
  | _ => false
/-- Whether a format is one of the plain float formats. -/
def Fmt.isFloat : Fmt → Bool
  | .fp32 | .bf16 | .fp16 | .e4m3 | .e5m2 | .e2m1 => true
  | _ => false

/-- The element type of a format: a microscaling format's elements are those of R112 f. -/
def Fmt.elem : Fmt → Fmt
  | .mxE4m3 => .e4m3 | .mxE5m2 => .e5m2 | .mxFp4 => .e2m1 | .mxInt8 => .int8 | f => f

/-- Bits of one element (R101). A width block has no element size of its own. -/
def Fmt.width : Fmt → Nat
  | .fp32 => 32 | .bf16 | .fp16 => 16 | .e2m1 | .int4 | .mxFp4 => 4 | .widthBlock => 0 | _ => 8

/-- Mantissa bits (R102). -/
def Fmt.mbits : Fmt → Nat
  | .fp32 => 23 | .bf16 => 7 | .fp16 => 10 | .e4m3 => 3 | .e5m2 => 2 | .e2m1 => 1 | _ => 0
/-- Exponent bits (R102). -/
def Fmt.ebits : Fmt → Nat
  | .fp32 => 8 | .bf16 => 8 | .fp16 => 5 | .e4m3 => 4 | .e5m2 => 5 | .e2m1 => 2 | _ => 0
/-- Exponent bias (R102). -/
def Fmt.bias : Fmt → Int
  | .fp32 => 127 | .bf16 => 127 | .fp16 => 15 | .e4m3 => 7 | .e5m2 => 15 | .e2m1 => 1 | _ => 0
/-- Largest finite pattern without its sign (R102). -/
def Fmt.maxFinite : Fmt → Nat
  | .fp32 => 0x7F7FFFFF | .bf16 => 0x7F7F | .fp16 => 0x7BFF | .e4m3 => 0x7E | .e5m2 => 0x7B | .e2m1 => 7 | _ => 0
/-- Pattern of +∞, where there is one (R102). -/
def Fmt.infPattern : Fmt → Option Nat
  | .fp32 => some 0x7F800000 | .bf16 => some 0x7F80 | .fp16 => some 0x7C00 | .e5m2 => some 0x7C | _ => none
/-- Pattern of the NaN the CD9 produces, where there is one (R106). -/
def Fmt.nanPattern : Fmt → Option Nat
  | .fp32 => some 0x7FC00000 | .bf16 => some 0x7FC0 | .fp16 => some 0x7E00 | .e4m3 => some 0x7F | .e5m2 => some 0x7E | _ => none

/-- The range of an integer format (R103). -/
def Fmt.intMin : Fmt → Int
  | .int8 => -128 | .int4 => -8 | _ => 0
/-- The upper end of an integer format (R103). -/
def Fmt.intMax : Fmt → Int
  | .int8 => 127 | .uint8 => 255 | .int4 => 7 | _ => 0

/-- The sign bit's weight. -/
def Fmt.signBit (f : Fmt) : Nat := 2 ^ (f.ebits + f.mbits)

/-- The value of a float pattern (R102). -/
def Fmt.decodeFloat (f : Fmt) (b : Nat) : XV :=
  let n := bit b (f.ebits + f.mbits)
  let e := bits b (f.ebits + f.mbits - 1) f.mbits
  let m := b % 2 ^ f.mbits
  let mag := b % f.signBit
  if f.infPattern = some mag then .inf n
  else if mag > f.maxFinite then .nan
  else if e = 0 then .fin n m (1 - f.bias - f.mbits)
  else .fin n (2 ^ f.mbits + m) (e - f.bias - f.mbits)

/-- The value of an integer pattern (R103). -/
def Fmt.decodeInt (f : Fmt) (b : Nat) : Int :=
  match f with
  | .uint8 => (b % 256 : Nat)
  | .int4 => signed 4 b
  | _ => signed 8 b

/-- The value of a plain element, or of a microscaling element before its scale (R102, R103, R114). -/
def Fmt.decode (f : Fmt) (b : Nat) : XV :=
  match f with
  | .mxInt8 => let i := signed 8 b
               .fin (decide (i < 0)) i.natAbs (-6)
  | .int8 | .uint8 | .int4 => XV.ofInt (f.decodeInt b)
  | _ => f.elem.decodeFloat b

/-- The NaN or saturated pattern with a sign. -/
def Fmt.withSign (f : Fmt) (n : Bool) (mag : Nat) : Nat := if n then f.signBit + mag else mag

/-- Rounds m × 2^e to an integer multiple of 2^q, to nearest with ties to even (R108). -/
def rne (m : Nat) (e q : Int) : Nat :=
  if q ≤ e then m * 2 ^ (e - q).toNat
  else
    let s := (q - e).toNat
    if m.log2 + 1 < s then 0 else
    let n := m / 2 ^ s
    let r := m % 2 ^ s
    let h := 2 ^ (s - 1)
    if h < r ∨ (r = h ∧ n % 2 = 1) then n + 1 else n

/-- The pattern of n × 2^q without sign, for a value already rounded to the format, in an unbounded exponent range. -/
def Fmt.pattern (f : Fmt) (n : Nat) (q : Int) : Nat :=
  let lsb : Int := 1 - f.bias - f.mbits
  if n < 2 ^ f.mbits then n
  else
    let up := n = 2 ^ (f.mbits + 1)
    let n' := if up then 2 ^ f.mbits else n
    let e := (q - lsb + 1).toNat + b2n (decide up)
    e * 2 ^ f.mbits + (n' - 2 ^ f.mbits)

/-- A finite magnitude above the format's largest finite value (R109). -/
def Fmt.overflow (f : Fmt) (n : Bool) : Nat × Nat :=
  match f with
  | .fp32 | .bf16 | .fp16 => (f.withSign n (f.infPattern.getD 0), flFpOvf)
  | _ => (f.withSign n f.maxFinite, flConvSat)

/-- Conversion of an exact value to a float format: the pattern and the flags (R108, R109). -/
def Fmt.encodeFloat (f : Fmt) (x : XV) : Nat × Nat :=
  match x with
  | .nan => match f.nanPattern with
    | some p => (p, 0)
    | none => (0, flNanLost)
  | .inf n => match f.infPattern with
    | some p => (f.withSign n p, 0)
    | none => (f.withSign n f.maxFinite, flConvSat)
  | .fin n m e =>
    if m = 0 then (f.withSign n 0, 0) else
      let lsb : Int := 1 - f.bias - f.mbits
      let q := max (e + m.log2 - f.mbits) lsb
      let p := f.pattern (rne m e q) q
      if f.maxFinite < p then f.overflow n else (f.withSign n p, 0)

/-- Conversion to an integer format: rounds, then clamps (R109, R110). -/
def Fmt.encodeInt (f : Fmt) (x : XV) : Nat × Nat :=
  match x with
  | .nan => (0, flNanLost)
  | .inf n => (unsigned f.width (if n then f.intMin else f.intMax), flConvSat)
  | .fin n m e =>
    let r : Int := rne m e 0
    let v := if n then -r else r
    if v < f.intMin then (unsigned f.width f.intMin, flConvSat)
    else if f.intMax < v then (unsigned f.width f.intMax, flConvSat)
    else (unsigned f.width v, 0)

/-- Conversion to a plain format. -/
def Fmt.encode (f : Fmt) (x : XV) : Nat × Nat := if f.isInt then f.encodeInt x else f.encodeFloat x

/-- Rounds a value into a format and reads it back: a value and the flags. -/
def Fmt.round (f : Fmt) (x : XV) : XV × Nat := let r := f.encode x; (f.decode r.1, r.2)

/-- An FP32 pattern's value. -/
def f32 (b : Nat) : XV := Fmt.fp32.decodeFloat b
/-- Rounds to FP32 (R131): the value and FP_OVF. -/
def round32 (x : XV) : XV × Nat := Fmt.fp32.round x
/-- The FP32 pattern of a value. -/
def pat32 (x : XV) : Nat := (Fmt.fp32.encodeFloat x).1

/-! ### FP32 operations with one rounding (R131): value and flags -/

/-- Rounds a result of operands, with NAN_MADE. -/
def fin32 (ins : List XV) (r : XV) : XV × Nat := let q := round32 r; (q.1, q.2 ||| madeFrom ins r)

/-- FP32 sum. -/
def add32 (a b : XV) : XV × Nat := fin32 [a, b] (a.add b)
/-- FP32 difference. -/
def sub32 (a b : XV) : XV × Nat := fin32 [a, b] (a.sub b)
/-- FP32 product. -/
def mul32 (a b : XV) : XV × Nat := fin32 [a, b] (a.mul b)
/-- FP32 quotient. -/
def div32 (a b : XV) : XV × Nat := fin32 [a, b] (a.div b)
/-- Fused a × b + c. -/
def fma32 (a b c : XV) : XV × Nat := fin32 [a, b, c] ((a.mul b).add c)
/-- FP32 square root. -/
def sqrt32 (a : XV) : XV × Nat := fin32 [a] a.sqrt

/-! ### Microscaling (R112 to R116) -/

/-- The value of an E8M0 scale; code 0xFF is NaN (R112). -/
def e8m0 (x : Nat) : XV := if x = 0xFF then .nan else .pow2 (x - 127)

/-- emax of R115. -/
def Fmt.emax : Fmt → Int
  | .mxE4m3 => 8 | .mxE5m2 => 15 | .mxFp4 => 2 | _ => 0

/-- floor(log2) of a finite non-zero value. -/
def XV.log2floor : XV → Int
  | .fin _ m e => e + m.log2
  | _ => 0

/-- Conversion of a scaled value to a microscaling element, saturating (R115). -/
def Fmt.encodeMxElem (f : Fmt) (x : XV) : Nat × Nat :=
  match f with
  | .mxInt8 => Fmt.int8.encodeInt (x.mul (.pow2 6))
  | _ => f.elem.encodeFloat x

/-- The larger magnitude. -/
def maxAbs (a b : XV) : XV := if a.abs.lt b.abs then b.abs else a.abs

/-- One block as the CD9 writes it: the scale byte, the element codes and the flags (R115, R116). -/
def Fmt.encodeBlock (f : Fmt) (vs : List XV) : Nat × List Nat × Nat :=
  if vs.any fun v => v.isNan || v.isInf then
    (0xFF, vs.map fun _ => 0, if vs.any XV.isNan then 0 else flNanMade)
  else
    let amax := vs.foldl maxAbs XV.zero
    if amax.isZero then (0, vs.map fun _ => 0, 0)
    else
      let x := amax.log2floor - f.emax
      let c := max (-127) (min 127 x)
      let es := vs.map fun v => f.encodeMxElem (v.mul (.pow2 (-c)))
      let sat := if x > 127 && es.any (fun e => bit e.2 2) then flConvSat else 0
      ((c + 127).toNat, es.map (·.1), sat)

/-! ### Stochastic rounding (R134 to R137) -/

/-- One round of Philox4×32 on a counter and a key. -/
def philoxRound (c : Nat × Nat × Nat × Nat) (k0 k1 : Nat) : Nat × Nat × Nat × Nat :=
  let (c0, c1, c2, c3) := c
  let p0 := 0xD2511F53 * c0
  let p1 := 0xCD9E8D57 * c2
  (Nat.xor (Nat.xor (p1 / 2 ^ 32) c1) k0, p1 % 2 ^ 32, Nat.xor (Nat.xor (p0 / 2 ^ 32) c3) k1, p0 % 2 ^ 32)

/-- `n` rounds, the key bumped after each. -/
def philoxN (n : Nat) (c : Nat × Nat × Nat × Nat) (k0 k1 : Nat) : Nat × Nat × Nat × Nat :=
  match n with
  | 0 => c
  | j + 1 => philoxN j (philoxRound c k0 k1) ((k0 + 0x9E3779B9) % 2 ^ 32) ((k1 + 0xBB67AE85) % 2 ^ 32)

/-- Philox4×32-10 (R136): four output words, for a 64-bit seed. -/
def philox (seed c0 c1 c2 c3 : Nat) : Nat × Nat × Nat × Nat :=
  philoxN 10 (c0 % 2 ^ 32, c1 % 2 ^ 32, c2 % 2 ^ 32, c3 % 2 ^ 32) (seed % 2 ^ 32) (seed / 2 ^ 32 % 2 ^ 32)

/-- What the counters of R136 take from the writing instruction. -/
structure SrKey where
  seed : Nat
  tag : Nat
  step : Nat
  deriving DecidableEq, Repr

/-- The random value of an element (R136). -/
def srRandom (k : SrKey) (inner outer : Nat) : Nat :=
  (philox k.seed inner outer (outer / 2 ^ 32 % 2 ^ 16 + k.tag * 2 ^ 16) k.step).1 % 2 ^ 16

/-- FP32 to BF16 with a random value (R135). -/
def srBf16 (pat r : Nat) : Nat × Nat :=
  match f32 pat with
  | .fin _ _ _ =>
    let h := pat / 2 ^ 16 + b2n (decide (2 ^ 16 ≤ pat % 2 ^ 16 + r))
    (h, if h % 2 ^ 15 = 0x7F80 then flFpOvf else 0)
  | x => Fmt.bf16.encodeFloat x

/-! ### Beats (R127 to R130) -/

/-- Product of factors: NaN where a factor is, NAN_MADE for infinity times zero (R128). -/
def mulAll (l : List XV) : XV := l.foldl XV.mul XV.one

/-- Whether a finite value lies beyond FP32's largest finite value. -/
def XV.beyond32 (x : XV) : Bool := !x.isNan && !x.isInf && (f32 0x7F7FFFFF).lt x.abs

/-- One beat of a float accumulator: the exact sum of the products and the accumulator, rounded once (R127); a sum beyond FP32's
largest finite value is an infinity, whether or not it would round to that value (R128). A NaN operand anywhere in the beat gives NaN
without a flag, also where a product of infinity and zero or opposite infinities stand beside it (DESIGN CHOICE,
notes/assumptions/59). -/
def beat (acc : XV) (prods : List (List XV)) : XV × Nat :=
  let ps := prods.map mulAll
  let v := ps.foldl XV.add acc
  if v.beyond32 then (.inf v.neg, flFpOvf) else fin32 (acc :: prods.flatten) v

/-- One beat of an integer accumulator (R129). -/
def beatInt (acc : Int) (prods : List (Int × Int)) : Int × Nat :=
  let v := prods.foldl (fun a p => a + p.1 * p.2) acc
  if v < -2147483648 then (-2147483648, flIntSat)
  else if 2147483647 < v then (2147483647, flIntSat)
  else (v, 0)

/-- Whether a value is finite. -/
def XV.finite : XV → Bool
  | .fin _ _ _ => true
  | _ => false

end Sys2Proof.Machine
end

