-- ==== Sys2Proof/Machine/Operands.lean ====
section
/-! DEFINITION. Machine/Operands.lean: tensor descriptors and how they bind (R179 to R188, R794), effective shapes and
offsets (R189 to R194), and the reads and writes of every operand form: plain, microscaling (R112 to R116), width
blocks (R117 to R124) and ZC (R366 to R372). -/

namespace Sys2Proof.Machine

/-! ### Descriptors -/

/-- A descriptor's fields (R179, R180). `dims` and `strides` have four entries, STRIDE0 being 1. -/
structure Desc where
  fmt : Fmt
  space : Nat
  rank : Nat
  zc : Bool
  wr : Bool
  zcCommon : Nat
  base : Nat
  aux : Nat
  pad : Nat
  dims : List Nat
  strides : List Nat
  auxExt : Nat
  ext : Nat
  deriving DecidableEq, Repr

/-- Reads the 64 bytes of a descriptor; nothing where FORMAT is NONE or undefined. -/
def descOf (b : Bytes) : Option Desc :=
  let w := field b 16 4
  (Fmt.ofCode (w % 256)).map fun f =>
    { fmt := f, space := bits w 11 8, rank := bits w 13 12 + 1, zc := bit w 14, wr := bit w 15, zcCommon := bits w 31 16
      base := field b 0 8, aux := field b 8 8, pad := field b 20 4
      dims := [field b 24 4, field b 28 4, field b 32 4, field b 36 4]
      strides := [1, field b 40 4, field b 44 4, field b 48 4]
      auxExt := field b 52 4, ext := field b 56 4 }

/-- Rounded-up quotient. -/
def cdiv (a b : Nat) : Nat := (a + b - 1) / b

/-- Entry `i` of a list of sizes, 1 where there is none. -/
def dim (l : List Nat) (i : Nat) : Nat := l.getD i 1

/-- Elements of a ZC line (R366). -/
def zcElems (f : Fmt) : Nat := if f.width = 32 then 14 else if f.width = 16 then 28 else if f.width = 8 then 56 else 64

/-- The sum of (DIMi − 1) × STRIDEi over the outer dimensions of the rank. -/
def outerReach (d : Desc) (dims : List Nat) : Nat :=
  ((List.range d.rank).drop 1).foldl (fun a i => a + (dim dims i - 1) * d.strides.getD i 0) 0

/-- The span of a descriptor in bytes (R185). -/
def Desc.span (d : Desc) : Nat :=
  if (List.range d.rank).any fun i => dim d.dims i == 0 then 0
  else if d.fmt = .widthBlock then 0
  else if d.zc then 64 * (cdiv (dim d.dims 0) (zcElems d.fmt) + outerReach d d.dims)
  else cdiv ((1 + (dim d.dims 0 - 1) + outerReach d d.dims) * d.fmt.width) 8

/-- Entries of a width-block directory (R184). -/
def Desc.dirEntries (d : Desc) : Nat := cdiv (dim d.dims 1) 64 * cdiv (dim d.dims 0) 64

/-- Where the scale array of a width-block tensor starts, from AUX_BASE (R184). -/
def Desc.wbScales (d : Desc) : Nat := 64 * cdiv (8 * d.dirEntries) 64

/-- The span of the AUX region (R184). -/
def Desc.auxSpan (d : Desc) : Nat :=
  if d.fmt.isMx then
    cdiv (dim d.dims 0) 32 * ((List.range d.rank).drop 1).foldl (fun a i => a * dim d.dims i) 1
  else if d.fmt = .widthBlock then d.wbScales + 256 * d.dirEntries
  else 0

/-- The address range of a space (R182). -/
def spaceRange (sp : Nat) : Nat × Nat :=
  if sp = 0 then (0, 2 ^ 56) else if sp = 1 then (0, 0x180000) else (0x10000, 0x1000000)

/-- Whether a region of a size lies in a space; a region of size 0 passes (R187). -/
def inSpace (sp lo units : Nat) : Bool :=
  units == 0 || (decide ((spaceRange sp).1 ≤ lo) && decide (lo + 64 * units ≤ (spaceRange sp).2))

/-- The first two rows of R187's table: everything but BOUNDS. -/
def Desc.formOk (d : Desc) (b : Bytes) : Bool :=
  decide (d.space ≤ 2) && ((List.range 4).drop d.rank).all (fun i => dim d.dims i == 1) &&
  zeroAt b 60 4 && zeroAt b 7 1 && zeroAt b 15 1

/-- The second row of R187's table. -/
def Desc.layoutOk (d : Desc) : Bool :=
  (d.fmt != .widthBlock || d.rank == 2) && !(d.zc && (d.fmt.isMx || d.fmt == .widthBlock)) &&
  (d.fmt.width != 4 || (d.strides.drop 1).all (fun x => x % 2 == 0)) && d.base % 64 == 0 && d.aux % 64 == 0

/-- One entry of DESC_BIND: what it fails with, in the order of R187; FORMAT NONE passes (R188). -/
def bindCheck (b : Bytes) : Option Status :=
  if bits (field b 16 4) 7 0 = 0 then none
  else match descOf b with
    | none => some .formatUnsupported
    | some d =>
      if !d.formOk b || !d.layoutOk then some .formatUnsupported
      else if 64 * d.ext < d.span then some .bounds
      else if 64 * d.auxExt < d.auxSpan then some .bounds
      else if !inSpace d.space d.base d.ext || !inSpace d.space d.aux d.auxExt then some .bounds
      else none

/-- The entry as the table keeps it. -/
def bindEntry (b : Bytes) : Option Bytes := if bits (field b 16 4) 7 0 = 0 then none else some b

/-- DESC_BIND once it starts: the command checks of R794, every entry under R187, then all slots at once (R186). -/
def startDescBind (h : CmdHdr) (asn first count va : Nat) (s : State) : State :=
  let fail := fun (s : State) (st : Status) (slot : Nat) => complete s h 0x0022 st (record 16 [(0, 1, slot)])
  if count = 0 ∨ 255 < count ∨ 254 < first + count - 1 ∨ va % 64 ≠ 0 then fail s .formatUnsupported first
  else match ctxOf s asn with
    | none => fail s .stateIllegal first
    | some c =>
      if c.job.isSome then fail s .stateIllegal first
      else readThen s asn va (64 * count) fun s r => match r with
        | .error _ => fail s .bounds first
        | .ok b =>
          let es := (List.range count).map fun i => slice b (64 * i) 64
          match (List.range count).find? fun i => (bindCheck (es.getD i [])).isSome with
          | some i => fail s ((bindCheck (es.getD i [])).getD .bounds) (first + i)
          | none => complete (modCtx s asn fun c => { c with
              desc := c.desc.mapIdx fun i x => if first ≤ i ∧ i < first + count then bindEntry (es.getD (i - first) []) else x })
              h 0x0022 .ok []

/-- DESC_BIND (R186). -/
def execDescBind (h : CmdHdr) (asn first count srcVA : Nat) (s : State) : Host.Outcome State Fault Refusal :=
  event (Instr.wf (.descBind h asn first count srcVA)) s fun s =>
    submit s h (.descBind h asn first count srcVA) 0x0022 first (startDescBind h asn first count srcVA)

/-! ### What stops an instruction -/

/-- Why an instruction does not run: a clean stop (R210), a job fault (R213), a poisoned line it consumed (R492), a
write held for a promotion (R461), or a condition of issue that does not hold yet. -/
inductive Halt where
  | stop (st : Status)
  | fault (code : FaultCode)
  | poison (va n : Nat)
  | hold (vpn : Nat)
  | wait
  deriving DecidableEq, Repr

/-- A clean stop with FORMAT_UNSUPPORTED. -/
def badFormat {α : Type} : Except Halt α := .error (.stop .formatUnsupported)

/-- Passes when the condition holds, else stops. -/
def need (p : Bool) (st : Status) : Except Halt Unit := if p then .ok () else .error (.stop st)

/-- The state, context, core number and core an instruction runs in, and its job; for one that starts, what its flight holds from its
issue: its number, the parameter block, the first ordinal of its count, and whether its engines were idle. -/
structure Env where
  s : State
  c : Ctx
  core : Nat
  k : Core
  j : Job
  id : Nat := 0
  par : Bytes := []
  since : Nat := 0
  fill : Bool := false
  deriving DecidableEq, Repr

/-- The cluster of the core. -/
def Env.cluster (e : Env) : Cluster := e.c.clusters.getD (e.core / 16) newCluster
/-- The die of the core. -/
def Env.die (e : Env) : Nat := e.c.dieOfCore e.core

/-- Bytes of a store: VIRTUAL through translation, CORE and POOL directly. A core's access to an unmapped or lost page
is the job fault UNMAPPED (R194, R453). -/
def rdBytes (e : Env) (sp a n : Nat) : Except Halt Bytes :=
  if sp = 0 then match virtRead e.s e.c.asn a n with
    | .ok b => .ok b
    | .error .poison => .error (.poison a n)
    | .error _ => .error (.fault .unmapped)
  else if sp = 1 then .ok (e.k.store.readN a n)
  else .ok (e.cluster.pool.readN a n)

/-! ### Operands -/

/-- An operand as an instruction uses it: its descriptor, its effective shape and its run-time element offset. -/
structure Opnd where
  d : Desc
  dims : List Nat
  off : Nat
  deriving DecidableEq, Repr

/-- The slot's descriptor: STATE_ILLEGAL for an unbound slot or 0xFF (R210). -/
def slotDesc (e : Env) (slot : Nat) : Except Halt Desc :=
  match (e.c.desc.getD slot none).bind descOf with
  | some d => .ok d
  | none => .error (.stop .stateIllegal)

/-- The descriptor of an optional operand: 0xFF names none (R166). -/
def slotOpt (e : Env) (slot : Nat) : Except Halt (Option Desc) :=
  if slot = 0xFF then .ok none else (slotDesc e slot).map some

/-- The planned buffer of a descriptor, and its AUX region (R159). -/
def Desc.bufs (d : Desc) (writes : Bool) : List Buf :=
  [{ space := d.space, lo := d.base, hi := d.base + 64 * d.ext, writes := writes }] ++
  (if d.auxExt = 0 then [] else [{ space := d.space, lo := d.aux, hi := d.aux + 64 * d.auxExt, writes := writes, aux := true }])

/-- Whether two planned buffers [BASE, BASE + EXTENT × 64) share bytes of one space (R159). -/
def Buf.overlaps (a b : Buf) : Bool :=
  !a.aux && !b.aux && a.space == b.space && decide (a.lo < b.hi) && decide (b.lo < a.hi) && decide (a.lo < a.hi) && decide (b.lo < b.hi)

/-- Whether the planned main buffers of two descriptors overlap (R227). -/
def Desc.overlaps (a b : Desc) : Bool := (a.bufs true).any fun x => (b.bufs true).any fun y => x.overlaps y

/-- Dense strides of an MX operand with an offset (R190): those of the dimensions it has; a stride at or above RANK takes part in no
address and carries no condition (DESIGN CHOICE, notes/assumptions/57). -/
def Desc.mxDense (d : Desc) : Bool :=
  d.rank < 2 || (d.strides.getD 1 0 == 32 * cdiv (dim d.dims 0) 32 &&
    ((List.range d.rank).drop 2).all fun i => d.strides.getD i 0 == d.strides.getD (i - 1) 0 * dim d.dims (i - 1))

/-- Whether a run-time offset is allowed (R189, R190). -/
def Desc.offOk (d : Desc) (x : Nat) : Bool :=
  x == 0 || (if d.zc then true
             else if d.fmt = .widthBlock then
               let n := dim d.dims 0
               n != 0 && (x / n) % 64 == 0 && (x % n) % 64 == 0
             else if d.fmt.isMx then x % 32 == 0 && d.mxDense
             else d.fmt.width != 4 || x % 2 == 0)

/-- An operand with its bound shape. -/
def Desc.opnd (d : Desc) (off : Nat) : Opnd := { d := d, dims := d.dims, off := off }

/-- An offset operand, or FORMAT_UNSUPPORTED (R190). -/
def Desc.at (d : Desc) (dims : List Nat) (x : Nat) : Except Halt Opnd :=
  if d.offOk x then .ok { d := d, dims := dims, off := x } else badFormat

/-- Size of dimension `i` of an operand. -/
def Opnd.n (o : Opnd) (i : Nat) : Nat := dim o.dims i

/-- Element offset of an index tuple, without the innermost. -/
def Opnd.outerLin (o : Opnd) (ix : List Nat) : Nat :=
  ((List.range o.d.rank).drop 1).foldl (fun a i => a + ix.getD i 0 * o.d.strides.getD i 0) 0

/-- Row-major index over the outer dimensions of the bound shape (R184). -/
def Opnd.outerRow (o : Opnd) (ix : List Nat) : Nat :=
  ((List.range o.d.rank).drop 1).foldr (fun i a => a * dim o.d.dims i + ix.getD i 0) 0

/-- Whether [a, a + n) lies in the planned main buffer (R192). -/
def Desc.inMain (d : Desc) (a n : Nat) : Bool := decide (d.base ≤ a) && decide (a + n ≤ d.base + 64 * d.ext)
/-- Whether [a, a + n) lies in the planned AUX region (R192). -/
def Desc.inAux (d : Desc) (a n : Nat) : Bool := decide (d.aux ≤ a) && decide (a + n ≤ d.aux + 64 * d.auxExt)

/-- A checked read of the main array. -/
def rdMain (e : Env) (d : Desc) (a n : Nat) : Except Halt Bytes :=
  if d.inMain a n then rdBytes e d.space a n else .error (.fault .boundsRuntime)
/-- A checked read of the AUX region. -/
def rdAux (e : Env) (d : Desc) (a n : Nat) : Except Halt Bytes :=
  if d.inAux a n then rdBytes e d.space a n else .error (.fault .boundsRuntime)

/-- Bit address of an element of a plain or MX operand. -/
def Opnd.bitAddr (o : Opnd) (ix : List Nat) : Nat :=
  8 * o.d.base + o.d.fmt.width * (o.off + ix.getD 0 0 + o.outerLin ix)

/-- Address of the scale byte of an element's block (R113, R184). -/
def Opnd.scaleAddr (o : Opnd) (ix : List Nat) : Nat :=
  o.d.aux + o.off / 32 + o.outerRow ix * cdiv (dim o.d.dims 0) 32 + ix.getD 0 0 / 32

/-- Address of an element's ZC line (R366). -/
def Opnd.zcLine (o : Opnd) (ix : List Nat) : Nat :=
  o.d.base + 64 * (o.off + ix.getD 0 0 / zcElems o.d.fmt + o.outerLin ix)

/-- The common pattern of a ZC tensor (R368). -/
def Desc.common (d : Desc) : Nat := if d.fmt.width = 32 then d.zcCommon * 2 ^ 16 else d.zcCommon % 2 ^ d.fmt.width

/-- Stored pattern `j` of a ZC line. -/
def zcStored (w : Nat) (line : Bytes) (j : Nat) : Nat := bits (field line (8 + w * j / 8) 4) (w * j % 8 + w - 1) (w * j % 8)

/-- The number of mask bits set below position `i`. -/
def ones (mask i : Nat) : Nat := ((List.range i).filter (bit mask)).length

/-- Whether a ZC line that holds `n` elements of its row is well formed (R370). -/
def zcOk (d : Desc) (line : Bytes) (n : Nat) : Bool :=
  let mask := field line 0 8
  mask / 2 ^ n == 0 && (List.range (ones mask n)).all fun j => zcStored d.fmt.width line j != d.common

/-- The pattern of an element of a ZC operand. -/
def zcRead (e : Env) (o : Opnd) (ix : List Nat) : Except Halt Nat := do
  let n := zcElems o.d.fmt
  let i0 := ix.getD 0 0
  let line ← rdMain e o.d (o.zcLine ix) 64
  let row := max (o.n 0) (dim o.d.dims 0)
  if !zcOk o.d line (min n (row - i0 / n * n)) then .error (.fault .malformedOperand)
  else
    let mask := field line 0 8
    .ok (if bit mask (i0 % n) then zcStored o.d.fmt.width line (ones mask (i0 % n)) else o.d.common)

/-- The stored pattern of an element: plain, MX (without its scale) or ZC. -/
def rdPattern (e : Env) (o : Opnd) (ix : List Nat) : Except Halt Nat :=
  if o.d.zc then zcRead e o ix
  else do
    let a := o.bitAddr ix
    let b ← rdMain e o.d (a / 8) (cdiv o.d.fmt.width 8)
    .ok (leNat b / 2 ^ (a % 8) % 2 ^ o.d.fmt.width)

/-- Width-block coordinates of an element (row k, column n): directory index, row and column in the block (R117, R190). -/
def Opnd.wbPlace (o : Opnd) (k n : Nat) : Nat × Nat × Nat :=
  let nd := dim o.d.dims 0
  let kk := o.off / nd + k
  let nn := o.off % nd + n
  (kk / 64 * cdiv nd 64 + nn / 64, kk % 64, nn % 64)

/-- Reads and checks a width-block directory entry (R118, R124): the element width and the payload address. -/
def wbEntry (e : Env) (o : Opnd) (ent : Nat) : Except Halt (Nat × Nat) := do
  let b ← rdAux e o.d (o.d.aux + 8 * ent) 8
  let w := leNat b
  if 7 < bits w 3 0 ∨ bits w 7 4 ≠ 0 ∨ bits w 63 48 ≠ 0 then .error (.fault .malformedOperand)
  else .ok (bits w 3 0 + 1, o.d.base + 64 * bits w 47 8)

/-- The value of a width-block code (R119). -/
def wbValue (w code : Nat) : XV := if w = 1 then (if code = 1 then XV.one else XV.one.minus) else XV.ofInt (signed w code)

/-- An element of a width-block operand and its scale (R120, R121). -/
def wbRead (e : Env) (o : Opnd) (k n : Nat) : Except Halt (XV × XV) := do
  let (ent, kr, nc) := o.wbPlace k n
  let (w, pay) ← wbEntry e o ent
  let b := w * (nc * 64 + kr)
  let v ← rdMain e o.d (pay + b / 8) (if b % 8 + w ≤ 8 then 1 else 2)
  let sc ← rdAux e o.d (o.d.aux + o.d.wbScales + 256 * ent + 2 * (2 * nc + kr / 32)) 2
  .ok (wbValue w (leNat v / 2 ^ (b % 8) % 2 ^ w), Fmt.bf16.decodeFloat (leNat sc))

/-- An element's value and its scale (R114, R121); the scale of a plain element is 1. -/
def rdElem (e : Env) (o : Opnd) (ix : List Nat) : Except Halt (XV × XV) :=
  if o.d.fmt = .widthBlock then wbRead e o (ix.getD 1 0) (ix.getD 0 0)
  else do
    let p ← rdPattern e o ix
    if o.d.fmt.isMx then
      let sc ← rdAux e o.d (o.scaleAddr ix) 1
      .ok (o.d.fmt.decode p, e8m0 (leNat sc))
    else .ok (o.d.fmt.decode p, XV.one)

/-- An element's value, its scale applied. -/
def rdVal (e : Env) (o : Opnd) (ix : List Nat) : Except Halt XV := do
  let (v, sc) ← rdElem e o ix
  .ok (v.mul sc)

/-- An integer element. -/
def rdInt (e : Env) (o : Opnd) (ix : List Nat) : Except Halt Int := do
  let p ← rdPattern e o ix
  .ok (o.d.fmt.decodeInt p)

/-- PAD_VALUE as the unit uses it (R183): in the element format for plain formats, FP32 for MX and width blocks. -/
def Desc.padValue (d : Desc) : XV :=
  if d.fmt.isInt then (d.fmt.round (XV.ofInt (signed 32 d.pad))).1
  else if d.fmt.isMx || d.fmt == .widthBlock then f32 d.pad
  else (d.fmt.round (f32 d.pad)).1

/-! ### Writes -/

/-- One write of an instruction: `w` bits of value `v` at a bit address of a store; `over` marks a position behind the end of a row
that lies on an element of another row (R116). -/
structure EW where
  space : Nat
  addr : Nat
  w : Nat
  v : Nat
  overlaid : Bool := false
  deriving DecidableEq, Repr

/-- A run of bytes to write. -/
structure Run where
  space : Nat
  addr : Nat
  data : Bytes
  deriving DecidableEq, Repr

/-- The byte a store holds now, without any check. -/
def rawByte (e : Env) (sp a : Nat) : Byte :=
  if sp = 0 then (virtBytes e.s e.c.asn a 1).headD 0#8 else if sp = 1 then e.k.store.read a else e.cluster.pool.read a

/-- Appends bytes to the last run where they follow it. -/
def addRun (rs : List Run) (sp a : Nat) (b : Bytes) : List Run :=
  match rs with
  | r :: t => if r.space = sp ∧ a = r.addr + r.data.length then { r with data := r.data ++ b } :: t
              else { space := sp, addr := a, data := b } :: r :: t
  | [] => [{ space := sp, addr := a, data := b }]

/-- The byte at an address as the runs so far leave it. -/
def runByte (e : Env) (rs : List Run) (sp a : Nat) : Byte :=
  match rs.find? fun r => r.space == sp && decide (r.addr ≤ a) && decide (a < r.addr + r.data.length) with
  | some r => r.data.getD (a - r.addr) 0#8
  | none => rawByte e sp a

/-- Replaces the last byte of the newest run. -/
def setLast (rs : List Run) (b : Byte) : List Run :=
  match rs with
  | r :: t => { r with data := r.data.dropLast ++ [b] } :: t
  | [] => []

/-- Joins one write to the runs, newest first; 4-bit elements merge into their byte (R104). -/
def joinEW (e : Env) (rs : List Run) (x : EW) : List Run :=
  let a := x.addr / 8
  if x.w = 4 then
    let old := (runByte e rs x.space a).toNat
    let new := BitVec.ofNat 8 (if x.addr % 8 = 0 then old / 16 * 16 + x.v % 16 else old % 16 + x.v % 16 * 16)
    match rs with
    | r :: _ => if r.space = x.space ∧ a + 1 = r.addr + r.data.length then setLast rs new else addRun rs x.space a [new]
    | [] => addRun rs x.space a [new]
  else addRun rs x.space a (leBytes (x.w / 8) x.v)

/-- The writes of an instruction as runs of bytes, in order. -/
def runsOf (e : Env) (ws : List EW) : List Run := (ws.foldl (joinEW e) []).reverse

/-- The pages of VIRTUAL runs, in order. -/
def runPages (rs : List Run) : List Nat :=
  rs.flatMap fun r => if r.space = 0 then (pieces r.addr r.data.length).map (·.1) else []

/-- What keeps VIRTUAL runs from being written: a page that is unmapped, lost or read-only is UNMAPPED (R194, R443,
R453), one in the cellar is promoted first (R461), a write to one moving between stacks is held until it has moved (R459). -/
def checkPages (e : Env) (vpns : List Nat) : Except Halt Unit :=
  match vpns with
  | [] => .ok ()
  | v :: t => match pageOf e.s e.c.asn v with
    | none => .error (.fault .unmapped)
    | some g =>
      if g.lost || !g.w then .error (.fault .unmapped)
      else if isNear g.ppn && (lifting e.s e.c.asn g).isNone then checkPages e t
      else match checkPages e t with
        | .error (.fault f) => .error (.fault f)
        | _ => .error (.hold v)

/-- Writes one run. -/
def putRun (asn core : Nat) (s : State) (r : Run) : State :=
  if r.space = 0 then virtWrite s asn r.addr r.data
  else if r.space = 1 then modCore s asn core fun k => { k with store := k.store.writeN r.addr r.data }
  else modCtx s asn fun c => { c with clusters := modAt c.clusters (core / 16) fun q => { q with pool := q.pool.writeN r.addr r.data } }

/-- Writes the runs in order. -/
def putRuns (s : State) (asn core : Nat) (rs : List Run) : State := rs.foldl (putRun asn core) s

/-- A checked write of one element of a plain or MX main array (R192). -/
def wrPattern (o : Opnd) (ix : List Nat) (v : Nat) : Except Halt (List EW) :=
  let a := o.bitAddr ix
  if o.d.inMain (a / 8) (cdiv o.d.fmt.width 8) then .ok [{ space := o.d.space, addr := a, w := o.d.fmt.width, v := v }]
  else .error (.fault .boundsRuntime)

/-- Concatenates the results of a list of checked actions, in order. -/
def collect {α β : Type} (l : List α) (f : α → Except Halt (List β)) : Except Halt (List β) :=
  match l with
  | [] => .ok []
  | x :: t => do
    let a ← f x
    let b ← collect t f
    .ok (a ++ b)

/-- Maps a checked action over a list, in order. -/
def each {α β : Type} (l : List α) (f : α → Except Halt β) : Except Halt (List β) :=
  match l with
  | [] => .ok []
  | x :: t => do
    let a ← f x
    let b ← each t f
    .ok (a :: b)

/-- Folds a checked action over a list. -/
def foldE {α β : Type} (l : List α) (b : β) (f : β → α → Except Halt β) : Except Halt β :=
  match l with
  | [] => .ok b
  | x :: t => do
    let c ← f b x
    foldE t c f

/-- Values packed into nibbles or bytes from byte 8 of a ZC line (R367). -/
def zcPack (w : Nat) (vs : List Nat) : Bytes :=
  let n := vs.foldr (fun v a => a * 2 ^ w + v % 2 ^ w) 0
  leBytes (cdiv (vs.length * w) 8) n

/-- The bytes of a ZC line as a writer writes them: bytes 0 to 31, and 32 to 63 only where they are needed (R369). The
bytes of a written half behind the last stored value are 0 (DESIGN CHOICE, notes/assumptions/84). -/
def zcLineBytes (d : Desc) (ps : List Nat) : Bytes :=
  let st := ps.filter fun p => p != d.common
  let mask := ps.foldr (fun p a => 2 * a + b2n (p != d.common)) 0
  let b := leBytes 8 mask ++ zcPack d.fmt.width st
  if b.length ≤ 32 then slice b 0 32 else slice b 0 64

/-- The lists of at most `n` consecutive entries of a list; `fuel` bounds their number. -/
def partsN {α : Type} (fuel n : Nat) (l : List α) : List (List α) :=
  match fuel with
  | 0 => []
  | k + 1 => if l.isEmpty then [] else l.take n :: partsN k n (l.drop n)

/-- The consecutive parts of a list of `n` entries each, the last one shorter. -/
def parts {α : Type} (n : Nat) (l : List α) : List (List α) := partsN l.length n l

/-- The writes of one row of patterns through a plain or ZC descriptor. -/
def wrRowPatterns (o : Opnd) (outer : List Nat) (ps : List Nat) : Except Halt (List EW) :=
  if o.d.zc then
    let n := zcElems o.d.fmt
    let cs := parts n ps
    collect (List.range cs.length) fun i =>
      let a := o.zcLine ((i * n) :: outer)
      if o.d.inMain a 64 then .ok ((zcLineBytes o.d (cs.getD i [])).mapIdx fun j b =>
        { space := o.d.space, addr := 8 * (a + j), w := 8, v := b.toNat })
      else .error (.fault .boundsRuntime)
  else collect (List.range ps.length) fun i => wrPattern o (i :: outer) (ps.getD i 0)

/-- The element offset of a row from the descriptor's first element. -/
def Desc.rowOffset (d : Desc) (outer : List Nat) : Nat :=
  ((List.range outer.length).map fun i => outer.getD i 0 * d.strides.getD (i + 1) 0).foldl (· + ·) 0

/-- Whether a position of a row lies on an element of another row, of its own or another plane of DIM2 and DIM3, where STRIDE1 is
below 32 × ⌈DIM0 / 32⌉ (R116): in each plane the last row that begins at or before the position, and the one before it, are the ones
that can hold it. -/
def Opnd.onOther (o : Opnd) (outer : List Nat) (q : Nat) : Bool :=
  let n := dim o.d.dims 0
  let st := o.d.strides.getD 1 0
  let own := q + o.d.rowOffset outer
  decide (2 ≤ o.d.rank) && decide (st < 32 * cdiv n 32) &&
  (List.range (dim o.d.dims 3)).any fun v => (List.range (dim o.d.dims 2)).any fun p =>
    let base := o.d.rowOffset [0, p, v]
    let last := if st = 0 then dim o.d.dims 1 - 1 else min (dim o.d.dims 1 - 1) ((own - base) / st)
    decide (base ≤ own) && [last, last - 1].any fun r =>
      [r, p, v].take outer.length != outer && decide (o.d.rowOffset [r, p, v] ≤ own) && decide (own < o.d.rowOffset [r, p, v] + n)

/-- The writes of one MX block: its scale byte, its codes, and zeros behind the end of the row where they lie in the
planned buffer (R115, R116). -/
def wrBlock (o : Opnd) (outer : List Nat) (i0 sc : Nat) (codes : List Nat) : Except Halt (List EW) := do
  let a := o.scaleAddr (i0 :: outer)
  if !o.d.inAux a 1 then .error (.fault .boundsRuntime)
  else
    let es ← collect (List.range codes.length) fun i => wrPattern o ((i0 + i) :: outer) (codes.getD i 0)
    let pad := ((List.range 32).drop codes.length).flatMap fun i =>
      match wrPattern o ((i0 + i) :: outer) 0 with
      | .ok w => w.map fun x => { x with overlaid := o.onOther outer (i0 + i) }
      | .error _ => []
    .ok ({ space := o.d.space, addr := 8 * a, w := 8, v := sc } :: es ++ pad)

/-- Whether a write goes where another one marks an element of another row as overlapped. -/
def EW.loose (ws : List EW) (x : EW) : Bool := ws.any fun y => y.overlaid && y.space == x.space && y.addr == x.addr

/-- The content of elements that a row's padding overlaps is not defined (R116): each write there is a free value (notes/assumptions/6,
notes/assumptions/58). -/
def freePads (n : Nat) (ws : List EW) : List EW :=
  if ws.all fun x => !x.overlaid then ws
  else ws.mapIdx fun i x => if x.loose ws then { x with v := (Config.freeWord (n + i)).toNat % 2 ^ x.w } else x

/-- The free values that `freePads` draws. -/
def padsDrawn (ws : List EW) : Nat := if ws.all fun x => !x.overlaid then 0 else ws.length

/-- The writes of one row of values from column `j0` on, converted once each (R108), and the flags. -/
def wrRowFrom (o : Opnd) (j0 : Nat) (outer : List Nat) (vs : List XV) : Except Halt (List EW × Nat) := do
  let cs := parts 32 vs
  let bs := cs.map o.d.fmt.encodeBlock
  let ws ← collect (List.range cs.length) fun i =>
    let b := bs.getD i (0, [], 0)
    wrBlock o outer (j0 + 32 * i) b.1 b.2.1
  .ok (ws, bs.foldl (fun f b => f ||| b.2.2) 0)

/-- The writes of one row of values, converted once each (R108), and the flags. -/
def wrRow (o : Opnd) (outer : List Nat) (vs : List XV) : Except Halt (List EW × Nat) :=
  if o.d.fmt.isMx then wrRowFrom o 0 outer vs
  else do
    let ps := vs.map o.d.fmt.encode
    let ws ← wrRowPatterns o outer (ps.map (·.1))
    .ok (ws, ps.foldl (fun f p => f ||| p.2) 0)

/-- The writes of one row of FP32 values rounded stochastically to BF16 (R134 to R136). -/
def wrRowSr (o : Opnd) (outer : List Nat) (k : SrKey) (outerIdx : Nat) (vs : List XV) : Except Halt (List EW × Nat) := do
  let ps := vs.mapIdx fun i v => srBf16 (pat32 v) (srRandom k i outerIdx)
  let ws ← wrRowPatterns o outer (ps.map (·.1))
  .ok (ws, ps.foldl (fun f p => f ||| p.2) 0)

/-- Every outer index tuple of a shape, in row-major order: [i1, i2, i3]. -/
def outerIdx (dims : List Nat) : List (List Nat) :=
  (List.range (dim dims 3)).flatMap fun c => (List.range (dim dims 2)).flatMap fun b =>
    (List.range (dim dims 1)).map fun a => [a, b, c]

end Sys2Proof.Machine
end

