-- ==== Sys2Proof/Machine/Tile.lean ====
section
/-! DEFINITION. Machine/Tile.lean: the sequencer of a core (R152 to R178, R195 to R208): fetch, the common header,
issue and its waits, how an instruction's effects are committed and how it stops, and the instructions the sequencer
itself executes; the hand-offs TRIG and DECANT (R204, R469 to R475). -/

namespace Sys2Proof.Machine

/-! ### Fetch and decode -/

/-- OPCODE of an instruction word (R163). -/
def opOf (w : Nat) : Nat := bits w 7 0
/-- SUBOP. -/
def subOf (w : Nat) : Nat := bits w 11 8
/-- SIG. -/
def sigOf (w : Nat) : Bool := bit w 12
/-- SERIAL. -/
def serialOf (w : Nat) : Bool := bit w 13
/-- SEM. -/
def semOf (w : Nat) : Nat := bits w 23 16
/-- The semaphore an instruction signals at completion. -/
def sigSem (w : Nat) : Option Nat := if sigOf w then some (semOf w) else none

/-- The highest SUBOP of each opcode that counts up from 0 (R165, R170, R173, R177, R301), or nothing for an opcode not
in the table. VEC's scalar form is 15. -/
def maxSub (op : Nat) : Option Nat :=
  if op = 0x01 ∨ op = 0x02 ∨ op = 0x05 ∨ op = 0x07 ∨ op = 0x08 ∨ op = 0x13 ∨ op = 0x20 ∨ op = 0x22 then some 0
  else if op = 0x03 then some 6
  else if op = 0x04 ∨ op = 0x10 ∨ op = 0x12 ∨ op = 0x26 ∨ op = 0x27 then some 1
  else if op = 0x06 ∨ op = 0x21 ∨ op = 0x23 ∨ op = 0x24 then some 2
  else if op = 0x11 then some 7
  else if op = 0x25 then some 3
  else none

/-- Whether the opcode and SUBOP are defined. -/
def subOk (w : Nat) : Bool :=
  match maxSub (opOf w) with
  | some m => decide (subOf w ≤ m) || (opOf w == 0x25 && subOf w == 15)
  | none => false

/-- The checks of R164 on the common header. -/
def headerOk (w : Nat) : Bool :=
  bits w 15 14 == 0 && bits w 31 24 == 0 && (sigOf w || semOf w == 0) && subOk w &&
  (decide (3 < opOf w) || (!sigOf w && !serialOf w))

/-- Whether a word is a FUNC RELOAD or a BLEND LOAD, which the table loader runs (R297). -/
def isLoad (w : Nat) : Bool := (opOf w == 0x26 || opOf w == 0x27) && subOf w == 1

/-- Whether every listed field [hi:lo] of a word is 0. -/
def zeros (w : Nat) (fs : List (Nat × Nat)) : Bool := fs.all fun f => bits w f.1 f.2 == 0

/-- Whether the cores of a context are on their clusters and may run (R642, R661). -/
def Ctx.seatedNow (c : Ctx) : Bool :=
  match c.state with
  | .seated | .benching | .corking => c.moving.isNone
  | _ => false

/-- Whether leaving the clusters is pending (R206). -/
def Ctx.leaving (c : Ctx) : Bool :=
  match c.state with
  | .benching | .corking => true
  | _ => false

/-- Whether a cluster's taster has no slot of its own, so that its work runs on core 15 of the cluster (R399). -/
def onCore15 (s : State) (c : Ctx) (cl : Nat) : Bool :=
  match (clusterMap s (c.set.getD cl 0)).role with
  | .repair | .failed => true
  | _ => false

/-- Whether an instruction holds its engines: until its last tile has been written (R219). A PROD that only waits for verdicts has
written it; one that stalls for a place in the taster's queue has not (R396). -/
def Flight.holds (f : Flight) : Bool := !f.engines.isEmpty && (f.verdicts == 0 || !f.sampled.isEmpty)

/-- Whether the taster of a cluster can work: on core 15 only at a boundary at which that core's engines are free (R399). -/
def canTaste (s : State) (c : Ctx) (cl : Nat) : Bool :=
  !onCore15 s c cl || (c.cores[16 * cl + 15]?).all fun k => k.flight.all fun f => f.engines.isEmpty || f.verdicts != 0

/-- Whether a core lends its time to the taster: it is core 15 of its cluster and a sampled tile waits that it can take (R399). -/
def lends (s : State) (c : Ctx) (core : Nat) : Bool :=
  core % 16 == 15 && onCore15 s c (core / 16) && !(c.clusters.getD (core / 16) newCluster).taster.isEmpty && canTaste s c (core / 16)

/-- The core an instruction row runs on: its context is on its clusters, its job runs, the core's sequencer is in the given state,
no write of it is held and no PIECE of it waits (R278, R461), and it does not lend its time to the taster (R399). -/
def envOf (s : State) (asn core : Nat) (run : CoreRun) : Option Env :=
  match ctxOf s asn with
  | none => none
  | some c => match c.job, c.cores[core]? with
    | some j, some k =>
      if c.seatedNow && k.run == run && k.hold.isNone && !k.flight.any Flight.isPiece && !lends s c core then
        some { s := s, c := c, core := core, k := k, j := j }
      else none
    | _, _ => none

/-- A read of one page by a core: it crosses the bridges on its path and, in a context of class 0, is timed at its stack (R25, R29,
R507, R525). -/
def Env.reads (e : Env) (s : State) (ppn : Nat) : State :=
  if e.c.cls = 0 then timeRead (coreReads s e.die ppn) ppn else coreReads s e.die ppn

/-- The fetch of the core's present instruction: it meets the errors in its cells (R490, R491), and is a memory transaction, which
takes a tracker entry for its time (R509, R523). -/
def Env.fetched (e : Env) : Env :=
  let va := e.j.progVA + 16 * e.k.pc
  let s1 := eachPiece e.c.asn va 16 (fun s ppn _ => e.reads s ppn) (meetVirt e.s e.c.asn va 16)
  let n := min 1 (trackerRoom s1 e.die (e.c.cls == 0))
  let peak := fun (t : Tracker) => { t with peak := max t.peak (outstanding s1 e.die + n) }
  { e with s := { s1 with traffic := { s1.traffic with trk := modAt s1.traffic.trk e.die peak } } }

/-- The core an instruction row runs on, its instruction fetched. -/
def rowEnv (s : State) (asn core : Nat) : Option Env := (envOf s asn core .running).map Env.fetched

/-- Fetches the core's next instruction (R152, R156): what memory holds when the core comes to it, and again when a WAIT or a DECANT
goes on, though the sequencer may have fetched it before an image changed (R155; DESIGN CHOICE, notes/assumptions/60). -/
def fetchWord (e : Env) : Except Halt Nat :=
  if 65536 ≤ e.k.pc ∨ e.j.len ≤ e.k.pc then .error (.stop .bounds)
  else match virtRead e.s e.c.asn (e.j.progVA + 16 * e.k.pc) 16 with
    | .ok b => .ok (leNat b)
    | .error _ => .error (.stop .bounds)

/-! ### Stopping at an instruction -/

/-- The effect of a halt: a clean stop, a job fault on the core's die, or a write held for the move of its page (R459, R461). -/
def haltCore (e : Env) (h : Halt) : State :=
  match h with
  | .stop st => stopJob e.s e.c.asn st e.core e.k.pc
  | .fault f => dieFault e.s e.die f false (some e.c.asn) (some e.core) (some e.k.pc)
  | .poison va n =>
    dieFault (seenIn e.s e.c.asn va n) e.die .stateUncorrectable false (some e.c.asn) (some e.core) (some e.k.pc)
  | .hold v => modCore (startPromotion e.s e.c.asn v e.die) e.c.asn e.core fun k => { k with hold := some (v, e.k.pc) }
  | .wait => e.s

/-- One instruction row: the core fetches; a word that cannot be decoded stops the job, a word of another row leaves the
state as it is, and a word of this row runs. -/
def tileRow (s : State) (asn core : Nat) (mine : Nat → Bool) (body : Env → Nat → State) : State :=
  match rowEnv s asn core with
  | none => s
  | some e => match fetchWord e with
    | .error h => haltCore e h
    | .ok w =>
      if !headerOk w then haltCore e (.stop .formatUnsupported)
      else if mine w then body e w else s

/-- Rows named by an opcode and a SUBOP. -/
def isRow (op sub w : Nat) : Bool := opOf w == op && subOf w == sub

/-! ### Scalar registers and issue waits -/

/-- Reads X[i] of the core. -/
def Env.x (e : Env) (i : Nat) : Word := e.k.xr i
/-- Reads X[i] as an unsigned number. -/
def Env.xn (e : Env) (i : Nat) : Nat := (e.k.xr i).toNat

/-- A size a register overrides, where its selector is not 0 (R166). -/
def Env.orReg (e : Env) (sel dflt : Nat) : Nat := if sel = 0 then dflt else e.xn sel

/-- What an instruction touches, known at decode: planned buffers, registers read and written. -/
structure Prep where
  bufs : List Buf
  reads : List Nat
  writes : List Nat
  deriving DecidableEq, Repr

/-- Whether an earlier instruction in flight holds the instruction back: 64 in flight (R157), overlapping planned buffers
(R159), registers (R160), SERIAL (R161). -/
def mustWait (k : Core) (w : Nat) (p : Prep) : Bool :=
  decide (64 ≤ k.flight.length) ||
  (serialOf w && !k.flight.isEmpty) ||
  k.flight.any (fun f =>
    (f.bufs.any fun a => p.bufs.any fun b => a.overlaps b && (a.writes || b.writes)) ||
    f.regs.any fun r => p.reads.contains r || p.writes.contains r)

/-- The selectors of a word that name a register. -/
def sels (l : List Nat) : List Nat := l.filter fun r => r != 0

/-- What an instruction reads once, at issue: the parameter block of an ATTN (R257), the escalation records as a windowed PROD leaves
them (R392), and the first ordinal its count reaches back to. -/
structure Issued where
  par : Bytes := []
  windowed : Bool := false
  esc : Option (List EscRecord) := none
  since : Nat := 0

/-- What an instruction does once it starts. `adds` marks the operations that never write a line whole (R492, R512), `shadow` is the
bank a RELOAD has read, with its table; `free` counts the free values the instruction leaves. -/
structure Plan where
  ews : List EW := []
  adds : Bool := false
  flags : Nat := 0
  regs : List (Nat × Word) := []
  shadow : Option (Nat × TableBank) := none
  blend : Option (Nat × BlendSlot) := none
  casOk : Option Bool := none
  beats : Acct := .zero
  taster : List TasterTile := []
  verdicts : Nat := 0
  wait : FlightWait := .none
  free : Nat := 0

/-- The longest doorbell-to-first-issue time of the ASN's class-0 launches (R675, R677), at the job's first issue of
instruction 0. -/
def noteFirst (e : Env) : State :=
  if e.j.issued || e.k.pc != 0 then e.s
  else modCtx e.s e.c.asn fun c =>
    let c1 := { c with job := c.job.map fun j => { j with issued := true } }
    if c.cls = 0 then c1.countLow { Acct.zero with c0First := sat32 (e.s.hub.timebase - e.j.launchTb) } else c1

/-- The units of a core that instructions use one at a time (R297, R298, R365). -/
inductive ExecUnit where
  | vector | function | fold | pooling | loader
  deriving DecidableEq, Repr

/-- The unit of an instruction word, if it uses one; ATTN holds the fold unit (R298). -/
def unitOf (w : Nat) : Option ExecUnit :=
  match opOf w with
  | 0x25 => some .vector
  | 0x26 | 0x27 => if isLoad w then some .loader else some .function
  | 0x24 | 0x21 => some .fold
  | 0x23 => some .pooling
  | _ => none

/-- Whether an instruction needs the core's engines (R219): PROD, ATTN or CONV. -/
def onEngines (w : Nat) : Bool := opOf w == 0x20 || opOf w == 0x21 || opOf w == 0x22

/-- Whether an instruction runs on one engine: PROD with GANG 0b11. -/
def oneEngine (w : Nat) : Bool := opOf w == 0x20 && bits w 65 64 == 3

/-- The word of a flight. -/
def Flight.w (f : Flight) : Nat := f.word.toNat

/-- The lowest-numbered free engine beside flights that came before. -/
def freeEngine (before : List Flight) : Option Nat :=
  (List.range 16).find? fun n => before.all fun f => !f.holds || !f.engines.contains n

/-- Whether the engines let an instruction start (R219): never ahead of an earlier one that waits for them, on one free engine or on
all 16. -/
def enginesReady (before : List Flight) (f : Flight) : Bool :=
  !onEngines f.w ||
  ((before.all fun g => g.started || !onEngines g.w) &&
   if oneEngine f.w then (freeEngine before).isSome else before.all fun g => !g.holds)

/-- A sequencer instruction that has executed: the core's next state, its SIG. -/
def seqDone (e : Env) (w : Nat) (f : Core → Core) : State :=
  let s1 := modCore (noteFirst e) e.c.asn e.core f
  match sigSem w with
  | some i => addSem s1 e.c.asn i 1
  | none => s1

/-- A sequencer instruction: reserved fields, the registers it reads and writes, then its effect. `drain` is set where
every earlier instruction must have completed. -/
def seqRow (s : State) (asn core : Nat) (mine : Nat → Bool) (resv : List (Nat × Nat)) (drain : Bool)
    (regs : Nat → List Nat × List Nat) (body : Env → Nat → State) : State :=
  tileRow s asn core mine fun e w =>
    if !zeros w resv then haltCore e (.stop .formatUnsupported)
    else if mustWait e.k w { bufs := [], reads := sels (regs w).1, writes := sels (regs w).2 } then s
    else if drain && !e.k.flight.isEmpty then s
    else body e w

/-- No registers. -/
def noRegs (_ : Nat) : List Nat × List Nat := ([], [])

/-- The core goes on at the next instruction. -/
def Core.next (k : Core) : Core := { k with pc := k.pc + 1 }

/-- The core goes on at a target, or the job stops with BOUNDS where it lies beyond the program (R178). -/
def jump (e : Env) (w : Nat) (t : Nat) (f : Core → Core) : State :=
  if e.j.len ≤ t then haltCore e (.stop .bounds) else seqDone e w fun k => { f k with pc := t }

/-! ### END, LOOP, BRANCH, the scalar form of VEC -/

/-- Records that a core is parked (R669). -/
def notePark (s : State) (asn core : Nat) : State := modCtx s asn fun c => c.notePark core

/-- END (R154): the core is done and its stint timer stops (R207). -/
def endProg (s : State) (asn core : Nat) : State :=
  seqRow s asn core (isRow 0x01 0) [(127, 32)] false noRegs fun e w =>
    notePark (seqDone e w fun k => { k with run := .ended }) asn core

/-- END (R154). -/
def execEndProg (asn core : Nat) (s : State) : Host.Outcome State Fault Refusal :=
  event (Instr.wf (.endProg asn core)) s fun s => endProg s asn core

/-- LOOP (R176). -/
def loop (s : State) (asn core : Nat) : State :=
  seqRow s asn core (isRow 0x02 0) [(63, 56), (127, 112)] false
    (fun w => ([bits w 35 32, bits w 39 36], [bits w 35 32])) fun e w =>
      let xc := bits w 35 32
      let step := BitVec.ofInt 32 (signed 16 (bits w 55 40))
      let v := e.x xc + step
      let k1 := e.k.setX xc v
      let lim := k1.xr (bits w 39 36) + BitVec.ofNat 32 (bits w 95 64)
      if (k1.xr xc).toInt < lim.toInt then jump e w (bits w 111 96) fun k => k.setX xc v
      else seqDone e w fun k => (k.setX xc v).next

/-- LOOP (R176). -/
def execLoop (asn core : Nat) (s : State) : Host.Outcome State Fault Refusal :=
  event (Instr.wf (.loop asn core)) s fun s => loop s asn core

/-- The condition of BRANCH (R177). -/
def branchTaken (e : Env) (w : Nat) : Bool :=
  let a := e.x (bits w 35 32)
  let b := e.x (bits w 39 36) + BitVec.ofNat 32 (bits w 95 64)
  match subOf w with
  | 0 => true
  | 1 => a == b
  | 2 => a != b
  | 3 => decide (a.toInt < b.toInt)
  | 4 => decide (b.toInt ≤ a.toInt)
  | 5 => e.k.casOk == some true
  | _ => e.k.casOk != some true

/-- Whether a word is a BRANCH of any condition. -/
def isBranch (w : Nat) : Bool := opOf w == 0x03

/-- BRANCH (R177): with a compare-and-swap condition it waits for the most recent CAS (R160). -/
def branch (s : State) (asn core : Nat) : State :=
  seqRow s asn core isBranch [(63, 40), (127, 112)] false
    (fun w => ([bits w 35 32, bits w 39 36], [])) fun e w =>
      if 5 ≤ subOf w && e.k.flight.any (·.cas) then s
      else if branchTaken e w then jump e w (bits w 111 96) id
      else seqDone e w Core.next

/-- BRANCH (R177). -/
def execBranch (asn core : Nat) (s : State) : Host.Outcome State Fault Refusal :=
  event (Instr.wf (.branch asn core)) s fun s => branch s asn core

/-- The scalar operations (R175). -/
def scalarOp (op : Nat) (a b : Word) : Word :=
  match op with
  | 0 => a + b
  | 1 => a - b
  | 2 => a * b
  | 3 => if a.toInt ≤ b.toInt then a else b
  | 4 => if a.toInt ≤ b.toInt then b else a
  | 5 => a <<< (b.toNat % 32)
  | 6 => a >>> (b.toNat % 32)
  | 7 => a &&& b
  | 8 => a ||| b
  | _ => a ^^^ b

/-- VEC with SUBOP 15 (R175). -/
def vecScalar (s : State) (asn core : Nat) : State :=
  seqRow s asn core (isRow 0x25 15) [(63, 48), (127, 96)] false
    (fun w => ([bits w 39 36, bits w 43 40], [bits w 35 32])) fun e w =>
      if 9 < bits w 47 44 then haltCore e (.stop .formatUnsupported)
      else
        let v := scalarOp (bits w 47 44) (e.x (bits w 39 36)) (e.x (bits w 43 40) + BitVec.ofNat 32 (bits w 95 64))
        seqDone e w fun k => (k.setX (bits w 35 32) v).next

/-- VEC_SCALAR (R175). -/
def execVecScalar (asn core : Nat) (s : State) : Host.Outcome State Fault Refusal :=
  event (Instr.wf (.vecScalar asn core)) s fun s => vecScalar s asn core

/-! ### WAIT, SIGNAL, FENCE, STINT -/

/-- A core joins the blocked period of a weight fence (R478). -/
def joinFence (s : State) (asn sem core : Nat) : State :=
  if !weightFence s asn sem then s else
    modCtx s asn fun c =>
      if c.fences.any (fun f => f.sem == sem) then
        { c with fences := c.fences.map fun f => if f.sem = sem then { f with cores := f.cores ++ [(core, 0)] } else f }
      else { c with fences := c.fences ++ [{ sem := sem, ns := 0, sent := 0, cores := [(core, 0)] }] }

/-- A core leaves every blocked period of its context. -/
def leaveFences (s : State) (asn core : Nat) : State :=
  modCtx s asn fun c => { c with fences := c.fences.filterMap fun f =>
    let l := f.cores.filter fun x => x.1 != core
    if l.isEmpty then none else some { f with cores := l } }

/-- The class a wait on an alias lends to an owner that is not on its clusters (R669); for a CORKED owner it takes
effect when the owner is next resident. -/
def lend (s : State) (asn core owner : Nat) : State :=
  match ctxOf s asn with
  | none => s
  | some c =>
    if owner = asn then s else
      modCtx s owner fun o =>
        let off := match o.state with
          | .benched | .benching | .corked => true
          | _ => false
        if off && decide (c.effClass < o.effClass) then { o with raised := o.raised ++ [(asn, core, c.effClass)] } else o

/-- A core blocks in WAIT: behind the waiters that came before it (R200). -/
def block (e : Env) (sem n : Nat) (consume : Bool) (oa oi : Nat) : State :=
  let asn := e.c.asn
  let s1 := modCtx (noteFirst e) oa fun o => { o with
    waiters := o.waiters ++ [{ sem := oi, asn := asn, core := e.core, n := n, consume := consume }] }
  let s2 := modCore s1 asn e.core fun k => { k with run := .waiting sem n consume }
  notePark (joinFence (lend s2 asn e.core oa) asn sem e.core) asn e.core

/-- WAIT (R199, R200): what it consumes is taken with the test, before its own SIG adds. -/
def waitRow (s : State) (asn core sub : Nat) (consume : Bool) : State :=
  seqRow s asn core (isRow 0x04 sub) [(47, 40), (127, 64)] false noRegs fun e w =>
    let sem := bits w 39 32
    let n := bits w 63 48
    match semTarget e.c sem with
    | none => haltCore e (.stop .stateIllegal)
    | some (oa, oi) =>
      let queue := (ctxOf e.s oa).any fun o => o.waiters.any fun x => x.sem == oi
      if n = 0 then seqDone e w Core.next
      else if !queue && decide (n ≤ semCount e.s asn sem) then
        seqDone (if consume then { e with s := takeSem e.s asn sem n } else e) w Core.next
      else block e sem n consume oa oi

/-- WAIT_CONSUME (R199). -/
def execWaitConsume (asn core : Nat) (s : State) : Host.Outcome State Fault Refusal :=
  event (Instr.wf (.waitConsume asn core)) s fun s => waitRow s asn core 0 true

/-- WAIT_PEEK (R199). -/
def execWaitPeek (asn core : Nat) (s : State) : Host.Outcome State Fault Refusal :=
  event (Instr.wf (.waitPeek asn core)) s fun s => waitRow s asn core 1 false

/-- The first waiter on a semaphore is served once its count is reached (R199, R200): it consumes, its core goes on, and
a class it lent returns (R669). -/
def waitSatisfied (s : State) (asn sem : Nat) : State :=
  match (ctxOf s asn).bind fun o => (o.waiters.find? fun x => x.sem == sem).map fun x => (o, x) with
  | none => s
  | some (o, x) => match ctxOf s x.asn, coreOf s x.asn x.core with
    | some c, some k =>
      if o.sems.getD sem 0 < x.n || !c.seatedNow then s else
        let w := wordAt s c k
        let s1 := modCtx s asn fun o => { o with
          waiters := o.waiters.erase x
          raised := o.raised.filter fun r => !(r.1 == x.asn && r.2.1 == x.core)
          sems := if x.consume then modAt o.sems sem fun v => v - x.n else o.sems }
        let s2 := leaveFences s1 x.asn x.core
        let s3 := modCore s2 x.asn x.core fun k => { k with run := .running, pc := k.pc + 1 }
        match sigSem w with
        | some i => addSem s3 x.asn i 1
        | none => s3
    | _, _ => s

/-- WAIT_SATISFIED (R199). -/
def execWaitSatisfied (asn sem : Nat) (s : State) : Host.Outcome State Fault Refusal :=
  event (Instr.wf (.waitSatisfied asn sem)) s fun s => waitSatisfied s asn sem

/-- SIGNAL (R197): after every earlier instruction of the core. -/
def signal (s : State) (asn core : Nat) : State :=
  seqRow s asn core (isRow 0x05 0) [(47, 40), (127, 64)] true noRegs fun e w =>
    let sem := bits w 39 32
    match semTarget e.c sem with
    | none => haltCore e (.stop .stateIllegal)
    | some _ => addSem (seqDone e w Core.next) asn sem (bits w 63 48)

/-- SIGNAL (R197). -/
def execSignal (asn core : Nat) (s : State) : Host.Outcome State Fault Refusal :=
  event (Instr.wf (.signal asn core)) s fun s => signal s asn core

/-- Whether a word is a FENCE of any scope. -/
def isFence (w : Nat) : Bool := opOf w == 0x06

/-- FENCE (R203): every earlier instruction has completed, which in this model makes its writes visible at every scope. -/
def fence (s : State) (asn core : Nat) : State :=
  seqRow s asn core isFence [(127, 32)] true noRegs fun e w => seqDone e w Core.next

/-- FENCE (R203). -/
def execFence (asn core : Nat) (s : State) : Host.Outcome State Fault Refusal :=
  event (Instr.wf (.fence asn core)) s fun s => fence s asn core

/-- STINT (R206, R207): the stint timer restarts; with pre-emption pending the core parks. -/
def stint (s : State) (asn core : Nat) : State :=
  seqRow s asn core (isRow 0x08 0) [(127, 32)] true noRegs fun e w =>
    if e.c.leaving then notePark (seqDone e w fun k => { k.next with stintNs := 0, run := .parked }) asn core
    else seqDone e w fun k => { k.next with stintNs := 0 }

/-- STINT (R206). -/
def execStint (asn core : Nat) (s : State) : Host.Outcome State Fault Refusal :=
  event (Instr.wf (.stint asn core)) s fun s => stint s asn core

/-! ### TRIG, DECANT -/

/-- TRIG (R204, R544). -/
def trig (s : State) (asn core : Nat) : State :=
  seqRow s asn core (isRow 0x07 0) [(127, 64)] true noRegs fun e w =>
    if 256 ≤ bits w 47 32 then haltCore e (.stop .bounds)
    else addCounter (seqDone e w Core.next) asn (bits w 47 32) (bits w 63 48)

/-- TRIG (R204). -/
def execTrig (asn core : Nat) (s : State) : Host.Outcome State Fault Refusal :=
  event (Instr.wf (.trig asn core)) s fun s => trig s asn core

/-- Byte offset an element offset makes in the main array and in the AUX region (R189, R190). -/
def Desc.byteOff (d : Desc) (x : Nat) : Nat × Nat :=
  if d.zc then (64 * x, 0) else if d.fmt.isMx then (x * d.fmt.width / 8, x / 32) else (x * d.fmt.width / 8, 0)

/-- Bytes DECANT copies of the main region: the span, or the whole planned payload of a width block (R469). -/
def Desc.decantMain (d : Desc) : Nat := if d.fmt = .widthBlock then 64 * d.ext else d.span

/-- Whether an offset is one DECANT takes (R189, R190, R469). -/
def Desc.decantOff (d : Desc) (x : Nat) : Bool := x == 0 || (d.fmt != .widthBlock && d.offOk x)

/-- The same tensor in two descriptors (R470). -/
def Desc.sameShape (a b : Desc) : Bool :=
  a.fmt == b.fmt && a.rank == b.rank && a.zc == b.zc && a.dims == b.dims && a.strides == b.strides

/-- Whether a copied range stays within its planned region. -/
def Desc.decantFits (d : Desc) (x n : Nat) : Bool :=
  decide ((d.byteOff x).1 + n ≤ 64 * d.ext) && decide ((d.byteOff x).2 + d.auxSpan ≤ 64 * d.auxExt)

/-- Puts a run before those with a higher destination. -/
def insRun (l : List CopyRun) (r : CopyRun) : List CopyRun :=
  l.filter (fun x => decide (x.dst ≤ r.dst)) ++ [r] ++ l.filter fun x => decide (r.dst < x.dst)

/-- The runs of a DECANT that are not empty, in ascending order of the addresses written (R475; DEDUCED, notes/assumptions/76). -/
def someRuns (l : List CopyRun) : List CopyRun := (l.filter fun r => r.bytes != 0).foldl insRun []

/-- The checks of R470 and the runs of a DECANT FROM_VIRTUAL. -/
def decantVirtual (e : Env) (w : Nat) : Except Halt (List CopyRun) := do
  let a ← slotDesc e (bits w 39 32)
  let b ← slotDesc e (bits w 47 40)
  let xs := e.xn (bits w 51 48)
  let xd := e.xn (bits w 55 52)
  need (a.space == 0 && b.space == 0 && a.sameShape b) .formatUnsupported
  need b.wr .stateIllegal
  need (a.decantOff xs && b.decantOff xd) .formatUnsupported
  need (a.decantFits xs a.decantMain && b.decantFits xd a.decantMain) .bounds
  need (!a.overlaps b) .bounds
  .ok (someRuns
    [{ src := a.base + (a.byteOff xs).1, dst := b.base + (b.byteOff xd).1, bytes := a.decantMain },
     { src := a.aux + (a.byteOff xs).2, dst := b.aux + (b.byteOff xd).2, bytes := a.auxSpan }])

/-- The checks of R470 and the runs of a DECANT FROM_HOST, sources being offsets in the window. -/
def decantHost (e : Env) (w : Nat) : Except Halt (List CopyRun) := do
  let win := bits w 39 32
  let b ← slotDesc e (bits w 47 40)
  let xs := e.xn (bits w 51 48)
  let xd := e.xn (bits w 55 52)
  let auxAt := 64 * cdiv (64 * xs + b.decantMain) 64
  let stop := if b.auxSpan = 0 then 64 * xs + b.decantMain else auxAt + b.auxSpan
  need (b.space == 0 && decide (win ≤ 15)) .formatUnsupported
  need b.wr .stateIllegal
  need (b.decantOff xd && (b.fmt != .widthBlock || xs == 0)) .formatUnsupported
  need (hwBytes e.s e.c.asn win != 0) .stateIllegal
  need (decide (stop ≤ hwBytes e.s e.c.asn win)) .bounds
  need (b.decantFits xd b.decantMain) .bounds
  .ok (someRuns
    [{ src := 64 * xs, dst := b.base + (b.byteOff xd).1, bytes := b.decantMain },
     { src := auxAt, dst := b.aux + (b.byteOff xd).2, bytes := b.auxSpan }])

/-- The planned buffers of a DECANT. -/
def decantBufs (e : Env) (w : Nat) : List Buf :=
  let get := fun sl => match slotDesc e sl with
    | .ok d => some d
    | .error _ => none
  ((if subOf w = 0 then get (bits w 39 32) else none).map (·.bufs false)).getD [] ++
  ((get (bits w 47 40)).map (·.bufs true)).getD []

/-- Cores blocked on a semaphore, under whatever name, when a decant makes it a weight fence join its blocked period, in the order in
which they blocked (R196, R202, R478). -/
def fenceWaiters (s : State) (asn sem : Nat) : State :=
  match fenceKey s asn sem with
  | none => s
  | some (oa, oi) =>
    let held := fun (x : Waiter) => (ctxOf s x.asn).any fun c => c.fences.any fun f => f.cores.any fun y => y.1 == x.core
    ((((ctxOf s oa).map (·.waiters)).getD []).filter fun x => x.sem == oi && !held x).foldl (fun s x =>
      match coreOf s x.asn x.core with
      | some k => match k.run with
        | .waiting i _ _ => joinFence s x.asn i x.core
        | _ => s
      | none => s) s

/-- The hub accepts a DECANT (R158, R475): it joins the engine's queue and the core goes on. -/
def acceptDecant (e : Env) (w : Nat) (runs : List CopyRun) : State :=
  let d : Decant := { id := e.s.nextId, asn := e.c.asn, core := e.core, index := e.k.pc, sem := semOf w
                      window := if subOf w = 1 then some (bits w 39 32) else none, runs := runs
                      into := runs.map fun r => (r.dst, r.bytes) }
  let s1 := modCore (noteFirst e) e.c.asn e.core fun k => { k.next with run := .running }
  fenceWaiters { s1 with decants := s1.decants ++ [d], nextId := s1.nextId + 1 } e.c.asn d.sem

/-- A DECANT at issue in state `s`: its checks, then it is accepted or waits while the ASN has 8 in progress (R475). -/
def decantBody (s : State) (e : Env) (w : Nat) : State :=
  if !sigOf w || !zeros w [(127, 56)] then haltCore e (.stop .formatUnsupported)
  else if mustWait e.k w { bufs := decantBufs e w, reads := sels [bits w 51 48, bits w 55 52], writes := [] } then s
  else match (if subOf w = 0 then decantVirtual e w else decantHost e w) with
    | .error h => haltCore e h
    | .ok runs =>
      if 8 ≤ (e.s.decants.filter fun d => d.asn == e.c.asn).length then
        modCore (noteFirst e) e.c.asn e.core fun k => { k with run := .decantWait }
      else acceptDecant e w runs

/-- DECANT_FROM_VIRTUAL (R469). -/
def execDecantFromVirtual (asn core : Nat) (s : State) : Host.Outcome State Fault Refusal :=
  event (Instr.wf (.decantFromVirtual asn core)) s fun s => tileRow s asn core (isRow 0x12 0) (decantBody s)

/-- DECANT_FROM_HOST (R469). -/
def execDecantFromHost (asn core : Nat) (s : State) : Host.Outcome State Fault Refusal :=
  event (Instr.wf (.decantFromHost asn core)) s fun s => tileRow s asn core (isRow 0x12 1) (decantBody s)

/-- A DECANT that waited is accepted once fewer than 8 are in progress (R475). -/
def decantAccepted (s : State) (asn core : Nat) : State :=
  match envOf s asn core .decantWait with
  | none => s
  | some e =>
    if 8 ≤ (s.decants.filter fun d => d.asn == asn).length then s else
      match fetchWord e.fetched with
      | .error h => haltCore e.fetched h
      | .ok w => decantBody s e.fetched w

/-- DECANT_ACCEPTED (R475). -/
def execDecantAccepted (asn core : Nat) (s : State) : Host.Outcome State Fault Refusal :=
  event (Instr.wf (.decantAccepted asn core)) s fun s => decantAccepted s asn core

/-! ### Overrun -/

/-- The overrun limit in ns for a core's island (R73, R660): 600 µs × max(1, 1450 / RATE_NOW). An island with no measured
rate scales by 1. -/
def overrunNs (s : State) (c : Ctx) (core : Nat) : Nat :=
  let g := c.set.getD (core / 16) 0
  let rate := ((getDie s (g / 32)).islands.getD (g % 32) .reset).rateNow
  if rate = 0 ∨ 1450 ≤ rate then 600000 else 600000 * 1450 / rate

/-- A stint timer passes the overrun limit (R207, R660): a job fault. -/
def stintOverrun (s : State) (asn core : Nat) : State :=
  match ctxOf s asn, coreOf s asn core with
  | some c, some k =>
    if c.job.isSome && c.seatedNow && decide (overrunNs s c core < k.stintNs) then
      dieFault s (c.dieOfCore core) .stintOverrun false (some asn) (some core) (some k.pc)
    else s
  | _, _ => s

/-- STINT_OVERRUN (R207). -/
def execStintOverrun (asn core : Nat) (s : State) : Host.Outcome State Fault Refusal :=
  event (Instr.wf (.stintOverrun asn core)) s fun s => stintOverrun s asn core

end Sys2Proof.Machine
end

