-- ==== Sys2Proof/Machine/Copy.lean ====
section
/-! DEFINITION. Machine/Copy.lean: LOAD and STORE (R169 to R171, R793): copies with and without conversion, the atomics of
the cluster pool and of the memory-side adders (R142 to R145), and ordered accumulation (R248 to R254). -/

namespace Sys2Proof.Machine

/-- The fields of LOAD and STORE (R169), by their first bit. -/
def fXos (w : Nat) : Nat := bits w 51 48
/-- XOD. -/
def fXod (w : Nat) : Nat := bits w 55 52
/-- XSZ. -/
def fXsz (w : Nat) : Nat := bits w 59 56
/-- XIDX. -/
def fXidx (w : Nat) : Nat := bits w 63 60
/-- XSTEP. -/
def fXstep (w : Nat) : Nat := bits w 99 96
/-- CNT. -/
def fCnt (w : Nat) : Nat := bits w 111 100
/-- SR. -/
def fSr (w : Nat) : Bool := bit w 64

/-- Dimensions with the outermost of the rank replaced. -/
def Desc.resize (d : Desc) (sel v : Nat) : List Nat := if sel = 0 then d.dims else d.dims.set (d.rank - 1) v

/-- The reserved fields of LOAD and STORE, and XIDX and CNT outside the SUBOPs that use them (R164, R169). -/
def lsFieldsOk (w : Nat) (useIdx useCnt : Bool) : Bool :=
  zeros w [(79, 66), (127, 112)] && (useIdx || fXidx w == 0) && (useCnt || fCnt w == 0)

/-- Source and destination of a copy or an atomic as operands, their shapes equal (R170). -/
def lsPair (e : Env) (w : Nat) (a b : Desc) : Except Halt (Opnd × Opnd) := do
  let da := a.resize (fXsz w) (e.xn (fXsz w))
  let db := b.resize (fXsz w) (e.xn (fXsz w))
  need (da == db) .bounds
  let oa ← a.at da (e.xn (fXos w))
  let ob ← b.at db (e.xn (fXod w))
  .ok (oa, ob)

/-- Whether a space is one of those listed. -/
def inSpaces (d : Desc) (l : List Nat) : Bool := l.contains d.space

/-- The checks at issue of LOAD and STORE with two descriptors: shapes and offsets (R168, R170, R189). -/
def lsCheck (e : Env) (w : Nat) : Except Halt Issued := do
  let a ← slotDesc e (bits w 39 32)
  let b ← slotDesc e (bits w 47 40)
  let _ ← lsPair e w a b
  .ok {}

/-- What LOAD and STORE with two descriptors touch. -/
def lsPrep (a b : Desc) (w : Nat) (more : List Nat) : Prep :=
  { bufs := a.bufs false ++ b.bufs true, reads := sels ([fXos w, fXod w, fXsz w] ++ more), writes := [] }

/-! ### COPY -/

/-- The decode checks of COPY: fields, spaces, WR, stochastic rounding (R134), no conversion into a width block
(notes/assumptions/27). -/
def copyPrep (src dst : List Nat) (e : Env) (w : Nat) : Except Halt Prep := do
  need (lsFieldsOk w false false) .formatUnsupported
  let a ← slotDesc e (bits w 39 32)
  let b ← slotDesc e (bits w 47 40)
  need (inSpaces a src && inSpaces b dst && (b.fmt != .widthBlock || a.fmt == .widthBlock)) .formatUnsupported
  need (!fSr w || (a.fmt == .fp32 && b.fmt == .bf16)) .formatUnsupported
  need b.wr .stateIllegal
  .ok (lsPrep a b w [if fSr w then fXstep w else 0])

/-- One row of a copy: bits unchanged within one format (R106), else converted (R108 to R111); a NaN that an element and an infinite
scale make sets NAN_MADE (R132). -/
def copyRow (e : Env) (w : Nat) (a b : Opnd) (row : Nat) (outer : List Nat) : Except Halt (List EW × Nat) := do
  let ix := List.range (a.n 0)
  if a.d.fmt = b.d.fmt then
    if a.d.fmt.isMx then do
      let ps ← each ix fun i => rdPattern e a (i :: outer)
      let cs := parts 32 ps
      let ws ← collect (List.range cs.length) fun k => do
        let sc ← rdAux e a.d (a.scaleAddr ((32 * k) :: outer)) 1
        wrBlock b outer (32 * k) (leNat sc) (cs.getD k [])
      .ok (ws, 0)
    else do
      let ps ← each ix fun i => rdPattern e a (i :: outer)
      let ws ← wrRowPatterns b outer ps
      .ok (ws, 0)
  else if fSr w then do
    let ps ← each ix fun i => rdPattern e a (i :: outer)
    let key : SrKey := { seed := e.j.seed, tag := bits w 95 80, step := e.xn (fXstep w) }
    let vs := ps.mapIdx fun i p => srBf16 p (srRandom key i row)
    let ws ← wrRowPatterns b outer (vs.map (·.1))
    .ok (ws, vs.foldl (fun f v => f ||| v.2) 0)
  else do
    let vs ← each ix fun i => rdElem e a (i :: outer)
    let (ws, fl) ← wrRow b outer (vs.map fun v => v.1.mul v.2)
    .ok (ws, vs.foldl (fun f v => f ||| madeFrom [v.1, v.2] (v.1.mul v.2)) fl)

/-- Bytes written one by one at an address of a store. -/
def byteEWs (sp a : Nat) (b : Bytes) : List EW := b.mapIdx fun i x => { space := sp, addr := 8 * (a + i), w := 8, v := x.toNat }

/-- One block of a copy between width blocks (R170): its directory entry, scales and payload, every bit unchanged, the payload at the
same PAYLOAD_OFFSET of the destination (as R469 has it; DEDUCED, notes/assumptions/27). -/
def copyBlock (e : Env) (a b : Opnd) (kb nb : Nat) : Except Halt (List EW) := do
  let sa := (a.wbPlace (64 * kb) (64 * nb)).1
  let sb := (b.wbPlace (64 * kb) (64 * nb)).1
  let ent ← rdAux e a.d (a.d.aux + 8 * sa) 8
  let (w, pay) ← wbEntry e a sa
  let data ← rdMain e a.d pay (512 * w)
  let sc ← rdAux e a.d (a.d.aux + a.d.wbScales + 256 * sa) 256
  let at_ := b.d.base + (pay - a.d.base)
  let ea := b.d.aux + 8 * sb
  let ca := b.d.aux + b.d.wbScales + 256 * sb
  if !b.d.inMain at_ (512 * w) || !b.d.inAux ea 8 || !b.d.inAux ca 256 then .error (.fault .boundsRuntime)
  else .ok (byteEWs b.d.space ea ent ++ byteEWs b.d.space ca sc ++ byteEWs b.d.space at_ data)

/-- A copy between width blocks, block by block. -/
def copyBlocks (e : Env) (a b : Opnd) : Except Halt (List EW) :=
  collect (List.range (cdiv (a.n 1) 64)) fun kb => collect (List.range (cdiv (a.n 0) 64)) fun nb => copyBlock e a b kb nb

/-- COPY (R170, R171): rows in ascending order. -/
def copyRun (e : Env) (w : Nat) : Except Halt Plan := do
  let a ← slotDesc e (bits w 39 32)
  let b ← slotDesc e (bits w 47 40)
  let (oa, ob) ← lsPair e w a b
  if a.fmt = .widthBlock ∧ b.fmt = .widthBlock then (copyBlocks e oa ob).map fun ws => { ews := ws }
  else
  let rows := outerIdx oa.dims
  let rs ← each (List.range rows.length) fun i => copyRow e w oa ob i (rows.getD i [])
  .ok { ews := rs.flatMap (·.1), flags := rs.foldl (fun f r => f ||| r.2) 0 }

/-! ### LOAD XREG -/

/-- The decode checks of LOAD XREG (R164, R169); its source is not in ZC form (R372). -/
def xregPrep (e : Env) (w : Nat) : Except Halt Prep := do
  let n := bits w 43 40
  need (lsFieldsOk w false false && bits w 47 44 == 0 && decide (1 ≤ n) && decide (n ≤ 12) && !fSr w) .formatUnsupported
  let a ← slotDesc e (bits w 39 32)
  need (!a.zc) .formatUnsupported
  .ok { bufs := a.bufs false, reads := sels [fXos w], writes := [n, n + 1, n + 2, n + 3] }

/-- The check of LOAD XREG at issue: its offset (R189, R190). -/
def xregCheck (e : Env) (w : Nat) : Except Halt Issued := do
  let a ← slotDesc e (bits w 39 32)
  need (a.offOk (e.xn (fXos w))) .formatUnsupported
  .ok {}

/-- LOAD XREG: 16 bytes at the source (R170). -/
def xregRun (e : Env) (w : Nat) : Except Halt Plan := do
  let n := bits w 43 40
  let a ← slotDesc e (bits w 39 32)
  let x := e.xn (fXos w)
  let b ← rdMain e a (a.base + (a.byteOff x).1) 16
  .ok { regs := (List.range 4).map fun i => (n + i, BitVec.ofNat 32 (field b (4 * i) 4)) }

/-! ### Integer and float atomics -/

/-- Whether a descriptor is the raw 32-bit form of R793. -/
def Desc.raw32 (d : Desc) : Bool := d.fmt == .fp32 && !d.zc

/-- The decode checks of the integer atomics (R170, R793). -/
def intPrep (dst : List Nat) (e : Env) (w : Nat) : Except Halt Prep := do
  need (lsFieldsOk w false false && !fSr w) .formatUnsupported
  let a ← slotDesc e (bits w 39 32)
  let b ← slotDesc e (bits w 47 40)
  need (inSpaces a [1, 2] && inSpaces b dst && a.raw32 && b.raw32) .formatUnsupported
  need b.wr .stateIllegal
  .ok (lsPrep a b w [])

/-- The pattern a store's element holds now, checked against the planned buffer only: what an adder or the pool reads. -/
def nowPattern (e : Env) (o : Opnd) (ix : List Nat) : Except Halt Nat :=
  let a := o.bitAddr ix
  let n := cdiv o.d.fmt.width 8
  if o.d.inMain (a / 8) n then .ok (leNat ((List.range n).map fun i => rawByte e o.d.space (a / 8 + i)))
  else .error (.fault .boundsRuntime)

/-- The pattern of a target element as the adds of the instruction's earlier elements leave it: two elements may lie at one
address, and each of them is added (R142, R143). -/
def nowAfter (e : Env) (o : Opnd) (ix : List Nat) (ws : List EW) : Except Halt Nat :=
  match ws.reverse.find? fun x => x.addr == o.bitAddr ix with
  | some x => .ok x.v
  | none => nowPattern e o ix

/-- The writes of a list of elements in order, each seeing the writes before it. -/
def accrue {α : Type} (l : List α) (f : List EW → α → Except Halt (List EW)) : Except Halt (List EW) :=
  foldE l [] fun ws x => do
    let a ← f ws x
    .ok (ws ++ a)

/-- Every index tuple of a shape in row-major order, the innermost first. -/
def allIdx (dims : List Nat) : List (List Nat) :=
  (outerIdx dims).flatMap fun o => (List.range (dim dims 0)).map fun i => i :: o

/-- An integer atomic on 32-bit words (R143). -/
def int32Run (op : Word → Word → Word) (e : Env) (w : Nat) : Except Halt Plan := do
  let a ← slotDesc e (bits w 39 32)
  let b ← slotDesc e (bits w 47 40)
  let (oa, ob) ← lsPair e w a b
  let ws ← accrue (allIdx oa.dims) fun ws ix => do
    let x ← rdPattern e oa ix
    let y ← nowAfter e ob ix ws
    wrPattern ob ix (op (BitVec.ofNat 32 y) (BitVec.ofNat 32 x)).toNat
  .ok { ews := ws, adds := true }

/-- Signed minimum. -/
def smin (a b : Word) : Word := if a.toInt ≤ b.toInt then a else b
/-- Signed maximum. -/
def smax (a b : Word) : Word := if a.toInt ≤ b.toInt then b else a

/-- The operands of STORE ADD_INT64, whose pairs of words do not straddle (R145, R793). -/
def int64Pair (e : Env) (w : Nat) : Except Halt (Opnd × Opnd) := do
  let a ← slotDesc e (bits w 39 32)
  let b ← slotDesc e (bits w 47 40)
  let (oa, ob) ← lsPair e w a b
  need (oa.n 0 % 2 == 0 && oa.off % 2 == 0 && ob.off % 2 == 0) .formatUnsupported
  .ok (oa, ob)

/-- STORE ADD_INT64: pairs of words, wrapping modulo 2^64 (R145, R793). -/
def int64Run (e : Env) (w : Nat) : Except Halt Plan := do
  let (oa, ob) ← int64Pair e w
  let pairs := (outerIdx oa.dims).flatMap fun o => (List.range (oa.n 0 / 2)).map fun i => (i, o)
  let ws ← accrue pairs fun ws io => do
    let lo := (2 * io.1) :: io.2
    let hi := (2 * io.1 + 1) :: io.2
    let x0 ← rdPattern e oa lo
    let x1 ← rdPattern e oa hi
    let y0 ← nowAfter e ob lo ws
    let y1 ← nowAfter e ob hi ws
    let v := (x0 + 2 ^ 32 * x1 + y0 + 2 ^ 32 * y1) % 2 ^ 64
    let w0 ← wrPattern ob lo (v % 2 ^ 32)
    let w1 ← wrPattern ob hi (v / 2 ^ 32)
    .ok (w0 ++ w1)
  .ok { ews := ws, adds := true }

/-- The decode checks of CAS (R170, R793). -/
def casPrep (e : Env) (w : Nat) : Except Halt Prep := do
  need (lsFieldsOk w true false && !fSr w && bits w 39 32 == 0xFF) .formatUnsupported
  let b ← slotDesc e (bits w 47 40)
  need (inSpaces b [2] && b.raw32) .formatUnsupported
  need b.wr .stateIllegal
  .ok { bufs := b.bufs true, reads := sels [fXod w, fXidx w, fXstep w], writes := [] }

/-- CAS: one word of the pool; only a success bit returns (R144, R793). -/
def casRun (e : Env) (w : Nat) : Except Halt Plan := do
  let b ← slotDesc e (bits w 47 40)
  let o := b.opnd (e.xn (fXod w))
  let y ← nowPattern e o [0, 0, 0, 0]
  if y = e.xn (fXidx w) then
    let ws ← wrPattern o [0, 0, 0, 0] (e.xn (fXstep w))
    .ok { ews := ws, casOk := some true }
  else .ok { casOk := some false }

/-- Whether a format may be added in floating point: any float format, the microscaling formats among them, MXINT8 too (R181, R248;
DESIGN CHOICE, notes/assumptions/77). -/
def Fmt.addable (f : Fmt) : Bool := f.isFloat || f.isMx

/-- The decode checks of ADD_FLOAT (R170) and ORDERED (R248). -/
def floatAddPrep (ordered : Bool) (e : Env) (w : Nat) : Except Halt Prep := do
  need (lsFieldsOk w ordered ordered && !fSr w) .formatUnsupported
  let a ← slotDesc e (bits w 39 32)
  let b ← slotDesc e (bits w 47 40)
  need (inSpaces a [1, 2] && inSpaces b [2] && a.fmt.addable && !a.zc && !b.zc && (b.fmt == .fp32 || b.fmt == .bf16))
    .formatUnsupported
  need b.wr .stateIllegal
  .ok (lsPrep a b w [if ordered then fXidx w else 0])

/-- One floating-point add into a target element: the exact sum rounded once in the target's format. -/
def addInto (f : Fmt) (old new : XV) : Nat × Nat :=
  let r := old.add new
  let q := f.encodeFloat r
  (q.1, q.2 ||| madeFrom [old, new] r)

/-- Applies a contribution element by element: written where `first`, else added (R142, R248). A microscaling source is added at its
exact value, also beyond FP32's range (DESIGN CHOICE, notes/assumptions/77). -/
def floatAdd (e : Env) (oa ob : Opnd) (first : Bool) : Except Halt (List EW × Nat) := do
  foldE (allIdx oa.dims) ([], 0) fun acc ix => do
    let x ← rdVal e oa ix
    let y ← nowAfter e ob ix acc.1
    let r := if first then ob.d.fmt.encode x else addInto ob.d.fmt (ob.d.fmt.decode y) x
    let ws ← wrPattern ob ix r.1
    .ok (acc.1 ++ ws, acc.2 ||| r.2)

/-- STORE ADD_FLOAT (R142). -/
def addFloatRun (e : Env) (w : Nat) : Except Halt Plan := do
  let a ← slotDesc e (bits w 39 32)
  let b ← slotDesc e (bits w 47 40)
  let (oa, ob) ← lsPair e w a b
  let r ← floatAdd e oa ob false
  .ok { ews := r.1, flags := r.2 }

/-! ### Ordered accumulation -/

/-- The target, index and offsets of a STORE ORDERED: the target is identified by start address, length, format and CNT (R251). Its
length is its element count times the element size, whatever its strides (DESIGN CHOICE, notes/assumptions/64). -/
def orderedWait (e : Env) (w : Nat) : Except Halt FlightWait := do
  let a ← slotDesc e (bits w 39 32)
  let b ← slotDesc e (bits w 47 40)
  let (_, ob) ← lsPair e w a b
  let idx := e.xn (fXidx w)
  need (decide (idx ≤ fCnt w)) .bounds
  let lo := ob.bitAddr [0, 0, 0, 0] / 8
  let len := b.fmt.width / 8 * (allIdx ob.dims).length
  .ok (.ordered lo len b.fmt.code (fCnt w) idx)

/-- STORE ORDERED: it is in flight and waits for its turn with its source unread (R249). -/
def orderedRun (e : Env) (w : Nat) : Except Halt Plan := (orderedWait e w).map fun x => { wait := x }

/-- The ordered contributions in flight on one cluster, oldest first: (flight number, start, length, format, CNT). -/
def orderedOn (c : Ctx) (cl : Nat) : List (Nat × Nat × Nat × Nat × Nat) :=
  (List.range 16).flatMap fun i => match c.cores[16 * cl + i]? with
    | none => []
    | some k => k.flight.filterMap fun f => match f.wait with
      | .ordered lo len fm cnt _ => some (f.id, lo, len, fm, cnt)
      | _ => none

/-- Inserts a contribution by its flight number. -/
def insFirst (l : List (Nat × Nat × Nat × Nat × Nat)) (x : Nat × Nat × Nat × Nat × Nat) :
    List (Nat × Nat × Nat × Nat × Nat) :=
  match l with
  | [] => [x]
  | y :: t => if x.1 < y.1 then x :: y :: t else y :: insFirst t x

/-- Opens the tracks the contributions in flight need, oldest first, while fewer than 16 are open (R251). -/
def openTracks (c : Ctx) (cl : Nat) : Ctx :=
  let l := (orderedOn c cl).foldl insFirst []
  let add := fun (ts : List Track) (x : Nat × Nat × Nat × Nat × Nat) =>
    if ts.any (fun t => t.lo == x.2.1) || decide (16 ≤ ts.length) then ts
    else ts ++ [{ lo := x.2.1, len := x.2.2.1, fmt := x.2.2.2.1, cnt := x.2.2.2.2, next := 0 }]
  { c with clusters := modAt c.clusters cl fun q => { q with tracks := l.foldl add q.tracks } }

/-- A contribution applied: its track moves on, and closes after contribution CNT (R251). -/
def advanceTrack (c : Ctx) (cl lo cnt idx : Nat) : Ctx :=
  let step := fun (t : Track) => if t.lo = lo then { t with next := idx + 1 } else t
  let new := fun (ts : List Track) => if idx = cnt then ts.filter (fun t => t.lo != lo) else ts.map step
  openTracks { c with clusters := modAt c.clusters cl fun q => { q with tracks := new q.tracks } } cl

/-- What a contribution does at its turn: its source is read now, and written or added element by element (R248, R249, R252). -/
def orderedNow (first : Bool) (e : Env) (w : Nat) : Except Halt Plan := do
  let a ← slotDesc e (bits w 39 32)
  let b ← slotDesc e (bits w 47 40)
  let (oa, ob) ← lsPair e w a b
  (floatAdd e oa ob first).map fun r => { ews := r.1, flags := r.2 }

end Sys2Proof.Machine
end

