-- ==== Sys2Proof/Machine/Prod.lean ====
section
/-! DEFINITION. Machine/Prod.lean: matrix products (R216 to R247) at every working width (R374 to R382), the sampling and
the verdicts of the taster (R383 to R399) and layer-wide escalation (R392 to R395). -/

namespace Sys2Proof.Machine

/-! ### Operand pairs (R125) -/

/-- An 8-bit float, plain or MX. -/
def Fmt.float8 : Fmt → Bool
  | .e4m3 | .e5m2 | .mxE4m3 | .mxE5m2 => true
  | _ => false
/-- A 4-bit float, plain or MX. -/
def Fmt.float4 : Fmt → Bool
  | .e2m1 | .mxFp4 => true
  | _ => false
/-- A 16-bit float. -/
def Fmt.float16 : Fmt → Bool
  | .bf16 | .fp16 => true
  | _ => false

/-- MACs per cell per beat of the wider of two widths (R125's last row). -/
def macsOf (bits : Nat) : Nat := if bits = 16 then 1 else if bits = 8 then 2 else 4

/-- MACs per cell per beat for a width-block B of element width `w` (R123, R125). -/
def macsWb (a : Fmt) (w : Nat) : Option Nat :=
  if a.float4 || a == .int4 then some (if w ≤ 2 then 8 else if w ≤ 4 then 4 else 2)
  else if a.float8 || a == .int8 || a == .uint8 || a == .mxInt8 then some 2
  else if a.float16 then some 1 else none

/-- MACs per cell per beat of an operand pair, for the pairs of R125; `w` is the element width of a width-block B. -/
def pairM (a b : Fmt) (w : Nat) : Option Nat :=
  if b = .widthBlock then macsWb a w
  else if a = b && a.float16 then some 1
  else if a.float8 && b.float8 then some 2
  else if (a == .int8 || a == .uint8) && b == .int8 then some 2
  else if a == .mxInt8 && b == .mxInt8 then some 2
  else if a.float4 && b.float4 then some 4
  else if a == .int4 && b == .int4 then some 4
  else if a.isFloat && b.isFloat && a != .fp32 && b != .fp32 && a.width != b.width then some (macsOf (max a.width b.width))
  else if a.isInt && b.isInt && b != .uint8 && a.width != b.width then some (macsOf (max a.width b.width))
  else none

/-- Whether a pair accumulates in INT32 (R125). -/
def intPair (a b : Fmt) : Bool := a.isInt && b.isInt

/-! ### Operand elements at a working width -/

/-- One operand element as an engine takes it: value, scale, the format that decides the pair, and the element width of a
width block. -/
structure PE where
  v : XV
  s : XV
  f : Fmt
  w : Nat
  deriving DecidableEq, Repr

/-- An operand of a product: stored, its reference, and the index of (row or column, k). -/
structure Src where
  o : Opnd
  ref : Option Opnd
  inner : Bool
  deriving DecidableEq, Repr

/-- The stored index of position k of line i: K innermost or outermost. -/
def Src.ix (s : Src) (i k : Nat) : List Nat := if s.inner then [k, i, 0, 0] else [i, k, 0, 0]

/-- The element width of the width block that holds an element, 0 for other formats. -/
def widthAt (e : Env) (o : Opnd) (ix : List Nat) : Except Halt Nat :=
  if o.d.fmt = .widthBlock then (wbEntry e o (o.wbPlace (ix.getD 1 0) (ix.getD 0 0)).1).map (·.1) else .ok 0

/-- How an operand is taken at a working width (R377): 0 as stored, 1 narrowed to MXFP4, 2 narrowed to MXFP8, 3 REF narrowed
to MXFP8, 4 REF as stored. Width 0 stands for no window. -/
def takeMode (f : Fmt) (w : Nat) (hasRef : Bool) (width : Nat) : Nat :=
  if width = 0 then 0
  else if f.float16 then (if width = 4 then 1 else if width = 8 then 2 else 0)
  else if !hasRef then 0
  else if f.width = 8 then (if width = 16 then 4 else 0)
  else if f.width = 4 || (f == .widthBlock && decide (w ≤ 4)) then (if width = 4 then 0 else if width = 8 then 3 else 4)
  else if f = .widthBlock then (if width = 16 then 4 else 0)
  else 0

/-- An element as stored. -/
def storedPE (e : Env) (o : Opnd) (w : Nat) (ix : List Nat) : Except Halt PE := do
  let (v, sc) ← rdElem e o ix
  .ok { v := v, s := sc, f := o.d.fmt, w := w }

/-- Elements narrowed to one MX block (R378): values, the flags of R115. -/
def narrow (f : Fmt) (ps : List PE) : List PE × Nat :=
  let r := f.encodeBlock (ps.map fun p => p.v.mul p.s)
  (r.2.1.map fun c => { v := f.decode c, s := e8m0 r.1, f := f, w := 0 }, r.2.2)

/-- How a run of positions of K of a line is taken: the mode, the operand its elements come from, and the element width of its width
block. -/
structure Take where
  mode : Nat
  o : Opnd
  w : Nat
  deriving DecidableEq, Repr

/-- How the run of line `i` that starts at position `k0` is taken at a working width. -/
def takeAt (e : Env) (s : Src) (i k0 width : Nat) : Except Halt Take := do
  let w ← widthAt e s.o (s.ix i k0)
  let mode := takeMode s.o.d.fmt w s.ref.isSome width
  .ok { mode := mode, o := if mode = 3 ∨ mode = 4 then s.ref.getD s.o else s.o, w := w }

/-- The element at position `k` of line `i`, taken but not narrowed. -/
def Take.elem (t : Take) (e : Env) (s : Src) (i k : Nat) : Except Halt PE := storedPE e t.o t.w (s.ix i k)

/-- A run of elements as the engines get it. -/
def Take.narrowed (t : Take) (ps : List PE) : List PE × Nat :=
  if t.mode = 1 then narrow .mxFp4 ps else if t.mode = 2 ∨ t.mode = 3 then narrow .mxE4m3 ps else (ps, 0)

/-- One run of at most 32 positions of K from `k0` of a line of an operand, at a working width. -/
def chunkPE (e : Env) (s : Src) (i k0 n width : Nat) : Except Halt (List PE × Nat) := do
  let t ← takeAt e s i k0 width
  let ps ← each (List.range n) fun k => t.elem e s i (k0 + k)
  .ok (t.narrowed ps)

/-- A whole line of an operand along K. -/
def linePE (e : Env) (s : Src) (width kk i : Nat) : Except Halt (List PE × Nat) := do
  let cs ← each (List.range (cdiv kk 32)) fun c => chunkPE e s i (32 * c) (min 32 (kk - 32 * c)) width
  .ok (cs.flatMap (·.1), cs.foldl (fun f c => f ||| c.2) 0)

/-! ### Accumulators -/

/-- An accumulator: FP32, or INT32 for integer pairs. -/
inductive Accum where
  | f (v : XV)
  | i (v : Int)
  deriving DecidableEq, Repr

/-- MACs per beat at a position. A pair that R125 does not list, which only the taster's recomputation can meet, is taken one MAC a
beat, in FP32 (R386; DESIGN CHOICE, notes/assumptions/78). -/
def PE.macs (a b : PE) : Nat := (pairM a.f b.f b.w).getD 1

/-- Beats of a float accumulator along K (R127, R130, R217). -/
def beatsF (n : Nat) (acc : XV) (fl : Nat) (l : List (PE × PE)) : XV × Nat :=
  match n, l with
  | k + 1, (a, b) :: t =>
    let m := a.macs b
    let r := beat acc (((a, b) :: t).take m |>.map fun p => [p.1.v, p.1.s, p.2.v, p.2.s])
    beatsF k r.1 (fl ||| r.2) (((a, b) :: t).drop m)
  | _, _ => (acc, fl)

/-- Beats of an integer accumulator along K (R129). -/
def beatsI (n : Nat) (acc : Int) (fl : Nat) (l : List (PE × PE)) : Int × Nat :=
  match n, l with
  | k + 1, (a, b) :: t =>
    let m := a.macs b
    let r := beatInt acc (((a, b) :: t).take m |>.map fun p => (p.1.v.scaled 0, p.2.v.scaled 0))
    beatsI k r.1 (fl ||| r.2) (((a, b) :: t).drop m)
  | _, _ => (acc, fl)

/-- The accumulator of one output element over K. -/
def Accum.run (acc : Accum) (a b : List PE) : Accum × Nat :=
  let l := a.zip b
  match acc with
  | .f v => let r := beatsF l.length v 0 l
            (.f r.1, r.2)
  | .i v => let r := beatsI l.length v 0 l
            (.i r.1, r.2)

/-- The bias added once (R224): the value as read and whether it is an integer. An MX bias, which R224 does not name for an INT32
accumulator, is added as a float bias is (DESIGN CHOICE, notes/assumptions/62). -/
def Accum.bias (acc : Accum) (b : Option (XV × Bool)) : Accum × Nat :=
  match b, acc with
  | none, a => (a, 0)
  | some (v, _), .f x => let r := add32 x v
                         (.f r.1, r.2)
  | some (v, true), .i x => let r := beatInt x [(v.scaled 0, 1)]
                            (.i r.1, r.2)
  | some (v, false), .i x => let r := add32 (round32 (XV.ofInt x)).1 v
                             (.f r.1, r.2)

/-- The exact value an accumulator holds. -/
def Accum.value : Accum → XV
  | .f v => v
  | .i v => XV.ofInt v

/-- The accumulator as FP32, as the taster compares it (R387). -/
def Accum.pat (a : Accum) : Word := BitVec.ofNat 32 (pat32 (round32 a.value).1)

/-! ### A product -/

/-- A PROD's operands and sizes, resolved. -/
structure Product where
  a : Src
  b : Src
  c : Opnd
  bias : Option Opnd
  m : Nat
  n : Nat
  k : Nat
  acc : Bool
  sr : Option SrKey
  gang : Nat
  deriving DecidableEq, Repr

/-- Rows and columns of an output tile (R218). -/
def tileShape (gang : Nat) : Nat × Nat :=
  if gang = 0 then (32, 32) else if gang = 1 then (8, 128) else if gang = 2 then (128, 8) else (8, 8)

/-- The starting value of an accumulator (R223): the element of C, also where an MX scale takes it beyond FP32's range (DESIGN CHOICE,
notes/assumptions/62). -/
def Product.start (e : Env) (p : Product) (int : Bool) (i j : Nat) : Except Halt Accum :=
  if p.acc then
    if int then (rdInt e p.c [j, i, 0, 0]).map Accum.i else (rdVal e p.c [j, i, 0, 0]).map Accum.f
  else .ok (if int then .i 0 else .f XV.zero)

/-- The bias of a column: its exact value, also where an MX scale takes it beyond FP32's range (DESIGN CHOICE,
notes/assumptions/62). -/
def Product.biasAt (e : Env) (p : Product) (j : Nat) : Except Halt (Option (XV × Bool)) :=
  match p.bias with
  | none => .ok none
  | some o => (rdVal e o [j, 0, 0, 0]).map fun v => some (v, o.d.fmt.isInt)

/-- The format an operand is taken in at a working width; the elements of a width block keep theirs. -/
def Src.taken (s : Src) (width : Nat) : Fmt :=
  if s.o.d.fmt = .widthBlock then .widthBlock
  else match takeMode s.o.d.fmt 0 s.ref.isSome width with
    | 0 => s.o.d.fmt
    | 1 => .mxFp4
    | 2 | 3 => .mxE4m3
    | _ => (s.ref.getD s.o).d.fmt

/-- One output element before conversion, with its flags, from its starting value, its lines along K and its bias. -/
def outElem (s : Accum) (la lb : List PE) (bi : Option (XV × Bool)) : Accum × Nat :=
  let r := s.run la lb
  let q := r.1.bias bi
  (q.1, r.2 ||| q.2)

/-- Whether a pair of runs is one of R125 at its first element; a run is of one pair. -/
def runOk (a b : List PE × Nat) : Bool :=
  match a.1, b.1 with
  | x :: _, y :: _ => (pairM x.f y.f y.w).isSome
  | _, _ => true

/-- A run of K of the rows and columns of a block, position by position: A and B in ascending K (R222). -/
def Product.chunk (e : Env) (p : Product) (width k0 n : Nat) (is js : List Nat) :
    Except Halt (List (List PE × Nat) × List (List PE × Nat)) := do
  let ta ← each is fun i => takeAt e p.a i k0 width
  let tb ← each js fun j => takeAt e p.b j k0 width
  let ks ← each (List.range n) fun k => do
    let as ← each (is.zip ta) fun x => x.2.elem e p.a x.1 (k0 + k)
    let bs ← each (js.zip tb) fun x => x.2.elem e p.b x.1 (k0 + k)
    .ok (as, bs)
  .ok (ta.mapIdx fun x t => t.narrowed (ks.filterMap fun k => k.1[x]?), tb.mapIdx fun y t => t.narrowed (ks.filterMap fun k => k.2[y]?))

/-- The lines of an operand as they were read chunk by chunk along K. -/
def gatherLine (cs : List (List (List PE × Nat))) (x : Nat) : List PE := cs.flatMap fun c => (c.getD x ([], 0)).1

/-- The flags of the lines of an operand. -/
def gatherFlags (cs : List (List (List PE × Nat))) : Nat := cs.foldl (fun f c => c.foldl (fun f l => f ||| l.2) f) 0

/-- The results of output rows [i0, i1) and columns [j0, j1) at a working width: the accumulators row by row and the flags. As R222
orders it, C is read first, then A and B in ascending K, then the bias. `strict` is the engines' own computation: a pair that R125
does not list stops the job where it is met (R126, R377). -/
def Product.block (e : Env) (p : Product) (strict : Bool) (width i0 i1 j0 j1 : Nat) : Except Halt (List (List Accum) × Nat) := do
  let is := (List.range i1).drop i0
  let js := (List.range j1).drop j0
  let int := intPair (p.a.taken width) (p.b.taken width)
  let ss ← each is fun i => each js fun j => p.start e int i j
  let cs ← each (List.range (cdiv p.k 32)) fun c => do
    let r ← p.chunk e width (32 * c) (min 32 (p.k - 32 * c)) is js
    need (!strict || r.1.all fun a => r.2.all (runOk a)) .formatUnsupported
    .ok r
  let bi ← each js (p.biasAt e)
  let rows := ss.mapIdx fun x r => r.mapIdx fun y s =>
    outElem s (gatherLine (cs.map (·.1)) x) (gatherLine (cs.map (·.2)) y) (bi.getD y none)
  let fl := rows.foldl (fun f r => r.foldl (fun f x => f ||| x.2) f) 0
  .ok (rows.map fun r => r.map (·.1), fl ||| gatherFlags (cs.map (·.1)) ||| gatherFlags (cs.map (·.2)))

/-- Converts one output element (R225, R228). -/
def Product.convert (p : Product) (i j : Nat) (a : Accum) : Nat × Nat :=
  match p.sr with
  | some k => srBf16 (pat32 a.value) (srRandom k j i)
  | none => p.c.d.fmt.encode a.value

/-- The writes of a block of results, with the conversion flags: element by element, or in MX blocks, which a tile holds whole
(R115, R116, R226, R232). -/
def Product.writes (p : Product) (i0 j0 : Nat) (rows : List (List Accum)) : Except Halt (List EW × Nat) := do
  let rs ← each (List.range rows.length) fun x => do
    let row := rows.getD x []
    if p.c.d.fmt.isMx then wrRowFrom p.c j0 [i0 + x, 0, 0] (row.map Accum.value)
    else
      let ps := row.mapIdx fun y a => p.convert (i0 + x) (j0 + y) a
      let ws ← collect (List.range ps.length) fun y => wrPattern p.c [j0 + y, i0 + x, 0, 0] (ps.getD y (0, 0)).1
      .ok (ws, ps.foldl (fun f q => f ||| q.2) 0)
  .ok (rs.flatMap (·.1), rs.foldl (fun f r => f ||| r.2) 0)

/-! ### Precision windows -/

/-- BAR0 offset of the precision block of a context on the die of a core. -/
def Env.prec (e : Env) : Nat := precBase e.die ((e.c.slots.getD e.die none).getD 0)

/-- Whether an index lies in a range register [31:16] LAST, [15:0] FIRST. -/
def inRange (s : State) (off v : Nat) : Bool :=
  decide (regBits s off 15 0 ≤ v) && decide (v ≤ regBits s off 31 16)

/-- The window of the core's present instruction (R375). -/
def Env.window (e : Env) : Option Nat :=
  (List.range 8).find? fun k => regBits e.s (e.prec + 0x14 + 8 * k) 1 0 != 0 && inRange e.s (e.prec + 0x10 + 8 * k) e.k.pc

/-- Whether a floor applies (R381, R407). -/
def Env.floored (e : Env) (layer : Word) : Bool :=
  (List.range 4).any fun j => inRange e.s (e.prec + 0x50 + 8 * j) e.k.pc && inRange e.s (e.prec + 0x54 + 8 * j) (layer.toNat % 65536)

/-- The next wider working width (R393). -/
def wider (w : Nat) : Nat := if w = 4 then 8 else 16

/-- What a PROD in a window knows at issue: window, layer and pass values, the record after R392, working width, references,
BOUND, ESC_LIMIT. -/
structure Window where
  k : Nat
  layer : Word
  pass : Word
  er : EscRecord
  width : Nat
  refA : Nat
  refB : Nat
  bound : Word
  limit : Nat
  deriving DecidableEq, Repr

/-- The escalation record, reset where the layer or pass value changed (R392): its count is taken from the given ordinal on. The
ordinals of failed tiles stay, for the PRODs issued before, and so do the pass values under which the limit was reached (R395). -/
def EscRecord.at (r : EscRecord) (layer pass : Word) (ordinal : Nat) : EscRecord :=
  if r.layer = layer ∧ r.pass = pass then r else { r with since := ordinal, layer := layer, pass := pass }

/-- The escalation record of a window. -/
def Core.record (c : Core) (k : Nat) : EscRecord := c.esc.getD k { fails := [], since := 0, layer := 0#32, pass := 0#32, reached := [] }

/-- LAYER and PASS of the core's present instruction. -/
def Env.layerPass (e : Env) : Word × Word := (e.x (regBits e.s e.prec 23 20), e.x (regBits e.s e.prec 27 24))

/-- The core at the issue of a windowed PROD, which counts from where its record does (R392). -/
def Env.issuing (e : Env) : Env :=
  match e.window with
  | some k => { e with since := ((e.k.record k).at e.layerPass.1 e.layerPass.2 e.k.ordinal).since }
  | none => e

/-- The window's settings for the core's present instruction (R376, R381, R392, R393). -/
def Env.windowInfo (e : Env) (k : Nat) : Window :=
  let b := e.prec
  let lp := e.layerPass
  let r := (e.k.record k).at lp.1 lp.2 e.k.ordinal
  let limit := regBits e.s b 15 8
  let w0 := if regBits e.s (b + 0x14 + 8 * k) 1 0 = 1 then 4 else 8
  let fw := regBits e.s b 17 16
  let w1 := if e.floored lp.1 then max w0 (if fw = 1 then 8 else if fw = 2 then 16 else 0) else w0
  let count := (r.fails.filter fun j => decide (e.since ≤ j) && decide (j + 2 ≤ e.k.ordinal)).length
  { k := k, layer := lp.1, pass := lp.2, er := r, width := if limit ≠ 0 ∧ limit ≤ count then wider w1 else w1
    refA := regBits e.s (b + 0x14 + 8 * k) 15 8, refB := regBits e.s (b + 0x14 + 8 * k) 23 16
    bound := getReg e.s (b + 4), limit := limit }

/-- Whether the PROD waits for verdicts that decide its width (R393): those of this window's PRODs with ordinal j − 2 or less, on the
same core, under the same layer and pass values, in the taster's queue or before it. -/
def Env.awaitsVerdicts (e : Env) (x : Window) : Bool :=
  x.limit != 0 && (e.cluster.taster ++ e.k.flight.flatMap (·.sampled)).any fun t =>
    t.core == e.core && t.window == x.k && decide (e.since ≤ t.ordinal) && decide (t.ordinal + 2 ≤ e.k.ordinal)

/-! ### Decode and issue of PROD -/

/-- Fields of PROD (R167). -/
def pTa (w : Nat) : Bool := bit w 66
/-- TB. -/
def pTb (w : Nat) : Bool := bit w 67

/-- The sizes a descriptor gives a product operand: (size along K, size along the other dimension). -/
def kSize (d : Desc) (kInner : Bool) : Nat × Nat := if kInner then (dim d.dims 0, dim d.dims 1) else (dim d.dims 1, dim d.dims 0)

/-- Dimensions of an operand with its effective sizes. -/
def pDims (kInner : Bool) (k other : Nat) : List Nat := if kInner then [k, other, 1, 1] else [other, k, 1, 1]

/-- The four descriptors of a PROD. -/
def prodDescs (e : Env) (w : Nat) : Except Halt (Desc × Desc × Desc × Option Desc) := do
  let a ← slotDesc e (bits w 39 32)
  let b ← slotDesc e (bits w 47 40)
  let c ← slotDesc e (bits w 55 48)
  let d ← slotOpt e (bits w 63 56)
  .ok (a, b, c, d)

/-- Whether a bias format is one of R224. -/
def biasOk (d : Desc) : Bool := d.fmt != .widthBlock && !d.zc && d.rank == 1

/-- Whether the output of an integer pair is converted from FP32 because of a float bias. -/
def floatOut (a b : Desc) (bias : Option Desc) : Bool :=
  !intPair a.fmt b.fmt || bias.any fun d => !d.fmt.isInt

/-- The decode checks of PROD (R126, R134, R168, R210, R223, R226, R239). The stored pair must be one of R125 in a precision window
too, though another pair may result there (R377; DESIGN CHOICE, notes/assumptions/79). -/
def prodChecks (e : Env) (w : Nat) : Except Halt (Desc × Desc × Desc × Option Desc) := do
  need (zeros w [(71, 70), (127, 116)]) .formatUnsupported
  let (a, b, c, d) ← prodDescs e w
  let gang := bits w 65 64
  need (decide (a.rank ≤ 2) && decide (b.rank ≤ 2) && decide (c.rank ≤ 2)) .formatUnsupported
  need ((pairM a.fmt b.fmt 1).isSome && !b.zc && !c.zc && c.fmt != .widthBlock) .formatUnsupported
  need (!c.fmt.isMx || decide (gang ≤ 1)) .formatUnsupported
  need (d.all biasOk) .formatUnsupported
  need (!(pTa w && a.fmt.isMx) && !(pTb w && (b.fmt.isMx || b.fmt == .widthBlock))) .formatUnsupported
  need (!bit w 69 || (c.fmt == .bf16 && floatOut a b d)) .formatUnsupported
  need (!bit w 68 || !intPair a.fmt b.fmt || c.fmt.isInt) .formatUnsupported
  need c.wr .stateIllegal
  .ok (a, b, c, d)

/-- The size a register overrides, else the one size the descriptors agree on, else BOUNDS (R168). -/
def agreed (e : Env) (sel : Nat) (l : List Nat) : Except Halt Nat :=
  if sel ≠ 0 then .ok (e.xn sel)
  else match l with
    | [] => .ok 0
    | x :: t => if t.all (· == x) then .ok x else .error (.stop .bounds)

/-- The effective M, N and K of a PROD. -/
def prodSizes (e : Env) (w : Nat) (a b c : Desc) (d : Option Desc) : Except Halt (Nat × Nat × Nat) := do
  let (ka, ma) := kSize a (!pTa w)
  let (kb, nb) := kSize b (pTb w)
  let m ← agreed e (bits w 75 72) [ma, dim c.dims 1]
  let n ← agreed e (bits w 79 76) ([nb, dim c.dims 0] ++ (d.map fun x => dim x.dims 0).toList)
  let k ← agreed e (bits w 83 80) [ka, kb]
  .ok (m, n, k)

/-- The registers a PROD reads (R229, R381, R392). -/
def prodReads (e : Env) (w : Nat) : List Nat :=
  let b := e.prec
  sels ([bits w 75 72, bits w 79 76, bits w 83 80, bits w 87 84, bits w 91 88, bits w 95 92, bits w 115 112] ++
    (if e.window.isSome then [regBits e.s b 23 20, regBits e.s b 27 24] else []))

/-- Descriptors of the references a window names. -/
def refDesc (e : Env) (slot : Nat) : Option Desc := (e.c.desc.getD slot none).bind descOf

/-- Decode of PROD: sizes that no register gives must agree (R168). -/
def prodPrep (e : Env) (w : Nat) : Except Halt Prep := do
  let (a, b, c, d) ← prodChecks e w
  let _ ← prodSizes e w a b c d
  let refs := match e.window with
    | some k => let x := e.windowInfo k
                [refDesc e x.refA, refDesc e x.refB].flatMap fun o => (o.map (·.bufs false)).getD []
    | none => []
  .ok { bufs := a.bufs false ++ b.bufs false ++ (d.map (·.bufs false)).getD [] ++ refs ++ c.bufs true
        reads := prodReads e w, writes := [] }

/-- A reference operand (R372, R379, R380): bound, not ZC, BF16 or FP16, of the effective shape of the operand it stands for. It takes the
same run-time offset. -/
def refOpnd (e : Env) (slot : Nat) (kInner : Bool) (k other off : Nat) (selK selO : Nat) : Except Halt (Option Opnd) := do
  match ← slotOpt e slot with
  | none => .ok none
  | some d =>
    let (dk, dother) := kSize d kInner
    need (!d.zc) .formatUnsupported
    need (d.fmt.float16 && dim d.dims 2 == 1 && dim d.dims 3 == 1 && (selK != 0 || dk == k) && (selO != 0 || dother == other)) .bounds
    (d.at (pDims kInner k other) off).map some

/-- Whether tasting takes place for a PROD in a window (R382, R383). -/
def tasting (e : Env) (x : Window) : Bool :=
  (getDie e.s e.die).tasteEn && bit (getReg e.s e.prec).toNat 0 && x.width != 16

/-- Whether an operand is narrowed at a working width. -/
def narrowedAt (s : Src) (width : Nat) : Bool :=
  let t := takeMode s.o.d.fmt 0 s.ref.isSome width
  t == 1 || t == 2 || t == 3

/-- The formats the elements of an operand may be taken in at a working width, with the element width of a width block. -/
def Src.forms (s : Src) (width : Nat) : List (Fmt × Nat) :=
  let hasRef := s.ref.isSome
  let f := fun w => match takeMode s.o.d.fmt w hasRef width with
    | 0 => (s.o.d.fmt, w)
    | 1 => (.mxFp4, 0)
    | 2 | 3 => (.mxE4m3, 0)
    | _ => ((s.ref.getD s.o).d.fmt, 0)
  if s.o.d.fmt = .widthBlock then (List.range 8).map fun i => f (i + 1) else [f 0]

/-- Whether some pair that a product may meet at a working width is one of R125. -/
def Product.mayRun (p : Product) (width : Nat) : Bool :=
  (p.a.forms width).any fun a => (p.b.forms width).any fun b => (pairM a.1 b.1 b.2).isSome

/-- The product a PROD names, its window and the checks at issue (R190, R227, R377, R380). With tasting at width 4 an operand that only
the recomputation at width 8 narrows counts as one that would be narrowed (DESIGN CHOICE, notes/assumptions/80). -/
def prodIssue (e : Env) (w : Nat) : Except Halt (Product × Option Window) := do
  let (a, b, c, d) ← prodChecks e w
  let (m, n, k) ← prodSizes e w a b c d
  let win := e.window.map e.windowInfo
  let xa := e.xn (bits w 87 84)
  let xb := e.xn (bits w 91 88)
  let oa ← a.at (pDims (!pTa w) k m) xa
  let ob ← b.at (pDims (pTb w) k n) xb
  let oc ← c.at [n, m, 1, 1] (e.xn (bits w 95 92))
  need (!c.overlaps a && !c.overlaps b && d.all fun x => !c.overlaps x) .bounds
  let ra ← match win with
    | some x => refOpnd e x.refA (!pTa w) k m xa (bits w 83 80) (bits w 75 72)
    | none => .ok none
  let rb ← match win with
    | some x => refOpnd e x.refB (pTb w) k n xb (bits w 83 80) (bits w 79 76)
    | none => .ok none
  let p : Product :=
    { a := { o := oa, ref := ra, inner := !pTa w }, b := { o := ob, ref := rb, inner := pTb w }, c := oc
      bias := d.map fun x => { d := x, dims := [n, 1, 1, 1], off := 0 }
      m := m, n := n, k := k, acc := bit w 68
      sr := if bit w 69 then some { seed := e.j.seed, tag := bits w 111 96, step := e.xn (bits w 115 112) } else none
      gang := bits w 65 64 }
  need (p.mayRun ((win.map (·.width)).getD 0)) .formatUnsupported
  match win with
  | none => .ok (p, none)
  | some x =>
    let ws := if x.width = 4 ∧ tasting e x then [4, 8] else [x.width]
    need (!(pTa w && ws.any (narrowedAt p.a)) && !(pTb w && ws.any (narrowedAt p.b))) .formatUnsupported
    need (!c.fmt.isMx) .formatUnsupported
    .ok (p, some x)

/-- PROD at issue: its checks; in a window its record is reset where the values changed (R392). -/
def prodCheck (e0 : Env) (w : Nat) : Except Halt Issued := do
  let e := e0.issuing
  let (_, win) ← prodIssue e w
  .ok (match win with
    | some x => { windowed := true, esc := some (e.k.esc.set x.k x.er), since := e.since }
    | none => {})

/-! ### Beats, sampling, tiles -/

/-- Beats by MAC count as the counters of R677 add them. -/
def beatsOf (m n : Nat) : Acct :=
  if m = 1 then { Acct.zero with m1 := n } else if m = 2 then { Acct.zero with m2 := n }
  else if m = 4 then { Acct.zero with m4 := n } else { Acct.zero with m8 := n }

/-- Beats of one line of K, by position: each run of 32 counts at its own m. The beats of a transposed 4-bit pair count once, though
they take two beats' time (R239; DESIGN CHOICE, notes/assumptions/63). -/
def lineBeats (la lb : List PE) : Acct :=
  ((parts 32 (la.zip lb)).map fun c => match c with
    | (a, b) :: _ => beatsOf (a.macs b) (cdiv c.length (a.macs b))
    | [] => Acct.zero).foldl Acct.add .zero

/-- A tile's bounds: rows [i0, i1), columns [j0, j1) (R221). -/
structure Tile where
  t : Nat
  i0 : Nat
  i1 : Nat
  j0 : Nat
  j1 : Nat
  deriving DecidableEq, Repr

/-- The tiles of a product in ascending tile number (R221). -/
def Product.tiles (p : Product) : List Tile :=
  let (r, c) := tileShape p.gang
  (List.range (cdiv p.m r)).flatMap fun mt => (List.range (cdiv p.n c)).map fun nt =>
    { t := mt * cdiv p.n c + nt, i0 := r * mt, i1 := min p.m (r * mt + r), j0 := c * nt, j1 := min p.n (c * nt + c) }

/-- Counters multiplied. -/
def Acct.times (a : Acct) (n : Nat) : Acct :=
  { a with m1 := n * a.m1, m2 := n * a.m2, m4 := n * a.m4, m8 := n * a.m8, stall := n * a.stall, taste := n * a.taste }

/-- Rows and columns of engines in a gang (R218). -/
def gangShape (gang : Nat) : Nat × Nat :=
  if gang = 0 then (4, 4) else if gang = 1 then (1, 16) else if gang = 2 then (16, 1) else (1, 1)

/-- Engines of a gang. -/
def engines (gang : Nat) : Nat := (gangShape gang).1 * (gangShape gang).2

/-- The engine beats of one tile (R677): each column of engines counts the beats of its own 8 output columns, whose width
blocks may differ in MAC count; columns beyond the tile count as its first. -/
def Product.tileBeats (e : Env) (p : Product) (width : Nat) (t : Tile) : Except Halt Acct := do
  let (er, ec) := gangShape p.gang
  let a ← linePE e p.a width p.k t.i0
  let bs ← each (List.range ec) fun g => do
    let b ← linePE e p.b width p.k (if t.j0 + 8 * g < t.j1 then t.j0 + 8 * g else t.j0)
    .ok ((lineBeats a.1 b.1).times er)
  .ok (bs.foldl Acct.add .zero)

/-- All beats of a set of counters. -/
def Acct.allBeats (a : Acct) : Nat := a.m1 + a.m2 + a.m4 + a.m8

/-- Whether a tile is sampled (R385). -/
def sampledTile (e : Env) (t : Nat) : Bool :=
  let r := (philox e.j.seed t e.k.ordinal (e.core % 65536 + 0xFFFF * 65536) 0xFFFFFFFF).2.1
  r % 2 ^ (getDie e.s e.die).tasteRate == 0

/-- The engines' result of one tile: its writes, flags and FP32 patterns. -/
structure TileOut where
  ews : List EW
  flags : Nat
  pats : List Word
  deriving DecidableEq, Repr

/-- Computes a tile at a working width (R222). -/
def Product.tileOut (e : Env) (p : Product) (strict : Bool) (width : Nat) (t : Tile) : Except Halt TileOut := do
  let (rows, fl) ← p.block e strict width t.i0 t.i1 t.j0 t.j1
  let (ws, f2) ← p.writes t.i0 t.j0 rows
  .ok { ews := ws, flags := fl ||| f2, pats := rows.flatMap fun r => r.map Accum.pat }

/-- Byte writes as the taster's queue keeps them. -/
def rawRuns (e : Env) (ws : List EW) : List (Nat × Nat × Bytes) := (runsOf e ws).map fun r => (r.space, r.addr, r.data)

/-- A sampled tile as it enters the taster's queue (R386, R388). -/
def Product.sample (e : Env) (p : Product) (x : Window) (t : Tile) (y : TileOut) : Except Halt TasterTile := do
  let y8 ← p.tileOut e false 8 t
  let r ← p.tileOut e false 16 t
  let b8 ← p.tileBeats e 8 t
  let b16 ← p.tileBeats e 16 t
  .ok { core := e.core, flight := e.id, window := x.k, ordinal := e.k.ordinal, width := x.width, bound := x.bound
        layer := x.layer, pass := x.pass, beats8 := b8.allBeats, beats16 := b16.allBeats + 24 * engines p.gang
        y := y.pats, y8 := y8.pats, r := r.pats, writes8 := rawRuns e y8.ews, writesR := rawRuns e r.ews
        flagsY := y.flags, flags8 := y8.flags, flagsR := r.flags }

/-- One tile of a PROD: its result, its beats, and its place in the taster's queue where it is sampled. The flags of a sampled
tile wait for its verdict (R388). -/
def Product.tile (e : Env) (p : Product) (win : Option Window) (t : Tile) :
    Except Halt (List EW × Nat × Acct × List TasterTile) := do
  let width := (win.map (·.width)).getD 0
  let y ← p.tileOut e true width t
  let b ← p.tileBeats e width t
  match win with
  | some x =>
    if tasting e x && sampledTile e t.t then
      let q ← p.sample e x t y
      .ok (y.ews, 0, b, [q])
    else .ok (y.ews, y.flags, b, [])
  | none => .ok (y.ews, y.flags, b, [])

/-- Fill beats for each engine of a gang that starts on idle engines (R243, R677): on engines that are free when it issues (DESIGN
CHOICE, notes/assumptions/63). -/
def fillBeats (e : Env) (gang : Nat) : Acct := if e.fill then { Acct.zero with stall := 24 * engines gang } else Acct.zero

/-- PROD (R222, R236, R237, R377, R388): before its first tile it waits for the verdicts that decide its width (R393). -/
def prodRun (e : Env) (w : Nat) : Except Halt Plan := do
  let (p, win) ← prodIssue e w
  if win.any e.awaitsVerdicts then .error .wait
  else if p.m = 0 ∨ p.n = 0 then .ok {}
  else
    let ts ← each p.tiles (p.tile e win)
    let q := ts.flatMap fun t => t.2.2.2
    .ok { ews := ts.flatMap (·.1), flags := ts.foldl (fun f t => f ||| t.2.1) 0
          beats := (ts.foldl (fun b t => b.add t.2.2.1) Acct.zero).add (fillBeats e p.gang)
          taster := q, verdicts := q.length }

/-- Whether a mode epoch holds a new instruction of the core's die at issue (R680 step 2). -/
def epochHolds (e : Env) (taster : Bool) : Bool :=
  match e.s.modes.pending with
  | some p => p.taster == taster && (p.dies.contains e.die || p.late.contains e.die)
  | none => false

/-- PREC_SAMPLED and PREC_ESCALATED, saturating (R408). -/
def bumpPrec (s : State) (off n : Nat) : State := setReg s off (BitVec.ofNat 32 (sat32 ((getReg s off).toNat + n)))

end Sys2Proof.Machine
end

