-- ==== Sys2Proof/Machine/StdTables.lean ====
section
/-! DEFINITION. Machine/StdTables.lean: the functions of the built-in tables to about 100 bits, the error bounds R312 states
against them, and the stored endpoints, which are free data within what R312, R322 and R800 state of them. -/

namespace Sys2Proof.Machine

/-! ### Fixed point: an integer stands for that many units of 2^−128 -/

/-- 1. -/
def fxOne : Nat := 2 ^ 128
/-- ln 2. -/
def fxLn2 : Nat := 0xB17217F7D1CF79ABC9E3B39803F2F6AF
/-- 1 / √(2π). -/
def fxGauss : Nat := 0x662114CF50D942343F2CF1402EAE38BF
/-- A finite value not below 0. -/
def XV.fx (x : XV) : Nat := (x.abs.mul (.pow2 128)).floorInt.toNat
/-- The value of a fixed-point number with a sign. -/
def ofFx (neg : Bool) (v : Nat) : XV := .fin neg v (-128)

/-- Σ t^n ÷ n! from term `term` of index `n`, `fuel` terms. -/
def fxExpSum (fuel n t term : Nat) : Nat :=
  match fuel with
  | 0 => 0
  | k + 1 => term + fxExpSum k (n + 1) t (term * t / (fxOne * (n + 1)))

/-- e^t for 0 ≤ t < 1. -/
def fxExp (t : Nat) : Nat := fxExpSum 40 0 t fxOne

/-- e^−t for t ≥ 0: 2^−k e^(k ln 2 − t) with k = ⌈t ÷ ln 2⌉. -/
def fxExpNeg (t : Nat) : Nat :=
  let k := (t + fxLn2 - 1) / fxLn2
  fxExp (k * fxLn2 - t) / 2 ^ k

/-- Σ z^(2n+1) ÷ (2n+1) from the power `p` of index `n`. -/
def fxAtanhSum (fuel n z2 p : Nat) : Nat :=
  match fuel with
  | 0 => 0
  | k + 1 => p / (2 * n + 1) + fxAtanhSum k (n + 1) z2 (p * z2 / fxOne)

/-- log2 r for 1 ≤ r < 2. -/
def fxLog2 (r : Nat) : Nat :=
  let z := (r - fxOne) * fxOne / (r + fxOne)
  2 * fxAtanhSum 44 0 (z * z / fxOne) z * fxOne / fxLn2

/-- 1 ÷ (1 + e^−t) for t ≥ 0. -/
def fxLogistic (t : Nat) : Nat := fxOne * fxOne / (fxOne + fxExpNeg t)

/-- Σ t^(2n+1) ÷ (2n+1)!! from term `term` of index `n`. -/
def fxErfSum (fuel n t2 term : Nat) : Nat :=
  match fuel with
  | 0 => 0
  | k + 1 => term + fxErfSum k (n + 1) t2 (term * t2 / (fxOne * (2 * n + 3)))

/-- The normal distribution function at t ≥ 0. -/
def fxNormal (t : Nat) : Nat :=
  let t2 := t * t / fxOne
  fxOne / 2 + fxGauss * fxExpNeg (t2 / 2) / fxOne * fxErfSum 180 0 t2 t / fxOne

/-- A function of the logistic kind at x of either sign: `f` at |x|, and 1 − f there below 0. -/
def fxEven (f : Nat → Nat) (neg : Bool) (t : Nat) : Nat := if neg then fxOne - f t else f t

/-! ### The functions of R312 -/

/-- The function of built-in table `n` at a finite x in its domain; beyond ±64 SiLU, GELU, tanh and sigmoid have their limits. -/
def stdFun (n : Nat) (x : XV) : XV :=
  let e := x.log2floor
  let r := (x.abs.mul (.pow2 (-e))).fx
  let t := min x.fx (64 * fxOne)
  match n with
  | 1 => let k := x.floorInt
         (XV.pow2 k).mul (ofFx false (fxExp ((x.sub (XV.ofInt k)).fx * fxLn2 / fxOne)))
  | 2 => (XV.ofInt e).add (ofFx false (fxLog2 r))
  | 3 => (XV.pow2 (-e)).mul (ofFx x.neg (fxOne * fxOne / r))
  | 4 => (XV.pow2 (-(e / 2))).mul (ofFx false (fxOne * fxOne / isqrt (r * 2 ^ (e % 2).toNat * fxOne)))
  | 5 => x.mul (ofFx false (fxEven fxLogistic x.neg t))
  | 6 => x.mul (ofFx false (fxEven (fun t => fxNormal (min t (8 * fxOne))) x.neg t))
  | 7 => ofFx x.neg (2 * fxLogistic (2 * t) - fxOne)
  | _ => ofFx false (fxEven fxLogistic x.neg t)

/-- The error column of R312, in units of 10^−7. -/
def stdError (n : Nat) : Nat :=
  match n with
  | 1 => 40 | 2 => 60 | 3 => 77 | 4 => 120 | 5 => 20000 | 6 => 8000 | 7 => 7500 | _ => 3800

/-- How far the exact value may lie from the function: R312's bound, relative for tables 1, 3 and 4, rounded up by less than
2^−59. -/
def stdRoom (n : Nat) (y : XV) : XV :=
  let b : XV := .fin false (stdError n * 2 ^ 60 / 10000000 + 2) (-60)
  if n = 1 ∨ n = 3 ∨ n = 4 then y.abs.mul b else b

/-- Whether an exact value of built-in table `n` at x keeps R312's bound. -/
def inBound (n : Nat) (x v : XV) : Bool :=
  let y := stdFun n x
  let d := (v.sub y).abs
  !(stdRoom n y).lt d

/-! ### Tables and their exact values (R306 to R310) -/

/-- A table as it is evaluated. `red`: 0 NONE, 1 EXP2, 2 LOG2, 3 RCP, 4 RSQRT; `below` and `above`: 0 CLAMP, 1 IDENT, 2
ZERO; `std`: the number of a built-in table, 0 for a custom one. -/
structure Table where
  red : Nat
  g : Nat
  below : Nat
  above : Nat
  lo : XV
  shift : Int
  ys : List XV
  std : Nat := 0
  deriving DecidableEq, Repr

/-- The parameters of the built-in tables (R312), without endpoints. -/
def builtinShape (n : Nat) : Table :=
  let none_ := fun (lo shift : Int) (below above : Nat) => ({ red := 0, g := 7, below := below, above := above
                                                              lo := XV.ofInt lo, shift := shift, ys := [] } : Table)
  match n with
  | 5 => none_ (-16) (-2) 2 1
  | 6 => none_ (-8) (-3) 2 1
  | 7 => none_ (-8) (-3) 0 0
  | 8 => none_ (-16) (-2) 0 0
  | r => { red := r, g := 7, below := 0, above := 0, lo := XV.zero, shift := 0, ys := [] }

/-- The reduction of R308: u, and what makes the exact value from L. -/
def Table.reduce (t : Table) (x : XV) : XV × (XV → XV) :=
  let e := x.log2floor
  let r := x.abs.mul (.pow2 (-e))
  match t.red with
  | 0 => ((x.sub t.lo).mul (.pow2 (-t.shift)), id)
  | 1 => ((x.sub (XV.ofInt x.floorInt)).mul (.pow2 7), (XV.pow2 x.floorInt).mul)
  | 2 => ((r.sub XV.one).mul (.pow2 7), (XV.ofInt e).add)
  | 3 => ((r.sub XV.one).mul (.pow2 7), fun l => let v := (XV.pow2 (-e)).mul l
                                                 if x.neg then v.minus else v)
  | _ =>
    let q := x.mul (.pow2 (-(2 * (e / 2))))
    (if q.lt (XV.ofInt 2) then (q.sub XV.one).mul (.pow2 6) else (XV.ofInt 64).add ((q.sub (XV.ofInt 2)).mul (.pow2 5)),
      (XV.pow2 (-(e / 2))).mul)

/-- L of R308, or the CD6 path's value (R319). -/
def interp (vintage : Bool) (ys : List XV) (i : Nat) (frac : XV) : XV :=
  let y0 := ys.getD i XV.zero
  let y1 := ys.getD (i + 1) XV.zero
  let d := y1.sub y0
  if vintage then
    let s := (Fmt.bf16.round d).1
    let f16 := (XV.ofInt (frac.mul (.pow2 16)).floorInt).mul (.pow2 (-16))
    y0.add (s.mul f16)
  else y0.add (d.mul frac)

/-- A tail (R310). -/
def tail (t : Table) (code : Nat) (up : Bool) (x : XV) : XV :=
  if code = 1 then x else if code = 2 then XV.zero else t.ys.getD (if up then 2 ^ t.g else 0) XV.zero

/-- A table at a finite input, before rounding (R308, R310): the exact value that its endpoints and the fraction make. -/
def tableFin (t : Table) (vintage : Bool) (x : XV) : XV :=
  let u := (t.reduce x).1
  let i := u.floorInt
  if t.red != 0 && t.red != 1 && x.isZero then (if t.red = 2 then .inf true else .inf x.neg)
  else if t.red != 0 && t.red != 1 && t.red != 3 && x.neg then .nan
  else if i < 0 then tail t t.below false x
  else if (2 ^ t.g : Nat) ≤ i then tail t t.above true x
  else (t.reduce x).2 (interp vintage t.ys i.toNat (u.sub (XV.ofInt i)))

/-! ### The stored endpoints (R312, R800; notes/assumptions/17) -/

/-- The input at which segment `i` of a built-in table begins (R308). -/
def stdStart (n i : Nat) : XV :=
  match n with
  | 1 => .fin false i (-7)
  | 2 | 3 => .fin false (128 + i) (-7)
  | 4 => if i < 64 then .fin false (64 + i) (-6) else .fin false i (-5)
  | 5 | 8 => (XV.fin false i (-2)).sub (XV.ofInt 16)
  | _ => (XV.fin false i (-3)).sub (XV.ofInt 8)

/-- The endpoints R312 states for the CD9 set: Y_0 and Y_128 of tables 1 to 4. -/
def statedEndpoint (n i : Nat) : Option Nat :=
  if i = 0 ∧ 1 ≤ n ∧ n ≤ 4 then some (if n = 2 then 0 else 0x3F800000)
  else if i = 128 ∧ 1 ≤ n ∧ n ≤ 4 then some (if n = 1 then 0x40000000 else if n = 2 then 0x3F800000 else 0x3F000000)
  else none

/-- A finite word: one bit of the exponent is dropped where it would be an infinity or a NaN. -/
def finiteWord (w : Nat) : Nat := if (f32 w).isNan || (f32 w).isInf then Nat.xor w 0x800000 else w

/-- A set of words with the stated endpoints in their places. -/
def withStated (n : Nat) (f : Nat → Nat) : List Nat := (List.range 129).map fun i => (statedEndpoint n i).getD (f i)

/-- Whether R312's bound can hold in segment `i`: beside a stated endpoint of log2, the reciprocal and the reciprocal square root no
line over the segment keeps it. -/
def boundable (n : Nat) (i : Int) : Bool := !((n == 2 || n == 3 || n == 4) && (i == 0 || i == 127))

/-- Whether built-in table `n` with these endpoints keeps R312's bound at an input: within the domain of the function, and in its
tails. -/
def keepsAt (n : Nat) (ys : List XV) (x : XV) : Bool :=
  let t : Table := { builtinShape n with ys := ys }
  let dom := x.finite && (n == 1 || decide (5 ≤ n) || (!x.isZero && (n == 3 || !x.neg)))
  !dom || (decide (n ≤ 4) && !boundable n (t.reduce x).1.floorInt) || inBound n x (tableFin t false x)

/-- Whether endpoints run in one direction. -/
def monotone (up : Bool) (ys : List XV) : Bool :=
  (List.range 128).all fun i =>
    let a := ys.getD i XV.zero
    let b := ys.getD (i + 1) XV.zero
    if up then !b.lt a else !a.lt b

/-- Whether a set of words may be the CD9 set of table `n` (R311, R312, R800): the bound at every finite FP32 input, and the
monotonicity stated for all but SiLU and GELU. -/
def cd9Ok (n : Nat) (ws : List Nat) : Bool :=
  let ys := ws.map f32
  (n == 5 || n == 6 || monotone (n != 3 && n != 4) ys) && (List.range (2 ^ 32)).all fun w => keepsAt n ys (f32 w)

/-- How far the line over segment `i` lies from the function in its middle, with the function's own values at its ends. -/
def chordError (n i : Nat) : XV :=
  let a := stdStart n i
  let b := stdStart n (i + 1)
  let half := XV.pow2 (-1)
  (((stdFun n a).add (stdFun n b)).mul half).sub (stdFun n ((a.add b).mul half))

/-- The greater of two values by magnitude. -/
def larger (a b : XV) : XV := if a.abs.lt b.abs then b else a

/-- The function at endpoint `i` less half the greater error of the two lines that meet there: the words the model takes where the free
ones cannot be the set. -/
def balanced (n i : Nat) : Nat :=
  let c := if i = 0 then chordError n 0 else if i = 128 then chordError n 127 else larger (chordError n (i - 1)) (chordError n i)
  let x := if i = 128 ∧ n = 1 then XV.one else stdStart n i
  pat32 (round32 ((stdFun n x).sub (c.mul (.pow2 (-1))))).1

/-- The words of a CD9 set beside the stated ones. -/
def cd9Body (n : Nat) : List Nat :=
  let free := withStated n fun i => finiteWord (Config.tableEndpoint 0 n i).toNat
  if cd9Ok n free then free else (List.range 129).map (balanced n)

/-- The 129 words of a CD9 set (R312, R800). -/
def cd9Words (n : Nat) : List Nat := withStated n fun i => (cd9Body n).getD i 0

/-- The 129 words of a CD6 set, which differs from the CD9 set (R800). -/
def cd6Words (n : Nat) : List Nat :=
  let l := (List.range 129).map fun i => finiteWord (Config.tableEndpoint 1 n i).toNat
  if l = cd9Words n then l.set 1 (Nat.xor (l.getD 1 0) 1) else l

/-- The 129 endpoints of a built-in table: finite FP32 values (R800). -/
def stdSet (cd6 : Bool) (n : Nat) : List XV := (if cd6 then cd6Words n else cd9Words n).map f32

/-- One unit in the last place of a float format at a value (R101, R102). -/
def Fmt.ulp (f : Fmt) (x : XV) : XV :=
  let low : Int := 1 - f.bias - f.mbits
  .pow2 (if x.isZero then low else max (x.log2floor - f.mbits) low)

/-- An exact value of a CD6 standard table in a segment that runs from y0 to y1: rounded, it passes the output at y1 by at most one
unit in the last place (R322). -/
def stepHeld (f : Fmt) (y0 y1 v : XV) : XV :=
  let r := (f.round y1).1
  if r.isInf || r.isNan || v.isInf || v.isNan then v
  else
    let up := r.add (f.ulp r)
    let down := r.sub (f.ulp r)
    if y0.lt y1 && up.lt v then up else if y1.lt y0 && v.lt down then down else v

end Sys2Proof.Machine
end

