-- ==== Sys2Proof/Machine/Elem.lean ====
section
/-! DEFINITION. Machine/Elem.lean: the element units (R297 to R337): the vector forms of VEC, function tables and vintage
mode, blend programs, and the row statistics of FOLD. -/

namespace Sys2Proof.Machine

/-! ### Operands of the element units -/

/-- Formats the element units take (R299). -/
def Fmt.elemUnit : Fmt → Bool
  | .fp32 | .bf16 | .fp16 | .e4m3 | .e5m2 => true
  | _ => false

/-- Whether a descriptor may be an input, or a statistics operand. -/
def inputOk (d : Desc) : Bool := d.fmt.elemUnit
/-- Whether a descriptor may be an output (R299). -/
def outputOk (d : Desc) : Bool := d.fmt.elemUnit && !d.zc
/-- Whether a descriptor may hold statistics (R299). -/
def statOk (d : Desc) : Bool := d.fmt == .fp32 && !d.zc

/-- Whether an output coincides with an input (R300). -/
def Desc.coincides (a b : Desc) : Bool :=
  a.space == b.space && a.base == b.base && a.fmt == b.fmt && a.rank == b.rank && a.zc == b.zc && a.wr == b.wr &&
  a.zcCommon == b.zcCommon && a.dims == b.dims && a.strides == b.strides

/-- Any overlap of an output with an input but coinciding stops with BOUNDS (R300). -/
def noOverlap (out : Desc) (ins : List Desc) : Except Halt Unit :=
  need (ins.all fun d => out.coincides d || !out.overlaps d) .bounds

/-- The rows of an operand: its outer index tuples in row-major order. -/
def Desc.rows (d : Desc) : List (List Nat) := outerIdx d.dims

/-- An operand with its bound shape and no offset. -/
def Desc.whole (d : Desc) : Opnd := d.opnd 0

/-- Reads a row of values. -/
def rdRow (e : Env) (d : Desc) (outer : List Nat) : Except Halt (List XV) :=
  each (List.range (dim d.dims 0)) fun c => rdVal e d.whole (c :: outer)

/-- Row `r` of an operand's outer tuples. -/
def Desc.row (d : Desc) (r : Nat) : List Nat := d.rows.getD r [0, 0, 0]

/-- Joins the writes and flags of rows. -/
def joinRows (rs : List (List EW × Nat)) : Plan :=
  { ews := rs.flatMap (·.1), flags := rs.foldl (fun f r => f ||| r.2) 0 }

/-- Converts a row of exact values with their own flags and writes it. -/
def wrExact (o : Opnd) (outer : List Nat) (vs : List (XV × Nat)) : Except Halt (List EW × Nat) := do
  let (ws, fl) ← wrRow o outer (vs.map (·.1))
  .ok (ws, vs.foldl (fun f v => f ||| v.2) fl)

/-! ### VEC (R301 to R305) -/

/-- Fields of VEC. -/
def vOp (w : Nat) : Nat := bits w 63 56
/-- IMM. -/
def vImm (w : Nat) : XV := f32 (bits w 95 64)
/-- Whether a VOP takes no b (R302). -/
def unaryOp (v : Nat) : Bool := decide (8 ≤ v) && decide (v ≤ 11)

/-- Whether a VOP is listed for a shape (R302). -/
def vopOk (sub v : Nat) : Bool :=
  if sub = 3 then v == 0 || v == 4 || v == 5 || v == 12
  else if sub = 0 then decide (v ≤ 11) else decide (v ≤ 7)

/-- The lesser of two values, −0 below +0 (R303). -/
def xmin (a b : XV) : XV :=
  if a.isNan || b.isNan then .nan else if a.isZero && b.isZero then (if a.neg then a else b) else if b.lt a then b else a
/-- The greater of two values, +0 above −0 (R303). -/
def xmax (a b : XV) : XV :=
  if a.isNan || b.isNan then .nan else if a.isZero && b.isZero then (if a.neg then b else a) else if a.lt b then b else a

/-- The exact value of a vector operation and NAN_MADE (R302, R303). -/
def vecValue (v : Nat) (imm a b : XV) : XV × Nat :=
  let mk := fun (ins : List XV) (r : XV) => (r, madeFrom ins r)
  match v with
  | 0 => mk [a, b] (a.add b)
  | 1 => mk [a, b] (a.sub b)
  | 2 => mk [a, b] (a.mul b)
  | 3 => mk [a, b] (a.div b)
  | 4 => (xmin a b, 0)
  | 5 => (xmax a b, 0)
  | 6 => mk [a, imm, b] (a.add (imm.mul b))
  | 7 => mk [a, b, imm] ((a.mul b).add imm)
  | 8 => mk [a] a.sqrt
  | 9 => (a.abs, 0)
  | 10 => (a.minus, 0)
  | _ => (a, 0)

/-- One step of a REDUCE (R304). -/
def reduceStep (v : Nat) (acc a : XV) : XV × Nat :=
  if v = 12 then fma32 a a acc else let r := vecValue v XV.zero acc a
                                    let q := round32 r.1
                                    (q.1, q.2 ||| r.2)

/-- A row reduced (R304). -/
def reduceRow (v : Nat) (l : List XV) : XV × Nat :=
  match l with
  | [] => (if v = 4 then .inf false else if v = 5 then .inf true else XV.zero, 0)
  | x :: t =>
    let s := if v = 12 then mul32 x x else (x, 0)
    t.foldl (fun a y => let r := reduceStep v a.1 y
                        (r.1, a.2 ||| r.2)) s

/-- The descriptors and decode checks of a vector form of VEC (R299, R301, R302). -/
def vecChecks (e : Env) (w : Nat) : Except Halt (Desc × Option Desc × Desc) := do
  let sub := subOf w
  let v := vOp w
  need (zeros w [(127, 117)] && vopOk sub v) .formatUnsupported
  let dbNone := bits w 47 40 == 0xFF
  need (!(sub == 3 || unaryOp v) || dbNone) .formatUnsupported
  need (!(sub == 0 && dbNone && (v == 6 || v == 7))) .formatUnsupported
  let a ← slotDesc e (bits w 39 32)
  let b ← if sub = 0 ∨ sub = 3 then slotOpt e (bits w 47 40) else (slotDesc e (bits w 47 40)).map some
  let o ← slotDesc e (bits w 55 48)
  need (inputOk a && b.all inputOk && outputOk o) .formatUnsupported
  need (!bit w 112 || o.fmt == .bf16) .formatUnsupported
  need o.wr .stateIllegal
  .ok (a, b, o)

/-- Decode of VEC. -/
def vecPrep (e : Env) (w : Nat) : Except Halt Prep := do
  let (a, b, o) ← vecChecks e w
  .ok { bufs := a.bufs false ++ (b.map (·.bufs false)).getD [] ++ o.bufs true
        reads := sels [if bit w 112 then bits w 116 113 else 0], writes := [] }

/-- The shape requirements of R301. -/
def vecShapes (sub : Nat) (a : Desc) (b : Option Desc) (o : Desc) : Bool :=
  match sub with
  | 0 => a.dims == o.dims && b.all fun d => d.dims == o.dims
  | 1 => a.dims == o.dims && b.all fun d => d.rank == 1 && dim d.dims 0 == dim o.dims 0
  | 2 => a.dims == o.dims && b.all fun d => dim d.dims 0 == 1 && d.rows.length == o.rows.length
  | _ => dim o.dims 0 == 1 && o.rows.length == a.rows.length

/-- The b operand of a row: one value for each column (R301). -/
def vecB (e : Env) (w : Nat) (b : Option Desc) (r n : Nat) : Except Halt (List XV) :=
  match b with
  | none => .ok (List.replicate n (vImm w))
  | some d => match subOf w with
    | 0 => rdRow e d (d.row r)
    | 1 => rdRow e d [0, 0, 0]
    | _ => (rdVal e d.whole (0 :: d.row r)).map fun v => List.replicate n v

/-- One row of a vector form: exact values with their flags. -/
def vecRow (e : Env) (w : Nat) (a : Desc) (b : Option Desc) (r : Nat) : Except Halt (List (XV × Nat)) := do
  let xs ← rdRow e a (a.row r)
  if subOf w = 3 then .ok [reduceRow (vOp w) xs]
  else
    let bs ← vecB e w b r xs.length
    .ok (xs.zipWith (vecValue (vOp w) (vImm w)) bs)

/-- The check of a vector form at issue: its shapes and overlaps (R299 to R301). -/
def vecCheck (e : Env) (w : Nat) : Except Halt (Desc × Option Desc × Desc) := do
  let (a, b, o) ← vecChecks e w
  need (vecShapes (subOf w) a b o) .bounds
  noOverlap o (a :: b.toList)
  .ok (a, b, o)

/-- VEC in its vector forms. -/
def vecRun (e : Env) (w : Nat) : Except Halt Plan := do
  let (a, b, o) ← vecCheck e w
  let rs ← each (List.range o.rows.length) fun r => do
    let vs ← vecRow e w a b r
    if bit w 112 then
      let ps := vs.map fun v => let q := round32 v.1
                                (q.1, q.2 ||| v.2)
      let key : SrKey := { seed := e.j.seed, tag := bits w 111 96, step := e.xn (bits w 116 113) }
      let (ws, fl) ← wrRowSr o.whole (o.row r) key r (ps.map (·.1))
      .ok (ws, ps.foldl (fun f p => f ||| p.2) fl)
    else wrExact o.whole (o.row r) vs
  .ok (joinRows rs)

/-! ### Function tables (R306 to R323) -/

/-- A built-in table with the CD9 or the CD6 endpoints. -/
def builtinTable (cd6 : Bool) (n : Nat) : Table := { builtinShape n with ys := stdSet cd6 n, std := n }

/-- The header checks of R307. -/
def tableHeaderOk (h : Bytes) : Bool :=
  let red := field h 1 1
  let g := field h 2 1
  let tails := field h 3 1
  let sh := signed 8 (field h 8 1)
  if field h 0 1 ≠ 0 then decide (field h 0 1 ≤ 8) && zeroAt h 1 63
  else
    decide (red ≤ 4) && decide (g ≤ 7) && (red == 0 || g == 7) &&
    decide (bits tails 1 0 ≤ 2) && decide (bits tails 3 2 ≤ 2) && bits tails 7 4 == 0 && (red == 0 || tails == 0) &&
    (if red = 0 then (f32 (field h 4 4)).finite && decide (-32 ≤ sh) && decide (sh ≤ 32)
     else field h 4 4 == 0 && field h 8 1 == 0) &&
    zeroAt h 9 55

/-- The number of bytes of an image (R307). -/
def tableLen (h : Bytes) : Nat := if field h 0 1 ≠ 0 then 64 else 64 + 4 * (2 ^ field h 2 1 + 1)

/-- The table an image holds, on the CD9 or the CD6 path. -/
def tableOf (cd6 : Bool) (b : Bytes) : Table :=
  let n := field b 0 1
  if n ≠ 0 then builtinTable cd6 n
  else
    let g := field b 2 1
    let t := field b 3 1
    { red := field b 1 1, g := g, below := bits t 1 0, above := bits t 3 2, lo := f32 (field b 4 4)
      shift := signed 8 (field b 8 1), ys := (List.range (2 ^ g + 1)).map fun i => f32 (field b (64 + 4 * i) 4) }

/-- A table at any input, before rounding, with NAN_MADE (R310). -/
def tableAt (t : Table) (vintage : Bool) (x : XV) : XV × Nat :=
  let r := match x with
    | .nan => XV.nan
    | .inf n =>
      if t.red = 0 then tail t (if n then t.below else t.above) (!n) x
      else if t.red = 1 then (if n then XV.zero else .inf false)
      else if t.red = 2 then (if n then .nan else .inf false)
      else if t.red = 3 then .fin n 0 0
      else if n then .nan else XV.zero
    | _ => tableFin t vintage x
  (r, madeFrom [x] r)

/-- FUNC APPLY on one element: on the CD6 path a standard table's steps at its seams are held to R322's one unit (R319, R321,
R322; notes/assumptions/17). -/
def applyElem (t : Table) (vintage : Bool) (f : Fmt) (x : XV) : XV × Nat :=
  let v := tableAt t vintage x
  let r := t.reduce x
  let i := r.1.floorInt
  if !vintage || t.std == 0 || x.isNan || x.isInf || i < 0 || (2 ^ t.g : Nat) ≤ i then v
  else (stepHeld f (r.2 (t.ys.getD i.toNat XV.zero)) (r.2 (t.ys.getD (i.toNat + 1) XV.zero)) v.1, v.2)

/-- The image an APPLY or a LOOKUP evaluates: STATE_ILLEGAL for an empty table, FORMAT_UNSUPPORTED for an invalid one
(R317). -/
def tableBank (e : Env) (t : Nat) : Except Halt Bytes :=
  match (e.k.tables.getD t (.empty, .empty)).1 with
  | .empty => .error (.stop .stateIllegal)
  | .invalid => .error (.stop .formatUnsupported)
  | .image b => .ok b

/-- Input and output of an element-wise instruction: bound, of the formats of R299. -/
def pairChecks (e : Env) (w : Nat) : Except Halt (Desc × Desc) := do
  let a ← slotDesc e (bits w 39 32)
  let o ← slotDesc e (bits w 47 40)
  need (inputOk a && outputOk o) .formatUnsupported
  need o.wr .stateIllegal
  .ok (a, o)

/-- Decode of FUNC APPLY and BLEND RUN. -/
def pairPrep (resv : List (Nat × Nat)) (e : Env) (w : Nat) : Except Halt Prep := do
  need (zeros w resv) .formatUnsupported
  let (a, o) ← pairChecks e w
  .ok { bufs := a.bufs false ++ o.bufs true, reads := [], writes := [] }

/-- The check at issue of an element-wise instruction: one shape, no overlap but coinciding buffers (R299, R300). -/
def pairCheck (e : Env) (w : Nat) : Except Halt (Desc × Desc) := do
  let (a, o) ← pairChecks e w
  need (a.dims == o.dims) .bounds
  noOverlap o [a]
  .ok (a, o)

/-- Maps every element of an input into an output of the same shape. -/
def mapElems (e : Env) (a o : Desc) (f : XV → XV × Nat) : Except Halt Plan := do
  let rs ← each o.rows fun outer => do
    let xs ← rdRow e a outer
    wrExact o.whole outer (xs.map f)
  .ok (joinRows rs)

/-- Vintage mode as the die of a core runs it. -/
def Env.vintage (e : Env) : Bool := (getDie e.s e.die).vintage

/-- FUNC APPLY at issue (R299, R300, R321). -/
def applyCheck (e : Env) (w : Nat) : Except Halt (Desc × Desc) := do
  let (a, o) ← pairCheck e w
  need (!e.vintage || o.fmt.float16) .formatUnsupported
  .ok (a, o)

/-- FUNC APPLY (R309, R319, R321) in the mode in force when it starts (R323); its table must be valid then (R317). -/
def applyRun (e : Env) (w : Nat) : Except Halt Plan := do
  let (a, o) ← applyCheck e w
  let b ← tableBank e (bits w 49 48)
  mapElems e a o (applyElem (tableOf e.vintage b) e.vintage o.fmt)

/-- Decode of FUNC RELOAD and BLEND LOAD: DOUT names no slot (R166). -/
def loadPrep (resv : List (Nat × Nat)) (e : Env) (w : Nat) : Except Halt Prep := do
  need (zeros w resv && bits w 47 40 == 0xFF) .formatUnsupported
  let a ← slotDesc e (bits w 39 32)
  .ok { bufs := a.bufs false, reads := [], writes := [] }

/-- The image descriptor of a load: UINT8, rank 1, a span of at least 64 bytes (R315), not ZC (R372). -/
def imageDesc (e : Env) (w : Nat) : Except Halt Desc := do
  let a ← slotDesc e (bits w 39 32)
  need (!a.zc) .formatUnsupported
  need (a.fmt == .uint8 && a.rank == 1 && decide (64 ≤ a.span)) .bounds
  .ok a

/-- The bank a table image makes (R307, R315). Of an image whose header fails no endpoint is read (DESIGN CHOICE,
notes/assumptions/81). -/
def tableImage (e : Env) (a : Desc) : Except Halt TableBank := do
  let h ← rdMain e a a.base 64
  if !tableHeaderOk h then .ok .invalid
  else
    let b ← rdMain e a a.base (tableLen h)
    let n := if field h 0 1 ≠ 0 then 0 else 2 ^ field h 2 1 + 1
    .ok (if (List.range n).all fun i => (f32 (field b (64 + 4 * i) 4)).finite then .image b else .invalid)

/-- FUNC RELOAD: the image goes to the shadow bank; the banks swap when it completes (R315). -/
def reloadRun (e : Env) (w : Nat) : Except Halt Plan := do
  let a ← imageDesc e w
  let b ← tableImage e a
  .ok { shadow := some (bits w 49 48, b) }

/-! ### Blend programs (R324 to R331) -/

/-- A step's fields (R326). -/
structure BStep where
  op : Nat
  dst : Nat
  sa : Nat
  sb : Nat
  sc : Nat
  table : Nat
  imm : Nat
  deriving DecidableEq, Repr

/-- Reads a step. -/
def stepOf (w : Nat) : BStep :=
  { op := bits w 7 0, dst := bits w 10 8, sa := bits w 13 11, sb := bits w 16 14, sc := bits w 19 17, table := bits w 21 20
    imm := bits w 63 32 }

/-- Whether an OP is defined (R327). -/
def blendOp (op : Nat) : Bool :=
  [0x01, 0x02, 0x03, 0x04, 0x05, 0x08, 0x10, 0x11, 0x18, 0x19, 0x1A, 0x20, 0x21].contains op

/-- Whether an OP uses IMM. -/
def usesImm (op : Nat) : Bool := [0x03, 0x04, 0x05, 0x11, 0x20].contains op

/-- The checks of R326 on a step; a SELECT names one of the four conditions of R327. -/
def stepOk (w : Nat) : Bool :=
  let x := stepOf w
  blendOp x.op && bits w 31 22 == 0 && (x.op == 0x08 || x.table == 0) && (usesImm x.op || x.imm == 0) &&
  (x.op != 0x20 || decide (x.imm ≤ 3))

/-- The steps of an image. -/
def blendSteps (b : Bytes) : List Nat := (List.range (field b 0 1)).map fun j => field b (64 + 8 * j) 8

/-- A lane: b0 to b7, E, flags. -/
structure Lane where
  b : List XV
  e : Int
  fl : Nat
  deriving DecidableEq, Repr

/-- Reads a blend register. -/
def Lane.r (l : Lane) (i : Nat) : XV := l.b.getD i XV.zero

/-- Writes a blend register, with flags. -/
def Lane.put (l : Lane) (i : Nat) (v : XV × Nat) : Lane := { l with b := l.b.set i v.1, fl := l.fl ||| v.2 }

/-- The reciprocal seed (R328). -/
def rseed (x : XV) : XV × Nat :=
  match x with
  | .nan => (.nan, 0)
  | .inf n => (.fin n 0 0, 0)
  | .fin n m e =>
    if m = 0 then (.inf n, 0)
    else
      let lg := e + m.log2
      let j := ((x.abs.mul (.pow2 (7 - lg))).floorInt - 128).toNat
      let d := 257 + 2 * j
      round32 (.fin n ((2 * 131072 + d) / (2 * d)) (-lg - 9))

/-- SPLIT_INT's fraction and exponent (R327). -/
def splitInt (x : XV) : XV × Int :=
  match x with
  | .nan => (.nan, 0)
  | .inf n => (XV.zero, if n then -1024 else 1024)
  | _ =>
    let k := x.floorInt
    let d := x.sub (XV.ofInt k)
    (if d.isZero then XV.zero else d, max (-1024) (min 1024 k))

/-- SPLIT_EXP's mantissa and exponent (R327). -/
def splitExp (x : XV) : XV × Int :=
  match x with
  | .fin _ (_ + 1) _ => (x.mul (.pow2 (-x.log2floor)), x.log2floor)
  | _ => (x, 0)

/-- SELECT's conditions (R327). -/
def blendCond (c : Nat) (x : XV) : Bool :=
  let neg := !x.isNan && !x.isZero && x.neg
  match c with
  | 0 => !neg
  | 1 => neg
  | 2 => x.isNan
  | _ => x.isInf

/-- One step of a lane (R327). -/
def Lane.step (tables : List Table) (l : Lane) (s : BStep) : Lane :=
  let a := l.r s.sa
  let b := l.r s.sb
  let c := l.r s.sc
  let imm := f32 s.imm
  match s.op with
  | 0x01 => { l.put s.dst ((splitInt a).1, 0) with e := (splitInt a).2 }
  | 0x02 => { l.put s.dst ((splitExp a).1, 0) with e := (splitExp a).2 }
  | 0x03 => l.put s.dst (round32 (a.mul (.pow2 (l.e + signed 32 s.imm))))
  | 0x04 => l.put s.dst (fin32 [a, imm] (a.add ((XV.ofInt l.e).mul imm)))
  | 0x05 => l.put s.dst (imm, 0)
  | 0x08 =>
    let t := tableAt (tables.getD s.table (builtinShape 1)) false a
    l.put s.dst ((round32 t.1).1, (round32 t.1).2 ||| t.2)
  | 0x10 => l.put s.dst (fma32 a b c)
  | 0x11 => l.put s.dst (fma32 a imm b)
  | 0x18 => l.put s.dst (rseed a)
  | 0x19 => l.put s.dst (fin32 [a, b] (b.mul ((XV.ofInt 2).sub (a.mul b))))
  | 0x1A => l.put s.dst (fin32 [a, b] ((b.mul ((XV.ofInt 3).sub ((a.mul b).mul b))).mul (.pow2 (-1))))
  | 0x20 => l.put s.dst (if blendCond s.imm c then a else b, 0)
  | _ => l.put s.dst (xmin (xmax a b) c, 0)

/-- A lane's whole run (R329). -/
def blendLane (tables : List Table) (steps : List BStep) (x : XV) : XV × Nat :=
  let l := steps.foldl (Lane.step tables) { b := x :: List.replicate 7 XV.zero, e := 0, fl := 0 }
  (l.r 0, l.fl)

/-- The tables LOOKUP steps name. -/
def lookups (steps : List BStep) : List Nat := (List.range 4).filter fun t => steps.any fun s => s.op == 0x08 && s.table == t

/-- The tables of LOOKUP steps, checked under R317; tables that no step names are not looked at. -/
def lookupTables (e : Env) (steps : List BStep) : Except Halt (List Table) :=
  each (List.range 4) fun t =>
    if (lookups steps).contains t then (tableBank e t).map (tableOf false)
    else .ok (builtinShape 1)

/-- The steps of a slot's program. -/
def slotSteps (b : BlendSlot) : List BStep :=
  match b with
  | .image b => (blendSteps b).map stepOf
  | .invalid => []

/-- BLEND RUN (R329, R330): its slot, and the tables its steps look up, must be valid when it starts (R317). -/
def blendRunRun (e : Env) (w : Nat) : Except Halt Plan := do
  let (a, o) ← pairCheck e w
  match e.k.blend.getD (bits w 51 48) none with
  | none => .error (.stop .stateIllegal)
  | some .invalid => .error (.stop .formatUnsupported)
  | some b =>
    let ts ← lookupTables e (slotSteps b)
    mapElems e a o (blendLane ts (slotSteps b))

/-- The slot a blend image makes (R325, R330). Of an image whose header breaks R325 no step is read (DESIGN CHOICE,
notes/assumptions/81). -/
def blendImage (e : Env) (a : Desc) : Except Halt BlendSlot := do
  let h ← rdMain e a a.base 64
  let n := field h 0 1
  if n = 0 ∨ 32 < n ∨ !zeroAt h 1 63 then .ok .invalid
  else
    let b ← rdMain e a a.base (64 + 8 * n)
    .ok (if (blendSteps b).all stepOk then .image b else .invalid)

/-- BLEND LOAD (R324). -/
def blendLoadRun (e : Env) (w : Nat) : Except Halt Plan := do
  let a ← imageDesc e w
  let b ← blendImage e a
  .ok { blend := some (bits w 51 48, b) }

/-! ### FOLD (R332 to R337) -/

/-- A statistics record: COUNT, MEAN, M2, SUMSQ (R332), with flags. -/
structure Stat where
  n : XV
  mean : XV
  m2 : XV
  sq : XV
  deriving DecidableEq, Repr

/-- The empty record. -/
def Stat.empty : Stat := { n := XV.zero, mean := XV.zero, m2 := XV.zero, sq := XV.zero }

/-- One element into a record (R333). -/
def Stat.push (s : Stat × Nat) (x : XV) : Stat × Nat :=
  let r := s.1
  let n := add32 r.n XV.one
  let d := sub32 x r.mean
  let mean := fin32 [r.mean, d.1, n.1] (r.mean.addQuot d.1 n.1)
  let m2 := fin32 [r.m2, d.1, x, mean.1] (r.m2.add (d.1.mul (x.sub mean.1)))
  let sq := fma32 x x r.sq
  ({ n := n.1, mean := mean.1, m2 := m2.1, sq := sq.1 }, s.2 ||| n.2 ||| d.2 ||| mean.2 ||| m2.2 ||| sq.2)

/-- Two records merged (R334). -/
def Stat.merge (s : Stat × Nat) (b : Stat) : Stat × Nat :=
  let a := s.1
  if b.n.isZero then s
  else if a.n.isZero then (b, s.2)
  else
    let n := add32 a.n b.n
    let d := sub32 b.mean a.mean
    let mean := fin32 [a.mean, d.1, b.n, n.1] (a.mean.addQuot (d.1.mul b.n) n.1)
    let m2 := fin32 [a.m2, b.m2, d.1, a.n, b.n, n.1]
      ((a.m2.add b.m2).addQuot (((d.1.mul d.1).mul a.n).mul b.n) n.1)
    let sq := add32 a.sq b.sq
    ({ n := n.1, mean := mean.1, m2 := m2.1, sq := sq.1 }, s.2 ||| n.2 ||| d.2 ||| mean.2 ||| m2.2 ||| sq.2)

/-- The words of a record. -/
def Stat.words (s : Stat) : List XV := [s.n, s.mean, s.m2, s.sq]

/-- Reads the record of group `g` of a row. -/
def rdStat (e : Env) (d : Desc) (g : Nat) (outer : List Nat) : Except Halt Stat := do
  let v ← each (List.range 4) fun i => rdVal e d.whole ((4 * g + i) :: outer)
  .ok { n := v.getD 0 XV.zero, mean := v.getD 1 XV.zero, m2 := v.getD 2 XV.zero, sq := v.getD 3 XV.zero }

/-- Decode of FOLD STATS and MERGE: DOUT and DSCALE name no slot (R166). -/
def statPrep (e : Env) (w : Nat) : Except Halt Prep := do
  need (zeros w [(127, 64)] && bits w 47 40 == 0xFF && bits w 63 56 == 0xFF) .formatUnsupported
  let a ← slotDesc e (bits w 39 32)
  let d ← slotDesc e (bits w 55 48)
  need (inputOk a && statOk d) .formatUnsupported
  need d.wr .stateIllegal
  .ok { bufs := a.bufs false ++ d.bufs true, reads := [], writes := [] }

/-- The descriptors of FOLD STATS and its checks at issue (R299, R300, R333). -/
def statsCheck (e : Env) (w : Nat) : Except Halt (Desc × Desc) := do
  let a ← slotDesc e (bits w 39 32)
  let d ← slotDesc e (bits w 55 48)
  let g := dim d.dims 0 / 4
  let n := dim a.dims 0
  need (dim d.dims 0 % 4 == 0 && d.rows.length == a.rows.length && (g != 0 || n == 0) && n % g == 0) .bounds
  need (decide (n / g ≤ 16777216)) .formatUnsupported
  noOverlap d [a]
  .ok (a, d)

/-- FOLD STATS (R333). -/
def statsRun (e : Env) (w : Nat) : Except Halt Plan := do
  let (a, d) ← statsCheck e w
  let g := dim d.dims 0 / 4
  let n := dim a.dims 0
  let rs ← each (List.range d.rows.length) fun r => do
    let xs ← rdRow e a (a.row r)
    let ss := (List.range g).map fun i => ((xs.drop (n / g * i)).take (n / g)).foldl Stat.push (Stat.empty, 0)
    wrExact d.whole (d.row r) (ss.flatMap fun s => s.1.words.map fun v => (v, s.2))
  .ok (joinRows rs)

/-- The descriptors of FOLD MERGE and its checks at issue (R299, R300, R334). -/
def mergeCheck (e : Env) (w : Nat) : Except Halt (Desc × Desc) := do
  let a ← slotDesc e (bits w 39 32)
  let d ← slotDesc e (bits w 55 48)
  need (a.fmt == .fp32) .formatUnsupported
  need (a.rank == 3 && dim d.dims 0 % 4 == 0 && dim a.dims 0 == dim d.dims 0 && d.rows.length == dim a.dims 1) .bounds
  noOverlap d [a]
  .ok (a, d)

/-- FOLD MERGE (R334). -/
def mergeRun (e : Env) (w : Nat) : Except Halt Plan := do
  let (a, d) ← mergeCheck e w
  let g := dim d.dims 0 / 4
  let rs ← each (List.range d.rows.length) fun r => do
    let ss ← each (List.range g) fun i => do
      let ps ← each (List.range (dim a.dims 2)) fun k => rdStat e a i [r, k, 0]
      .ok (match ps with
        | [] => (Stat.empty, 0)
        | p :: t => t.foldl Stat.merge (p, 0))
    wrExact d.whole (d.row r) (ss.flatMap fun s => s.1.words.map fun v => (v, s.2))
  .ok (joinRows rs)

/-- The descriptors of FOLD NORM; the statistics are an input here and may be in ZC form (R299). -/
def normDescs (e : Env) (w : Nat) : Except Halt (Desc × Desc × Desc × Option Desc) := do
  need (zeros w [(127, 64)]) .formatUnsupported
  let a ← slotDesc e (bits w 39 32)
  let o ← slotDesc e (bits w 47 40)
  let d ← slotDesc e (bits w 55 48)
  let sc ← slotOpt e (bits w 63 56)
  need (inputOk a && outputOk o && d.fmt == .fp32 && sc.all inputOk && (sc.isSome || a.fmt == .fp32)) .formatUnsupported
  need o.wr .stateIllegal
  .ok (a, o, d, sc)

/-- Decode of FOLD NORM. -/
def normPrep (e : Env) (w : Nat) : Except Halt Prep := do
  let (a, o, d, sc) ← normDescs e w
  .ok { bufs := a.bufs false ++ d.bufs false ++ (sc.map (·.bufs false)).getD [] ++ o.bufs true, reads := [], writes := [] }

/-- The mean, 1/√v and flags of a record (R335). -/
def normScale (s : Stat) (eps : XV) : XV × Nat :=
  let v := fin32 [s.m2, s.n, eps] (eps.addQuot s.m2 s.n)
  let rs := fin32 [v.1] v.1.rsqrt
  (rs.1, v.2 ||| rs.2)

/-- One standardised element (R335). -/
def normElem (s : Stat) (rs : XV × Nat) (x gamma beta : XV) : XV × Nat :=
  if s.n.isZero then (beta, 0)
  else
    let r := (((x.sub s.mean).mul rs.1).mul gamma).add beta
    (r, rs.2 ||| madeFrom [x, s.mean, rs.1, gamma, beta] r)

/-- The checks of FOLD NORM at issue, with a scale operand (R335) or without one (R336). -/
def normCheck (e : Env) (w : Nat) : Except Halt (Desc × Desc × Desc × Option Desc) := do
  let (a, o, d, sc) ← normDescs e w
  let n := dim a.dims 0
  match sc with
  | some x =>
    let g := dim d.dims 0 / 4
    need (a.dims == o.dims && x.rank == 1 && dim x.dims 0 == 2 * n + 1 && dim d.dims 0 % 4 == 0 && (g != 0 || n == 0) &&
      n % g == 0 && (d.rows.length == a.rows.length || d.rows.length == 1)) .bounds
    noOverlap o [a, d, x]
  | none =>
    let h := dim d.dims 0 / 2
    need (a.dims == o.dims && dim d.dims 0 % 2 == 0 && (h != 0 || n == 0) && n % h == 0 && d.rows.length == a.rows.length) .bounds
    noOverlap o [a, d]
  .ok (a, o, d, sc)

/-- FOLD NORM with a scale operand (R335). -/
def normRun (e : Env) (a o d sc : Desc) : Except Halt Plan := do
  let n := dim a.dims 0
  let g := dim d.dims 0 / 4
  let scale ← rdRow e sc [0, 0, 0]
  let rs ← each (List.range a.rows.length) fun r => do
    let xs ← rdRow e a (a.row r)
    let dr := if d.rows.length = 1 then d.row 0 else d.row r
    let ss ← each (List.range g) fun i => rdStat e d i dr
    let ks := ss.map fun s => normScale s (scale.getD 0 XV.zero)
    wrExact o.whole (o.row r) (xs.mapIdx fun c x =>
      let i := c / (n / g)
      normElem (ss.getD i .empty) (ks.getD i (XV.zero, 0)) x (scale.getD (1 + c) XV.zero) (scale.getD (1 + n + c) XV.zero))
  .ok (joinRows rs)

/-- FOLD NORM without a scale operand divides a carried attention output (R336). -/
def carryRun (e : Env) (a o d : Desc) : Except Halt Plan := do
  let n := dim a.dims 0
  let h := dim d.dims 0 / 2
  let rs ← each (List.range a.rows.length) fun r => do
    let xs ← rdRow e a (a.row r)
    let st ← rdRow e d (d.row r)
    wrExact o.whole (o.row r) (xs.mapIdx fun c x =>
      let l := st.getD (2 * (c / (n / h)) + 1) XV.zero
      if l.isZero && !l.neg then (XV.zero, 0) else (x.quot l, madeFrom [x, l] (x.quot l)))
  .ok (joinRows rs)

/-- FOLD NORM. -/
def foldNormRun (e : Env) (w : Nat) : Except Halt Plan := do
  let (a, o, d, sc) ← normCheck e w
  match sc with
  | some x => normRun e a o d x
  | none => carryRun e a o d

end Sys2Proof.Machine
end

