-- ==== Sys2Proof/Machine/Attn.lean ====
section
/-! DEFINITION. Machine/Attn.lean: attention (R256 to R285) in its WINDOW, CROSS and PIECE forms, and the pass reuse check
LEES (R286 to R296). -/

namespace Sys2Proof.Machine

/-! ### The parameter block (R257) -/

/-- The parameter block of ATTN; triples are in (t, y, x) order. -/
structure AttnPar where
  grid : List Nat
  qorg : List Nat
  korg : List Nat
  qb : List Nat
  wrap : List Nat
  win : List Nat
  offs : List Int
  headDim : Nat
  heads : Nat
  groups : Nat
  scale : XV
  globals : Nat
  dgk : Nat
  dgv : Nat
  dmask : Nat
  semK : Nat
  semV : Nat
  chunk : Nat
  workBase : Nat
  workBytes : Nat
  deriving DecidableEq, Repr

/-- Entry `i` of a triple. -/
def ax (l : List Nat) (i : Nat) : Nat := l.getD i 0

/-- Reads the 64 bytes of a parameter block. -/
def attnParOf (b : Bytes) : AttnPar :=
  let three := fun (o n : Nat) => (List.range 3).map fun i => field b (o + n * i) n
  { grid := three 0 2, qorg := three 8 2, korg := three 16 2, qb := three 24 1
    wrap := (List.range 3).map fun i => bits (field b 27 1) (2 * i + 1) (2 * i)
    win := three 28 1, offs := (three 32 1).map (signed 8), headDim := field b 36 2, heads := field b 38 1
    groups := field b 39 1, scale := f32 (field b 40 4), globals := field b 44 2, dgk := field b 46 1, dgv := field b 47 1
    dmask := field b 48 1, semK := field b 49 1, semV := field b 31 1, chunk := field b 50 2
    workBase := field b 52 4, workBytes := field b 56 4 }

/-- The reserved bytes and bits of a parameter block are 0. -/
def attnResvOk (b : Bytes) : Bool :=
  zeroAt b 6 2 && zeroAt b 14 2 && zeroAt b 22 2 && zeroAt b 35 1 && zeroAt b 60 4 && bits (field b 27 1) 7 6 == 0

/-- Rows of the query block, R283's rows. -/
def AttnPar.rows (p : AttnPar) : Nat := ax p.qb 0 * ax p.qb 1 * ax p.qb 2

/-- Every field lies in its range, for SUBOP `sub` (R257, R280). -/
def AttnPar.rangesOk (p : AttnPar) (sub : Nat) : Bool :=
  let within := fun (x lo hi : Nat) => decide (lo ≤ x) && decide (x ≤ hi)
  p.grid.all (fun g => g != 0) && p.qb.all (fun q => q != 0) && decide (p.rows ≤ 1024) && p.wrap.all (fun e => decide (e ≤ 1)) &&
  within (ax p.win 0) 1 32 && within (ax p.win 1) 1 64 && within (ax p.win 2) 1 64 &&
  within p.headDim 8 128 && p.headDim % 8 == 0 && within p.heads 1 16 && p.groups != 0 && decide (p.globals ≤ 4096) &&
  p.workBase % 64 == 0 &&
  ((List.range 3).all fun a => ax p.wrap a == 0 || decide (ax p.win a ≤ ax p.grid a)) &&
  (sub != 1 || (p.globals == 0 && p.dmask == 0xFF)) && (sub == 2 || p.chunk == 0)

/-! ### Operands -/

/-- Formats of queries, keys and values (R267). -/
def Fmt.attnIn : Fmt → Bool
  | .bf16 | .fp16 | .e4m3 | .e5m2 => true
  | _ => false

/-- The descriptors an ATTN uses. -/
structure AttnOps where
  q : Desc
  k : Desc
  v : Desc
  o : Desc
  par : Desc
  stat : Option Desc
  gk : Option Desc
  gv : Option Desc
  mask : Option Desc
  deriving DecidableEq, Repr

/-- Whether STAT_IN is set. -/
def statIn (w : Nat) : Bool := bit w 96

/-- The descriptors the instruction itself names, and their formats (R210, R267, R274). A rank below 4 of DQ, DK, DV or DO is taken as
a box whose outer extents are 1 (R258; DESIGN CHOICE, notes/assumptions/82). -/
def attnDescs (e : Env) (w : Nat) : Except Halt AttnOps := do
  need (zeros w [(79, 72), (87, 84), (127, 97)]) .formatUnsupported
  let q ← slotDesc e (bits w 39 32)
  let k ← slotDesc e (bits w 47 40)
  let v ← slotDesc e (bits w 55 48)
  let o ← slotDesc e (bits w 63 56)
  let par ← slotDesc e (bits w 71 64)
  let stat ← slotOpt e (bits w 95 88)
  need (o.wr && stat.all (·.wr)) .stateIllegal
  need (par.fmt == .uint8 && par.rank == 1 && decide (64 ≤ par.span)) .bounds
  need (!q.zc && !k.zc && !v.zc && !o.zc && !par.zc && stat.all fun d => !d.zc) .formatUnsupported
  need (q.fmt.attnIn && k.fmt.attnIn && v.fmt.attnIn && (pairM q.fmt k.fmt 0).isSome) .formatUnsupported
  need (if stat.isSome then o.fmt == .fp32 else o.fmt.attnIn || o.fmt == .fp32) .formatUnsupported
  need (stat.all fun d => d.fmt == .fp32) .formatUnsupported
  need (!statIn w || stat.isSome) .formatUnsupported
  .ok { q := q, k := k, v := v, o := o, par := par, stat := stat, gk := none, gv := none, mask := none }

/-- The operands the parameter block names (R264, R267, R280): a slot named is bound, also where no global token is used. -/
def attnExtra (e : Env) (a : AttnOps) (p : AttnPar) : Except Halt AttnOps := do
  let gk ← if p.globals = 0 then slotOpt e p.dgk else (slotDesc e p.dgk).map some
  let gv ← if p.globals = 0 then slotOpt e p.dgv else (slotDesc e p.dgv).map some
  let mask ← slotOpt e p.dmask
  need (gk.all (fun d => !d.zc && d.fmt == a.k.fmt) && gv.all (fun d => !d.zc && d.fmt == a.v.fmt) && mask.all fun d => !d.zc)
    .formatUnsupported
  .ok { a with gk := gk, gv := gv, mask := mask }

/-- The extents of a box in (t, y, x) order (R258). -/
def Desc.box (d : Desc) : List Nat := [dim d.dims 3, dim d.dims 2, dim d.dims 1]

/-- Channels of the layer. -/
def AttnPar.channels (p : AttnPar) : Nat := p.heads * p.groups * p.headDim

/-- Query blocks along an axis (R259). -/
def AttnPar.blocks (p : AttnPar) (q : Desc) (a : Nat) : Nat := cdiv (ax q.box a) (ax p.qb a)

/-- A global operand: the layer's channels, at least GLOBAL_COUNT rows, rank 2 (R264). A rank above 2 stops with BOUNDS, as a shape of
R280 does, and rank 1 is taken as one row (DESIGN CHOICE, notes/assumptions/82). -/
def AttnPar.globalOk (p : AttnPar) (d : Desc) : Bool :=
  dim d.dims 0 == p.channels && decide (p.globals ≤ dim d.dims 1) && decide (d.rank ≤ 2)

/-- The shapes of R280. DK in CROSS has rank 2 (R265); another rank is taken as for a global operand (notes/assumptions/82). -/
def attnShapesOk (a : AttnOps) (p : AttnPar) (cross : Bool) : Bool :=
  dim a.q.dims 0 == p.channels && dim a.k.dims 0 == p.channels && dim a.v.dims 0 == p.channels &&
  a.v.dims.drop 1 == a.k.dims.drop 1 && a.gk.all p.globalOk && a.gv.all p.globalOk && a.o.dims == a.q.dims &&
  a.stat.all (fun d => d.dims == (2 * p.heads * p.groups) :: a.q.dims.drop 1) && (!cross || decide (a.k.rank ≤ 2))

/-- The boxes lie within the grid (R280). -/
def attnBoxesOk (a : AttnOps) (p : AttnPar) (cross : Bool) : Bool :=
  (List.range 3).all fun i => decide (ax p.qorg i + ax a.q.box i ≤ ax p.grid i) &&
    (cross || decide (ax p.korg i + ax a.k.box i ≤ ax p.grid i))

/-- Bytes the working area must hold (R283). -/
def attnWork (a : AttnOps) (p : AttnPar) : Nat :=
  let n := p.rows * (4 * p.headDim + 8) + p.rows * p.headDim * (a.q.fmt.width / 8) + 4 * 128 * p.headDim * (a.v.fmt.width / 8)
  64 * cdiv n 64

/-- The working area as a range of the core store. -/
def AttnPar.work (p : AttnPar) : Buf := { space := 1, lo := p.workBase, hi := p.workBase + p.workBytes, writes := true }

/-- Every operand's planned buffers. -/
def AttnOps.bufs (a : AttnOps) : List Buf :=
  a.q.bufs false ++ a.k.bufs false ++ a.v.bufs false ++ a.par.bufs false ++ a.o.bufs true ++
  [a.gk, a.gv, a.mask].flatMap (fun d => (d.map (·.bufs false)).getD []) ++ (a.stat.map (·.bufs true)).getD []

/-- The checks of R280 at issue: the operands and the bytes of the parameter block. A landing semaphore that is an alias left pointing
at nothing stops a PIECE as R670 stops a WAIT (DESIGN CHOICE, notes/assumptions/83). -/
def attnIssue (e : Env) (w : Nat) : Except Halt (AttnOps × Bytes) := do
  let a0 ← attnDescs e w
  let b ← rdMain e a0.par a0.par.base 64
  let p := attnParOf b
  let sub := subOf w
  need (attnResvOk b && p.rangesOk sub) .formatUnsupported
  let a ← attnExtra e a0 p
  need (attnShapesOk a p (sub == 1) && attnBoxesOk a p (sub == 1)) .bounds
  need (decide (e.xn (bits w 83 80) < p.groups * (p.blocks a.q 0 * p.blocks a.q 1 * p.blocks a.q 2))) .bounds
  need (decide (attnWork a p ≤ p.workBytes) && decide (p.workBase + p.workBytes ≤ 0x180000) &&
    !(a.bufs.any fun x => x.overlaps p.work)) .bounds
  need (!([some a.q, some a.k, some a.v, a.gk, a.gv, a.mask].any fun d => d.any fun d => a.o.overlaps d)) .bounds
  need (sub != 2 || p.chunk == 0 || ((semTarget e.c p.semK).isSome && (semTarget e.c p.semV).isSome)) .stateIllegal
  .ok (a, b)

/-- Decode of ATTN: the planned buffers of its operands, those that the parameter block names among them (R159). -/
def attnPrep (e : Env) (w : Nat) : Except Halt Prep := do
  let a0 ← attnDescs e w
  let extra := match attnIssue e w with
    | .ok (a, _) => a.bufs
    | .error _ => []
  .ok { bufs := a0.bufs ++ extra, reads := sels [bits w 83 80], writes := [] }

/-- ATTN at issue: the parameter block is read once (R257, R280). -/
def attnCheck (e : Env) (w : Nat) : Except Halt Issued := do
  let (_, b) ← attnIssue e w
  .ok { par := b }

/-! ### Work item, rows and keys -/

/-- The first token of query block `q` within DQ's box (R259). -/
def attnOrigin (a : AttnOps) (p : AttnPar) (q : Nat) : List Nat :=
  let ny := p.blocks a.q 1
  let nx := p.blocks a.q 2
  [q / (ny * nx) * ax p.qb 0, q / nx % ny * ax p.qb 1, q % nx * ax p.qb 2]

/-- The query rows of a block: indices [x, y, t] in row-major (t, y, x) order, only those that exist. -/
def attnRows (a : AttnOps) (p : AttnPar) (q : Nat) : List (List Nat) :=
  let o := attnOrigin a p q
  let cut := fun (i : Nat) => (List.range (ax p.qb i)).filterMap fun j =>
    if ax o i + j < ax a.q.box i then some (ax o i + j) else none
  (cut 0).flatMap fun t => (cut 1).flatMap fun y => (cut 2).map fun x => [x, y, t]

/-- Window positions along axis `i` that yield a coordinate inside DK's box: (position, index in the box) (R261, R262). -/
def attnAxis (a : AttnOps) (p : AttnPar) (o : List Nat) (i : Nat) : List (Nat × Nat) :=
  let g := ax p.grid i
  (List.range (ax p.win i)).filterMap fun j =>
    let x : Int := (ax p.qorg i + ax o i + j : Nat) + p.offs.getD i 0
    let y : Option Nat := if ax p.wrap i = 1 then some (x % (g : Int)).toNat
                          else if 0 ≤ x ∧ x < (g : Int) then some x.toNat else none
    y.bind fun c => if ax p.korg i ≤ c ∧ c < ax p.korg i + ax a.k.box i then some (j, c - ax p.korg i) else none

/-- The bit of a window position in a block's bitmap (R263). -/
def attnBit (p : AttnPar) (dt dy dx : Nat) : Nat := (dt * cdiv (ax p.win 1) 8 + dy / 8) * cdiv (ax p.win 2) 8 + dx / 8

/-- Whether the bitmap keeps a window position; only the bytes asked for are fetched (R263, R281). -/
def attnKept (e : Env) (a : AttnOps) (p : AttnPar) (q dt dy dx : Nat) : Except Halt Bool :=
  match a.mask with
  | none => .ok true
  | some d => do
    let i := attnBit p dt dy dx
    let b ← rdMain e d (d.base + 256 * q + i / 8) 1
    .ok (bit (leNat b) (i % 8))

/-- The window keys of a query block, in ascending order of window position (R266). -/
def attnWindow (e : Env) (a : AttnOps) (p : AttnPar) (q : Nat) : Except Halt (List AKey) :=
  let o := attnOrigin a p q
  collect (attnAxis a p o 0) fun t => collect (attnAxis a p o 1) fun y => collect (attnAxis a p o 2) fun x => do
    let on ← attnKept e a p q t.1 y.1 x.1
    .ok (if on then [{ isGlobal := false, ix := [x.2, y.2, t.2] }] else [])

/-- The key sequence (R266). -/
def attnKeys (e : Env) (a : AttnOps) (p : AttnPar) (sub q : Nat) : Except Halt (List AKey) := do
  let g : List AKey := (List.range p.globals).map fun r => { isGlobal := true, ix := [r, 0, 0] }
  let l ← if sub = 1 then .ok ((List.range (dim a.k.dims 1)).map fun r => ({ isGlobal := false, ix := [r, 0, 0] } : AKey))
          else attnWindow e a p q
  .ok (g ++ l)

/-- Chunks that must have landed to hold every key of the sequence, in DK's row-major token order (R277). -/
def attnNeed (a : AttnOps) (p : AttnPar) (keys : List AKey) : Nat :=
  keys.foldl (fun m k =>
    if k.isGlobal then m
    else
      let n := (k.ix.getD 2 0 * dim a.k.dims 2 + k.ix.getD 1 0) * dim a.k.dims 1 + k.ix.getD 0 0
      max m (n / p.chunk + 1)) 0

/-! ### The fused sweep (R268) -/

/-- A row's running values. -/
structure ARow where
  m : XV
  l : XV
  o : List XV
  deriving DecidableEq, Repr

/-- The built-in exp2 table, exact at an FP32 input (R270). -/
def exp2At (x : XV) : XV × Nat := tableAt (builtinTable false 1) false x

/-- exp2 as the fold unit holds it, in FP32. -/
def exp2Round (x : XV) : XV × Nat := let t := exp2At x
                                     let r := round32 t.1
                                     (r.1, r.2 ||| t.2)

/-- Plain elements as an engine takes them. -/
def plainPE (f : Fmt) (vs : List XV) : List PE := vs.map fun v => { v := v, s := XV.one, f := f, w := 0 }

/-- An engine sum from a starting value (R127, R130), without an effect where there is nothing to sum. -/
def engineSum (acc : XV) (fa : Fmt) (a : List XV) (fb : Fmt) (b : List XV) : XV × Nat :=
  let l := (plainPE fa a).zip (plainPE fb b)
  beatsF l.length acc 0 l

/-- Sums values in FP32, in order, with the flags. -/
def sumIn (acc : XV × Nat) (vs : List XV) : XV × Nat :=
  vs.foldl (fun a v => let r := add32 a.1 v
                       (r.1, a.2 ||| r.2)) acc

/-- ORs the flags of a list of results. -/
def flagsIn (l : List (XV × Nat)) : Nat := l.foldl (fun f x => f ||| x.2) 0

/-- One key step of one row (R268), with its flags: `ks` and `vs` are the keys' and values' channels. An infinite score makes the whole
row NaN (R271; DEDUCED, notes/assumptions/66). -/
def ARow.step (fq fk fv : Fmt) (scale : XV) (q : List XV) (ks vs : List (List XV)) (r : ARow) : ARow × Nat :=
  let ss := ks.map fun k => engineSum XV.zero fq q fk k
  let ts := ss.map fun s => mul32 s.1 scale
  let m := ts.foldl (fun a t => xmax a t.1) r.m
  let d := sub32 r.m m
  let alpha := if r.m = .inf true then (XV.zero, 0) else let x := exp2Round d.1
                                                         (x.1, x.2 ||| d.2)
  let ps := ts.map fun t =>
    if t.1.isInf then (XV.nan, flNanMade) else
    let x := sub32 t.1 m
    let y := exp2At x.1
    let z := fv.round y.1
    (z.1, x.2 ||| y.2 ||| z.2)
  let l0 := mul32 r.l alpha.1
  let l := sumIn l0 (ps.map (·.1))
  let os := r.o.mapIdx fun c o =>
    let x := mul32 o alpha.1
    let y := engineSum x.1 fv (ps.map (·.1)) fv (vs.map fun v => v.getD c XV.zero)
    (y.1, x.2 ||| y.2)
  ({ m := m, l := l.1, o := os.map (·.1) }, flagsIn ss ||| flagsIn ts ||| alpha.2 ||| flagsIn ps ||| l.2 ||| flagsIn os)

/-- The channels of head `h` at an index (R258). -/
def headVec (e : Env) (d : Desc) (hd h : Nat) (ix : List Nat) : Except Halt (List XV) :=
  each (List.range hd) fun c => rdVal e d.whole ((h * hd + c) :: ix)

/-- A key's or value's channels. -/
def keyVec (e : Env) (d : Desc) (g : Option Desc) (hd h : Nat) (k : AKey) : Except Halt (List XV) :=
  headVec e (if k.isGlobal then g.getD d else d) hd h k.ix

/-- A row's starting values: −∞, +0, +0, or those carried in (R268, R274). -/
def attnStart (e : Env) (a : AttnOps) (hd h : Nat) (carry : Bool) (ix : List Nat) : Except Halt ARow :=
  match if carry then a.stat else none with
  | some d => do
    let m ← rdVal e d.whole ((2 * h) :: ix)
    let l ← rdVal e d.whole ((2 * h + 1) :: ix)
    let o ← headVec e a.o hd h ix
    .ok { m := m, l := l, o := o }
  | none => .ok { m := .inf true, l := XV.zero, o := List.replicate hd XV.zero }

/-- The writes of a row's statistics, as patterns (R274). -/
def attnStat (a : AttnOps) (h : Nat) (ix : List Nat) (m l : Nat) : Except Halt (List EW) :=
  match a.stat with
  | none => .ok []
  | some d => do
    let x ← wrPattern d.whole ((2 * h) :: ix) m
    let y ← wrPattern d.whole ((2 * h + 1) :: ix) l
    .ok (x ++ y)

/-- What a row writes: unnormalised with its statistics (R274), +0 where it saw no key (R271), else divided (R273). -/
def attnOut (a : AttnOps) (hd h : Nat) (noKeys : Bool) (ix : List Nat) (r : ARow) : Except Halt (List EW × Nat) := do
  let vals : List (XV × Nat) := r.o.map fun o =>
    if a.stat.isSome then (o, 0) else if noKeys then (XV.zero, 0) else (o.quot r.l, madeFrom [o, r.l] (o.quot r.l))
  let ps := vals.map fun v => a.o.fmt.encode v.1
  let ws ← collect (List.range hd) fun c => wrPattern a.o.whole ((h * hd + c) :: ix) (ps.getD c (0, 0)).1
  let st ← attnStat a h ix (pat32 r.m) (pat32 r.l)
  .ok (ws ++ st, ps.foldl (fun f x => f ||| x.2) (flagsIn vals))

/-- A carried row that sees no key: its O_r, m_r and l_r pass through with every bit (R276). -/
def attnThrough (e : Env) (a : AttnOps) (hd h : Nat) (ix : List Nat) : Except Halt (List EW × Nat) := do
  let st ← match a.stat with
    | none => .ok []
    | some d => do
      let m ← rdPattern e d.whole ((2 * h) :: ix)
      let l ← rdPattern e d.whole ((2 * h + 1) :: ix)
      attnStat a h ix m l
  let ws ← collect (List.range hd) fun c => do
    let p ← rdPattern e a.o.whole ((h * hd + c) :: ix)
    wrPattern a.o.whole ((h * hd + c) :: ix) p
  .ok (ws ++ st, 0)

/-- A work item under way: its operands, parameters, query block rows, and key steps, and what may run: a key step waits while its
keys or values have not landed (R277). -/
structure Sweep where
  a : AttnOps
  p : AttnPar
  carry : Bool
  group : Nat
  rows : List (List Nat)
  steps : List (List AKey)
  deriving DecidableEq, Repr

/-- Whether the landing counts hold every key and value of a key step (R277). -/
def landed (e : Env) (a : AttnOps) (p : AttnPar) (keys : List AKey) : Bool :=
  p.chunk == 0 ||
    (decide (attnNeed a p keys ≤ semCount e.s e.c.asn p.semK) && decide (attnNeed a p keys ≤ semCount e.s e.c.asn p.semV))

/-- The key steps `todo` of head `h` from number `j` on, over the rows' running values, up to one that has not landed: its number. -/
def Sweep.keySteps (e : Env) (x : Sweep) (h j : Nat) (qs : List (List XV)) (rs : List ARow) (fl : Nat) :
    List (List AKey) → Except Halt (List ARow × Nat × Option Nat)
  | [] => .ok (rs, fl, none)
  | st :: todo =>
    if landed e x.a x.p st then do
      let ks ← each st (keyVec e x.a.k x.a.gk x.p.headDim h)
      let vs ← each st (keyVec e x.a.v x.a.gv x.p.headDim h)
      let ns := qs.zipWith (fun q (r : ARow) => r.step x.a.q.fmt x.a.k.fmt x.a.v.fmt x.p.scale q ks vs) rs
      x.keySteps e h (j + 1) qs (ns.map (·.1)) (ns.foldl (fun f r => f ||| r.2) fl) todo
    else .ok (rs, fl, some j)

/-- What has been written, the flags, and where a PIECE stopped: the head, the step and the rows' running values. -/
structure Swept where
  ews : List EW := []
  fl : Nat := 0
  stop : Option (Nat × Nat × List ARow) := none

/-- The heads `todo` of a work item from number `i` on; `at_` is where the first of them goes on. -/
def Sweep.heads (e : Env) (x : Sweep) (i : Nat) (at_ : Option (Nat × List ARow)) (acc : Swept) : Nat → Except Halt Swept
  | 0 => .ok acc
  | n + 1 => do
    let h := x.p.heads * x.group + i
    let qs ← each x.rows (headVec e x.a.q x.p.headDim h)
    let rs0 ← match at_ with
      | some r => .ok r.2
      | none => each x.rows (attnStart e x.a x.p.headDim h x.carry)
    let j := (at_.map (·.1)).getD 0
    let (rs, fl, stop) ← x.keySteps e h j qs rs0 acc.fl (x.steps.drop j)
    match stop with
    | some k => .ok { acc with fl := fl, stop := some (i, k, rs) }
    | none =>
      let os ← each (x.rows.zip rs) fun r =>
        if x.carry && x.steps.isEmpty then attnThrough e x.a x.p.headDim h r.1
        else attnOut x.a x.p.headDim h x.steps.isEmpty r.1 r.2
      x.heads e (i + 1) none { ews := acc.ews ++ os.flatMap (·.1), fl := os.foldl (fun f r => f ||| r.2) fl } n

/-- The engine beats of a work item (R284), counted for each of the 16 engines of the gang (R677). -/
def attnBeats (a : AttnOps) (p : AttnPar) (rows : Nat) (keys : List AKey) : Acct :=
  let ms := (pairM a.q.fmt a.k.fmt 0).getD 1
  let mv := (pairM a.v.fmt a.v.fmt 0).getD 1
  let n := 16 * p.heads * cdiv rows 8
  ((parts 128 keys).foldl (fun b st =>
    ((b.add (beatsOf ms (n * cdiv p.headDim ms))).add (beatsOf mv (n * cdiv st.length mv))).add
      { Acct.zero with stall := 12 * n }) { Acct.zero with stall := 16 * 24 })

/-- Free bytes over the working area, whose contents after ATTN are unspecified (R283; notes/assumptions/21). -/
def attnScratch (e : Env) (p : AttnPar) : List EW :=
  (List.range p.workBytes).map fun i =>
    { space := 1, addr := 8 * (p.workBase + i), w := 8, v := (Config.freeWord (e.s.free + i)).toNat % 256 }

/-- A row's running values as a PIECE keeps them, and back. -/
def ARow.keep (r : ARow) : PieceRow :=
  { m := BitVec.ofNat 32 (pat32 r.m), l := BitVec.ofNat 32 (pat32 r.l), o := r.o.map fun v => BitVec.ofNat 32 (pat32 v) }
/-- The values a PIECE keeps of a row. -/
def PieceRow.back (r : PieceRow) : ARow := { m := f32 r.m.toNat, l := f32 r.l.toNat, o := r.o.map fun v => f32 v.toNat }

/-- The operands of an ATTN that has issued, by its parameter block (R257). -/
def attnOps (e : Env) (w : Nat) : Except Halt AttnOps := do
  let a0 ← attnDescs e w
  attnExtra e a0 (attnParOf e.par)

/-- A work item goes as far as its keys have landed: from its start, or from where a PIECE waits (R268, R277 to R279). -/
def attnGo (e : Env) (w : Nat) (a : AttnOps) (pc : Piece) : Except Halt Plan := do
  let p := attnParOf e.par
  let item := e.xn (bits w 83 80)
  let x : Sweep := { a := a, p := p, carry := statIn w, group := item % p.groups, rows := attnRows a p (item / p.groups)
                     steps := parts 128 pc.keys }
  let at_ := if pc.rows.isEmpty then none else some (pc.step, pc.rows.map PieceRow.back)
  let r ← x.heads e pc.head at_ {} (p.heads - pc.head)
  match r.stop with
  | none => .ok { ews := attnScratch e p ++ r.ews, flags := r.fl, beats := attnBeats a p x.rows.length pc.keys, free := p.workBytes }
  | some (h, j, rs) =>
    .ok { ews := r.ews, flags := r.fl, wait := .piece { pc with head := h, step := j, rows := rs.map ARow.keep } }

/-- ATTN: its keys are found, each byte of the bitmap fetched once (R263), and it runs; a PIECE runs up to the first key step that has
not landed. -/
def attnRun (e : Env) (w : Nat) : Except Halt Plan := do
  let a ← attnOps e w
  let p := attnParOf e.par
  let keys ← attnKeys e a p (subOf w) (e.xn (bits w 83 80) / p.groups)
  attnGo e w a { head := 0, step := 0, keys := keys, rows := [] }

/-- A PIECE goes on from its key step (R277 to R279). -/
def pieceRun (pc : Piece) (e : Env) (w : Nat) : Except Halt Plan := do
  let a ← attnOps e w
  attnGo e w a pc

/-! ### LEES (R286 to R296) -/

/-- Formats of LEES's input. -/
def Fmt.leesIn (f : Fmt) : Bool := f.attnIn || f == .fp32

/-- The operands of LEES CHECK. -/
structure Lees where
  x : Desc
  keep : Desc
  out : Desc
  map : Desc
  thresh : XV
  refresh : Nat
  deriving DecidableEq, Repr

/-- Rows of LEES's input. -/
def Lees.rows (l : Lees) : Nat := dim l.x.dims 1
/-- Blocks of 256 rows (R287). -/
def Lees.blocks (l : Lees) : Nat := cdiv l.rows 256
/-- Offset of the list in the map (R288). -/
def Lees.listAt (l : Lees) : Nat := 64 + 4 * cdiv l.blocks 4

/-- The requirements of R286. -/
def leesChecks (e : Env) (w : Nat) : Except Halt Lees := do
  need (zeros w [(127, 88)]) .formatUnsupported
  let x ← slotDesc e (bits w 39 32)
  let k ← slotDesc e (bits w 47 40)
  let o ← slotDesc e (bits w 55 48)
  let m ← slotDesc e (bits w 63 56)
  let n := bits w 83 80
  need (x.fmt.leesIn && x.rank == 2 && !x.zc && k.fmt == .e4m3 && k.rank == 2 && !k.zc && k.space == 0 && o.rank == 2 && !o.zc &&
    o.space == 0 && m.fmt == .uint8 && m.rank == 1 && !m.zc && m.space == 0) .formatUnsupported
  need (decide (1 ≤ n) && decide (n ≤ 8)) .formatUnsupported
  need (k.wr && o.wr && m.wr) .stateIllegal
  .ok { x := x, keep := k, out := o, map := m, thresh := Fmt.bf16.decodeFloat (bits w 79 64), refresh := n }

/-- Decode of LEES; it does not touch DPREV_OUT. -/
def leesPrep (e : Env) (w : Nat) : Except Halt Prep := do
  let l ← leesChecks e w
  .ok { bufs := l.x.bufs false ++ l.keep.bufs true ++ l.map.bufs true
        reads := sels [bits w 87 84], writes := [] }

/-- The E4M3 pattern of an input element, without flags (R291). -/
def keepPat (x : XV) : Nat := (Fmt.e4m3.encode x).1

/-- The rows of block `b` (R287). -/
def Lees.blockRows (l : Lees) (b : Nat) : List Nat :=
  (List.range 256).filterMap fun i => if 256 * b + i < l.rows then some (256 * b + i) else none

/-- The E4M3 patterns of a block's input, row by row. -/
def Lees.patterns (e : Env) (l : Lees) (b : Nat) : Except Halt (List (List Nat)) :=
  each (l.blockRows b) fun r => do
    let vs ← rdRow e l.x [r, 0, 0]
    .ok (vs.map keepPat)

/-- Whether a block may be reused: the largest difference is below the threshold; a NaN never is (R290, R291). -/
def Lees.near (e : Env) (l : Lees) (b : Nat) (ps : List (List Nat)) : Except Halt Bool := do
  let ks ← each (l.blockRows b) fun r => each (List.range (dim l.x.dims 0)) fun c => rdVal e l.keep.whole [c, r, 0, 0]
  let ds := (ps.flatten.zip ks.flatten).map fun q => ((Fmt.e4m3.decodeFloat q.1).sub q.2).abs
  let d := ds.foldl xmax XV.zero
  .ok (d.lt l.thresh)

/-- The decision on a block: the new map entry, the writes of its kept copy, whether it is recomputed. -/
def Lees.judge (e : Env) (l : Lees) (pass b : Nat) : Except Halt (Nat × List EW × Bool) := do
  let ent ← rdMain e l.map (l.map.base + 64 + b) 1
  let v := leNat ent
  let ps ← l.patterns e b
  let try_ := pass != 0 && bit v 7 && decide (bits v 2 0 + 1 < l.refresh)
  let reuse ← if try_ then l.near e b ps else .ok false
  if reuse then .ok (0xC0 + (bits v 2 0 + 1) % 8, [], false)
  else
    let rows := l.blockRows b
    let ws ← collect (List.range rows.length) fun i => wrRowPatterns l.keep.whole [rows.getD i 0, 0, 0] (ps.getD i [])
    .ok (0x80, ws, true)

/-- Checked writes of bytes in the map. -/
def Lees.put (l : Lees) (off n v : Nat) : Except Halt (List EW) :=
  if l.map.inMain (l.map.base + off) n then
    .ok ((leBytes n v).mapIdx fun i b => { space := 0, addr := 8 * (l.map.base + off + i), w := 8, v := b.toNat })
  else .error (.fault .boundsRuntime)

/-- The checks of LEES at issue (R286). -/
def leesCheck (e : Env) (w : Nat) : Except Halt Lees := do
  let l ← leesChecks e w
  need (dim l.keep.dims 0 == dim l.x.dims 0 && decide (l.rows ≤ dim l.keep.dims 1) && decide (l.rows ≤ dim l.out.dims 1) &&
    decide (l.listAt + 4 * l.blocks ≤ dim l.map.dims 0)) .bounds
  .ok l

/-- LEES CHECK (R288, R290). -/
def leesRun (e : Env) (w : Nat) : Except Halt Plan := do
  let l ← leesCheck e w
  let pass := e.xn (bits w 87 84)
  let n := l.blocks
  let ds ← each (List.range n) (l.judge e pass)
  let todo := (List.range n).filter fun b => (ds.getD b (0, [], false)).2.2
  let head ← collect [(0, pass), (4, n), (8, todo.length), (12, n - todo.length)] fun f => l.put f.1 4 f.2
  let resv ← l.put 16 48 0
  let ents ← collect (List.range n) fun b => l.put (64 + b) 1 (ds.getD b (0, [], false)).1
  let list ← collect (List.range todo.length) fun i => l.put (l.listAt + 4 * i) 4 (todo.getD i 0)
  .ok { ews := ds.flatMap (·.2.1) ++ head ++ resv ++ ents ++ list }

end Sys2Proof.Machine
end

