-- ==== Sys2Proof/Machine/Conv.lean ====
section
/-! DEFINITION. Machine/Conv.lean: convolution (R340 to R358) and pooling and replication (R359 to R365). Axes are listed in
(x, y, t) order, as DIM1 to DIM3 are. -/

namespace Sys2Proof.Machine

/-- One axis of a window: stride, padding before (below 0 for a CAUSAL filter of no frames, R351) and after, dilation, window or filter
extent. -/
structure Axis where
  stride : Nat
  lo : Int
  hi : Nat
  dil : Nat
  win : Nat
  deriving DecidableEq, Repr

/-- The output extent along an axis for an input extent (R350, R359). -/
def Axis.out (a : Axis) (n : Nat) : Nat :=
  (((n : Int) + a.lo + a.hi - (a.dil : Int) * ((a.win : Int) - 1) - 1) / (a.stride : Int) + 1).toNat

/-- The input coordinate of window position `f` for output `o`, where it lies in the image (R344). -/
def Axis.tap (a : Axis) (n o f : Nat) : Option Nat :=
  let g : Int := (o * a.stride + f * a.dil : Nat) - a.lo
  if 0 ≤ g ∧ g < (n : Int) then some g.toNat else none

/-- The axes of an instruction, (x, y, t). -/
structure Axes where
  x : Axis
  y : Axis
  t : Axis
  deriving DecidableEq, Repr

/-- Positions of the window in row-major (t, y, x) order, as [x, y, t]. -/
def Axes.positions (a : Axes) : List (List Nat) :=
  (List.range a.t.win).flatMap fun t => (List.range a.y.win).flatMap fun y => (List.range a.x.win).map fun x => [x, y, t]

/-- Output extents for an input map (R350). -/
def Axes.outs (a : Axes) (d : Desc) : List Nat := [a.x.out (dim d.dims 1), a.y.out (dim d.dims 2), a.t.out (dim d.dims 3)]

/-- The input position of a window position, or nothing in the padding. -/
def Axes.at (a : Axes) (d : Desc) (o f : List Nat) : Option (List Nat) :=
  match a.x.tap (dim d.dims 1) (o.getD 0 0) (f.getD 0 0), a.y.tap (dim d.dims 2) (o.getD 1 0) (f.getD 1 0),
      a.t.tap (dim d.dims 3) (o.getD 2 0) (f.getD 2 0) with
  | some x, some y, some t => some [x, y, t]
  | _, _, _ => none

/-- DIM1 to DIM3 of a map. -/
def Desc.outer3 (d : Desc) : List Nat := [dim d.dims 1, dim d.dims 2, dim d.dims 3]

/-! ### CONV -/

/-- Formats of a convolution's input (R349). -/
def Fmt.convIn : Fmt → Bool
  | .bf16 | .fp16 | .e4m3 | .e5m2 | .e2m1 | .int8 | .uint8 | .int4 => true
  | _ => false

/-- The operands and axes of a CONV. -/
structure ConvOps where
  x : Desc
  f : Desc
  o : Desc
  bias : Option Desc
  axes : Axes
  acc : Bool
  deriving DecidableEq, Repr

/-- The axes a CONV word gives for a filter (R171, R351). -/
def convAxes (w : Nat) (f : Desc) : Axes :=
  let causal := bit w 94
  let dt := bits w 81 76 + 1
  { x := { stride := bits w 75 72 + 1, lo := bits w 99 96, hi := bits w 111 108, dil := bits w 93 88 + 1, win := dim f.dims 1 }
    y := { stride := bits w 71 68 + 1, lo := bits w 103 100, hi := bits w 115 112, dil := bits w 87 82 + 1, win := dim f.dims 2 }
    t := { stride := bits w 67 64 + 1, lo := if causal then (dt : Int) * ((dim f.dims 3 : Int) - 1) else bits w 107 104
           hi := if causal then 0 else bits w 119 116, dil := dt, win := dim f.dims 3 } }

/-- The checks of CONV at decode (R172, R210, R223, R349, R351). -/
def convChecks (e : Env) (w : Nat) : Except Halt ConvOps := do
  need (zeros w [(127, 120)]) .formatUnsupported
  let x ← slotDesc e (bits w 39 32)
  let f ← slotDesc e (bits w 47 40)
  let o ← slotDesc e (bits w 55 48)
  let b ← slotOpt e (bits w 63 56)
  need (decide (dim f.dims 1 ≤ 15) && decide (dim f.dims 2 ≤ 15) && decide (dim f.dims 3 ≤ 7)) .filterTooLarge
  need (x.fmt.convIn && f.fmt.convIn && f.fmt != .uint8 && !f.zc && (pairM x.fmt f.fmt 0).isSome &&
    (o.fmt.isFloat || o.fmt.isInt) && b.all biasOk) .formatUnsupported
  need (!bit w 95 || !intPair x.fmt f.fmt || o.fmt.isInt) .formatUnsupported
  need (!bit w 94 || (bits w 107 104 == 0 && bits w 119 116 == 0)) .formatUnsupported
  need o.wr .stateIllegal
  .ok { x := x, f := f, o := o, bias := b, axes := convAxes w f, acc := bit w 95 }

/-- Decode of CONV. -/
def convPrep (e : Env) (w : Nat) : Except Halt Prep := do
  let c ← convChecks e w
  .ok { bufs := c.x.bufs false ++ c.f.bufs false ++ (c.bias.map (·.bufs false)).getD [] ++ c.o.bufs true, reads := [], writes := [] }

/-- Output channels. -/
def ConvOps.cout (c : ConvOps) : Nat := dim c.o.dims 0
/-- Input channels. -/
def ConvOps.cin (c : ConvOps) : Nat := dim c.x.dims 0
/-- Taps of a filter. -/
def ConvOps.taps (c : ConvOps) : Nat := dim c.f.dims 1 * dim c.f.dims 2 * dim c.f.dims 3
/-- Elements from one filter to the next (R341). -/
def ConvOps.filterStep (c : ConvOps) : Nat := dim c.f.dims 3 * c.f.strides.getD 3 0

/-- The last element of the last filter lies within DW's extent (R342). -/
def ConvOps.filtersFit (c : ConvOps) : Bool :=
  let n := (c.cout - 1) * c.filterStep + 1 + (dim c.f.dims 0 - 1) + outerReach c.f c.f.dims
  c.cout == 0 || dim c.f.dims 0 == 0 || c.taps == 0 || decide (cdiv (n * c.f.fmt.width) 8 ≤ 64 * c.f.ext)

/-- The checks of R356 at issue. -/
def convIssue (c : ConvOps) : Except Halt Unit :=
  need (dim c.f.dims 0 == c.cin && c.o.outer3 == c.axes.outs c.x && c.bias.all (fun b => dim b.dims 0 == c.cout) &&
    c.filtersFit && !c.o.overlaps c.x && !c.o.overlaps c.f && c.bias.all fun b => !c.o.overlaps b) .bounds

/-- The channels of a tap: those of its input position, or PAD_VALUE in the padding (R344, R346). -/
def ConvOps.tapValues (e : Env) (c : ConvOps) (o f : List Nat) : Except Halt (List XV) :=
  match c.axes.at c.x o f with
  | some p => rdRow e c.x p
  | none => .ok (List.replicate c.cin c.x.padValue)

/-- The weights of a tap of filter `ch` (R341). -/
def ConvOps.weights (e : Env) (c : ConvOps) (ch : Nat) (f : List Nat) : Except Halt (List XV) :=
  each (List.range c.cin) fun i => rdVal e (c.f.opnd (ch * c.filterStep)) (i :: f)

/-- The accumulator's starting value (R223). -/
def ConvOps.start (e : Env) (c : ConvOps) (ix : List Nat) : Except Halt Accum :=
  let int := intPair c.x.fmt c.f.fmt
  if c.acc then
    if int then (rdInt e c.o.whole ix).map Accum.i else (rdVal e c.o.whole ix).map Accum.f
  else .ok (if int then .i 0 else .f XV.zero)

/-- One output element before conversion (R345 to R347): taps in order, each tap's channels m at a time. -/
def ConvOps.elem (e : Env) (c : ConvOps) (o : List Nat) (ins : List (List XV)) (ws : List (List XV)) (ch : Nat) :
    Except Halt (Accum × Nat) := do
  let s ← c.start e (ch :: o)
  let r := (ins.zip ws).foldl (fun (a : Accum × Nat) p =>
    let q := a.1.run (plainPE c.x.fmt p.1) (plainPE c.f.fmt p.2)
    (q.1, a.2 ||| q.2)) (s, 0)
  let b ← match c.bias with
    | none => .ok none
    | some d => (rdVal e d.whole [ch, 0, 0, 0]).map fun v => some (v, d.fmt.isInt)
  let q := r.1.bias b
  .ok (q.1, r.2 ||| q.2)

/-- The engine beats of a CONV (R348, R357, R677). -/
def ConvOps.beats (e : Env) (c : ConvOps) : Acct :=
  let m := (pairM c.x.fmt c.f.fmt 0).getD 1
  let gang := if 8 < c.cout then 0 else 2
  let (r, k) := tileShape gang
  let o := c.o.outer3
  let n := cdiv (ax o 0 * ax o 1 * ax o 2) r * cdiv c.cout k * c.taps * cdiv c.cin m
  (beatsOf m (16 * n)).add (fillBeats e gang)

/-- CONV at issue. -/
def convCheck (e : Env) (w : Nat) : Except Halt ConvOps := do
  let c ← convChecks e w
  convIssue c
  .ok c

/-- CONV (R343 to R355). The weights are read before what an output element needs beside them, so that a fault in DW is met first
(DESIGN CHOICE, notes/assumptions/28). -/
def convRun (e : Env) (w : Nat) : Except Halt Plan := do
  let c ← convCheck e w
  if c.o.outer3.any (· == 0) ∨ c.cout = 0 then .ok {}
  else
    let fs := if c.cin = 0 then [] else c.axes.positions
    let ws ← each (List.range c.cout) fun ch => each fs (c.weights e ch)
    let rs ← each c.o.rows fun o => do
      let ins ← each fs (c.tapValues e o)
      let vs ← each (List.range c.cout) fun ch => c.elem e o ins (ws.getD ch []) ch
      let (ew, fl) ← wrRow c.o.whole o (vs.map fun v => v.1.value)
      .ok (ew, vs.foldl (fun f v => f ||| v.2) fl)
    .ok { joinRows rs with beats := c.beats e }

/-! ### POOL -/

/-- Formats of MAX and NEAREST (R363). -/
def Fmt.poolFmt : Fmt → Bool
  | .fp32 | .bf16 | .fp16 | .e4m3 | .e5m2 | .int8 | .uint8 => true
  | _ => false

/-- The window of a POOL word (R173). -/
def poolAxes (w : Nat) : Axes :=
  { x := { stride := bits w 71 68 + 1, lo := bits w 75 72, hi := bits w 87 84, dil := 1, win := bits w 58 55 + 1 }
    y := { stride := bits w 67 64 + 1, lo := bits w 79 76, hi := bits w 91 88, dil := 1, win := bits w 54 51 + 1 }
    t := { stride := bits w 63 60 + 1, lo := bits w 83 80, hi := bits w 95 92, dil := 1, win := bits w 50 48 + 1 } }

/-- The checks of POOL at decode; bits R173 does not list are reserved (R164, R362, R363). -/
def poolChecks (e : Env) (w : Nat) : Except Halt (Desc × Desc) := do
  need (zeros w [(127, 96), (59, 59)]) .formatUnsupported
  let a ← slotDesc e (bits w 39 32)
  let o ← slotDesc e (bits w 47 40)
  let ok := if subOf w = 1 then a.fmt.elemUnit && o.fmt.elemUnit
            else a.fmt.poolFmt && o.fmt.poolFmt && (!a.fmt.isInt || o.fmt.isInt)
  need (ok && (subOf w != 2 || bits w 71 60 == 0 && bits w 95 72 == 0)) .formatUnsupported
  need o.wr .stateIllegal
  .ok (a, o)

/-- Decode of POOL. -/
def poolPrep (e : Env) (w : Nat) : Except Halt Prep := do
  let (a, o) ← poolChecks e w
  .ok { bufs := a.bufs false ++ o.bufs true, reads := [], writes := [] }

/-- The values of a window for every channel, in row-major (t, y, x) order (R359): one list of channels per position. -/
def poolWindow (e : Env) (x : Axes) (a : Desc) (o : List Nat) : Except Halt (List (List XV)) :=
  each x.positions fun f => match x.at a o f with
    | some p => rdRow e a p
    | none => .ok (List.replicate (dim a.dims 0) a.padValue)

/-- The greatest of a window (R360). -/
def poolMaxOf (l : List XV) : XV × Nat :=
  match l with
  | [] => (XV.zero, 0)
  | x :: t => (t.foldl xmax x, 0)

/-- The average of a window, before its conversion (R361). -/
def poolAvgOf (l : List XV) : XV × Nat :=
  match l with
  | [] => (XV.zero, 0)
  | x :: t =>
    let s := sumIn (x, 0) t
    let n := XV.ofInt (t.length + 1 : Nat)
    let r := s.1.div n
    (r, s.2 ||| madeFrom [s.1, n] r)

/-- POOL MAX and AVG at issue. -/
def poolCheck (e : Env) (w : Nat) : Except Halt (Desc × Desc) := do
  let (a, o) ← poolChecks e w
  need (dim o.dims 0 == dim a.dims 0 && o.outer3 == (poolAxes w).outs a && !o.overlaps a) .bounds
  .ok (a, o)

/-- POOL MAX and AVG. -/
def poolRun (f : List XV → XV × Nat) (e : Env) (w : Nat) : Except Halt Plan := do
  let (a, o) ← poolCheck e w
  let x := poolAxes w
  let rs ← each o.rows fun p => do
    let ps ← poolWindow e x a p
    wrExact o.whole p ((List.range (dim o.dims 0)).map fun c => f (ps.map fun l => l.getD c XV.zero))
  .ok (joinRows rs)

/-- Whether NEAREST copies patterns between two formats of R363: equal width and family (R101, R362; DEDUCED,
notes/assumptions/67). -/
def Fmt.copies (a b : Fmt) : Bool := a.width == b.width && a.isInt == b.isInt

/-- POOL NEAREST at issue. -/
def nearestCheck (e : Env) (w : Nat) : Except Halt (Desc × Desc) := do
  let (a, o) ← poolChecks e w
  let x := poolAxes w
  need (dim o.dims 0 == dim a.dims 0 && !o.overlaps a &&
    o.outer3 == [dim a.dims 1 * x.x.win, dim a.dims 2 * x.y.win, dim a.dims 3 * x.t.win]) .bounds
  .ok (a, o)

/-- POOL NEAREST (R362): each input element fills a box. -/
def nearestRun (e : Env) (w : Nat) : Except Halt Plan := do
  let (a, o) ← nearestCheck e w
  let x := poolAxes w
  let rs ← each o.rows fun p => do
    let src := [p.getD 0 0 / x.x.win, p.getD 1 0 / x.y.win, p.getD 2 0 / x.t.win]
    if a.fmt.copies o.fmt then
      let ps ← each (List.range (dim a.dims 0)) fun c => rdPattern e a.whole (c :: src)
      let ws ← wrRowPatterns o.whole p ps
      .ok (ws, 0)
    else
      let vs ← rdRow e a src
      wrRow o.whole p vs
  .ok (joinRows rs)

end Sys2Proof.Machine
end

