-- ==== Sys2Proof/Machine/Units.lean ====
section
/-! DEFINITION. Machine/Units.lean: unit work in flight (R157 to R162, R219, R297, R298): how an instruction issues, starts, reads
and writes, and completes; the instructions that do unit work; the turns of ordered contributions (R249) and of a PIECE (R277). -/

namespace Sys2Proof.Machine

/-! ### What an instruction reads (R25, R29, R490, R491, R507, R525) -/

/-- What `f` does to a core's memory reads as it runs: each error it meets in a cell, in the order of its reads, is corrected or
poisons its line (R490, R491). A read is found by what `f` does where the lines that hold errors are poisoned; each one met leaves
the cells, so that their number bounds the rounds. -/
def Env.meets {α : Type} (e : Env) (f : Env → Except Halt α) : Nat → Env
  | 0 => e
  | n + 1 => match f { e with s := addPoison e.s (e.s.cells.map (·.line)) } with
    | .error (.poison va len) =>
      let s1 := meetVirt e.s e.c.asn va len
      if s1.cells.length < e.s.cells.length then Env.meets { e with s := s1 } f n else e
    | _ => e

/-- A core as what it runs leaves it, having met the errors in the cells it reads. -/
def Env.met {α : Type} (e : Env) (f : Env → Except Halt α) : Env := e.meets f e.s.cells.length

/-- The pages of planned VIRTUAL buffers. -/
def plannedPages (bufs : List Buf) : List Nat :=
  ((bufs.filter fun b => b.space == 0).flatMap fun b => (pieces b.lo (b.hi - b.lo)).map (·.1)).eraseDups

/-- Whether `f` reads a page: it fails where the page is lost. -/
def Env.readsPage {α : Type} (e : Env) (f : Env → Except Halt α) (v : Nat) : Bool :=
  match f { e with s := modPage e.s e.c.asn v fun p => { p with lost := true } } with
  | .error (.fault .unmapped) => true
  | _ => false

/-- The pages of an instruction's planned buffers that `f` reads. -/
def Env.pagesRead {α : Type} (e : Env) (bufs : List Buf) (f : Env → Except Halt α) : List Nat :=
  (plannedPages bufs).filter (e.readsPage f)

/-- The reads of pages of the core's address space, as traffic. -/
def Env.noteReads (e : Env) (vpns : List Nat) (s : State) : State :=
  vpns.foldl (fun s v => match pageOf s e.c.asn v with
    | some g => e.reads s g.ppn
    | none => s) s

/-- The bytes of a core's VIRTUAL writes, as traffic. -/
def Env.noteWrites (e : Env) (rs : List Run) (s : State) : State :=
  (rs.filter fun r => r.space == 0).foldl (fun s r =>
    eachPiece e.c.asn r.addr r.data.length (fun s ppn n => coreWrites s e.die ppn n) s) s

/-- The lines of planned VIRTUAL buffers that lie in the given pages: the transactions an instruction makes. -/
def linesIn (bufs : List Buf) (vpns : List Nat) : Nat :=
  ((bufs.filter fun b => b.space == 0).map fun b =>
    (((pieces b.lo (b.hi - b.lo)).filter fun p => vpns.contains p.1).map fun p => cdiv p.2.2 64).sum).sum

/-! ### Waiting to start (R219, R298, R316, R318, R330) -/

/-- Whether a flight is a FUNC RELOAD. -/
def Flight.isReload (f : Flight) : Bool := opOf f.w == 0x26 && subOf f.w == 1

/-- The table of a FUNC word. -/
def tableOfWord (w : Nat) : Nat := bits w 49 48

/-- The tables an instruction evaluates: that of an APPLY, those that the steps of a RUN look up (R316). -/
def Core.tableUse (k : Core) (f : Flight) : List Nat :=
  if isRow 0x26 0 f.w then [tableOfWord f.w]
  else if isRow 0x27 0 f.w then lookups (slotSteps ((k.blend.getD (bits f.w 51 48) none).getD .invalid))
  else []

/-- Whether the function tables let an instruction start (R316): an APPLY or RUN waits for every earlier RELOAD of a table it uses; a
RELOAD waits for every earlier user of the bank it would load, which a RELOAD completed since has made the shadow. -/
def tablesReady (k : Core) (before : List Flight) (f : Flight) : Bool :=
  if f.isReload then before.all fun g => !(g.olds.contains (tableOfWord f.w) && (k.tableUse g).contains (tableOfWord f.w))
  else before.all fun g => !(g.isReload && (k.tableUse f).contains (tableOfWord g.w))

/-- The blend slot of a BLEND word. -/
def blendSlotOf (w : Nat) : Option Nat := if opOf w = 0x27 then some (bits w 51 48) else none

/-- Whether the blend slots let a BLEND start (R330): loads and runs of one slot keep their order. -/
def slotsReady (before : List Flight) (f : Flight) : Bool :=
  before.all fun g => (blendSlotOf f.w).isNone || blendSlotOf g.w != blendSlotOf f.w || isLoad g.w == isLoad f.w

/-- Whether an instruction may start beside those issued before it that have not completed (R219, R298, R316, R330). -/
def canBegin (k : Core) (before : List Flight) (f : Flight) : Bool :=
  enginesReady before f && ((unitOf f.w).isNone || before.all fun g => unitOf g.w != unitOf f.w) &&
  tablesReady k before f && slotsReady before f

/-- The engines a started instruction holds until it completes (R219). -/
def enginesFor (before : List Flight) (w : Nat) : List Nat :=
  if oneEngine w then (freeEngine before).toList else if onEngines w then List.range 16 else []

/-! ### Effects of a start -/

/-- The forms of an instruction that does unit work: its checks at decode with what it touches, its checks at issue with what it reads
then, and what it does. -/
structure UnitOps where
  prep : Env → Nat → Except Halt Prep
  check : Env → Nat → Except Halt Issued
  run : Env → Nat → Except Halt Plan

/-- Checks at issue that read nothing the instruction keeps. -/
def plainCheck {α : Type} (f : Env → Nat → Except Halt α) (e : Env) (w : Nat) : Except Halt Issued := (f e w).map fun _ => {}

/-- The opcode and SUBOP of a word. -/
def rowOf (w : Nat) : Nat × Nat := (opOf w, subOf w)

/-- The unit work of an opcode and SUBOP (R158, R165). -/
def unitOps (w : Nat) : Option UnitOps :=
  match rowOf w with
  | (0x10, 0) => some ⟨copyPrep [0, 1, 2] [1, 2], lsCheck, copyRun⟩
  | (0x10, 1) => some ⟨xregPrep, xregCheck, xregRun⟩
  | (0x11, 0) => some ⟨copyPrep [1, 2] [0], lsCheck, copyRun⟩
  | (0x11, 1) => some ⟨intPrep [2, 0], lsCheck, int32Run fun a b => a + b⟩
  | (0x11, 2) => some ⟨intPrep [2], lsCheck, int32Run smin⟩
  | (0x11, 3) => some ⟨intPrep [2], lsCheck, int32Run smax⟩
  | (0x11, 4) => some ⟨casPrep, fun _ _ => .ok {}, casRun⟩
  | (0x11, 5) => some ⟨floatAddPrep false, lsCheck, addFloatRun⟩
  | (0x11, 6) => some ⟨floatAddPrep true, plainCheck orderedWait, orderedRun⟩
  | (0x11, 7) => some ⟨intPrep [0], plainCheck int64Pair, int64Run⟩
  | (0x13, 0) => some ⟨leesPrep, plainCheck leesCheck, leesRun⟩
  | (0x20, 0) => some ⟨prodPrep, prodCheck, prodRun⟩
  | (0x21, _) => some ⟨attnPrep, attnCheck, attnRun⟩
  | (0x22, 0) => some ⟨convPrep, plainCheck convCheck, convRun⟩
  | (0x23, 0) => some ⟨poolPrep, plainCheck poolCheck, poolRun poolMaxOf⟩
  | (0x23, 1) => some ⟨poolPrep, plainCheck poolCheck, poolRun poolAvgOf⟩
  | (0x23, 2) => some ⟨poolPrep, plainCheck nearestCheck, nearestRun⟩
  | (0x24, 0) => some ⟨statPrep, plainCheck statsCheck, statsRun⟩
  | (0x24, 1) => some ⟨statPrep, plainCheck mergeCheck, mergeRun⟩
  | (0x24, 2) => some ⟨normPrep, plainCheck normCheck, foldNormRun⟩
  | (0x25, _) => some ⟨vecPrep, plainCheck vecCheck, vecRun⟩
  | (0x26, 0) => some ⟨pairPrep [(127, 50)], plainCheck applyCheck, applyRun⟩
  | (0x26, 1) => some ⟨loadPrep [(127, 50)], plainCheck imageDesc, reloadRun⟩
  | (0x27, 0) => some ⟨pairPrep [(127, 52)], plainCheck pairCheck, blendRunRun⟩
  | (0x27, 1) => some ⟨loadPrep [(127, 52)], plainCheck imageDesc, blendLoadRun⟩
  | _ => none

/-- The function tables as an instruction sees them: of those reloaded after it, the bank it is to evaluate is the shadow (R316). -/
def viewTables (tables : List (TableBank × TableBank)) (olds : List Nat) : List (TableBank × TableBank) :=
  olds.foldl (fun ts t => modAt ts t fun b => (b.2, b.1)) tables

/-- A core as an instruction of it that has issued finds it: with its own registers, index and ordinal. -/
def envAt (s : State) (c : Ctx) (core : Nat) (k : Core) (j : Job) (f : Flight) : Env :=
  { s := s, c := c, core := core, j := j
    k := { k with x := f.xs, pc := f.index, ordinal := f.ordinal, tables := viewTables k.tables f.olds }
    id := f.id, par := f.par, since := f.since, fill := f.fill }

/-- A flight leaves without an effect. -/
def Core.drop (id : Nat) (k : Core) : Core := { k with flight := k.flight.filter fun f => f.id != id }

/-- How an instruction in flight stops: a clean stop takes it out of flight, a held write leaves it there. -/
def haltFlight (e : Env) (h : Halt) : State :=
  match h with
  | .stop _ => modCore (haltCore e h) e.c.asn e.core (Core.drop e.id)
  | _ => haltCore e h

/-- Whether operands may keep the engines waiting (R244 to R246): those in core store never do. -/
def mayStall (f : Flight) (p : Plan) : Bool := onEngines f.w && p.beats.allBeats != 0 && f.bufs.any fun b => b.space != 1

/-- Operand stalls of an engine instruction, which depend on the memory system: a free value (R246, R677; notes/assumptions/75). -/
def stallBeats (s : State) (f : Flight) (p : Plan) : Acct :=
  if mayStall f p then { Acct.zero with stall := Config.operandStall s.free } else Acct.zero

/-- A core's own fields once an instruction of it has started and done its work; `later` are sampled tiles that find the taster's
queue full (R396). What still waits in a job that is stopping is abandoned (R211). -/
def Plan.onCore (p : Plan) (e : Env) (want : Nat) (later : List TasterTile) (k : Core) : Core :=
  let before := k.flight.takeWhile fun g => g.id != e.id
  let start := fun (g : Flight) =>
    if g.id = e.id then
      { g with
        started := true
        engines := if g.started then g.engines else enginesFor before g.w
        verdicts := p.verdicts, sampled := later, wait := p.wait, want := want }
    else g
  let k1 := p.regs.foldl (fun k r => k.setX r.1 r.2) k
  let k2 : Core := { k1 with
    flight := k1.flight.map start
    tables := match p.shadow with
      | some x => modAt k1.tables x.1 fun b => (b.1, x.2)
      | none => k1.tables
    blend := match p.blend with
      | some x => k1.blend.set x.1 (some x.2)
      | none => k1.blend
    casOk := p.casOk <|> k1.casOk }
  if e.j.fate != .running && p.wait != .none then k2.drop e.id else k2

/-- What a start that waits for another party does to the context: a STORE ORDERED opens its track where there is room (R251), a core
whose PIECE waits is parked (R278). -/
def noteWait (s : State) (asn core : Nat) (w : FlightWait) : State :=
  match w with
  | .none => s
  | .ordered _ _ _ _ _ => modCtx s asn fun c => openTracks c (core / 16)
  | .piece _ => notePark s asn core

/-- One write as a run of its own. -/
def EW.run (x : EW) : Run := { space := x.space, addr := x.addr / 8, data := leBytes (x.w / 8) x.v }

/-- An instruction does its work: its writes where every page takes them, its flags, its beats, the tiles it gives the taster. -/
def perform (e : Env) (f : Flight) (pages : List Nat) (p : Plan) : State :=
  let ws := freePads (e.s.free + p.free) p.ews
  let rs := if p.adds then ws.map EW.run else runsOf e ws
  let room := 8 - e.cluster.taster.length
  match checkPages e (runPages rs) with
  | .error h => haltFlight e h
  | .ok _ =>
    let asn := e.c.asn
    let s1 := e.noteWrites rs (e.noteReads pages (putRuns e.s asn e.core rs))
    let s2 := modCtx (orFlags s1 asn p.flags) asn fun c => { c.count e.die (p.beats.add (stallBeats e.s f p)) with
      clusters := modAt c.clusters (e.core / 16) fun q => { q with taster := q.taster ++ p.taster.take room } }
    let s3 := modCore s2 asn e.core (p.onCore e (linesIn f.bufs (pages ++ runPages rs)) (p.taster.drop room))
    let s4 := { s3 with free := s3.free + p.free + padsDrawn p.ews + b2n (mayStall f p) }
    let s5 := if p.taster.isEmpty then s4 else bumpPrec s4 (e.prec + 0x80) p.taster.length
    noteWait s5 asn e.core p.wait

/-- An instruction runs: it meets the errors in the cells it reads, faults, or does its work. Where it faults it writes nothing, also
of the parts that lie before the fault (R231; DESIGN CHOICE, notes/assumptions/61). -/
def runFlight (e : Env) (f : Flight) (run : Env → Nat → Except Halt Plan) : State :=
  let go := fun (x : Env) => run x f.w
  let e1 := e.met go
  match go e1 with
  | .error h => haltFlight e1 h
  | .ok p => perform e1 f (e1.pagesRead f.bufs go) p

/-- Whether an instruction in flight may start on a core now: a core with a held write, or parked with leaving its clusters pending,
starts table and blend loads only, for which a cork waits (R318, R461, R661; DEDUCED, notes/assumptions/26). -/
def mayBegin (c : Ctx) (k : Core) (f : Flight) : Bool :=
  c.seatedNow && !f.started && canBegin k (k.flight.takeWhile fun g => g.id != f.id) f &&
  (isLoad f.w || (k.hold.isNone && !(c.leaving && k.isParked)))

/-- Starts one instruction in flight of a core if it may start. -/
def tryStart (asn core : Nat) (s : State) (id : Nat) : State :=
  match ctxOf s asn, coreOf s asn core with
  | some c, some k => match c.job, k.flight.find? fun f => f.id == id with
    | some j, some f =>
      if mayBegin c k f then (unitOps f.w).elim s fun u => runFlight (envAt s c core k j f) f u.run else s
    | _, _ => s
  | _, _ => s

/-- The transactions of a started instruction take tracker entries, as many as there are and it wants (R509, R510). -/
def Flight.grant (room : Nat) (f : Flight) : Flight :=
  if f.started && f.wait == .none && f.entries == 0 then { f with entries := min f.want room } else f

/-- Entries are granted in issue order. -/
def grantFlights (room : Nat) : List Flight → List Flight
  | [] => []
  | f :: t => let g := f.grant room
              g :: grantFlights (room - (g.entries - f.entries)) t

/-- Instructions of a core take tracker entries: one core never holds more than 1,024 (R509). -/
def Core.grant (room : Nat) (k : Core) : Core := { k with flight := grantFlights (min room (1024 - k.entries)) k.flight }

/-- Every instruction in flight of a core that may start does, in issue order, and the started ones take tracker entries. -/
def goCore (asn core : Nat) (s : State) : State :=
  match coreOf s asn core with
  | none => s
  | some k =>
    let s1 := (k.flight.map (·.id)).foldl (tryStart asn core) s
    match ctxOf s1 asn with
    | none => s1
    | some c =>
      let d := c.dieOfCore core
      notePeak (modCore s1 asn core (Core.grant (trackerRoom s1 d (c.cls == 0)))) d

/-- Every core of a context goes on. -/
def goCtx (s : State) (asn : Nat) : State :=
  match ctxOf s asn with
  | none => s
  | some c => (List.range c.cores.length).foldl (fun s i => goCore asn i s) s

/-! ### Issue -/

/-- The flight of an instruction that issues. -/
def newFlight (e : Env) (w : Nat) (pr : Prep) (i : Issued) : Flight :=
  { id := e.s.nextId, index := e.k.pc, word := BitVec.ofNat 128 w, bufs := pr.bufs, regs := pr.writes, cas := isRow 0x11 4 w
    sem := sigSem w, verdicts := 0, sampled := [], wait := .none, xs := e.k.x, par := i.par, windowed := i.windowed
    ordinal := e.k.ordinal, since := i.since, fill := false, started := false, engines := [], olds := [], want := 0, entries := 0 }

/-- A core's own fields after an instruction issues. -/
def Core.issue (f : Flight) (i : Issued) (k : Core) : Core :=
  let f1 := { f with fill := onEngines f.w && enginesReady k.flight f }
  { k with
    pc := k.pc + 1
    flight := (if f.cas then k.flight.map fun g => { g with cas := false } else k.flight) ++ [f1]
    esc := i.esc.getD k.esc
    ordinal := if i.windowed then k.ordinal + 1 else k.ordinal }

/-- An instruction takes its place in flight (R157). -/
def place (e : Env) (w : Nat) (pr : Prep) (i : Issued) (pages : List Nat) : State :=
  let s1 := modCore (e.noteReads pages (noteFirst e)) e.c.asn e.core (Core.issue (newFlight e w pr i) i)
  { s1 with nextId := e.s.nextId + 1 }

/-- An instruction issues: it is in flight, and starts at once if it may (R157, R219, R298). -/
def issueUnit (e : Env) (w : Nat) (pr : Prep) (i : Issued) (pages : List Nat) : State := goCore e.c.asn e.core (place e w pr i pages)

/-- A unit-work instruction of a core: decoded, held back while it must wait, checked, then issued (R158). -/
def unitBody (s : State) (e : Env) (w : Nat) : State :=
  match unitOps w with
  | none => s
  | some u => match u.prep e w with
    | .error h => haltCore e h
    | .ok pr =>
      if mustWait e.k w pr then s
      else
        let go := fun (x : Env) => u.check x w
        let e1 := e.met go
        match go e1 with
        | .error h => haltCore e1 h
        | .ok i => issueUnit e1 w pr i (e1.pagesRead pr.bufs go)

/-- One row of unit work. -/
def unitRow (s : State) (asn core : Nat) (mine : Nat → Bool) : State := tileRow s asn core mine (unitBody s)

/-- A row that a mode epoch holds at issue while it is pending (R680): FUNC APPLY, or a PROD in a precision window. -/
def epochRow (s : State) (asn core : Nat) (mine : Nat → Bool) (taster : Bool) : State :=
  tileRow s asn core mine fun e w =>
    if (!taster || e.window.isSome) && epochHolds e taster then modCore e.s asn core fun k => { k with run := .epochHold }
    else unitBody s e w

/-! ### Rows -/

/-- LOAD_COPY (R170). -/
def execLoadCopy (asn core : Nat) (s : State) : Host.Outcome State Fault Refusal :=
  event (Instr.wf (.loadCopy asn core)) s fun s => unitRow s asn core (isRow 0x10 0)

/-- STORE_COPY (R170). -/
def execStoreCopy (asn core : Nat) (s : State) : Host.Outcome State Fault Refusal :=
  event (Instr.wf (.storeCopy asn core)) s fun s => unitRow s asn core (isRow 0x11 0)

/-- LOAD_XREG (R170). -/
def execLoadXreg (asn core : Nat) (s : State) : Host.Outcome State Fault Refusal :=
  event (Instr.wf (.loadXreg asn core)) s fun s => unitRow s asn core (isRow 0x10 1)

/-- STORE_ADD_INT32 (R143, R145). -/
def execStoreAddInt32 (asn core : Nat) (s : State) : Host.Outcome State Fault Refusal :=
  event (Instr.wf (.storeAddInt32 asn core)) s fun s => unitRow s asn core (isRow 0x11 1)

/-- STORE_MIN_INT32 (R143). -/
def execStoreMinInt32 (asn core : Nat) (s : State) : Host.Outcome State Fault Refusal :=
  event (Instr.wf (.storeMinInt32 asn core)) s fun s => unitRow s asn core (isRow 0x11 2)

/-- STORE_MAX_INT32 (R143). -/
def execStoreMaxInt32 (asn core : Nat) (s : State) : Host.Outcome State Fault Refusal :=
  event (Instr.wf (.storeMaxInt32 asn core)) s fun s => unitRow s asn core (isRow 0x11 3)

/-- STORE_ADD_INT64 (R145). -/
def execStoreAddInt64 (asn core : Nat) (s : State) : Host.Outcome State Fault Refusal :=
  event (Instr.wf (.storeAddInt64 asn core)) s fun s => unitRow s asn core (isRow 0x11 7)

/-- STORE_CAS (R144). -/
def execStoreCas (asn core : Nat) (s : State) : Host.Outcome State Fault Refusal :=
  event (Instr.wf (.storeCas asn core)) s fun s => unitRow s asn core (isRow 0x11 4)

/-- STORE_ADD_FLOAT (R142). -/
def execStoreAddFloat (asn core : Nat) (s : State) : Host.Outcome State Fault Refusal :=
  event (Instr.wf (.storeAddFloat asn core)) s fun s => unitRow s asn core (isRow 0x11 5)

/-- STORE_ORDERED (R248). -/
def execStoreOrdered (asn core : Nat) (s : State) : Host.Outcome State Fault Refusal :=
  event (Instr.wf (.storeOrdered asn core)) s fun s => unitRow s asn core (isRow 0x11 6)

/-- MAT_PROD (R216). -/
def execMatProd (asn core : Nat) (s : State) : Host.Outcome State Fault Refusal :=
  event (Instr.wf (.matProd asn core)) s fun s => epochRow s asn core (isRow 0x20 0) true

/-- VEC_EW (R301). -/
def execVecEw (asn core : Nat) (s : State) : Host.Outcome State Fault Refusal :=
  event (Instr.wf (.vecEw asn core)) s fun s => unitRow s asn core (isRow 0x25 0)

/-- VEC_ROWB (R301). -/
def execVecRowb (asn core : Nat) (s : State) : Host.Outcome State Fault Refusal :=
  event (Instr.wf (.vecRowb asn core)) s fun s => unitRow s asn core (isRow 0x25 1)

/-- VEC_COLB (R301). -/
def execVecColb (asn core : Nat) (s : State) : Host.Outcome State Fault Refusal :=
  event (Instr.wf (.vecColb asn core)) s fun s => unitRow s asn core (isRow 0x25 2)

/-- VEC_REDUCE (R304). -/
def execVecReduce (asn core : Nat) (s : State) : Host.Outcome State Fault Refusal :=
  event (Instr.wf (.vecReduce asn core)) s fun s => unitRow s asn core (isRow 0x25 3)

/-- FUNC_APPLY (R309). -/
def execFuncApply (asn core : Nat) (s : State) : Host.Outcome State Fault Refusal :=
  event (Instr.wf (.funcApply asn core)) s fun s => epochRow s asn core (isRow 0x26 0) false

/-- FUNC_RELOAD (R315). -/
def execFuncReload (asn core : Nat) (s : State) : Host.Outcome State Fault Refusal :=
  event (Instr.wf (.funcReload asn core)) s fun s => unitRow s asn core (isRow 0x26 1)

/-- BLEND_RUN (R329). -/
def execBlendRun (asn core : Nat) (s : State) : Host.Outcome State Fault Refusal :=
  event (Instr.wf (.blendRun asn core)) s fun s => unitRow s asn core (isRow 0x27 0)

/-- BLEND_LOAD (R324). -/
def execBlendLoad (asn core : Nat) (s : State) : Host.Outcome State Fault Refusal :=
  event (Instr.wf (.blendLoad asn core)) s fun s => unitRow s asn core (isRow 0x27 1)

/-- FOLD_STATS (R333). -/
def execFoldStats (asn core : Nat) (s : State) : Host.Outcome State Fault Refusal :=
  event (Instr.wf (.foldStats asn core)) s fun s => unitRow s asn core (isRow 0x24 0)

/-- FOLD_MERGE (R334). -/
def execFoldMerge (asn core : Nat) (s : State) : Host.Outcome State Fault Refusal :=
  event (Instr.wf (.foldMerge asn core)) s fun s => unitRow s asn core (isRow 0x24 1)

/-- FOLD_NORM (R335). -/
def execFoldNorm (asn core : Nat) (s : State) : Host.Outcome State Fault Refusal :=
  event (Instr.wf (.foldNorm asn core)) s fun s => unitRow s asn core (isRow 0x24 2)

/-- ATTN_WINDOW (R256). -/
def execAttnWindow (asn core : Nat) (s : State) : Host.Outcome State Fault Refusal :=
  event (Instr.wf (.attnWindow asn core)) s fun s => unitRow s asn core (isRow 0x21 0)

/-- ATTN_CROSS (R256). -/
def execAttnCross (asn core : Nat) (s : State) : Host.Outcome State Fault Refusal :=
  event (Instr.wf (.attnCross asn core)) s fun s => unitRow s asn core (isRow 0x21 1)

/-- ATTN_PIECE (R256, R277). -/
def execAttnPiece (asn core : Nat) (s : State) : Host.Outcome State Fault Refusal :=
  event (Instr.wf (.attnPiece asn core)) s fun s => unitRow s asn core (isRow 0x21 2)

/-- LEES_CHECK (R286). -/
def execLeesCheck (asn core : Nat) (s : State) : Host.Outcome State Fault Refusal :=
  event (Instr.wf (.leesCheck asn core)) s fun s => unitRow s asn core (isRow 0x13 0)

/-- CONV (R343). -/
def execConvolve (asn core : Nat) (s : State) : Host.Outcome State Fault Refusal :=
  event (Instr.wf (.convolve asn core)) s fun s => unitRow s asn core (isRow 0x22 0)

/-- POOL_MAX (R360). -/
def execPoolMax (asn core : Nat) (s : State) : Host.Outcome State Fault Refusal :=
  event (Instr.wf (.poolMax asn core)) s fun s => unitRow s asn core (isRow 0x23 0)

/-- POOL_AVG (R361). -/
def execPoolAvg (asn core : Nat) (s : State) : Host.Outcome State Fault Refusal :=
  event (Instr.wf (.poolAvg asn core)) s fun s => unitRow s asn core (isRow 0x23 1)

/-- POOL_NEAREST (R362). -/
def execPoolNearest (asn core : Nat) (s : State) : Host.Outcome State Fault Refusal :=
  event (Instr.wf (.poolNearest asn core)) s fun s => unitRow s asn core (isRow 0x23 2)

/-! ### Completion -/

/-- A RELOAD that completes swaps the bank of its table (R315); for the instructions issued before it that bank is now the shadow
(R316). -/
def Core.swapTable (f : Flight) (before : List Flight) (k : Core) : Core × List Flight :=
  if f.isReload then
    let t := tableOfWord f.w
    ({ k with tables := modAt k.tables t fun b => (b.2, b.1) },
     before.map fun g => { g with olds := if g.olds.contains t then g.olds else g.olds ++ [t] })
  else (k, before)

/-- A flight leaves: those behind it keep their order. -/
def Core.finish (id : Nat) (k : Core) : Core :=
  match k.flight.find? fun f => f.id == id with
  | none => k
  | some f =>
    let r := k.swapTable f (k.flight.takeWhile fun g => g.id != id)
    { r.1 with flight := r.2 ++ (k.flight.dropWhile fun g => g.id != id).drop 1 }

/-- Whether nothing keeps an instruction in flight: it has started (R219, R298), waits for no other party, every verdict is in (R389),
and its transactions hold tracker entries (R510). -/
def Flight.ready (f : Flight) : Bool :=
  f.started && f.wait == .none && f.verdicts == 0 && (f.want == 0 || decide (0 < f.entries))

/-- Errors that were corrected while an instruction ran, in the stores and pools of its die and in the control arrays of the hub, are
counted in REL_CORR_d and REL_CORR_HUB (R723). -/
def onDieErrors (s : State) (d : Nat) (errs : Completion) : State :=
  let s1 := modDie s d fun x => { x with corr := sat32 (x.corr + errs.corrected) }
  { s1 with rel := { s1.rel with corrHub := sat32 (s1.rel.corrHub + errs.hub) } }

/-- An instruction in flight completes once nothing keeps it (R157, R198, R389); what waited for its engines or unit starts. An
uncorrectable error it met in its die's state is a job fault (R213, R723). -/
def instructionComplete (s0 : State) (asn core : Nat) (errs : Completion) : State :=
  match (ctxOf s0 asn).map (·.seatedNow) with
  | some true =>
    let s := goCore asn core s0
    match ctxOf s asn, (coreOf s asn core).bind fun k => k.flight.find? fun f => f.id == errs.id with
    | some c, some f =>
      if f.ready then
        let d := c.dieOfCore core
        let s1 := onDieErrors s d errs
        if errs.uncorrected then dieFault s1 d .stateUncorrectable true (some asn) (some core) (some f.index)
        else
          let s2 := goCore asn core (modCore s1 asn core (Core.finish errs.id))
          match f.sem with
          | some i => addSem s2 asn i 1
          | none => s2
      else s0
    | _, _ => s0
  | _ => s0

/-- INSTRUCTION_COMPLETE (R157, R198). -/
def execInstructionComplete (asn core : Nat) (errs : Completion) (s : State) : Host.Outcome State Fault Refusal :=
  event (Instr.wf (.instructionComplete asn core errs)) s fun s => instructionComplete s asn core errs

/-! ### What waits for another party -/

/-- An instruction in flight of a core, with the core as the instruction finds it. -/
def flightEnv (s : State) (asn core id : Nat) : Option (Env × Flight) :=
  match ctxOf s asn, coreOf s asn core with
  | some c, some k => match c.job, k.flight.find? fun f => f.id == id with
    | some j, some f => if c.seatedNow then some (envAt s c core k j f, f) else none
    | _, _ => none
  | _, _ => none

/-- The turn of a contribution comes: index i after i − 1 of the same accumulation (R249, R252). -/
def orderedTurn (s : State) (asn core id : Nat) : State :=
  match flightEnv s asn core id with
  | none => s
  | some (e, f) => match f.wait with
    | .ordered lo len fm cnt idx =>
      let cl := core / 16
      let turn := e.cluster.tracks.any fun t => t.lo == lo && t.len == len && t.fmt == fm && t.cnt == cnt && t.next == idx
      if turn then
        let s1 := runFlight e f (orderedNow (idx == 0))
        if ((coreOf s1 asn core).map fun k => k.flight.any fun g => g.id == id && g.wait == .none) = some true then
          goCore asn core (modCtx s1 asn fun c => advanceTrack c cl lo cnt idx)
        else s1
      else s
    | _ => s

/-- ORDERED_TURN (R249). -/
def execOrderedTurn (asn core id : Nat) (s : State) : Host.Outcome State Fault Refusal :=
  event (Instr.wf (.orderedTurn asn core id)) s fun s => orderedTurn s asn core id

/-- The landing counts a PIECE waits for are reached: it runs its key steps up to the next that has not landed (R277 to R279). -/
def pieceLandingReady (s : State) (asn core id : Nat) : State :=
  match flightEnv s asn core id with
  | none => s
  | some (e, f) => match f.wait with
    | .piece pc => if e.k.hold.isSome then s else goCore asn core (runFlight e f (pieceRun pc))
    | _ => s

/-- PIECE_LANDING_READY (R277). -/
def execPieceLandingReady (asn core id : Nat) (s : State) : Host.Outcome State Fault Refusal :=
  event (Instr.wf (.pieceLandingReady asn core id)) s fun s => pieceLandingReady s asn core id

/-! ### Moves of pages that writes wait for -/

/-- PROMOTION_DONE (R460): the writes held for the page leave (R461). -/
def execPromotionDone (asn vpn : Nat) (s : State) : Host.Outcome State Fault Refusal :=
  event (Instr.wf (.promotionDone asn vpn)) s fun s => goCtx (promotionDone s asn vpn) asn

/-- MIGRATE_PAGE_DONE (R459): likewise for the page that has moved. -/
def execMigratePageDone (asn : Nat) (s : State) : Host.Outcome State Fault Refusal :=
  event (Instr.wf (.migratePageDone asn)) s fun s => goCtx (migratePageDone s asn) asn

end Sys2Proof.Machine
end

