-- ==== Sys2Proof/Machine/Taster.lean ====
section
/-! DEFINITION. Machine/Taster.lean: the verdicts of the taster (R386 to R399) and what they replace, count and escalate. -/

namespace Sys2Proof.Machine

/-- Whether an element decides a comparison for failure: one side non-finite, or both and unequal (R387). -/
def clashes (y r : XV) : Bool :=
  (y.finite != r.finite) || (!y.finite && !r.finite && !(y == r))

/-- The error of a tile against the reference (R387): +∞ as such. -/
def tasteError (y r : List Word) : XV :=
  let ps := (y.zip r).map fun p => (f32 p.1.toNat, f32 p.2.toNat)
  if ps.any fun p => clashes p.1 p.2 then .inf false
  else
    let fs := ps.filter fun p => p.1.finite && p.2.finite
    let num := fs.foldl (fun m p => maxAbs m (sub32 p.1 p.2).1) XV.zero
    let den := fs.foldl (fun m p => maxAbs m p.2) XV.zero
    if num.isZero then XV.zero else if den.isZero then .inf false else (div32 num den).1

/-- Whether a tile fails (R387). -/
def tasteFails (bound : Word) (y r : List Word) : Bool := (f32 bound.toNat).lt (tasteError y r)

/-- A failed tile counts for its window (R390, R392). -/
def noteFail (t : TasterTile) (k : Core) : Core :=
  { k with esc := modAt k.esc t.window fun r => { r with fails := r.fails ++ [t.ordinal] } }

/-- The count of an escalation record (R392). -/
def EscRecord.count (r : EscRecord) : Nat := (r.fails.filter fun j => decide (r.since ≤ j)).length

/-- The first time a core reaches ESC_LIMIT for a window under a pass value: PREC_WIDE, and TASTE_ESCALATION once for the
context (R395). -/
def noteWide (s : State) (asn : Nat) (t : TasterTile) : State :=
  match ctxOf s asn, coreOf s asn t.core with
  | some c, some k =>
    let d := c.dieOfCore t.core
    let sl := (c.slots.getD d none).getD 0
    let base := precBase d sl
    let limit := regBits s base 15 8
    let r := k.record t.window
    if limit ≠ 0 ∧ limit ≤ r.count ∧ !r.reached.contains r.pass then
      let s1 := modCore (bumpPrec s (base + 0x88) 1) asn t.core fun k =>
        { k with esc := modAt k.esc t.window fun r => { r with reached := r.reached ++ [r.pass] } }
      if c.tasteSent.contains (t.window, r.pass) then s1 else
        let s2 := modCtx s1 asn fun c => { c with tasteSent := c.tasteSent ++ [(t.window, r.pass)] }
        sendMsg s2 0x0040 [(16, 1, d), (17, 1, sl), (18, 1, t.window), (19, 1, asn), (20, 2, c.coreId t.core),
          (24, 4, t.layer.toNat), (28, 4, t.pass.toNat), (32, 4, r.count)]
    else s
  | _, _ => s

/-- The instruction of a core whose sampled tiles wait for a place in the queue. -/
def Core.sampling (k : Core) : Option Flight := k.flight.find? fun f => !f.sampled.isEmpty

/-- A core without the first of its sampled tiles that wait. -/
def Core.dropSampled (k : Core) : Core :=
  { k with flight := match k.sampling with
      | none => k.flight
      | some f => k.flight.map fun g => if g.id = f.id then { g with sampled := g.sampled.drop 1 } else g }

/-- A place of a cluster's queue that is free goes to the next sampled tile of a stalled PROD (R396), of the lowest core that has one
(DESIGN CHOICE, notes/assumptions/28). -/
def refillQueue (s : State) (asn cl : Nat) : State :=
  match ctxOf s asn with
  | none => s
  | some c =>
    if 8 ≤ (c.clusters.getD cl newCluster).taster.length then s
    else match (List.range 16).findSome? fun i =>
        (((c.cores[16 * cl + i]?).bind Core.sampling).bind fun f => f.sampled.head?).map fun t => (16 * cl + i, t) with
      | none => s
      | some (core, t) => modCtx s asn fun c => { c with
          cores := modAt c.cores core Core.dropSampled
          clusters := modAt c.clusters cl fun q => { q with taster := q.taster ++ [t] } }

/-- The replacement writes of a verdict as runs. -/
def rawWrites (ws : List (Nat × Nat × Bytes)) : List Run := ws.map fun w => { space := w.1, addr := w.2.1, data := w.2.2 }

/-- What a verdict comes to (R387, R388): whether the tile failed, the replacement writes, the flags of the result that stands, and
the taster's beats (R397). -/
structure Verdict where
  fail : Bool
  runs : List Run
  flags : Nat
  beats : Nat
  deriving DecidableEq, Repr

/-- The verdict on a sampled tile (R387, R388). -/
def TasterTile.verdict (t : TasterTile) : Verdict :=
  let fail := tasteFails t.bound t.y t.r
  let use8 := fail && t.width == 4
  let pass8 := use8 && !tasteFails t.bound t.y8 t.r
  { fail := fail
    runs := if !fail then [] else rawWrites (if pass8 then t.writes8 else t.writesR)
    flags := if !fail then t.flagsY else if pass8 then t.flags8 else t.flagsR
    beats := t.beats16 + (if use8 then t.beats8 else 0) }

/-- A verdict of cluster `cl` on a tile whose replacement writes may leave: they are done, the tile leaves the queue, and its PROD has
one verdict less to wait for (R388 to R390, R396). -/
def giveVerdict (e : Env) (cl : Nat) (t : TasterTile) (v : Verdict) : State :=
  let asn := e.c.asn
  let base := e.prec
  let done := fun (f : Flight) => if f.id = t.flight then { f with verdicts := f.verdicts - 1 } else f
  let s1 := e.noteWrites v.runs (putRuns e.s asn t.core v.runs)
  let s2 := modCtx (orFlags s1 asn v.flags) asn fun c => { c.count e.die { Acct.zero with taste := v.beats } with
    clusters := modAt c.clusters cl fun q => { q with taster := q.taster.drop 1 } }
  let s3 := refillQueue (modCore s2 asn t.core fun k => { k with flight := k.flight.map done }) asn cl
  let s4 := if v.fail then noteWide (modCore (bumpPrec s3 (base + 0x84) 1) asn t.core (noteFail t)) asn t else s3
  (List.range 16).foldl (fun s i => goCore asn (16 * cl + i) s) s4

/-- The verdict on the oldest sampled tile of a cluster (R387 to R390), taken where the tile leaves the queue (R396, R399). Its
replacement writes are writes of the tile's core: a bad page is a job fault (R194, R453), and one in the cellar is promoted first,
while the core holds the write (R460, R461). -/
def tasterVerdict (s : State) (asn cl : Nat) : State :=
  match ctxOf s asn with
  | none => s
  | some c => match (c.clusters.getD cl newCluster).taster with
    | [] => s
    | t :: _ =>
      if !c.seatedNow || !canTaste s c cl then s else
        match flightEnv s asn t.core t.flight with
        | none => s
        | some (e, _) =>
          if e.k.hold.isSome then s else
            let v := t.verdict
            match checkPages e (runPages v.runs) with
            | .error h => haltCore e h
            | .ok _ => giveVerdict e cl t v

/-- TASTER_VERDICT (R387). -/
def execTasterVerdict (asn cluster : Nat) (s : State) : Host.Outcome State Fault Refusal :=
  event (Instr.wf (.tasterVerdict asn cluster)) s fun s => tasterVerdict s asn cluster

end Sys2Proof.Machine
end

