-- ==== Sys2Proof/Machine/Link.lean ====
section
/-! DEFINITION. Machine/Link.lean: Vinelink ports (R526 to R533, R796), groups (R537 to R543), the trellis table (R544 to
R546) and firings: start, clear-to-send, packets, completion, stops and the group watchdog (R547 to R572, R797). -/

namespace Sys2Proof.Machine

/-! ### Bundles -/

/-- Whether firings move: the module is READY (R572, R716 step 3). -/
def linksRun (s : State) : Bool := s.hub.boot == .ready && s.hub.powered

/-- Whether the hub's agents act and its ports carry traffic: READY, or before step 4 of Dormant entry (R716). -/
def hubRuns (s : State) : Bool := s.hub.powered && (s.hub.boot == .ready || s.hub.boot == .enteringDormant)

/-- Whether the ports idle in Dormant or at wake (R572, R716, R720). -/
def portsIdle (s : State) : Bool := s.hub.powered && (s.hub.boot == .dormant || s.hub.boot == .waking)

/-- What comes over a port: while the ports idle it stays on its way, in order, and comes after wake (R572; notes/assumptions/69). -/
def linkEvent (i : Instr) (f : State → State) (s : State) : State :=
  if hubRuns s then f s else if portsIdle s then { s with paused := s.paused ++ [i] } else s

/-- MOD_ID of this module (R573). -/
def modId (s : State) : Nat := regBits s 0x100000 11 0

/-- The configuration of port `n` (R575). -/
def portCfg (s : State) (n : Nat) : Nat := (getReg s (0x100100 + 4 * n)).toNat

/-- Whether a port carries traffic. -/
def Port.carries (p : Port) : Bool := p.state == .up || p.state == .up3

/-- Ports of the bundle to module `m` (R533). -/
def bundle (s : State) (m : Nat) : List Nat :=
  (List.range 18).filter fun n => (s.ports.getD n .reset).carries && bits (portCfg s n) 11 0 == m

/-- Whether some VL_PORT_CFG_n names module `m` (R567 NO_ROUTE). -/
def named (s : State) (m : Nat) : Bool := (List.range 18).any fun n => bits (portCfg s n) 11 0 == m

/-! ### Firings: shared parts -/

/-- Group slot `g`, where it is ACTIVE. -/
def activeGroup (s : State) (g : Nat) : Option Group := (s.groups.getD g none).filter fun x => !x.stale

/-- The slot of the ACTIVE group with a tag and generation (R538). -/
def findGroup (s : State) (tag gen : Nat) : Option (Nat × Group) :=
  (List.range 64).findSome? fun i => match activeGroup s i with
    | some g => if g.tag = tag ∧ g.gen = gen then some (i, g) else none
    | none => none

/-- Changes a group. -/
def modGroup (s : State) (i : Nat) (f : Group → Group) : State := { s with groups := modAt s.groups i fun g => g.map f }

/-- The firing of a group with a sequence number. -/
def findFiring (s : State) (slot seq : Nat) : Option Firing := s.firings.find? fun f => f.slot == slot && f.seq == seq

/-- Replaces a firing. -/
def setFiring (s : State) (f : Firing) : State :=
  { s with firings := s.firings.map fun x => if x.asn = f.asn ∧ x.entry = f.entry then f else x }

/-- The packets of a firing: offsets of pieces of 4 KiB (R534; notes/assumptions/22). -/
def packetOffsets (bytes : Nat) : List Nat := (List.range (cdiv bytes 4096)).map (4096 * ·)

/-- Length of the packet at an offset. -/
def packetLen (bytes off : Nat) : Nat := min 4096 (bytes - off)

/-- Where a run of ranges (offset, length) that starts at `p` ends. -/
def coverFrom (rs : List (Nat × Nat)) : Nat → Nat → Nat
  | 0, p => p
  | n + 1, p => match rs.find? fun r => decide (r.1 ≤ p) && decide (p < r.1 + r.2) with
    | some r => coverFrom rs n (r.1 + r.2)
    | none => p

/-- Bytes landed as a contiguous prefix of the destination (R550, R558). -/
def Firing.prefixLen (f : Firing) : Nat := min f.bytes (coverFrom f.landed f.landed.length 0)

/-- STATUS of a firing (R567). -/
inductive FireStatus where
  | unmapped | readOnly | lostPage | noRoute | sizeMismatch | formatMismatch | permInvalid | seqDup | peerAbort | ended
  deriving DecidableEq, Repr

/-- The STATUS byte. -/
def FireStatus.code : FireStatus → Nat
  | .unmapped => 2 | .readOnly => 3 | .lostPage => 4 | .noRoute => 5 | .sizeMismatch => 6 | .formatMismatch => 7
  | .permInvalid => 8 | .seqDup => 9 | .peerAbort => 10 | .ended => 11

/-- The status the job stops with (R567). -/
def FireStatus.job : FireStatus → Status
  | .formatMismatch => .formatUnsupported | .ended => .ended | _ => .bounds

/-- What an abort says beside its sequence number: the mismatch both partners stop with (R555), else nothing. -/
def FireStatus.reason : FireStatus → Nat
  | .sizeMismatch => 6 | .formatMismatch => 7 | _ => 0

/-- The status a failed translation gives. -/
def VErr.fire : VErr → FireStatus
  | .lost => .lostPage | .readOnly => .readOnly | _ => .unmapped

/-- The error of reading a virtual range by an agent that carries marks (R536). -/
def readError (s : State) (asn va len : Nat) : Option VErr :=
  (pieces va len).findSome? fun p => match pageOf s asn p.1 with
    | none => some .unmapped
    | some g => if g.lost then some .lost else none

/-- A firing's record (R550). -/
def fireRecord (f : Firing) (status : Nat) : Bytes :=
  record 32 [(0, 4, f.seq), (4, 1, status), (5, 1, f.flags % 16), (8, 8, f.prefixLen), (16, 4, f.k)]

/-- Free bytes: `n` bytes from the `i`-th free value on. -/
def freeBytes (i n : Nat) : Bytes := ((List.range (cdiv n 4)).flatMap fun j => leBytes 4 (Config.freeWord (i + j)).toNat).take n

/-- Whether a firing's record cannot be written now: its page is gone, or no longer has W = 1 (R443, R797). -/
def recordError (s : State) (f : Firing) : Option VErr := f.recVA.bind fun va => writeError s f.asn va 32

/-- Writes a firing's record where its page takes it; a record line that has become poisoned is overwritten whole and its mark cleared (R797): what
its other half then holds is a free value. -/
def writeRecord (s : State) (f : Firing) (status : Nat) : State :=
  match if (recordError s f).isSome then none else f.recVA with
  | none => s
  | some va =>
    let r := fireRecord f status
    if (virtPoison s f.asn va 32).isEmpty then agentWrite s f.asn va r
    else
      let fill := freeBytes s.free 32
      let line := if va % 64 = 0 then r ++ fill else fill ++ r
      { agentWrite s f.asn (va / 64 * 64) line with free := s.free + 8 }

/-- The partners of a firing beside the module itself. -/
def Firing.partners (f : Firing) (rank : Nat) : List Nat := [f.toRank, f.fromRank].eraseDups.filter fun r => r != rank

/-- Sends aborts for a firing to partners (R568), each with the reason it is given. -/
def sendAborts (s : State) (f : Firing) (ranks : Nat → List Nat) (reason : Nat → Nat) : State :=
  match s.groups.getD f.slot none with
  | none => s
  | some g => { s with out := s.out ++ (ranks g.rank).map fun r => Out.abort g.tag g.gen f.seq r (reason r) }

/-- A firing is over: it is no longer in progress. -/
def dropFiring (s : State) (f : Firing) : State :=
  modGroup { s with firings := s.firings.filter fun x => !(x.asn == f.asn && x.entry == f.entry) } f.slot fun g =>
    { g with overSeqs := f.seq :: g.overSeqs, overLanded := (f.seq, f.fromRank, f.landed) :: g.overLanded }

/-- A firing stops (R568): its record, its partners' aborts, its job with the entry number as index. `mate` is the partner that a
mismatch concerns: both stop with it (R555), the other partner with PEER_ABORT. -/
def stopFiring (s : State) (f : Firing) (st : FireStatus) (mate : Option Nat) : State :=
  let s1 := dropFiring (writeRecord s f st.code) f
  stopJob (sendAborts s1 f f.partners fun r => if mate = some r then st.reason else 0) f.asn st.job 0xFFFF f.entry

/-! ### Sending -/

/-- Packets of a group sent and not acknowledged (R543). -/
def inFlight (s : State) (slot : Nat) : Nat :=
  (s.firings.filter fun f => f.slot == slot).foldl (fun n f => n + f.unacked.length + f.resend.length) 0

/-- Whether a firing has a packet to send: one to be sent again, or a new one. -/
def Firing.hasNext (f : Firing) : Bool := !f.resend.isEmpty || !f.unsent.isEmpty

/-- The ports of a firing's bundle. -/
def Firing.ports (s : State) (f : Firing) : List Nat :=
  match activeGroup s f.slot with
  | some g => bundle s (g.members.getD f.toRank 0)
  | none => []

/-- Whether a firing may send its next packet now: it is cleared, its partner's bundle has a port, and its group a credit; a packet
sent again has kept its credit (R543, R554). -/
def maySend (s : State) (f : Firing) : Bool :=
  f.cleared && f.hasNext && linksRun s && !(f.ports s).isEmpty &&
  (!f.resend.isEmpty || (activeGroup s f.slot).any fun g => decide (inFlight s f.slot < g.credits))

/-- The packet of a firing at an offset as it is read from memory, with its poisoned lines (R536). -/
def readPacket (s : State) (f : Firing) (off : Nat) : HeldPacket :=
  let n := packetLen f.bytes off
  { off := off, data := virtBytes s f.asn (f.srcVA + off) n, poisoned := virtPoison s f.asn (f.srcVA + off) n }

/-- A packet on a port. -/
def packetOut (f : Firing) (g : Group) (port : Nat) (p : HeldPacket) : Out :=
  .packet port g.tag g.gen f.seq p.off f.toRank p.data p.poisoned

/-- Whether a firing's owning context has assigned class 0 (R571, R667). -/
def Firing.isClass0 (s : State) (f : Firing) : Bool := ((ctxOf s f.asn).map (·.cls)) == some 0

/-- A port has sent a packet: a port in UP_3 takes four thirds of the time of one in UP (R533, R577). `slot` is the group whose turn it
was, unless it went ahead as class 0 (R571). -/
def Port.served (slot : Option Nat) (p : Port) : Port :=
  { p with spent := p.spent + (if p.state = .up3 then 4 else 3), turn := slot.getD p.turn }

/-- A packet that is sent again counts at the port that went DOWN (R579). -/
def countResend (s : State) (n : Nat) : State :=
  { s with ports := modAt s.ports n fun p => { p with resend := sat32 (p.resend + 1) } }

/-- Hands a packet to a port. -/
def putPacket (s : State) (f : Firing) (g : Group) (port : Nat) (p : HeldPacket) : State :=
  { s with ports := modAt s.ports port (Port.served (if f.isClass0 s then none else some f.slot)), out := s.out ++ [packetOut f g port p] }

/-- Sends the next packet of a firing over a port: one its interface holds as it was, or a new one, which it reads and holds from
then on (R534); or stops the firing where the source page of a new one is gone (R536, R567). -/
def sendOne (s : State) (f : Firing) (port : Nat) : State :=
  match activeGroup s f.slot with
  | none => s
  | some g => match f.resend, f.unsent with
    | (p, from_) :: more, _ =>
      putPacket (countResend (setFiring s { f with resend := more, unacked := f.unacked ++ [p] }) from_) f g port p
    | [], off :: more => match readError s f.asn (f.srcVA + off) (packetLen f.bytes off) with
      | some e => stopFiring s f e.fire none
      | none =>
        let s1 := agentReads s f.asn (f.srcVA + off) (packetLen f.bytes off)
        let p := readPacket s1 f off
        putPacket (setFiring s1 { f with unsent := more, unacked := f.unacked ++ [p] }) f g port p
    | [], [] => s

/-- The firing a port serves next: class 0 before any others, the others round robin by group (R571). -/
def portServes (s : State) (port : Nat) (ready : List Firing) : Option Firing :=
  let mine := ready.filter fun f => (f.ports s).contains port
  let turn := (s.ports.getD port .reset).turn
  match mine.find? fun f => f.isClass0 s with
  | some f => some f
  | none => (List.range 64).findSome? fun i => mine.find? fun f => f.slot == (turn + 1 + i) % 64

/-- The port that sends next: of those with a ready packet the one that has sent for the least time, so that each bundle's packets
spread in proportion to the ports' rates (R533; which port takes which packet is DESIGN CHOICE, notes/assumptions/69). -/
def nextPort (s : State) (ready : List Firing) : Option Nat :=
  let ps := (List.range 18).filter fun n => ready.any fun f => (f.ports s).contains n
  ps.foldl (fun b n => match b with
    | none => some n
    | some m => if (s.ports.getD n .reset).spent < (s.ports.getD m .reset).spent then some n else b) none

/-- Sends up to `n` packets while packets are ready. -/
def sendN (n : Nat) (s : State) : State :=
  match n with
  | 0 => s
  | k + 1 =>
    let ready := s.firings.filter (maySend s)
    match nextPort s ready with
    | none => s
    | some p => match portServes s p ready with
      | none => s
      | some f => sendN k (sendOne s f p)

/-- Sends every packet that is ready. -/
def pumpPackets (s : State) : State := sendN (s.firings.foldl (fun n f => n + f.unsent.length + f.resend.length) 0) s

/-! ### Landing -/

/-- Bytes of an element of ADD_FMT (R546). -/
def addWidth (fmt : Nat) : Nat := if fmt = 2 then 2 else if fmt = 4 then 8 else 4

/-- One memory-side add (R512, R513): the new pattern and the flags a firing collects (R557). -/
def addElem (fmt old new : Nat) : Nat × Nat :=
  if fmt = 1 then addInto .fp32 (f32 old) (f32 new)
  else if fmt = 2 then addInto .bf16 (Fmt.bf16.decodeFloat old) (Fmt.bf16.decodeFloat new)
  else ((old + new) % 2 ^ (8 * addWidth fmt), 0)

/-- A run of adds over bytes. -/
def addBytes (fmt : Nat) (old new : Bytes) : Bytes × Nat :=
  let w := addWidth fmt
  let rs := (List.range (new.length / w)).map fun i => addElem fmt (field old (w * i) w) (field new (w * i) w)
  (rs.flatMap fun r => leBytes w r.1, rs.foldl (fun f r => f ||| r.2) 0)

/-- Lands a packet's bytes at a destination: a copy, or adds, which a poisoned line discards; arriving poison marks its lines
(R492, R536, R556). -/
def landBytes (s : State) (asn va fmt : Nat) (b : Bytes) (bad : List Nat) : State × Nat :=
  if fmt = 0 then (poisonVirt (agentWrite s asn va b) asn va bad, 0)
  else
    let s1 := meetVirt ((pieces va b.length).foldl (fun s p => promotePage s asn p.1) s) asn va b.length
    let lines := bad ++ virtPoison s1 asn va b.length
    let r := (List.range (b.length / 64)).map fun l =>
      if lines.contains l then (([] : Bytes), 0)
      else addBytes fmt (virtBytes s1 asn (va + 64 * l) 64) (slice b (64 * l) 64)
    let s2 := (List.range r.length).foldl (fun s l =>
      let x := (r.getD l ([], 0)).1
      if x.isEmpty then s else virtWrite s asn (va + 64 * l) x) s1
    (hubWritesVirt (poisonVirt s2 asn va bad) asn va b.length, r.foldl (fun f x => f ||| x.2) 0)

/-- Landing signals due for a prefix (R558). -/
def Firing.due (f : Firing) : Nat :=
  if f.landBytes = 0 then 0
  else if f.prefixLen = f.bytes then cdiv f.bytes f.landBytes else f.prefixLen / f.landBytes

/-- Gives the landing signals that are due. -/
def signalLanding (s : State) (f : Firing) : State × Firing :=
  match f.landSem with
  | none => (s, f)
  | some sem =>
    let n := f.due - f.signalled
    (if n = 0 then s else addSem s f.asn sem n, { f with signalled := f.due })

/-- One packet lands in a firing's destination; or the error of its page. -/
def landPacket (s : State) (f : Firing) (off : Nat) (b : Bytes) (bad : List Nat) : Except FireStatus State :=
  match writeError s f.asn (f.dstVA + off) b.length with
  | some e => .error e.fire
  | none =>
    let r := landBytes s f.asn (f.dstVA + off) f.addFmt b bad
    let f1 := { f with landed := f.landed ++ [(off, b.length)], flags := f.flags ||| (r.2 &&& (flFpOvf ||| flNanMade)) }
    let q := signalLanding r.1 f1
    .ok (setFiring q.1 q.2)

/-! ### Trellis entries -/

/-- An entry's fields (R546). -/
structure Entry where
  op : Nat
  group : Nat
  dir : Nat
  addFmt : Nat
  trig : Nat
  chain : Nat
  threshold : Nat
  step : Nat
  seqBase : Nat
  seqStep : Nat
  src : Nat
  dst : Nat
  perm : Nat
  recd : Nat
  doneSem : Nat
  landSem : Nat
  sigEn : Nat
  srcOff : Nat
  dstOff : Nat
  bytes : Nat
  landBytes : Nat
  recIndex : Nat
  deriving DecidableEq, Repr

/-- Reads the 64 bytes of an entry. -/
def entryOf (b : Bytes) : Entry :=
  { op := field b 0 1, group := field b 1 1, dir := field b 2 1, addFmt := field b 3 1, trig := field b 4 2
    chain := field b 6 2, threshold := field b 8 4, step := field b 12 4, seqBase := field b 16 4, seqStep := field b 20 4
    src := field b 24 1, dst := field b 25 1, perm := field b 26 1, recd := field b 27 1, doneSem := field b 28 1
    landSem := field b 29 1, sigEn := field b 30 1, srcOff := field b 32 8, dstOff := field b 40 8, bytes := field b 48 8
    landBytes := field b 56 4, recIndex := field b 60 2 }

/-- The format of an entry (R546, R556). -/
def entryFormOk (b : Bytes) : Bool :=
  let e := entryOf b
  let off := fun (v : Nat) => v % 64 == 0 && decide (v < 2 ^ 48)
  decide (e.op ≤ 2) && decide (e.group ≤ 63) && (if e.op = 1 then decide (e.dir ≤ 1) else e.dir == 0) &&
  decide (e.addFmt ≤ 4) && decide (e.trig ≤ 255) && (decide (e.chain ≤ 255) || e.chain == 0xFFFF) &&
  (e.op == 2 || e.perm == 0xFF) && bits e.sigEn 7 2 == 0 && zeroAt b 31 1 && zeroAt b 62 2 &&
  off e.srcOff && off e.dstOff && off e.bytes && e.landBytes % 64 == 0 && (!bit e.sigEn 1 || e.landBytes != 0) &&
  !(e.op == 1 && e.dir == 1 && e.addFmt != 0)

/-- A descriptor of a context, bound. -/
def ctxDesc (c : Ctx) (slot : Nat) : Option Desc := (c.desc.getD slot none).bind descOf

/-- Groups and descriptors of an entry, of one that never fires (NONE) as of every other (R545). -/
def entryStateOk (s : State) (c : Ctx) (e : Entry) : Bool :=
  match activeGroup s e.group, ctxDesc c e.src, ctxDesc c e.dst with
  | some g, some a, some b =>
    g.asn == c.asn && a.space == 0 && b.space == 0 && b.wr &&
    (e.recd == 0xFF || (ctxDesc c e.recd).any fun r => r.space == 0 && r.wr) &&
    (e.op != 2 || (ctxDesc c e.perm).any fun p => p.space == 0 && p.fmt.float16 && p.rank == 1 && dim p.dims 0 == g.members.length)
  | _, _, _ => false

/-- The ranges of an entry, of one that never fires as of every other (R545). -/
def entryRangesOk (c : Ctx) (e : Entry) : Bool :=
  let ext := fun (slot : Nat) => ((ctxDesc c slot).map fun d => 64 * d.ext).getD 0
  decide (e.srcOff + e.bytes ≤ ext e.src) && decide (e.dstOff + e.bytes ≤ ext e.dst) &&
  (e.recd == 0xFF || decide (32 * e.recIndex + 32 ≤ ext e.recd))

/-- Armed entries of the module, but for an ASN's. -/
def armedElsewhere (s : State) (asn : Nat) : Nat :=
  (s.ctxs.filter fun c => c.asn != asn).foldl (fun n c => n + (c.armed.filter (·.live)).length) 0

/-- The hub's read of the trellis table (R545). -/
def readTrellis (s : State) (c : Ctx) : State :=
  match c.trellis with
  | some (va, n) => agentReads s c.asn va (64 * n)
  | none => s

/-- The trellis table at a job launch (R545): the entries armed, or the first failing status. -/
def trellisLaunch (s : State) (c : Ctx) : Except Status (List Armed) :=
  match c.trellis with
  | none => .ok []
  | some (va, n) => match virtRead s c.asn va (64 * n) with
    | .error _ => .error .bounds
    | .ok b =>
      let es := (List.range n).map fun i => slice b (64 * i) 64
      if !es.all entryFormOk then .error .formatUnsupported
      else if !es.all (fun x => entryStateOk s c (entryOf x)) then .error .stateIllegal
      else if !es.all (fun x => entryRangesOk c (entryOf x)) then .error .bounds
      else if 16384 < armedElsewhere s c.asn + n then .error .tableFull
      else .ok (es.mapIdx fun i x => { entry := i, bytes := x, threshold := (entryOf x).threshold, live := true, firings := 0 })

/-- TRELLIS_BIND once it starts (R545). -/
def startTrellisBind (h : CmdHdr) (asn entries va : Nat) (s : State) : State :=
  let fail := fun st => complete s h 0x0023 st []
  if 1024 < entries ∨ va % 64 ≠ 0 then fail .formatUnsupported
  else match ctxOf s asn with
    | none => fail .stateIllegal
    | some c =>
      if c.job.isSome then fail .stateIllegal
      else complete (modCtx s asn fun c => { c with trellis := some (va, entries) }) h 0x0023 .ok []

/-- TRELLIS_BIND (R545). -/
def execTrellisBind (h : CmdHdr) (asn entries tableVA : Nat) (s : State) : Host.Outcome State Fault Refusal :=
  event (Instr.wf (.trellisBind h asn entries tableVA)) s fun s =>
    submit s h (.trellisBind h asn entries tableVA) 0x0023 0 (startTrellisBind h asn entries tableVA)

/-! ### Starting a firing -/

/-- Whether an armed entry is ready to fire (R547). -/
def entryReady (s : State) (c : Ctx) (a : Armed) : Bool :=
  let e := entryOf a.bytes
  a.live && e.op != 0 && decide (a.threshold ≤ c.counters.getD e.trig 0) &&
  !(s.firings.any fun f => f.asn == c.asn && f.entry == a.entry) && (activeGroup s e.group).any fun g => g.asn == c.asn

/-- The table π of a PERMUTE (R553): ranks, or why it cannot be used. -/
def permTable (s : State) (c : Ctx) (e : Entry) (g : Group) : Except FireStatus (List Nat) :=
  let n := g.members.length
  match (ctxDesc c e.perm).map (·.base) with
  | none => .error .unmapped
  | some va => match virtRead s c.asn va (2 * n) with
    | .error .poison => .error .permInvalid
    | .error .lost => .error .lostPage
    | .error _ => .error .unmapped
    | .ok b =>
      let l := (List.range n).map fun i => field b (2 * i) 2
      if (List.range n).all fun r => (l.filter (· == r)).length == 1 then .ok l else .error .permInvalid

/-- The hub's read of a PERMUTE's table (R553). -/
def readPerm (s : State) (c : Ctx) (e : Entry) (g : Group) : State :=
  match if e.op = 2 then (ctxDesc c e.perm).map (·.base) else none with
  | some va => agentReads s c.asn va (2 * g.members.length)
  | none => s

/-- The rank a firing sends to and the rank it receives from (R552, R553). -/
def fireRanks (s : State) (c : Ctx) (e : Entry) (g : Group) : Except FireStatus (Nat × Nat) :=
  let n := g.members.length
  let next := (g.rank + 1) % n
  let prev := (g.rank + n - 1) % n
  if e.op = 1 then .ok (if e.dir = 0 then (next, prev) else (prev, next))
  else (permTable s c e g).map fun l => (l.getD g.rank 0, (l.findIdx? (· == g.rank)).getD 0)

/-- The firing an entry starts (R547, R548). -/
def newFiring (c : Ctx) (a : Armed) (to_ from_ : Nat) : Firing :=
  let e := entryOf a.bytes
  let base := fun (slot : Nat) => ((ctxDesc c slot).map (·.base)).getD 0
  { asn := c.asn, entry := a.entry, slot := e.group, k := a.firings, seq := (e.seqBase + a.firings * e.seqStep) % 2 ^ 32
    bytes := e.bytes, addFmt := e.addFmt, srcVA := base e.src + e.srcOff, dstVA := base e.dst + e.dstOff
    toRank := to_, fromRank := from_
    recVA := if e.recd = 0xFF then none else some (base e.recd + 32 * e.recIndex)
    doneSem := if bit e.sigEn 0 then some e.doneSem else none
    landSem := if bit e.sigEn 1 then some e.landSem else none, landBytes := e.landBytes
    chain := if e.chain = 0xFFFF then none else some e.chain
    cleared := false, unsent := packetOffsets e.bytes, unacked := [], resend := [], landed := [], signalled := 0, flags := 0
    waitNs := 0, reports := 0 }

/-- The translations of a firing at its start: source, destination, record (R797). -/
def startError (s : State) (f : Firing) : Option FireStatus :=
  match readError s f.asn f.srcVA f.bytes with
  | some e => some e.fire
  | none => match writeError s f.asn f.dstVA f.bytes with
    | some e => some e.fire
    | none => match f.recVA with
      | some va => (writeError s f.asn va 32).map VErr.fire
      | none => none

/-- The aborts a group holds without those for a sequence number whose firing has begun or stopped (R568). -/
def Group.abortsBut (g : Group) (seq : Nat) : List (Nat × Nat) := g.aborts.filter fun a => a.1 != seq

/-- A stop before a firing is in progress (R568): its record is written where its page takes it, its partners receive aborts, and the
aborts that came from them or that they answer with find the sequence number over. -/
def stopAtStart (s : State) (f : Firing) (st : FireStatus) (ranks : Nat → List Nat) : State :=
  let s1 := modGroup (sendAborts (writeRecord s f st.code) f ranks fun _ => 0) f.slot fun g =>
    { g with overSeqs := f.seq :: g.overSeqs, aborts := g.abortsBut f.seq }
  stopJob s1 f.asn st.job 0xFFFF f.entry

/-- The partners of a PERMUTE whose table cannot be used: the ranks its entries name for this one where they can be read, else every
other rank (R568; DESIGN CHOICE, notes/assumptions/69). -/
def permPartners (s : State) (c : Ctx) (e : Entry) (g : Group) (rank : Nat) : List Nat :=
  let n := g.members.length
  let others := (List.range n).filter fun r => r != rank
  match ((ctxDesc c e.perm).map (·.base)).map fun va => virtRead s c.asn va (2 * n) with
  | some (.ok b) => others.filter fun r => field b (2 * rank) 2 == r || field b (2 * r) 2 == rank
  | _ => others

/-- Copies locally, packet by packet, when the partner is the module itself (R552, R553). -/
def copyLocal (s : State) (asn entry : Nat) (offs : List Nat) : State :=
  offs.foldl (fun s off => match s.firings.find? fun x => x.asn == asn && x.entry == entry with
    | none => s
    | some f =>
      let n := packetLen f.bytes off
      let s := agentReads s asn (f.srcVA + off) n
      let b := virtBytes s asn (f.srcVA + off) n
      let bad := virtPoison s asn (f.srcVA + off) n
      match landPacket s { f with unsent := f.unsent.erase off } off b bad with
      | .ok s1 => s1
      | .error st => stopFiring s f st none) s

/-- Matches a clear-to-send against a firing (R555): the mismatch, if any. -/
def ctsMismatch (f : Firing) (bytes addFmt : Nat) : Option FireStatus :=
  if bytes ≠ f.bytes then some .sizeMismatch else if addFmt ≠ f.addFmt then some .formatMismatch else none

/-- A clear-to-send meets its firing: data may go, or both partners stop. -/
def meetCts (s : State) (f : Firing) (bytes addFmt : Nat) : State :=
  match ctsMismatch f bytes addFmt with
  | some st => stopFiring s f st (some f.toRank)
  | none => setFiring s { f with cleared := true }

/-- A firing takes up the clear-to-send its group's table holds for it (R554). -/
def takeHeld (s : State) (f : Firing) : State :=
  match s.groups.getD f.slot none with
  | none => s
  | some g => match g.cts.find? fun x => x.seq == f.seq && x.fromRank == f.toRank with
    | none => s
    | some x => meetCts (modGroup s f.slot fun g => { g with cts := g.cts.erase x }) f x.bytes x.addFmt

/-- The status a held abort stops a firing with. -/
def abortStatus (reason : Nat) : FireStatus :=
  if reason = 6 then .sizeMismatch else if reason = 7 then .formatMismatch else .peerAbort

/-- Whether both partners of a firing can be reached (R567). -/
def routeOk (s : State) (g : Group) (f : Firing) : Bool := (f.partners g.rank).all fun r => named s (g.members.getD r 0)

/-- A firing enters: it is in progress, its receive is posted, and it takes up what waits for it (R554). -/
def enterFiring (s : State) (g : Group) (f : Firing) : State :=
  let s1 := modGroup { s with firings := s.firings ++ [f] } f.slot fun x =>
    { x with overSeqs := x.overSeqs.filter (· != f.seq), overLanded := x.overLanded.filter fun o => o.1 != f.seq,
             aborts := x.abortsBut f.seq }
  match g.aborts.find? fun a => a.1 == f.seq with
  | some a => stopFiring s1 f (abortStatus a.2) none
  | none =>
    if !routeOk s g f then stopFiring s1 f .noRoute none
    else
      let s2 := if f.fromRank = g.rank then s1
                else { s1 with out := s1.out ++ [.cts g.tag g.gen f.seq f.bytes f.addFmt f.fromRank] }
      if f.toRank = g.rank then copyLocal (setFiring s2 { f with cleared := true }) f.asn f.entry f.unsent
      else pumpPackets (takeHeld s2 f)

/-- An entry's threshold after a firing; with STEP 0 it disarms (R547). -/
def Armed.fired (a : Armed) : Armed :=
  let step := (entryOf a.bytes).step
  { a with threshold := sat32 (a.threshold + step), live := step != 0, firings := a.firings + 1 }

/-- Replaces an armed entry of a context. -/
def setArmed (s : State) (asn : Nat) (a : Armed) : State :=
  modCtx s asn fun c => { c with armed := c.armed.map fun x => if x.entry = a.entry then a else x }

/-- The lowest ready entry of a context fires (R547). -/
def trellisFire (s : State) (asn entry : Nat) : State :=
  match ctxOf s asn with
  | none => s
  | some c => match c.armed.find? fun a => entryReady s c a with
    | none => s
    | some a =>
      if a.entry ≠ entry ∨ !linksRun s then s else
        match activeGroup s (entryOf a.bytes).group with
        | none => s
        | some g =>
          let s1 := setArmed (readPerm s c (entryOf a.bytes) g) asn a.fired
          match fireRanks s1 c (entryOf a.bytes) g with
          | .error st => stopAtStart s1 (newFiring c a g.rank g.rank) st (permPartners s1 c (entryOf a.bytes) g)
          | .ok (to_, from_) =>
            let f := newFiring c a to_ from_
            match startError s1 f with
            | some st => stopAtStart s1 f st f.partners
            | none =>
              if (findFiring s1 f.slot f.seq).isSome then stopAtStart s1 f .seqDup f.partners else enterFiring s1 g f

/-- TRELLIS_FIRE (R547). -/
def execTrellisFire (asn entry : Nat) (s : State) : Host.Outcome State Fault Refusal :=
  event (Instr.wf (.trellisFire asn entry)) s fun s => trellisFire s asn entry

/-! ### Clear-to-send, packets, acknowledgements, aborts -/

/-- A clear-to-send arrives: it meets its firing, is held, or is refused by a full table (R554). -/
def ctsArrival (x : Cts) (fromRank : Nat) (s : State) : State :=
  match findGroup s x.tag x.gen with
  | none => s
  | some (i, g) => match findFiring s i x.seq with
    | some f => if f.toRank = fromRank ∧ !f.cleared then pumpPackets (meetCts s f x.bytes x.addFmt) else s
    | none =>
      if 64 ≤ g.cts.length then { s with out := s.out ++ [.ctsRefused g.tag g.gen x.seq fromRank] }
      else modGroup s i fun g => { g with
        cts := g.cts ++ [{ seq := x.seq, bytes := x.bytes, addFmt := x.addFmt, fromRank := fromRank }] }

/-- CTS_ARRIVAL (R554). -/
def execCtsArrival (cts : Cts) (fromRank : Nat) (s : State) : Host.Outcome State Fault Refusal :=
  event (Instr.wf (.ctsArrival cts fromRank)) s fun s => linkEvent (.ctsArrival cts fromRank) (ctsArrival cts fromRank) s

/-- A refused clear-to-send is sent again (R554): this module's own, where the rank it comes from is its own; a partner's arrives as
before. -/
def ctsRetry (x : Cts) (fromRank : Nat) (s : State) : State :=
  match findGroup s x.tag x.gen with
  | none => s
  | some (i, g) =>
    if g.rank ≠ fromRank then ctsArrival x fromRank s
    else match findFiring s i x.seq with
      | some f =>
        if f.fromRank ≠ g.rank ∧ f.bytes = x.bytes ∧ f.addFmt = x.addFmt then
          { s with out := s.out ++ [.cts g.tag g.gen f.seq f.bytes f.addFmt f.fromRank] }
        else s
      | none => s

/-- CTS_RETRY (R554). -/
def execCtsRetry (cts : Cts) (fromRank : Nat) (s : State) : Host.Outcome State Fault Refusal :=
  event (Instr.wf (.ctsRetry cts fromRank)) s fun s => linkEvent (.ctsRetry cts fromRank) (ctsRetry cts fromRank) s

/-- Whether a packet is a piece of a firing's destination: whole lines, at most 4 KiB (R534; notes/assumptions/22). -/
def Firing.fits (f : Firing) (p : Packet) : Bool :=
  p.offset % 64 == 0 && p.data.length % 64 == 0 && p.data.length != 0 && decide (p.data.length ≤ 4096) &&
  decide (p.offset + p.data.length ≤ f.bytes)

/-- The lines of a packet that have not been written (R534). -/
def Firing.fresh (f : Firing) (p : Packet) : List Nat :=
  (List.range (p.data.length / 64)).filter fun l =>
    !f.landed.any fun r => decide (r.1 ≤ p.offset + 64 * l) && decide (p.offset + 64 * l < r.1 + r.2)

/-- Acknowledges a packet of a firing. -/
def ackOut (s : State) (g : Group) (f : Firing) (off : Nat) : State :=
  { s with out := s.out ++ [.ack g.tag g.gen f.seq off f.fromRank] }

/-- A packet of a firing that is over arrives again: one that landed is acknowledged again and discarded (R534). -/
def landedBefore (s : State) (g : Group) (p : Packet) : State :=
  match g.overLanded.find? fun o => o.1 == p.seq with
  | some (_, r, rs) =>
    if p.offset + p.data.length ≤ coverFrom rs rs.length p.offset then
      { s with out := s.out ++ [.ack g.tag g.gen p.seq p.offset r] }
    else s
  | none => s

/-- The lines `ls` of a packet land one by one. -/
def landLines (s : State) (f : Firing) (p : Packet) (ls : List Nat) : Except FireStatus State :=
  ls.foldlM (fun s l => match s.firings.find? fun x => x.asn == f.asn && x.entry == f.entry with
    | some x => landPacket s x (p.offset + 64 * l) (slice p.data (64 * l) 64) (if p.poisoned.contains l then [0] else [])
    | none => .ok s) s

/-- A packet arrives (R534, R536, R542): what of it has not been written lands, and it is acknowledged; a packet written before is
acknowledged again and discarded. -/
def packetArrival (p : Packet) (s : State) : State :=
  match findGroup s p.tag p.gen with
  | none => s
  | some (i, g) => match findFiring s i p.seq with
    | none => landedBefore s g p
    | some f =>
      if !f.fits p ∨ f.fromRank = g.rank then s
      else
        let ls := f.fresh p
        let whole := ls.length = p.data.length / 64
        match if whole then landPacket s f p.offset p.data p.poisoned else landLines s f p ls with
        | .error st => stopFiring s f st none
        | .ok s1 => ackOut s1 g f p.offset

/-- PACKET_ARRIVAL (R534). -/
def execPacketArrival (p : Packet) (s : State) : Host.Outcome State Fault Refusal :=
  event (Instr.wf (.packetArrival p)) s fun s => linkEvent (.packetArrival p) (packetArrival p) s

/-- A packet is acknowledged: its credit frees (R543), and it is not sent again (R534). -/
def packetAck (tag gen seq off : Nat) (s : State) : State :=
  match findGroup s tag gen with
  | none => s
  | some (i, _) => match findFiring s i seq with
    | none => s
    | some f =>
      pumpPackets (setFiring s { f with unacked := f.unacked.filter fun p => p.off != off, resend := f.resend.filter fun r => r.1.off != off })

/-- PACKET_ACK (R534). -/
def execPacketAck (tag gen seq offset : Nat) (s : State) : Host.Outcome State Fault Refusal :=
  event (Instr.wf (.packetAck tag gen seq offset)) s fun s => linkEvent (.packetAck tag gen seq offset) (packetAck tag gen seq offset) s

/-- Whether everything a firing sends has been sent and acknowledged. -/
def Firing.allSent (f : Firing) : Bool := f.cleared && f.unsent.isEmpty && f.unacked.isEmpty && f.resend.isEmpty

/-- Whether a firing has received and sent everything (R549, R559). -/
def Firing.done (f : Firing) : Bool := f.allSent && f.prefixLen == f.bytes

/-- A firing completes (R549): record, flags, semaphore, chain counter, in that order; where its record's page takes no write any more it
stops (R443, R567).  In Dormant it pauses (R572). -/
def firingComplete (s : State) (asn entry : Nat) : State :=
  match s.firings.find? fun f => f.asn == asn && f.entry == entry with
  | none => s
  | some f =>
    if !f.done || !hubRuns s then s else match recordError s f with
    | some e => stopFiring s f e.fire none
    | none =>
      let s1 := orFlags (writeRecord s f 0) asn f.flags
      let s2 := match f.doneSem with
        | some i => addSem s1 asn i 1
        | none => s1
      let s3 := match f.chain with
        | some i => addCounter s2 asn i 1
        | none => s2
      pumpPackets (dropFiring s3 f)

/-- FIRING_COMPLETE (R549). -/
def execFiringComplete (asn entry : Nat) (s : State) : Host.Outcome State Fault Refusal :=
  event (Instr.wf (.firingComplete asn entry)) s fun s => firingComplete s asn entry

/-- A partner's abort arrives (R568): its firing stops; one whose firing has not started yet is held; one whose firing has
completed is discarded. -/
def abortArrival (tag gen seq reason : Nat) (s : State) : State :=
  match findGroup s tag gen with
  | none => s
  | some (i, g) => match findFiring s i seq with
    | some f => stopFiring s f (abortStatus reason) none
    | none => if g.overSeqs.contains seq then s else modGroup s i fun g => { g with aborts := g.aborts ++ [(seq, reason)] }

/-- ABORT_ARRIVAL (R568). -/
def execAbortArrival (tag gen seq reason : Nat) (s : State) : Host.Outcome State Fault Refusal :=
  event (Instr.wf (.abortArrival tag gen seq reason)) s fun s => linkEvent (.abortArrival tag gen seq reason) (abortArrival tag gen seq reason) s

/-- What came over the ports while they idled arrives, in order, and firings resume (R572, R720 step 3). -/
def resumeLinks (s : State) : State :=
  let one := fun (s : State) (i : Instr) => match i with
    | .ctsArrival c r => ctsArrival c r s
    | .ctsRetry c r => ctsRetry c r s
    | .packetArrival p => packetArrival p s
    | .packetAck t g q o => packetAck t g q o s
    | .abortArrival t g q r => abortArrival t g q r s
    | _ => s
  if linksRun s then pumpPackets (s.paused.foldl one { s with paused := [] }) else s

/-- WAKE_DONE (R720). -/
def execWakeDone (s : State) : Host.Outcome State Fault Refusal := event (Instr.wf .wakeDone) s fun s => resumeLinks (wakeDone s)

/-- The partner a firing waits for, if it waits for one (R569). -/
def Firing.waitsFor (f : Firing) (rank : Nat) : Option Nat :=
  if f.toRank ≠ rank ∧ !f.allSent then some f.toRank
  else if f.fromRank ≠ rank ∧ f.prefixLen ≠ f.bytes then some f.fromRank else none

/-- A firing has waited WD_MS, or a further multiple of it (R569). -/
def groupWait (s : State) (asn entry : Nat) : State :=
  match s.firings.find? fun f => f.asn == asn && f.entry == entry with
  | none => s
  | some f => match activeGroup s f.slot with
    | none => s
    | some g => match f.waitsFor g.rank with
      | none => s
      | some r =>
        if g.wdMs = 0 ∨ f.waitNs < (f.reports + 1) * g.wdMs * 1000000 then s
        else sendMsg (logFault (setFiring s { f with reports := f.reports + 1 }) { type := 8, code := 3, asn := asn }) 0x0051
          [(16, 1, 3), (17, 1, f.slot), (20, 2, g.tag), (22, 2, r), (24, 4, f.seq), (32, 8, f.waitNs)]

/-- GROUP_WAIT (R569). -/
def execGroupWait (asn entry : Nat) (s : State) : Host.Outcome State Fault Refusal :=
  event (Instr.wf (.groupWait asn entry)) s fun s => groupWait s asn entry

/-! ### Groups -/

/-- Credits no group holds (R574). -/
def freeCredits (s : State) : Nat := 8192 - s.groups.foldl (fun n g => n + ((g.map (·.credits)).getD 0)) 0

/-- GROUP_CREATE once it starts (R539). -/
def startGroupCreate (h : CmdHdr) (asn size tag gen credits wdMs va : Nat) (s : State) : State :=
  let fail := fun (s : State) st => complete s h 0x0040 st []
  if size = 0 ∨ 256 < size ∨ credits < 16 ∨ 1024 < credits ∨ va % 64 ≠ 0 then fail s .formatUnsupported
  else if (spaceOf s asn).isNone then fail s .stateIllegal
  else readThen s asn va (2 * size) fun s r => match r with
    | .error _ => fail s .stateIllegal
    | .ok b =>
      let ids := (List.range size).map fun i => field b (2 * i) 2
      let mine := ids.findIdx? (· == modId s)
      if !ids.all (fun x => decide (x < 4096)) ∨ ids.eraseDups.length ≠ size ∨ mine.isNone then fail s .stateIllegal
      else if s.groups.any (fun g => g.any fun g => g.tag == tag) then fail s .stateIllegal
      else match s.groups.findIdx? Option.isNone with
        | none => fail s .tableFull
        | some i =>
          if freeCredits s < credits then fail s .tableFull
          else
            let g : Group := { asn := asn, tag := tag, gen := gen, members := ids, rank := mine.getD 0, credits := credits
                               wdMs := wdMs, stale := false, cts := [], aborts := [], overSeqs := [], overLanded := [] }
            complete { s with groups := s.groups.set i (some g) } h 0x0040 .ok (record 16 [(0, 1, i)])

/-- GROUP_CREATE (R538). -/
def execGroupCreate (h : CmdHdr) (asn size tag gen credits wdMs members : Nat) (s : State) : Host.Outcome State Fault Refusal :=
  event (Instr.wf (.groupCreate h asn size tag gen credits wdMs members)) s fun s =>
    submit s h (.groupCreate h asn size tag gen credits wdMs members) 0x0040 0
      (startGroupCreate h asn size tag gen credits wdMs members)

/-- GROUP_DESTROY once it starts (R540). -/
def startGroupDestroy (h : CmdHdr) (asn slot : Nat) (s : State) : State :=
  let fail := fun st => complete s h 0x0041 st []
  if 63 < slot then fail .formatUnsupported
  else match s.groups.getD slot none with
    | none => fail .stateIllegal
    | some g =>
      if g.asn ≠ asn ∨ jobRunning s asn ∨ s.firings.any (fun f => f.slot == slot) then fail .stateIllegal
      else complete { s with groups := s.groups.set slot none } h 0x0041 .ok []

/-- GROUP_DESTROY (R540). -/
def execGroupDestroy (h : CmdHdr) (asn slot : Nat) (s : State) : Host.Outcome State Fault Refusal :=
  event (Instr.wf (.groupDestroy h asn slot)) s fun s =>
    submit s h (.groupDestroy h asn slot) 0x0041 0 (startGroupDestroy h asn slot)

/-! ### Ports -/

/-- A flit is replayed (R527). -/
def flitReplay (s : State) (n : Nat) : State :=
  if (s.ports.getD n .reset).carries then
    { s with ports := modAt s.ports n fun p => { p with replay := sat32 (p.replay + 1) } }
  else s

/-- FLIT_REPLAY (R527). -/
def execFlitReplay (port : Nat) (s : State) : Host.Outcome State Fault Refusal :=
  event (Instr.wf (.flitReplay port)) s fun s => flitReplay s port

/-- Whether a port retrains on three lanes after a lane has failed. -/
def Port.laneTraining (p : Port) : Bool := p.state == .training && p.laneFailed != 0

/-- Whether a firing sends to module `m`. -/
def sendsTo (s : State) (m : Nat) (f : Firing) : Bool :=
  match s.groups.getD f.slot none with
  | some g => g.members.getD f.toRank 0 == m
  | none => false

/-- Port `n` goes DOWN (R529), with the lanes that failed by then: every packet to its partner that is not acknowledged is to be sent
again, over the other ports of the bundle, or once the bundle has a port again (R534, R570; notes/assumptions/40). -/
def goDown (s : State) (n lanes : Nat) : State :=
  let m := bits (portCfg s n) 11 0
  let s1 := setPort s n fun p => { p with state := .down, laneFailed := p.laneFailed ||| lanes }
  let again := fun (f : Firing) =>
    if sendsTo s m f then { f with resend := f.resend ++ f.unacked.map fun p => (p, n), unacked := [] } else f
  pumpPackets { s1 with firings := s1.firings.map again }

/-- A port that carries traffic, or retrains on three lanes, stops answering (R529). -/
def portDown (s : State) (n : Nat) : State :=
  let p := s.ports.getD n .reset
  if p.carries || p.laneTraining then goDown s n 0 else s

/-- A lane fails (R528, R529): the port retrains on three lanes; in UP_3, or while it retrains so, it goes DOWN
with that lane's bit set as well. -/
def laneFail (s : State) (n lane : Nat) : State :=
  let p := s.ports.getD n .reset
  if bit p.laneFailed lane then s
  else if p.state = .up then setPort s n fun p => { p with state := .training, laneFailed := 2 ^ lane }
  else if p.state = .up3 ∨ p.laneTraining then goDown s n (2 ^ lane)
  else s

/-- LANE_FAIL (R528). -/
def execLaneFail (port lane : Nat) (s : State) : Host.Outcome State Fault Refusal :=
  event (Instr.wf (.laneFail port lane)) s fun s => laneFail s port lane

/-- The retraining on three lanes ends (R528). -/
def laneRetrainDone (s : State) (n : Nat) : State :=
  if (s.ports.getD n .reset).laneTraining then pumpPackets (setPort s n fun p => { p with state := .up3 }) else s

/-- LANE_RETRAIN_DONE (R528). -/
def execLaneRetrainDone (port : Nat) (s : State) : Host.Outcome State Fault Refusal :=
  event (Instr.wf (.laneRetrainDone port)) s fun s => laneRetrainDone s port

/-- PORT_DOWN (R529). -/
def execPortDown (port : Nat) (s : State) : Host.Outcome State Fault Refusal :=
  event (Instr.wf (.portDown port)) s fun s => portDown s port

/-- A port starts training on all four lanes. -/
def startTraining (s : State) (n : Nat) : State := setPort s n fun p => { p with state := .training, laneFailed := 0 }

/-- A write to VL_PORT_CTL_n (R530, R578). -/
def portRetrain (s : State) (n : Nat) (v : Word) : State :=
  let st := (s.ports.getD n .reset).state
  if bit v.toNat 0 && bit (portCfg s n) 31 && locked s && (st == .down || st == .absent || st == .miswired) then startTraining s n
  else s

/-- VL_PORT_RETRAIN (R530). -/
def execVlPortRetrain (port : Nat) (v : Word) (s : State) : Host.Outcome State Fault Refusal :=
  event (Instr.wf (.vlPortRetrain port v)) s fun s => portRetrain s port v

/-- Training on four lanes ends (R530, R796). -/
def portRetrainDone (s : State) (n : Nat) (r : PortTrain) : State :=
  let p := s.ports.getD n .reset
  if p.state = .training ∧ p.laneFailed = 0 ∧ locked s then pumpPackets (endTraining s n r) else s

/-- PORT_RETRAIN_DONE (R530). -/
def execPortRetrainDone (port : Nat) (result : PortTrain) (s : State) : Host.Outcome State Fault Refusal :=
  event (Instr.wf (.portRetrainDone port result)) s fun s => portRetrainDone s port result

/-- A partner starts training with a port that listens (R796). -/
def peerTraining (s : State) (n : Nat) : State :=
  if bit (portCfg s n) 31 && locked s && (s.ports.getD n .reset).state == .absent then startTraining s n else s

/-- PEER_TRAINING (R796). -/
def execPeerTraining (port : Nat) (s : State) : Host.Outcome State Fault Refusal :=
  event (Instr.wf (.peerTraining port)) s fun s => peerTraining s port

end Sys2Proof.Machine
end

