-- ==== Sys2Proof/Machine/Keeper.lean ====
section
/-! DEFINITION. Machine/Keeper.lean: the version keeper (R430 to R439): VERSION_SET, the record and the four
actions. -/

namespace Sys2Proof.Machine

/-! ### Version sets -/

/-- The semaphores of a set (R432): PIN, RETIRE, CLAIM, GRANT, PUBLISH, PUBLISHED. -/
def VersionSet.sem (v : VersionSet) (role : Nat) : Nat := v.semBase + role

/-- Whether a slot is free (R434): not the newest, not granted, no pins. -/
def VersionSet.isFree (v : VersionSet) (i : Nat) : Bool :=
  decide (i < v.slots) && v.newest != i && v.granted != some i && v.pins.getD i 0 == 0

/-- The lowest-numbered free slot. -/
def VersionSet.lowestFree (v : VersionSet) : Option Nat := (List.range v.slots).find? v.isFree

/-- SLOT_STATE_i (R437). -/
def VersionSet.slotState (v : VersionSet) (i : Nat) : Nat :=
  if v.slots ≤ i then 4 else if v.newest = i then 1 else if v.granted = some i then 3
  else if v.pins.getD i 0 ≠ 0 then 2 else 0

/-- The record of a set (R437), with the newest version number. -/
def VersionSet.recordBytes (v : VersionSet) (version : Nat) : Bytes :=
  let per := fun (i : Nat) =>
    [(16 + 4 * i, 4, (v.versions.getD i none).getD 0xFFFFFFFF), (32 + 4 * i, 4, v.pins.getD i 0), (48 + i, 1, v.slotState i)]
  Machine.record 64 ([(0, 4, v.newest), (4, 4, version), (8, 4, v.granted.getD 0xFFFFFFFF)] ++ (List.range 4).flatMap per)

/-- A set with a given newest slot at a version, and nothing else (R430, R438). -/
def VersionSet.fresh (set slots semBase rec0 newest version : Nat) : VersionSet :=
  { set := set, slots := slots, semBase := semBase, record := rec0, newest := newest, granted := none
    versions := (List.replicate 4 none).set newest (some version), pins := List.replicate 4 0, queue := [] }

/-- Version set `n` of an ASN's context. -/
def setOf (s : State) (asn n : Nat) : Option VersionSet := (ctxOf s asn).bind fun c => c.sets.find? fun v => v.set == n

/-- Replaces a version set of a context. -/
def putSet (s : State) (asn : Nat) (v : VersionSet) : State :=
  modCtx s asn fun c => { c with sets := (c.sets.filter fun x => x.set != v.set) ++ [v] }

/-- The count of a set's semaphore. -/
def setCount (s : State) (asn : Nat) (v : VersionSet) (role : Nat) : Nat := semCount s asn (v.sem role)

/-- A write of a hub agent to pages it may write (R443): where one is unmapped, lost or read-only nothing is written
(notes/assumptions/23). -/
def hubWrite (s : State) (asn va : Nat) (b : Bytes) : State :=
  match writeError s asn va b.length with
  | none => agentWrite s asn va b
  | some _ => s

/-- Rewrites the record of a set, visible at DEVICE scope (R433). -/
def rewriteRecord (s : State) (asn : Nat) (v : VersionSet) (version : Nat) : State :=
  hubWrite s asn v.record (v.recordBytes version)

/-! ### VERSION_SET -/

/-- Whether the six semaphores from `b` overlap those of another set. -/
def setsOverlap (c : Ctx) (n b : Nat) : Bool :=
  c.sets.any fun v => v.set != n && decide (v.semBase < b + 6) && decide (b < v.semBase + 6)

/-- VERSION_SET once it starts (R430). -/
def startVersionSet (h : CmdHdr) (asn set slots semBase rec0 : Nat) (s : State) : State :=
  let fail := fun st => complete s h 0x0024 st []
  if 31 < set ∨ rec0 % 64 ≠ 0 then fail .formatUnsupported
  else match ctxOf s asn with
    | none => fail .stateIllegal
    | some c =>
      if c.job.isSome ∨ slots < 2 ∨ 4 < slots ∨ 250 < semBase ∨ setsOverlap c set semBase then fail .stateIllegal
      else
        complete (putSet s asn (.fresh set slots semBase rec0 0 (semCount s asn (semBase + 5)))) h 0x0024 .ok []

/-- VERSION_SET (R430). -/
def execVersionSet (h : CmdHdr) (asn set slots semBase record : Nat) (s : State) : Host.Outcome State Fault Refusal :=
  event (Instr.wf (.versionSet h asn set slots semBase record)) s fun s =>
    submit s h (.versionSet h asn set slots semBase record) 0x0024 0 (startVersionSet h asn set slots semBase record)

/-- Job start (R438): each set keeps its newest slot as the newest version and resets everything else. -/
def resetSets (s : State) (asn : Nat) : State :=
  match ctxOf s asn with
  | none => s
  | some c => c.sets.foldl (fun s v =>
      let n := setCount s asn v 5
      let w := VersionSet.fresh v.set v.slots v.semBase v.record v.newest n
      rewriteRecord (putSet s asn w) asn w n) s

/-! ### The four actions -/

/-- Whether a RETIRE can be served (R434). -/
def canRetire (s : State) (asn : Nat) (v : VersionSet) : Bool := setCount s asn v 1 != 0 && !v.queue.isEmpty

/-- Whether a PUBLISH can be served. -/
def canPublish (s : State) (asn : Nat) (v : VersionSet) : Bool := setCount s asn v 4 != 0 && v.granted.isSome

/-- Whether a CLAIM can be served. -/
def canClaim (s : State) (asn : Nat) (v : VersionSet) : Bool :=
  setCount s asn v 2 != 0 && v.granted.isNone && v.lowestFree.isSome

/-- Whether a PIN can be served: the pin queue holds 1,024 entries. -/
def canPin (s : State) (asn : Nat) (v : VersionSet) : Bool := setCount s asn v 0 != 0 && decide (v.queue.length < 1024)

/-- PIN (R434). -/
def VersionSet.pin (v : VersionSet) : VersionSet :=
  { v with queue := v.queue ++ [v.newest], pins := modAt v.pins v.newest (· + 1) }

/-- RETIRE (R434). -/
def VersionSet.retire (v : VersionSet) : VersionSet :=
  match v.queue with
  | [] => v
  | i :: t => { v with queue := t, pins := modAt v.pins i (· - 1) }

/-- CLAIM (R434). -/
def VersionSet.claim (v : VersionSet) : VersionSet := { v with granted := v.lowestFree }

/-- PUBLISH (R434): the granted slot becomes the newest, at the given version. -/
def VersionSet.publish (v : VersionSet) (version : Nat) : VersionSet :=
  match v.granted with
  | none => v
  | some g => { v with newest := g, granted := none, versions := v.versions.set g (some version) }

/-- One action of the keeper (R433): it consumes one unit, rewrites the record and then signals. -/
def keeperAct (s : State) (asn : Nat) (v w : VersionSet) (role version : Nat) (sig : Option Nat) : State :=
  let s1 := rewriteRecord (putSet (takeSem s asn (v.sem role) 1) asn w) asn w version
  match sig with
  | some r => addSem s1 asn (v.sem r) 1
  | none => s1

/-- The keeper's turn on a set, if it may take it. -/
def keeper (s : State) (asn n : Nat) (may : VersionSet → Bool) (act : VersionSet → State) : State :=
  match setOf s asn n with
  | none => s
  | some v => if hubRuns s && may v then act v else s

/-- KEEPER_RETIRE (R434). -/
def keeperRetire (s : State) (asn n : Nat) : State :=
  keeper s asn n (canRetire s asn) fun v => keeperAct s asn v v.retire 1 (setCount s asn v 5) none

/-- KEEPER_RETIRE (R433, R434). -/
def execKeeperRetire (asn set : Nat) (s : State) : Host.Outcome State Fault Refusal :=
  event (Instr.wf (.keeperRetire asn set)) s fun s => keeperRetire s asn set

/-- KEEPER_PUBLISH (R434), served after RETIRE (R433). -/
def keeperPublish (s : State) (asn n : Nat) : State :=
  keeper s asn n (fun v => canPublish s asn v && !canRetire s asn v) fun v =>
    let ver := sat32 (setCount s asn v 5 + 1)
    keeperAct s asn v (v.publish ver) 4 ver (some 5)

/-- KEEPER_PUBLISH (R433, R434). -/
def execKeeperPublish (asn set : Nat) (s : State) : Host.Outcome State Fault Refusal :=
  event (Instr.wf (.keeperPublish asn set)) s fun s => keeperPublish s asn set

/-- KEEPER_CLAIM (R434), served after RETIRE and PUBLISH (R433). -/
def keeperClaim (s : State) (asn n : Nat) : State :=
  keeper s asn n (fun v => canClaim s asn v && !canRetire s asn v && !canPublish s asn v) fun v =>
    keeperAct s asn v v.claim 2 (setCount s asn v 5) (some 3)

/-- KEEPER_CLAIM (R433, R434). -/
def execKeeperClaim (asn set : Nat) (s : State) : Host.Outcome State Fault Refusal :=
  event (Instr.wf (.keeperClaim asn set)) s fun s => keeperClaim s asn set

/-- KEEPER_PIN (R434), served last (R433). -/
def keeperPin (s : State) (asn n : Nat) : State :=
  keeper s asn n (fun v => canPin s asn v && !canRetire s asn v && !canPublish s asn v && !canClaim s asn v) fun v =>
    keeperAct s asn v v.pin 0 (setCount s asn v 5) none

/-- KEEPER_PIN (R433, R434). -/
def execKeeperPin (asn set : Nat) (s : State) : Host.Outcome State Fault Refusal :=
  event (Instr.wf (.keeperPin asn set)) s fun s => keeperPin s asn set

end Sys2Proof.Machine
end

