-- ==== Sys2Proof/Machine/Samples.lean ====
section
/-! DEFINITION. Machine/Samples.lean: conversion between tensors and samples in the codec units (R605 to R608). Every operation
rounds once to FP32, in the order the rules write. -/

namespace Sys2Proof.Machine

/-! ### Constants and scales (R605) -/

/-- Rounds to FP32. -/
def r32 (x : XV) : XV := (round32 x).1
/-- A decimal fraction n / d rounded to FP32. -/
def frac32 (n d : Nat) : XV := r32 ((XV.ofInt n).div (XV.ofInt d))
/-- An integer's value. -/
def vnat (n : Nat) : XV := XV.ofInt n
/-- Rounded sum, difference, product and quotient. -/
def fadd (a b : XV) : XV := r32 (a.add b)
/-- Rounded difference. -/
def fsub (a b : XV) : XV := r32 (a.sub b)
/-- Rounded product. -/
def fmul (a b : XV) : XV := r32 (a.mul b)
/-- Rounded quotient. -/
def fdiv (a b : XV) : XV := r32 (a.div b)

/-- Kr of MATRIX (R605): 0 BT.709, 1 BT.2020. -/
def kr (m : Nat) : XV := if m = 0 then frac32 2126 10000 else frac32 2627 10000
/-- Kb of MATRIX (R605). -/
def kb (m : Nat) : XV := if m = 0 then frac32 722 10000 else frac32 593 10000
/-- Kg = 1 − Kr − Kb in FP32 (R605). -/
def kg (m : Nat) : XV := fsub (fsub XV.one (kr m)) (kb m)

/-- The conversion parameters of a stream: MATRIX, RANGE (1 full), depth, LAYOUT (1 YCC_CODES), TFORMAT. -/
structure ConvPar where
  matrix : Nat
  full : Bool
  depth : Nat
  codes : Bool
  fmt : Fmt
  deriving DecidableEq, Repr

/-- The lowest code (R605). -/
def ConvPar.lo (p : ConvPar) : Nat := if p.full then 0 else 2 ^ (p.depth - 8)
/-- The highest code (R605). -/
def ConvPar.hi (p : ConvPar) : Nat := if p.full then 2 ^ p.depth - 1 else 2 ^ p.depth - 2 ^ (p.depth - 8) - 1

/-- The luma code before rounding (R605). -/
def ConvPar.scaleY (p : ConvPar) (y : XV) : XV :=
  if p.full then fmul (vnat (2 ^ p.depth - 1)) y
  else fmul (vnat (2 ^ (p.depth - 8))) (fadd (vnat 16) (fmul (vnat 219) y))

/-- The chroma code before rounding (R605). -/
def ConvPar.scaleC (p : ConvPar) (c : XV) : XV :=
  if p.full then fadd (fmul (vnat (2 ^ p.depth - 1)) c) (vnat (2 ^ (p.depth - 1)))
  else fmul (vnat (2 ^ (p.depth - 8))) (fadd (vnat 128) (fmul (vnat 224) c))

/-- A value rounded to an integer under R110 and clamped: the code, and whether it was clamped or came from a NaN (R608). -/
def ConvPar.code (p : ConvPar) (v : XV) (nan : Bool) : Nat × Bool :=
  let r := match v with
    | .nan => 0
    | .inf n => if n then -1 else (2 ^ 32 : Int)
    | .fin n m e => let q : Int := rne m e 0
                    if n then -q else q
  let c := max (p.lo : Int) (min r (p.hi : Int))
  (c.toNat, nan || v.isNan || c != r)

/-! ### Encode front-end (R606, R608) -/

/-- One component: a NaN counts as 0 (R608). -/
def cleanNan (x : XV) : XV × Bool := if x.isNan then (XV.zero, true) else (x, false)

/-- One pixel's y, cb and cr, and whether a component was a NaN (R606). -/
def ConvPar.pixel (p : ConvPar) (r0 g0 b0 : XV) : XV × XV × XV × Bool :=
  let (r, n1) := cleanNan r0
  let (g, n2) := cleanNan g0
  let (b, n3) := cleanNan b0
  let y := fadd (fadd (fmul (kr p.matrix) r) (fmul (kg p.matrix) g)) (fmul (kb p.matrix) b)
  let cb := fdiv (fsub b y) (fmul (vnat 2) (fsub XV.one (kb p.matrix)))
  let cr := fdiv (fsub r y) (fmul (vnat 2) (fsub XV.one (kr p.matrix)))
  (y, cb, cr, n1 || n2 || n3)

/-- The chroma filter of R606 over c[2i-1..2i+1][2k..2k+1], left to right. -/
def chromaTap (a b c d e f : XV) : XV :=
  let two := vnat 2
  fdiv (fadd (fadd (fadd (fadd (fadd a (fmul two b)) c) d) (fmul two e)) f) (vnat 8)

/-- A tensor plane as the front-end reads it: the element at column x of row y of plane p. -/
abbrev Planes := Nat → Nat → Nat → XV

/-- A chroma sample (i, k) with its NaN mark, from a plane of values per luma sample; edges are replicated (R606). -/
def chromaAt (at_ : Nat → Nat → XV × Bool) (w i k : Nat) : XV × Bool :=
  let l := 2 * i - 1
  let r := min (2 * i + 1) (w - 1)
  let t := fun x y => (at_ x y).1
  let n := fun x y => (at_ x y).2
  (chromaTap (t l (2 * k)) (t (2 * i) (2 * k)) (t r (2 * k)) (t l (2 * k + 1)) (t (2 * i) (2 * k + 1)) (t r (2 * k + 1)),
   n l (2 * k) || n (2 * i) (2 * k) || n r (2 * k) || n l (2 * k + 1) || n (2 * i) (2 * k + 1) || n r (2 * k + 1))

/-- Every (x, y) of a plane, row by row. -/
def rasterOf (w h : Nat) : List (Nat × Nat) := (List.range h).flatMap fun y => (List.range w).map fun x => (x, y)

/-- Samples from codes with their marks, and the count of marked codes (R608). -/
def gather (y cb cr : List (Nat × Bool)) : Samples × Nat :=
  ({ y := y.map (·.1), cb := cb.map (·.1), cr := cr.map (·.1) }, ((y ++ cb ++ cr).filter (·.2)).length)

/-- The front-end on an RGB frame (R606). -/
def ConvPar.fromRgb (p : ConvPar) (w h : Nat) (t : Planes) : Samples × Nat :=
  let px := fun x y => p.pixel (t 0 x y) (t 1 x y) (t 2 x y)
  let cbAt := fun x y => ((px x y).2.1, (px x y).2.2.2)
  let crAt := fun x y => ((px x y).2.2.1, (px x y).2.2.2)
  let chroma := fun (f : Nat → Nat → XV × Bool) => (rasterOf (w / 2) (h / 2)).map fun (i, k) =>
    let c := chromaAt f w i k
    p.code (p.scaleC c.1) c.2
  gather ((rasterOf w h).map fun (x, y) => p.code (p.scaleY (px x y).1) (px x y).2.2.2) (chroma cbAt) (chroma crAt)

/-- The front-end on a frame of code values (R606). -/
def ConvPar.fromCodes (p : ConvPar) (w h : Nat) (t : Planes) : Samples × Nat :=
  let plane := fun k w h => (rasterOf w h).map fun (x, y) =>
    let c := cleanNan (t k x y)
    p.code c.1 c.2
  gather (plane 0 w h) (plane 1 (w / 2) (h / 2)) (plane 2 (w / 2) (h / 2))

/-! ### Decode back-end (R607) -/

/-- A luma code dequantised (R607). -/
def ConvPar.deqY (p : ConvPar) (c : Nat) : XV :=
  if p.full then fdiv (vnat c) (vnat (2 ^ p.depth - 1))
  else fdiv (fsub (fdiv (vnat c) (vnat (2 ^ (p.depth - 8)))) (vnat 16)) (vnat 219)

/-- A chroma code dequantised (R607). -/
def ConvPar.deqC (p : ConvPar) (c : Nat) : XV :=
  if p.full then fdiv (fsub (vnat c) (vnat (2 ^ (p.depth - 1)))) (vnat (2 ^ p.depth - 1))
  else fdiv (fsub (fdiv (vnat c) (vnat (2 ^ (p.depth - 8)))) (vnat 128)) (vnat 224)

/-- The chroma value at a luma position: horizontally, then vertically, edges replicated (R607). -/
def upsample (c : Nat → Nat → XV) (cw ch x y : Nat) : XV :=
  let hor := fun k => if x % 2 = 0 then c (x / 2) k
                      else fdiv (fadd (c (x / 2) k) (c (min (x / 2 + 1) (cw - 1)) k)) (vnat 2)
  let k := y / 2
  let other := if y % 2 = 0 then k - 1 else min (k + 1) (ch - 1)
  fadd (fmul (frac32 3 4) (hor k)) (fmul (frac32 1 4) (hor other))

/-- R′, G′ and B′ of a pixel (R607). -/
def ConvPar.rgb (p : ConvPar) (y cb cr : XV) : XV × XV × XV :=
  let r := fadd y (fmul (fmul (vnat 2) (fsub XV.one (kr p.matrix))) cr)
  let b := fadd y (fmul (fmul (vnat 2) (fsub XV.one (kb p.matrix))) cb)
  let g := fdiv (fsub (fsub y (fmul (kr p.matrix) r)) (fmul (kb p.matrix) b)) (kg p.matrix)
  (r, g, b)

/-- The rows a decoded picture writes: (plane, row, bytes) (R599, R607). -/
def ConvPar.rows (p : ConvPar) (w h : Nat) (s : Samples) : List (Nat × Nat × Bytes) :=
  let cw := (w + 1) / 2
  let ch := (h + 1) / 2
  let el := fun (v : XV) => leBytes 2 (p.fmt.encode v).1
  if p.codes then
    let plane := fun (k w h : Nat) (l : List Nat) => (List.range h).map fun y =>
      (k, y, (List.range w).flatMap fun x => el (vnat (l.getD (y * w + x) 0)))
    plane 0 w h s.y ++ plane 1 cw ch s.cb ++ plane 2 cw ch s.cr
  else
    let ca := fun (l : List Nat) (i k : Nat) => p.deqC (l.getD (k * cw + i) 0)
    let px := fun x y => p.rgb (p.deqY (s.y.getD (y * w + x) 0)) (upsample (ca s.cb) cw ch x y) (upsample (ca s.cr) cw ch x y)
    let plane := fun (k : Nat) (f : XV × XV × XV → XV) => (List.range h).map fun y =>
      (k, y, (List.range w).flatMap fun x => el (f (px x y)))
    plane 0 (·.1) ++ plane 1 (·.2.1) ++ plane 2 (·.2.2)

/-- A grey frame: every sample 2^(n−1) (R613). -/
def greySamples (w h n : Nat) : Samples :=
  let c := ((w + 1) / 2) * ((h + 1) / 2)
  { y := List.replicate (w * h) (2 ^ (n - 1)), cb := List.replicate c (2 ^ (n - 1)), cr := List.replicate c (2 ^ (n - 1)) }

end Sys2Proof.Machine
end

