-- ==== Sys2Proof/Machine/Codec.lean ====
section
/-! DEFINITION. Machine/Codec.lean: the codec units (R581 to R622): opening and closing streams, rings and semaphores, frame
buffers, records, pacing and statuses. What the entropy and pixel engines compute is in Config (notes/assumptions/18). -/

namespace Sys2Proof.Machine

/-! ### The parameter block (R592) -/

/-- A byte of the block. -/
def pb (par : Bytes) (i : Nat) : Nat := field par i 1
/-- Whether a stream decodes. -/
def parDec (par : Bytes) : Bool := pb par 0 == 1
/-- WIDTH. -/
def parW (par : Bytes) : Nat := field par 4 2
/-- HEIGHT. -/
def parH (par : Bytes) : Nat := field par 6 2
/-- POOL_FRAMES. -/
def parPool (par : Bytes) : Nat := pb par 12
/-- LAYOUT is YCC_CODES. -/
def parCodes (par : Bytes) : Bool := pb par 13 == 1
/-- HOST_FED. -/
def parFed (par : Bytes) : Bool := bit (pb par 18) 0
/-- RING_ENTRIES. -/
def parRing (par : Bytes) : Nat := field par 20 4
/-- POOL_VA. -/
def parPoolVA (par : Bytes) : Nat := field par 24 8
/-- RING_VA. -/
def parRingVA (par : Bytes) : Nat := field par 32 8
/-- DATA_VA. -/
def parDataVA (par : Bytes) : Nat := field par 40 8
/-- DATA_BYTES. -/
def parDataBytes (par : Bytes) : Nat := field par 48 8
/-- TENSOR_SLOTS. -/
def parSlots (par : Bytes) : Nat := field par 56 4
/-- ROW_PITCH in bytes. -/
def parRow (par : Bytes) : Nat := field par 60 4
/-- PLANE_PITCH in bytes. -/
def parPlane (par : Bytes) : Nat := 64 * field par 64 4
/-- PACE in kbit/s. -/
def parPace (par : Bytes) : Nat := field par 116 4

/-- Bytes of a frame buffer (R593). -/
def bufBytes (par : Bytes) : Nat := (64 * cdiv (parW par) 64) * (64 * cdiv (parH par) 64) * 49 / 16
/-- P_f, its pages (R593). -/
def bufPages (par : Bytes) : Nat := cdiv (bufBytes par) pageBytes
/-- Where frame `f` of the pool starts (R593). -/
def bufVA (par : Bytes) (f : Nat) : Nat := parPoolVA par + f * bufPages par * pageBytes

/-- Size of the picture in range (R581). -/
def sizeOk (par : Bytes) : Bool :=
  let w := parW par
  let h := parH par
  decide (64 ≤ w) && decide (w ≤ 8192) && w % 8 == 0 && decide (64 ≤ h) && decide (h ≤ 8192) && h % 8 == 0 &&
  decide (w * h ≤ 35651584)

/-- The parameters only encoding has (R592). -/
def encodeParOk (par : Bytes) : Bool :=
  let av1 := pb par 1 == 1
  let prof := pb par 2
  (if av1 then prof == 0 else prof == 1 || prof == 2) &&
  (pb par 3 == 8 || (pb par 3 == 10 && !(prof == 1 && !av1))) &&
  [1, 14, 16, 18].contains (pb par 17) && parSlots par == 0 && decide (pb par 96 ≤ 2) &&
  (pb par 96 != 0 || av1 || (decide (pb par 97 ≤ 51) && decide (pb par 98 ≤ 51) && decide (pb par 99 ≤ 51))) &&
  (pb par 96 != 2 || decide (field par 100 4 ≤ field par 104 4)) &&
  [0, 1, 3, 7].contains (pb par 114) && decide (1 ≤ pb par 115) && decide (pb par 115 ≤ 4)

/-! ### Levels and tiers (R581, R609) -/

/-- Limits of a level: ten times its number, luma samples of a picture, luma samples per second, kbit/s in the Main and in the High
tier, and kbit of the coded-picture buffer in each; a tier that a level lacks has 0. -/
structure LevelRow where
  level : Nat
  picture : Nat
  samples : Nat
  main : Nat
  high : Nat
  bufMain : Nat
  bufHigh : Nat
  deriving DecidableEq, Repr

/-- A row from its numbers. -/
def levelRow (l p s m h bm bh : Nat) : LevelRow := { level := l, picture := p, samples := s, main := m, high := h, bufMain := bm, bufHigh := bh }

/-- The levels of ITU-T H.265 up to 6.1 (PRESUMED, its Annex A; notes/assumptions/85). -/
def hevcLevels : List LevelRow :=
  [levelRow 10 36864 552960 128 0 350 0, levelRow 20 122880 3686400 1500 0 1500 0, levelRow 21 245760 7372800 3000 0 3000 0,
   levelRow 30 552960 16588800 6000 0 6000 0, levelRow 31 983040 33177600 10000 0 10000 0,
   levelRow 40 2228224 66846720 12000 30000 12000 30000, levelRow 41 2228224 133693440 20000 50000 20000 50000] ++
  [levelRow 50 8912896 267386880 25000 100000 25000 100000, levelRow 51 8912896 534773760 40000 160000 40000 160000,
   levelRow 52 8912896 1069547520 60000 240000 60000 240000, levelRow 60 35651584 1069547520 60000 240000 60000 240000,
   levelRow 61 35651584 2139095040 120000 480000 120000 480000]

/-- The levels of AV1 up to 6.1 (PRESUMED, its Annex A; notes/assumptions/85): the buffer holds one second at the level's rate. -/
def av1Levels : List LevelRow :=
  [levelRow 20 147456 4423680 1500 0 1500 0, levelRow 21 278784 8363520 3000 0 3000 0, levelRow 30 665856 19975680 6000 0 6000 0,
   levelRow 31 1065024 31950720 10000 0 10000 0, levelRow 40 2359296 70778880 12000 30000 12000 30000,
   levelRow 41 2359296 141557760 20000 50000 20000 50000, levelRow 50 8912896 267386880 30000 100000 30000 100000] ++
  [levelRow 51 8912896 534773760 40000 160000 40000 160000, levelRow 52 8912896 1069547520 60000 240000 60000 240000,
   levelRow 53 8912896 1069547520 60000 240000 60000 240000, levelRow 60 35651584 1069547520 60000 240000 60000 240000,
   levelRow 61 35651584 2139095040 100000 480000 100000 480000]

/-- The highest rate in kbit/s that an encoder's parameters ask for: none of its own with CQP, MAXRATE with VBR (R592). -/
def parRate (par : Bytes) : Nat := if pb par 96 = 0 then 0 else if pb par 96 = 2 then field par 104 4 else field par 100 4

/-- The bits of an encoder's coded-picture buffer (R592). -/
def parHrdBits (par : Bytes) : Nat := if pb par 96 = 0 then 0 else 8 * field par 108 4

/-- Whether a level's tier allows an encoder's rate and buffer. -/
def LevelRow.allows (r : LevelRow) (high : Bool) (par : Bytes) : Bool :=
  (!high || r.high != 0) && decide (parRate par ≤ if high then r.high else r.main) &&
  decide (parHrdBits par ≤ 1000 * if high then r.bufHigh else r.bufMain)

/-- Whether a level allows a stream's picture size and declared rate. -/
def LevelRow.holds (r : LevelRow) (par : Bytes) : Bool :=
  decide (parW par * parH par ≤ r.picture) && decide (parW par * parH par * field par 8 2 ≤ r.samples * field par 10 2)

/-- The levels of a stream's standard. -/
def parLevels (par : Bytes) : List LevelRow := if pb par 1 = 1 then av1Levels else hevcLevels

/-- Whether some level up to 6.1 and tier allows an encoder's bit rate and buffer (R581). A declared frame rate beyond the level is left
to the last check of R617, whose B lies below it (DEDUCED, notes/assumptions/85). -/
def levelOk (par : Bytes) : Bool := (parLevels par).any fun r => r.allows false par || r.allows true par

/-- The lowest level, and for it the lowest tier, whose limits an encoder's parameters meet (R609); level 6.1 in the High tier where a
declared rate is beyond them all. -/
def signalled (par : Bytes) : Nat × Bool :=
  match (parLevels par).find? fun r => r.holds par && (r.allows false par || r.allows true par) with
  | some r => (r.level, !r.allows false par)
  | none => (61, true)

/-- Every parameter a defined code in its range, combinations legal, reserved bytes 0 (R617). -/
def parOk (par : Bytes) : Bool :=
  decide (pb par 0 ≤ 1) && decide (pb par 1 ≤ 1) && sizeOk par && field par 10 2 != 0 &&
  decide (2 ≤ parPool par) && decide (parPool par ≤ 32) && decide (pb par 13 ≤ 1) &&
  (pb par 14 == 3 || (pb par 14 == 2 && !parCodes par)) && decide (pb par 15 ≤ 1) && decide (pb par 16 ≤ 1) &&
  decide (pb par 18 ≤ 3) && [16, 32, 64, 128, 256, 512, 1024, 2048, 4096].contains (parRing par) &&
  parPoolVA par % pageBytes == 0 && parRingVA par % 64 == 0 && parDataVA par % 64 == 0 && parDataBytes par % 64 == 0 &&
  parRow par % 64 == 0 && zeroAt par 19 1 && zeroAt par 68 28 && zeroAt par 120 136 &&
  (if parDec par then decide (1 ≤ parSlots par) && decide (parSlots par ≤ parRing par) else encodeParOk par && levelOk par)

/-- Every buffer of R594 mapped with W = 1. -/
def buffersOk (s : State) (asn : Nat) (par : Bytes) : Bool :=
  writableRange s asn (parPoolVA par) (parPool par * bufPages par * pageBytes) &&
  writableRange s asn (parRingVA par) (128 * parRing par) &&
  writableRange s asn (parDataVA par) (if parDec par then parSlots par * parDataBytes par else parDataBytes par)

/-- Bytes of a tensor slot that a frame reaches (R599). -/
def frameSpan (par : Bytes) : Nat :=
  let last := fun p w h => parPlane par * p + parRow par * (h - 1) + 2 * w
  let w := parW par
  let h := parH par
  if parCodes par then max (last 0 w h) (last 2 (w / 2) (h / 2)) else last 2 w h

/-- The BOUNDS check of R617. -/
def parFits (par : Bytes) : Bool :=
  decide (2 * parW par ≤ parRow par) &&
  (if parDec par then decide (frameSpan par ≤ parDataBytes par)
   else decide (pb par 115 + pb par 114 + 2 ≤ parPool par))

/-! ### Load (R583) -/

/-- The streams of a unit. -/
def Codec.openStreams (u : Codec) : List Stream := u.streams.filterMap id

/-- Sum of the fractions FPS × samples of some parameter blocks, as numerator and denominator, with S added per frame. -/
def loadOf (pars : List Bytes) : Nat × Nat :=
  let extra := if 1 < pars.length then 106168 else 0
  pars.foldl (fun a p =>
    let d := field p 10 2
    (a.1 * d + a.2 * (field p 8 2 * (parW p * parH p + extra)), a.2 * d)) (0, 1)

/-- B (R583). -/
def codecCapacity : Nat := 2123366400

/-- LOAD_KSPS (R619): thousands of samples per second, rounded up. -/
def loadKsps (u : Codec) : Nat :=
  let l := loadOf (u.openStreams.map (·.par))
  cdiv l.1 (1000 * l.2)

/-! ### Streams -/

/-- Codec unit `u`. -/
def getCodec (s : State) (u : Nat) : Codec := s.codecs.getD u .reset

/-- Stream `id` = unit × 32 + slot (R591). -/
def getStream (s : State) (id : Nat) : Option Stream := (getCodec s (id / 32)).streams.getD (id % 32) none

/-- Changes a unit. -/
def modCodec (s : State) (u : Nat) (f : Codec → Codec) : State := { s with codecs := modAt s.codecs u f }

/-- Replaces a stream. -/
def putStream (s : State) (id : Nat) (t : Option Stream) : State :=
  modCodec s (id / 32) fun u => { u with streams := modAt u.streams (id % 32) fun _ => t }

/-- A stream just opened (R591). -/
def newStream (s : State) (asn semBase : Nat) (par : Bytes) : Stream :=
  { asn := asn, semBase := semBase, par := par, state := .opened, lastStatus := 0, inCount := 0, outCount := 0, released := 0
    fed := [], fedEnd := false, ready := [], ending := false, failed := false, closing := [], inputs := [], clips := []
    units := [], coded := [], pics := [], decoded := 0, lastPic := none, priorPic := none, waiting := [], bad := [], outbox := [], paced := []
    paceFrom := none, bsNext := 0, bsTotal := 0, live := [], openedAt := s.hub.timebase, servedAt := s.hub.timebase, frames := 0 }

/-- STREAM_OPEN once it starts: the checks of R617 in order. -/
def startStreamOpen (h : CmdHdr) (unit asn semBase va : Nat) (s : State) : State :=
  let fail := fun (s : State) st => complete s h 0x0050 st []
  if 3 < unit ∨ 252 < semBase ∨ va % 64 ≠ 0 then fail s .formatUnsupported
  else if (spaceOf s asn).isNone then fail s .stateIllegal
  else readThen s asn va 256 fun s r => match r with
    | .error _ => fail s .stateIllegal
    | .ok par =>
      let u := getCodec s unit
      if !parOk par then fail s .formatUnsupported
      else if !buffersOk s asn par then fail s .stateIllegal
      else if !parFits par then fail s .bounds
      else match u.streams.findIdx? Option.isNone with
        | none => fail s .tableFull
        | some slot =>
          let l := loadOf (u.openStreams.map (·.par) ++ [par])
          if codecCapacity * l.2 < l.1 then fail s .tableFull
          else complete (putStream s (32 * unit + slot) (some (newStream s asn semBase par))) h 0x0050 .ok
            [BitVec.ofNat 8 (32 * unit + slot)]

/-- STREAM_OPEN (R617). -/
def execStreamOpen (h : CmdHdr) (unit asn semBase paramVA : Nat) (s : State) : Host.Outcome State Fault Refusal :=
  event (Instr.wf (.streamOpen h unit asn semBase paramVA)) s fun s =>
    submit s h (.streamOpen h unit asn semBase paramVA) 0x0050 0 (startStreamOpen h unit asn semBase paramVA)

/-- The slot is freed (R616): entries not yet taken in are dropped, the FRAME_SUBMITs that carried them complete with STATE_ILLEGAL
(notes/assumptions/24), and the STREAM_CLOSE commands complete. -/
def freeStream (s : State) (id : Nat) (t : Stream) : State :=
  let dropped := t.ready.filterMap (·.hdr) ++ t.fed.map (·.hdr)
  let s1 := dropped.foldl (fun s h => complete s h 0x0052 .stateIllegal []) (putStream s id none)
  t.closing.foldl (fun s h => complete s h 0x0051 .ok []) s1

/-- STREAM_CLOSE once it starts (R616, R618). -/
def startStreamClose (h : CmdHdr) (id : Nat) (s : State) : State :=
  match getStream s id with
  | none => complete s h 0x0051 .stateIllegal []
  | some t =>
    let t1 := { t with closing := t.closing ++ [h] }
    if (getCodec s (id / 32)).current = some (id % 32) then putStream s id (some t1) else freeStream s id t1

/-- STREAM_CLOSE (R616). -/
def execStreamClose (h : CmdHdr) (stream : Nat) (s : State) : Host.Outcome State Fault Refusal :=
  event (Instr.wf (.streamClose h stream)) s fun s => submit s h (.streamClose h stream) 0x0051 0 (startStreamClose h stream)

/-- FRAME_SUBMIT once it starts (R618); it completes when the unit has read the input (R616). -/
def startFrameSubmit (h : CmdHdr) (id : Nat) (entry : Bytes) (s : State) : State :=
  let fail := fun st => complete s h 0x0052 st []
  match getStream s id with
  | none => fail .stateIllegal
  | some t =>
    if t.state ≠ .opened ∨ !parFed t.par ∨ t.fedEnd then fail .stateIllegal
    else if parRing t.par ≤ t.fed.length then fail .tableFull
    else putStream s id (some { t with fed := t.fed ++ [{ hdr := h, entry := slice entry 0 64 }], fedEnd := field entry 0 1 == 2 })

/-- FRAME_SUBMIT (R616). -/
def execFrameSubmit (h : CmdHdr) (stream : Nat) (entry : Bytes) (s : State) : Host.Outcome State Fault Refusal :=
  event (Instr.wf (.frameSubmit h stream entry)) s fun s =>
    submit s h (.frameSubmit h stream entry) 0x0052 0 (startFrameSubmit h stream entry)

/-- Releases the `n` oldest outputs (R600). -/
def Stream.release (t : Stream) (n : Nat) : Stream := { t with released := t.released + n, live := t.live.drop n }

/-! ### Rings (R595, R596, R600) -/

/-- Reads entry `i` of the submit ring (R596); what a poisoned or unreadable line gives is free. -/
def readEntry (s : State) (t : Stream) : CodedEntry :=
  let va := parRingVA t.par + 64 * (t.inCount % parRing t.par)
  match virtRead s t.asn va 64 with
  | .ok b => { index := t.inCount, entry := b, hdr := none, poisoned := false, unread := false }
  | .error .poison => { index := t.inCount, entry := freeBytes s.free 64, hdr := none, poisoned := true, unread := false }
  | .error _ => { index := t.inCount, entry := freeBytes s.free 64, hdr := none, poisoned := false, unread := true }

/-- A unit consumes one SUBMIT, or a host-fed entry (R595, R596). -/
def submitConsume (s : State) (id : Nat) : State :=
  match getStream s id with
  | none => s
  | some t =>
    if t.state ≠ .opened ∨ t.ending ∨ !t.closing.isEmpty ∨ !hubRuns s then s
    else if parFed t.par then
      match t.fed with
      | [] => s
      | e :: r => putStream s id (some { t with
          fed := r, inCount := t.inCount + 1
          ready := t.ready ++ [{ index := t.inCount, entry := e.entry, hdr := some e.hdr, poisoned := false, unread := false }] })
    else if semCount s t.asn t.semBase = 0 then s
    else
      let s := agentReads s t.asn (parRingVA t.par + 64 * (t.inCount % parRing t.par)) 64
      let e := readEntry s t
      let s1 := takeSem s t.asn t.semBase 1
      putStream { s1 with free := s1.free + 16 } id (some { t with inCount := t.inCount + 1, ready := t.ready ++ [e] })

/-- CODEC_SUBMIT_CONSUME (R596). -/
def execCodecSubmitConsume (stream : Nat) (s : State) : Host.Outcome State Fault Refusal :=
  event (Instr.wf (.codecSubmitConsume stream)) s fun s => submitConsume s stream

/-! ### Records -/

/-- An output record without its index (R598). `off` and `bytes` are OFFSET and BYTES. -/
def codecRecord (o : CodecOut) (off bytes : Nat) : Bytes :=
  let size := match o.pic with
    | some p => [(32, 2, p.width), (34, 2, p.height), (36, 2, if o.hevc then p.width else p.renderW),
                 (38, 2, if o.hevc then p.height else p.renderH)]
    | none => []
  record 64 ([(4, 1, o.kind), (5, 1, o.status), (6, 1, o.type), (8, 8, o.pts), (16, 8, off), (24, 4, bytes), (28, 4, o.clip)] ++ size)

/-- Writes the next output record and signals OUT (R598, R600); the END record ends the stream. -/
def emitRecord (s : State) (id : Nat) (t : Stream) (rec0 : Bytes) : State :=
  let va := parRingVA t.par + 64 * parRing t.par + 64 * (t.outCount % parRing t.par)
  let s1 := hubWrite s t.asn va (putField rec0 0 4 t.outCount)
  let st := field rec0 5 1
  let t1 := { t with
    outCount := t.outCount + 1
    lastStatus := if st = 0 then t.lastStatus else st
    paceFrom := if t.paceFrom.isNone then some (getCodec s (id / 32)).clock else t.paceFrom
    state := if field rec0 4 1 = 2 then (if t.failed then .error else .ended) else t.state }
  addSem (putStream s1 id (some t1)) t.asn (t.semBase + 2) 1

/-- L (R600). -/
def Stream.limit (t : Stream) : Nat := if parDec t.par then min (parRing t.par) (parSlots t.par) else parRing t.par

/-- Outputs not yet written in full and not released: written, or waiting for their pace. -/
def Stream.unreleased (t : Stream) : Nat := t.outCount + t.paced.length - t.released

/-- Where an access unit of `n` bytes starts, if it can be placed now (R610). -/
def Stream.place (t : Stream) (n : Nat) : Option Nat :=
  let a := 64 * cdiv t.bsNext 64
  let a1 := if a + n ≤ parDataBytes t.par then a else 0
  if a1 + n ≤ parDataBytes t.par && t.live.all (fun e => e.2 == 0 || decide (a1 + n ≤ e.1) || decide (e.1 + e.2 ≤ a1)) then some a1
  else none

/-- Whether the output at the head of the outbox can be written now (R600, R610). -/
def Stream.canWrite (t : Stream) : Bool :=
  match t.outbox with
  | [] => false
  | o :: _ => decide (t.unreleased < t.limit) && (o.data.isEmpty || (t.place o.data.length).isSome)

/-- The record is written now, or waits for its pace (R611). -/
def paceOrEmit (s : State) (id : Nat) (t : Stream) (rec0 : Bytes) (bytes : Nat) : State :=
  let t1 := { t with bsTotal := t.bsTotal + bytes }
  match t.paceFrom with
  | some t0 =>
    if parPace t.par = 0 ∨ parDec t.par then emitRecord s id t1 rec0
    else putStream s id (some { t1 with paced := t.paced ++ [(rec0, t0 + cdiv (8000000 * t.bsTotal) (parPace t.par))] })
  | none => emitRecord s id t1 rec0

/-- The conversion parameters of a stream for a depth. -/
def convPar (par : Bytes) (depth : Nat) : ConvPar :=
  { matrix := pb par 15, full := pb par 16 == 1, depth := depth, codes := parCodes par, fmt := if pb par 14 = 2 then .bf16 else .fp16 }

/-! ### Frame buffers (R602) -/

/-- Frames of the pool that carry a mark. -/
def Stream.framesUsed (t : Stream) : List Nat := (t.pics.filter fun p => p.mark != 0 || p.pending).map (·.frame)

/-- The lowest-numbered unused frame of the pool. -/
def Stream.freeFrame (t : Stream) : Option Nat := (List.range (parPool t.par)).find? fun f => !t.framesUsed.contains f

/-- A mask of the frames with a mark (R621). -/
def Stream.markMask (t : Stream) (p : Pic → Bool) : Nat := (((t.pics.filter p).map (·.frame)).eraseDups.map fun f => 2 ^ f).sum

/-- Drops pictures that carry no mark: their frames are unused. -/
def Stream.prune (t : Stream) : Stream := { t with pics := t.pics.filter fun p => p.mark != 0 || p.pending }

/-- Writes a picture into its frame buffer (R604). -/
def fillBuffer (s : State) (t : Stream) (p : Pic) : State :=
  hubWrite s t.asn (bufVA t.par p.frame) (slice (Config.frameBuffer t.par p.num p.samples) 0 (bufBytes t.par))

/-- Whether a frame buffer has a poisoned line. -/
def bufferPoisoned (s : State) (t : Stream) (f : Nat) : Bool := !(virtPoison s t.asn (bufVA t.par f) (bufBytes t.par)).isEmpty

/-- Whether a picture that a unit reads lies in a frame buffer of the pool. -/
def Stream.held (t : Stream) (nums : List Nat) : List Pic := t.pics.filter fun p => nums.contains p.num

/-- A unit reads the frame buffers of some pictures: it meets the errors in their cells (R490, R491) and the data cross the hub's
bridges (R30). -/
def readBuffers (s : State) (t : Stream) (nums : List Nat) : State :=
  (t.held nums).foldl (fun s p => agentReads s t.asn (bufVA t.par p.frame) (bufBytes t.par)) s

/-- Whether one of these pictures lies in a poisoned frame buffer. -/
def refsPoisoned (s : State) (t : Stream) (nums : List Nat) : Bool := (t.held nums).any fun p => bufferPoisoned s t p.frame

/-- What takes the place of a picture that cannot be used (R613): the picture decoded last before it, or a grey one. -/
def Stream.concealed (t : Stream) (p : Pic) : Pic :=
  match if t.lastPic.any (fun l => l.num == p.num) then t.priorPic else t.lastPic with
  | some l => { p with width := l.width, height := l.height, depth := l.depth, samples := l.samples }
  | none => { p with samples := greySamples p.width p.height p.depth }

/-- Writes a decoded picture into tensor slot `slot` (R599, R607). -/
def writeTensor (s : State) (t : Stream) (slot : Nat) (p : Pic) : State :=
  let base := parDataVA t.par + slot * parDataBytes t.par
  ((convPar t.par p.depth).rows p.width p.height p.samples).foldl (fun s r =>
    hubWrite s t.asn (base + parPlane t.par * r.1 + parRow t.par * r.2.1) r.2.2) s

/-- Writes the output at the head of the outbox (R600): of a picture the unit reads its frame buffer, and a poisoned one is concealed
(R612, R613). -/
def writeHead (s : State) (id : Nat) (t : Stream) : State :=
  match t.outbox with
  | [] => s
  | o :: rest =>
    let t1 := { t with outbox := rest }
    match o.pic with
    | some p =>
      let slot := (t.outCount + t.paced.length) % parSlots t.par
      let s0 := readBuffers s t [p.num]
      let gone := refsPoisoned s0 t [p.num]
      let q := if gone then t.concealed p else p
      let s1 := writeTensor s0 t slot q
      let t2 := { t1 with
        live := t1.live ++ [(0, 0)]
        pics := t1.pics.map fun x => if x.num = p.num then { x with pending := false } else x }
      let o1 := { o with pic := some q, status := if gone then 3 else o.status }
      paceOrEmit s1 id t2 (codecRecord o1 (slot * parDataBytes t.par) 0) 0
    | none =>
      if o.data.isEmpty then paceOrEmit s id { t1 with live := t1.live ++ [(0, 0)] } (codecRecord o 0 0) 0
      else
        let a := (t.place o.data.length).getD 0
        let n := o.data.length
        let s1 := hubWrite s t.asn (parDataVA t.par + a) o.data
        paceOrEmit s1 id { t1 with live := t1.live ++ [(a, n)], bsNext := a + n } (codecRecord o a n) n

/-- Writes what can be written, in order. -/
def drainOut (n : Nat) (s : State) (id : Nat) : State :=
  match n with
  | 0 => s
  | k + 1 => match getStream s id with
    | some t => if t.canWrite then drainOut k (writeHead s id t) id else s
    | none => s

/-- Writes what a stream's released outputs have made room for (R600; notes/assumptions/39). -/
def drainStream (s : State) (id : Nat) : State :=
  match getStream s id with
  | some t => if t.state = .opened && hubRuns s then drainOut t.outbox.length s id else s
  | none => s

/-- FRAME_RELEASE once it starts (R616, R618). -/
def startFrameRelease (h : CmdHdr) (id n : Nat) (s : State) : State :=
  let fail := fun st => complete s h 0x0053 st []
  if n = 0 ∨ 4096 < n then fail .formatUnsupported
  else match getStream s id with
    | none => fail .stateIllegal
    | some t =>
      if t.state ≠ .opened ∨ !parFed t.par ∨ t.fedEnd ∨ t.outCount < t.released + n then fail .stateIllegal
      else drainStream (complete (putStream s id (some (t.release n))) h 0x0053 .ok []) id

/-- FRAME_RELEASE (R616). -/
def execFrameRelease (h : CmdHdr) (stream count : Nat) (s : State) : Host.Outcome State Fault Refusal :=
  event (Instr.wf (.frameRelease h stream count)) s fun s =>
    submit s h (.frameRelease h stream count) 0x0053 0 (startFrameRelease h stream count)

/-- A unit consumes one RELEASE while an output is unreleased (R600). -/
def releaseConsume (s : State) (id : Nat) : State :=
  match getStream s id with
  | none => s
  | some t =>
    if t.state = .stale ∨ parFed t.par ∨ t.outCount ≤ t.released ∨ semCount s t.asn (t.semBase + 3) = 0 ∨ !hubRuns s then s
    else drainStream (putStream (takeSem s t.asn (t.semBase + 3) 1) id (some (t.release 1))) id

/-- CODEC_RELEASE_CONSUME (R600). -/
def execCodecReleaseConsume (stream : Nat) (s : State) : Host.Outcome State Fault Refusal :=
  event (Instr.wf (.codecReleaseConsume stream)) s fun s => releaseConsume s stream

/-- A paced record whose time on the unit's pacing clock has come (R611). -/
def pacedRecord (s : State) (id : Nat) : State :=
  match getStream s id with
  | none => s
  | some t => match t.paced with
    | [] => s
    | (r, due) :: rest =>
      if t.state = .opened && decide (due ≤ (getCodec s (id / 32)).clock) && hubRuns s then emitRecord s id { t with paced := rest } r else s

/-- CODEC_PACED_RECORD (R611). -/
def execCodecPacedRecord (stream : Nat) (s : State) : Host.Outcome State Fault Refusal :=
  event (Instr.wf (.codecPacedRecord stream)) s fun s => pacedRecord s stream

/-! ### Outputs and errors -/

/-- An output that carries only a status. -/
def plainOut (kind status pts : Nat) : CodecOut :=
  { kind := kind, status := status, type := 0, pts := pts, clip := 0, data := [], pic := none, hevc := false }

/-- A status that ends the stream is followed by the END record (R612). -/
def Stream.fail (t : Stream) (status pts : Nat) : Stream :=
  { t with outbox := t.outbox ++ [plainOut 1 status pts, plainOut 2 0 pts], ending := true, failed := true }

/-- Signals DONE and completes the FRAME_SUBMIT that carried the entry (R595, R616). -/
def entryDone (s : State) (t : Stream) (e : CodedEntry) : State :=
  let s1 := addSem s t.asn (t.semBase + 1) 1
  match e.hdr with
  | some h => complete s1 h 0x0052 .ok []
  | none => s1

/-- An entry that ends its stream is consumed too: the FRAME_SUBMIT that carried it completes, for it has nothing more to read; DONE
counts only an input fully read (R595, R616; DEDUCED, notes/assumptions/24). -/
def entryEnds (s : State) (id : Nat) (t : Stream) (e : CodedEntry) : State :=
  match e.hdr with
  | some h => complete (putStream s id (some t)) h 0x0052 .ok []
  | none => putStream s id (some t)

/-- Whether an entry's KIND and reserved bits are as R597 says. -/
def entryShapeOk (par : Bytes) (b : Bytes) : Bool :=
  let kind := field b 0 1
  (kind == 1 || kind == 2) && zeroAt b 2 6 && zeroAt b 20 4 && zeroAt b 32 32 &&
  (if parDec par then zeroAt b 1 1 else zeroAt b 16 4 && decide (field b 1 1 ≤ if pb par 1 = 0 then 3 else 1))

/-! ### Encoding -/

/-- The rows of the input tensor: plane, row, address, bytes (R599, R606). -/
def tensorRows (par : Bytes) (va : Nat) : List (Nat × Nat × Nat × Nat) :=
  let plane := fun (p w h : Nat) => (List.range h).map fun y => (p, y, va + parPlane par * p + parRow par * y, 2 * w)
  let w := parW par
  let h := parH par
  let c := fun (n : Nat) => if parCodes par then n / 2 else n
  plane 0 w h ++ plane 1 (c w) (c h) ++ plane 2 (c w) (c h)

/-- The front-end's conversion of the tensor at an address (R606): the samples and CLIP_COUNT. -/
def convertTensor (s : State) (t : Stream) (va : Nat) : Samples × Nat :=
  let p := convPar t.par (pb t.par 3)
  let el : Planes := fun k x y => p.fmt.decode (leNat (virtBytes s t.asn (va + parPlane t.par * k + parRow t.par * y + 2 * x) 2))
  if p.codes then p.fromCodes (parW t.par) (parH t.par) el else p.fromRgb (parW t.par) (parH t.par) el

/-- Frames of a list of inputs: the FRAME entries among them. -/
def frameInputs (l : List EncInput) : List EncInput := l.filter fun i => field i.entry 0 1 == 1

/-- Whether frame `n` is a key frame (R592, R597, R609): the first, a forced one, or the GOP_LEN-th after the last key frame.
The distance since the last key frame runs along the frames. -/
def keyFrames (gop : Nat) (force : List Bool) (since : Nat) : List Bool :=
  match force with
  | [] => []
  | f :: r =>
    let k := f || (gop != 0 && gop ≤ since)
    k :: keyFrames gop r (if k then 1 else since + 1)

/-- Whether frame `n` of an encoder is a key frame. -/
def Stream.isKey (t : Stream) (n : Nat) : Bool :=
  let force := (frameInputs t.inputs).mapIdx fun i e => i == 0 || bit (field e.entry 1 1) 0
  (keyFrames (field t.par 112 2) force 0).getD n false

/-- TYPE of a coded frame: 0 for a key frame, else what the encoder chose, B only where BFRAMES is not 0. -/
def Stream.frameType (t : Stream) (n : Nat) (c : CodedFrame) : Nat :=
  if t.isKey n then 0 else 1 + c.type % (if pb t.par 114 = 0 then 2 else 3)

/-- Marks after coding frame `n` (R602): SHORT for the REFS most recent reference frames, LONG for a frame submitted with FORCE
bit [1] until the next key frame. -/
def Stream.markCoded (t : Stream) (n : Nat) (isRef key : Bool) : Stream :=
  let long := bit (field ((frameInputs t.inputs).getD n { entry := [], samples := { y := [], cb := [], cr := [] } }).entry 1 1) 1
  let clear := fun (p : Pic) => if key && p.num != n && p.mark == 2 then { p with mark := 0 } else p
  let set := fun (p : Pic) =>
    if p.num = n then { p with pending := false, mark := if long then 2 else if isRef then 1 else 0 } else p
  let pics := t.pics.map fun p => set (clear p)
  let order := (t.coded ++ [n]).reverse
  let shorts := (order.filter fun k => pics.any fun p => p.num == k && p.mark == 1).take (pb t.par 115)
  { t with pics := pics.map fun p => if p.mark = 1 && !shorts.contains p.num then { p with mark := 0 } else p }

/-- A NAL unit of an Annex B byte stream: its start code, with or without the zero byte before it, its header and its payload (PRESUMED,
ITU-T H.265; notes/assumptions/85). -/
def nal (zero : Bool) (type layer : Nat) (b : Bytes) : Bytes :=
  (if zero then [0x00] else []) ++ [0x00, 0x00, 0x01, BitVec.ofNat 8 (2 * (type % 64)), BitVec.ofNat 8 (1 + layer % 7)] ++ b

/-- The bytes of an unsigned number in AV1's variable-length code. -/
def leb128 (n : Nat) : Bytes :=
  let groups := (List.range (n.log2 / 7 + 1)).map fun i => n / 128 ^ i % 128
  groups.mapIdx fun i g => BitVec.ofNat 8 (if i + 1 < groups.length then g + 128 else g)

/-- An OBU of the Low Overhead Bitstream Format: its header, with a size field, its size and its payload (PRESUMED, AV1;
notes/assumptions/85). -/
def obu (type : Nat) (b : Bytes) : Bytes := [BitVec.ofNat 8 (8 * (type % 16) + 2)] ++ leb128 b.length ++ b

/-- The NAL unit type of a picture's slices: an IDR picture for the first one, an IRAP picture for every other key frame (R609). -/
def sliceType (first key : Bool) (c : CodedFrame) : Nat :=
  if first then 19 + c.nalType % 2 else if key then 16 + c.nalType % 6 else c.nalType % 10

/-- The access unit of a coded frame (R609): HEVC begins with a delimiter and has its parameter sets at every IRAP picture; AV1 begins
with a temporal delimiter and has its sequence header at every key frame. -/
def accessUnit (par : Bytes) (first key : Bool) (c : CodedFrame) : Bytes :=
  let sig := signalled par
  let set := fun k => Config.codecHeader k par sig.1 sig.2
  let layer := if key then 0 else c.layer
  if pb par 1 = 0 then
    nal true 35 layer c.delimiter ++ (if key then [32, 33, 34].flatMap fun k => nal true k 0 (set k) else []) ++
    c.pieces.flatMap fun x => nal x.1 (if 32 ≤ x.2.1 % 64 then x.2.1 else sliceType first key c) layer x.2.2
  else obu 2 [] ++ (if key then obu 1 (set 1) else []) ++ c.pieces.flatMap fun x => obu x.2.1 x.2.2

/-- Codes frame `n`: the unit reads its frame buffer and those it is predicted from, and its access unit goes to the outbox (R600,
R612). A poisoned frame buffer, or an access unit longer than the bitstream buffer, ends the stream. -/
def codeFrame (x : State × Stream) (n : Nat) : State × Stream :=
  let (s, t) := x
  if t.ending then x else
  let c := Config.encodeFrame t.par t.inputs n
  let e := (frameInputs t.inputs).getD n { entry := [], samples := { y := [], cb := [], cr := [] } }
  let pts := field e.entry 24 8
  let nums := n :: c.refs.filter fun k => t.coded.contains k
  let data := accessUnit t.par (n == 0) (t.isKey n) c
  let s1 := readBuffers s t nums
  if refsPoisoned s1 t nums then (s1, t.fail 3 pts)
  else if parDataBytes t.par < data.length then (s1, t.fail 6 pts)
  else
    let o : CodecOut := { kind := 1, status := 0, type := t.frameType n c, pts := pts, clip := t.clips.getD n 0, data := data
                          pic := none, hevc := false }
    let t1 := t.markCoded n c.isRef (t.isKey n)
    (s1, { t1 with coded := t.coded ++ [n], outbox := t.outbox ++ [o] })

/-- Frames to code now: what the encoder chooses among those present and not coded (in order when there are no B-frames), and
after END all that are left. -/
def toCode (t : Stream) (ended : Bool) : List Nat :=
  let n := (frameInputs t.inputs).length
  let left := (List.range n).filter fun k => !t.coded.contains k
  if pb t.par 114 = 0 then left else
    let pick := (Config.encodeOrder t.par t.inputs).eraseDups.filter left.contains
    if ended then pick ++ left.filter (fun k => !pick.contains k) else pick

/-- The END record follows every other output. -/
def Stream.finish (t : Stream) (pts : Nat) : Stream := { t with outbox := t.outbox ++ [plainOut 2 0 pts], ending := true }

/-- The picture that an encoder's input becomes in its frame buffer (R602). -/
def inputPic (t : Stream) (pts : Nat) (y : Samples) : Pic :=
  { num := (frameInputs t.inputs).length, frame := t.freeFrame.getD 0, mark := 0, pending := true, width := parW t.par
    height := parH t.par, depth := pb t.par 3, samples := y, pts := pts, status := 0, type := 0, renderW := 0, renderH := 0 }

/-- An encoder takes in one entry (R597, R606, R612). -/
def encodeEntry (s : State) (id : Nat) (t : Stream) (e : CodedEntry) : State :=
  let pts := field e.entry 24 8
  let va := field e.entry 8 8
  if e.poisoned then entryEnds s id (t.fail 3 pts) e
  else if e.unread || !entryShapeOk t.par e.entry then entryEnds s id (t.fail 7 pts) e
  else if field e.entry 0 1 = 2 then
    let t1 := { t with inputs := t.inputs ++ [{ entry := e.entry, samples := { y := [], cb := [], cr := [] } }] }
    let (s2, t2) := (toCode t1 true).foldl codeFrame (s, t1)
    let t3 := if t2.ending then t2 else t2.finish pts
    entryDone (putStream s2 id (some t3.prune)) t e
  else
    let rows := tensorRows t.par va
    if va % 64 ≠ 0 || !rows.all (fun r => mappedRange s t.asn r.2.2.1 r.2.2.2) then entryEnds s id (t.fail 7 pts) e
    else
      let sr := rows.foldl (fun s r => agentReads s t.asn r.2.2.1 r.2.2.2) s
      if rows.any fun r => !(virtPoison sr t.asn r.2.2.1 r.2.2.2).isEmpty then
        entryDone (putStream sr id (some (t.fail 3 pts))) t e
      else
        let c := convertTensor sr t va
        let p := inputPic t pts c.1
        let t1 := { t with inputs := t.inputs ++ [{ entry := e.entry, samples := c.1 }], clips := t.clips ++ [c.2]
                           pics := t.pics ++ [p] }
        let (s2, t2) := (toCode t1 false).foldl codeFrame (fillBuffer sr t1 p, t1)
        entryDone (putStream s2 id (some t2.prune)) t e

/-! ### Decoding -/

/-- The pool a new sequence needs (R603): 10 for AV1, the maximum buffering + 2 for HEVC. -/
def poolNeed (par : Bytes) (n : Nat) : Nat := if pb par 1 = 1 then 10 else n + 2

/-- Whether an access unit keeps to what a unit supports (R581, R582); a level above 6.1 counts as a feature that R582 does not
support (DEDUCED, notes/assumptions/85). -/
def featuresOk (f : StreamFeatures) (av1 : Bool) : Bool :=
  (f.chroma == 1 || (f.chroma == 0 && av1)) && (f.depth == 8 || f.depth == 10) && !f.extension && !f.fields && !f.packing &&
  (!av1 || (f.profile == 0 && !f.largeTiles)) && decide (f.level ≤ 61)

/-- The status of a decoded frame (R612, R613). -/
def decodeStatus (s : State) (t : Stream) (poisoned : Bool) (f : DecodedFrame) : Nat :=
  if poisoned || refsPoisoned s t f.refs then 3 else if f.corrupt then 1
  else if f.refs.any t.bad.contains then 2 else 0

/-- The picture of a decoded frame in a frame buffer: a concealed one is a copy of the frame decoded last, or grey (R613); a
monochrome one has grey chroma (R607). TYPE is 0 for a key frame or IRAP picture, else one of the others (R598). -/
def decodedPic (t : Stream) (x : StreamFeatures) (pts status : Nat) (f : DecodedFrame) (frame : Nat) : Pic :=
  let grey := greySamples f.width f.height x.depth
  let own : Pic := { num := t.decoded, frame := frame, mark := 0, pending := true, width := f.width, height := f.height
                     depth := x.depth, samples := if x.chroma = 0 then { grey with y := f.samples.y } else f.samples
                     pts := pts, status := status, type := if f.key then 0 else 1 + f.type % 3
                     renderW := f.renderW, renderH := f.renderH }
  if status = 3 ∨ status = 1 then t.concealed own else own

/-- The marks of a stream's pictures (R602): AV1 has no LONG; a picture is PENDING until its tensor is written, so while it waits to be
output or for its output's room. Pictures without a mark give their frames back. -/
def Stream.mark (t : Stream) (m : PicMarks) : Stream :=
  let code := fun k => if pb t.par 1 = 1 then min 1 k else min 2 k
  let queued := fun n => t.outbox.any fun o => o.pic.any fun q => q.num == n
  ({ t with
    waiting := m.waiting
    pics := t.pics.map fun p =>
      { p with mark := code (assocD m.marks p.num 0), pending := queued p.num || m.waiting.contains p.num } } : Stream).prune

/-- Whether a picture is larger than the stream's sizes (R599). -/
def Stream.oversize (t : Stream) (p : Pic) : Bool := decide (parW t.par < p.width) || decide (parH t.par < p.height)

/-- One decoded frame takes the lowest-numbered unused frame buffer (R602). One larger than the stream's sizes ends the stream with
INPUT_FAULT (R599); a pool without an unused frame falls short of R603 and ends it with POOL_SMALL (notes/assumptions/18). -/
def decodeFrame (u : StreamFeatures) (pts : Nat) (poisoned : Bool) (x : State × Stream) (f : DecodedFrame) : State × Stream :=
  let (s, t0) := x
  if t0.ending then x else
  let t := t0.mark f.before
  match t.freeFrame with
  | none => (s, t.fail 5 pts)
  | some frame =>
    let s1 := readBuffers s t f.refs
    let st := decodeStatus s1 t poisoned f
    let p := decodedPic t u pts st f frame
    if t.oversize p then (s1, t.fail 7 pts)
    else
      let t1 := { t with
        pics := t.pics ++ [p], decoded := t.decoded + 1, lastPic := some p, priorPic := t.lastPic
        bad := if f.key && st == 0 then [] else if st = 0 then t.bad else t.decoded :: t.bad }
      (fillBuffer s1 t1 p, t1)

/-- A picture becomes an output, with the status it was decoded with (R598). -/
def outputPic (t : Stream) (num : Nat) : Stream :=
  if t.ending then t else
  match t.pics.find? fun p => p.num == num with
  | none => t
  | some p => { t with outbox := t.outbox ++ [{ kind := 1, status := p.status, type := p.type, pts := p.pts, clip := 0, data := []
                                                pic := some p, hevc := pb t.par 1 == 0 }] }

/-- A decoder takes in one access unit (R597, R599, R602, R603, R612); of one read with poison nothing is checked, and it is
concealed. -/
def decodeData (s : State) (t : Stream) (pts : Nat) (data : Option Bytes) : State × Stream :=
  let t0 := { t with units := t.units ++ [data] }
  let r := Config.decodeUnit t0.par t0.units
  if data.isSome && !featuresOk r.features (pb t.par 1 == 1) then (s, t0.fail 4 pts)
  else if data.isSome && r.sequence.any fun n => decide (parPool t.par < poolNeed t.par n) then (s, t0.fail 5 pts)
  else
    let (s1, t1) := r.frames.foldl (decodeFrame r.features pts data.isNone) (s, t0)
    (s1, (r.outputs.foldl outputPic t1).mark r.after)

/-- At END an HEVC decoder outputs the pictures that still wait, in output order (R598); AV1 shows a frame only where its stream says
so. -/
def Stream.flush (t : Stream) : Stream := if pb t.par 1 = 0 then t.waiting.foldl outputPic t else t

/-- A decoder takes in one entry. -/
def decodeEntry (s : State) (id : Nat) (t : Stream) (e : CodedEntry) : State :=
  let pts := field e.entry 24 8
  if e.unread || (!e.poisoned && !entryShapeOk t.par e.entry) then entryEnds s id (t.fail 7 pts) e
  else if !e.poisoned && field e.entry 0 1 == 2 then
    entryDone (putStream s id (some ((t.flush.finish pts).mark { marks := [], waiting := [] }))) t e
  else
    let va := field e.entry 8 8
    let n := field e.entry 16 4
    if !e.poisoned && !mappedRange s t.asn va n then entryEnds s id (t.fail 7 pts) e
    else
      let sr := if e.poisoned then s else agentReads s t.asn va n
      let data := if e.poisoned || !(virtPoison sr t.asn va n).isEmpty then none else some (virtBytes sr t.asn va n)
      let (s1, t1) := decodeData sr t pts data
      entryDone (putStream s1 id (some t1.prune)) t e

/-! ### Switching and finishing (R589, R590, R600) -/

/-- Whether a stream's next entry can be processed: present, a frame buffer unused, room for its output (R590). -/
def Stream.canTake (t : Stream) : Bool :=
  t.state == .opened && !t.ending && !t.ready.isEmpty && t.freeFrame.isSome && decide (t.unreleased < t.limit)

/-- Whether a stream is ready (R590). -/
def Stream.isReady (t : Stream) : Bool := t.closing.isEmpty && t.canTake

/-! ### The engines (R587, R588) -/

/-- Bytes of the syntax buffer (R587). -/
def syntaxBuffer : Nat := 8 * 2 ^ 20

/-- The engine that fills the syntax buffer: the entropy engine in decoding, the pixel engine in encoding (R587). -/
def producerOf (decodes : Bool) : CodecEngine := if decodes then .entropy else .pixel

/-- The engine that empties the syntax buffer. -/
def FrameWork.consumer (w : FrameWork) : CodecEngine := if w.producer = .entropy then .pixel else .entropy

/-- The work of a stream's next frame. -/
def Stream.work (t : Stream) : FrameWork :=
  { producer := producerOf (parDec t.par), left := Config.syntaxBytes t.par t.frames, buffered := 0 }

/-- One step of both engines: the producer waits while the buffer is full, the consumer while it is empty (R588). -/
def FrameWork.step (w : FrameWork) (made taken : Nat) : FrameWork :=
  let in_ := min (min made w.left) (syntaxBuffer - w.buffered)
  { w with left := w.left - in_, buffered := w.buffered + in_ - min taken w.buffered }

/-- One nanosecond of a unit: its pacing clock, which does not depend on the timebase (R87), and its engines. -/
def Codec.ns (draw : Nat) (u : Codec) : Codec :=
  { u with clock := u.clock + 1
           work := u.work.map fun w => w.step (Config.engineRate w.producer draw) (Config.engineRate w.consumer (draw + 1)) }

/-- One nanosecond of the codec units. -/
def codecsNs (s : State) : State :=
  { s with codecs := s.codecs.mapIdx fun i u => u.ns (s.free + 2 * i)
           free := s.free + (if s.codecs.any fun u => u.work.isSome then 2 * s.codecs.length else 0) }

/-- Order of two ready streams (R589): declared-rate streams by due time, then best-effort ones served longest ago; lower slots
first. True if the first goes before the second. -/
def dueBefore (a b : Stream) : Bool :=
  let n := fun (t : Stream) => field t.par 8 2
  if n a ≠ 0 ∧ n b ≠ 0 then
    decide ((a.openedAt * n a + 10 ^ 9 * a.frames * field a.par 10 2) * n b ≤ (b.openedAt * n b + 10 ^ 9 * b.frames * field b.par 10 2) * n a)
  else if n a ≠ 0 then true else if n b ≠ 0 then false else decide (a.servedAt ≤ b.servedAt)

/-- The stream a unit picks next. -/
def pickStream (u : Codec) : Option Nat :=
  ((List.range 32).filter fun k => ((u.streams.getD k none).map (·.isReady)) == some true).foldl (fun best k =>
    match best, u.streams.getD k none with
    | none, _ => some k
    | some b, some t => match u.streams.getD b none with
      | some tb => if dueBefore tb t then some b else some k
      | none => some k
    | some b, none => some b) none

/-- A unit at a frame boundary picks the next ready stream (R589); streams pause in Dormant entry (R615). -/
def streamSwitch (s : State) (u : Nat) : State :=
  if (getCodec s u).current.isSome || s.hub.boot != .ready || !s.hub.powered then s else
    match pickStream (getCodec s u) with
    | none => s
    | some k => modCodec s u fun c => { c with
        current := some k
        work := ((c.streams.getD k none).map Stream.work)
        streams := modAt c.streams k fun t => t.map fun t => { t with servedAt := s.hub.timebase } }

/-- CODEC_STREAM_SWITCH (R589). -/
def execCodecStreamSwitch (unit : Nat) (s : State) : Host.Outcome State Fault Refusal :=
  event (Instr.wf (.codecStreamSwitch unit)) s fun s => streamSwitch s unit

/-- The current stream's frame is done, and its syntax has left the buffer (R589): its entry is taken in, outputs are written while there is room, and the unit is at a frame
boundary, where a stream that is closing is freed (R600, R616). -/
def frameDone (s : State) (u : Nat) : State :=
  match (getCodec s u).current with
  | none => s
  | some k =>
    let id := 32 * u + k
    let s0 := modCodec s u fun c => { c with current := none, work := none }
    match getStream s0 id with
    | none => s0
    | some t =>
      if t.state ≠ .opened ∨ !hubRuns s then (if t.closing.isEmpty then s0 else freeStream s0 id t) else
      let s1 := match t.ready with
        | e :: r =>
          if t.canTake then
            let t1 := { t with ready := r, frames := t.frames + 1 }
            if parDec t.par then decodeEntry s0 id t1 e else encodeEntry s0 id t1 e
          else s0
        | [] => s0
      match getStream s1 id with
      | none => s1
      | some t1 =>
        let s2 := drainOut t1.outbox.length s1 id
        match getStream s2 id with
        | some t2 => if t2.closing.isEmpty then s2 else freeStream s2 id t2
        | none => s2

/-- CODEC_FRAME_DONE (R600). -/
def execCodecFrameDone (unit : Nat) (s : State) : Host.Outcome State Fault Refusal :=
  event (Instr.wf (.codecFrameDone unit)) s fun s => frameDone s unit

end Sys2Proof.Machine
end

