-- ==== Sys2Proof/Machine/Seating.lean ====
section
/-! DEFINITION. Machine/Seating.lean: jobs (R651 to R653), seating decisions and slices (R654 to R658), cork and uncork
transfers (R661 to R665, R673). -/

namespace Sys2Proof.Machine

/-! ### Job start (R651) -/

/-- Whether the precision settings of two slots agree (R402): the counters and WRITE_REFUSED are no settings. -/
def slotsAgree (s : State) (a b : Nat × Nat) : Bool :=
  (List.range 0x1C).all fun k =>
    let m := BitVec.ofNat 32 (precMask (4 * k))
    getReg s (precBase a.1 a.2 + 4 * k) &&& m == getReg s (precBase b.1 b.2 + 4 * k) &&& m

/-- The (die, slot) pairs a context holds. -/
def Ctx.slotPairs (c : Ctx) : List (Nat × Nat) := c.dies.filterMap fun d => (c.slots.getD d none).map fun k => (d, k)

/-- Whether the precision settings agree across a context's dies (R402). -/
def precAgree (s : State) (c : Ctx) : Bool :=
  match c.slotPairs with
  | [] => true
  | a :: l => l.all (slotsAgree s a)

/-- Precision counters of a context's slots at 0 (R408). -/
def clearPrecCounters (s : State) (c : Ctx) : State :=
  c.slotPairs.foldl (fun s p => [0x80, 0x84, 0x88].foldl (fun s o => setReg s (precBase p.1 p.2 + o) 0#32) s) s

/-- A core at job start (R153, R384, R392). -/
def Core.start (k : Core) (x : List Word) : Core :=
  { k with x := x, pc := 0, run := .running, hold := none, flight := [], casOk := none, stintNs := 0, ordinal := 0
           esc := List.replicate 8 { fails := [], since := 0, layer := 0#32, pass := 0#32, reached := [] } }

/-- A context at job start (R651). -/
def Ctx.startJob (c : Ctx) (j : Job) (armed : List Armed) : Ctx :=
  { c with
    job := some j, flags := 0, sems := List.replicate 256 0, counters := List.replicate 256 0, armed := armed, readyNs := 0
    cores := c.cores.mapIdx fun i k => k.start (startRegs i c.cores.length j.p j.rank)
    clusters := c.clusters.map fun k => { k with tracks := [], taster := [] } }

/-- JOB_LAUNCH once it starts: the checks of R651 in order, the launch entry, then the job start. -/
def startJobLaunch (h : CmdHdr) (asn p rank len va seed : Nat) (s : State) : State :=
  let fail := fun (s : State) st => complete s h 0x0020 st []
  if p = 0 ∨ p ≤ rank ∨ len = 0 ∨ 65536 < len ∨ va % 64 ≠ 0 then fail s .formatUnsupported
  else match ctxOf s asn with
    | none => fail s .stateIllegal
    | some c =>
      if c.state = .corked ∨ c.job.isSome then fail s .stateIllegal
      else if !precAgree s c then fail s .stateIllegal
      else
        let s0 := readTrellis s c
        match trellisLaunch s0 c with
        | .error st => fail s0 st
        | .ok armed =>
          let j : Job := { hdr := h, p := p, rank := rank, len := len, progVA := va, seed := seed, fate := .running, endCmd := []
                           launchTb := s.hub.timebase, issued := false }
          let s1 := complete s0 h 0x0020 .ok []
          let s2 := clearPrecCounters (modCtx s1 asn fun c => c.startJob j armed) c
          let s3 := { s2 with groups := s2.groups.map fun g => g.map fun g => if g.asn = asn then { g with overSeqs := [], overLanded := [] } else g }
          resetSets s3 asn

/-- JOB_LAUNCH (R651). -/
def execJobLaunch (h : CmdHdr) (asn p rank progLen progVA seed : Nat) (s : State) : Host.Outcome State Fault Refusal :=
  event (Instr.wf (.jobLaunch h asn p rank progLen progVA seed)) s fun s =>
    submit s h (.jobLaunch h asn p rank progLen progVA seed) 0x0020 0 (startJobLaunch h asn p rank progLen progVA seed)

/-! ### Job end (R211, R652, R653) -/

/-- Firings and decants of an ASN stop between packets and pages: each firing writes its record with ENDED and aborts its
partners (R653). -/
def endTransfers (s : State) (asn : Nat) : State :=
  let s1 := (s.firings.filter fun f => f.asn == asn).foldl (fun s f =>
    sendAborts (dropFiring (writeRecord s f FireStatus.ended.code) f) f f.partners fun _ => 0) s
  pruneFences { s1 with decants := s1.decants.filter fun d => d.asn != asn }

/-- JOB_END once it starts (R653): the cores of a SEATED context stop at the next boundary; elsewhere
the job ends at once. -/
def startJobEnd (h : CmdHdr) (asn : Nat) (s : State) : State :=
  match ctxOf s asn with
  | none => complete s h 0x0021 .stateIllegal []
  | some c => match c.job with
    | none => complete s h 0x0021 .stateIllegal []
    | some _ =>
      let s1 := modCtx (endTransfers s asn) asn fun c => { c with job := c.job.map fun j => { j with endCmd := j.endCmd ++ [h] } }
      if c.state = .seated then stopJob s1 asn .ended 0xFFFF 0 else endJob s1 asn .ended 0xFFFF 0 0 0

/-- JOB_END (R653). -/
def execJobEnd (h : CmdHdr) (asn : Nat) (s : State) : Host.Outcome State Fault Refusal :=
  event (Instr.wf (.jobEnd h asn)) s fun s => submit s h (.jobEnd h asn) 0x0021 0 (startJobEnd h asn)

/-- Whether an ASN has a decant in progress (R474). -/
def decanting (s : State) (asn : Nat) : Bool := s.decants.any fun d => d.asn == asn

/-- A job ends once nothing of it is in flight (R154, R211, R474, R652); a stop met off the clusters ends it when no transfer is
in progress. -/
def jobComplete (s : State) (asn : Nat) : State :=
  match ctxOf s asn with
  | none => s
  | some c => match c.job with
    | none => s
    | some j => match j.fate with
      | .running => if c.moving.isNone && jobQuiet s c && (c.cores.all fun k => k.run == .ended) then endJob s asn .ok 0xFFFF 0 0 0 else s
      | .stopping st core index =>
        let off := c.state == .benched || c.state == .corked
        if (off && !decanting s asn) || (c.seatedNow && jobQuiet s c) then endJob s asn st core 0 0 index else s

/-- JOB_COMPLETE (R652). -/
def execJobComplete (asn : Nat) (s : State) : Host.Outcome State Fault Refusal :=
  event (Instr.wf (.jobComplete asn)) s fun s => jobComplete s asn

/-! ### Seating (R654 to R658) -/

/-- Whether two contexts share a cluster. -/
def Ctx.overlaps (a b : Ctx) : Bool := a.set.any b.set.contains

/-- Whether every core is in WAIT or after END, one of them in WAIT (R655). -/
def Ctx.allWaiting (c : Ctx) : Bool :=
  (c.cores.all fun k => k.inWait || k.run == .ended) && c.cores.any Core.inWait

/-- Whether a seated context yields to a ready one (R655). -/
def yields (a b : Ctx) : Bool :=
  a.job.isNone || decide (b.effClass < a.effClass) || (b.effClass == a.effClass && a.expired) ||
  (a.allWaiting && decide (b.effClass ≤ a.effClass))

/-- Whether what another context holds or has claimed lets `b` be considered (R654, R656, R658): a context that is already leaving
will be gone, one that is being seated gives way as R655 has it for a seated one; its slice has not begun. -/
def lets (b a : Ctx) : Bool :=
  a.asn == b.asn || !a.overlaps b ||
  match a.state with
  | .seated => yields a b
  | .seating => a.job.isNone || decide (b.effClass < a.effClass) || (a.allWaiting && decide (b.effClass ≤ a.effClass))
  | .benched => !a.claim || decide (b.effClass < a.effClass)
  | .benching | .corking | .corked => true

/-- Whether a context waits to be considered: BENCHED, with a job, without a claim. -/
def Ctx.waitsForSeat (c : Ctx) : Bool := c.state == .benched && c.job.isSome && !c.claim

/-- Order of consideration (R654): effective class, longest ready, lower ASN. -/
def seatBefore (a b : Ctx) : Bool :=
  decide (a.effClass < b.effClass) ||
  (a.effClass == b.effClass && (decide (b.readyNs < a.readyNs) || (a.readyNs == b.readyNs && decide (a.asn < b.asn))))

/-- The first ready context, in order, whose clusters all pass. -/
def nextSeat (s : State) : Option Ctx :=
  (s.ctxs.filter fun b => b.waitsForSeat && s.ctxs.all (lets b)).foldl (fun best c => match best with
    | none => some c
    | some x => if seatBefore c x then some c else some x) none

/-- Whether a claimant's clusters are clear of every other context. -/
def clearFor (s : State) (b : Ctx) : Bool := s.ctxs.all fun a => a.asn == b.asn || !a.overlaps b || !a.onClusters

/-- A claimant whose clusters are clear starts its uncork (R654). -/
def seatOne (s : State) (asn : Nat) : State :=
  match ctxOf s asn with
  | some c =>
    if c.claim && c.state == .benched && clearFor s c then
      modCtx (flushCtx s asn) asn fun c => { c with state := .seating, moving := some true, claim := false }
    else s
  | none => s

/-- Every claimant that can be seated is. -/
def seatClaimants (s : State) : State := (s.ctxs.map (·.asn)).foldl seatOne s

/-- Displaces one context for a claimant: a seated one is benched, an uncork is abandoned, a claim returns to ready (R654, R656,
R658). -/
def displace (b : Ctx) (s : State) (asn : Nat) : State :=
  match ctxOf s asn with
  | none => s
  | some a =>
    if a.asn = b.asn || !a.overlaps b then s else
      match a.state with
      | .seated => startBench (flushCtx s asn) asn
      | .seating => modCtx (flushCtx s asn) asn fun c => { c with state := .benched, moving := none }
      | .benched => modCtx s asn fun c => { c with claim := false }
      | .benching | .corking | .corked => s

/-- One seating decision (R654); seating runs in READY only (R716). -/
def seatingDecision (s : State) : State :=
  if s.hub.boot ≠ .ready ∨ !s.hub.powered then s else
    let s0 := seatClaimants s
    match nextSeat s0 with
    | none => s0
    | some b =>
      let s1 := (s0.ctxs.map (·.asn)).foldl (displace b) s0
      seatOne (modCtx s1 b.asn fun c => { c with claim := true }) b.asn

/-- SEATING_DECISION (R654). -/
def execSeatingDecision (s : State) : Host.Outcome State Fault Refusal :=
  event (Instr.wf .seatingDecision) s seatingDecision

/-- A slice expires (R657). -/
def sliceExpiry (s : State) (asn : Nat) : State :=
  modCtx s asn fun c =>
    if c.state = .seated && c.job.isSome && decide (1000 * c.sliceUs ≤ c.sliceNs) then { c with expired := true } else c

/-- SLICE_EXPIRY (R657). -/
def execSliceExpiry (asn : Nat) (s : State) : Host.Outcome State Fault Refusal :=
  event (Instr.wf (.sliceExpiry asn)) s fun s => sliceExpiry s asn

/-! ### Corks (R661 to R665) -/

/-- Removes a context's cores from the queues of the semaphores they wait on: their WAITs are executed again after uncork
(R208). -/
def unqueue (s : State) (asn : Nat) : State :=
  { s with ctxs := s.ctxs.map fun c => { c with waiters := c.waiters.filter fun w => w.asn != asn } }

/-- A cork's transfer (R29, R645, R661): each die writes its clusters' share to the pages of the cork area, which may lie in stacks of
other dies. A CD6 context has no transfer (R673). -/
def areaWrites (s : State) (c : Ctx) : State :=
  if c.cd6 then s
  else (c.corkPages.mapIdx fun i p => (i, p)).foldl (fun s x => coreWrites s (c.set.getD (x.1 / 21) 0 / 32) x.2 pageBytes) s

/-- An uncork's transfer: the reads of the cork area. -/
def areaReads (s : State) (c : Ctx) : State :=
  (c.corkPages.mapIdx fun i p => (i, p)).foldl (fun s x => dieReads s (c.set.getD (x.1 / 21) 0 / 32) x.2 pageBytes) s

/-- Clears the poison marks of a cork area and the errors in its cells: it is written whole (R492). A CD6 context's is not
written (R673). -/
def writeArea (s0 : State) (c : Ctx) : State :=
  if c.cd6 then s0 else
  let s := areaWrites s0 c
  let stays := fun (l : Nat) => !c.corkPages.contains (l / (pageBytes / 64))
  { s with poison := s.poison.filter stays, cells := s.cells.filter fun x => stays x.line }

/-- A cork takes the entries its context's instructions hold: what they asked for has come (R661). -/
def Core.noEntries (k : Core) : Core := { k with flight := k.flight.map fun f => { f with entries := 0 } }

/-- The moment a cork begins (R661). -/
def corkBegin (s : State) (asn : Nat) : State :=
  match ctxOf s asn with
  | none => s
  | some c =>
    if c.leaving && c.moving.isNone && c.allParked then
      modCtx (unqueue (writeArea (flushCtx s asn) c) asn) asn fun c => { c with moving := some false, cores := c.cores.map Core.noEntries }
    else s

/-- CORK_BEGIN (R661). -/
def execCorkBegin (asn : Nat) (s : State) : Host.Outcome State Fault Refusal :=
  event (Instr.wf (.corkBegin asn)) s fun s => corkBegin s asn

/-- A CD6 streaming context leaves its clusters: stores, pools and tables are discarded (R673). -/
def Ctx.discard (c : Ctx) : Ctx :=
  if c.cd6 then
    { c with cores := c.cores.map fun k => { k with store := [], tables := List.replicate 4 (.empty, .empty) }
             clusters := c.clusters.map fun k => { k with pool := [] } }
  else c

/-- Counts a cork for the dies that drain and for Dormant entry (R716, R742). -/
def countCorked (s : State) (c : Ctx) : State :=
  let s1 := { s with dies := s.dies.mapIdx fun d x =>
                if x.state == .draining && c.dies.contains d then { x with corked := x.corked + 1 } else x }
  if s.hub.boot = .enteringDormant then { s1 with hub := { s1.hub with corkedCount := s1.hub.corkedCount + 1 } } else s1

/-- The context is CORKED: its slots are free and their registers saved, the commands that waited complete (R641, R643,
R662). -/
def becomeCorked (s : State) (c : Ctx) : State :=
  let asn := c.asn
  let s1 := modCtx s asn fun c => c.countLow { Acct.zero with corks := 1 }
  let s2 := flushCtx s1 asn
  let saved := savePrec s2 c
  let s3 := clearSlots s2 c
  let s4 := modCtx s3 asn fun c => { c with
    state := .corked, moving := none, offClusters := false, claim := false, slots := List.replicate 4 none, savedPrec := saved, corkCmds := [] }
  let s5 := c.corkCmds.foldl (fun s h => complete s h 0x0012 .ok []) s4
  resettle (drainCheck (countCorked s5 c))

/-- A cork transfer ends (R663): BENCHED, or CORKED; claimants whose clusters are now clear are seated. -/
def corkDone (s : State) (asn : Nat) : State :=
  match ctxOf s asn with
  | none => s
  | some c0 =>
    if c0.moving ≠ some false then s else
      let s1 := modCtx (flushCtx s asn) asn Ctx.discard
      match ctxOf s1 asn with
      | none => s1
      | some c =>
        match c.state with
        | .benching => seatClaimants (modCtx s1 asn fun c => { c with state := .benched, moving := none })
        | .corking => seatClaimants (becomeCorked s1 c)
        | _ => s1

/-- CORK_DONE (R663). -/
def execCorkDone (asn : Nat) (s : State) : Host.Outcome State Fault Refusal :=
  event (Instr.wf (.corkDone asn)) s fun s => corkDone s asn

/-! ### Uncorks (R662, R663, R669, R673) -/

/-- A WAIT interrupted by a cork runs again (R208): its core queues behind the present waiters. -/
def requeue (asn : Nat) (s : State) (core : Nat) : State :=
  match ctxOf s asn, coreOf s asn core with
  | some c, some k => match k.run with
    | .waiting sem n consume => match semTarget c sem with
      | none => stopJob s asn .stateIllegal core k.pc
      | some (oa, oi) =>
        let s1 := modCtx s oa fun o => { o with
          waiters := o.waiters ++ [{ sem := oi, asn := asn, core := core, n := n, consume := consume }] }
        let lent := (ctxOf s1 oa).any fun o => o.raised.any fun r => r.1 == asn && r.2.1 == core
        let s2 := if lent then s1 else lend s1 asn core oa
        if (c.fences.any fun f => f.cores.any fun x => x.1 == core) then s2 else joinFence s2 asn sem core
    | _ => s
  | _, _ => s

/-- Cores that have not been parked since the seating (R669). -/
def notYetParked (c : Ctx) : List Nat := positions (fun (k : Core) => !(k.inWait || k.isEnded)) c.cores

/-- A core resumes after an uncork: a core parked at a STINT goes on, unless leaving is pending already; the stint timer
restarts (R206, R207), and what has not started finds the engines idle (R243). -/
def Core.resume (leaving epoch : Bool) (k : Core) : Core :=
  let r := match k.run with
    | .parked => if leaving then .parked else .running
    | .epochHold => if epoch then .epochHold else .running
    | x => x
  let idle := fun (f : Flight) => onEngines f.w && enginesReady (k.flight.takeWhile fun g => g.id != f.id) f
  { k with run := r, stintNs := 0, flight := k.flight.map fun f => if f.started then f else { f with fill := idle f } }

/-- A core of a job that stopped while its context moved: its saved sequencer state is cleared, so that the job completes once the
transfer ends (R211). -/
def Core.halt (k : Core) : Core :=
  { k with flight := [], hold := none, run := if k.isEnded then k.run else .stopped }

/-- Whether a context's job is stopping. -/
def Ctx.halting (c : Ctx) : Bool :=
  match c.job with
  | some j => j.fate != .running
  | none => false

/-- The die whose share of the cork area has a poisoned line (R492). -/
def poisonedArea (s : State) (c : Ctx) : Option Nat :=
  if c.cd6 then none else
  (c.corkPages.mapIdx fun i p => (i, p)).findSome? fun x =>
    if poisonedIn s (x.2 * pageBytes) pageBytes then some (c.set.getD (x.1 / 21) 0 / 32) else none

/-- The read of an uncork's cork area meets the errors in its cells (R490, R491). A CD6 context's is not read (R673). -/
def readArea (s : State) (c : Ctx) : State :=
  if c.cd6 then s else areaReads (c.corkPages.foldl (fun s p => meetCells s (p * pageBytes) pageBytes) s) c

/-- One entry of a resume list (R673): its destination and bytes, or how it fails: as a decant fails (false), or because a source line
is poisoned (true). The mark would travel into the stores (R452), which keep none: it is taken as an uncorrectable error of the
store (DESIGN CHOICE, notes/assumptions/73). -/
def resumeEntry (s : State) (asn va : Nat) : State × Except Bool (Nat × Bytes) :=
  let s1 := agentReads s asn va 32
  match virtRead s1 asn va 32 with
  | .error _ => (s1, .error false)
  | .ok b =>
    let src := field b 0 8
    let dst := field b 8 8
    let n := field b 16 8
    if !zeroAt b 24 8 || 0x1000000 < dst + n then (s1, .error false)
    else
      let s2 := agentReads s1 asn src n
      match virtRead s2 asn src n with
      | .ok d => (s2, .ok (dst, d))
      | .error .poison => (seenIn s2 asn src n, .error true)
      | .error _ => (s2, .error false)

/-- Whether a resume destination is a pool address (R182, R673). -/
def resumeToPool (dst n : Nat) : Bool :=
  if 0x180000 < dst + n then true else if dst < 0x10000 then false else Config.resumeToPool dst

/-- Replays one entry into every cluster of the set (R673). -/
def Ctx.replay (c : Ctx) (e : Nat × Bytes) : Ctx :=
  if resumeToPool e.1 e.2.length then { c with clusters := c.clusters.map fun k => { k with pool := k.pool.writeN e.1 e.2 } }
  else { c with cores := c.cores.map fun k => { k with store := k.store.writeN e.1 e.2 } }

/-- Replays `n` entries in order, up to one that fails. -/
def replayList (s : State) (asn va : Nat) : Nat → State × Except Bool Unit
  | 0 => (s, .ok ())
  | n + 1 => match resumeEntry s asn va with
    | (s1, .error x) => (s1, .error x)
    | (s1, .ok e) =>
      let pool := resumeToPool e.1 e.2.length
      if pool && decide (e.1 < 0x10000) then (s1, .error false)
      else replayList (modCtx s1 asn fun c => c.replay e) asn (va + 32) n

/-- An uncork transfer ends (R663): the context is SEATED, or goes on corking if CTX_CORK came meanwhile (R643). -/
def uncorkDone (s : State) (asn : Nat) : State :=
  match ctxOf s asn with
  | none => s
  | some c =>
    if c.moving ≠ some true then s else
      let s0 := readArea s c
      match poisonedArea s0 c with
      | some d => dieFault s0 d .stateUncorrectable false (some asn) none none
      | none =>
        let epoch := s.modes.pending.isSome
        let s1 := modCtx (flushCtx s0 asn) asn fun c =>
          let todo := notYetParked c
          { c with
            state := if c.state = .seating then .seated else c.state
            moving := none, sliceNs := 0, expired := false, readyNs := 0, toPark := todo
            raised := if todo.isEmpty then [] else c.raised
            cores := if c.halting then c.cores.map Core.halt else c.cores.map (Core.resume c.leaving epoch) }
        let s2 := (List.range c.cores.length).foldl (requeue asn) s1
        if c.cd6 then
          match replayList s2 asn c.resume.1 c.resume.2 with
          | (s3, .ok _) => goCtx s3 asn
          | (s3, .error false) => stopJob s3 asn .bounds 0xFFFF 0
          | (s3, .error true) => dieFault s3 (c.dies.headD 0) .stateUncorrectable true (some asn) none none
        else goCtx s2 asn

/-- UNCORK_DONE (R663). -/
def execUncorkDone (asn : Nat) (s : State) : Host.Outcome State Fault Refusal :=
  event (Instr.wf (.uncorkDone asn)) s fun s => uncorkDone s asn

end Sys2Proof.Machine
end

