-- ==== Sys2Proof/Machine/Registers.lean ====
section
/-! DEFINITION. Machine/Registers.lean: what every BAR0 register reads (R12 to R18, R47) and what a write to any of them does.
Registers with a row of their own are written through the same operations as that row. -/

namespace Sys2Proof.Machine

/-! ### Reading -/

/-- A word from fields (lowest bit, value). -/
def packWord (fs : List (Nat × Nat)) : Word := BitVec.ofNat 32 (fs.map fun f => f.2 * 2 ^ f.1).sum

/-- The low or high half of a 64-bit value. -/
def half (hi : Bool) (v : Nat) : Word := BitVec.ofNat 32 (if hi then v / 2 ^ 32 else v)

/-- The class-0 read times of a stack. -/
def readTimes (s : State) (stack : Nat) : ReadTimes := s.traffic.reads.getD stack { maxNs := 0, slow := 0 }

/-- The tracker counters of a die. -/
def tracker (s : State) (d : Nat) : Tracker := s.traffic.trk.getD d .reset

/-- The nine 64-bit counters of R677 in offset order. -/
def Acct.wide (a : Acct) : List Nat := [a.queueWait, a.cork, a.tierStall, a.seated, a.m1, a.m2, a.m4, a.m8, a.taste, a.stall]

/-- The word at an offset of an accounting block (R677). -/
def acctWord (a : Acct) (o : Nat) : Word :=
  if o < 0x50 then half (o % 8 == 4) (a.wide.getD (o / 8) 0)
  else if o = 0x50 then BitVec.ofNat 32 a.preempts
  else if o = 0x54 then BitVec.ofNat 32 a.corks
  else if o = 0x58 then BitVec.ofNat 32 (sat32 a.c0First)
  else 0#32

/-- Whether the registers of R482 read their values: from READY on. -/
def fromReady (s : State) : Bool := locked s

/-- The hub control window (R54). -/
def readHub (s : State) (off : Nat) : Word :=
  if off = 0 then 0x0CD92000#32
  else if off = 4 then 3#32
  else if off = 8 then half false Config.serial.toNat
  else if off = 12 then half true Config.serial.toNat
  else if off = 0x100 then packWord [(24, s.hub.refuse.code), (18, s.hub.cfgSrc.code), (17, b2n s.hub.bankBValid),
    (16, b2n s.hub.bankAValid), (0, s.hub.boot.code)]
  else if off = 0x104 then BitVec.ofNat 32 s.hub.cfgSeq
  else if off = 0x200 then half false s.hub.timebase
  else if off = 0x204 then half true s.hub.timebase
  else if off = 0x208 then getReg s off ||| packWord [(0, b2n s.hub.refLost)]
  else if off = 0x300 then BitVec.ofNat 32 s.modes.epoch
  else if off = 0x304 then
    let miss := match s.modes.pending with
      | some e => dieMask (e.dies.filter fun d => !e.acked.contains d)
      | none => s.modes.ackMissing
    packWord [(31, b2n s.modes.pending.isSome), (24, s.modes.lastReason), (16, miss), (8, b2n s.modes.vintage),
      (7, b2n s.modes.tasteEn), (0, s.modes.rate)]
  else if off = 0x40C then BitVec.ofNat 32 s.msg.head
  else if off = 0x410 then getReg s off ||| packWord [(12, s.msg.held.length), (0, s.msg.tail)]
  else if off = 0x414 then BitVec.ofNat 32 s.msg.lost
  else if 0x10000 ≤ off ∧ off < 0x12000 then
    if off % 0x20 = 0x14 then
      let q := getQ s ((off - 0x10000) / 0x20)
      let st := match q.state with | .disabled => 0 | .running => 1 | .stopped => 2
      getReg s off ||| packWord [(29, st), (12, q.sqHead), (0, q.cqTail)]
    else if off % 0x20 < 0x14 then getReg s off else 0#32
  else if 0x40000 ≤ off ∧ off < 0x50000 then
    let a := (off - 0x40000) / 0x100
    let o := off % 0x100
    if o = 0x5C then getReg s off else acctWord (totalOf s a) o
  else if off = 0x400 ∨ off = 0x404 ∨ off = 0x408 then getReg s off
  else if 0x80000 ≤ off ∧ off < 0x88000 then getReg s off
  else if 0x90000 ≤ off ∧ off < 0x90100 then getReg s off
  else 0#32

/-- Packets in flight, the longest present wait in ms, and firings of a group (R580). -/
def groupFirings (s : State) (g : Nat) : List Firing := s.firings.filter fun f => f.slot == g

/-- A word of a group block (R580). -/
def groupWord (s : State) (g o : Nat) : Word :=
  match s.groups.getD g none with
  | none => 0#32
  | some x =>
    let fs := groupFirings s g
    if o = 0 then packWord [(16, x.tag), (8, x.gen), (0, x.asn)]
    else if o = 4 then packWord [(16, x.members.length), (8, x.rank), (0, if x.stale then 2 else 1)]
    else if o = 8 then packWord [(16, inFlight s g), (0, x.credits)]
    else
      let waits := (fs.filter fun f => (f.waitsFor x.rank).isSome).map (·.waitNs)
      packWord [(16, min 65535 (waits.foldl max 0 / 1000000)), (0, fs.length)]

/-- The Vinelink window (R573 to R580). -/
def readLink (s : State) (off : Nat) : Word :=
  if off = 0x100000 then getReg s off
  else if off = 0x100004 then BitVec.ofNat 32 (freeCredits s)
  else if inArray off 0x100100 4 18 then getReg s off
  else if inArray off 0x100200 4 18 then
    let p := s.ports.getD ((off - 0x100200) / 4) .reset
    getReg s off ||| packWord [(16, p.peerSeen), (12, p.laneFailed), (0, p.state.code)]
  else if inArray off 0x100400 4 18 then BitVec.ofNat 32 (s.ports.getD ((off - 0x100400) / 4) .reset).replay
  else if inArray off 0x100480 4 18 then BitVec.ofNat 32 (s.ports.getD ((off - 0x100480) / 4) .reset).resend
  else if 0x101000 ≤ off ∧ off < 0x101400 then groupWord s ((off - 0x101000) / 16) (off % 16)
  else 0#32

/-- STATE of a stream slot (R620). -/
def StreamState.code : StreamState → Nat
  | .opened => 1 | .ended => 2 | .error => 3 | .stale => 4

/-- A word of a stream block (R620 to R622). -/
def streamWord (t : Option Stream) (o : Nat) : Word :=
  match t with
  | none => 0#32
  | some t =>
    if o = 0 then packWord [(29, t.state.code), (28, b2n (parFed t.par)), (27, b2n (parDec t.par)), (26, pb t.par 1), (16, t.asn),
      (8, t.semBase), (0, t.lastStatus)]
    else if o = 4 then BitVec.ofNat 32 (t.markMask fun p => p.mark == 1)
    else if o = 8 then BitVec.ofNat 32 (t.markMask fun p => p.mark == 2)
    else if o = 12 then BitVec.ofNat 32 (t.markMask fun p => p.pending)
    else if o = 16 then BitVec.ofNat 32 t.inCount
    else if o = 20 then BitVec.ofNat 32 t.outCount
    else 0#32

/-- The codec window (R619 to R622). -/
def readCodec (s : State) (off : Nat) : Word :=
  let u := (off - 0x200000) / 0x10000
  let o := off % 0x10000
  if 3 < u then 0#32
  else
    let c := getCodec s u
    if o = 0 then packWord [(6, loadKsps c), (0, c.openStreams.length)]
    else if 0x1000 ≤ o ∧ o < 0x1800 then streamWord (c.streams.getD ((o - 0x1000) / 0x40) none) (o % 0x40)
    else 0#32

/-- The tier window (R480 to R485). -/
def readTier (s : State) (off : Nat) : Word :=
  let port := fun (p : Nat) => s.farPorts.getD p .reset
  let up := fun (p : Nat) => (port p).state == .up
  if off = 0x300000 ∨ off = 0x300004 then
    let p := port ((off - 0x300000) / 4)
    getReg s off ||| packWord [(16, p.lanes), (8, p.rate), (0, p.state.code)]
  else if 0x310000 ≤ off ∧ off < 0x312000 then
    let a := (off - 0x310000) / 0x20
    let o := off % 0x20
    if o = 0 ∨ o = 8 ∨ o = 16 then getReg s off
    else if o = 4 then BitVec.ofNat 32 (nearUse s a)
    else if o = 12 then BitVec.ofNat 32 (cellarUse s a)
    else 0#32
  else if 0x320000 ≤ off ∧ off < 0x330000 then (if off % 16 = 12 then 0#32 else getReg s off)
  else if !fromReady s then 0#32
  else if off = 0x300008 ∨ off = 0x30000C then
    let p := (off - 0x300008) / 4
    BitVec.ofNat 32 (if up p then (port p).backed else 0)
  else if off = 0x300010 ∨ off = 0x300014 then
    let p := (off - 0x300010) / 4
    BitVec.ofNat 32 (if up p then freePages s 1 [p] else 0)
  else if off = 0x300018 then BitVec.ofNat 32 (freePages s 0 (List.range 12))
  else if off = 0x30001C then BitVec.ofNat 32 (nearSum s)
  else 0#32

/-- DIE_STATE and the rest of DIE_INFO (R45). -/
def dieInfo (s : State) (d : Nat) : Word :=
  let x := getDie s d
  packWord [(16, 64), (8, x.inService), (4, d), (0, x.state.code)]

/-- DIE_CLUSTER_MAP_n (R48). -/
def clusterMapWord (m : ClusterMap) : Word :=
  packWord [(31, b2n m.active), (29, m.role.code), (25, m.replaced), (0, m.faulty)]

/-- ISL_STATUS_n (R79). -/
def islStatus (s : State) (d n : Nat) : Word :=
  let i := (getDie s d).islands.getD n .reset
  let hold := class0On s (32 * d + n) && !outOfEnvelope s && decide (min (vset s d n) i.vcap < 20)
  getReg s (islBase d n + 4) ||| packWord [(24, i.veff), (16, i.vcap), (7, b2n i.ramping), (6, b2n hold),
    (5, b2n (decide (i.veff < 20))), (4, b2n (capOutside s d i))]

/-- CTX_SLOT_STATE (R650). -/
def slotStateWord (c : Ctx) : Word :=
  let st := match c.state with
    | .benched => 1 | .seating => 2 | .seated => 3 | .benching => 4 | .corking => 5 | .corked => 0
  packWord [(24, c.asn), (21, st), (20, b2n c.job.isSome), (18, c.cls), (16, c.effClass), (15, b2n c.cd6)]

/-- CTX_SLOT_CLUSTERS (R650). -/
def slotClusters (c : Ctx) (d : Nat) : Word :=
  BitVec.ofNat 32 ((c.set.filter fun g => g / 32 == d).map fun g => 2 ^ (g % 32)).sum

/-- MC STATE's encoding (R517). -/
def McState.code : McState → Nat
  | .off => 0 | .training => 1 | .ready => 2 | .selfRefresh => 3 | .trainFailed => 4

/-- A word of a memory controller's block (R516 to R522). -/
def mcWord (s : State) (d c o : Nat) : Word :=
  let m := (getDie s d).mcs.getD c .reset
  let base := dieBase d + 0x40000 + 0x10000 * c
  if o = 0 then packWord [(8, (m.chans.filter (·.degraded)).length), (4, 3 * d + c),
    (3, b2n (m.state == .ready && bit (getReg s (base + 4)).toNat 0)), (0, m.state.code)]
  else if o = 4 then getReg s (base + 4)
  else if inArray o 0x100 4 32 then
    let x := m.chans.getD ((o - 0x100) / 4) .reset
    packWord [(30, b2n x.degraded), (16, x.remap.length), (15, b2n x.caSpare), (8, x.dqA), (0, x.dqB)]
  else if o = 0x200 then BitVec.ofNat 32 m.errCorr
  else if o = 0x204 then BitVec.ofNat 32 m.errUncorr
  else if o = 0x208 then BitVec.ofNat 32 m.caRetry
  else if o = 0x20C then BitVec.ofNat 32 m.caExhausted
  else if o = 0x210 then packWord [(0, (readTimes s (3 * d + c)).maxNs)]
  else if o = 0x214 then BitVec.ofNat 32 (readTimes s (3 * d + c)).slow
  else if 0x1000 ≤ o ∧ o < 0x3000 then
    match ((m.chans.getD ((o - 0x1000) / 0x100) .reset).remap)[o % 0x100 / 4]? with
    | some e => packWord [(31, 1), (30, b2n e.fromMap), (19, e.row / 2 ^ 19), (0, e.row % 2 ^ 18)]
    | none => 0#32
  else 0#32

/-- A word of a die window that answers, other than DIE_INFO (R44). ISL_VSET_n and ISL_MARGIN_n show what a screen that runs there has
set (R735). -/
def readDie (s : State) (d o : Nat) : Word :=
  let x := getDie s d
  let off := dieBase d + o
  if inArray o 0x100 4 32 then clusterMapWord (x.clusters.getD ((o - 0x100) / 4) .reset)
  else if 0x1000 ≤ o ∧ o < 0x1200 then
    let n := (o - 0x1000) / 16
    let i := x.islands.getD n .reset
    if o % 16 = 4 then islStatus s d n
    else if o % 16 = 8 then packWord [(16, i.rateMin), (0, i.rateNow)]
    else if o % 16 = 12 then BitVec.ofNat 32 (margin s d n)
    else BitVec.ofNat 32 (vset s d n)
  else if 0x10000 ≤ o ∧ o < 0x20000 then
    match slotOwner s d ((o - 0x10000) / 0x400) with
    | some c => if o % 0x400 = 0 then slotStateWord c else if o % 0x400 = 4 then slotClusters c d else 0#32
    | none => 0#32
  else if 0x40000 ≤ o ∧ o < 0x70000 then mcWord s d ((o - 0x40000) / 0x10000) (o % 0x10000)
  else if o = 0x80000 then packWord [(16, (tracker s d).peak), (0, outstanding s d)]
  else if o = 0x80004 ∨ o = 0x80008 then
    half (o == 0x80008) (tracker s d).fullNs
  else if 0x80010 ≤ o ∧ o < 0x80028 then
    half (o % 8 == 4) ((tracker s d).brg.getD ((o - 0x80010) / 8) 0)
  else if 0xC0000 ≤ o ∧ o < 0x100000 then
    match slotOwner s d ((o - 0xC0000) / 0x1000) with
    | some c => acctWord (c.live.getD d .zero) (o % 0x1000)
    | none => 0#32
  else if o = 0x100000 then packWord [(1, b2n x.fnPending), (0, b2n x.vintage)]
  else if o = 0x100004 then 0x00000101#32
  else if o = 0x100100 then packWord [(9, b2n x.tastePending), (8, b2n x.tasteEn), (0, x.tasteRate)]
  else if 0x101000 ≤ o ∧ o < 0x105000 then
    if o % 0x100 < 0x70 ∨ (0x80 ≤ o % 0x100 ∧ o % 0x100 < 0x8C) then getReg s off else 0#32
  else 0#32

/-- LIMIT_UNMET (R768): every tier has reached code 20 and P still exceeds L. -/
def limitUnmet (s : State) : Bool :=
  !outOfEnvelope s && decide (powerLimit s < s.power.inputMw) && s.dies.all fun x => x.islands.all fun i => decide (i.vcap ≤ 20)

/-- A temperature in 0.1 °C as a signed 16-bit field. -/
def temp16 (t : Int) : Nat := unsigned 16 t

/-- The Tally's certificate while one answers (R787). -/
def tallyCertBytes (s : State) : Bytes := if tallyAnswers s then (Config.tallyCert s.tally.serial).take 2048 else []

/-- TALLY STATE's encoding (R787). -/
def TallyState.code : TallyState → Nat
  | .absent => 0 | .starting => 1 | .metering => 2 | .releasing => 3 | .released => 4 | .fault => 5

/-- The power window (R774, R775, R787, R790). -/
def readPower (s : State) (off : Nat) : Word :=
  let p := s.power
  let t := s.tally
  if off = 0xC00000 then
    let capped := (s.dies.map fun x => (x.islands.filter fun i => decide (i.vcap < 0x32)).length).sum
    getReg s off ||| packWord [(16, capped), (7, b2n (outOfEnvelope s)), (6, b2n (limitUnmet s)),
      (0, activeCauses s + 8 * b2n (thermalCapped s))]
  else if off = 0xC00004 then getReg s off
  else if off = 0xC00008 then BitVec.ofNat 32 p.inputMw
  else if off = 0xC0000C then packWord [(0, p.vinMv)]
  else if off = 0xC00010 then packWord [(0, p.peakMw % 2 ^ 31)]
  else if inArray off 0xC00020 4 4 then
    let d := (off - 0xC00020) / 4
    if dieIs s d .poweredDown then 0x8000#32 else packWord [(0, temp16 (p.tjDie.getD d 0))]
  else if off = 0xC00030 then packWord [(0, temp16 p.tjHub)]
  else if off = 0xC00034 then packWord [(16, p.flow % 65536), (0, temp16 p.inlet)]
  else if off = 0xC00100 then
    packWord [(16, if tallyAnswers s then t.fwRev else 0), (5, b2n t.sealBroken), (4, b2n t.bypass), (0, t.state.code)]
  else if off = 0xC00120 then BitVec.ofNat 32 (tallyRecords s (bit (getReg s 0xC00124).toNat 30)).length
  else if off = 0xC00124 then getReg s off
  else if inArray off 0xC00140 4 32 then BitVec.ofNat 32 (field t.latched (off - 0xC00140) 4)
  else if off = 0xC00200 then BitVec.ofNat 32 (tallyCertBytes s).length
  else if 0xC01000 ≤ off ∧ off < 0xC01800 then BitVec.ofNat 32 (field (tallyCertBytes s) (off - 0xC01000) 4)
  else if inArray off 0xC02000 4 6 then getReg s off
  else if off = 0xC02028 ∨ off = 0xC0202C then half (off == 0xC0202C) s.app.idle
  else if 0xC10000 ≤ off ∧ off < 0xC10800 then half (off % 8 == 4) (assocD s.app.asn ((off - 0xC10000) / 8) 0)
  else 0#32

/-- Clusters in service, not withheld, on ONLINE dies (R750). -/
def clustersOnline (s : State) : Nat :=
  ((List.range 128).filter fun g => (clusterMap s g).active && dieIs s (g / 32) .online &&
    !((getDie s (g / 32)).pending.any fun p => p.1 == g % 32) && !screening s (g / 32) (g % 32)).length

/-- REL_FLASH STATE (R753). -/
def FlashState.code : FlashState → Nat
  | .attached => 0 | .releasing => 1 | .released => 2 | .attachFailed => 3

/-- REL_VRM STATE (R753). -/
def VrmState.code : VrmState → Nat
  | .absent => 0 | .healthy => 1 | .failed => 2 | .releasing => 3 | .released => 4

/-- SCR STATE (R754). -/
def ScreenState.code : ScreenState → Nat
  | .idle => 0 | .running => 1 | .confirming => 2

/-- A word of a screen engine (R754). -/
def screenWord (s : State) (d o : Nat) : Word :=
  let x := (getDie s d).screen
  let off := scrBase d + o
  if o < 0x10 then getReg s off
  else if o = 0x14 then getReg s off ||| packWord [(30, x.state.code), (27, x.outcome), (16, x.round)]
  else if o = 0x18 then packWord [(16, min 65535 x.mismatches), (5, x.firstCluster), (0, x.firstSlot)]
  else if o = 0x1C then BitVec.ofNat 32 s.rel.screens
  else 0#32

/-- The reliability window (R750 to R755). REL_VRM_n reads ABSENT, its reset value, until start-up goes on from POWER_ON (DESIGN
CHOICE, notes/assumptions/8). -/
def readRel (s : State) (off : Nat) : Word :=
  if off = 0xD00000 then packWord [(16, clustersOnline s), (8, dieMask ((List.range 4).filter fun d => !(getDie s d).pending.isEmpty)),
    (4, dieMask ((List.range 4).filter fun d => (getDie s d).flag != 0))]
  else if off = 0xD00004 then getReg s off
  else if inArray off 0xD00010 4 4 then BitVec.ofNat 32 (getDie s ((off - 0xD00010) / 4)).flag
  else if off = 0xD00020 then BitVec.ofNat 32 s.flash.state.code
  else if inArray off 0xD00030 4 9 then
    BitVec.ofNat 32 (if s.hub.boot = .powerOn then 0 else (vrm s ((off - 0xD00030) / 4)).code)
  else if inArray off 0xD00060 4 4 then BitVec.ofNat 32 (getDie s ((off - 0xD00060) / 4)).corr
  else if off = 0xD00070 then BitVec.ofNat 32 s.rel.corrHub
  else if 0xD00100 ≤ off ∧ off < 0xD00200 then screenWord s ((off - 0xD00100) / 0x40) (off % 0x40)
  else if off = 0xD01000 then BitVec.ofNat 32 s.rel.log.length
  else if off = 0xD01004 then getReg s off
  else if inArray off 0xD01040 4 16 then BitVec.ofNat 32 (field s.rel.latched (off - 0xD01040) 4)
  else if off = 0xD02000 then BitVec.ofNat 32 s.rel.map.length
  else if off = 0xD02004 then getReg s off
  else if inArray off 0xD02010 4 4 then
    BitVec.ofNat 32 (field (s.rel.map.getD (getReg s 0xD02004).toNat []) (off - 0xD02010) 4)
  else 0#32

/-- What a register of BAR0 reads, beside the latch of R18 (R13, R17, R47, R54, R55). -/
def readReg (s : State) (off : Nat) : Word :=
  if off % 4 ≠ 0 then 0#32
  else if off < 0x100000 then readHub s off
  else if off < 0x200000 then readLink s off
  else if off < 0x300000 then readCodec s off
  else if off < 0x400000 then readTier s off
  else if off < 0xC00000 then
    let d := (off - 0x400000) / 0x200000
    let o := (off - 0x400000) % 0x200000
    if o = 0 then dieInfo s d else if windowOpen s d then readDie s d o else 0#32
  else if off < 0xD00000 then readPower s off
  else if off < 0xE00000 then readRel s off
  else 0#32

/-- Whether an offset is the _LO half of a value that can change while the module runs (R18): the timebase, accounting, tracker and
bridge counters, apportioning. -/
def isLo (off : Nat) : Bool :=
  off == 0x200 || off == 0xC02028 || (decide (0xC10000 ≤ off) && decide (off < 0xC10800) && off % 8 == 0) ||
  (decide (0x40000 ≤ off) && decide (off < 0x50000) && decide (off % 0x100 < 0x50) && off % 8 == 0) ||
  (decide (0x400000 ≤ off) && decide (off < 0xC00000) &&
    let o := off % 0x200000
    o == 0x80004 || (decide (0x80010 ≤ o) && decide (o < 0x80028) && o % 8 == 0) ||
    (decide (0xC0000 ≤ o) && decide (o < 0x100000) && decide (o % 0x1000 < 0x50) && o % 8 == 0))

/-- Whether a register answers: one of a die window other than DIE_INFO does not while the die is RESETTING or POWERED_DOWN
(R47). -/
def answers (s : State) (off : Nat) : Bool :=
  if 0x400000 ≤ off ∧ off < 0xC00000 then (off - 0x400000) % 0x200000 == 0 || windowOpen s ((off - 0x400000) / 0x200000) else true

/-- A 32-bit read by the host (R18): a _LO register latches its _HI half; the next read of the _HI register returns the latched
half and uses it up. What was read goes out as `Out.readValue`. A register of a die window that does not answer reads 0 whatever
is latched for it (R47), and a die's reset drops what is latched for its window (`resetWindow`; DESIGN CHOICE,
notes/assumptions/53). -/
def hostRead (s : State) (off : Nat) : State :=
  let v := match s.latches.find? fun l => l.1 == off && answers s off with
    | some l => l.2
    | none => readReg s off
  let kept := s.latches.filter fun l => l.1 != off
  let l := if isLo off then assocSet kept (off + 4) (readReg s (off + 4)) else kept
  { s with out := s.out ++ [.readValue off v], latches := l }

/-- A read of the host by BAR and width in bytes (R13, R17, R623). BAR2 reads 0. In BAR0 an address that is not a multiple of 4
touches no register and reads 0; a 64-bit read is two 32-bit ones, lower offset first. R13 names no other width: a longer read
is that of its registers in ascending order, a shorter one that of its register (DESIGN CHOICE, notes/assumptions/72). -/
def busRead (s : State) (r : BusRead) : State :=
  if r.bar2 then { s with out := s.out ++ [.readZero 2 r.off r.width] }
  else if r.off % 4 ≠ 0 then { s with out := s.out ++ [.readZero 0 r.off r.width] }
  else (List.range (max 1 (r.width / 4))).foldl (fun s i => hostRead s (r.off + 4 * i)) s

/-- LO_READ_LATCH (R18). -/
def execLoReadLatch (r : BusRead) (s : State) : Host.Outcome State Fault Refusal :=
  event (Instr.wf (.loReadLatch r)) s fun s => busRead s r

/-! ### Host queues and the message ring (R624 to R626, R709 to R712) -/

/-- Whether a job launched from a queue runs. -/
def jobFrom (s : State) (q : Nat) : Bool := s.ctxs.any fun c => c.job.any fun j => j.hdr.queue == q

/-- Refuses a write to a queue's registers (R626). -/
def refuseHq (s : State) (q : Nat) : State := setBits s (hqBase q + 0x14) 0x80000000#32

/-- A write to a base register of a queue (R626). -/
def hqBaseWrite (s : State) (q reg : Nat) (v : Word) : State :=
  let off := hqBase q + reg
  let s1 := storeMasked s off (rwMask off) v
  if hqEnabled s q && getReg s1 off != getReg s off then refuseHq s q else s1

/-- A ring size of 2^4 to 2^12 entries (R626). -/
def log2Ok (n : Nat) : Bool := decide (4 ≤ n) && decide (n ≤ 12)

/-- The queue starts from EN = 0: indices at 0, RUNNING, the first pass of the ring (R626, R631); completions held meanwhile are
written from index 0 (R709). -/
def startQueue (s : State) (q : Nat) : State :=
  cqDrain (setQ s q { getQ s q with state := .running, sqHead := 0, sqTail := 0, cqTail := 0, cqHead := 0, phase := true }) q

/-- A write to HQ_CTL (R626). -/
def hqCtl (s : State) (q : Nat) (v : Word) : State :=
  let off := hqBase q + 16
  let s1 := storeMasked s off (rwMask off) v
  let on := hqEnabled s q
  let stays := hqEnabled s1 q
  let lens := fun (x : State) => (regBits x off 11 8, regBits x off 3 0)
  if (on && lens s1 != lens s) || !log2Ok (lens s1).1 || !log2Ok (lens s1).2 ||
     (on && !stays && (!(getQ s q).inProg.isEmpty || jobFrom s q)) then refuseHq s q
  else if !on && stays then startQueue s1 q
  else if on && !stays then setQ s1 q { getQ s1 q with state := .disabled, waiting := [] }
  else s1

/-- A write to a message ring base or MSG_CTL (R711). -/
def msgWrite (s : State) (off : Nat) (v : Word) : State :=
  let s1 := storeMasked s off (rwMask off) v
  let on := bit (getReg s 0x408).toNat 31
  let stays := bit (getReg s1 0x408).toNat 31
  let changes := getReg s1 0x400 != getReg s 0x400 || getReg s1 0x404 != getReg s 0x404 || regBits s1 0x408 3 0 != regBits s 0x408 3 0
  if (on && changes) || !log2Ok (regBits s1 0x408 3 0) then setBits s 0x410 0x80000000#32
  else if !on && stays then msgDrain { s1 with msg := { s1.msg with tail := 0, head := 0, phase := true } }
  else s1

/-- MSG_CTL_WRITE (R711). -/
def execMsgCtlWrite (v : Word) (s : State) : Host.Outcome State Fault Refusal :=
  event (Instr.wf (.msgCtlWrite v)) s fun s => msgWrite s 0x408 v

/-- A write to MSG_HEAD frees entries; held messages follow (R712). -/
def msgHead (s : State) (v : Word) : State :=
  msgDrain { s with msg := { s.msg with head := bits v.toNat 11 0 } }

/-- MSG_HEAD_WRITE (R712). -/
def execMsgHeadWrite (v : Word) (s : State) : Host.Outcome State Fault Refusal :=
  event (Instr.wf (.msgHeadWrite v)) s fun s => msgHead s v

/-- A write to a vector's control word: a pending interrupt is sent when it is unmasked (notes/assumptions/10). -/
def msixCtl (s : State) (v : Nat) (w : Word) : State :=
  let s1 := storeMasked s (msixEntry v + 12) 1 w
  let p := msixPending v
  if !bit w.toNat 0 && bit (getReg s p.1).toNat p.2 then
    raiseMsix v (setReg s1 p.1 (getReg s p.1 &&& ~~~BitVec.ofNat 32 (2 ^ p.2)))
  else s1

/-! ### The precision block (R403 to R408) -/

/-- Whether a precision register holds only defined codes (R404 to R406). -/
def precOk (reg v : Nat) : Bool :=
  if reg = 0 then bits v 17 16 != 3
  else if reg = 4 then !bit v 31 && v != 0 && decide (v < 0x7F800000)
  else if 0x10 ≤ reg ∧ reg < 0x50 ∧ reg % 8 = 4 then bits v 1 0 != 3
  else true

/-- A write to a register of a precision block (R403): discarded, with WRITE_REFUSED set, for a reserved code, or while a job of the
slot's context runs, whatever it writes (notes/assumptions/36). -/
def precWrite (s : State) (d slot reg : Nat) (v : Word) : State :=
  if !windowOpen s d || precMask reg == 0 || reg % 4 != 0 then s
  else
    let off := precBase d slot + reg
    let s1 := storeMasked s off (precMask reg) v
    let busy := (slotOwner s d slot).any fun c => c.job.isSome
    if !precOk reg (getReg s1 off).toNat || busy then
      setBits s (precBase d slot) 0x80000000#32
    else if reg = 0 then clearW1c s1 off v else s1

/-- PREC_SETTING_WRITE (R403). -/
def execPrecSettingWrite (die slot reg : Nat) (v : Word) (s : State) : Host.Outcome State Fault Refusal :=
  event (Instr.wf (.precSettingWrite die slot reg v)) s fun s => precWrite s die slot reg v

/-! ### Writing -/

/-- A register with no behaviour of its own (R14): RW bits are stored, W1C bits written as 1 are cleared, the rest is discarded. -/
def plainWrite (s : State) (off : Nat) (v : Word) : State :=
  let s1 := if rwMask off = 0 then s else storeMasked s off (rwMask off) v
  if w1cMask off = 0 then s1 else clearW1c s1 off v

/-- A write in a die window (R47). -/
def writeDie (s : State) (d o : Nat) (v : Word) : State :=
  if !windowOpen s d then s
  else if 0x1000 ≤ o ∧ o < 0x1200 then
    let n := (o - 0x1000) / 16
    if o % 16 = 0 then islVset s d n v
    else if o % 16 = 8 then islRateMinReset s d n v
    else if o % 16 = 12 then islMargin s d n v
    else plainWrite s (dieBase d + o) v
  else if 0x40000 ≤ o ∧ o < 0x70000 then
    let c := (o - 0x40000) / 0x10000
    if o % 0x10000 = 4 ∧ bits v.toNat 15 8 = 0 then s
    else if o % 0x10000 = 0x210 then c0LatClr s d c v
    else plainWrite s (dieBase d + o) v
  else if o = 0x80000 then trkPeakClr s d v
  else if 0x101000 ≤ o ∧ o < 0x105000 then precWrite s d ((o - 0x101000) / 0x100) (o % 0x100) v
  else plainWrite s (dieBase d + o) v

/-- A write in the power window. -/
def writePower (s : State) (off : Nat) (v : Word) : State :=
  if off = 0xC00004 then pwrLimitWrite s v
  else if off = 0xC00010 then pwrPeakClr s v
  else if off = 0xC00104 then tallyCtl s v
  else if off = 0xC00124 then tallyRecIndex s v
  else if off = 0xC02020 then appCtl s v
  else plainWrite s off v

/-- A write to a screen engine's register (R754). -/
def writeScreen (s : State) (d o : Nat) (v : Word) : State :=
  let idle := (getDie s d).screen.state == .idle
  if o = 0x10 then scrCmd s d v
  else if o < 0x10 then
    if !idle || (o == 0 && !(bits v.toNat 31 24 != 0 && decide (bits v.toNat 23 16 ≤ 50))) then s else plainWrite s (scrBase d + o) v
  else plainWrite s (scrBase d + o) v

/-- A write to REL_FLASH (R757): whether a flash fitted by ATTACH is one the module supports is not the write's to say, so it is free
here (notes/assumptions/6). -/
def writeFlashReg (s : State) (v : Word) : State :=
  let s1 := flashRelease s v
  if bit v.toNat 2 then { flashAttach s1 v ((Config.freeWord s.free).getLsbD 0) with free := s.free + 1 } else s1

/-- A write in the reliability window. -/
def writeRel (s : State) (off : Nat) (v : Word) : State :=
  if inArray off 0xD00010 4 4 then dieFlagWrite s ((off - 0xD00010) / 4) v
  else if off = 0xD00020 then writeFlashReg s v
  else if inArray off 0xD00030 4 9 then vrmRelease s ((off - 0xD00030) / 4) v
  else if 0xD00100 ≤ off ∧ off < 0xD00200 then writeScreen s ((off - 0xD00100) / 0x40) (off % 0x40) v
  else if off = 0xD01004 then logIndexWrite s v
  else plainWrite s off v

/-- A write in the hub control window. -/
def writeHub (s : State) (off : Nat) (v : Word) : State :=
  if off = 0x108 then hubResetWrite s v
  else if off = 0x400 ∨ off = 0x404 ∨ off = 0x408 then msgWrite s off v
  else if off = 0x40C then msgHead s v
  else if 0x10000 ≤ off ∧ off < 0x12000 then
    let q := (off - 0x10000) / 0x20
    let o := off % 0x20
    if o < 16 then hqBaseWrite s q o v else if o = 16 then hqCtl s q v else plainWrite s off v
  else if 0x40000 ≤ off ∧ off < 0x50000 ∧ off % 0x100 = 0x5C then acctCtl s ((off - 0x40000) / 0x100) v
  else if 0x80000 ≤ off ∧ off < 0x88000 ∧ off % 16 = 12 then msixCtl s ((off - 0x80000) / 16) v
  else plainWrite s off v

/-- A write in the Vinelink window: locked registers discard it from READY on (R14, R15). -/
def writeLink (s : State) (off : Nat) (v : Word) : State :=
  if inArray off 0x100300 4 18 then portRetrain s ((off - 0x100300) / 4) v
  else if rwlMask off ≠ 0 then (if locked s then s else storeMasked s off (rwlMask off) v)
  else plainWrite s off v

/-- A write in the tier window. -/
def writeTier (s : State) (off : Nat) (v : Word) : State :=
  if 0x310000 ≤ off ∧ off < 0x312000 then
    let a := (off - 0x310000) / 0x20
    if off % 0x20 = 0 then nearQuotaWrite s a v
    else if off % 0x20 = 8 then cellarQuotaWrite s a v
    else plainWrite s off v
  else if 0x320000 ≤ off ∧ off < 0x330000 then hwWrite s ((off - 0x320000) / 0x100) (off % 0x100 / 16) (off % 16) v
  else plainWrite s off v

/-- A 32-bit write to a register of BAR0. -/
def writeReg (s : State) (off : Nat) (v : Word) : State :=
  if off % 4 ≠ 0 then s
  else if off < 0x100000 then writeHub s off v
  else if off < 0x200000 then writeLink s off v
  else if off < 0x300000 then s
  else if off < 0x400000 then writeTier s off v
  else if off < 0xC00000 then writeDie s ((off - 0x400000) / 0x200000) ((off - 0x400000) % 0x200000) v
  else if off < 0xD00000 then writePower s off v
  else if off < 0xE00000 then writeRel s off v
  else s

/-- A write of `width` bytes (R13): 4 bytes write one register, 8 bytes two, lower offset first; any other access, or one at an
address that is not a multiple of 4, writes none. -/
def busWrite (s : State) (off width : Nat) (v : BitVec 64) : State :=
  if off % 4 ≠ 0 then s
  else if width = 4 then writeReg s off (v.setWidth 32)
  else if width = 8 then writeReg (writeReg s off (v.setWidth 32)) (off + 4) ((v >>> 32).setWidth 32)
  else s

/-- REGISTER_WRITE (R13, R14). -/
def execRegisterWrite (off width : Nat) (v : BitVec 64) (s : State) : Host.Outcome State Fault Refusal :=
  event (Instr.wf (.registerWrite off width v)) s fun s => busWrite s off width v

end Sys2Proof.Machine
end

