-- ==== Sys2Proof/Machine/Pump.lean ====
section
/-! DEFINITION. Machine/Pump.lean: reading a 64-byte command entry (R632 to R636, and the layouts of R454, R538, R616, R697, R741,
R744), starting fetched commands (R627 to R631), and the doorbells. -/

namespace Sys2Proof.Machine

/-! ### Commands by name -/

/-- How a host command starts: its header, its code, the first slot its DETAIL reports on failure, and its start. -/
structure HostCmd where
  h : CmdHdr
  code : Nat
  first : Nat
  start : State → State

/-- The host command a term stands for, reserved commands apart. -/
def hostCmd : Instr → Option HostCmd
  | .nop h => some ⟨h, 0x0001, 0, startNop h⟩
  | .ctxCreate h asn cls kind sl cl iv rv rc => some ⟨h, 0x0010, 0, startCreate h asn cls kind sl cl iv rv rc⟩
  | .ctxDestroy h asn => some ⟨h, 0x0011, 0, startDestroy h asn⟩
  | .ctxCork h asn => some ⟨h, 0x0012, 0, startCtxCork h asn⟩
  | .ctxUncork h asn cl => some ⟨h, 0x0013, 0, startUncork h asn cl⟩
  | .ctxExport h asn mv iv => some ⟨h, 0x0014, 0, startExport h asn mv iv⟩
  | .ctxSetClass h asn cls sl => some ⟨h, 0x0015, 0, startSetClass h asn cls sl⟩
  | .asnDestroy h asn => some ⟨h, 0x0016, 0, startAsnDestroy h asn⟩
  | .semAliasSet h asn i oa oi => some ⟨h, 0x0017, 0, startAliasSet h asn i oa oi⟩
  | .semAliasClear h asn i oa oi => some ⟨h, 0x0017, 0, startAliasClear h asn i oa oi⟩
  | .semSignal h asn i n => some ⟨h, 0x0018, 0, startSemSignal h asn i n⟩
  | .jobLaunch h asn p rank len va seed => some ⟨h, 0x0020, 0, startJobLaunch h asn p rank len va seed⟩
  | .jobEnd h asn => some ⟨h, 0x0021, 0, startJobEnd h asn⟩
  | .descBind h asn first count va => some ⟨h, 0x0022, first, startDescBind h asn first count va⟩
  | .trellisBind h asn n va => some ⟨h, 0x0023, 0, startTrellisBind h asn n va⟩
  | .versionSet h asn set slots sb va => some ⟨h, 0x0024, 0, startVersionSet h asn set slots sb va⟩
  | .memAlloc h asn tier w n va pl => some ⟨h, 0x0030, 0, startAlloc h asn tier w n va pl⟩
  | .memMigrate h asn tier acc n va pl => some ⟨h, 0x0031, 0, startMigrate h asn tier acc n va pl⟩
  | .memFree h asn n va => some ⟨h, 0x0032, 0, startFree h asn n va⟩
  | .xferToHost h asn w va off n => some ⟨h, 0x0033, 0, startXfer h true asn w va off n⟩
  | .xferFromHost h asn w va off n => some ⟨h, 0x0033, 0, startXfer h false asn w va off n⟩
  | .groupCreate h asn size tag gen cr wd va => some ⟨h, 0x0040, 0, startGroupCreate h asn size tag gen cr wd va⟩
  | .groupDestroy h asn slot => some ⟨h, 0x0041, 0, startGroupDestroy h asn slot⟩
  | .streamOpen h u asn sb va => some ⟨h, 0x0050, 0, startStreamOpen h u asn sb va⟩
  | .streamClose h id => some ⟨h, 0x0051, 0, startStreamClose h id⟩
  | .frameSubmit h id e => some ⟨h, 0x0052, 0, startFrameSubmit h id e⟩
  | .frameRelease h id n => some ⟨h, 0x0053, 0, startFrameRelease h id n⟩
  | .modeSetVintage h v r e t => some ⟨h, 0x0060, 0, startModeSet h false v r e t⟩
  | .modeSetTaster h v r e t => some ⟨h, 0x0060, 0, startModeSet h true v r e t⟩
  | .applyConfig h wf bus n img => some ⟨h, 0x0070, 0, startApply h false wf bus n img⟩
  | .applyStoreOnly h wf bus n img => some ⟨h, 0x0070, 0, startApply h true wf bus n img⟩
  | .dormantEnter h => some ⟨h, 0x0071, 0, startDormant h⟩
  | .wake h => some ⟨h, 0x0072, 0, startWake h⟩
  | .dieDrainHold h d => some ⟨h, 0x0078, 0, startDieDrain h d (.hold (some h) 0)⟩
  | .dieDrainRepair h d => some ⟨h, 0x0078, 0, startDieDrain h d (.repair h)⟩
  | .dieRestore h d => some ⟨h, 0x0079, 0, startDieRestore h d⟩
  | _ => none

/-! ### Reading an entry -/

/-- Whether every byte of an entry outside the header and the listed fields (offset, size) is 0, and so are the header's reserved
bits (R632, R634). -/
def onlyFields (b : Bytes) (fs : List (Nat × Nat)) : Bool :=
  decide (field b 2 1 ≤ 1) && zeroAt b 3 1 &&
  (List.range 56).all fun i =>
    let k := i + 8
    (fs.any fun f => decide (f.1 ≤ k) && decide (k < f.1 + f.2)) || zeroAt b k 1

/-- The command of an entry that has no reserved bit set. -/
def entryCommand (h : CmdHdr) (b : Bytes) (image : HostRead) : Option Instr :=
  let f := fun o n => field b o n
  let ok := fun fs (i : Instr) => if onlyFields b fs then some i else none
  let asn := f 8 1
  match f 0 2 with
  | 0x0001 => ok [] (.nop h)
  | 0x0010 => ok [(8, 1), (9, 1), (10, 1), (12, 4), (16, 16), (32, 8), (40, 8), (48, 2)]
      (.ctxCreate h asn (f 9 1) (f 10 1) (f 12 4) (f 16 16) (f 32 8) (f 40 8) (f 48 2))
  | 0x0011 => ok [(8, 1)] (.ctxDestroy h asn)
  | 0x0012 => ok [(8, 1)] (.ctxCork h asn)
  | 0x0013 => ok [(8, 1), (16, 16)] (.ctxUncork h asn (f 16 16))
  | 0x0014 => ok [(8, 1), (9, 1), (32, 8)] (.ctxExport h asn (f 9 1) (f 32 8))
  | 0x0015 => ok [(8, 1), (9, 1), (12, 4)] (.ctxSetClass h asn (f 9 1) (f 12 4))
  | 0x0016 => ok [(8, 1)] (.asnDestroy h asn)
  | 0x0017 =>
    let fs := [(8, 1), (9, 1), (10, 1), (11, 1), (12, 1)]
    if f 12 1 = 0 then ok fs (.semAliasSet h asn (f 9 1) (f 10 1) (f 11 1))
    else if f 12 1 = 1 then ok fs (.semAliasClear h asn (f 9 1) (f 10 1) (f 11 1)) else none
  | 0x0018 => ok [(8, 1), (9, 1), (12, 4)] (.semSignal h asn (f 9 1) (f 12 4))
  | 0x0020 => ok [(8, 1), (12, 4), (16, 4), (20, 4), (24, 8), (32, 8)]
      (.jobLaunch h asn (f 12 4) (f 16 4) (f 20 4) (f 24 8) (f 32 8))
  | 0x0021 => ok [(8, 1)] (.jobEnd h asn)
  | 0x0022 => ok [(8, 1), (9, 1), (10, 2), (16, 8)] (.descBind h asn (f 9 1) (f 10 2) (f 16 8))
  | 0x0023 => ok [(8, 1), (10, 2), (16, 8)] (.trellisBind h asn (f 10 2) (f 16 8))
  | 0x0024 => ok [(8, 1), (9, 1), (10, 1), (11, 1), (16, 8)] (.versionSet h asn (f 9 1) (f 10 1) (f 11 1) (f 16 8))
  | 0x0030 => ok [(8, 1), (9, 1), (10, 1), (12, 4), (16, 8), (24, 2)]
      (.memAlloc h asn (f 9 1) (f 10 1) (f 12 4) (f 16 8) (f 24 2))
  | 0x0031 => ok [(8, 1), (9, 1), (10, 1), (12, 4), (16, 8), (24, 2)]
      (.memMigrate h asn (f 9 1) (f 10 1) (f 12 4) (f 16 8) (f 24 2))
  | 0x0032 => ok [(8, 1), (12, 4), (16, 8)] (.memFree h asn (f 12 4) (f 16 8))
  | 0x0033 =>
    let fs := [(8, 1), (9, 1), (10, 1), (16, 8), (24, 8), (32, 8)]
    if f 9 1 = 0 then ok fs (.xferToHost h asn (f 10 1) (f 16 8) (f 24 8) (f 32 8))
    else if f 9 1 = 1 then ok fs (.xferFromHost h asn (f 10 1) (f 16 8) (f 24 8) (f 32 8)) else none
  | 0x0040 => ok [(8, 1), (10, 2), (12, 2), (14, 1), (16, 2), (18, 2), (24, 8)]
      (.groupCreate h asn (f 10 2) (f 12 2) (f 14 1) (f 16 2) (f 18 2) (f 24 8))
  | 0x0041 => ok [(8, 1), (9, 1)] (.groupDestroy h asn (f 9 1))
  | 0x0050 => ok [(8, 1), (9, 1), (10, 1), (16, 8)] (.streamOpen h asn (f 9 1) (f 10 1) (f 16 8))
  | 0x0051 => ok [(8, 1)] (.streamClose h asn)
  | 0x0052 => ok [(8, 1), (16, 48)] (.frameSubmit h asn (slice b 16 48))
  | 0x0053 => ok [(8, 1), (10, 2)] (.frameRelease h asn (f 10 2))
  | 0x0060 =>
    let fs := [(9, 1), (10, 1), (11, 1), (12, 4), (16, 4)]
    if f 9 1 = 0 then ok fs (.modeSetVintage h (f 10 1) (f 11 1) (f 12 4) (f 16 4))
    else if f 9 1 = 1 then ok fs (.modeSetTaster h (f 10 1) (f 11 1) (f 12 4) (f 16 4)) else none
  | 0x0070 =>
    let fs := [(8, 1), (16, 8), (24, 4)]
    let fl := f 8 1
    if 3 < fl then none
    else if bit fl 1 then ok fs (.applyStoreOnly h (bit fl 0) (f 16 8) (f 24 4) image)
    else ok fs (.applyConfig h (bit fl 0) (f 16 8) (f 24 4) image)
  | 0x0071 => ok [] (.dormantEnter h)
  | 0x0072 => ok [] (.wake h)
  | 0x0078 =>
    let fs := [(8, 1), (9, 1)]
    if f 9 1 = 0 then ok fs (.dieDrainHold h asn) else if f 9 1 = 1 then ok fs (.dieDrainRepair h asn) else none
  | 0x0079 => ok [(8, 1)] (.dieRestore h asn)
  | _ => none

/-- The header of an entry (R632). -/
def entryHdr (q : Nat) (b : Bytes) : CmdHdr := { queue := q, barrier := bit (field b 2 1) 0, id := field b 4 4 }

/-- What an entry of queue `q` stands for (R634). -/
def readEntryCmd (q : Nat) (b : Bytes) (image : HostRead) : Instr :=
  let h := entryHdr q b
  (entryCommand h b image).getD (.reservedCmd h (field b 0 2) (if field b 0 2 = 0x0022 then field b 9 1 else 0))

/-- Whether an entry is an APPLY that names an image (R697). -/
def wantsImage (b : Bytes) : Bool := field b 0 2 == 0x0070 && field b 16 8 != 0

/-! ### Starting what waits (R628, R629, R631) -/

/-- Starts one command that waited since its doorbell of time `t`: a launch's first-issue time counts from there (R675). -/
def startCmd (s : State) (t : Nat) (i : Instr) : State :=
  match hostCmd i with
  | some c =>
    let s1 := startNow s c.h c.code c.first c.start
    match i with
    | .jobLaunch h asn _ _ _ _ _ => modCtx s1 asn fun x => { x with
        job := x.job.map fun j => if j.hdr = h then { j with launchTb := t } else j }
    | _ => s1
  | none => match i with
    | .reservedCmd h code first => startReserved h code first s
    | _ => s

/-- Starts the first command of a queue if it may start. -/
def startHead (s : State) (q : Nat) : State :=
  let x := getQ s q
  match x.waiting with
  | [] => s
  | (t, i) :: r => if canStart s q i then startCmd (setQ s q { x with waiting := r }) t i else s

/-- Starts up to `n` commands of a queue, in ring order. -/
def startQ (n : Nat) (s : State) (q : Nat) : State :=
  match n with
  | 0 => s
  | k + 1 =>
    let before := (getQ s q).waiting.length
    let s1 := startHead s q
    if (getQ s1 q).waiting.length < before then startQ k s1 q else s1

/-- Queues with commands that wait, PRIO queues first (R629). -/
def queueOrder (s : State) : List Nat :=
  let busy := (s.queues.filter fun q => !q.2.waiting.isEmpty).map (·.1)
  busy.filter (prioQueue s) ++ busy.filter fun q => !prioQueue s q

/-- Starts every fetched command that may start. -/
def startWaiting (s : State) : State := (queueOrder s).foldl (fun s q => startQ (getQ s q).waiting.length s q) s

/-! ### Doorbells and fetches (R624, R627) -/

/-- Fetches one entry and puts it behind those that wait. -/
def takeEntry (q : Nat) (x : State × List HostRead) (b : Bytes) : State × List HostRead :=
  let image := if wantsImage b then x.2.headD .failed else .failed
  let rest := if wantsImage b then x.2.drop 1 else x.2
  (enqueue (fetchOne x.1 q) q (readEntryCmd q b image), rest)

/-- A write to DB_SQ_TAIL: the queue fetches the entries the host has written, as far as they are given, and starts commands. -/
def sqTail (s : State) (q : Nat) (v : Word) (fetched : List Bytes) (images : List HostRead) : State :=
  let x := getQ s q
  if x.state ≠ .running then s
  else
    let size := sqSize s q
    let tail := bits v.toNat 11 0 % size
    let n := (tail + size - x.sqHead) % size
    let s1 := setQ s q { x with sqTail := tail }
    startWaiting ((fetched.take n).foldl (takeEntry q) (s1, images)).1

/-- SQ_TAIL_DOORBELL (R627). -/
def execSqTailDoorbell (q : Nat) (v : Word) (fetched : List Bytes) (images : List HostRead) (s : State) :
    Host.Outcome State Fault Refusal :=
  event (Instr.wf (.sqTailDoorbell q v fetched images)) s fun s => sqTail s q v fetched images

/-- The fetch of the next entry fails (R627): the queue stops. -/
def fetchError (s : State) (q : Nat) : State :=
  let x := getQ s q
  if x.state = .running ∧ x.sqHead ≠ x.sqTail then
    setBits (setQ s q { x with state := .stopped }) (hqBase q + 0x14) 0x10000000#32
  else s

/-- COMMAND_FETCH_ERROR (R627). -/
def execCommandFetchError (q : Nat) (s : State) : Host.Outcome State Fault Refusal :=
  event (Instr.wf (.commandFetchError q)) s fun s => fetchError s q

/-- A write to DB_CQ_HEAD frees completion entries: held ones are written, and commands that waited for that start (R631). -/
def cqHead (s : State) (q : Nat) (v : Word) : State :=
  let x := getQ s q
  if x.state ≠ .running then s
  else startWaiting (cqDrain (setQ s q { x with cqHead := bits v.toNat 11 0 }) q)

/-- CQ_HEAD_DOORBELL (R624, R631). -/
def execCqHeadDoorbell (q : Nat) (v : Word) (s : State) : Host.Outcome State Fault Refusal :=
  event (Instr.wf (.cqHeadDoorbell q v)) s fun s => cqHead s q v

/-- A write to HQ_CTL (R626). -/
def execHqCtlWrite (q : Nat) (v : Word) (s : State) : Host.Outcome State Fault Refusal :=
  event (Instr.wf (.hqCtlWrite q v)) s fun s => hqCtl s q v

end Sys2Proof.Machine
end

