-- ==== Sys2Proof/Machine/Dispatch.lean ====
section
/-! DEFINITION. Machine/Dispatch.lean: one arm for each command of the block, each a direct call of the
command's meaning. -/

namespace Sys2Proof.Machine

/-- The effect of a command on everything but the queue of waiting commands. -/
def exec (i : Instr) (s : State) : Host.Outcome State Fault Refusal :=
  match i with
  | .endProg asn core => Sys2Proof.Machine.execEndProg asn core s
  | .loop asn core => Sys2Proof.Machine.execLoop asn core s
  | .branch asn core => Sys2Proof.Machine.execBranch asn core s
  | .waitConsume asn core => Sys2Proof.Machine.execWaitConsume asn core s
  | .waitPeek asn core => Sys2Proof.Machine.execWaitPeek asn core s
  | .signal asn core => Sys2Proof.Machine.execSignal asn core s
  | .fence asn core => Sys2Proof.Machine.execFence asn core s
  | .trig asn core => Sys2Proof.Machine.execTrig asn core s
  | .stint asn core => Sys2Proof.Machine.execStint asn core s
  | .loadCopy asn core => Sys2Proof.Machine.execLoadCopy asn core s
  | .loadXreg asn core => Sys2Proof.Machine.execLoadXreg asn core s
  | .storeCopy asn core => Sys2Proof.Machine.execStoreCopy asn core s
  | .storeAddInt32 asn core => Sys2Proof.Machine.execStoreAddInt32 asn core s
  | .storeMinInt32 asn core => Sys2Proof.Machine.execStoreMinInt32 asn core s
  | .storeMaxInt32 asn core => Sys2Proof.Machine.execStoreMaxInt32 asn core s
  | .storeCas asn core => Sys2Proof.Machine.execStoreCas asn core s
  | .storeAddFloat asn core => Sys2Proof.Machine.execStoreAddFloat asn core s
  | .storeOrdered asn core => Sys2Proof.Machine.execStoreOrdered asn core s
  | .storeAddInt64 asn core => Sys2Proof.Machine.execStoreAddInt64 asn core s
  | .decantFromVirtual asn core => Sys2Proof.Machine.execDecantFromVirtual asn core s
  | .decantFromHost asn core => Sys2Proof.Machine.execDecantFromHost asn core s
  | .leesCheck asn core => Sys2Proof.Machine.execLeesCheck asn core s
  | .matProd asn core => Sys2Proof.Machine.execMatProd asn core s
  | .attnWindow asn core => Sys2Proof.Machine.execAttnWindow asn core s
  | .attnCross asn core => Sys2Proof.Machine.execAttnCross asn core s
  | .attnPiece asn core => Sys2Proof.Machine.execAttnPiece asn core s
  | .convolve asn core => Sys2Proof.Machine.execConvolve asn core s
  | .poolMax asn core => Sys2Proof.Machine.execPoolMax asn core s
  | .poolAvg asn core => Sys2Proof.Machine.execPoolAvg asn core s
  | .poolNearest asn core => Sys2Proof.Machine.execPoolNearest asn core s
  | .foldStats asn core => Sys2Proof.Machine.execFoldStats asn core s
  | .foldMerge asn core => Sys2Proof.Machine.execFoldMerge asn core s
  | .foldNorm asn core => Sys2Proof.Machine.execFoldNorm asn core s
  | .vecEw asn core => Sys2Proof.Machine.execVecEw asn core s
  | .vecRowb asn core => Sys2Proof.Machine.execVecRowb asn core s
  | .vecColb asn core => Sys2Proof.Machine.execVecColb asn core s
  | .vecReduce asn core => Sys2Proof.Machine.execVecReduce asn core s
  | .vecScalar asn core => Sys2Proof.Machine.execVecScalar asn core s
  | .funcApply asn core => Sys2Proof.Machine.execFuncApply asn core s
  | .funcReload asn core => Sys2Proof.Machine.execFuncReload asn core s
  | .blendRun asn core => Sys2Proof.Machine.execBlendRun asn core s
  | .blendLoad asn core => Sys2Proof.Machine.execBlendLoad asn core s
  | .instructionComplete asn core done => Sys2Proof.Machine.execInstructionComplete asn core done s
  | .tasterVerdict asn cluster => Sys2Proof.Machine.execTasterVerdict asn cluster s
  | .promotionDone asn vpn => Sys2Proof.Machine.execPromotionDone asn vpn s
  | .waitSatisfied asn sem => Sys2Proof.Machine.execWaitSatisfied asn sem s
  | .pieceLandingReady asn core id => Sys2Proof.Machine.execPieceLandingReady asn core id s
  | .orderedTurn asn core id => Sys2Proof.Machine.execOrderedTurn asn core id s
  | .decantAccepted asn core => Sys2Proof.Machine.execDecantAccepted asn core s
  | .decantPageDone id host => Sys2Proof.Machine.execDecantPageDone id host s
  | .stintOverrun asn core => Sys2Proof.Machine.execStintOverrun asn core s
  | .fabricHang die => Sys2Proof.Machine.execFabricHang die s
  | .dieLogicResetDone die => Sys2Proof.Machine.execDieLogicResetDone die s
  | .builtInTestDone die findings => Sys2Proof.Machine.execBuiltInTestDone die findings s
  | .jobComplete asn => Sys2Proof.Machine.execJobComplete asn s
  | .seatingDecision => Sys2Proof.Machine.execSeatingDecision s
  | .sliceExpiry asn => Sys2Proof.Machine.execSliceExpiry asn s
  | .corkBegin asn => Sys2Proof.Machine.execCorkBegin asn s
  | .corkDone asn => Sys2Proof.Machine.execCorkDone asn s
  | .uncorkDone asn => Sys2Proof.Machine.execUncorkDone asn s
  | .nop h => Sys2Proof.Machine.execNop h s
  | .reservedCmd h code first => Sys2Proof.Machine.execReservedCmd h code first s
  | .ctxCreate h asn cls kind sliceUs clusters imageVA resumeVA resumeCount => Sys2Proof.Machine.execCtxCreate h asn cls kind sliceUs clusters imageVA resumeVA resumeCount s
  | .ctxDestroy h asn => Sys2Proof.Machine.execCtxDestroy h asn s
  | .ctxCork h asn => Sys2Proof.Machine.execCtxCork h asn s
  | .ctxUncork h asn clusters => Sys2Proof.Machine.execCtxUncork h asn clusters s
  | .ctxExport h asn move imageVA => Sys2Proof.Machine.execCtxExport h asn move imageVA s
  | .ctxSetClass h asn cls sliceUs => Sys2Proof.Machine.execCtxSetClass h asn cls sliceUs s
  | .asnDestroy h asn => Sys2Proof.Machine.execAsnDestroy h asn s
  | .semAliasSet h asn index ownerAsn ownerIndex => Sys2Proof.Machine.execSemAliasSet h asn index ownerAsn ownerIndex s
  | .semAliasClear h asn index ownerAsn ownerIndex => Sys2Proof.Machine.execSemAliasClear h asn index ownerAsn ownerIndex s
  | .semSignal h asn index n => Sys2Proof.Machine.execSemSignal h asn index n s
  | .jobLaunch h asn p rank progLen progVA seed => Sys2Proof.Machine.execJobLaunch h asn p rank progLen progVA seed s
  | .jobEnd h asn => Sys2Proof.Machine.execJobEnd h asn s
  | .descBind h asn first count srcVA => Sys2Proof.Machine.execDescBind h asn first count srcVA s
  | .trellisBind h asn entries tableVA => Sys2Proof.Machine.execTrellisBind h asn entries tableVA s
  | .versionSet h asn set slots semBase record => Sys2Proof.Machine.execVersionSet h asn set slots semBase record s
  | .memAlloc h asn tier w pages va place => Sys2Proof.Machine.execMemAlloc h asn tier w pages va place s
  | .zeroFillDone asn => Sys2Proof.Machine.execZeroFillDone asn s
  | .memMigrate h asn tier access pages va place => Sys2Proof.Machine.execMemMigrate h asn tier access pages va place s
  | .migratePageDone asn => Sys2Proof.Machine.execMigratePageDone asn s
  | .memFree h asn pages va => Sys2Proof.Machine.execMemFree h asn pages va s
  | .xferToHost h asn window va winOff bytes => Sys2Proof.Machine.execXferToHost h asn window va winOff bytes s
  | .xferFromHost h asn window va winOff bytes => Sys2Proof.Machine.execXferFromHost h asn window va winOff bytes s
  | .xferComplete id host => Sys2Proof.Machine.execXferComplete id host s
  | .groupCreate h asn size tag gen credits wdMs members => Sys2Proof.Machine.execGroupCreate h asn size tag gen credits wdMs members s
  | .groupDestroy h asn slot => Sys2Proof.Machine.execGroupDestroy h asn slot s
  | .streamOpen h unit asn semBase paramVA => Sys2Proof.Machine.execStreamOpen h unit asn semBase paramVA s
  | .streamClose h stream => Sys2Proof.Machine.execStreamClose h stream s
  | .frameSubmit h stream entry => Sys2Proof.Machine.execFrameSubmit h stream entry s
  | .frameRelease h stream count => Sys2Proof.Machine.execFrameRelease h stream count s
  | .modeSetVintage h value rateLog2 expectEpoch timeoutUs => Sys2Proof.Machine.execModeSetVintage h value rateLog2 expectEpoch timeoutUs s
  | .modeSetTaster h value rateLog2 expectEpoch timeoutUs => Sys2Proof.Machine.execModeSetTaster h value rateLog2 expectEpoch timeoutUs s
  | .dieEpochAck die => Sys2Proof.Machine.execDieEpochAck die s
  | .epochTimeout => Sys2Proof.Machine.execEpochTimeout s
  | .applyConfig h writeFlash imageBus imageBytes image => Sys2Proof.Machine.execApplyConfig h writeFlash imageBus imageBytes image s
  | .applyStoreOnly h writeFlash imageBus imageBytes image => Sys2Proof.Machine.execApplyStoreOnly h writeFlash imageBus imageBytes image s
  | .dormantEnter h => Sys2Proof.Machine.execDormantEnter h s
  | .dormantPowerDown => Sys2Proof.Machine.execDormantPowerDown s
  | .wake h => Sys2Proof.Machine.execWake h s
  | .wakeDone => Sys2Proof.Machine.execWakeDone s
  | .dieDrainHold h die => Sys2Proof.Machine.execDieDrainHold h die s
  | .dieDrainRepair h die => Sys2Proof.Machine.execDieDrainRepair h die s
  | .dieRestore h die => Sys2Proof.Machine.execDieRestore h die s
  | .sqTailDoorbell q val fetched images => Sys2Proof.Machine.execSqTailDoorbell q val fetched images s
  | .commandFetchError q => Sys2Proof.Machine.execCommandFetchError q s
  | .cqHeadDoorbell q val => Sys2Proof.Machine.execCqHeadDoorbell q val s
  | .hqCtlWrite q val => Sys2Proof.Machine.execHqCtlWrite q val s
  | .msgCtlWrite val => Sys2Proof.Machine.execMsgCtlWrite val s
  | .msgHeadWrite val => Sys2Proof.Machine.execMsgHeadWrite val s
  | .registerWrite off width val => Sys2Proof.Machine.execRegisterWrite off width val s
  | .loReadLatch r => Sys2Proof.Machine.execLoReadLatch r s
  | .hubResetModule val => Sys2Proof.Machine.execHubResetModule val s
  | .islVsetWrite die isl val => Sys2Proof.Machine.execIslVsetWrite die isl val s
  | .islMarginWrite die isl val => Sys2Proof.Machine.execIslMarginWrite die isl val s
  | .islRateMinReset die isl val => Sys2Proof.Machine.execIslRateMinReset die isl val s
  | .islRampDone die isl => Sys2Proof.Machine.execIslRampDone die isl s
  | .islRateUpdate die isl rate => Sys2Proof.Machine.execIslRateUpdate die isl rate s
  | .mcC0LatMaxClr die mc val => Sys2Proof.Machine.execMcC0LatMaxClr die mc val s
  | .trkPeakClr die val => Sys2Proof.Machine.execTrkPeakClr die val s
  | .tqNearQuotaWrite asn val => Sys2Proof.Machine.execTqNearQuotaWrite asn val s
  | .tqCellarQuotaWrite asn val => Sys2Proof.Machine.execTqCellarQuotaWrite asn val s
  | .hwWindowWrite asn window reg val => Sys2Proof.Machine.execHwWindowWrite asn window reg val s
  | .precSettingWrite die slot reg val => Sys2Proof.Machine.execPrecSettingWrite die slot reg val s
  | .relDieFlagSet die val => Sys2Proof.Machine.execRelDieFlagSet die val s
  | .relDieFlagClr die val => Sys2Proof.Machine.execRelDieFlagClr die val s
  | .relFlashRelease val => Sys2Proof.Machine.execRelFlashRelease val s
  | .relFlashAttach val supported => Sys2Proof.Machine.execRelFlashAttach val supported s
  | .relVrmRelease pos val => Sys2Proof.Machine.execRelVrmRelease pos val s
  | .scrStart die val => Sys2Proof.Machine.execScrStart die val s
  | .scrStop die val => Sys2Proof.Machine.execScrStop die val s
  | .screenRoundDone die round => Sys2Proof.Machine.execScreenRoundDone die round s
  | .relLogIndexWrite val => Sys2Proof.Machine.execRelLogIndexWrite val s
  | .relMapIndexWrite val => Sys2Proof.Machine.execRelMapIndexWrite val s
  | .pwrLimitWrite val => Sys2Proof.Machine.execPwrLimitWrite val s
  | .pwrPeakClr val => Sys2Proof.Machine.execPwrPeakClr val s
  | .acctClr asn val => Sys2Proof.Machine.execAcctClr asn val s
  | .appClr val => Sys2Proof.Machine.execAppClr val s
  | .acctFlush => Sys2Proof.Machine.execAcctFlush s
  | .tallyRelease val => Sys2Proof.Machine.execTallyRelease val s
  | .tallyReleaseDone => Sys2Proof.Machine.execTallyReleaseDone s
  | .tallyAttach val => Sys2Proof.Machine.execTallyAttach val s
  | .tallySelfTestDone passed fwRev serial seconds total recSeq sealBroken => Sys2Proof.Machine.execTallySelfTestDone passed fwRev serial seconds total recSeq sealBroken s
  | .tallyRecIndexWrite val => Sys2Proof.Machine.execTallyRecIndexWrite val s
  | .tallyIntervalClose energyMJ watts vin10mV overrange => Sys2Proof.Machine.execTallyIntervalClose energyMJ watts vin10mV overrange s
  | .tallyRecordClose => Sys2Proof.Machine.execTallyRecordClose s
  | .unmeteredRecord => Sys2Proof.Machine.execUnmeteredRecord s
  | .tallyPulled => Sys2Proof.Machine.execTallyPulled s
  | .tallyFault => Sys2Proof.Machine.execTallyFault s
  | .tallySealOpened => Sys2Proof.Machine.execTallySealOpened s
  | .tallyFlashCopy => Sys2Proof.Machine.execTallyFlashCopy s
  | .powerLoopTick inputMw => Sys2Proof.Machine.execPowerLoopTick inputMw s
  | .thermalCapTick die tj => Sys2Proof.Machine.execThermalCapTick die tj s
  | .thermal source cause reading => Sys2Proof.Machine.execThermal source cause reading s
  | .thermalTrip source cause reading => Sys2Proof.Machine.execThermalTrip source cause reading s
  | .envelopeReturn => Sys2Proof.Machine.execEnvelopeReturn s
  | .inputVoltageChange mv => Sys2Proof.Machine.execInputVoltageChange mv s
  | .inputPowerLoss energyMJ watts vin10mV => Sys2Proof.Machine.execInputPowerLoss energyMJ watts vin10mV s
  | .regulatorFail pos => Sys2Proof.Machine.execRegulatorFail pos s
  | .regulatorFitted pos => Sys2Proof.Machine.execRegulatorFitted pos s
  | .refClockLost => Sys2Proof.Machine.execRefClockLost s
  | .refClockReturn => Sys2Proof.Machine.execRefClockReturn s
  | .moduleReset => Sys2Proof.Machine.execModuleReset s
  | .hostLinkTrained => Sys2Proof.Machine.execHostLinkTrained s
  | .configReadDone => Sys2Proof.Machine.execConfigReadDone s
  | .memTrainDone serviceOk chans => Sys2Proof.Machine.execMemTrainDone serviceOk chans s
  | .repairStepDone up findings => Sys2Proof.Machine.execRepairStepDone up findings s
  | .portTrainDone ports far => Sys2Proof.Machine.execPortTrainDone ports far s
  | .bootStepTimeout applied up findings ports far => Sys2Proof.Machine.execBootStepTimeout applied up findings ports far s
  | .hostLinkReset => Sys2Proof.Machine.execHostLinkReset s
  | .hubUncorrectable => Sys2Proof.Machine.execHubUncorrectable s
  | .faultLogFlush => Sys2Proof.Machine.execFaultLogFlush s
  | .flashWriteDone region verified => Sys2Proof.Machine.execFlashWriteDone region verified s
  | .patrolScrub die mc chan line rowWord correctable => Sys2Proof.Machine.execPatrolScrub die mc chan line rowWord correctable s
  | .rowRemap die mc chan rowWord => Sys2Proof.Machine.execRowRemap die mc chan rowWord s
  | .caParityError die mc chan retries read line reader => Sys2Proof.Machine.execCaParityError die mc chan retries read line reader s
  | .flitReplay port => Sys2Proof.Machine.execFlitReplay port s
  | .laneFail port lane => Sys2Proof.Machine.execLaneFail port lane s
  | .laneRetrainDone port => Sys2Proof.Machine.execLaneRetrainDone port s
  | .portDown port => Sys2Proof.Machine.execPortDown port s
  | .vlPortRetrain port val => Sys2Proof.Machine.execVlPortRetrain port val s
  | .portRetrainDone port result => Sys2Proof.Machine.execPortRetrainDone port result s
  | .peerTraining port => Sys2Proof.Machine.execPeerTraining port s
  | .farPortDown port => Sys2Proof.Machine.execFarPortDown port s
  | .cxlRequestTimeout port => Sys2Proof.Machine.execCxlRequestTimeout port s
  | .trellisFire asn entry => Sys2Proof.Machine.execTrellisFire asn entry s
  | .ctsArrival cts fromRank => Sys2Proof.Machine.execCtsArrival cts fromRank s
  | .ctsRetry cts fromRank => Sys2Proof.Machine.execCtsRetry cts fromRank s
  | .packetArrival p => Sys2Proof.Machine.execPacketArrival p s
  | .packetAck tag gen seq offset => Sys2Proof.Machine.execPacketAck tag gen seq offset s
  | .firingComplete asn entry => Sys2Proof.Machine.execFiringComplete asn entry s
  | .abortArrival tag gen seq reason => Sys2Proof.Machine.execAbortArrival tag gen seq reason s
  | .groupWait asn entry => Sys2Proof.Machine.execGroupWait asn entry s
  | .tierStall asn sem => Sys2Proof.Machine.execTierStall asn sem s
  | .keeperPin asn set => Sys2Proof.Machine.execKeeperPin asn set s
  | .keeperRetire asn set => Sys2Proof.Machine.execKeeperRetire asn set s
  | .keeperClaim asn set => Sys2Proof.Machine.execKeeperClaim asn set s
  | .keeperPublish asn set => Sys2Proof.Machine.execKeeperPublish asn set s
  | .codecSubmitConsume stream => Sys2Proof.Machine.execCodecSubmitConsume stream s
  | .codecStreamSwitch unit => Sys2Proof.Machine.execCodecStreamSwitch unit s
  | .codecFrameDone unit => Sys2Proof.Machine.execCodecFrameDone unit s
  | .codecReleaseConsume stream => Sys2Proof.Machine.execCodecReleaseConsume stream s
  | .codecPacedRecord stream => Sys2Proof.Machine.execCodecPacedRecord stream s
  | .unmeteredIntervalClose energyMJ => Sys2Proof.Machine.execUnmeteredIntervalClose energyMJ s
  | .ctxExportDone asn => Sys2Proof.Machine.execCtxExportDone asn s

end Sys2Proof.Machine
end

