-- ==== Sys2Proof/Machine/Tick.lean ====
section
/-! DEFINITION. Machine/Tick.lean: one nanosecond of timebase time (R91), which passes when no command waits at the block
(notes/assumptions/19): the timebase, the counters of R677, the stint, slice and ready timers, the blocked periods of R478 and the
waits of R569; then fetched host commands that may start do. -/

namespace Sys2Proof.Machine

/-- One nanosecond of context-wide time (R677): waiting for its clusters with a job in progress, or in a transfer. -/
def Ctx.nsWide (c : Ctx) : Acct :=
  { Acct.zero with queueWait := b2n (c.job.isSome && c.state != .seated && c.moving.isNone), cork := b2n c.moving.isSome }

/-- The clusters a context has on die `d`. -/
def Ctx.clustersOn (c : Ctx) (d : Nat) : Nat := (c.set.filter fun g => g / 32 == d).length

/-- Whether a core spends tier stall (R477): it holds a write for a promotion, or waits for a weight fence or for its DECANT to be
accepted. -/
def stalls (s : State) (asn : Nat) (k : Core) : Bool :=
  k.hold.any (fun h => s.promotions.any fun p => p.asn == asn && p.vpn == h.1) ||
  match k.run with
  | .waiting sem _ _ => weightFence s asn sem
  | .decantWait => true
  | _ => false

/-- Cores of a context on die `d` that spend tier stall; none from Dormant entry to the end of wake (R719). -/
def stallsOn (s : State) (c : Ctx) (d : Nat) : Nat :=
  if s.hub.boot = .ready then
    ((c.cores.mapIdx fun i k => b2n (c.dieOfCore i == d && stalls s c.asn k)).foldl (· + ·) 0)
  else 0

/-- One nanosecond of die `d`'s counts for a context (R677). -/
def Ctx.nsOn (s : State) (c : Ctx) (d : Nat) : Acct :=
  { Acct.zero with seated := if c.state = .seated then c.clustersOn d else 0, tierStall := stallsOn s c d }

/-- One nanosecond of a core's stint timer (R207): it runs while the core issues on its clusters, the time it lends to tasting apart
(R399). -/
def Core.ns (on : Bool) (k : Core) : Core := if on && k.issues then { k with stintNs := k.stintNs + 1 } else k

/-- One nanosecond of a blocked period and of its cores' waits (R478). -/
def FencePeriod.tick (f : FencePeriod) : FencePeriod :=
  { f with ns := f.ns + 1, cores := f.cores.map fun x => (x.1, x.2 + 1) }

/-- One nanosecond of a context's timers and counters. -/
def Ctx.ns (s : State) (c : Ctx) : Ctx :=
  let on := c.job.isSome && c.seatedNow
  let c1 := { c with
    sliceNs := c.sliceNs + b2n (c.state == .seated && c.job.isSome)
    readyNs := c.readyNs + b2n (c.resident && c.job.isSome && c.state != .seated)
    cores := c.cores.mapIdx fun i k => k.ns (on && !lends s c i)
    fences := if s.hub.boot = .ready then c.fences.map FencePeriod.tick else c.fences }
  if c.resident then c.dies.foldl (fun x d => x.count d (c.nsOn s d)) (c1.countLow c.nsWide) else c1

/-- One nanosecond of a CORKED context, which holds no slot: its time goes straight to the hub totals. -/
def corkedNs (s : State) (c : Ctx) : State :=
  if c.resident then s
  else addTotal s c.asn (c.dies.foldl (fun a d => a.add (c.nsOn s d)) c.nsWide)

/-- One nanosecond of a firing's wait for its partner (R569), Dormant left out (R719). -/
def Firing.ns (s : State) (f : Firing) : Firing :=
  let waits := match activeGroup s f.slot with
    | some g => (f.waitsFor g.rank).isSome
    | none => false
  if waits && linksRun s then { f with waitNs := f.waitNs + 1 } else f

/-- Whether a request of the core finds no tracker entry it may take and is held (R510): an instruction that has started and none of
whose transactions has an entry (notes/assumptions/54). -/
def Core.starved (k : Core) : Bool := k.flight.any fun f => f.started && f.wait == .none && f.want != 0 && f.entries == 0

/-- Whether a request of die `d` is held (R524). -/
def heldOn (s : State) (d : Nat) : Bool :=
  s.ctxs.any fun c => c.seatedNow && (c.cores.mapIdx fun i k => c.dieOfCore i == d && k.starved).any id

/-- One nanosecond of a die's tracker (R524). -/
def Tracker.ns (held : Bool) (t : Tracker) : Tracker := { t with fullNs := (t.fullNs + b2n held) % 2 ^ 64 }

/-- One nanosecond of timebase time. -/
def oneNs (s : State) : State :=
  let s1 := s.ctxs.foldl corkedNs s
  { s1 with
    traffic := { s1.traffic with trk := s1.traffic.trk.mapIdx fun d t => t.ns (heldOn s d) }
    hub := { s1.hub with timebase := (s1.hub.timebase + 1) % 2 ^ 64 }
    ctxs := s1.ctxs.map fun c => c.ns s
    firings := s1.firings.map fun f => f.ns s }

/-- What the block does when no command waits: time passes while the module has power and its reference clock (R93), the codec units go
on without that clock (R87), and commands whose time has come start. -/
def tick (s : State) : State :=
  if !s.hub.powered then s
  else startWaiting (codecsNs (if s.hub.refLost then s else oneNs s))

end Sys2Proof.Machine
end

