-- ==== Sys2Proof/Safety.lean ====
section
/-! DEFINITION. Safety.lean: the well-formed states of the block: what every state that a run from reset reaches satisfies; the
parts of the state that frames are stated over; and the conditions under which a command has its effect, in the terms the
claims use. -/

namespace Sys2Proof.Machine

/-! ### Well-formed states -/

/-- A context whose core stores and cluster pools are in canonical form. -/
def Ctx.canon (c : Ctx) : Prop := (∀ k ∈ c.cores, k.store.wf = true) ∧ ∀ q ∈ c.clusters, q.pool.wf = true

/-- A state of the module the spec describes: four compute dies (C0 to C3), 18 Vinelink ports, two far-tier ports, 64 group
slots (R537), four codec units, a 64-bit timebase (R91), and every memory in its canonical form: equal memories are equal
data. -/
structure State.Inv (s : State) : Prop where
  mem : s.mem.wf = true
  ctxs : ∀ c ∈ s.ctxs, c.canon
  exported : ∀ c ∈ s.exported, c.canon
  dies : s.dies.length = 4
  ports : s.ports.length = 18
  farPorts : s.farPorts.length = 2
  groups : s.groups.length = 64
  codecs : s.codecs.length = 4
  timebase : s.hub.timebase < 2 ^ 64

/-! ### Frames -/

/-- The parts of the state that frames are stated over: each is one or a few fields of State. -/
inductive Part where
  | hub | regs | host | dies | pages | moves | ctxs | links | groups | codecs | modes | power | acct | store | mem | ids |
  traffic
  deriving DecidableEq, Repr

/-- `t` has the same value as `s` in every field of a part. -/
def Part.same : Part → State → State → Prop
  | .hub, s, t => t.hub = s.hub
  | .regs, s, t => t.regs = s.regs
  | .host, s, t => t.latches = s.latches ∧ t.queues = s.queues ∧ t.msg = s.msg ∧ t.out = s.out
  | .dies, s, t => t.dies = s.dies
  | .pages, s, t => t.spaces = s.spaces ∧ t.promotions = s.promotions
  | .moves, s, t => t.fills = s.fills ∧ t.migrations = s.migrations ∧ t.decants = s.decants ∧ t.xfers = s.xfers
  | .ctxs, s, t => t.ctxs = s.ctxs ∧ t.exported = s.exported
  | .links, s, t => t.ports = s.ports ∧ t.farPorts = s.farPorts
  | .groups, s, t => t.groups = s.groups ∧ t.firings = s.firings ∧ t.paused = s.paused
  | .codecs, s, t => t.codecs = s.codecs
  | .modes, s, t => t.modes = s.modes
  | .power, s, t => t.power = s.power ∧ t.tally = s.tally
  | .acct, s, t => t.app = s.app ∧ t.totals = s.totals
  | .store, s, t => t.flash = s.flash ∧ t.rel = s.rel
  | .mem, s, t => t.mem = s.mem ∧ t.poison = s.poison ∧ t.cells = s.cells
  | .ids, s, t => t.nextId = s.nextId ∧ t.free = s.free
  | .traffic, s, t => t.traffic = s.traffic

end Sys2Proof.Machine

namespace Sys2Proof

open Machine

/-- The parts a command may change; it changes no other, whatever its outcome. -/
def Instr.parts (i : Instr) : List Part :=
  match i with
  | .endProg .. | .loop .. | .branch .. | .waitConsume .. | .waitPeek .. | .signal .. | .fence .. | .trig ..
  | .stint .. | .vecScalar .. =>
    [.regs, .host, .dies, .pages, .moves, .ctxs, .groups, .codecs, .modes, .acct, .store, .mem, .traffic]
  | .loadCopy .. | .loadXreg .. | .storeCopy .. | .storeAddInt32 .. | .storeMinInt32 .. | .storeMaxInt32 ..
  | .storeCas .. | .storeAddFloat .. | .storeOrdered .. | .storeAddInt64 .. | .decantFromVirtual ..
  | .decantFromHost .. | .leesCheck .. | .matProd .. | .attnWindow .. | .attnCross .. | .attnPiece .. | .convolve ..
  | .poolMax .. | .poolAvg .. | .poolNearest .. | .foldStats .. | .foldMerge .. | .foldNorm .. | .vecEw ..
  | .vecRowb .. | .vecColb .. | .vecReduce .. | .funcApply .. | .funcReload .. | .blendRun .. | .blendLoad ..
  | .instructionComplete .. | .tasterVerdict .. | .promotionDone .. | .pieceLandingReady .. | .orderedTurn ..
  | .decantAccepted .. | .uncorkDone .. | .migratePageDone .. =>
    [.regs, .host, .dies, .pages, .moves, .ctxs, .groups, .codecs, .modes, .acct, .store, .mem, .ids, .traffic]
  | .waitSatisfied .. | .sliceExpiry .. =>
    [.ctxs]
  | .decantPageDone .. | .keeperPin .. | .keeperRetire .. | .keeperClaim .. | .keeperPublish .. =>
    [.regs, .dies, .pages, .moves, .ctxs, .mem, .traffic]
  | .stintOverrun .. | .fabricHang .. =>
    [.regs, .host, .dies, .moves, .ctxs, .groups, .codecs, .modes, .acct, .store]
  | .dieLogicResetDone .. | .relDieFlagSet .. | .relDieFlagClr .. | .scrStart .. | .scrStop .. =>
    [.regs, .host, .dies, .store]
  | .builtInTestDone .. =>
    [.regs, .host, .dies, .ctxs, .modes, .acct, .store, .traffic]
  | .jobComplete .. =>
    [.regs, .host, .ctxs, .groups, .acct]
  | .seatingDecision | .acctFlush =>
    [.ctxs, .acct]
  | .corkBegin .. =>
    [.ctxs, .acct, .mem, .traffic]
  | .corkDone .. =>
    [.hub, .regs, .host, .dies, .ctxs, .modes, .acct, .store]
  | .nop .. | .reservedCmd .. | .commandFetchError .. | .hqCtlWrite .. | .msgCtlWrite .. | .msgHeadWrite ..
  | .tqNearQuotaWrite .. | .tqCellarQuotaWrite .. =>
    [.regs, .host]
  | .ctxCreate .. =>
    [.regs, .host, .dies, .pages, .ctxs, .mem, .traffic]
  | .ctxDestroy .. =>
    [.regs, .host, .dies, .moves, .ctxs, .acct]
  | .ctxCork .. =>
    [.regs, .host, .ctxs, .acct]
  | .ctxUncork .. =>
    [.regs, .host, .dies, .ctxs, .acct]
  | .ctxExport .. | .semAliasSet .. | .semAliasClear .. | .semSignal .. | .trellisBind .. | .versionSet ..
  | .tierStall .. =>
    [.regs, .host, .ctxs]
  | .ctxSetClass .. =>
    [.regs, .host, .dies, .ctxs]
  | .asnDestroy .. | .memFree .. =>
    [.regs, .host, .pages]
  | .jobLaunch .. =>
    [.regs, .host, .dies, .pages, .moves, .ctxs, .groups, .mem, .traffic]
  | .jobEnd .. =>
    [.regs, .host, .dies, .pages, .moves, .ctxs, .groups, .acct, .mem, .ids, .traffic]
  | .descBind .. =>
    [.regs, .host, .dies, .ctxs, .mem, .traffic]
  | .memAlloc .. =>
    [.regs, .host, .pages, .moves, .mem]
  | .zeroFillDone .. =>
    [.regs, .host, .moves]
  | .memMigrate .. =>
    [.regs, .host, .pages, .moves]
  | .xferToHost .. | .xferFromHost .. =>
    [.regs, .host, .moves, .ids]
  | .xferComplete .. =>
    [.regs, .host, .dies, .pages, .moves, .mem, .traffic]
  | .groupCreate .. =>
    [.regs, .host, .dies, .groups, .mem, .traffic]
  | .groupDestroy .. =>
    [.regs, .host, .groups]
  | .streamOpen .. =>
    [.regs, .host, .dies, .codecs, .mem, .traffic]
  | .streamClose .. | .frameSubmit .. =>
    [.regs, .host, .codecs]
  | .frameRelease .. | .codecFrameDone .. =>
    [.regs, .host, .dies, .pages, .moves, .ctxs, .codecs, .mem, .traffic]
  | .modeSetVintage .. | .modeSetTaster .. | .dieEpochAck .. | .epochTimeout =>
    [.regs, .host, .dies, .ctxs, .modes]
  | .applyConfig .. | .applyStoreOnly .. | .configReadDone =>
    [.hub, .regs, .host, .dies, .power, .store]
  | .dormantEnter .. =>
    [.hub, .regs, .host, .dies, .ctxs, .acct, .store]
  | .dormantPowerDown | .wake .. =>
    [.hub, .regs, .host, .dies]
  | .wakeDone =>
    [.hub, .regs, .host, .dies, .pages, .moves, .ctxs, .links, .groups, .modes, .acct, .store, .mem, .ids, .traffic]
  | .dieDrainHold .. | .dieDrainRepair .. | .screenRoundDone .. =>
    [.regs, .host, .dies, .ctxs, .modes, .acct, .store]
  | .dieRestore .. =>
    [.regs, .host, .dies, .ctxs, .modes, .store]
  | .sqTailDoorbell .. | .cqHeadDoorbell .. =>
    [.hub, .regs, .host, .dies, .pages, .moves, .ctxs, .groups, .codecs, .modes, .power, .acct, .store, .mem, .ids, .traffic]
  | .registerWrite .. | .hubResetModule .. | .inputPowerLoss .. | .moduleReset | .hubUncorrectable =>
    [.hub, .regs, .host, .dies, .pages, .moves, .ctxs, .links, .groups, .codecs, .modes, .power, .acct, .store, .mem, .ids, .traffic]
  | .loReadLatch .. =>
    [.host]
  | .islVsetWrite .. =>
    [.regs, .dies]
  | .islMarginWrite .. | .hwWindowWrite .. | .precSettingWrite .. | .relMapIndexWrite .. | .pwrLimitWrite .. =>
    [.regs]
  | .islRateMinReset .. | .islRampDone .. | .islRateUpdate .. | .envelopeReturn =>
    [.dies]
  | .mcC0LatMaxClr .. | .trkPeakClr .. =>
    [.traffic]
  | .relFlashRelease .. | .faultLogFlush =>
    [.store]
  | .relFlashAttach .. =>
    [.hub, .power, .store]
  | .relVrmRelease .. | .pwrPeakClr .. | .tallyPulled | .tallyFault | .tallySealOpened =>
    [.power]
  | .relLogIndexWrite .. =>
    [.regs, .store]
  | .acctClr .. =>
    [.regs, .acct]
  | .appClr .. =>
    [.acct]
  | .tallyRelease .. | .tallyAttach .. =>
    [.regs, .host, .power, .acct, .ids]
  | .tallyReleaseDone | .tallySelfTestDone .. | .tallyFlashCopy =>
    [.power, .store]
  | .tallyRecIndexWrite .. =>
    [.regs, .power]
  | .tallyIntervalClose .. =>
    [.regs, .host, .power, .acct]
  | .tallyRecordClose | .unmeteredRecord =>
    [.regs, .host, .power]
  | .powerLoopTick .. =>
    [.regs, .host, .dies, .power]
  | .thermalCapTick .. =>
    [.dies, .power]
  | .thermal .. =>
    [.regs, .host, .dies, .power, .store]
  | .thermalTrip .. | .regulatorFail .. =>
    [.regs, .host, .dies, .ctxs, .modes, .power, .acct, .store]
  | .inputVoltageChange .. | .regulatorFitted .. =>
    [.dies, .power, .store]
  | .refClockLost =>
    [.hub, .regs]
  | .refClockReturn | .hostLinkTrained =>
    [.hub]
  | .memTrainDone .. | .flashWriteDone .. =>
    [.hub, .regs, .host, .dies, .store]
  | .repairStepDone .. =>
    [.hub, .regs, .host, .dies, .links, .store, .traffic]
  | .portTrainDone .. =>
    [.hub, .regs, .host, .dies, .ctxs, .links, .modes, .acct, .store, .traffic]
  | .bootStepTimeout .. =>
    [.hub, .regs, .host, .dies, .ctxs, .links, .modes, .power, .acct, .store, .traffic]
  | .hostLinkReset =>
    [.regs, .host, .dies, .pages, .moves, .ctxs, .mem, .traffic]
  | .patrolScrub .. =>
    [.dies, .mem]
  | .rowRemap .. =>
    [.regs, .host, .dies, .store, .mem]
  | .caParityError .. =>
    [.regs, .host, .dies, .moves, .ctxs, .groups, .codecs, .modes, .acct, .store, .mem]
  | .flitReplay .. =>
    [.links]
  | .laneFail .. | .laneRetrainDone .. | .portDown .. | .portRetrainDone .. =>
    [.regs, .host, .dies, .pages, .moves, .ctxs, .links, .groups, .store, .mem, .ids, .traffic]
  | .vlPortRetrain .. | .peerTraining .. =>
    [.regs, .host, .links, .store]
  | .farPortDown .. | .cxlRequestTimeout .. =>
    [.regs, .host, .dies, .pages, .moves, .ctxs, .links, .groups, .codecs, .modes, .acct, .store]
  | .trellisFire .. | .ctsArrival .. | .ctsRetry .. | .packetAck .. | .firingComplete .. =>
    [.regs, .host, .dies, .pages, .moves, .ctxs, .links, .groups, .mem, .ids, .traffic]
  | .packetArrival .. | .abortArrival .. =>
    [.regs, .host, .dies, .pages, .moves, .ctxs, .groups, .mem, .ids, .traffic]
  | .groupWait .. =>
    [.regs, .host, .groups, .store]
  | .codecSubmitConsume .. =>
    [.dies, .ctxs, .codecs, .mem, .ids, .traffic]
  | .codecStreamSwitch .. =>
    [.codecs]
  | .codecReleaseConsume .. | .codecPacedRecord .. =>
    [.regs, .dies, .pages, .moves, .ctxs, .codecs, .mem, .traffic]
  | .unmeteredIntervalClose .. =>
    [.power, .acct]
  | .ctxExportDone .. =>
    [.regs, .host, .dies, .pages, .moves, .ctxs, .acct, .mem, .traffic]
end Sys2Proof

namespace Sys2Proof.Machine

/-- Nothing but the named parts differs, the queue of waiting commands included. -/
def Only (ps : List Part) (s t : State) : Prop := t.pending = s.pending ∧ ∀ x : Part, x ∉ ps → x.same s t

/-! ### Instructions of a core -/

/-- The core fetches a word whose common header is legal (R152, R163, R164): its context is on its clusters, its job runs,
and the core issues. `e.s` is the state after the fetch, whose read meets the errors in its cells (R490, R491). -/
structure Fetches (s : State) (asn core : Nat) (e : Env) (w : Nat) : Prop where
  env : rowEnv s asn core = some e
  word : fetchWord e = .ok w
  header : headerOk w = true

/-- A sequencer instruction issues: its reserved fields are 0 and nothing in flight holds back the registers it reads and
writes (R160, R161). -/
structure SeqFree (e : Env) (w : Nat) (resv : List (Nat × Nat)) (reads writes : List Nat) : Prop where
  reserved : zeros w resv = true
  free : mustWait e.k w { bufs := [], reads := sels reads, writes := sels writes } = false

/-- The runs of bytes a plan writes. -/
def Plan.runs (p : Plan) (e : Env) : List Run :=
  let ws := freePads (e.s.free + p.free) p.ews
  if p.adds then ws.map EW.run else runsOf e ws

/-- A unit instruction issues: its checks at decode pass, nothing in flight holds it back (R157 to R161), and its checks at issue pass.
`e₁` is the core once what these read has met the errors in its cells (R490, R491). -/
structure Issues (ops : UnitOps) (e e₁ : Env) (w : Nat) (pr : Prep) (i : Issued) : Prop where
  prep : ops.prep e w = .ok pr
  free : mustWait e.k w pr = false
  met : e₁ = e.met fun x => ops.check x w
  check : ops.check e₁ w = .ok i

/-- The state in which a unit instruction that issues is in flight and has not started. -/
def placed (ops : UnitOps) (e₁ : Env) (w : Nat) (pr : Prep) (i : Issued) : State :=
  place e₁ w pr i (e₁.pagesRead pr.bufs fun x => ops.check x w)

/-- An instruction in flight does its work: what it reads can be read, and every page it writes is near-resident and writable. `x₁` is
the core once its reads have met the errors in their cells. -/
structure Runs (ops : UnitOps) (x x₁ : Env) (f : Flight) (p : Plan) : Prop where
  met : x₁ = x.met fun y => ops.run y f.w
  run : ops.run x₁ f.w = .ok p
  pages : checkPages x₁ (runPages (p.runs x₁)) = .ok ()

/-- What a sequencer instruction leaves, from the state `s` after its fetch: the core changed by `f`, every other core and every
part of the module but the contexts as before, and the semaphores as its SIG leaves them (R198, R200). -/
structure Sequenced (s t : State) (asn core : Nat) (e : Env) (w : Nat) (f : Core → Core) : Prop where
  self : coreOf t asn core = some (f e.k)
  others : ∀ a k, ¬(a = asn ∧ k = core) → coreOf t a k = coreOf s a k
  only : Only [.ctxs] s t
  sems : ∀ a i, semCount t a i = semCount (match sigSem w with | some j => addSem s asn j 1 | none => s) a i

/-- What an instruction that issues leaves of its core: the next instruction is the next in order, and it stands last in flight with the
registers as it found them (R157); nothing but the core and its context's counts, traffic and the number of the flight differs. -/
structure InFlight (t : State) (e : Env) (w : Nat) (pr : Prep) (i : Issued) : Prop where
  self : ∃ f k, coreOf t e.c.asn e.core = some k ∧ k = Core.issue f i e.k ∧ f.id = e.s.nextId ∧ f.index = e.k.pc ∧ f.xs = e.k.x ∧
    f.word = BitVec.ofNat 128 w ∧ f.bufs = pr.bufs ∧ f.regs = pr.writes ∧ f.sem = sigSem w ∧ f.started = false
  others : ∀ a q, ¬(a = e.c.asn ∧ q = e.core) → coreOf t a q = coreOf e.s a q
  mem : t.mem = e.s.mem ∧ t.poison = e.s.poison ∧ t.cells = e.s.cells
  only : Only [.ctxs, .ids, .traffic] e.s t
  next : t.nextId = e.s.nextId + 1

/-- What an instruction's work leaves, from the state `x.s` after its reads: the memories hold the plan's runs, the core the registers,
tables and CAS bit of the plan, its flight started, its context the plan's flags, and every other
core, the semaphores and descriptors and every part of the module but the named ones are as before. -/
structure Worked (t : State) (ops : UnitOps) (x : Env) (f : Flight) (p : Plan) : Prop where
  self : ∃ k, coreOf (putRuns x.s x.c.asn x.core (p.runs x)) x.c.asn x.core = some k ∧
    coreOf t x.c.asn x.core = some (p.onCore x
      (linesIn f.bufs (x.pagesRead f.bufs (fun y => ops.run y f.w) ++ runPages (p.runs x)))
      (p.taster.drop (8 - x.cluster.taster.length)) k)
  others : ∀ a q, ¬(a = x.c.asn ∧ q = x.core) → coreOf t a q = coreOf x.s a q
  ctx : ∃ c₁ c₂, ctxOf (putRuns x.s x.c.asn x.core (p.runs x)) x.c.asn = some c₁ ∧ ctxOf t x.c.asn = some c₂ ∧
    c₂.flags = c₁.flags ||| p.flags ∧ c₂.clusters.map (·.pool) = c₁.clusters.map (·.pool) ∧ c₂.sems = c₁.sems ∧
    c₂.desc = c₁.desc ∧ c₂.counters = c₁.counters ∧ c₂.set = c₁.set ∧ c₂.state = c₁.state
  mem : t.mem = (putRuns x.s x.c.asn x.core (p.runs x)).mem ∧ t.poison = (putRuns x.s x.c.asn x.core (p.runs x)).poison ∧
    t.cells = (putRuns x.s x.c.asn x.core (p.runs x)).cells ∧ t.dies = (putRuns x.s x.c.asn x.core (p.runs x)).dies
  only : Only (if p.taster = [] then [.dies, .moves, .ctxs, .mem, .ids, .traffic] else [.regs, .dies, .moves, .ctxs, .mem, .ids, .traffic])
    x.s t
  free : t.free = x.s.free + p.free + padsDrawn p.ews + b2n (mayStall f p)

/-- The state in which the started instructions of a core take tracker entries (R509). -/
def granted (t : State) (e : Env) : State :=
  notePeak (modCore t e.c.asn e.core (Core.grant (trackerRoom t e.die (e.c.cls == 0)))) e.die

/-- A unit row: whenever its core fetches a word of the row and the instruction issues, it takes its place in flight and whatever of the
core may start does; and where nothing is in flight before it, it starts at once and, where its work can be done, has its effect. -/
def UnitStarts (i : Instr) (ops : UnitOps) (s : State) (asn core : Nat) (e : Env) (w : Nat) : Prop :=
  ∀ e₁ pr n, Issues ops e e₁ w pr n →
    exec i s = .next (goCore asn core (placed ops e₁ w pr n)) ∧ InFlight (placed ops e₁ w pr n) e₁ w pr n ∧
    (e.k.flight = [] → ∃ x f, flightEnv (placed ops e₁ w pr n) asn core e₁.s.nextId = some (x, f) ∧ f.w = w ∧ x.k.x = e.k.x ∧
      ∀ x₁ p, Runs ops x x₁ f p → ∃ t, exec i s = .next (granted t x₁) ∧ Worked t ops x₁ f p)

/-- The row `c` completes whenever its core fetches a word of it. -/
def UnitCompletes (c : Nat → Nat → Instr) (op sub : Nat) : Prop :=
  ∀ s asn core e w, (c asn core).wf = true → Fetches s asn core e w → isRow op sub w = true →
    ∃ ops, unitOps w = some ops ∧ UnitStarts (c asn core) ops s asn core e w

/-! ### Host commands -/

/-- The host command `i` with header `h` starts at once (R628 to R631, R699): its queue is RUNNING, no command waits before it, it may
start, no PRIO queue goes ahead of it, and the boot state admits it. -/
structure Starts (s : State) (i : Instr) (h : CmdHdr) (code : Nat) : Prop where
  running : (getQ s h.queue).state = .running
  now : startsNow (fetchOne s h.queue) h.queue i = true
  admits : admitted s code = true

/-- The state a command that starts at once runs in: its entry is fetched and it is in progress. -/
def begun (s : State) (h : CmdHdr) (code : Nat) : State := beginCmd (fetchOne s h.queue) h code

/-- A command starts at once, in the state `b`. -/
structure Begins (s : State) (i : Instr) (h : CmdHdr) (code : Nat) (b : State) : Prop where
  starts : Starts s i h code
  state : b = begun s h code

end Sys2Proof.Machine
end

