-- ==== Sys2Proof/Certificates/Slice0/Obligations.lean ====
section
/-! DEFINITION. Certificates/Slice0/Obligations.lean: the statements for the provers: the machine and its frames, the instructions
of a core, the events of units and dies, contexts and jobs, the host commands, the registers, memory, links, codecs, power. -/

open Sys2Proof Sys2Proof.Machine

/-! ### The machine and its frames -/

/-- A step takes the command at the front of the queue and runs it with the queue's rest. -/
def Obligations.StepRunsFrontCommand : Prop :=
  ∀ (c : Instr) (rest : List Instr) (s : State),
    step { s with pending := c :: rest } = exec c { s with pending := rest }

/-- The state after reset is well-formed, and no command waits in it. -/
def Obligations.ResetMeetsInvariant : Prop := State.reset.Inv ∧ State.reset.pending = []

/-- Every step, of a command and of an idle block, keeps the invariant: canonical memories, the number of dies, ports, group slots
and codec units, a timebase of 64 bits. -/
def Obligations.StepKeepsInvariant : Prop := ∀ s t : State, s.Inv → step s = .next t → t.Inv

/-- A step takes exactly one command off the queue, the first one, and puts none into it; an idle step leaves it empty. -/
def Obligations.StepTakesOneCommand : Prop := ∀ s t : State, step s = .next t → t.pending = s.pending.tail

/-- Every command of the block runs in every state, and a term that names no command is refused as ill-formed. -/
def Obligations.EveryCommandRuns : Prop :=
  (∀ (i : Instr) (s : State), i.wf = true → ∃ t, exec i s = .next t) ∧
  ∀ (i : Instr) (s : State), i.wf = false → exec i s = .refused .illFormed

/-- The timebase (R91) counts one nanosecond in an idle step of a powered module whose reference clock runs, which is the model's
choice (notes/assumptions/19); nothing else moves it but a reset, which sets it to 0. -/
def Obligations.TimebaseMoves : Prop :=
  (∀ (i : Instr) (s t : State), exec i s = .next t → t.hub.timebase = s.hub.timebase ∨ t.hub.timebase = 0) ∧
  (∀ s t : State, s.pending = [] → s.hub.powered = true → s.hub.refLost = false → step s = .next t →
    t.hub.timebase = (s.hub.timebase + 1) % 2 ^ 64 ∨ t.hub.timebase = 0) ∧
  ∀ s t : State, s.pending = [] → s.hub.powered = false → step s = .next t → t = s

/-- The frame of every command: it leaves the queue and every part of the state that `Instr.parts` does not list for it. -/
def Obligations.CommandFrame : Prop := ∀ (i : Instr) (s t : State), exec i s = .next t → Only i.parts s t

/-! ### Instructions the sequencer executes -/

/-- A sequencer instruction changes its own core as its meaning says and, with SIG, one semaphore; it changes no other core, no other
semaphore and no other part of the module. The fetch before it changes nothing but the traffic and what an error in the cells of the word leaves. -/
def Obligations.SequencerEffect : Prop :=
  ∀ (s : State) (asn core : Nat) (e : Env) (w : Nat) (f : Core → Core), rowEnv s asn core = some e →
    Sequenced e.s (seqDone e w f) asn core e w f ∧ Only [.dies, .mem, .traffic] s e.s ∧ e.s.mem = s.mem ∧
      (s.cells = [] → Only [.traffic] s e.s)

/-- LOOP adds STEP to X[XC], compares the new X[XC] with X[XL] + LIMIT as signed numbers, and goes to TARGET or falls through; a taken
TARGET beyond the program stops the job with BOUNDS (R178). -/
def Obligations.LoopBranches : Prop :=
  ∀ (s : State) (asn core : Nat) (e : Env) (w : Nat),
    (Instr.loop asn core).wf = true → Fetches s asn core e w → isRow 0x02 0 w = true →
    SeqFree e w [(63, 56), (127, 112)] [bits w 35 32, bits w 39 36] [bits w 35 32] →
    let xc := bits w 35 32
    let target := bits w 111 96
    let v := e.k.xr xc + BitVec.ofInt 32 (signed 16 (bits w 55 40))
    let k := e.k.setX xc v
    let below := (k.xr xc).toInt < (k.xr (bits w 39 36) + BitVec.ofNat 32 (bits w 95 64)).toInt
    (¬below → exec (.loop asn core) s = .next (seqDone e w fun c => (c.setX xc v).next)) ∧
    (below → target < e.j.len → exec (.loop asn core) s = .next (seqDone e w fun c => { c.setX xc v with pc := target })) ∧
    (below → e.j.len ≤ target → exec (.loop asn core) s = .next (stopJob e.s asn .bounds core e.k.pc))

/-- BRANCH jumps exactly where the condition its SUBOP selects holds, and changes no register; a taken TARGET beyond the program
stops the job with BOUNDS (R178). -/
def Obligations.BranchJumps : Prop :=
  ∀ (s : State) (asn core : Nat) (e : Env) (w : Nat),
    (Instr.branch asn core).wf = true → Fetches s asn core e w → opOf w = 0x03 →
    SeqFree e w [(63, 40), (127, 112)] [bits w 35 32, bits w 39 36] [] →
    (5 ≤ subOf w → ∀ f ∈ e.k.flight, f.cas = false) →
    let a := e.k.xr (bits w 35 32)
    let b := e.k.xr (bits w 39 36) + BitVec.ofNat 32 (bits w 95 64)
    let target := bits w 111 96
    let holds := subOf w = 0 ∨ (subOf w = 1 ∧ a = b) ∨ (subOf w = 2 ∧ a ≠ b) ∨ (subOf w = 3 ∧ a.toInt < b.toInt) ∨
      (subOf w = 4 ∧ b.toInt ≤ a.toInt) ∨ (subOf w = 5 ∧ e.k.casOk = some true) ∨ (subOf w = 6 ∧ e.k.casOk ≠ some true)
    (¬holds → exec (.branch asn core) s = .next (seqDone e w fun c => { c with pc := c.pc + 1 })) ∧
    (holds → target < e.j.len → exec (.branch asn core) s = .next (seqDone e w fun c => { c with pc := target })) ∧
    (holds → e.j.len ≤ target → exec (.branch asn core) s = .next (stopJob e.s asn .bounds core e.k.pc))

/-- The scalar form of VEC writes X[XD] = X[XA] op (X[XB] + IMM) for each operation of its table, and nothing for X0; a reserved
operation stops the job with FORMAT_UNSUPPORTED. -/
def Obligations.ScalarComputes : Prop :=
  ∀ (s : State) (asn core : Nat) (e : Env) (w : Nat),
    (Instr.vecScalar asn core).wf = true → Fetches s asn core e w → isRow 0x25 15 w = true →
    SeqFree e w [(63, 48), (127, 96)] [bits w 39 36, bits w 43 40] [bits w 35 32] →
    let a := e.k.xr (bits w 39 36)
    let b := e.k.xr (bits w 43 40) + BitVec.ofNat 32 (bits w 95 64)
    let gives := fun (op : Nat) (v : Word) => bits w 47 44 = op →
      exec (.vecScalar asn core) s = .next (seqDone e w fun c => (c.setX (bits w 35 32) v).next)
    gives 0 (a + b) ∧ gives 1 (a - b) ∧ gives 2 (a * b) ∧ gives 3 (if a.toInt ≤ b.toInt then a else b) ∧
    gives 4 (if a.toInt ≤ b.toInt then b else a) ∧ gives 5 (a <<< (b.toNat % 32)) ∧ gives 6 (a >>> (b.toNat % 32)) ∧
    gives 7 (a &&& b) ∧ gives 8 (a ||| b) ∧ gives 9 (a ^^^ b) ∧
    (10 ≤ bits w 47 44 → exec (.vecScalar asn core) s = .next (stopJob e.s asn .formatUnsupported core e.k.pc))

/-- Writing a scalar register: X0 discards the write and reads 0; any other of the 16 registers reads what was written, and no other
register changes (R153). -/
def Obligations.ScalarRegisters : Prop :=
  ∀ (k : Core) (i : Nat) (v : Word), k.x.length = 16 →
    (i = 0 → (k.setX i v).x = k.x) ∧ (k.setX i v).xr 0 = 0#32 ∧
    (0 < i → i < 16 → (k.setX i v).xr i = v) ∧ ∀ j, j ≠ i → (k.setX i v).xr j = k.xr j

/-- END: the core is done and counts as parked; it issues nothing more. -/
def Obligations.EndFinishesCore : Prop :=
  ∀ (s : State) (asn core : Nat) (e : Env) (w : Nat),
    (Instr.endProg asn core).wf = true → Fetches s asn core e w → isRow 0x01 0 w = true → SeqFree e w [(127, 32)] [] [] →
    ∃ t, exec (.endProg asn core) s = .next t ∧ coreOf t asn core = some { e.k with run := .ended } ∧
      (∀ a k, ¬(a = asn ∧ k = core) → coreOf t a k = coreOf s a k) ∧ Only [.ctxs] e.s t

/-- FENCE, STINT, SIGNAL and TRIG wait until nothing of the core is in flight; then each completes: FENCE with no other effect, STINT
restarts the stint timer and parks the core where pre-emption is pending, SIGNAL adds N to its semaphore, and TRIG adds N to its
trellis counter. A SIGNAL of a semaphore that is gone and a TRIG of a counter number of 256 or more stop the job. -/
def Obligations.OrderingRowsComplete : Prop :=
  ∀ (s : State) (asn core : Nat) (e : Env) (w : Nat), Fetches s asn core e w →
    (opOf w = 0x06 → zeros w [(127, 32)] = true → (Instr.fence asn core).wf = true →
      (e.k.flight ≠ [] → exec (.fence asn core) s = .next s) ∧
      (e.k.flight = [] → exec (.fence asn core) s = .next (seqDone e w fun c => { c with pc := c.pc + 1 }))) ∧
    (isRow 0x08 0 w = true → zeros w [(127, 32)] = true → (Instr.stint asn core).wf = true →
      (e.k.flight ≠ [] → exec (.stint asn core) s = .next s) ∧
      (e.k.flight = [] → e.c.leaving = false →
        exec (.stint asn core) s = .next (seqDone e w fun c => { c with pc := c.pc + 1, stintNs := 0 })) ∧
      (e.k.flight = [] → e.c.leaving = true → exec (.stint asn core) s =
        .next (notePark (seqDone e w fun c => { c with pc := c.pc + 1, stintNs := 0, run := .parked }) asn core))) ∧
    (isRow 0x05 0 w = true → zeros w [(47, 40), (127, 64)] = true → (Instr.signal asn core).wf = true →
      (e.k.flight ≠ [] → exec (.signal asn core) s = .next s) ∧
      (e.k.flight = [] → ∀ x, semTarget e.c (bits w 39 32) = some x → exec (.signal asn core) s =
        .next (addSem (seqDone e w fun c => { c with pc := c.pc + 1 }) asn (bits w 39 32) (bits w 63 48))) ∧
      (e.k.flight = [] → semTarget e.c (bits w 39 32) = none →
        exec (.signal asn core) s = .next (stopJob e.s asn .stateIllegal core e.k.pc))) ∧
    (isRow 0x07 0 w = true → zeros w [(127, 64)] = true → (Instr.trig asn core).wf = true →
      (e.k.flight ≠ [] → exec (.trig asn core) s = .next s) ∧
      (e.k.flight = [] → bits w 47 32 < 256 → exec (.trig asn core) s =
        .next (addCounter (seqDone e w fun c => { c with pc := c.pc + 1 }) asn (bits w 47 32) (bits w 63 48))) ∧
      (e.k.flight = [] → 256 ≤ bits w 47 32 → exec (.trig asn core) s = .next (stopJob e.s asn .bounds core e.k.pc)))

/-- A semaphore add through an alias or not: the count grows by n and stays at 2^32 − 1; no other semaphore changes. -/
def Obligations.SemaphoreAddSaturates : Prop :=
  ∀ (s : State) (asn i n a j : Nat) (c o : Ctx), ctxOf s asn = some c → semTarget c i = some (a, j) → ctxOf s a = some o →
    j < o.sems.length →
    semCount (addSem s asn i n) asn i = min (semCount s asn i + n) (2 ^ 32 - 1) ∧
    ∀ b l d x, ctxOf s b = some d → semTarget d l = some x → x ≠ (a, j) → semCount (addSem s asn i n) b l = semCount s b l

/-- WAIT with N = 0 never blocks; with a count of at least N and nobody queued before it the core goes on, and with CONSUME the
semaphore is left with N less, taken before the instruction's own SIG adds 1, with PEEK as it was; else the core blocks behind the
waiters that came before it. A WAIT on a semaphore that is gone stops the job. -/
def Obligations.WaitTakesItsCount : Prop :=
  ∀ (s : State) (asn core : Nat) (e : Env) (w : Nat), Fetches s asn core e w → SeqFree e w [(47, 40), (127, 64)] [] [] →
    let sem := bits w 39 32
    let n := bits w 63 48
    let goOn := fun (u : State) => seqDone { e with s := u } w fun c => { c with pc := c.pc + 1 }
    (isRow 0x04 0 w = true → (Instr.waitConsume asn core).wf = true →
      (∀ oa oi o, semTarget e.c sem = some (oa, oi) → ctxOf e.s oa = some o →
        let free := ∀ x ∈ o.waiters, x.sem ≠ oi
        (n = 0 → exec (.waitConsume asn core) s = .next (goOn e.s)) ∧
        (0 < n → n ≤ semCount e.s asn sem → free → exec (.waitConsume asn core) s = .next (goOn (takeSem e.s asn sem n))) ∧
        (0 < n → ¬(n ≤ semCount e.s asn sem ∧ free) → exec (.waitConsume asn core) s = .next (block e sem n true oa oi))) ∧
      (semTarget e.c sem = none → exec (.waitConsume asn core) s = .next (stopJob e.s asn .stateIllegal core e.k.pc))) ∧
    (isRow 0x04 1 w = true → (Instr.waitPeek asn core).wf = true →
      (∀ oa oi o, semTarget e.c sem = some (oa, oi) → ctxOf e.s oa = some o →
        let free := ∀ x ∈ o.waiters, x.sem ≠ oi
        (n = 0 ∨ n ≤ semCount e.s asn sem ∧ free → exec (.waitPeek asn core) s = .next (goOn e.s)) ∧
        (0 < n → ¬(n ≤ semCount e.s asn sem ∧ free) → exec (.waitPeek asn core) s = .next (block e sem n false oa oi))) ∧
      (semTarget e.c sem = none → exec (.waitPeek asn core) s = .next (stopJob e.s asn .stateIllegal core e.k.pc)))

/-- A blocked core waits at its WAIT behind the earlier waiters of the semaphore, and no semaphore changes. -/
def Obligations.BlockQueuesWaiter : Prop :=
  ∀ (s : State) (asn core : Nat) (e : Env) (sem n oa oi : Nat) (consume : Bool) (o : Ctx),
    envOf s asn core .running = some e → ctxOf s oa = some o →
    let t := block e sem n consume oa oi
    coreOf t asn core = some { e.k with run := .waiting sem n consume } ∧
    (ctxOf t oa).map (·.waiters) =
      some (o.waiters ++ [{ sem := oi, asn := asn, core := core, n := n, consume := consume }]) ∧
    (∀ a k, ¬(a = asn ∧ k = core) → coreOf t a k = coreOf s a k) ∧ (∀ a i, semCount t a i = semCount s a i) ∧ Only [.ctxs] s t

/-- The oldest waiter of a semaphore whose count is met is served: it leaves the queue, takes its N where it consumes, and its core
goes on at the next instruction; a SIG of the WAIT then adds its 1 (`u` is the state before it). -/
def Obligations.WaiterIsServed : Prop :=
  ∀ (s : State) (asn sem : Nat) (o c : Ctx) (x : Waiter) (k : Core), (Instr.waitSatisfied asn sem).wf = true →
    ctxOf s asn = some o → (o.waiters.find? fun x => x.sem == sem) = some x → ctxOf s x.asn = some c →
    coreOf s x.asn x.core = some k → x.n ≤ o.sems.getD sem 0 → c.seatedNow = true →
    ∃ u t, exec (.waitSatisfied asn sem) s = .next t ∧ coreOf t x.asn x.core = some { k with run := .running, pc := k.pc + 1 } ∧
      (ctxOf t asn).map (·.waiters) = some (o.waiters.erase x) ∧
      (ctxOf u asn).map (·.sems) = some (if x.consume then modAt o.sems sem fun v => v - x.n else o.sems) ∧
      (∀ a, a ≠ asn → ctxOf u a = ctxOf s a) ∧
      (∀ a i, semCount t a i = semCount (match sigSem (wordAt s c k) with | some j => addSem u x.asn j 1 | none => u) a i) ∧
      (∀ a q, ¬(a = x.asn ∧ q = x.core) → coreOf t a q = coreOf s a q) ∧ Only [.ctxs] s t

/-- An instruction in flight that has started, waits for no other party and no verdict and holds the tracker entries it wants
completes: what may start of its core does first (`u`), the errors corrected meanwhile in the state of its die and of the hub are counted (R723), it leaves the
in-flight list, what waited for it starts, and its semaphore gains 1 (R157, R198); an error that could not be corrected faults the die
and nothing completes. -/
def Obligations.InstructionCompletes : Prop :=
  ∀ (s : State) (asn core : Nat) (errs : Completion) (c c' : Ctx) (k : Core) (f : Flight),
    (Instr.instructionComplete asn core errs).wf = true → ctxOf s asn = some c → c.seatedNow = true →
    let u := goCore asn core s
    ctxOf u asn = some c' → coreOf u asn core = some k → (k.flight.find? fun f => f.id == errs.id) = some f →
    f.started = true → f.wait = .none → f.verdicts = 0 → (f.want = 0 ∨ 0 < f.entries) →
    let d := c'.dieOfCore core
    let v := onDieErrors u d errs
    let left := modCore v asn core (Core.finish errs.id)
    (errs.uncorrected = true → exec (.instructionComplete asn core errs) s =
      .next (dieFault v d .stateUncorrectable true (some asn) (some core) (some f.index))) ∧
    (errs.uncorrected = false → exec (.instructionComplete asn core errs) s =
      .next (match f.sem with | some j => addSem (goCore asn core left) asn j 1 | none => goCore asn core left)) ∧
    (d < u.dies.length → (getDie v d).corr = min ((getDie u d).corr + errs.corrected) (2 ^ 32 - 1)) ∧
    v.rel = { u.rel with corrHub := min (u.rel.corrHub + errs.hub) (2 ^ 32 - 1) } ∧ v.flash = u.flash ∧ Only [.dies, .store] u v ∧
    coreOf left asn core = some (Core.finish errs.id k) ∧ (Core.finish errs.id k).flight.map (·.id) = (k.flight.map (·.id)).erase errs.id ∧
    (∀ a q, ¬(a = asn ∧ q = core) → coreOf left a q = coreOf u a q) ∧ (∀ a i, semCount left a i = semCount u a i) ∧
    Only [.ctxs] v left

/-- DECANT that passes its checks (R470): with fewer than 8 decants of the ASN in progress it joins the engine's queue and its core
goes on; with 8 the core waits, and DECANT_ACCEPTED lets it in once there are fewer (R475). -/
def Obligations.DecantIsAccepted : Prop :=
  ∀ (s : State) (asn core : Nat) (e : Env) (w : Nat) (runs : List CopyRun), headerOk w = true → fetchWord e = .ok w →
    sigOf w = true → zeros w [(127, 56)] = true →
    mustWait e.k w { bufs := decantBufs e w, reads := sels [bits w 51 48, bits w 55 52], writes := [] } = false →
    (if subOf w = 0 then decantVirtual e w else decantHost e w) = .ok runs →
    let few := (s.decants.filter fun d => d.asn == asn).length < 8
    let accepted := fun (i : Instr) => ∃ t, exec i s = .next t ∧
      t.decants = s.decants ++ [{ id := s.nextId, asn := asn, core := core, index := e.k.pc, sem := semOf w
                                  window := if subOf w = 1 then some (bits w 39 32) else none, runs := runs
                                  into := runs.map fun r => (r.dst, r.bytes) }] ∧
      coreOf t asn core = some { e.k with pc := e.k.pc + 1, run := .running } ∧
      (∀ a k, ¬(a = asn ∧ k = core) → coreOf t a k = coreOf s a k) ∧ Only [.ctxs, .moves, .ids] e.s t
    let waits := fun (i : Instr) => ∃ t, exec i s = .next t ∧ coreOf t asn core = some { e.k with run := .decantWait } ∧
      (∀ a k, ¬(a = asn ∧ k = core) → coreOf t a k = coreOf s a k) ∧ Only [.ctxs] e.s t
    (rowEnv s asn core = some e → isRow 0x12 0 w = true → (Instr.decantFromVirtual asn core).wf = true →
      (few → accepted (.decantFromVirtual asn core)) ∧ (¬few → waits (.decantFromVirtual asn core))) ∧
    (rowEnv s asn core = some e → isRow 0x12 1 w = true → (Instr.decantFromHost asn core).wf = true →
      (few → accepted (.decantFromHost asn core)) ∧ (¬few → waits (.decantFromHost asn core))) ∧
    (∀ e₀, envOf s asn core .decantWait = some e₀ → e = e₀.fetched → opOf w = 0x12 →
      (Instr.decantAccepted asn core).wf = true →
      (few → accepted (.decantAccepted asn core)) ∧ (¬few → exec (.decantAccepted asn core) s = .next s))

/-! ### Instructions of the units -/

/-- LOAD and STORE, the atomics and the collation of LEES complete: each that issues takes its place in flight, and where nothing is in
flight before it, it starts at once and its work is done: its writes are made, nothing else changes. -/
def Obligations.CopiesComplete : Prop :=
  UnitCompletes .loadCopy 0x10 0 ∧ UnitCompletes .loadXreg 0x10 1 ∧ UnitCompletes .storeCopy 0x11 0 ∧
  UnitCompletes .storeAddInt32 0x11 1 ∧ UnitCompletes .storeMinInt32 0x11 2 ∧ UnitCompletes .storeMaxInt32 0x11 3 ∧
  UnitCompletes .storeCas 0x11 4 ∧ UnitCompletes .storeAddFloat 0x11 5 ∧ UnitCompletes .storeOrdered 0x11 6 ∧
  UnitCompletes .storeAddInt64 0x11 7 ∧ UnitCompletes .leesCheck 0x13 0

/-- The fold, vector, function and blend instructions complete, likewise. FUNC APPLY issues where no change of the vintage mode holds
it; else its core waits. -/
def Obligations.VectorsComplete : Prop :=
  UnitCompletes .foldStats 0x24 0 ∧ UnitCompletes .foldMerge 0x24 1 ∧ UnitCompletes .foldNorm 0x24 2 ∧
  UnitCompletes .vecEw 0x25 0 ∧ UnitCompletes .vecRowb 0x25 1 ∧ UnitCompletes .vecColb 0x25 2 ∧ UnitCompletes .vecReduce 0x25 3 ∧
  UnitCompletes .funcReload 0x26 1 ∧ UnitCompletes .blendRun 0x27 0 ∧ UnitCompletes .blendLoad 0x27 1 ∧
  ∀ s asn core e w, (Instr.funcApply asn core).wf = true → Fetches s asn core e w → isRow 0x26 0 w = true →
    (epochHolds e false = false → ∃ ops, unitOps w = some ops ∧ UnitStarts (.funcApply asn core) ops s asn core e w) ∧
    (epochHolds e false = true →
      exec (.funcApply asn core) s = .next (modCore e.s asn core fun k => { k with run := .epochHold }))

/-- Convolution, pooling and attention complete, likewise: CONV; POOL MAX, AVG and NEAREST; ATTN WINDOW, CROSS and PIECE. While a PIECE
of a core waits for keys that have not landed, the core issues nothing (R277, R278). -/
def Obligations.ConvolutionAndAttentionComplete : Prop :=
  UnitCompletes .convolve 0x22 0 ∧ UnitCompletes .poolMax 0x23 0 ∧ UnitCompletes .poolAvg 0x23 1 ∧ UnitCompletes .poolNearest 0x23 2 ∧
  UnitCompletes .attnWindow 0x21 0 ∧ UnitCompletes .attnCross 0x21 1 ∧ UnitCompletes .attnPiece 0x21 2 ∧
  ∀ s asn core k f pc, coreOf s asn core = some k → f ∈ k.flight → f.wait = .piece pc → rowEnv s asn core = none

/-- PROD completes, likewise, where no change of the taster policy holds it, else its core waits; and PREC_SAMPLED of its slot counts
the tiles that the taster samples (R408). -/
def Obligations.ProductCompletes : Prop :=
  ∀ s asn core e w, (Instr.matProd asn core).wf = true → Fetches s asn core e w → isRow 0x20 0 w = true →
    ((e.window.isSome && epochHolds e true) = false → ∃ ops, unitOps w = some ops ∧ UnitStarts (.matProd asn core) ops s asn core e w ∧
      ∀ e₁ pr n x f x₁ p t, Issues ops e e₁ w pr n → e.k.flight = [] →
        flightEnv (placed ops e₁ w pr n) asn core e₁.s.nextId = some (x, f) → Runs ops x x₁ f p → exec (.matProd asn core) s = .next t →
        p.taster ≠ [] → getReg t (x₁.prec + 0x80) =
          BitVec.ofNat 32 (min ((getReg s (x₁.prec + 0x80)).toNat + p.taster.length) (2 ^ 32 - 1))) ∧
    ((e.window.isSome && epochHolds e true) = true →
      exec (.matProd asn core) s = .next (modCore e.s asn core fun k => { k with run := .epochHold }))

/-- The integer atomics (R143, R145): element by element in row-major order, a target receives old + source modulo 2^32, the signed
minimum or the signed maximum, where old is what the elements before it left there. -/
def Obligations.IntegerAtomicValues : Prop :=
  ∀ (op : Word → Word → Word) (e : Env) (w : Nat) (a b : Desc) (oa ob : Opnd) (p : Plan),
    slotDesc e (bits w 39 32) = .ok a → slotDesc e (bits w 47 40) = .ok b → lsPair e w a b = .ok (oa, ob) →
    int32Run op e w = .ok p → p.ews.length = (allIdx oa.dims).length ∧ p.flags = 0 ∧ p.regs = [] ∧
    ∀ i ix, (allIdx oa.dims)[i]? = some ix → ∃ x y, rdPattern e oa ix = .ok x ∧ nowAfter e ob ix (p.ews.take i) = .ok y ∧
      p.ews[i]? = some { space := ob.d.space, addr := ob.bitAddr ix, w := ob.d.fmt.width
                         v := (op (BitVec.ofNat 32 y) (BitVec.ofNat 32 x)).toNat }

/-- CAS (R144, R793): where the target's first element equals X[XIDX] it becomes X[XSTEP] and the core's CAS bit is success; else
nothing is written and the bit is failure. No scalar register changes. -/
def Obligations.CompareAndSwap : Prop :=
  ∀ (e : Env) (w : Nat) (b : Desc) (p : Plan) (y : Nat), slotDesc e (bits w 47 40) = .ok b → casRun e w = .ok p →
    nowPattern e (b.opnd (e.xn (fXod w))) [0, 0, 0, 0] = .ok y →
    p.regs = [] ∧ p.flags = 0 ∧
    (y = e.xn (fXidx w) → p.casOk = some true ∧ p.ews.map (fun x => (x.space, x.addr, x.v)) =
      [(b.space, (b.opnd (e.xn (fXod w))).bitAddr [0, 0, 0, 0], e.xn (fXstep w))]) ∧
    (y ≠ e.xn (fXidx w) → p.casOk = some false ∧ p.ews = [])

/-- LOAD XREG: registers X[n] to X[n + 3] take the four words of the 16 bytes at the source (R170), and nothing is written. -/
def Obligations.LoadRegisters : Prop :=
  ∀ (e : Env) (w : Nat) (a : Desc) (p : Plan) (src : Bytes), slotDesc e (bits w 39 32) = .ok a → xregRun e w = .ok p →
    rdMain e a (a.base + (a.byteOff (e.xn (fXos w))).1) 16 = .ok src →
    p.ews = [] ∧ p.regs = [(bits w 43 40, BitVec.ofNat 32 (field src 0 4)), (bits w 43 40 + 1, BitVec.ofNat 32 (field src 4 4)),
      (bits w 43 40 + 2, BitVec.ofNat 32 (field src 8 4)), (bits w 43 40 + 3, BitVec.ofNat 32 (field src 12 4))]

/-! ### Events of units, dies and jobs -/

/-- The taster's verdict on the oldest sampled tile of a cluster, whose writes may leave: the tile leaves the queue, whose free place takes
the next sampled tile that waits for one, and its instruction waits for one verdict less; then what waits on the cluster's cores may
start. A tile within its bound writes nothing and raises the flags of its own result; one beyond it counts in PREC_ESCALATED and the
result of the first wider width that passes is written. Where the taster works on core 15 and finds no boundary with that core's
engines free, or the tile's core holds a write, nothing happens (R399, R461); a page that cannot take a write halts the core. -/
def Obligations.VerdictsComplete : Prop :=
  ∀ (s : State) (asn cl : Nat) (c : Ctx) (q : Cluster) (t : TasterTile) (l : List TasterTile),
    (Instr.tasterVerdict asn cl).wf = true → ctxOf s asn = some c → c.clusters[cl]? = some q → q.taster = t :: l →
    (c.seatedNow = false ∨ canTaste s c cl = false → exec (.tasterVerdict asn cl) s = .next s) ∧
    (∀ e f, c.seatedNow = true → canTaste s c cl = true → flightEnv s asn t.core t.flight = some (e, f) →
      let base := precBase (c.dieOfCore t.core) ((c.slots.getD (c.dieOfCore t.core) none).getD 0)
      let fail := tasteFails t.bound t.y t.r
      let pass8 := t.width == 4 && !tasteFails t.bound t.y8 t.r
      let writes := if fail then rawWrites (if pass8 then t.writes8 else t.writesR) else []
      let flags := if fail then (if pass8 then t.flags8 else t.flagsR) else t.flagsY
      let less := fun (f : Flight) => (f.id, if f.id = t.flight then f.verdicts - 1 else f.verdicts)
      (e.k.hold ≠ none → exec (.tasterVerdict asn cl) s = .next s) ∧
      (∀ h, e.k.hold = none → checkPages e (runPages writes) = .error h → exec (.tasterVerdict asn cl) s = .next (haltCore e h)) ∧
      (e.k.hold = none → checkPages e (runPages writes) = .ok () →
        ∃ u, exec (.tasterVerdict asn cl) s = .next ((List.range 16).foldl (fun s i => goCore asn (16 * cl + i) s) u) ∧
          (∃ more, ((ctxOf u asn).bind fun d => d.clusters[cl]?).map (·.taster) = some (l ++ more) ∧
            ((∀ k ∈ c.cores, ∀ f ∈ k.flight, f.sampled = []) → more = []) ∧ more.length ≤ 1) ∧
          (ctxOf u asn).map (·.flags) = some (c.flags ||| flags) ∧
          (coreOf u asn t.core).map (fun k => k.flight.map fun f => (f.id, f.verdicts)) =
            (coreOf s asn t.core).map (fun k => k.flight.map less) ∧
          u.mem = (putRuns s asn t.core writes).mem ∧ (fail = false → Only [.ctxs] s u) ∧
          (fail = true → getReg u (base + 0x84) = BitVec.ofNat 32 (min ((getReg s (base + 0x84)).toNat + 1) (2 ^ 32 - 1)))))

/-- A promotion that is one of the four its port runs (R460) ends: the page is near, its bytes are those of the cellar page, and every
core that held a write for it holds it no more (`t`), so that what waits on the context's cores goes on. One that is not waits. -/
def Obligations.PromotionCompletes : Prop :=
  ∀ (s : State) (asn vpn : Nat) (p : Promotion) (g : Page), (Instr.promotionDone asn vpn).wf = true →
    (s.promotions.find? fun p => p.asn == asn && p.vpn == vpn) = some p → pageOf s asn vpn = some g → isNear g.ppn = false →
    (isRunning s p = false → exec (.promotionDone asn vpn) s = .next (goCtx s asn)) ∧
    (isRunning s p = true → ∃ t, exec (.promotionDone asn vpn) s = .next (goCtx t asn) ∧ t.promotions = s.promotions.erase p ∧
      pageOf t asn vpn = some { g with ppn := p.dst } ∧ t.mem = s.mem.copy (g.ppn * pageBytes) (p.dst * pageBytes) pageBytes ∧
      (∀ a k, coreOf t a k = (coreOf s a k).map fun x => if a = asn ∧ x.holds vpn = true then { x with hold := none } else x) ∧
      Only [.regs, .dies, .pages, .mem, .ctxs, .traffic] s t)

/-- A PIECE whose landing counts are reached runs its key steps up to the next that has not landed; an ordered contribution whose turn
has come is applied from its source as it now reads, and its track moves on; then what waits on the core goes on. A page of a decant is
copied, and the last one signals its fence. -/
def Obligations.WaitingWorkCompletes : Prop :=
  (∀ (s : State) (asn core id : Nat) (pc : Piece) (e e₁ : Env) (f : Flight) (p : Plan),
    (Instr.pieceLandingReady asn core id).wf = true → flightEnv s asn core id = some (e, f) → f.wait = .piece pc → e.k.hold = none →
    let ops : UnitOps := ⟨attnPrep, attnCheck, pieceRun pc⟩
    Runs ops e e₁ f p →
    ∃ t, exec (.pieceLandingReady asn core id) s = .next (goCore asn core t) ∧ Worked t ops e₁ f p) ∧
  (∀ (s : State) (asn core id lo len fm cnt idx : Nat) (e e₁ : Env) (f : Flight) (p : Plan), (Instr.orderedTurn asn core id).wf = true →
    flightEnv s asn core id = some (e, f) → f.wait = .ordered lo len fm cnt idx →
    (e.cluster.tracks.any fun t => t.lo == lo && t.len == len && t.fmt == fm && t.cnt == cnt && t.next == idx) = true →
    let ops : UnitOps := ⟨floatAddPrep true, plainCheck orderedWait, orderedNow (idx == 0)⟩
    Runs ops e e₁ f p →
    ∃ t, Worked t ops e₁ f p ∧ exec (.orderedTurn asn core id) s =
      .next (goCore asn core (modCtx t asn fun c => advanceTrack c (core / 16) lo cnt idx))) ∧
  (∀ (s : State) (id : Nat) (host : HostRead) (d : Decant) (r : CopyRun) (l : List CopyRun),
    (Instr.decantPageDone id host).wf = true → (s.decants.find? fun d => d.id == id) = some d → s.hub.boot = .ready →
    nextDecant s = some d → d.runs = r :: l → agentWritable s d.asn (r.dst / pageBytes) = true →
    let n := runStep d.window r
    let left := if n = r.bytes then l else { r with src := r.src + n, dst := r.dst + n, bytes := r.bytes - n } :: l
    let rest := fun (u : State) => { u with decants := u.decants.map fun x => if x = d then { d with runs := left } else x }
    let fin := fun (u : State) => if left.isEmpty then endDecant (rest u) { d with runs := left } else rest u
    (d.window = none → agentReadable s d.asn (r.src / pageBytes) = true →
      exec (.decantPageDone id host) s = .next (fin (copyVirt s d.asn r.src r.dst n))) ∧
    (∀ w b, d.window = some w → host = .data b → n ≤ b.length →
      exec (.decantPageDone id host) s = .next (fin (agentWrite s d.asn r.dst (b.take n)))))

/-- A job fault on a die (R214): the die is RESETTING and no resident context has a cluster on it any more. A stint overrun faults
the die of its core, a hang its die. -/
def Obligations.DieFaultsComplete : Prop :=
  (∀ (s : State) (d : Nat) (code : FaultCode) (onDie : Bool) (asn core index : Option Nat), d < 4 → s.dies.length = 4 →
    (getDie (dieFault s d code onDie asn core index) d).state = .resetting ∧
    ((getDie s d).state ≠ .resetting →
      ∀ c ∈ (dieFault s d code onDie asn core index).ctxs, c.resident = true → d ∉ c.dies)) ∧
  (∀ (s : State) (asn core : Nat) (c : Ctx) (k : Core), (Instr.stintOverrun asn core).wf = true → ctxOf s asn = some c →
    coreOf s asn core = some k → c.job.isSome = true → c.seatedNow = true → overrunNs s c core < k.stintNs →
    exec (.stintOverrun asn core) s =
      .next (dieFault s (c.dieOfCore core) .stintOverrun false (some asn) (some core) (some k.pc))) ∧
  (∀ (s : State) (d : Nat), (Instr.fabricHang d).wf = true → (dieIs s d .online = true ∨ dieIs s d .draining = true) →
    (getDie s d).screen.state = .idle →
    exec (.fabricHang d) s = .next (dieFault s d .fabricHang true none none none))

/-- A die's reset goes through its stages: the logic's power-on reset, then built-in test, after which a die that faulted is ONLINE
exactly where it is not flagged, else OFFLINE; with fewer than four healthy regulators every ONLINE die is then drained with HOLD
(R764). At wake the repair map is applied without a test (R729). -/
def Obligations.DieResetsComplete : Prop :=
  ∀ (s : State) (d : Nat), d < 4 → s.dies.length = 4 → (getDie s d).state = .resetting →
    ((Instr.dieLogicResetDone d).wf = true → (getDie s d).stage = 1 →
      (((getDie s d).goal = .fault ∨ ∃ h, (getDie s d).goal = .restore h ∨ (getDie s d).goal = .repair h) →
        exec (.dieLogicResetDone d) s = .next (modDie s d fun y => { y with stage := 2 })) ∧
      ((getDie s d).goal = .wake →
        exec (.dieLogicResetDone d) s = .next (modDie (applyMap s d []) d fun y => { y with stage := 3 }))) ∧
    (∀ findings, (Instr.builtInTestDone d findings).wf = true → (getDie s d).stage = 2 → (getDie s d).goal = .fault →
      ∃ t, exec (.builtInTestDone d findings) s =
          .next (if healthyVrms s < 4 then [0, 1, 2, 3].foldl (fun s e => drainHold s e 0) t else t) ∧
        (getDie t d).stage = 0 ∧ (getDie t d).goal = .none ∧
        ((getDie t d).state = .online ↔ (getDie t d).flag = 0) ∧
        ((getDie t d).state = .online ∨ (getDie t d).state = .offline)) ∧
    (∀ findings, (Instr.builtInTestDone d findings).wf = true → (getDie s d).stage = 2 →
      exec (.builtInTestDone d findings) s = .next (finishReset (applyMap s d findings) d))

/-- A job starts with flags, semaphores and trellis counters at 0, and each core at its first instruction with its start registers (R153)
(`resetSets` then resets its version sets, R438); it ends when every core has executed END and nothing is in flight. JOB_END stops the
job of a SEATED context at the next boundary, and ends any other at once. -/
def Obligations.JobsComplete : Prop :=
  (∀ (s b : State) (h : CmdHdr) (asn p rank len va seed : Nat) (c : Ctx) (armed : List Armed),
    (Instr.jobLaunch h asn p rank len va seed).wf = true → Begins s (.jobLaunch h asn p rank len va seed) h 0x0020 b → 0 < p → rank < p → 0 < len → len ≤ 65536 →
    va % 64 = 0 → ctxOf b asn = some c → c.state ≠ .corked → c.job = none → precAgree b c = true →
    trellisLaunch (readTrellis b c) c = .ok armed →
    ∃ t d, exec (.jobLaunch h asn p rank len va seed) s = .next (resetSets t asn) ∧ ctxOf t asn = some d ∧ d.flags = 0 ∧
      d.sems = List.replicate 256 0 ∧ d.counters = List.replicate 256 0 ∧ d.armed = armed ∧ d.desc = c.desc ∧ d.sets = c.sets ∧
      (∃ j, d.job = some j ∧ j.p = p ∧ j.rank = rank ∧ j.len = len ∧ j.progVA = va ∧ j.seed = seed ∧ j.fate = .running) ∧
      (∀ (i : Nat) (k : Core), c.cores[i]? = some k → d.cores[i]? = some (k.start (startRegs i c.cores.length p rank)))) ∧
  (∀ (s : State) (h : CmdHdr) (asn : Nat) (c : Ctx), (Instr.jobEnd h asn).wf = true → Starts s (.jobEnd h asn) h 0x0021 →
    ctxOf s asn = some c → c.job.isSome = true →
    let u := modCtx (endTransfers (begun s h 0x0021) asn) asn fun c =>
      { c with job := c.job.map fun j => { j with endCmd := j.endCmd ++ [h] } }
    exec (.jobEnd h asn) s = .next (if c.state = .seated then stopJob u asn .ended 0xFFFF 0 else endJob u asn .ended 0xFFFF 0 0 0)) ∧
  (∀ (s : State) (asn : Nat) (c : Ctx) (j : Job), (Instr.jobComplete asn).wf = true → ctxOf s asn = some c → c.job = some j →
    j.fate = .running → c.moving = none → jobQuiet s c = true → (∀ k ∈ c.cores, k.run = .ended) →
    ∃ d, exec (.jobComplete asn) s = .next (endJob s asn .ok 0xFFFF 0 0 0) ∧
      ctxOf (endJob s asn .ok 0xFFFF 0 0 0) asn = some d ∧ d.job = none ∧
      d.state = c.state ∧ d.sems = c.sems ∧ d.flags = c.flags ∧ ∀ k ∈ d.cores, k.run = .idle)

/-- A seating decision on a module that is not READY does nothing; on one that is, claimants with clear clusters are seated, then the
first waiting context that what holds its clusters lets pass claims them and displaces what is in its way; so a BENCHED context with a
job that is alone on the module is on its way onto its clusters. A slice that is used up expires, and nothing else changes. -/
def Obligations.SeatingCompletes : Prop :=
  (∀ s : State, s.hub.boot ≠ .ready → exec .seatingDecision s = .next s) ∧
  (∀ (s : State) (b : Ctx), s.hub.boot = .ready → s.hub.powered = true → s.ctxs = [b] → b.state = .benched →
    b.job.isSome = true → ∃ t d, exec .seatingDecision s = .next t ∧ ctxOf t b.asn = some d ∧ d.state = .seating ∧
      d.moving = some true ∧ d.claim = false ∧ d.job = b.job ∧ d.cores = b.cores) ∧
  (∀ s : State, s.hub.boot = .ready → s.hub.powered = true →
    let u := seatClaimants s
    (nextSeat u = none → exec .seatingDecision s = .next u) ∧
    ∀ b, nextSeat u = some b → exec .seatingDecision s = .next (seatOne (modCtx ((u.ctxs.map (·.asn)).foldl (displace b) u) b.asn
      fun c => { c with claim := true }) b.asn)) ∧
  (∀ (s : State) (asn : Nat) (c : Ctx), (Instr.sliceExpiry asn).wf = true → ctxOf s asn = some c → c.state = .seated →
    c.job.isSome = true → 1000 * c.sliceUs ≤ c.sliceNs →
    ∃ t, exec (.sliceExpiry asn) s = .next t ∧ ctxOf t asn = some { c with expired := true } ∧
      (∀ a, a ≠ asn → ctxOf t a = ctxOf s a) ∧ Only [.ctxs] s t)

/-- A cork begins when every core of a context that leaves is parked; its cores leave the queues of the semaphores they wait on. A
cork ends BENCHED, or CORKED with its slots free and their settings saved, a CD6 context's stores, pools and tables discarded
(`Ctx.discard`, R673). An uncork whose cork area is good ends SEATED with its stint timers restarted (`requeue` then queues its waiting
cores again, and `goCtx` lets what may start do so), or with its cores stopped where its job stopped meanwhile (R211); a CD6
context's resume list is then replayed, and a replay that fails stops the job with BOUNDS, or by a poisoned source faults the context's lowest die
(a model choice, notes/assumptions/73). -/
def Obligations.CorksComplete : Prop :=
  (∀ (s : State) (asn : Nat) (c : Ctx), (Instr.corkBegin asn).wf = true → ctxOf s asn = some c → c.leaving = true →
    c.moving = none → c.allParked = true → ∃ t d, exec (.corkBegin asn) s = .next t ∧ ctxOf t asn = some d ∧
      d.moving = some false ∧ d.state = c.state ∧ d.cores = c.cores.map Core.noEntries ∧ ∀ x ∈ t.ctxs, ∀ w ∈ x.waiters, w.asn ≠ asn) ∧
  (∀ (s : State) (asn : Nat) (c : Ctx), (Instr.corkDone asn).wf = true → ctxOf s asn = some c → c.moving = some false →
    (c.state = .benching → ∃ t d, exec (.corkDone asn) s = .next (seatClaimants t) ∧ ctxOf t asn = some d ∧
      d.state = .benched ∧ d.moving = none ∧ d.cores = c.discard.cores ∧ d.clusters = c.discard.clusters ∧ d.sems = c.sems) ∧
    (c.state = .corking → ∃ t d, exec (.corkDone asn) s = .next (seatClaimants (resettle (drainCheck t))) ∧
      ctxOf t asn = some d ∧ d.state = .corked ∧ d.moving = none ∧ d.slots = List.replicate 4 none ∧
      d.savedPrec = savePrec s c ∧ d.cores = c.discard.cores ∧ d.clusters = c.discard.clusters ∧ d.sems = c.sems) ∧
    (c.cd6 = false → c.discard = c)) ∧
  (∀ (s : State) (asn : Nat) (c : Ctx), (Instr.uncorkDone asn).wf = true → ctxOf s asn = some c → c.moving = some true →
    c.state = .seating → poisonedArea (readArea s c) c = none →
    let n := c.cores.length
    ∃ t d, ctxOf t asn = some d ∧
      (let u := (List.range n).foldl (requeue asn) t
       let r := replayList u asn c.resume.1 c.resume.2
       exec (.uncorkDone asn) s = .next (if c.cd6 then match r.2 with
         | .ok _ => goCtx r.1 asn
         | .error false => stopJob r.1 asn .bounds 0xFFFF 0
         | .error true => dieFault r.1 (d.dies.headD 0) .stateUncorrectable true (some asn) none none
         else goCtx u asn)) ∧
      d.state = .seated ∧ d.moving = none ∧ d.sliceNs = 0 ∧ d.expired = false ∧ d.sems = c.sems ∧
      d.cores = if c.halting then c.cores.map Core.halt else c.cores.map (Core.resume false s.modes.pending.isSome))

/-! ### Host commands -/

/-- How a host command comes to run (R627, R628, R631, R699): a queue that is not RUNNING fetches nothing; a command that may start
runs in the state in which it is in progress; one the boot state does not admit completes with STATE_ILLEGAL; one that may not start
yet, or that a PRIO queue goes ahead of, waits behind the commands before it. -/
def Obligations.HostCommandsStart : Prop :=
  ∀ (i : Instr) (c : HostCmd) (s : State), hostCmd i = some c → i.wf = true →
    let u := fetchOne s c.h.queue
    let ready := startsNow u c.h.queue i = true
    ((getQ s c.h.queue).state ≠ .running → exec i s = .next s) ∧
    (Starts s i c.h c.code → exec i s = .next (c.start (begun s c.h c.code))) ∧
    ((getQ s c.h.queue).state = .running → ready → admitted s c.code = false →
      exec i s = .next (complete (begun s c.h c.code) c.h c.code .stateIllegal
        (failDetail (begun s c.h c.code) c.code c.first))) ∧
    ((getQ s c.h.queue).state = .running → ¬ready → exec i s = .next (enqueue u c.h.queue i))

/-- NOP completes with OK (R633); a reserved command, whatever the boot state, with FORMAT_UNSUPPORTED (R634). -/
def Obligations.EmptyCommandsComplete : Prop :=
  ∀ (s : State) (h : CmdHdr),
    ((Instr.nop h).wf = true → Starts s (.nop h) h 0x0001 →
      exec (.nop h) s = .next (complete (begun s h 0x0001) h 0x0001 .ok [])) ∧
    (∀ code first, (Instr.reservedCmd h code first).wf = true → (getQ s h.queue).state = .running →
      startsNow (fetchOne s h.queue) h.queue (.reservedCmd h code first) = true →
      exec (.reservedCmd h code first) s =
        .next (complete (begun s h code) h code .formatUnsupported (failDetail (begun s h code) code first)))

/-- A completion entry of an enabled queue with room in its ring and none held before it is written at the ring's tail with the
queue's PHASE, and the tail moves on, the phase turning over at the ring's end; a JOB_LAUNCH is in progress until its launch entry is
written (R628); one of a queue that is full or disabled is held, and nothing leaves the module (R631, R709). -/
def Obligations.CompletionsAreWritten : Prop :=
  ∀ (s : State) (q : Nat) (e : Bytes),
    let t := pushCompletion s q e
    let x := getQ s q
    let next := (x.cqTail + 1) % cqSize s q
    (hqEnabled s q = true → cqFull s q = false → x.held = [] →
      getQ t q = { x with
        cqTail := next, phase := if next = 0 then !x.phase else x.phase
        inProg := if field e 4 2 = 0x0020 ∧ field e 6 1 = 0 then x.inProg.erase { id := field e 0 4, cmd := 0x0020 } else x.inProg } ∧
      ∃ l, t.out = s.out ++ .hostWrite (cqAddr s q + 32 * x.cqTail) (putField e 31 1 (b2n x.phase)) :: l ∧
        (l = [] ∨ l = [.msix (regBits s (hqBase q + 16) 26 16)])) ∧
    (hqEnabled s q = false ∨ cqFull s q = true → getQ t q = { x with held := x.held ++ [e] } ∧ t.out = s.out) ∧
    (∀ r, r ≠ q → getQ t r = getQ s r) ∧ Only [.host, .regs] s t

/-- CTX_CREATE and CTX_UNCORK make a context resident and BENCHED on the clusters they name, in the lowest free slot of each of their
dies; a new one has its state from `createFrom` and a cork area of 21 pages for each cluster. -/
def Obligations.ContextsBecomeResident : Prop :=
  (∀ (s b : State) (h : CmdHdr) (asn cls kind sliceUs clusters imageVA resumeVA resumeCount : Nat) (c : Ctx),
    (Instr.ctxCreate h asn cls kind sliceUs clusters imageVA resumeVA resumeCount).wf = true → Begins s (.ctxCreate h asn cls kind sliceUs clusters imageVA resumeVA resumeCount) h 0x0010 b →
    cls ≤ 3 → kind ≤ 1 → 100 ≤ sliceUs → sliceUs ≤ 1000000 → resumeCount ≤ 64 → (kind = 0 → resumeCount = 0) →
    imageVA % 64 = 0 → resumeVA % 64 = 0 →
    let set := maskClusters clusters
    set ≠ [] → ctxOf b asn = none → (∀ g ∈ set, clusterUsable b g = true) →
    let b := readImageAt b asn imageVA set.length
    createFrom b h asn cls kind sliceUs set imageVA = .ok c → (cls = 0 → kind = 0 ∧ class0Clash b asn set = false) →
    nearDue b asn + 21 * set.length ≤ nearQuota b asn → fullDies b set = 0 →
    ∃ t d, exec (.ctxCreate h asn cls kind sliceUs clusters imageVA resumeVA resumeCount) s =
        .next (complete t h 0x0010 .ok (slotDetail (takeSlots b set))) ∧ ctxOf t asn = some d ∧
      d.state = .benched ∧ d.set = set ∧ d.slots = takeSlots b set ∧ d.corkPages = corkArea b set ∧
      d.resume = (resumeVA, resumeCount) ∧ d.cores = c.cores ∧ d.sems = c.sems ∧ d.desc = c.desc ∧ d.savedPrec = [] ∧
      (spaceOf t asn).isSome = true) ∧
  (∀ (s b : State) (h : CmdHdr) (asn clusters : Nat) (c : Ctx), (Instr.ctxUncork h asn clusters).wf = true →
    Begins s (.ctxUncork h asn clusters) h 0x0013 b → ctxOf b asn = some c → c.state = .corked →
    let set := if clusters = 0 then c.set else maskClusters clusters
    (∀ g ∈ set, clusterUsable b g = true) → set.length = c.set.length → (c.cls = 0 → class0Clash b asn set = false) →
    fullDies b set = 0 →
    ∃ t d, exec (.ctxUncork h asn clusters) s = .next (complete t h 0x0013 .ok (slotDetail (takeSlots b set))) ∧
      ctxOf t asn = some d ∧ d.state = .benched ∧ d.set = set ∧ d.cores = c.cores ∧ d.sems = c.sems ∧ d.desc = c.desc ∧
      d.job = c.job ∧ d.savedPrec = [])

/-- CTX_DESTROY, CTX_CORK, CTX_SET_CLASS, CTX_EXPORT with the end of its copy, and ASN_DESTROY have their effects: the context is gone;
it is on its way to CORKED, where the command completes; it has its new class and slice; its image is written, and with MOVE it is
gone; the address space is gone, and nothing moves its pages. -/
def Obligations.ContextCommandsComplete : Prop :=
  (∀ (s b : State) (h : CmdHdr) (asn : Nat) (c : Ctx), ctxOf b asn = some c →
    ((Instr.ctxDestroy h asn).wf = true → Begins s (.ctxDestroy h asn) h 0x0011 b → c.job = none →
      (c.state = .benched ∨ c.state = .corked) →
      ∃ t, exec (.ctxDestroy h asn) s = .next (complete t h 0x0011 .ok []) ∧ ctxOf t asn = none ∧
        ∀ a, a ≠ asn → (ctxOf t a).map (fun c => (c.set, c.state)) = (ctxOf b a).map fun c => (c.set, c.state)) ∧
    ((Instr.ctxCork h asn).wf = true → Begins s (.ctxCork h asn) h 0x0012 b → c.state ≠ .corked → c.state ≠ .corking →
      ∃ t d, exec (.ctxCork h asn) s = .next t ∧ ctxOf t asn = some d ∧ d.state = .corking ∧
        d.corkCmds = c.corkCmds ++ [h] ∧ d.moving = (if c.state = .benched then some false else c.moving) ∧
        d.claim = false ∧ d.cores = c.cores) ∧
    (∀ cls sliceUs, (Instr.ctxSetClass h asn cls sliceUs).wf = true → Begins s (.ctxSetClass h asn cls sliceUs) h 0x0015 b → cls ≤ 3 → 100 ≤ sliceUs →
      sliceUs ≤ 1000000 → c.resident = true → (cls = 0 → c.cd6 = false ∧ class0Clash b asn c.set = false) →
      exec (.ctxSetClass h asn cls sliceUs) s =
        .next (complete (resettle (modCtx b asn fun c => { c with cls := cls, sliceUs := sliceUs })) h 0x0015 .ok [])) ∧
    (∀ move va, (Instr.ctxExport h asn move va).wf = true → Begins s (.ctxExport h asn move va) h 0x0014 b → move ≤ 1 → va % 64 = 0 →
      c.state = .corked → (move = 1 → moveBlocked b asn = false) →
      writableRange b asn va (imageLen c.set.length) = true →
      exec (.ctxExport h asn move va) s = .next (modCtx b asn fun c => { c with exporting := some (h, move == 1, va) }))) ∧
  (∀ (s : State) (h : CmdHdr) (asn va : Nat) (move : Bool) (c : Ctx), (Instr.ctxExportDone asn).wf = true →
    ctxOf s asn = some c → c.exporting = some (h, move, va) →
    let u := modCtx (c.corkPages.foldl (fun s p => hubReads s p pageBytes) s) asn fun c => { c with exporting := none }
    let img := { c with exporting := none }
    writableRange u asn va (imageLen c.set.length) = true →
    let w := agentWrite u asn va (slice (Config.imageBytes img) 0 (imageLen c.set.length))
    let x := { w with exported := w.exported ++ [img] }
    exec (.ctxExportDone asn) s = .next (complete (if move then destroyCtx x asn else x) h 0x0014 .ok [])) ∧
  (∀ (s b : State) (h : CmdHdr) (asn : Nat), (Instr.asnDestroy h asn).wf = true → Begins s (.asnDestroy h asn) h 0x0016 b →
    (spaceOf b asn).isSome = true → ctxOf b asn = none → hasStream b asn = false → hasGroup b asn = false →
    ∃ t, exec (.asnDestroy h asn) s = .next (complete t h 0x0016 .ok []) ∧ spaceOf t asn = none ∧
      (∀ m ∈ t.migrations, m.asn ≠ asn) ∧ ∀ p ∈ t.promotions, p.asn ≠ asn)

/-- SEM_ALIAS and SEM_SIGNAL have their effects (R668, R671, R798): an alias stands for its owner's semaphore; a cleared index is a
semaphore at 0 again; a signal is an add. DESC_BIND binds every slot of its range or none (R186), and success writes
DETAIL 0 (the model's reading, notes/assumptions/51); TRELLIS_BIND names the table that
the next launch reads; VERSION_SET starts a set with slot 0 the newest at the version that PUBLISHED holds. -/
def Obligations.BindingsComplete : Prop :=
  ∀ (s b : State) (h : CmdHdr) (asn : Nat) (c : Ctx), ctxOf b asn = some c →
    (∀ i oa oi o, (Instr.semAliasSet h asn i oa oi).wf = true → Begins s (.semAliasSet h asn i oa oi) h 0x0017 b → oa ≠ asn → ctxOf b oa = some o →
      c.job = none → (∀ a ∈ o.aliases, a.index ≠ oi) → c.aliases.length < 64 →
      ∃ t d, exec (.semAliasSet h asn i oa oi) s = .next (complete t h 0x0017 .ok []) ∧ ctxOf t asn = some d ∧
        semTarget d i = some (oa, oi) ∧ (∀ j, j ≠ i → semTarget d j = semTarget c j) ∧ d.sems = c.sems) ∧
    (∀ i, (Instr.semAliasClear h asn i 0 0).wf = true → Begins s (.semAliasClear h asn i 0 0) h 0x0017 b → c.job = none → i < c.sems.length →
      ∃ t d, exec (.semAliasClear h asn i 0 0) s = .next (complete t h 0x0017 .ok []) ∧ ctxOf t asn = some d ∧
        semTarget d i = some (asn, i) ∧ (∀ j, j ≠ i → semTarget d j = semTarget c j) ∧ d.sems = c.sems.set i 0) ∧
    (∀ i n x, (Instr.semSignal h asn i n).wf = true → Begins s (.semSignal h asn i n) h 0x0018 b → 0 < n → semTarget c i = some x →
      exec (.semSignal h asn i n) s = .next (complete (addSem b asn i n) h 0x0018 .ok [])) ∧
    (∀ first count va bytes, (Instr.descBind h asn first count va).wf = true → Begins s (.descBind h asn first count va) h 0x0022 b → 0 < count →
      first + count ≤ 255 → va % 64 = 0 → c.job = none → virtRead (agentReads b asn va (64 * count)) asn va (64 * count) = .ok bytes →
      (∀ i, i < count → bindCheck (slice bytes (64 * i) 64) = none) →
      ∃ t d, exec (.descBind h asn first count va) s = .next (complete t h 0x0022 .ok []) ∧
        ctxOf t asn = some d ∧ (∀ i x, i < count → c.desc[first + i]? = some x →
          d.desc[first + i]? = some (bindEntry (slice bytes (64 * i) 64))) ∧
        ∀ i, i < first ∨ first + count ≤ i → d.desc[i]? = c.desc[i]?) ∧
    (∀ entries va, (Instr.trellisBind h asn entries va).wf = true → Begins s (.trellisBind h asn entries va) h 0x0023 b → entries ≤ 1024 → va % 64 = 0 →
      c.job = none → exec (.trellisBind h asn entries va) s =
        .next (complete (modCtx b asn fun c => { c with trellis := some (va, entries) }) h 0x0023 .ok [])) ∧
    (∀ set slots sb va, (Instr.versionSet h asn set slots sb va).wf = true → Begins s (.versionSet h asn set slots sb va) h 0x0024 b → set ≤ 31 → va % 64 = 0 →
      c.job = none → 2 ≤ slots → slots ≤ 4 → sb ≤ 250 → setsOverlap c set sb = false →
      exec (.versionSet h asn set slots sb va) s =
        .next (complete (putSet b asn (.fresh set slots sb va 0 (semCount b asn (sb + 5)))) h 0x0024 .ok []))

/-- The page commands have their effects: MEM_ALLOC maps the pages that are taken in order (R456) and completes when they hold zeros (R457); MEM_FREE
unmaps its range; MEM_MIGRATE changes the access of its range at once and moves the pages that are not in place, one event a page, after which the cores that held a write for it go on. -/
def Obligations.PageCommandsComplete : Prop :=
  (∀ (s b : State) (h : CmdHdr) (asn n va : Nat), va % pageBytes = 0 → 0 < n → va + pageBytes * n ≤ 2 ^ 56 →
    (spaceOf b asn).isSome = true →
    let v := va / pageBytes
    (∀ tier w place ppns, (Instr.memAlloc h asn tier w n va place).wf = true → Begins s (.memAlloc h asn tier w n va place) h 0x0030 b → tier ≤ 1 → w ≤ 1 →
      placeOk b tier place = true → pagesIn b asn v n = [] →
      (tier = 0 ∨ w = 1 → nearDue b asn + n ≤ nearQuota b asn) → (tier = 1 → cellarDue b asn + n ≤ cellarQuota b asn) →
      n ≤ freePages b tier (places b tier place) → takePages b tier (places b tier place) (usedPpns b) 0 n = some ppns →
      exec (.memAlloc h asn tier w n va place) s =
        .next { mapPages b asn v (w == 1) ppns with fills := b.fills ++ [{ hdr := h, asn := asn }] }) ∧
    ((Instr.memFree h asn n va).wf = true → Begins s (.memFree h asn n va) h 0x0032 b → (pagesIn b asn v n).length = n → busyIn b asn v n = false →
      jobRunning b asn = false →
      exec (.memFree h asn n va) s = .next (complete (unmapPages b asn v n) h 0x0032 .ok []) ∧
      ∀ k, v ≤ k → k < v + n → pageOf (unmapPages b asn v n) asn k = none) ∧
    (∀ tier access place ppns, (Instr.memMigrate h asn tier access n va place).wf = true → Begins s (.memMigrate h asn tier access n va place) h 0x0031 b → tier ≤ 1 →
      access ≤ 2 → placeOk b tier place = true →
      let ps := pagesIn b asn v n
      let move := ps.filter fun p => !inPlace tier (places b tier place) p
      let nearNew := (ps.filter fun p => tier == 0 || newW access p.w).length
      let nearOld := (ps.filter fun p => isNear p.ppn || p.w).length
      let cellOld := (ps.filter fun p => !isNear p.ppn).length
      let cellNew := if tier = 1 then ps.length else 0
      ps.length = n → busyIn b asn v n = false → (∀ p ∈ ps, p.lost = false) → (access ≠ 0 → jobRunning b asn = false) →
      (nearNew ≤ nearOld ∨ nearDue b asn - nearOld + nearNew ≤ nearQuota b asn) →
      (cellNew ≤ cellOld ∨ cellarDue b asn - cellOld + cellNew ≤ cellarQuota b asn) →
      move.length ≤ freePages b tier (places b tier place) →
      takePages b tier (places b tier place) (usedPpns b) 0 move.length = some ppns →
      let u := modSpace b asn fun x => { x with pages := x.pages.map fun p =>
        if v ≤ p.vpn ∧ p.vpn < v + n then { p with w := newW access p.w } else p }
      let m : Migration := { hdr := h, asn := asn, left := (move.zip ppns).map (goal tier), tier := tier, place := place
                             cursor := 0, moved := 0, kept := 0 }
      exec (.memMigrate h asn tier access n va place) s =
        .next (settleMigration { u with migrations := u.migrations ++ [m] } m))) ∧
  (∀ (s : State) (asn : Nat), ((Instr.zeroFillDone asn).wf = true → ∀ f, (s.fills.find? fun f => f.asn == asn) = some f →
      exec (.zeroFillDone asn) s = .next (complete { s with fills := s.fills.erase f } f.hdr 0x0030 .ok [])) ∧
    ((Instr.migratePageDone asn).wf = true → ∀ m v x l g, (s.migrations.find? fun m => m.asn == asn) = some m →
      m.left = (v, x) :: l → pageOf s asn v = some g → g.lost = false →
      let m1 := { m with left := l, moved := m.moved + 1 }
      let next := fun (n : Migration) (t : State) =>
        settleMigration { t with migrations := t.migrations.map fun x => if x = m then n else x } n
      (inPlace m.tier (places s m.tier m.place) g = true → exec (.migratePageDone asn) s = .next (goCtx (next m1 s) asn)) ∧
      (inPlace m.tier (places s m.tier m.place) g = false → ∀ d cur, moveDst s m = some (d, cur) →
        (waitsFor s g d = true → exec (.migratePageDone asn) s = .next (goCtx s asn)) ∧
        (waitsFor s g d = false → g.ppn ≠ d →
          let t := releaseHolders (movePage s asn g d) asn v
          exec (.migratePageDone asn) s = .next (goCtx (next { m1 with cursor := cur } t) asn) ∧
          pageOf t asn v = some { g with ppn := d } ∧
          t.mem = s.mem.copy (g.ppn * pageBytes) (d * pageBytes) pageBytes ∧ t.migrations = s.migrations ∧
          holders t asn v = []))))

/-- XFER runs in both directions (R637): it is in progress once its window and range pass; at its end the bytes go to the window's bus
address, or from host memory into the pages, and it completes with the bytes it moved. -/
def Obligations.TransfersComplete : Prop :=
  (∀ (s b : State) (h : CmdHdr) (asn w va off n : Nat), w ≤ 15 → va % 64 = 0 → off % 64 = 0 →
    n % 64 = 0 → (spaceOf b asn).isSome = true → off + n ≤ hwBytes b asn w → hwBytes b asn w ≠ 0 →
    let runs := fun (i : Instr) (toHost : Bool) => Begins s i h 0x0033 b → exec i s = .next { b with
      xfers := b.xfers ++ [{ id := b.nextId, hdr := h, asn := asn, toHost := toHost, window := w, va := va, winOff := off, bytes := n }]
      nextId := b.nextId + 1 }
    ((Instr.xferToHost h asn w va off n).wf = true → runs (.xferToHost h asn w va off n) true) ∧
    ((Instr.xferFromHost h asn w va off n).wf = true → runs (.xferFromHost h asn w va off n) false)) ∧
  (∀ (s : State) (id : Nat) (host : HostRead) (x : Xfer), (Instr.xferComplete id host).wf = true →
    (s.xfers.find? fun x => x.id == id) = some x →
    let u := { s with xfers := s.xfers.erase x }
    let ends := fun (t : State) (n : Nat) => exec (.xferComplete id host) s =
      .next (complete t x.hdr 0x0033 (if n = x.bytes then .ok else .bounds) (record 16 [(0, 8, n)]))
    (x.toHost = true → ∀ v, readGood (meetVirt u x.asn x.va x.bytes) x.asn (pieces x.va x.bytes) = v → v ≠ [] → ∃ t, ends t v.length ∧
      t.out = s.out ++ [.hostWrite (hwAddr s x.asn x.window x.winOff) v]) ∧
    (x.toHost = false → ∀ d, host = .data d →
      let n := min (d.length / 64 * 64) (goodLen u x.asn (pieces x.va x.bytes))
      ends (agentWrite u x.asn x.va (d.take n)) n))

/-- GROUP_CREATE takes the lowest free slot, GROUP_DESTROY frees it (R538 to R540); STREAM_OPEN takes the unit's lowest free slot,
STREAM_CLOSE frees it at a frame boundary; FRAME_SUBMIT queues its entry, FRAME_RELEASE releases outputs,
which makes room for those that wait (`drainStream`, notes/assumptions/39). -/
def Obligations.GroupsAndStreamsComplete : Prop :=
  (∀ (s b : State) (h : CmdHdr) (asn size tag gen credits wdMs va i r : Nat) (bytes : Bytes),
    (Instr.groupCreate h asn size tag gen credits wdMs va).wf = true → Begins s (.groupCreate h asn size tag gen credits wdMs va) h 0x0040 b → 0 < size → size ≤ 256 →
    16 ≤ credits → credits ≤ 1024 → va % 64 = 0 → (spaceOf b asn).isSome = true →
    let b := agentReads b asn va (2 * size)
    virtRead b asn va (2 * size) = .ok bytes →
    let ids := (List.range size).map fun i => field bytes (2 * i) 2
    (∀ x ∈ ids, x < 4096) → ids.eraseDups.length = size → ids.findIdx? (· == modId b) = some r →
    (b.groups.any fun g => g.any fun g => g.tag == tag) = false → b.groups.findIdx? Option.isNone = some i →
    credits ≤ freeCredits b →
    exec (.groupCreate h asn size tag gen credits wdMs va) s = .next (complete { b with groups := b.groups.set i (some
      { asn := asn, tag := tag, gen := gen, members := ids, rank := r, credits := credits, wdMs := wdMs, stale := false, cts := []
        aborts := [], overSeqs := [], overLanded := [] }) } h 0x0040 .ok (record 16 [(0, 1, i)]))) ∧
  (∀ (s b : State) (h : CmdHdr) (asn slot : Nat) (g : Group), (Instr.groupDestroy h asn slot).wf = true → Begins s (.groupDestroy h asn slot) h 0x0041 b →
    slot ≤ 63 → b.groups.getD slot none = some g → g.asn = asn → jobRunning b asn = false →
    (b.firings.any fun f => f.slot == slot) = false →
    exec (.groupDestroy h asn slot) s = .next (complete { b with groups := b.groups.set slot none } h 0x0041 .ok [])) ∧
  (∀ (s b : State) (h : CmdHdr) (unit asn semBase va slot : Nat) (par : Bytes),
    (Instr.streamOpen h unit asn semBase va).wf = true → Begins s (.streamOpen h unit asn semBase va) h 0x0050 b → unit ≤ 3 → semBase ≤ 252 → va % 64 = 0 →
    (spaceOf b asn).isSome = true →
    let b := agentReads b asn va 256
    virtRead b asn va 256 = .ok par → parOk par = true → buffersOk b asn par = true → parFits par = true → (getCodec b unit).streams.findIdx? Option.isNone = some slot →
    let l := loadOf ((getCodec b unit).openStreams.map (·.par) ++ [par])
    l.1 ≤ codecCapacity * l.2 →
    exec (.streamOpen h unit asn semBase va) s = .next (complete
      (putStream b (32 * unit + slot) (some (newStream b asn semBase par))) h 0x0050 .ok [BitVec.ofNat 8 (32 * unit + slot)])) ∧
  (∀ (s b : State) (h : CmdHdr) (id : Nat) (t : Stream), getStream b id = some t →
    ((Instr.streamClose h id).wf = true → Begins s (.streamClose h id) h 0x0051 b → exec (.streamClose h id) s =
      .next (if (getCodec b (id / 32)).current = some (id % 32) then
          putStream b id (some { t with closing := t.closing ++ [h] })
        else freeStream b id { t with closing := t.closing ++ [h] })) ∧
    (∀ entry, (Instr.frameSubmit h id entry).wf = true → Begins s (.frameSubmit h id entry) h 0x0052 b → t.state = .opened → parFed t.par = true →
      t.fedEnd = false → t.fed.length < parRing t.par → exec (.frameSubmit h id entry) s =
        .next (putStream b id (some { t with fed := t.fed ++ [{ hdr := h, entry := slice entry 0 64 }]
                                             fedEnd := field entry 0 1 == 2 }))) ∧
    (∀ n, (Instr.frameRelease h id n).wf = true → Begins s (.frameRelease h id n) h 0x0053 b → 0 < n → n ≤ 4096 → t.state = .opened →
      parFed t.par = true → t.fedEnd = false → t.released + n ≤ t.outCount →
      exec (.frameRelease h id n) s = .next (drainStream (complete (putStream b id (some (t.release n))) h 0x0053 .ok []) id)))

/-- MODE_SET starts an epoch on the dies that are ONLINE or DRAINING (R679, R680); when the last of them acknowledges, the epoch number
grows by one and every die of the epoch runs in the new mode; a timeout aborts it with the old mode in force (R681). -/
def Obligations.ModeEpochsComplete : Prop :=
  (∀ (s b : State) (h : CmdHdr) (value rate timeout : Nat), b.modes.pending = none →
    let dies := fun st => (List.range 4).filter fun d => dieIs b d st
    let begins := fun (i : Instr) (taster : Bool) => Begins s i h 0x0060 b → modeFieldsOk taster value rate timeout = true →
      let e : Epoch := {
        hdr := h, taster := taster, value := value, rate := rate, since := b.hub.timebase
        timeoutNs := 1000 * (if timeout = 0 then 10000 else timeout)
        dies := dies .online ++ dies .draining, late := dies .resetting, acked := [] }
      exec i s = .next (tryCommit { b with modes := { b.modes with pending := some e } })
    ((Instr.modeSetVintage h value rate b.modes.epoch timeout).wf = true →
      begins (.modeSetVintage h value rate b.modes.epoch timeout) false) ∧
    ((Instr.modeSetTaster h value rate b.modes.epoch timeout).wf = true →
      begins (.modeSetTaster h value rate b.modes.epoch timeout) true)) ∧
  (∀ (s : State) (d : Nat) (e : Epoch), (Instr.dieEpochAck d).wf = true → s.modes.pending = some e → d ∈ e.dies → d ∉ e.acked →
    dieQuiet s d e.taster = true → (∀ x ∈ e.dies, x = d ∨ x ∈ e.acked) →
    ∃ t, exec (.dieEpochAck d) s = .next t ∧ t.modes.pending = none ∧ t.modes.epoch = (s.modes.epoch + 1) % 2 ^ 32 ∧
      (e.taster = false → t.modes.vintage = (e.value == 1) ∧ t.modes.tasteEn = s.modes.tasteEn ∧ t.modes.rate = s.modes.rate) ∧
      (e.taster = true → t.modes.tasteEn = (e.value == 1) ∧ t.modes.rate = e.rate ∧ t.modes.vintage = s.modes.vintage) ∧
      ∀ i x, i ∈ e.dies → t.dies[i]? = some x →
        x.vintage = t.modes.vintage ∧ x.tasteEn = t.modes.tasteEn ∧ x.tasteRate = t.modes.rate) ∧
  (∀ (s : State) (e : Epoch), s.modes.pending = some e → e.since + e.timeoutNs ≤ s.hub.timebase →
    ∃ t, exec .epochTimeout s = .next t ∧ t.modes.pending = none ∧ t.modes.epoch = s.modes.epoch ∧
      t.modes.vintage = s.modes.vintage ∧ t.modes.tasteEn = s.modes.tasteEn ∧ t.modes.rate = s.modes.rate ∧
      t.modes.lastReason = 2)

/-! ### Boot, Dormant, dies, flash -/

/-- APPLY restarts the boot sequence at memory training with its configuration, the present settings where it names no image (R700);
with WRITE_FLASH its image goes to flash first, and with STORE_ONLY that is all it does (R701). DORMANT_ENTER starts corking every context; when they are
CORKED and all is quiet the dies power down with their memory in self-refresh (R716). WAKE resets the dies; at its end the module is
READY, and a die is ONLINE where it was and is not flagged (R720), then drained where fewer than four regulators are healthy (R764),
and the links go on with what came over the ports in Dormant. -/
def Obligations.ConfigAndDormantComplete : Prop :=
  (∀ (s b : State) (h : CmdHdr) (image : HostRead), b.hub.apply = none → b.hub.boot = .awaitConfig →
    ((Instr.applyConfig h false 0 0 image).wf = true → Begins s (.applyConfig h false 0 0 image) h 0x0070 b → crossOk b [] = true →
      exec (.applyConfig h false 0 0 image) s = .next (resumeBoot (complete
        { b with hub := { b.hub with cfgSrc := .apply, cfgSeq := 0 } } h 0x0070 .ok (applyDetail 0 0 0xFFFFFFFF)))) ∧
    (∀ bus bytes d, image = .data d → (Instr.applyConfig h false bus bytes image).wf = true →
      Begins s (.applyConfig h false bus bytes image) h 0x0070 b → bus ≠ 0 → bus % 64 = 0 →
      let k := imageBank d
      let recs := imageRecords (slice k.body 0 (field k.header 8 4))
      bankValid .config k = true → d.length = bytes → bytes = 64 + field k.header 8 4 →
      checkImage b (field k.header 18 2) (field k.header 20 1) recs = none →
      let u := applyRecords b recs
      exec (.applyConfig h false bus bytes image) s = .next (resumeBoot (complete
        { u with hub := { u.hub with cfgSrc := .apply, cfgSeq := field k.header 4 4, apply := none } } h 0x0070 .ok
        (applyDetail 0 0 0xFFFFFFFF)))) ∧
    (∀ bus bytes d, image = .data d → (Instr.applyConfig h true bus bytes image).wf = true →
      Begins s (.applyConfig h true bus bytes image) h 0x0070 b → bus ≠ 0 → bus % 64 = 0 →
      let k := imageBank d
      let recs := imageRecords (slice k.body 0 (field k.header 8 4))
      bankValid .config k = true → d.length = bytes → bytes = 64 + field k.header 8 4 → flashReady b = true →
      checkImage b (field k.header 18 2) (field k.header 20 1) recs = none →
      let u := applyRecords b recs
      exec (.applyConfig h true bus bytes image) s = .next (startFlashWrite
        { u with hub := { u.hub with cfgSrc := .apply, cfgSeq := field k.header 4 4, apply := some { hdr := h, storeOnly := false } } }
        { region := .config, body := slice k.body 0 (field k.header 8 4), part := field k.header 18 2
          pkg := field k.header 20 1, upTo := 0 }))) ∧
  (∀ (s b : State) (h : CmdHdr) (bus bytes : Nat) (d : Bytes), (Instr.applyStoreOnly h true bus bytes (.data d)).wf = true →
    Begins s (.applyStoreOnly h true bus bytes (.data d)) h 0x0070 b → b.hub.apply = none → b.hub.boot = .ready → bus ≠ 0 → bus % 64 = 0 →
    let k := imageBank d
    bankValid .config k = true → d.length = bytes → bytes = 64 + field k.header 8 4 → flashReady b = true →
    checkImage b (field k.header 18 2) (field k.header 20 1) (imageRecords (slice k.body 0 (field k.header 8 4))) = none →
    exec (.applyStoreOnly h true bus bytes (.data d)) s = .next (startFlashWrite
      { b with hub := { b.hub with apply := some { hdr := h, storeOnly := true } } }
      { region := .config, body := slice k.body 0 (field k.header 8 4), part := field k.header 18 2
        pkg := field k.header 20 1, upTo := 0 })) ∧
  (∀ (s b : State) (h : CmdHdr), (Instr.dormantEnter h).wf = true → Begins s (.dormantEnter h) h 0x0071 b → b.hub.boot = .ready →
    b.modes.pending = none → (∀ d ∈ b.dies, d.state ≠ .draining) →
    ∃ t, exec (.dormantEnter h) s = .next t ∧ t.hub.boot = .enteringDormant ∧ t.hub.dormantCmd = some h ∧
      t.hub.dormantFrom = b.hub.timebase ∧ ∀ c ∈ t.ctxs, c.state = .corking ∨ c.state = .corked) ∧
  (∀ (s : State) (h : CmdHdr), s.hub.boot = .enteringDormant → s.hub.dormantCmd = some h → dormantQuiet s h = true →
    ∃ t, exec .dormantPowerDown s = .next t ∧ t.hub.boot = .dormant ∧ t.hub.dormantCmd = none ∧
      ∀ x ∈ t.dies, x.state = .poweredDown ∧ ∀ m ∈ x.mcs, m.state = .selfRefresh) ∧
  (∀ (s b : State) (h : CmdHdr), (Instr.wake h).wf = true → Begins s (.wake h) h 0x0072 b → b.hub.boot = .dormant →
    ∃ t, exec (.wake h) s = .next t ∧ t.hub.boot = .waking ∧ t.hub.wakeCmd = some h ∧ t.hub.wakeFrom = b.hub.timebase ∧
      Only [.hub, .dies] b t ∧ ∀ x ∈ t.dies, x.state = .resetting ∧ x.stage = 1 ∧ x.goal = .wake) ∧
  (∀ (s : State) (h : CmdHdr), s.hub.boot = .waking → s.hub.wakeCmd = some h → s.dies.length = 4 →
    ∃ t, exec .wakeDone s =
        .next (resumeLinks (if healthyVrms s < 4 then [0, 1, 2, 3].foldl (fun s e => drainHold s e 0) t else t)) ∧
      t.hub.boot = .ready ∧ t.hub.wakeCmd = none ∧ (∀ x ∈ t.dies, ∀ m ∈ x.mcs, m.state = .ready) ∧
      ∀ d, d < 4 → (getDie t d).state =
        if (getDie s d).stage = 3 ∧ (getDie s d).wasOnline = true ∧ (getDie s d).flag = 0 then .online else .offline)

/-- DIE_DRAIN takes an ONLINE die out of service (R742): it is DRAINING, or RESETTING already, and every context left on it is corking.
DIE_RESTORE starts the reset of an OFFLINE die that is not flagged (R744). -/
def Obligations.DieCommandsComplete : Prop :=
  ∀ (s b : State) (h : CmdHdr) (d : Nat), d < 4 → s.dies.length = 4 → b.hub.boot = .ready →
    let drains := fun (i : Instr) (goal : DieGoal) => exec i s = .next (startDrain b d goal) ∧
      let t := startDrain b d goal
      ((getDie t d).state = .draining ∨ (getDie t d).state = .resetting) ∧
      ∀ c ∈ t.ctxs, c.resident = true → d ∈ c.dies → c.state = .corking
    ((Instr.dieDrainHold h d).wf = true → Begins s (.dieDrainHold h d) h 0x0078 b → dieIs b d .online = true →
      drains (.dieDrainHold h d) (.hold (some h) 0)) ∧
    ((Instr.dieDrainRepair h d).wf = true → Begins s (.dieDrainRepair h d) h 0x0078 b → dieIs b d .online = true →
      drains (.dieDrainRepair h d) (.repair h)) ∧
    ((Instr.dieRestore h d).wf = true → Begins s (.dieRestore h d) h 0x0079 b → dieIs b d .offline = true → (getDie b d).flag = 0 →
      exec (.dieRestore h d) s = .next (enterReset b d (.restore h)) ∧
      (getDie (enterReset b d (.restore h)) d).state = .resetting)

/-- A reset empties the module but for what keeps (R683); the correct key starts the same reset (R705). The power-on sequence then goes
on step by step (R692): the host link, the configuration, refused where no bank is valid or its image fails a check, which leaves HUB_CONFIG_SEQ as it was (R690, R695, R704), memory training, the repair map with
the dies that did not come up OFFLINE, and the ports, of which those with EN = 0 are DISABLED and do not train (R23), after which the module is READY. A step that times out ends with what came up (R693), memory training in refusal. -/
def Obligations.BootSequenceCompletes : Prop :=
  ∀ s : State,
    (∃ t, exec .moduleReset s = .next t ∧ t.hub.boot = .powerOn ∧ t.regs = [] ∧ t.queues = [] ∧ t.ctxs = [] ∧ t.spaces = [] ∧
      t.mem = [] ∧ t.poison = [] ∧ t.flash = { s.flash with state := .attached, writing := [] } ∧ t.tally.records = s.tally.records ∧
      (∀ x ∈ t.dies, x.state = .resetting) ∧
      ∀ v : Word, bits v.toNat 31 16 = 0x0CD9 → bit v.toNat 0 = true → exec (.hubResetModule v) s = .next t) ∧
    (∀ v : Word, bits v.toNat 31 16 ≠ 0x0CD9 ∨ bit v.toNat 0 = false → exec (.hubResetModule v) s = .next s) ∧
    (s.hub.powered = true → exec .hostLinkTrained s = .next { s with hub := { s.hub with
      link := true, boot := if s.hub.boot = .powerOn then .configRead else s.hub.boot } }) ∧
    (s.hub.boot = .configRead → s.hub.powered = true →
      (selectedImage (readableFlash s) = none →
        ∃ t, exec .configReadDone s = .next t ∧ t.hub.boot = .awaitConfig ∧ t.hub.refuse = .noValidBank ∧
          ∀ x ∈ t.dies, x.state = .offline) ∧
      (∀ toB part pkg seq recs, selectedImage (readableFlash s) = some (toB, part, pkg, seq, recs) →
        let u := readBanks s (readableFlash s)
        (∀ r i, checkImage u part pkg recs = some (r, i) →
          ∃ t, exec .configReadDone s = .next t ∧ t.hub.refuse = r ∧ t.hub.cfgSrc = s.hub.cfgSrc ∧ t.hub.cfgSeq = s.hub.cfgSeq ∧
            Only [.hub, .store, .dies, .host, .regs] s t ∧ ∀ x ∈ t.dies, x.state = .offline) ∧
        (checkImage u part pkg recs = none →
          ∃ t, exec .configReadDone s = .next t ∧ t.hub = { (applyRecords u recs).hub with
              boot := .memTrain, cfgSrc := if toB then .bankB else .bankA, cfgSeq := seq } ∧
            t.regs = (applyRecords u recs).regs ∧ ∀ x ∈ t.dies, ∀ m ∈ x.mcs, m.state = .training))) ∧
    (∀ chans, (Instr.memTrainDone true chans).wf = true → s.hub.boot = .memTrain → ∀ u, trainAll s (allChans chans) = .ok u →
      ∃ t, exec (.memTrainDone true chans) s = .next t ∧ t.hub.boot = .repair ∧
        ∀ x ∈ t.dies, ∀ m ∈ x.mcs, m.state = .ready) ∧
    (∀ up findings, (Instr.repairStepDone up findings).wf = true → s.hub.boot = .repair → s.dies.length = 4 →
      ∃ t, exec (.repairStepDone up findings) s = .next t ∧ t.hub.boot = .portTrain ∧ (∀ n, n < t.ports.length →
        (t.ports.getD n .reset).state = if bit (getReg t (0x100100 + 4 * n)).toNat 31 then .training else .disabled) ∧
        (∀ d, d < 4 → d ∉ up → (getDie t d).state = .offline) ∧
        ∀ n ports far, (Instr.bootStepTimeout n up findings ports far).wf = true →
          exec (.bootStepTimeout n up findings ports far) s = .next t) ∧
    (∀ ports far, (Instr.portTrainDone ports far).wf = true → s.hub.boot = .portTrain →
      ∃ t, exec (.portTrainDone ports far) s = .next t ∧ t.hub.boot = .ready ∧ t.farPorts = far.map farTrained ∧
        ∀ n up findings, (Instr.bootStepTimeout n up findings ports far).wf = true →
          exec (.bootStepTimeout n up findings ports far) s = .next t) ∧
    (∀ n up findings ports far, (Instr.bootStepTimeout n up findings ports far).wf = true → s.hub.boot = .memTrain →
      ∃ t, exec (.bootStepTimeout n up findings ports far) s = .next t ∧ t.hub.boot = .refusedPermanent ∧
        t.hub.refuse = .trainFailed ∧ ∀ x ∈ t.dies, x.state = .offline)

/-- A host-link reset disables the queues and the message ring and touches nothing behind them but the host reads in progress, which fail (R471, R709); an uncorrectable error of the
hub is recorded in flash before the reset it causes (R724). A bank write ends with its bank programmed or not (R688), one of the configuration with its bank's
validity, and the APPLY that waits for it; the routine flushes go out when they are due (R749, R781); the flash is released when no write is in progress, and a new one
is written from the hub's copies (R757). -/
def Obligations.ResetsAndFlashComplete : Prop :=
  ∀ s : State,
    (∃ u, exec .hostLinkReset s = .next (failHostReads u) ∧ (∀ q ∈ u.queues, q.2.state = .disabled ∧ q.2.waiting = []) ∧
      Only [.host, .regs] s u ∧
      ((∀ x ∈ s.xfers, x.toHost = true) → (∀ d, nextDecant s = some d → d.window = none) → failHostReads u = u)) ∧
    (∃ u, exec .hubUncorrectable s = .next (moduleReset u) ∧ Only [.store, .host, .regs, .hub, .dies, .power] s u ∧
      (logBytes s { type := 9 }) ∈ u.rel.log) ∧
    (∀ r w ok, (Instr.flashWriteDone r ok).wf = true → r ≠ 0 → (s.flash.writing.find? fun w => w.region == regionOf r) = some w →
      s.flash.state = .attached →
      ∃ t, exec (.flashWriteDone r ok) s = .next t ∧ t.flash = programBank s.flash w ok ∧ Only [.store] s t) ∧
    (∀ w ok, (s.flash.writing.find? fun w => w.region == Region.config) = some w → s.hub.apply = none → s.flash.state = .attached →
      let f := programBank s.flash w ok
      exec (.flashWriteDone 0 ok) s = .next { s with flash := f, hub := { s.hub with
        bankAValid := bankValid .config f.configA, bankBValid := bankValid .config f.configB } }) ∧
    (∀ w ok a, (s.flash.writing.find? fun w => w.region == Region.config) = some w → s.hub.apply = some a →
      s.flash.state = .attached →
      let f := programBank s.flash w ok
      let u := complete { s with flash := f, hub := { s.hub with
        bankAValid := bankValid .config f.configA, bankBValid := bankValid .config f.configB, apply := none } } a.hdr 0x0070 .ok
        (applyDetail (if ok then 1 else 2) 0 0xFFFFFFFF)
      exec (.flashWriteDone 0 ok) s = .next (if a.storeOnly then u else resumeBoot u)) ∧
    (flashReady s = true → 0 < s.rel.unwritten → (∀ a, s.rel.lastFlush = some a → a + 1800000000000 ≤ s.hub.timebase) →
      ∃ t, exec .faultLogFlush s = .next t ∧ t.rel.lastFlush = some s.hub.timebase ∧ Only [.store] s t ∧
        t.flash.writing.length = s.flash.writing.length + 1) ∧
    (flashReady s = true → 0 < s.tally.uncopied → (∀ a, s.tally.lastCopy = some a → a + 1800000000000 ≤ s.hub.timebase) →
      ∃ t, exec .tallyFlashCopy s = .next t ∧ t.tally.uncopied = 0 ∧ t.tally.lastCopy = some s.hub.timebase ∧
        t.tally.copied = (s.tally.records.take s.tally.uncopied ++ s.tally.copied).take 2047 ∧ Only [.store, .power] s t) ∧
    (∀ v : Word, bit v.toNat 3 = true → s.flash.state = .attached → exec (.relFlashRelease v) s = .next { s with
      flash := { s.flash with state := if s.flash.writing.isEmpty then .released else .releasing } }) ∧
    (∀ v : Word, bit v.toNat 2 = true → s.flash.state = .released →
      exec (.relFlashAttach v false) s = .next { s with flash := { s.flash with state := .attachFailed } } ∧
      ∃ t, exec (.relFlashAttach v true) s = .next t ∧ t.flash.state = .attached ∧ t.flash.configA = .erased ∧
        t.flash.configB = .erased ∧ t.flash.mapA = mkBank .repairMap 1 ownPart 0 s.rel.map.flatten ∧
        t.flash.mapB = mkBank .repairMap 2 ownPart 0 s.rel.map.flatten)

/-! ### Registers, accounting, power -/

/-- The queues' registers (R624 to R627, R631, R711, R712): a doorbell of a RUNNING queue fetches the entries the host has written and
starts commands, or frees completion entries; a failed fetch stops the queue; EN starts and disables a queue, unless commands are in
progress or a job runs; the message ring starts the same way, and MSG_HEAD lets held messages follow. -/
def Obligations.QueueRegistersComplete : Prop :=
  ∀ (s : State) (q : Nat), q < 256 →
    (∀ v fetched images, (Instr.sqTailDoorbell q v fetched images).wf = true → (getQ s q).state = .running →
      let x := getQ s q
      let tail := bits v.toNat 11 0 % sqSize s q
      let n := (tail + sqSize s q - x.sqHead) % sqSize s q
      exec (.sqTailDoorbell q v fetched images) s =
        .next (startWaiting ((fetched.take n).foldl (takeEntry q) (setQ s q { x with sqTail := tail }, images)).1)) ∧
    ((getQ s q).state = .running → (getQ s q).sqHead ≠ (getQ s q).sqTail → ∃ t, exec (.commandFetchError q) s = .next t ∧
      getQ t q = { getQ s q with state := .stopped } ∧
      getReg t (hqBase q + 0x14) = (getReg s (hqBase q + 0x14) ||| 0x10000000#32)) ∧
    (∀ v, (getQ s q).state = .running → exec (.cqHeadDoorbell q v) s =
      .next (startWaiting (cqDrain (setQ s q { getQ s q with cqHead := bits v.toNat 11 0 }) q))) ∧
    (∀ v : Word, let u := storeMasked s (hqBase q + 16) (rwMask (hqBase q + 16)) v
      log2Ok (regBits u (hqBase q + 16) 11 8) = true → log2Ok (regBits u (hqBase q + 16) 3 0) = true →
      (hqEnabled s q = false → hqEnabled u q = true → exec (.hqCtlWrite q v) s = .next (startQueue u q)) ∧
      (hqEnabled s q = true → hqEnabled u q = false → regBits u (hqBase q + 16) 11 8 = regBits s (hqBase q + 16) 11 8 →
        regBits u (hqBase q + 16) 3 0 = regBits s (hqBase q + 16) 3 0 →
        ((getQ s q).inProg = [] → jobFrom s q = false →
          exec (.hqCtlWrite q v) s = .next (setQ u q { getQ u q with state := .disabled, waiting := [] })) ∧
        ((getQ s q).inProg ≠ [] ∨ jobFrom s q = true → exec (.hqCtlWrite q v) s =
          .next (setBits s (hqBase q + 0x14) 0x80000000#32)))) ∧
    (∀ v : Word, let u := storeMasked s 0x408 (rwMask 0x408) v
      bit (getReg s 0x408).toNat 31 = false → bit (getReg u 0x408).toNat 31 = true → log2Ok (regBits u 0x408 3 0) = true →
      exec (.msgCtlWrite v) s = .next (msgDrain { u with msg := { u.msg with tail := 0, head := 0, phase := true } })) ∧
    ∀ v : Word, exec (.msgHeadWrite v) s = .next (msgDrain { s with msg := { s.msg with head := bits v.toNat 11 0 } })

/-- Accesses to BAR0: 4 bytes write or read one register, 8 bytes two, the lower offset first, a write of another width none, an offset
that is no multiple of 4 none (R13); a read of BAR2 returns 0 (R623); a register of plain
bits stores its RW bits and clears its W1C bits written as 1 (R14). A read of a _LO register latches its _HI half, which the next read
of that half returns and uses up (R18), as long as the window of the register answers: that a half latched for a die that is then RESETTING
or POWERED_DOWN reads 0 is the model's choice between two rules (DESIGN CHOICE, notes/assumptions/53). -/
def Obligations.RegisterAccessesComplete : Prop :=
  ∀ (s : State) (off : Nat), off < 0x1000000 →
    (∀ v : BitVec 64,
      (off % 4 = 0 → exec (.registerWrite off 4 v) s = .next (writeReg s off (v.setWidth 32)) ∧
        exec (.registerWrite off 8 v) s = .next (writeReg (writeReg s off (v.setWidth 32)) (off + 4) ((v >>> 32).setWidth 32))) ∧
      (∀ n, off % 4 ≠ 0 ∨ (n ≠ 4 ∧ n ≠ 8) → exec (.registerWrite off n v) s = .next s)) ∧
    (∀ v : Word, let rw := BitVec.ofNat 32 (rwMask off)
      getReg (plainWrite s off v) off =
        (((getReg s off &&& ~~~rw) ||| (v &&& rw)) &&& ~~~(v &&& BitVec.ofNat 32 (w1cMask off))) ∧
      ∀ o, o ≠ off → getReg (plainWrite s off v) o = getReg s o) ∧
    (∀ width, 1 ≤ width → width ≤ 4096 →
      exec (.loReadLatch ⟨true, off, width⟩) s = .next { s with out := s.out ++ [.readZero 2 off width] } ∧
      (off % 4 ≠ 0 → exec (.loReadLatch ⟨false, off, width⟩) s = .next { s with out := s.out ++ [.readZero 0 off width] })) ∧
    (off % 4 = 0 → ∃ t, exec (.loReadLatch ⟨false, off, 4⟩) s = .next t ∧ Only [.host, .ids] s t ∧
      (off + 4 < 0x1000000 → exec (.loReadLatch ⟨false, off, 8⟩) s = exec (.loReadLatch ⟨false, off + 4, 4⟩) t) ∧
      t.out = s.out ++ [.readValue off (match answers s off, s.latches.find? fun l => l.1 == off with
        | true, some l => l.2
        | _, _ => readReg s off)] ∧
      (isLo off = true → off + 4 < 0x1000000 → ∀ u : State, u.latches = t.latches → ∃ w,
        exec (.loReadLatch ⟨false, off + 4, 4⟩) u = .next w ∧
        w.out = u.out ++ [.readValue (off + 4) (if answers u (off + 4) = true then readReg s (off + 4) else 0#32)] ∧
        (isLo (off + 4) = false → (w.latches.find? fun l => l.1 == off + 4) = none)))

/-- A die whose DIE_STATE reads RESETTING or POWERED_DOWN answers no read of its window but DIE_INFO with anything but 0, and discards
every write to it (R47); the totals of the accounts, which its reset does not touch, are held outside the window. The registers of a window that answers: a voltage code up to 50 is stored (R78); a margin up to 7 where no
resident context holds the cluster, else the write is refused (R97); the rate minimum restarts (R80), a ramp ends (R75), a rate is measured, with the stress of the margin (R81, R100; the
rounding is the model's, notes/assumptions/70); the counters of the
controllers and the tracker clear (R521, R523); a precision setting is stored while no job of its context runs, and a write of a reserved
code or during the job is refused (R403). -/
def Obligations.DieRegistersComplete : Prop :=
  ∀ (s : State) (d n : Nat) (v : Word), d < 4 → n < 32 →
    (windowOpen s d = true →
      (bits v.toNat 7 0 ≤ 50 → exec (.islVsetWrite d n v) s =
        .next (resettle (setReg s (islBase d n) (BitVec.ofNat 32 (bits v.toNat 7 0))))) ∧
      (50 < bits v.toNat 7 0 → exec (.islVsetWrite d n v) s = .next (setBits s (islBase d n + 4) 2#32)) ∧
      (bits v.toNat 3 0 < 8 → (bits v.toNat 3 0 = 0 ∨ ∀ c ∈ s.ctxs, c.resident = true → 32 * d + n ∉ c.set) →
        exec (.islMarginWrite d n v) s = .next (setReg s (islBase d n + 12) (BitVec.ofNat 32 (bits v.toNat 3 0)))) ∧
      (8 ≤ bits v.toNat 3 0 ∨ (bits v.toNat 3 0 ≠ 0 ∧ ∃ c ∈ s.ctxs, c.resident = true ∧ 32 * d + n ∈ c.set) →
        exec (.islMarginWrite d n v) s = .next (setBits s (islBase d n + 4) 4#32)) ∧
      (bit v.toNat 31 = true →
        exec (.islRateMinReset d n v) s = .next (modIsland s d n fun i => { i with rateMin := i.rateNow }) ∧
        exec (.trkPeakClr d v) s = .next { s with
          traffic := { s.traffic with trk := modAt s.traffic.trk d fun t => { t with peak := outstanding s d } } } ∧
        ∀ mc, mc < 3 → exec (.mcC0LatMaxClr d mc v) s = .next { s with
          traffic := { s.traffic with reads := modAt s.traffic.reads (3 * d + mc) fun r => { r with maxNs := 0 } } }) ∧
      ∀ slot reg, slot < 64 → reg < 256 → precMask reg ≠ 0 → reg % 4 = 0 →
        let off := precBase d slot + reg
        let u := storeMasked s off (precMask reg) v
        (precOk reg (getReg u off).toNat = true → (∀ c, slotOwner s d slot = some c → c.job = none) →
          exec (.precSettingWrite d slot reg v) s = .next (if reg = 0 then clearW1c u off v else u)) ∧
        (precOk reg (getReg u off).toNat = false ∨ (∃ c, slotOwner s d slot = some c ∧ c.job.isSome = true) →
          exec (.precSettingWrite d slot reg v) s = .next (setBits s (precBase d slot) 0x80000000#32))) ∧
    ((getDie s d).state = .resetting ∨ (getDie s d).state = .poweredDown →
      exec (.islVsetWrite d n v) s = .next s ∧ exec (.islMarginWrite d n v) s = .next s ∧
      exec (.islRateMinReset d n v) s = .next s ∧ exec (.trkPeakClr d v) s = .next s ∧
      (∀ mc slot reg, mc < 3 → slot < 64 → reg < 256 →
        exec (.mcC0LatMaxClr d mc v) s = .next s ∧ exec (.precSettingWrite d slot reg v) s = .next s) ∧
      ∀ o, o < 0x200000 → (o ≠ 0 → readReg s (0x400000 + 0x200000 * d + o) = 0#32) ∧
        exec (.registerWrite (0x400000 + 0x200000 * d + o) 4 (v.setWidth 64)) s = .next s) ∧
    (∀ a, totalOf (resetWindow s d) a = totalOf s a) ∧
    exec (.islRampDone d n) s = .next (modIsland s d n fun i => { i with ramping := false }) ∧
    ∀ rate, rate < 4096 →
      let r := min 4095 (rate * 100 / (100 - 4 * margin s d n))
      exec (.islRateUpdate d n rate) s = .next (modIsland s d n fun i => { i with rateNow := r, rateMin := min i.rateMin r })

/-- Quotas, windows, limits and accounts: a quota is stored while the reservations fit the tier or do not grow (R466), else the write is refused
(R467); a host window in use is not written (R485); the power limit lies between 1000 W and 3400 W (R775); PWR_PEAK, the accounting
blocks and the apportioned energy clear (R775, R677, R790); the counts of a context's dies flush into its ASN's totals (R678); a weight
fence that has blocked for its next period counts one more report (R478). -/
def Obligations.QuotasAndLimitsComplete : Prop :=
  ∀ (s : State) (asn : Nat) (v : Word), asn < 256 →
    (let off := tqBase asn
     let u := storeMasked s off (rwMask off) v
     (nearSum u ≤ nearPages ∨ nearSum u ≤ nearSum s → exec (.tqNearQuotaWrite asn v) s = .next (lowered u asn 0 (nearQuota s asn) (nearUse s asn) (nearQuota u asn))) ∧
     (nearPages < nearSum u → nearSum s < nearSum u → exec (.tqNearQuotaWrite asn v) s = .next (setBits s (off + 16) 0x80000000#32))) ∧
    (let off := tqBase asn + 8
     let u := storeMasked s off (rwMask off) v
     (cellarSum u ≤ backedPages s ∨ cellarSum u ≤ cellarSum s →
       exec (.tqCellarQuotaWrite asn v) s = .next (lowered u asn 1 (cellarQuota s asn) (cellarUse s asn) (cellarQuota u asn))) ∧
     (backedPages s < cellarSum u → cellarSum s < cellarSum u → exec (.tqCellarQuotaWrite asn v) s = .next (setBits s (tqBase asn + 16) 0x80000000#32))) ∧
    (∀ w reg, w < 16 → reg = 0 ∨ reg = 4 ∨ reg = 8 →
      let used := (s.decants.any fun d => d.asn == asn && d.window == some w) || (s.xfers.any fun x => x.asn == asn && x.window == w)
      exec (.hwWindowWrite asn w reg v) s = .next (if used then setBits s (tqBase asn + 16) 0x40000000#32
        else storeMasked s (hwBase asn w + reg) (rwMask (hwBase asn w + reg)) v)) ∧
    (let w := bits v.toNat 11 0
     (1000 ≤ w → w ≤ 3400 → exec (.pwrLimitWrite v) s = .next (setReg s 0xC00004 (BitVec.ofNat 32 w))) ∧
     (w < 1000 ∨ 3400 < w → exec (.pwrLimitWrite v) s = .next (setBits s 0xC00000 0x100#32))) ∧
    (bit v.toNat 31 = true → exec (.pwrPeakClr v) s = .next { s with power := { s.power with peakMw := 0 } }) ∧
    (bit v.toNat 0 = true → (∃ t, exec (.acctClr asn v) s = .next t ∧ totalOf t asn = .zero ∧
        (∀ a, a ≠ asn → totalOf t a = totalOf s a) ∧ Only [.regs, .acct] s t) ∧
      exec (.appClr v) s = .next { s with app := { s.app with idle := 0, asn := [] } }) ∧
    (∃ t, exec .acctFlush s = .next t ∧ Only [.ctxs, .acct] s t ∧
      ∀ c, s.ctxs = [c] → totalOf t c.asn = (totalOf s c.asn).add (c.fresh.foldl Acct.add .zero) ∧
        (ctxOf t c.asn).map (·.fresh) = some (List.replicate 4 .zero)) ∧
    ∀ (sem : Nat) (c : Ctx) (f : FencePeriod), (Instr.tierStall asn sem).wf = true → ctxOf s asn = some c →
      (c.fences.find? fun f => f.sem == sem) = some f → regBits s (tqBase asn + 16) 15 0 ≠ 0 →
      regBits s (tqBase asn + 16) 15 0 * 1000000 * (f.sent + 1) ≤ f.ns →
      ∃ t, exec (.tierStall asn sem) s = .next t ∧ Only [.ctxs, .host, .regs] s t ∧
        ((ctxOf t asn).bind fun c => c.fences.find? fun f => f.sem == sem) = some { f with sent := f.sent + 1 }

/-- Flags, regulators, screens and the reading windows (R735 to R739, R746, R752, R755, R758): the correct key sets and clears a die's
flag; a regulator is released where nine are healthy; START takes the clusters where they may be screened, else is refused; STOP ends
the screen ABORTED, as does an error of the service memory (R723); a round without a mismatch goes on, one with a mismatch is re-run
(CONFIRMING); an index latches its record. -/
def Obligations.ReliabilityRegistersComplete : Prop :=
  ∀ (s : State) (d : Nat) (v : Word), d < 4 → s.dies.length = 4 →
    (bits v.toNat 31 16 = 0x0CD9 →
      (bit v.toNat 9 = true → bit v.toNat 8 = false → dieIs s d .offline = true →
        ∃ t, exec (.relDieFlagSet d v) s = .next t ∧ (getDie t d).flag = 5 ∧ (getDie t d).state = .offline) ∧
      (bit v.toNat 8 = true → bit v.toNat 9 = false →
        ∃ t, exec (.relDieFlagClr d v) s = .next t ∧ (getDie t d).flag = 0)) ∧
    (bits v.toNat 31 16 ≠ 0x0CD9 → exec (.relDieFlagSet d v) s = .next s ∧ exec (.relDieFlagClr d v) s = .next s) ∧
    (∀ n, n < 9 → bit v.toNat 3 = true → vrm s n = .healthy → 9 ≤ healthyVrms s →
      exec (.relVrmRelease n v) s = .next (setVrm s n .released)) ∧
    (bit v.toNat 31 = true → bit v.toNat 30 = false →
      (screenOk s d = true → ∃ t, exec (.scrStart d v) s = .next t ∧ (getDie t d).screen.state = .running ∧
        (getDie t d).screen.round = 0 ∧ t.rel.screens = sat32 (s.rel.screens + 1) ∧ (getDie t d).screen.id = t.rel.screens) ∧
      (screenOk s d = false → exec (.scrStart d v) s = .next (setBits s (scrBase d + 0x14) 0x04000000#32))) ∧
    (bit v.toNat 30 = true → bit v.toNat 31 = false → (getDie s d).screen.state ≠ .idle →
      ∃ t, exec (.scrStop d v) s = .next t ∧ (getDie t d).screen.state = .idle ∧ (getDie t d).screen.outcome = 5) ∧
    (∀ r, (Instr.screenRoundDone d r).wf = true →
      let ms := screenMismatches s d r
      let seen := modDie s d fun y => { y with screen := y.screen.see ms (screenReference s d r).isSome r.testFails }
      ((getDie s d).screen.state ≠ .idle → r.serviceError = true →
        exec (.screenRoundDone d r) s = .next (finishScreen s d 5)) ∧
      ((getDie s d).screen.state = .running → r.serviceError = false →
      (ms = [] → exec (.screenRoundDone d r) s = .next (nextRound seen d)) ∧
      (ms ≠ [] → ∃ t, exec (.screenRoundDone d r) s = .next t ∧ (getDie t d).screen.state = .confirming ∧
        (getDie t d).screen.round = (getDie s d).screen.round))) ∧
    (∃ t, exec (.relLogIndexWrite v) s = .next t ∧ t.rel.latched = s.rel.log.reverse.getD (bits v.toNat 17 0) [] ∧
      t.rel.log = s.rel.log ∧ Only [.regs, .store] s t) ∧
    exec (.relMapIndexWrite v) s = .next (storeMasked s 0xD02004 (rwMask 0xD02004) v)

/-- The Tally (R776 to R787): intervals add up, a record closes with the 60th of them; unmetered running counts apart and numbers its own
records; release closes a record and ends RELEASED with the bypass closed and the records copied, attaching starts the self-test, whose
end is METERING with the Tally's own totals or FAULT; a Tally that fails or is pulled has its bypass closed, one that is opened its seal
broken; an index latches a record. -/
def Obligations.TallyEventsComplete : Prop :=
  ∀ s : State,
    (∀ e w v o, (Instr.tallyIntervalClose e w v o).wf = true → s.tally.state = .metering →
      let u := apportion { s with tally := addInterval s.tally e w v o } e
      (s.tally.recIntervals < 59 → ∃ t, exec (.tallyIntervalClose e w v o) s = .next t ∧ t.tally = addInterval s.tally e w v o ∧
        Only [.power, .acct] s t) ∧
      (59 ≤ s.tally.recIntervals → ∃ t r, exec (.tallyIntervalClose e w v o) s = .next t ∧
        t.tally.records = (r :: s.tally.records).take 1024 ∧ slice r 0 64 = recordBody u false ∧
        t.tally.recSeq = s.tally.recSeq + 1 ∧ t.tally.recIntervals = 0)) ∧
    (∀ e, (Instr.unmeteredIntervalClose e).wf = true → s.tally.state ≠ .metering →
      ∃ t, exec (.unmeteredIntervalClose e) s = .next t ∧ t.tally.unmTotal = s.tally.unmTotal + e ∧
        t.tally.unmIntervals = s.tally.unmIntervals + 1 ∧ t.tally.total = s.tally.total ∧ Only [.power, .acct] s t) ∧
    (s.tally.state = .metering → 60 ≤ s.tally.recIntervals →
      ∃ t r, exec .tallyRecordClose s = .next t ∧ t.tally.records = (r :: s.tally.records).take 1024 ∧
        slice r 0 64 = recordBody s false ∧ t.tally.recSeq = s.tally.recSeq + 1 ∧ t.tally.recIntervals = 0 ∧
        t.tally.total = s.tally.total) ∧
    (s.tally.state ≠ .metering → ∃ t, exec .unmeteredRecord s = .next t ∧ t.tally.unmSeq = s.tally.unmSeq + 1 ∧
      t.tally.unmRecord = 0 ∧ t.tally.records = s.tally.records) ∧
    (∀ v : Word, bits v.toNat 31 16 = 0x0CD9 →
      (bit v.toNat 0 = true → bit v.toNat 1 = false →
        (s.tally.state = .fault → exec (.tallyRelease v) s = .next { s with tally := { s.tally with state := .releasing } }) ∧
        (s.tally.state = .metering → s.tally.recIntervals < 60 → ∃ t r, exec (.tallyRelease v) s = .next t ∧
          t.tally.state = .releasing ∧ t.tally.records = (r :: s.tally.records).take 1024 ∧ t.tally.recSeq = s.tally.recSeq + 1)) ∧
      (bit v.toNat 0 = false → bit v.toNat 1 = true → (s.tally.state = .absent ∨ s.tally.state = .released) →
        exec (.tallyAttach v) s = .next { s with tally := { s.tally with state := .starting } })) ∧
    (s.tally.state = .releasing → ∃ t, exec .tallyReleaseDone s = .next t ∧ t.tally.state = .released ∧ t.tally.bypass = true ∧
      (flashReady s = true → t.tally.uncopied = 0)) ∧
    (∀ ok fw serial secs total seq broken, (Instr.tallySelfTestDone ok fw serial secs total seq broken).wf = true →
      s.tally.state = .starting → ∃ t, exec (.tallySelfTestDone ok fw serial secs total seq broken) s = .next t ∧
        (ok = true → t.tally.state = .metering ∧ t.tally.bypass = false ∧ t.tally.first = true ∧ t.tally.serial = serial ∧
          t.tally.total = total ∧ t.tally.seconds = secs ∧ t.tally.recSeq = seq ∧ t.tally.sealBroken = broken) ∧
        (ok = false → t.tally.state = .fault ∧ t.tally.bypass = true)) ∧
    (∀ v : Word, ∃ t, exec (.tallyRecIndexWrite v) s = .next t ∧
      t.tally.latched = (tallyRecords s (bit v.toNat 30)).getD (bits v.toNat 10 0) [] ∧ Only [.regs, .power] s t) ∧
    (s.tally.state ≠ .absent → ∃ t, exec .tallyPulled s = .next t ∧ t.tally.state = .absent ∧ t.tally.bypass = true ∧
      t.tally.gap = true) ∧
    (s.tally.state = .metering ∨ s.tally.state = .starting →
      ∃ t, exec .tallyFault s = .next t ∧ t.tally.state = .fault ∧ t.tally.bypass = true) ∧
    exec .tallySealOpened s = .next { s with tally := { s.tally with sealBroken := true } }

/-- Power and temperature: a step of the power loop stores P and its peak, and no power cap rises in a step whose P is above L (R765,
R767); a thermal step stores its junction, and no thermal cap rises in a step above 100.0 °C (R770); a reading begins or ends its
condition (R771), and a trip that begins drains its dies (R772); after ENVELOPE_RETURN inside the envelope no cap is below code 20
(R799). The input voltage is stored; loss of input power leaves the module off, at the start of its sequence and with every register at
its reset value, and a metering Tally marks the gap; a healthy regulator fails and a released one that is fitted is healthy; the loss
of the reference clock sets REF_LOST and REF_LOST_SEEN, its return clears REF_LOST (R93). -/
def Obligations.PowerEventsComplete : Prop :=
  ∀ s : State,
    (∀ p, (Instr.powerLoopTick p).wf = true → ∃ t, exec (.powerLoopTick p) s = .next t ∧ t.power.inputMw = p ∧
      t.power.peakMw = max s.power.peakMw p ∧
      (powerLimit s < p → ∀ d n, ((getDie t d).islands.getD n .reset).pcap ≤ ((getDie s d).islands.getD n .reset).pcap)) ∧
    (∀ d tj, (Instr.thermalCapTick d tj).wf = true → ∃ t, exec (.thermalCapTick d tj) s = .next t ∧
      t.power.tjDie = s.power.tjDie.set d tj ∧ t.power.cool = s.power.cool.set d (decide (tj ≤ 1000)) ∧
      (1000 < tj → ∀ e n, ((getDie t e).islands.getD n .reset).tcap ≤ ((getDie s e).islands.getD n .reset).tcap)) ∧
    (∀ source cause r, (Instr.thermal source cause r).wf = true → ∃ t, exec (.thermal source cause r) s = .next t ∧
      t.power.conds = (if (source, cause) ∈ s.power.conds then
          if thermalEnds cause r then s.power.conds.erase (source, cause) else s.power.conds
        else if thermalBegins cause r then s.power.conds ++ [(source, cause)] else s.power.conds)) ∧
    (∀ source cause r, (Instr.thermalTrip source cause r).wf = true → (source, cause) ∉ s.power.conds → thermalBegins cause r = true →
      exec (.thermalTrip source cause r) s = .next (if source < 4 then drainHold (thermalReading s source cause r) source 0
        else [0, 1, 2, 3].foldl (fun s d => drainHold s d 0) (thermalReading s source cause r))) ∧
    (outOfEnvelope s = false → ∃ t, exec .envelopeReturn s = .next t ∧
      ∀ x ∈ t.dies, ∀ i ∈ x.islands, 20 ≤ i.pcap ∧ 20 ≤ i.tcap) ∧
    (∀ mv, (Instr.inputVoltageChange mv).wf = true → ∃ t, exec (.inputVoltageChange mv) s = .next t ∧ t.power.vinMv = mv) ∧
    (∀ e w v, (Instr.inputPowerLoss e w v).wf = true → ∃ t, exec (.inputPowerLoss e w v) s = .next t ∧ t.hub.powered = false ∧
      t.hub.boot = .powerOn ∧ t.regs = [] ∧
      (s.tally.state = .metering → t.tally.gap = true ∧ t.tally.total = s.tally.total + e)) ∧
    (∀ n, n < 9 → s.power.vrms.length = 9 →
      (vrm s n = .healthy → ∃ t, exec (.regulatorFail n) s = .next t ∧ vrm t n = .failed) ∧
      (vrm s n = .released → ∃ t, exec (.regulatorFitted n) s = .next t ∧ vrm t n = .healthy)) ∧
    (s.hub.refLost = false → ∃ t, exec .refClockLost s = .next t ∧ t.hub.refLost = true ∧
      getReg t 0x208 = (getReg s 0x208 ||| 2#32) ∧ Only [.hub, .regs] s t) ∧
    exec .refClockReturn s = .next { s with hub := { s.hub with refLost := false } }

/-! ### Near memory, links, firings, keepers, codecs -/

/-- The controllers of the near tier (R490, R491, R493, R497 to R499, R501, R502): patrol scrub corrects and counts an error, or marks
the line and nominates its row; with SCRUB_EN 0 the error stays in its line; a nominated row gets a spare row, to which a line with an
error that cannot be corrected is copied poisoned; command parity errors count their retries, degrade the channel after three, and a
write that exhausts them leaves its line poisoned, a read leaves the memory as it is (R502). -/
def Obligations.NearMemoryEventsComplete : Prop :=
  ∀ (s : State) (d mc chan line row : Nat), d < 4 → s.dies.length = 4 → mc < 3 → chan < 32 → (getDie s d).mcs.length = 3 →
    (getMc s d mc).chans.length = 32 →
    (∀ err, (Instr.patrolScrub d mc chan line row err).wf = true → (getMc s d mc).state = .ready →
      bit (getReg s (mcCtl d mc)).toNat 0 = true → lineOn d mc chan line = true → rowFits row line = true → line ∉ s.poison →
      ∃ t, exec (.patrolScrub d mc chan line row err) s = .next t ∧ Only [.dies, .mem] s t ∧ t.mem = s.mem ∧
        (err = true → t.poison = s.poison ∧ (getMc t d mc).errCorr = sat32 ((getMc s d mc).errCorr + 1) ∧
          (getMc t d mc).errUncorr = (getMc s d mc).errUncorr) ∧
        (err = false → line ∈ t.poison ∧ (getMc t d mc).errUncorr = sat32 ((getMc s d mc).errUncorr + 1) ∧
          (chan, row) ∈ (getMc t d mc).nominated ∧ (getMc t d mc).errCorr = (getMc s d mc).errCorr)) ∧
    (∀ err, (Instr.patrolScrub d mc chan line row err).wf = true → bit (getReg s (mcCtl d mc)).toNat 0 = false →
      lineOn d mc chan line = true → rowFits row line = true → line ∉ s.poison → (∀ x ∈ s.cells, x.line ≠ line) →
      exec (.patrolScrub d mc chan line row err) s =
        .next { s with cells := s.cells ++ [{ line := line, row := row, fixable := err }] }) ∧
    ((Instr.rowRemap d mc chan row).wf = true → (chan, row) ∈ (getMc s d mc).nominated →
      (getMc s d mc).nominated.Nodup →
      ((getMc s d mc).chans.getD chan .reset).remap.length < 64 → ∃ t, exec (.rowRemap d mc chan row) s = .next t ∧
        (chan, row) ∉ (getMc t d mc).nominated ∧
        (∀ x ∈ s.cells, x.row = row → lineOn d mc chan x.line = true → x.fixable = false → x.line ∈ t.poison) ∧
        ((getMc t d mc).chans.getD chan .reset).remap =
          ((getMc s d mc).chans.getD chan .reset).remap ++ [{ row := row, fromMap := false }]) ∧
    ∀ retries read reader, (Instr.caParityError d mc chan retries read line reader).wf = true → lineOn d mc chan line = true →
      (retries ≤ 15 → ∃ t, exec (.caParityError d mc chan retries read line reader) s = .next t ∧ t.poison = s.poison ∧
        (getMc t d mc).caRetry = sat32 ((getMc s d mc).caRetry + retries) ∧
        ((getMc t d mc).chans.getD chan .reset).degraded =
          (((getMc s d mc).chans.getD chan .reset).degraded || decide (3 < retries))) ∧
      (15 < retries → ∃ u, (getMc u d mc).caExhausted = sat32 ((getMc s d mc).caExhausted + 1) ∧ u.mem = s.mem ∧ u.poison = s.poison ∧
        exec (.caParityError d mc chan retries read line reader) s =
          .next (if read then poisonReader u reader else addPoison u [line]))

/-- Vinelink ports (R527 to R530, R579, R796) and far-tier ports (R450, R453): a replay counts; a lane that fails in UP retrains the port
on three lanes; one in UP_3, or one more while it retrains so, takes it DOWN with that lane's bit set, as does a port that stops
answering: every packet to its partner that is not acknowledged is then to be sent again, and counts at that port when another one sends
it, as it was held; RETRAIN, a partner that starts training, and the end of training move it on. A far-tier port goes DOWN, by itself or on a request
that times out, and no byte of memory changes. -/
def Obligations.LinkEventsComplete : Prop :=
  ∀ (s : State) (n : Nat), n < 18 → s.ports.length = 18 →
    let p := s.ports.getD n .reset
    let moved := fun (f : Port → Port) => (modAt s.ports n f).map fun p => { p with spent := 0 }
    (p.carries = true → ∃ t, exec (.flitReplay n) s = .next t ∧ t.ports = modAt s.ports n (fun p => { p with replay := sat32 (p.replay + 1) }) ∧
      Only [.links] s t) ∧
    (∀ lane, lane < 4 → bit p.laneFailed lane = false →
      (p.state = .up → ∃ t, exec (.laneFail n lane) s = .next t ∧
        t.ports = moved (fun p => { p with state := .training, laneFailed := 2 ^ lane })) ∧
      (p.state = .up3 ∨ p.laneTraining = true → exec (.laneFail n lane) s = .next (goDown s n (2 ^ lane)))) ∧
    (p.laneTraining = true →
      exec (.laneRetrainDone n) s = .next (pumpPackets (setPort s n fun p => { p with state := .up3 })) ∧
      (setPort s n fun p => { p with state := .up3 }).ports = moved (fun p => { p with state := .up3 })) ∧
    (p.carries = true ∨ p.laneTraining = true → exec (.portDown n) s = .next (goDown s n 0) ∧
      ∀ lanes, ∃ u, goDown s n lanes = pumpPackets u ∧
        u.ports = moved (fun p => { p with state := .down, laneFailed := p.laneFailed ||| lanes }) ∧
        (u.firings = s.firings.map fun f => if sendsTo s (bits (portCfg s n) 11 0) f then
          { f with resend := f.resend ++ f.unacked.map (fun o => (o, n)), unacked := [] } else f) ∧
        Only [.regs, .host, .links, .groups, .store] s u) ∧
    (∀ (f : Firing) (g : Group) (port : Nat) (h : HeldPacket) (l : List (HeldPacket × Nat)), f.resend = (h, n) :: l →
      activeGroup s f.slot = some g → ((sendOne s f port).ports.getD n .reset).resend = sat32 (p.resend + 1) ∧
      (sendOne s f port).out = s.out ++ [packetOut f g port h]) ∧
    (bit (portCfg s n) 31 = true → locked s = true →
      (∀ v : Word, bit v.toNat 0 = true → (p.state = .down ∨ p.state = .absent ∨ p.state = .miswired) →
        ∃ t, exec (.vlPortRetrain n v) s = .next t ∧ t.ports = moved (fun p => { p with state := .training, laneFailed := 0 })) ∧
      (p.state = .absent → ∃ t, exec (.peerTraining n) s = .next t ∧
        t.ports = moved (fun p => { p with state := .training, laneFailed := 0 }))) ∧
    (∀ r, (Instr.portRetrainDone n r).wf = true → p.state = .training → p.laneFailed = 0 → locked s = true →
      exec (.portRetrainDone n r) s = .next (pumpPackets (endTraining s n r)) ∧
      ((endTraining s n r).ports.getD n .reset).state = if bit (portCfg s n) 31 then trainedState (portCfg s n) r else .disabled) ∧
    ∀ q, q < 2 → s.farPorts.length = 2 → farUp s q = true →
      ∃ t, exec (.farPortDown q) s = .next t ∧ exec (.cxlRequestTimeout q) s = .next t ∧
        t.farPorts = modAt s.farPorts q (fun x => { x with state := .down }) ∧ t.mem = s.mem

/-- Firings (R534, R542, R543, R547, R549, R554, R558, R567 to R569): the lowest ready entry fires; a clear-to-send meets its firing, is
held, or is refused by a full table; this module's own refused clear-to-send is sent again; what of a packet is new lands once, and the
packet is acknowledged each time, after its firing is over too; an acknowledgement frees its credit; a firing that is done writes its
record, then its flags, its semaphore and its chain counter, or stops where the record's page takes no write; an abort stops its firing
or is held; a wait of WD_MS is reported. While the ports idle in Dormant and at wake, what comes over them waits (R572). -/
def Obligations.FiringsComplete : Prop :=
  (∀ s : State, portsIdle s = true →
    let waits := fun (i : Instr) => i.wf = true → exec i s = .next { s with paused := s.paused ++ [i] }
    (∀ x r, waits (.ctsArrival x r) ∧ waits (.ctsRetry x r)) ∧ (∀ p, waits (.packetArrival p)) ∧
    ∀ tag gen seq n, waits (.packetAck tag gen seq n) ∧ waits (.abortArrival tag gen seq n)) ∧
  ∀ s : State, linksRun s = true →
    (∀ (asn entry : Nat) (c : Ctx) (a : Armed) (g : Group) (to_ from_ : Nat), (Instr.trellisFire asn entry).wf = true →
      ctxOf s asn = some c → (c.armed.find? fun a => entryReady s c a) = some a → a.entry = entry →
      activeGroup s (entryOf a.bytes).group = some g →
      let s1 := setArmed (readPerm s c (entryOf a.bytes) g) asn a.fired
      let f := newFiring c a to_ from_
      fireRanks s1 c (entryOf a.bytes) g = .ok (to_, from_) → startError s1 f = none → findFiring s1 f.slot f.seq = none →
      exec (.trellisFire asn entry) s = .next (enterFiring s1 g f) ∧
      a.fired.threshold = sat32 (a.threshold + (entryOf a.bytes).step) ∧ a.fired.live = ((entryOf a.bytes).step != 0)) ∧
    (∀ (x : Cts) (r i : Nat) (g : Group), (Instr.ctsArrival x r).wf = true → findGroup s x.tag x.gen = some (i, g) →
      (∀ f, findFiring s i x.seq = some f → f.toRank = r → f.cleared = false → x.bytes = f.bytes → x.addFmt = f.addFmt →
        exec (.ctsArrival x r) s = .next (pumpPackets (setFiring s { f with cleared := true })) ∧
        (g.rank ≠ r → exec (.ctsRetry x r) s = .next (pumpPackets (setFiring s { f with cleared := true })))) ∧
      (findFiring s i x.seq = none → g.cts.length < 64 → ∃ t, exec (.ctsArrival x r) s = .next t ∧
        (g.rank ≠ r → exec (.ctsRetry x r) s = .next t) ∧
        activeGroup t i = some { g with cts := g.cts ++ [{ seq := x.seq, bytes := x.bytes, addFmt := x.addFmt, fromRank := r }] } ∧
        Only [.groups] s t) ∧
      (findFiring s i x.seq = none → 64 ≤ g.cts.length → exec (.ctsArrival x r) s =
        .next { s with out := s.out ++ [.ctsRefused g.tag g.gen x.seq r] }) ∧
      (∀ f, findFiring s i x.seq = some f → g.rank = r → f.fromRank ≠ g.rank → f.bytes = x.bytes → f.addFmt = x.addFmt →
        exec (.ctsRetry x r) s = .next { s with out := s.out ++ [.cts g.tag g.gen f.seq f.bytes f.addFmt f.fromRank] })) ∧
    (∀ (p : Packet) (i : Nat) (g : Group) (f : Firing), (Instr.packetArrival p).wf = true → findGroup s p.tag p.gen = some (i, g) →
      findFiring s i p.seq = some f → f.fits p = true → f.fromRank ≠ g.rank →
      (f.fresh p = [] → exec (.packetArrival p) s = .next (ackOut s g f p.offset)) ∧
      (∀ t, (f.fresh p).length = p.data.length / 64 → landPacket s f p.offset p.data p.poisoned = .ok t →
        exec (.packetArrival p) s = .next (ackOut t g f p.offset)) ∧
      (∀ t, (f.fresh p).length ≠ p.data.length / 64 → landLines s f p (f.fresh p) = .ok t →
        exec (.packetArrival p) s = .next (ackOut t g f p.offset))) ∧
    (∀ (p : Packet) (i r : Nat) (g : Group) (rs : List (Nat × Nat)), (Instr.packetArrival p).wf = true →
      findGroup s p.tag p.gen = some (i, g) → findFiring s i p.seq = none →
      (g.overLanded.find? fun o => o.1 == p.seq) = some (p.seq, r, rs) →
      p.offset + p.data.length ≤ coverFrom rs rs.length p.offset →
      exec (.packetArrival p) s = .next { s with out := s.out ++ [.ack g.tag g.gen p.seq p.offset r] }) ∧
    (∀ (tag gen seq off i : Nat) (g : Group) (f : Firing), (Instr.packetAck tag gen seq off).wf = true →
      findGroup s tag gen = some (i, g) → findFiring s i seq = some f →
      exec (.packetAck tag gen seq off) s = .next (pumpPackets (setFiring s
        { f with unacked := f.unacked.filter fun p => p.off != off, resend := f.resend.filter fun r => r.1.off != off }))) ∧
    (∀ (asn entry : Nat) (f : Firing), (Instr.firingComplete asn entry).wf = true →
      (s.firings.find? fun f => f.asn == asn && f.entry == entry) = some f → f.done = true →
      (∀ e, recordError s f = some e → exec (.firingComplete asn entry) s = .next (stopFiring s f e.fire none)) ∧
      (recordError s f = none →
        let s1 := orFlags (writeRecord s f 0) asn f.flags
        let s2 := match f.doneSem with
          | some i => addSem s1 asn i 1
          | none => s1
        let s3 := match f.chain with
          | some i => addCounter s2 asn i 1
          | none => s2
        exec (.firingComplete asn entry) s = .next (pumpPackets (dropFiring s3 f)) ∧
        ∀ x ∈ (dropFiring s3 f).firings, ¬(x.asn = asn ∧ x.entry = entry))) ∧
    (∀ (tag gen seq reason i : Nat) (g : Group), (Instr.abortArrival tag gen seq reason).wf = true →
      findGroup s tag gen = some (i, g) →
      (∀ f, findFiring s i seq = some f → exec (.abortArrival tag gen seq reason) s = .next (stopFiring s f (abortStatus reason) none)) ∧
      (findFiring s i seq = none → seq ∉ g.overSeqs → exec (.abortArrival tag gen seq reason) s =
        .next (modGroup s i fun g => { g with aborts := g.aborts ++ [(seq, reason)] }))) ∧
    ∀ (asn entry r : Nat) (f : Firing) (g : Group), (Instr.groupWait asn entry).wf = true →
      (s.firings.find? fun f => f.asn == asn && f.entry == entry) = some f → activeGroup s f.slot = some g →
      f.waitsFor g.rank = some r → g.wdMs ≠ 0 → (f.reports + 1) * g.wdMs * 1000000 ≤ f.waitNs →
      ∃ t, exec (.groupWait asn entry) s = .next t ∧
        t.firings = (setFiring s { f with reports := f.reports + 1 }).firings ∧ Only [.regs, .host, .groups, .store] s t

/-- The version keeper and the codec units (R433, R434, R589, R596, R600, R611): each action of the keeper changes its set as the rule
says, in the order RETIRE, PUBLISH, CLAIM, PIN; a unit consumes an entry of its stream, switches to the stream that is due, is
at a frame boundary when its frame is done, counts a release, which makes room for outputs that wait, and writes a paced record when its
time on the unit's pacing clock has come. -/
def Obligations.KeeperAndCodecsComplete : Prop :=
  (∀ (s : State) (asn n : Nat) (v : VersionSet), (Instr.keeperPin asn n).wf = true → setOf s asn n = some v → hubRuns s = true →
    (canRetire s asn v = true → ∃ t, exec (.keeperRetire asn n) s = .next t ∧ setOf t asn n = some v.retire) ∧
    (canRetire s asn v = false → canPublish s asn v = true → ∃ t, exec (.keeperPublish asn n) s = .next t ∧
      setOf t asn n = some (v.publish (sat32 (setCount s asn v 5 + 1)))) ∧
    (canRetire s asn v = false → canPublish s asn v = false → canClaim s asn v = true →
      ∃ t, exec (.keeperClaim asn n) s = .next t ∧ setOf t asn n = some v.claim) ∧
    (canRetire s asn v = false → canPublish s asn v = false → canClaim s asn v = false → canPin s asn v = true →
      ∃ t, exec (.keeperPin asn n) s = .next t ∧ setOf t asn n = some v.pin)) ∧
  (∀ (s : State) (id : Nat) (t : Stream), id < 128 → s.codecs.length = 4 → (∀ u ∈ s.codecs, u.streams.length = 32) →
    getStream s id = some t → t.state = .opened → hubRuns s = true →
    (∀ e l, t.ending = false → t.closing = [] → parFed t.par = true → t.fed = e :: l →
      ∃ u, exec (.codecSubmitConsume id) s = .next u ∧ Only [.codecs] s u ∧
        getStream u id = some { t with fed := l, inCount := t.inCount + 1, ready := t.ready ++
          [{ index := t.inCount, entry := e.entry, hdr := some e.hdr, poisoned := false, unread := false }] }) ∧
    (t.ending = false → t.closing = [] → parFed t.par = false → semCount s t.asn t.semBase ≠ 0 →
      let r := agentReads s t.asn (parRingVA t.par + 64 * (t.inCount % parRing t.par)) 64
      ∃ u, exec (.codecSubmitConsume id) s = .next u ∧ Only [.dies, .ctxs, .codecs, .mem, .ids, .traffic] s u ∧
        getStream u id = some { t with inCount := t.inCount + 1, ready := t.ready ++ [readEntry r t] }) ∧
    (parFed t.par = false → t.released < t.outCount → semCount s t.asn (t.semBase + 3) ≠ 0 →
      ∃ u, exec (.codecReleaseConsume id) s = .next (drainStream u id) ∧ Only [.ctxs, .codecs] s u ∧ getStream u id = some (t.release 1)) ∧
    (∀ r due l, t.paced = (r, due) :: l → due ≤ (getCodec s (id / 32)).clock → ∃ u w,
      exec (.codecPacedRecord id) s = .next u ∧ getStream u id = some w ∧ w.outCount = t.outCount + 1 ∧ w.paced = l)) ∧
  ∀ (s : State) (u : Nat), u < 4 → s.codecs.length = 4 →
    (∀ k, (getCodec s u).current = none → s.hub.boot = .ready → s.hub.powered = true → pickStream (getCodec s u) = some k →
      ∃ t, exec (.codecStreamSwitch u) s = .next t ∧ (getCodec t u).current = some k ∧
      (getCodec t u).work = ((getCodec s u).streams.getD k none).map Stream.work ∧ Only [.codecs] s t) ∧
    ((getCodec s u).current ≠ none → ∃ t, exec (.codecFrameDone u) s = .next t ∧ (getCodec t u).current = none ∧ (getCodec t u).work = none)
end

