-- ==== Sys2Proof/Laws/Memory.lean ====
section
/-! SUPPORT. Laws/Memory.lean: the sparse memory keeps its canonical form under every operation of its own, a read after a write
gives what was written there, and the reset memory has the form. -/

namespace Sys2Proof.Machine

/-- Every entry of a list of cells lies above an address. -/
def Mem.above (m : Mem) (a : Nat) : Prop := ∀ c ∈ m, a < c.1

theorem Mem.wf_cons (k : Nat) (v : Byte) (t : Mem) :
    Mem.wf ((k, v) :: t) = true ↔ v ≠ 0#8 ∧ Mem.above t k ∧ Mem.wf t = true := by
  induction t generalizing k v with
  | nil => simp [Mem.wf, Mem.above]
  | cons c t ih =>
    obtain ⟨k', v'⟩ := c
    rw [Mem.wf]
    simp only [Bool.and_eq_true, bne_iff_ne, decide_eq_true_eq, and_assoc]
    constructor
    · rintro ⟨h1, h2, h3⟩
      refine ⟨h1, ?_, h3⟩
      intro c hc
      rcases List.mem_cons.1 hc with rfl | hc
      · exact h2
      · exact Nat.lt_trans h2 (((ih k' v').1 h3).2.1 c hc)
    · rintro ⟨h1, h2, h3⟩
      exact ⟨h1, h2 _ (List.mem_cons_self ..), h3⟩

theorem Mem.above_write {m : Mem} {a k : Nat} {v : Byte} (h : Mem.above m k) (hk : k < a) : Mem.above (m.write a v) k := by
  induction m with
  | nil => intro c hc; unfold Mem.write at hc; split at hc <;> simp_all
  | cons c t ih =>
    obtain ⟨j, w⟩ := c
    have ht : Mem.above t k := fun c hc => h c (List.mem_cons_of_mem _ hc)
    have hj : k < j := h (j, w) (List.mem_cons_self ..)
    unfold Mem.write
    intro c hc
    split at hc
    · split at hc
      · exact h c hc
      · rcases List.mem_cons.1 hc with rfl | hc
        · exact hk
        · exact h c hc
    · split at hc
      · split at hc
        · exact ht c hc
        · rcases List.mem_cons.1 hc with rfl | hc
          · exact hk
          · exact ht c hc
      · rcases List.mem_cons.1 hc with rfl | hc
        · exact hj
        · exact ih ht c hc

/-- A byte write keeps the canonical form. -/
theorem Mem.wf_write {m : Mem} (a : Nat) (v : Byte) (h : m.wf = true) : (m.write a v).wf = true := by
  induction m with
  | nil => unfold Mem.write; split <;> simp_all [Mem.wf]
  | cons c t ih =>
    obtain ⟨j, w⟩ := c
    obtain ⟨h1, h2, h3⟩ := (Mem.wf_cons ..).1 h
    unfold Mem.write
    split
    · rename_i hlt
      split
      · exact h
      · rename_i hv
        refine (Mem.wf_cons ..).2 ⟨hv, ?_, h⟩
        intro c hc
        rcases List.mem_cons.1 hc with rfl | hc
        · exact hlt
        · exact Nat.lt_trans hlt (h2 c hc)
    · split
      · rename_i heq
        split
        · exact h3
        · rename_i hv
          exact (Mem.wf_cons ..).2 ⟨hv, heq ▸ h2, h3⟩
      · exact (Mem.wf_cons ..).2 ⟨h1, Mem.above_write h2 (by omega), ih h3⟩

/-- Writing bytes keeps the canonical form. -/
theorem Mem.wf_writeN {m : Mem} (a : Nat) (b : Bytes) (h : m.wf = true) : (m.writeN a b).wf = true := by
  induction b generalizing m a with
  | nil => exact h
  | cons x t ih => exact ih _ (Mem.wf_write _ _ h)

/-- What a filter leaves is canonical. -/
theorem Mem.wf_filter {m : Mem} (p : Host.Cell → Bool) (h : m.wf = true) : Mem.wf (m.filter p) = true := by
  induction m with
  | nil => rfl
  | cons c t ih =>
    obtain ⟨k, v⟩ := c
    obtain ⟨h1, h2, h3⟩ := (Mem.wf_cons ..).1 h
    rw [List.filter_cons]
    split
    · exact (Mem.wf_cons ..).2 ⟨h1, fun c hc => h2 c (List.mem_filter.1 hc).1, ih h3⟩
    · exact ih h3

/-- Clearing a range keeps the canonical form. -/
theorem Mem.wf_clear {m : Mem} (lo hi : Nat) (h : m.wf = true) : (m.clear lo hi).wf = true := Mem.wf_filter _ h

/-- Writing a list of cells keeps the canonical form. -/
theorem Mem.wf_foldl_write (l : List Host.Cell) (f : Host.Cell → Nat) {m : Mem} (h : m.wf = true) :
    Mem.wf (l.foldl (fun acc c => acc.write (f c) c.2) m) = true := by
  induction l generalizing m with
  | nil => exact h
  | cons c t ih => exact ih (Mem.wf_write _ _ h)

/-- Copying a range keeps the canonical form. -/
theorem Mem.wf_copy {m : Mem} (src dst n : Nat) (h : m.wf = true) : (m.copy src dst n).wf = true :=
  Mem.wf_foldl_write _ (fun c => c.1 - src + dst) (Mem.wf_clear _ _ h)

/-- A tidied list of cells is canonical. -/
theorem Mem.wf_tidy (m : List Host.Cell) : (Mem.tidy m).wf = true := Mem.wf_foldl_write m (fun c => c.1) rfl

/-- A physical write keeps the canonical form, whatever the poison marks. -/
theorem Mem.wf_physWriteBytes {m : Mem} (poison : List Nat) (pa n a : Nat) (b : Bytes) (h : m.wf = true) :
    Mem.wf (physWriteBytes m poison pa n a b) = true := by
  induction b generalizing m a with
  | nil => exact h
  | cons x t ih =>
    unfold physWriteBytes
    apply ih
    split
    · exact Mem.wf_write _ _ h
    · exact h

/-- A byte written reads back, and every other address reads as before. -/
theorem Mem.read_write {m : Mem} (a b : Nat) (v : Byte) (h : m.wf = true) :
    (m.write a v).read b = if b = a then v else m.read b := by
  induction m with
  | nil =>
    unfold Mem.write
    split
    · rename_i hv
      subst hv
      split <;> rfl
    · show (if a = b then v else 0#8) = if b = a then v else 0#8
      by_cases hb : b = a
      · rw [if_pos hb.symm, if_pos hb]
      · rw [if_neg (Ne.symm hb), if_neg hb]
  | cons c t ih =>
    obtain ⟨j, w⟩ := c
    obtain ⟨h1, h2, h3⟩ := (Mem.wf_cons ..).1 h
    have low : ∀ {t : Mem} {k : Nat}, Mem.above t k → t.read k = 0#8 := by
      intro t k ht
      induction t with
      | nil => rfl
      | cons c t ih =>
        obtain ⟨i, x⟩ := c
        have : k < i := ht (i, x) (List.mem_cons_self ..)
        rw [Mem.read, if_neg (by omega)]
        exact ih fun c hc => ht c (List.mem_cons_of_mem _ hc)
    unfold Mem.write
    split
    · rename_i hlt
      split
      · rename_i hv
        by_cases hb : b = a
        · subst hb
          rw [if_pos rfl, hv]
          refine low ?_
          intro c hc
          rcases List.mem_cons.1 hc with rfl | hc
          · exact hlt
          · exact Nat.lt_trans hlt (h2 c hc)
        · rw [if_neg hb]
      · rw [Mem.read]
        by_cases hb : b = a
        · rw [if_pos hb.symm, if_pos hb]
        · rw [if_neg (Ne.symm hb), if_neg hb]
    · split
      · rename_i heq
        subst heq
        split
        · rename_i hv
          by_cases hb : b = a
          · subst hb; rw [if_pos rfl, hv]; exact low h2
          · rw [if_neg hb, Mem.read, if_neg (Ne.symm hb)]
        · rw [Mem.read, Mem.read]
          by_cases hb : b = a
          · rw [if_pos hb.symm, if_pos hb]
          · rw [if_neg (Ne.symm hb), if_neg (Ne.symm hb), if_neg hb]
      · rw [Mem.read, Mem.read, ih h3]
        by_cases hb : j = b
        · rw [if_pos hb, if_pos hb, if_neg (by omega)]
        · rw [if_neg hb, if_neg hb]

end Sys2Proof.Machine
end

