-- ==== Sys2Proof/Laws/Keeps.lean ====
section
/-! SUPPORT. Laws/Keeps.lean: what every operation of the block keeps: the queue of waiting commands, the invariant of Safety.lean,
and the timebase (which only a module reset sets back, to 0). -/

set_option Elab.async false

namespace Sys2Proof.Machine

theorem Part.same_refl (x : Part) (s : State) : x.same s s := by
  cases x <;> simp [Part.same]

theorem Part.same_trans {x : Part} {r s t : State} (h : x.same r s) (k : x.same s t) : x.same r t := by
  cases x <;> simp_all [Part.same]

/-- `t` follows from `s` by operations that leave the queue of commands alone, keep the invariant, leave the timebase alone or
reset it, and change only the parts in `w₀`. -/
structure Keeps (w₀ : Part → Prop) (s t : State) : Prop where
  pending : t.pending = s.pending
  inv : s.Inv → t.Inv
  time : t.hub.timebase = s.hub.timebase ∨ t.hub.timebase = 0
  frame : ∀ x, w₀ x ∨ x.same s t

theorem Keeps.refl {w₀ : Part → Prop} (s : State) : Keeps w₀ s s := ⟨rfl, id, .inl rfl, fun x => .inr (x.same_refl s)⟩

theorem Keeps.trans {w₀ : Part → Prop} {r s t : State} (h : Keeps w₀ r s) (k : Keeps w₀ s t) : Keeps w₀ r t where
  pending := k.pending.trans h.pending
  inv := fun i => k.inv (h.inv i)
  time := by
    rcases k.time with a | a
    · rcases h.time with b | b
      · exact .inl (a.trans b)
      · exact .inr (a.trans b)
    · exact .inr a
  frame := fun x => by
    rcases h.frame x with a | a
    · exact .inl a
    · rcases k.frame x with b | b
      · exact .inl b
      · exact .inr (Part.same_trans a b)

/-- A fold of operations that keep. -/
theorem Keeps.foldl {w₀ : Part → Prop} {r s : State} {α : Type} {f : State → α → State} {l : List α} (h : Keeps w₀ r s)
    (hf : ∀ x s, Keeps w₀ r s → Keeps w₀ r (f s x)) : Keeps w₀ r (l.foldl f s) := by
  induction l generalizing s with
  | nil => exact h
  | cons x t ih => exact ih (hf x s h)

/-- A choice between two states. -/
theorem Keeps.ite {w₀ : Part → Prop} {r s t : State} {p : Prop} [Decidable p] (h : Keeps w₀ r s) (k : Keeps w₀ r t) : Keeps w₀ r (if p then s else t) := by
  split
  · exact h
  · exact k

/-- A state put together from its fields, as a name of its own, so that no lemma takes another state for one. -/
@[irreducible] def State.build
    (pending paused : List Instr) (hub : Hub) (flash : Flash) (regs : List (Nat × Word)) (latches : List (Nat × Word))
    (queues : List (Nat × HostQueue)) (msg : MsgRing) (out : List Out) (dies : List Die) (spaces : List Space)
    (ctxs : List Ctx) (promotions : List Promotion) (fills : List ZeroFill) (migrations : List Migration)
    (decants : List Decant) (xfers : List Xfer) (ports : List Port) (farPorts : List FarPort) (groups : List (Option Group))
    (firings : List Firing) (codecs : List Codec) (modes : Modes) (power : Power) (tally : Tally) (app : Apportion)
    (rel : Rel) (totals : List (Nat × Acct)) (mem : Mem) (poison : List Nat) (cells : List CellError)
    (traffic : Traffic) (exported : List Ctx) (nextId : Nat)
    (free : Nat) : State :=
  State.mk pending paused hub flash regs latches queues msg out dies spaces ctxs promotions fills migrations decants xfers ports
  farPorts groups firings codecs modes power tally app rel totals mem poison cells traffic exported nextId free

theorem State.mk_build
    (pending paused : List Instr) (hub : Hub) (flash : Flash) (regs : List (Nat × Word)) (latches : List (Nat × Word))
    (queues : List (Nat × HostQueue)) (msg : MsgRing) (out : List Out) (dies : List Die) (spaces : List Space)
    (ctxs : List Ctx) (promotions : List Promotion) (fills : List ZeroFill) (migrations : List Migration)
    (decants : List Decant) (xfers : List Xfer) (ports : List Port) (farPorts : List FarPort) (groups : List (Option Group))
    (firings : List Firing) (codecs : List Codec) (modes : Modes) (power : Power) (tally : Tally) (app : Apportion)
    (rel : Rel) (totals : List (Nat × Acct)) (mem : Mem) (poison : List Nat) (cells : List CellError)
    (traffic : Traffic) (exported : List Ctx) (nextId : Nat)
    (free : Nat) :
    State.mk pending paused hub flash regs latches queues msg out dies spaces ctxs promotions fills migrations decants xfers ports
    farPorts groups firings codecs modes power tally app rel totals mem poison cells traffic exported nextId free = State.build pending paused hub
    flash regs latches queues msg out dies spaces ctxs promotions fills migrations decants xfers ports farPorts groups
    firings codecs modes power tally app rel totals mem poison cells traffic exported nextId free := by
  unfold State.build
  rfl

/-- An update of a state that keeps its queue, its memories, its timebase and the number of its parts. -/
theorem Keeps.upd {w₀ : Part → Prop} {r s : State} (h : Keeps w₀ r s)
    {paused : List Instr} {hub : Hub} {flash : Flash} {regs : List (Nat × Word)} {latches : List (Nat × Word)} {queues : List (Nat × HostQueue)}
    {msg : MsgRing} {out : List Out} {dies : List Die} {spaces : List Space} {ctxs : List Ctx} {promotions : List Promotion}
    {fills : List ZeroFill} {migrations : List Migration} {decants : List Decant} {xfers : List Xfer} {ports : List Port}
    {farPorts : List FarPort} {groups : List (Option Group)} {firings : List Firing} {codecs : List Codec} {modes : Modes}
    {power : Power} {tally : Tally} {app : Apportion} {rel : Rel} {totals : List (Nat × Acct)} {mem : Mem}
    {poison : List Nat} {cells : List CellError} {traffic : Traffic} {exported : List Ctx} {nextId : Nat} {free : Nat}
    (ht : hub.timebase = s.hub.timebase)
    (hd : s.dies.length = 4 → dies.length = 4) (hp : s.ports.length = 18 → ports.length = 18)
    (hf : s.farPorts.length = 2 → farPorts.length = 2) (hg : s.groups.length = 64 → groups.length = 64)
    (hc : s.codecs.length = 4 → codecs.length = 4)
    (hm : s.mem.wf = true → mem.wf = true) (hx : r.Inv → (∀ c ∈ s.ctxs, c.canon) → ∀ c ∈ ctxs, c.canon)
    (he : r.Inv → (∀ c ∈ s.exported, c.canon) → ∀ c ∈ exported, c.canon)
    (w_hub : w₀ .hub ∨ (hub = s.hub) := by
      with_reducible first | exact Or.inr rfl | exact Or.inl (by assumption))
    (w_regs : w₀ .regs ∨ (regs = s.regs) := by
      with_reducible first | exact Or.inr rfl | exact Or.inl (by assumption))
    (w_host : w₀ .host ∨ (latches = s.latches ∧ queues = s.queues ∧ msg = s.msg ∧ out = s.out) := by
      with_reducible first | exact Or.inr ⟨rfl, rfl, rfl, rfl⟩ | exact Or.inl (by assumption))
    (w_dies : w₀ .dies ∨ (dies = s.dies) := by
      with_reducible first | exact Or.inr rfl | exact Or.inl (by assumption))
    (w_pages : w₀ .pages ∨ (spaces = s.spaces ∧ promotions = s.promotions) := by
      with_reducible first | exact Or.inr ⟨rfl, rfl⟩ | exact Or.inl (by assumption))
    (w_moves : w₀ .moves ∨ (fills = s.fills ∧ migrations = s.migrations ∧ decants = s.decants ∧ xfers = s.xfers) := by
      with_reducible first | exact Or.inr ⟨rfl, rfl, rfl, rfl⟩ | exact Or.inl (by assumption))
    (w_ctxs : w₀ .ctxs ∨ (ctxs = s.ctxs ∧ exported = s.exported) := by
      with_reducible first | exact Or.inr ⟨rfl, rfl⟩ | exact Or.inl (by assumption))
    (w_links : w₀ .links ∨ (ports = s.ports ∧ farPorts = s.farPorts) := by
      with_reducible first | exact Or.inr ⟨rfl, rfl⟩ | exact Or.inl (by assumption))
    (w_groups : w₀ .groups ∨ (groups = s.groups ∧ firings = s.firings ∧ paused = s.paused) := by
      with_reducible first | exact Or.inr ⟨rfl, rfl, rfl⟩ | exact Or.inl (by assumption))
    (w_codecs : w₀ .codecs ∨ (codecs = s.codecs) := by
      with_reducible first | exact Or.inr rfl | exact Or.inl (by assumption))
    (w_modes : w₀ .modes ∨ (modes = s.modes) := by
      with_reducible first | exact Or.inr rfl | exact Or.inl (by assumption))
    (w_power : w₀ .power ∨ (power = s.power ∧ tally = s.tally) := by
      with_reducible first | exact Or.inr ⟨rfl, rfl⟩ | exact Or.inl (by assumption))
    (w_acct : w₀ .acct ∨ (app = s.app ∧ totals = s.totals) := by
      with_reducible first | exact Or.inr ⟨rfl, rfl⟩ | exact Or.inl (by assumption))
    (w_store : w₀ .store ∨ (flash = s.flash ∧ rel = s.rel) := by
      with_reducible first | exact Or.inr ⟨rfl, rfl⟩ | exact Or.inl (by assumption))
    (w_mem : w₀ .mem ∨ (mem = s.mem ∧ poison = s.poison ∧ cells = s.cells) := by
      with_reducible first | exact Or.inr ⟨rfl, rfl, rfl⟩ | exact Or.inl (by assumption))
    (w_ids : w₀ .ids ∨ (nextId = s.nextId ∧ free = s.free) := by
      with_reducible first | exact Or.inr ⟨rfl, rfl⟩ | exact Or.inl (by assumption))
    (w_traffic : w₀ .traffic ∨ (traffic = s.traffic) := by
      with_reducible first | exact Or.inr rfl | exact Or.inl (by assumption)) :
    Keeps w₀ r (State.build s.pending paused hub flash regs latches queues msg out dies spaces ctxs promotions fills migrations decants xfers
      ports farPorts groups firings codecs modes power tally app rel totals mem poison cells traffic exported nextId free) := by
  rw [← State.mk_build]
  refine ⟨h.pending, fun i => ?_, ?_, fun x => ?_⟩
  · have k := h.inv i
    exact ⟨hm k.mem, hx i k.ctxs, he i k.exported, hd k.dies, hp k.ports, hf k.farPorts, hg k.groups, hc k.codecs,
      ht ▸ k.timebase⟩
  · rcases h.time with a | a
    · exact .inl (ht.trans a)
    · exact .inr (ht.trans a)
  · have k := h.frame x
    cases x
    · exact k.elim .inl fun a => w_hub.imp id fun b => Part.same_trans a b
    · exact k.elim .inl fun a => w_regs.imp id fun b => Part.same_trans a b
    · exact k.elim .inl fun a => w_host.imp id fun b => Part.same_trans a b
    · exact k.elim .inl fun a => w_dies.imp id fun b => Part.same_trans a b
    · exact k.elim .inl fun a => w_pages.imp id fun b => Part.same_trans a b
    · exact k.elim .inl fun a => w_moves.imp id fun b => Part.same_trans a b
    · exact k.elim .inl fun a => w_ctxs.imp id fun b => Part.same_trans a b
    · exact k.elim .inl fun a => w_links.imp id fun b => Part.same_trans a b
    · exact k.elim .inl fun a => w_groups.imp id fun b => Part.same_trans a b
    · exact k.elim .inl fun a => w_codecs.imp id fun b => Part.same_trans a b
    · exact k.elim .inl fun a => w_modes.imp id fun b => Part.same_trans a b
    · exact k.elim .inl fun a => w_power.imp id fun b => Part.same_trans a b
    · exact k.elim .inl fun a => w_acct.imp id fun b => Part.same_trans a b
    · exact k.elim .inl fun a => w_store.imp id fun b => Part.same_trans a b
    · exact k.elim .inl fun a => w_mem.imp id fun b => Part.same_trans a b
    · exact k.elim .inl fun a => w_ids.imp id fun b => Part.same_trans a b
    · exact k.elim .inl fun a => w_traffic.imp id fun b => Part.same_trans a b

/-! ### Lists of parts -/

theorem length_modAt {α : Type} {l : List α} {i n : Nat} {f : α → α} (h : l.length = n) : (modAt l i f).length = n :=
  (List.length_modify ..).trans h

theorem length_map' {α β : Type} {l : List α} {f : α → β} {n : Nat} (h : l.length = n) : (l.map f).length = n :=
  (List.length_map ..).trans h

theorem length_set' {α : Type} {l : List α} {i n : Nat} {x : α} (h : l.length = n) : (l.set i x).length = n :=
  List.length_set.trans h

theorem length_mapIdx' {α β : Type} {l : List α} {f : Nat → α → β} {n : Nat} (h : l.length = n) : (l.mapIdx f).length = n :=
  (List.length_mapIdx ..).trans h

/-- A member of a list changed at one place is a member of the list, or the change of one. -/
theorem mem_modAt {α : Type} {l : List α} {i : Nat} {f : α → α} {x : α} (h : x ∈ modAt l i f) : x ∈ l ∨ ∃ y ∈ l, x = f y := by
  unfold modAt at h
  induction l generalizing i with
  | nil => simp at h
  | cons a t ih =>
    cases i with
    | zero =>
      rw [List.modify_zero_cons, List.mem_cons] at h
      rcases h with rfl | h
      · exact .inr ⟨a, List.mem_cons_self .., rfl⟩
      · exact .inl (List.mem_cons_of_mem _ h)
    | succ n =>
      rw [List.modify_succ_cons, List.mem_cons] at h
      rcases h with rfl | h
      · exact .inl (List.mem_cons_self ..)
      · rcases ih h with h | ⟨y, hy, e⟩
        · exact .inl (List.mem_cons_of_mem _ h)
        · exact .inr ⟨y, List.mem_cons_of_mem _ hy, e⟩

/-! ### Contexts -/

/-- A change of every context that keeps canonical stores. -/
theorem canon_map {l : List Ctx} {f : Ctx → Ctx} (hf : ∀ c, c.canon → (f c).canon) (h : ∀ c ∈ l, c.canon) :
    ∀ c ∈ l.map f, c.canon := by
  intro c hc
  obtain ⟨x, hx, rfl⟩ := List.mem_map.1 hc
  exact hf x (h x hx)

/-- What a filter leaves has canonical stores. -/
theorem canon_filter {l : List Ctx} {p : Ctx → Bool} (h : ∀ c ∈ l, c.canon) : ∀ c ∈ l.filter p, c.canon :=
  fun c hc => h c (List.mem_filter.1 hc).1

theorem canon_append {l m : List Ctx} (h : ∀ c ∈ l, c.canon) (k : ∀ c ∈ m, c.canon) : ∀ c ∈ l ++ m, c.canon := by
  intro c hc
  rcases List.mem_append.1 hc with hc | hc
  · exact h c hc
  · exact k c hc

/-- New cores whose stores are among the old ones, or canonical. -/
theorem Ctx.canon_cores {c d : Ctx} (h : c.canon) (hk : (∀ k ∈ c.cores, k.store.wf = true) → ∀ k ∈ d.cores, k.store.wf = true)
    (hq : (∀ q ∈ c.clusters, q.pool.wf = true) → ∀ q ∈ d.clusters, q.pool.wf = true) : d.canon := ⟨hk h.1, hq h.2⟩

theorem stores_map {l : List Core} {f : Core → Core} (hf : ∀ k : Core, k.store.wf = true → (f k).store.wf = true)
    (h : ∀ k ∈ l, k.store.wf = true) : ∀ k ∈ l.map f, k.store.wf = true := by
  intro k hk
  obtain ⟨x, hx, rfl⟩ := List.mem_map.1 hk
  exact hf x (h x hx)

theorem stores_mapIdx {l : List Core} {f : Nat → Core → Core} (hf : ∀ i (k : Core), k.store.wf = true → (f i k).store.wf = true)
    (h : ∀ k ∈ l, k.store.wf = true) : ∀ k ∈ l.mapIdx f, k.store.wf = true := by
  intro k hk
  obtain ⟨i, hi, rfl⟩ := List.mem_mapIdx.1 hk
  exact hf i _ (h _ (List.getElem_mem hi))

theorem stores_modAt {l : List Core} {i : Nat} {f : Core → Core} (hf : ∀ k : Core, k.store.wf = true → (f k).store.wf = true)
    (h : ∀ k ∈ l, k.store.wf = true) : ∀ k ∈ modAt l i f, k.store.wf = true := by
  intro k hk
  rcases mem_modAt hk with hk | ⟨y, hy, rfl⟩
  · exact h k hk
  · exact hf y (h y hy)

theorem pools_map {l : List Cluster} {f : Cluster → Cluster} (hf : ∀ k : Cluster, k.pool.wf = true → (f k).pool.wf = true)
    (h : ∀ k ∈ l, k.pool.wf = true) : ∀ k ∈ l.map f, k.pool.wf = true := by
  intro k hk
  obtain ⟨x, hx, rfl⟩ := List.mem_map.1 hk
  exact hf x (h x hx)

theorem pools_modAt {l : List Cluster} {i : Nat} {f : Cluster → Cluster}
    (hf : ∀ k : Cluster, k.pool.wf = true → (f k).pool.wf = true)
    (h : ∀ k ∈ l, k.pool.wf = true) : ∀ k ∈ modAt l i f, k.pool.wf = true := by
  intro k hk
  rcases mem_modAt hk with hk | ⟨y, hy, rfl⟩
  · exact h k hk
  · exact hf y (h y hy)

theorem Ctx.canon_ite {a b : Ctx} {p : Prop} [Decidable p] (h : a.canon) (k : b.canon) : (if p then a else b).canon := by
  split
  · exact h
  · exact k

theorem Core.stop_store (k : Core) : k.stop.store = k.store := rfl

theorem Core.swapTable_store (f : Flight) (l : List Flight) (k : Core) : (k.swapTable f l).1.store = k.store := by
  unfold Core.swapTable
  split <;> rfl

theorem Core.finish_store (id : Nat) (k : Core) : (Core.finish id k).store = k.store := by
  unfold Core.finish
  split
  · rfl
  · exact Core.swapTable_store _ _ k

/-- A change of one context that keeps its stores. -/
theorem keeps_modCtx {w₀ : Part → Prop} {r s : State} {asn : Nat} {f : Ctx → Ctx} (hk : Keeps w₀ r s) (hf : ∀ c, c.canon → (f c).canon)
    (w_ctxs : w₀ .ctxs := by assumption) :
    Keeps w₀ r (modCtx s asn f) := by
  unfold modCtx
  rw [State.mk_build]
  refine hk.upd rfl id id id id id id ?_ fun _ h => h
  intro _ h
  refine canon_map ?_ h
  intro c hc
  split
  · exact hf c hc
  · exact hc

/-- A change of one core that keeps its store. -/
theorem keeps_modCore {w₀ : Part → Prop} {r s : State} {asn core : Nat} {f : Core → Core} (hk : Keeps w₀ r s)
    (hf : ∀ k : Core, k.store.wf = true → (f k).store.wf = true)
    (w_ctxs : w₀ .ctxs := by assumption) : Keeps w₀ r (modCore s asn core f) :=
  keeps_modCtx hk fun _ hc => ⟨stores_modAt hf hc.1, hc.2⟩

theorem envOf_s {s : State} {asn core : Nat} {run : CoreRun} {e : Env} (h : envOf s asn core run = some e) : e.s = s := by
  unfold envOf at h
  split at h
  · cases h
  · split at h
    · split at h
      · cases h; rfl
      · cases h
    · cases h

/-- An operation that runs on a core's present instruction starts from the state it is given. -/
theorem Keeps.env {w₀ : Part → Prop} {r s : State} {asn core : Nat} {run : CoreRun} {e : Env} (hk : Keeps w₀ r s) (h : envOf s asn core run = some e) :
    Keeps w₀ r e.s := by
  rw [envOf_s h]
  exact hk

theorem setX_store (k : Core) (i : Nat) (v : Word) : (k.setX i v).store = k.store := by
  unfold Core.setX
  split <;> rfl

theorem setX_wf {k : Core} {i : Nat} {v : Word} (h : k.store.wf = true) : (k.setX i v).store.wf = true := by
  rw [setX_store]
  exact h

theorem notePark_canon {c : Ctx} {core : Nat} (h : c.canon) : (c.notePark core).canon := by
  unfold Ctx.notePark
  exact Ctx.canon_ite h h

end Sys2Proof.Machine
end

