-- ==== Sys2Proof/Laws/KeepsOps.lean ====
section
/-! SUPPORT. Laws/KeepsOps.lean: what the operations of Machine/Ops.lean keep. -/

set_option Elab.async false

namespace Sys2Proof.Machine

theorem keeps_setReg {w₀ : Part → Prop} {r₀ : State} (s : State) (off : Nat) (v : Word) (hk : Keeps w₀ r₀ s)
    (w_regs : w₀ .regs := by first | assumption | exact trivial) :
    Keeps w₀ r₀ (setReg s off v) := by
  unfold setReg
  simp only [State.mk_build]
  repeat' (first
    | with_reducible assumption | with_reducible apply Keeps.upd | with_reducible rfl | with_reducible exact id
    | with_reducible exact Or.inl (by assumption) | with_reducible exact Or.inr rfl | with_reducible exact Or.inr ⟨rfl, rfl⟩
    | with_reducible exact Or.inr ⟨rfl, rfl, rfl⟩ | with_reducible exact Or.inr ⟨rfl, rfl, rfl, rfl⟩ | (exact fun _ h => h)
    | intro _ | (show Ctx.canon _; assumption) | with_reducible apply Ctx.canon_ite | (show Mem.wf _ = true; assumption))

theorem keeps_setBits {w₀ : Part → Prop} {r₀ : State} (s : State) (off : Nat) (m : Word) (hk : Keeps w₀ r₀ s)
    (w_regs : w₀ .regs := by first | assumption | exact trivial) :
    Keeps w₀ r₀ (setBits s off m) := by
  unfold setBits
  repeat' (first
    | with_reducible assumption | with_reducible apply keeps_setReg | intro _)

theorem keeps_modDie {w₀ : Part → Prop} {r₀ : State} (s : State) (d : Nat) (f : Die → Die) (hk : Keeps w₀ r₀ s)
    (w_dies : w₀ .dies := by first | assumption | exact trivial) :
    Keeps w₀ r₀ (modDie s d f) := by
  unfold modDie
  simp only [State.mk_build]
  repeat' (first
    | with_reducible assumption | with_reducible apply Keeps.upd | with_reducible rfl | with_reducible exact id
    | with_reducible exact Or.inl (by assumption) | with_reducible exact Or.inr rfl | with_reducible exact Or.inr ⟨rfl, rfl⟩
    | with_reducible exact Or.inr ⟨rfl, rfl, rfl⟩ | with_reducible exact Or.inr ⟨rfl, rfl, rfl, rfl⟩
    | with_reducible exact length_modAt | (exact fun _ h => h) | intro _ | (show Ctx.canon _; assumption)
    | with_reducible apply Ctx.canon_ite | (show Mem.wf _ = true; assumption))

theorem keeps_raiseMsix {w₀ : Part → Prop} {r₀ : State} (v : Nat) (s : State) (hk : Keeps w₀ r₀ s)
    (w_regs : w₀ .regs := by first | assumption | exact trivial)
    (w_host : w₀ .host := by first | assumption | exact trivial) :
    Keeps w₀ r₀ (raiseMsix v s) := by
  unfold raiseMsix
  simp only [State.mk_build]
  repeat' (first
    | with_reducible assumption | with_reducible apply keeps_setBits | with_reducible apply Keeps.upd | with_reducible rfl
    | with_reducible exact id | with_reducible exact Or.inl (by assumption) | with_reducible exact Or.inr rfl
    | with_reducible exact Or.inr ⟨rfl, rfl⟩ | with_reducible exact Or.inr ⟨rfl, rfl, rfl⟩
    | with_reducible exact Or.inr ⟨rfl, rfl, rfl, rfl⟩ | (exact fun _ h => h) | intro _ | (show Ctx.canon _; assumption)
    | with_reducible apply Ctx.canon_ite | (show Mem.wf _ = true; assumption) | with_reducible apply Keeps.ite | split)

theorem keeps_msgWriteOne {w₀ : Part → Prop} {r₀ : State} (s : State) (hk : Keeps w₀ r₀ s)
    (w_regs : w₀ .regs := by first | assumption | exact trivial)
    (w_host : w₀ .host := by first | assumption | exact trivial) :
    Keeps w₀ r₀ (msgWriteOne s) := by
  unfold msgWriteOne
  simp only [State.mk_build]
  repeat' (first
    | with_reducible assumption | with_reducible apply keeps_raiseMsix | with_reducible apply Keeps.upd | with_reducible rfl
    | with_reducible exact id | with_reducible exact Or.inl (by assumption) | with_reducible exact Or.inr rfl
    | with_reducible exact Or.inr ⟨rfl, rfl⟩ | with_reducible exact Or.inr ⟨rfl, rfl, rfl⟩
    | with_reducible exact Or.inr ⟨rfl, rfl, rfl, rfl⟩ | (exact fun _ h => h) | intro _ | (show Ctx.canon _; assumption)
    | with_reducible apply Ctx.canon_ite | (show Mem.wf _ = true; assumption) | with_reducible apply Keeps.ite | split)

theorem keeps_msgDrainN {w₀ : Part → Prop} {r₀ : State} (n : Nat) (s : State) (hk : Keeps w₀ r₀ s)
    (w_regs : w₀ .regs := by first | assumption | exact trivial)
    (w_host : w₀ .host := by first | assumption | exact trivial) :
    Keeps w₀ r₀ (msgDrainN n s) := by
  induction n generalizing s with
  | zero =>
    unfold msgDrainN
    repeat' (first
      | with_reducible assumption | with_reducible apply keeps_msgWriteOne | intro _ | with_reducible apply Keeps.ite
      | split)
  | succ _ ih =>
    unfold msgDrainN
    repeat' (first
      | with_reducible assumption | with_reducible apply ih | with_reducible apply keeps_msgWriteOne | intro _
      | with_reducible apply Keeps.ite | split)

theorem keeps_msgDrain {w₀ : Part → Prop} {r₀ : State} (s : State) (hk : Keeps w₀ r₀ s)
    (w_regs : w₀ .regs := by first | assumption | exact trivial)
    (w_host : w₀ .host := by first | assumption | exact trivial) :
    Keeps w₀ r₀ (msgDrain s) := by
  unfold msgDrain
  repeat' (first
    | with_reducible assumption | with_reducible apply keeps_msgDrainN | intro _)

theorem keeps_sendMsg {w₀ : Part → Prop} {r₀ : State} (s : State) (code : Nat) (fs : List (Nat × Nat × Nat)) (hk : Keeps w₀ r₀ s)
    (w_regs : w₀ .regs := by first | assumption | exact trivial)
    (w_host : w₀ .host := by first | assumption | exact trivial) :
    Keeps w₀ r₀ (sendMsg s code fs) := by
  unfold sendMsg
  simp only [State.mk_build]
  repeat' (first
    | with_reducible assumption | with_reducible apply keeps_msgDrain | with_reducible apply Keeps.upd | with_reducible rfl
    | with_reducible exact id | with_reducible exact Or.inl (by assumption) | with_reducible exact Or.inr rfl
    | with_reducible exact Or.inr ⟨rfl, rfl⟩ | with_reducible exact Or.inr ⟨rfl, rfl, rfl⟩
    | with_reducible exact Or.inr ⟨rfl, rfl, rfl, rfl⟩ | (exact fun _ h => h) | intro _ | (show Ctx.canon _; assumption)
    | with_reducible apply Ctx.canon_ite | (show Mem.wf _ = true; assumption) | with_reducible apply Keeps.ite | split)

theorem keeps_setQ {w₀ : Part → Prop} {r₀ : State} (s : State) (q : Nat) (v : HostQueue) (hk : Keeps w₀ r₀ s)
    (w_host : w₀ .host := by first | assumption | exact trivial) :
    Keeps w₀ r₀ (setQ s q v) := by
  unfold setQ
  simp only [State.mk_build]
  repeat' (first
    | with_reducible assumption | with_reducible apply Keeps.upd | with_reducible rfl | with_reducible exact id
    | with_reducible exact Or.inl (by assumption) | with_reducible exact Or.inr rfl | with_reducible exact Or.inr ⟨rfl, rfl⟩
    | with_reducible exact Or.inr ⟨rfl, rfl, rfl⟩ | with_reducible exact Or.inr ⟨rfl, rfl, rfl, rfl⟩ | (exact fun _ h => h)
    | intro _ | (show Ctx.canon _; assumption) | with_reducible apply Ctx.canon_ite | (show Mem.wf _ = true; assumption))

theorem keeps_cqWriteOne {w₀ : Part → Prop} {r₀ : State} (s : State) (q : Nat) (hk : Keeps w₀ r₀ s)
    (w_regs : w₀ .regs := by first | assumption | exact trivial)
    (w_host : w₀ .host := by first | assumption | exact trivial) :
    Keeps w₀ r₀ (cqWriteOne s q) := by
  unfold cqWriteOne
  simp only [State.mk_build]
  repeat' (first
    | with_reducible assumption | with_reducible apply keeps_raiseMsix | with_reducible apply keeps_setQ
    | with_reducible apply Keeps.upd | with_reducible rfl | with_reducible exact id
    | with_reducible exact Or.inl (by assumption) | with_reducible exact Or.inr rfl | with_reducible exact Or.inr ⟨rfl, rfl⟩
    | with_reducible exact Or.inr ⟨rfl, rfl, rfl⟩ | with_reducible exact Or.inr ⟨rfl, rfl, rfl, rfl⟩ | (exact fun _ h => h)
    | intro _ | (show Ctx.canon _; assumption) | with_reducible apply Ctx.canon_ite | (show Mem.wf _ = true; assumption)
    | with_reducible apply Keeps.ite | split)

theorem keeps_cqDrainN {w₀ : Part → Prop} {r₀ : State} (n : Nat) (s : State) (q : Nat) (hk : Keeps w₀ r₀ s)
    (w_regs : w₀ .regs := by first | assumption | exact trivial)
    (w_host : w₀ .host := by first | assumption | exact trivial) :
    Keeps w₀ r₀ (cqDrainN n s q) := by
  induction n generalizing s q with
  | zero =>
    unfold cqDrainN
    repeat' (first
      | with_reducible assumption | with_reducible apply keeps_cqWriteOne | intro _ | with_reducible apply Keeps.ite
      | split)
  | succ _ ih =>
    unfold cqDrainN
    repeat' (first
      | with_reducible assumption | with_reducible apply ih | with_reducible apply keeps_cqWriteOne | intro _
      | with_reducible apply Keeps.ite | split)

theorem keeps_cqDrain {w₀ : Part → Prop} {r₀ : State} (s : State) (q : Nat) (hk : Keeps w₀ r₀ s)
    (w_regs : w₀ .regs := by first | assumption | exact trivial)
    (w_host : w₀ .host := by first | assumption | exact trivial) :
    Keeps w₀ r₀ (cqDrain s q) := by
  unfold cqDrain
  repeat' (first
    | with_reducible assumption | with_reducible apply keeps_cqDrainN | intro _)

theorem keeps_pushCompletion {w₀ : Part → Prop} {r₀ : State} (s : State) (q : Nat) (e : Bytes) (hk : Keeps w₀ r₀ s)
    (w_regs : w₀ .regs := by first | assumption | exact trivial)
    (w_host : w₀ .host := by first | assumption | exact trivial) :
    Keeps w₀ r₀ (pushCompletion s q e) := by
  unfold pushCompletion
  dsimp only
  repeat' (first
    | with_reducible assumption | with_reducible apply keeps_setQ | with_reducible apply keeps_cqDrain
    | with_reducible apply Keeps.upd | with_reducible rfl | with_reducible exact id
    | with_reducible exact Or.inl (by assumption) | with_reducible exact Or.inr rfl | with_reducible exact Or.inr ⟨rfl, rfl⟩
    | with_reducible exact Or.inr ⟨rfl, rfl, rfl⟩ | with_reducible exact Or.inr ⟨rfl, rfl, rfl, rfl⟩ | (exact fun _ h => h)
    | intro _ | (show Ctx.canon _; assumption) | with_reducible apply Ctx.canon_ite | (show Mem.wf _ = true; assumption))

theorem keeps_complete {w₀ : Part → Prop} {r₀ : State} (s : State) (h : CmdHdr) (cmd : Nat) (st : Status) (detail : Bytes) (hk : Keeps w₀ r₀ s)
    (w_regs : w₀ .regs := by first | assumption | exact trivial)
    (w_host : w₀ .host := by first | assumption | exact trivial) :
    Keeps w₀ r₀ (complete s h cmd st detail) := by
  unfold complete
  dsimp only
  repeat' (first
    | with_reducible assumption | with_reducible apply keeps_setQ | with_reducible apply keeps_pushCompletion
    | with_reducible apply Keeps.upd | with_reducible rfl | with_reducible exact id
    | with_reducible exact Or.inl (by assumption) | with_reducible exact Or.inr rfl | with_reducible exact Or.inr ⟨rfl, rfl⟩
    | with_reducible exact Or.inr ⟨rfl, rfl, rfl⟩ | with_reducible exact Or.inr ⟨rfl, rfl, rfl, rfl⟩ | (exact fun _ h => h)
    | intro _ | (show Ctx.canon _; assumption) | with_reducible apply Ctx.canon_ite | (show Mem.wf _ = true; assumption)
    | with_reducible apply Keeps.ite | split)

theorem keeps_beginCmd {w₀ : Part → Prop} {r₀ : State} (s : State) (h : CmdHdr) (cmd : Nat) (hk : Keeps w₀ r₀ s)
    (w_host : w₀ .host := by first | assumption | exact trivial) :
    Keeps w₀ r₀ (beginCmd s h cmd) := by
  unfold beginCmd
  dsimp only
  repeat' (first
    | with_reducible assumption | with_reducible apply keeps_setQ | with_reducible apply Keeps.upd | with_reducible rfl
    | with_reducible exact id | with_reducible exact Or.inl (by assumption) | with_reducible exact Or.inr rfl
    | with_reducible exact Or.inr ⟨rfl, rfl⟩ | with_reducible exact Or.inr ⟨rfl, rfl, rfl⟩
    | with_reducible exact Or.inr ⟨rfl, rfl, rfl, rfl⟩ | (exact fun _ h => h) | intro _ | (show Ctx.canon _; assumption)
    | with_reducible apply Ctx.canon_ite | (show Mem.wf _ = true; assumption))

theorem keeps_startFlashWrite {w₀ : Part → Prop} {r₀ : State} (s : State) (w : FlashWrite) (hk : Keeps w₀ r₀ s)
    (w_store : w₀ .store := by first | assumption | exact trivial) :
    Keeps w₀ r₀ (startFlashWrite s w) := by
  unfold startFlashWrite
  simp only [State.mk_build]
  repeat' (first
    | with_reducible assumption | with_reducible apply Keeps.upd | with_reducible rfl | with_reducible exact id
    | with_reducible exact Or.inl (by assumption) | with_reducible exact Or.inr rfl | with_reducible exact Or.inr ⟨rfl, rfl⟩
    | with_reducible exact Or.inr ⟨rfl, rfl, rfl⟩ | with_reducible exact Or.inr ⟨rfl, rfl, rfl, rfl⟩ | (exact fun _ h => h)
    | intro _ | (show Ctx.canon _; assumption) | with_reducible apply Ctx.canon_ite | (show Mem.wf _ = true; assumption)
    | with_reducible apply Keeps.ite | split)

theorem keeps_flushLog {w₀ : Part → Prop} {r₀ : State} (s : State) (hk : Keeps w₀ r₀ s)
    (w_store : w₀ .store := by first | assumption | exact trivial) :
    Keeps w₀ r₀ (flushLog s) := by
  unfold flushLog
  simp only [State.mk_build]
  repeat' (first
    | with_reducible assumption | with_reducible apply keeps_startFlashWrite | with_reducible apply Keeps.upd
    | with_reducible rfl | with_reducible exact id | with_reducible exact Or.inl (by assumption)
    | with_reducible exact Or.inr rfl | with_reducible exact Or.inr ⟨rfl, rfl⟩ | with_reducible exact Or.inr ⟨rfl, rfl, rfl⟩
    | with_reducible exact Or.inr ⟨rfl, rfl, rfl, rfl⟩ | (exact fun _ h => h) | intro _ | (show Ctx.canon _; assumption)
    | with_reducible apply Ctx.canon_ite | (show Mem.wf _ = true; assumption) | with_reducible apply Keeps.ite | split)

theorem keeps_flushMap {w₀ : Part → Prop} {r₀ : State} (s : State) (hk : Keeps w₀ r₀ s)
    (w_store : w₀ .store := by first | assumption | exact trivial) :
    Keeps w₀ r₀ (flushMap s) := by
  unfold flushMap
  repeat' (first
    | with_reducible assumption | with_reducible apply keeps_startFlashWrite | with_reducible exact length_map' | intro _
    | with_reducible apply Keeps.ite | split)

theorem keeps_logFault {w₀ : Part → Prop} {r₀ : State} (s : State) (e : LogEntry) (hk : Keeps w₀ r₀ s)
    (w_store : w₀ .store := by first | assumption | exact trivial) :
    Keeps w₀ r₀ (logFault s e) := by
  unfold logFault
  simp only [State.mk_build]
  repeat' (first
    | with_reducible assumption | with_reducible apply keeps_flushLog | with_reducible apply Keeps.upd | with_reducible rfl
    | with_reducible exact id | with_reducible exact Or.inl (by assumption) | with_reducible exact Or.inr rfl
    | with_reducible exact Or.inr ⟨rfl, rfl⟩ | with_reducible exact Or.inr ⟨rfl, rfl, rfl⟩
    | with_reducible exact Or.inr ⟨rfl, rfl, rfl, rfl⟩ | (exact fun _ h => h) | intro _ | (show Ctx.canon _; assumption)
    | with_reducible apply Ctx.canon_ite | (show Mem.wf _ = true; assumption) | with_reducible apply Keeps.ite | split)

theorem keeps_addMap {w₀ : Part → Prop} {r₀ : State} (s : State) (type b1 b2 b3 w4 : Nat) (hk : Keeps w₀ r₀ s)
    (w_store : w₀ .store := by first | assumption | exact trivial) :
    Keeps w₀ r₀ (addMap s type b1 b2 b3 w4) := by
  unfold addMap
  simp only [State.mk_build]
  repeat' (first
    | with_reducible assumption | with_reducible apply keeps_flushMap | with_reducible apply Keeps.upd | with_reducible rfl
    | with_reducible exact id | with_reducible exact Or.inl (by assumption) | with_reducible exact Or.inr rfl
    | with_reducible exact Or.inr ⟨rfl, rfl⟩ | with_reducible exact Or.inr ⟨rfl, rfl, rfl⟩
    | with_reducible exact Or.inr ⟨rfl, rfl, rfl, rfl⟩ | with_reducible exact length_map' | (exact fun _ h => h) | intro _
    | (show Ctx.canon _; assumption) | with_reducible apply Ctx.canon_ite | (show Mem.wf _ = true; assumption))

theorem keeps_modSpace {w₀ : Part → Prop} {r₀ : State} (s : State) (asn : Nat) (f : Space → Space) (hk : Keeps w₀ r₀ s)
    (w_pages : w₀ .pages := by first | assumption | exact trivial) :
    Keeps w₀ r₀ (modSpace s asn f) := by
  unfold modSpace
  simp only [State.mk_build]
  repeat' (first
    | with_reducible assumption | with_reducible apply Keeps.upd | with_reducible rfl | with_reducible exact id
    | with_reducible exact Or.inl (by assumption) | with_reducible exact Or.inr rfl | with_reducible exact Or.inr ⟨rfl, rfl⟩
    | with_reducible exact Or.inr ⟨rfl, rfl, rfl⟩ | with_reducible exact Or.inr ⟨rfl, rfl, rfl, rfl⟩
    | with_reducible exact length_map' | (exact fun _ h => h) | intro _ | (show Ctx.canon _; assumption)
    | with_reducible apply Ctx.canon_ite | (show Mem.wf _ = true; assumption) | with_reducible apply Keeps.ite | split)

theorem keeps_modPage {w₀ : Part → Prop} {r₀ : State} (s : State) (asn vpn : Nat) (f : Page → Page) (hk : Keeps w₀ r₀ s)
    (w_pages : w₀ .pages := by first | assumption | exact trivial) :
    Keeps w₀ r₀ (modPage s asn vpn f) := by
  unfold modPage
  repeat' (first
    | with_reducible assumption | with_reducible apply keeps_modSpace | with_reducible apply Keeps.upd | with_reducible rfl
    | with_reducible exact id | with_reducible exact Or.inl (by assumption) | with_reducible exact Or.inr rfl
    | with_reducible exact Or.inr ⟨rfl, rfl⟩ | with_reducible exact Or.inr ⟨rfl, rfl, rfl⟩
    | with_reducible exact Or.inr ⟨rfl, rfl, rfl, rfl⟩ | with_reducible exact length_map' | (exact fun _ h => h) | intro _
    | (show Ctx.canon _; assumption) | with_reducible apply Ctx.canon_ite | (show Mem.wf _ = true; assumption)
    | with_reducible apply Keeps.ite | split)

theorem keeps_modMc {w₀ : Part → Prop} {r₀ : State} (s : State) (stack : Nat) (f : Mc → Mc) (hk : Keeps w₀ r₀ s)
    (w_dies : w₀ .dies := by first | assumption | exact trivial) :
    Keeps w₀ r₀ (modMc s stack f) := by
  unfold modMc
  repeat' (first
    | with_reducible assumption | with_reducible apply keeps_modDie | with_reducible apply Keeps.upd | with_reducible rfl
    | with_reducible exact id | with_reducible exact Or.inl (by assumption) | with_reducible exact Or.inr rfl
    | with_reducible exact Or.inr ⟨rfl, rfl⟩ | with_reducible exact Or.inr ⟨rfl, rfl, rfl⟩
    | with_reducible exact Or.inr ⟨rfl, rfl, rfl, rfl⟩ | with_reducible exact length_modAt | (exact fun _ h => h) | intro _
    | (show Ctx.canon _; assumption) | with_reducible apply Ctx.canon_ite | (show Mem.wf _ = true; assumption))

theorem keeps_modChan {w₀ : Part → Prop} {r₀ : State} (s : State) (stack chan : Nat) (f : Chan → Chan) (hk : Keeps w₀ r₀ s)
    (w_dies : w₀ .dies := by first | assumption | exact trivial) :
    Keeps w₀ r₀ (modChan s stack chan f) := by
  unfold modChan
  repeat' (first
    | with_reducible assumption | with_reducible apply keeps_modMc | with_reducible apply Keeps.upd | with_reducible rfl
    | with_reducible exact id | with_reducible exact Or.inl (by assumption) | with_reducible exact Or.inr rfl
    | with_reducible exact Or.inr ⟨rfl, rfl⟩ | with_reducible exact Or.inr ⟨rfl, rfl, rfl⟩
    | with_reducible exact Or.inr ⟨rfl, rfl, rfl, rfl⟩ | with_reducible exact length_modAt | (exact fun _ h => h) | intro _
    | (show Ctx.canon _; assumption) | with_reducible apply Ctx.canon_ite | (show Mem.wf _ = true; assumption))

theorem keeps_correctedError {w₀ : Part → Prop} {r₀ : State} (s : State) (d mc chan row : Nat) (hk : Keeps w₀ r₀ s)
    (w_dies : w₀ .dies := by first | assumption | exact trivial) :
    Keeps w₀ r₀ (correctedError s d mc chan row) := by
  unfold correctedError
  dsimp only
  repeat' (first
    | with_reducible assumption | with_reducible apply keeps_modMc | with_reducible apply Keeps.upd | with_reducible rfl
    | with_reducible exact id | with_reducible exact Or.inl (by assumption) | with_reducible exact Or.inr rfl
    | with_reducible exact Or.inr ⟨rfl, rfl⟩ | with_reducible exact Or.inr ⟨rfl, rfl, rfl⟩
    | with_reducible exact Or.inr ⟨rfl, rfl, rfl, rfl⟩ | (exact fun _ h => h) | intro _ | (show Ctx.canon _; assumption)
    | with_reducible apply Ctx.canon_ite | (show Mem.wf _ = true; assumption) | with_reducible apply Keeps.ite | split)

theorem keeps_addPoison {w₀ : Part → Prop} {r₀ : State} (s : State) (lines : List Nat) (hk : Keeps w₀ r₀ s)
    (w_mem : w₀ .mem := by first | assumption | exact trivial) :
    Keeps w₀ r₀ (addPoison s lines) := by
  unfold addPoison
  simp only [State.mk_build]
  repeat' (first
    | with_reducible assumption | with_reducible apply Keeps.foldl | with_reducible apply Keeps.upd | with_reducible rfl
    | with_reducible exact id | with_reducible exact Or.inl (by assumption) | with_reducible exact Or.inr rfl
    | with_reducible exact Or.inr ⟨rfl, rfl⟩ | with_reducible exact Or.inr ⟨rfl, rfl, rfl⟩
    | with_reducible exact Or.inr ⟨rfl, rfl, rfl, rfl⟩ | (exact fun _ h => h) | intro _ | (show Ctx.canon _; assumption)
    | with_reducible apply Ctx.canon_ite | (show Mem.wf _ = true; assumption))

theorem keeps_uncorrectable {w₀ : Part → Prop} {r₀ : State} (s : State) (d mc chan line row : Nat) (hk : Keeps w₀ r₀ s)
    (w_dies : w₀ .dies := by first | assumption | exact trivial)
    (w_mem : w₀ .mem := by first | assumption | exact trivial) :
    Keeps w₀ r₀ (uncorrectable s d mc chan line row) := by
  unfold uncorrectable
  dsimp only
  repeat' (first
    | with_reducible assumption | with_reducible apply keeps_modMc | with_reducible apply keeps_addPoison
    | with_reducible apply Keeps.upd | with_reducible rfl | with_reducible exact id
    | with_reducible exact Or.inl (by assumption) | with_reducible exact Or.inr rfl | with_reducible exact Or.inr ⟨rfl, rfl⟩
    | with_reducible exact Or.inr ⟨rfl, rfl, rfl⟩ | with_reducible exact Or.inr ⟨rfl, rfl, rfl, rfl⟩ | (exact fun _ h => h)
    | intro _ | (show Ctx.canon _; assumption) | with_reducible apply Ctx.canon_ite | (show Mem.wf _ = true; assumption))

theorem keeps_meetCell {w₀ : Part → Prop} {r₀ : State} (s : State) (c : CellError) (hk : Keeps w₀ r₀ s)
    (w_dies : w₀ .dies := by first | assumption | exact trivial)
    (w_mem : w₀ .mem := by first | assumption | exact trivial) :
    Keeps w₀ r₀ (meetCell s c) := by
  unfold meetCell
  simp only [State.mk_build]
  repeat' (first
    | with_reducible assumption | with_reducible apply keeps_correctedError | with_reducible apply keeps_uncorrectable
    | with_reducible apply Keeps.upd | with_reducible rfl | with_reducible exact id
    | with_reducible exact Or.inl (by assumption) | with_reducible exact Or.inr rfl | with_reducible exact Or.inr ⟨rfl, rfl⟩
    | with_reducible exact Or.inr ⟨rfl, rfl, rfl⟩ | with_reducible exact Or.inr ⟨rfl, rfl, rfl, rfl⟩ | (exact fun _ h => h)
    | intro _ | (show Ctx.canon _; assumption) | with_reducible apply Ctx.canon_ite | (show Mem.wf _ = true; assumption)
    | with_reducible apply Keeps.ite | split)

theorem keeps_meetCells {w₀ : Part → Prop} {r₀ : State} (s : State) (pa n : Nat) (hk : Keeps w₀ r₀ s)
    (w_dies : w₀ .dies := by first | assumption | exact trivial)
    (w_mem : w₀ .mem := by first | assumption | exact trivial) :
    Keeps w₀ r₀ (meetCells s pa n) := by
  unfold meetCells
  repeat' (first
    | with_reducible assumption | with_reducible apply keeps_meetCell | with_reducible apply Keeps.foldl | intro _)

theorem keeps_meetWrite {w₀ : Part → Prop} {r₀ : State} (s : State) (pa n : Nat) (hk : Keeps w₀ r₀ s)
    (w_dies : w₀ .dies := by first | assumption | exact trivial)
    (w_mem : w₀ .mem := by first | assumption | exact trivial) :
    Keeps w₀ r₀ (meetWrite s pa n) := by
  unfold meetWrite
  simp only [State.mk_build]
  repeat' (first
    | with_reducible assumption | with_reducible apply keeps_meetCells | with_reducible apply Keeps.upd | with_reducible rfl
    | with_reducible exact id | with_reducible exact Or.inl (by assumption) | with_reducible exact Or.inr rfl
    | with_reducible exact Or.inr ⟨rfl, rfl⟩ | with_reducible exact Or.inr ⟨rfl, rfl, rfl⟩
    | with_reducible exact Or.inr ⟨rfl, rfl, rfl, rfl⟩ | (exact fun _ h => h) | intro _ | (show Ctx.canon _; assumption)
    | with_reducible apply Ctx.canon_ite | (show Mem.wf _ = true; assumption) | with_reducible apply Keeps.ite | split)

theorem keeps_physWrite {w₀ : Part → Prop} {r₀ : State} (s0 : State) (pa : Nat) (b : Bytes) (hk : Keeps w₀ r₀ s0)
    (w_dies : w₀ .dies := by first | assumption | exact trivial)
    (w_mem : w₀ .mem := by first | assumption | exact trivial) :
    Keeps w₀ r₀ (physWrite s0 pa b) := by
  unfold physWrite
  simp only [State.mk_build]
  repeat' (first
    | with_reducible assumption | with_reducible apply keeps_meetWrite | exact Mem.wf_physWriteBytes _ _ _ _ _
    | with_reducible apply Keeps.upd | with_reducible rfl | with_reducible exact id
    | with_reducible exact Or.inl (by assumption) | with_reducible exact Or.inr rfl | with_reducible exact Or.inr ⟨rfl, rfl⟩
    | with_reducible exact Or.inr ⟨rfl, rfl, rfl⟩ | with_reducible exact Or.inr ⟨rfl, rfl, rfl, rfl⟩ | (exact fun _ h => h)
    | intro _ | (show Ctx.canon _; assumption) | with_reducible apply Ctx.canon_ite | (show Mem.wf _ = true; assumption))

theorem keeps_copyPage {w₀ : Part → Prop} {r₀ : State} (s0 : State) (src dst : Nat) (hk : Keeps w₀ r₀ s0)
    (w_dies : w₀ .dies := by first | assumption | exact trivial)
    (w_mem : w₀ .mem := by first | assumption | exact trivial) :
    Keeps w₀ r₀ (copyPage s0 src dst) := by
  unfold copyPage
  simp only [State.mk_build]
  repeat' (first
    | with_reducible assumption | with_reducible apply keeps_meetCells | exact Mem.wf_copy _ _ _
    | with_reducible apply Keeps.foldl | with_reducible apply Keeps.upd | with_reducible rfl | with_reducible exact id
    | with_reducible exact Or.inl (by assumption) | with_reducible exact Or.inr rfl | with_reducible exact Or.inr ⟨rfl, rfl⟩
    | with_reducible exact Or.inr ⟨rfl, rfl, rfl⟩ | with_reducible exact Or.inr ⟨rfl, rfl, rfl, rfl⟩
    | with_reducible exact length_map' | (exact fun _ h => h) | intro _ | (show Ctx.canon _; assumption)
    | with_reducible apply Ctx.canon_ite | (show Mem.wf _ = true; assumption))

theorem keeps_zeroPage {w₀ : Part → Prop} {r₀ : State} (s : State) (ppn : Nat) (hk : Keeps w₀ r₀ s)
    (w_mem : w₀ .mem := by first | assumption | exact trivial) :
    Keeps w₀ r₀ (zeroPage s ppn) := by
  unfold zeroPage
  simp only [State.mk_build]
  repeat' (first
    | with_reducible assumption | exact Mem.wf_clear _ _ | with_reducible apply Keeps.upd | with_reducible rfl
    | with_reducible exact id | with_reducible exact Or.inl (by assumption) | with_reducible exact Or.inr rfl
    | with_reducible exact Or.inr ⟨rfl, rfl⟩ | with_reducible exact Or.inr ⟨rfl, rfl, rfl⟩
    | with_reducible exact Or.inr ⟨rfl, rfl, rfl, rfl⟩ | (exact fun _ h => h) | intro _ | (show Ctx.canon _; assumption)
    | with_reducible apply Ctx.canon_ite | (show Mem.wf _ = true; assumption))

theorem keeps_meetVirt {w₀ : Part → Prop} {r₀ : State} (s : State) (asn va len : Nat) (hk : Keeps w₀ r₀ s)
    (w_dies : w₀ .dies := by first | assumption | exact trivial)
    (w_mem : w₀ .mem := by first | assumption | exact trivial) :
    Keeps w₀ r₀ (meetVirt s asn va len) := by
  unfold meetVirt
  repeat' (first
    | with_reducible assumption | with_reducible apply keeps_meetCells | with_reducible apply Keeps.foldl | intro _
    | with_reducible apply Keeps.ite | split)

theorem keeps_writePieces {w₀ : Part → Prop} {r : State} (s : State) (asn : Nat) (l : List (Nat × Nat × Nat)) (b : Bytes) (hk : Keeps w₀ r s)
    (w_dies : w₀ .dies := by first | assumption | exact trivial)
    (w_mem : w₀ .mem := by first | assumption | exact trivial) :
    Keeps w₀ r (writePieces s asn l b) := by
  induction l generalizing s b with
  | nil => exact hk
  | cons p t ih =>
    obtain ⟨v, o, n⟩ := p
    unfold writePieces
    split
    · exact hk
    · refine ih _ _ ?_
      split
      · exact keeps_physWrite _ _ _ hk
      · exact hk

theorem keeps_cancelMoves {w₀ : Part → Prop} {r₀ : State} (s : State) (asn : Nat) (vpns : List Nat) (hk : Keeps w₀ r₀ s)
    (w_moves : w₀ .moves := by first | assumption | exact trivial) :
    Keeps w₀ r₀ (cancelMoves s asn vpns) := by
  unfold cancelMoves
  simp only [State.mk_build]
  repeat' (first
    | with_reducible assumption | with_reducible apply Keeps.upd | with_reducible rfl | with_reducible exact id
    | with_reducible exact Or.inl (by assumption) | with_reducible exact Or.inr rfl | with_reducible exact Or.inr ⟨rfl, rfl⟩
    | with_reducible exact Or.inr ⟨rfl, rfl, rfl⟩ | with_reducible exact Or.inr ⟨rfl, rfl, rfl, rfl⟩
    | with_reducible exact length_map' | (exact fun _ h => h) | intro _ | (show Ctx.canon _; assumption)
    | with_reducible apply Ctx.canon_ite | (show Mem.wf _ = true; assumption))

theorem keeps_virtWrite {w₀ : Part → Prop} {r₀ : State} (s : State) (asn va : Nat) (b : Bytes) (hk : Keeps w₀ r₀ s)
    (w_dies : w₀ .dies := by first | assumption | exact trivial)
    (w_moves : w₀ .moves := by first | assumption | exact trivial)
    (w_mem : w₀ .mem := by first | assumption | exact trivial) :
    Keeps w₀ r₀ (virtWrite s asn va b) := by
  unfold virtWrite
  dsimp only
  repeat' (first
    | with_reducible assumption | with_reducible apply keeps_writePieces | with_reducible apply keeps_cancelMoves
    | with_reducible exact length_map' | intro _)

theorem keeps_poisonVirt {w₀ : Part → Prop} {r₀ : State} (s : State) (asn va : Nat) (lines : List Nat) (hk : Keeps w₀ r₀ s)
    (w_mem : w₀ .mem := by first | assumption | exact trivial) :
    Keeps w₀ r₀ (poisonVirt s asn va lines) := by
  unfold poisonVirt
  repeat' (first
    | with_reducible assumption | with_reducible apply keeps_addPoison | with_reducible apply Keeps.foldl | intro _ | split)

theorem keeps_sendOver {w₀ : Part → Prop} {r₀ : State} (s : State) (path : List (Nat × Nat)) (n : Nat) (hk : Keeps w₀ r₀ s)
    (w_traffic : w₀ .traffic := by first | assumption | exact trivial) :
    Keeps w₀ r₀ (sendOver s path n) := by
  unfold sendOver
  simp only [State.mk_build]
  repeat' (first
    | with_reducible assumption | with_reducible apply Keeps.foldl | with_reducible apply Keeps.upd | with_reducible rfl
    | with_reducible exact id | with_reducible exact Or.inl (by assumption) | with_reducible exact Or.inr rfl
    | with_reducible exact Or.inr ⟨rfl, rfl⟩ | with_reducible exact Or.inr ⟨rfl, rfl, rfl⟩
    | with_reducible exact Or.inr ⟨rfl, rfl, rfl, rfl⟩ | (exact fun _ h => h) | intro _ | (show Ctx.canon _; assumption)
    | with_reducible apply Ctx.canon_ite | (show Mem.wf _ = true; assumption))

theorem keeps_dieReads {w₀ : Part → Prop} {r₀ : State} (s : State) (d ppn n : Nat) (hk : Keeps w₀ r₀ s)
    (w_traffic : w₀ .traffic := by first | assumption | exact trivial) :
    Keeps w₀ r₀ (dieReads s d ppn n) := by
  unfold dieReads
  repeat' (first
    | with_reducible assumption | with_reducible apply keeps_sendOver | intro _ | with_reducible apply Keeps.ite | split)

theorem keeps_coreReads {w₀ : Part → Prop} {r₀ : State} (s : State) (d ppn : Nat) (hk : Keeps w₀ r₀ s)
    (w_traffic : w₀ .traffic := by first | assumption | exact trivial) :
    Keeps w₀ r₀ (coreReads s d ppn) := by
  unfold coreReads
  repeat' (first
    | with_reducible assumption | with_reducible apply keeps_dieReads | intro _)

theorem keeps_coreWrites {w₀ : Part → Prop} {r₀ : State} (s : State) (d ppn n : Nat) (hk : Keeps w₀ r₀ s)
    (w_traffic : w₀ .traffic := by first | assumption | exact trivial) :
    Keeps w₀ r₀ (coreWrites s d ppn n) := by
  unfold coreWrites
  repeat' (first
    | with_reducible assumption | with_reducible apply keeps_sendOver | intro _)

theorem keeps_hubReads {w₀ : Part → Prop} {r₀ : State} (s : State) (ppn n : Nat) (hk : Keeps w₀ r₀ s)
    (w_traffic : w₀ .traffic := by first | assumption | exact trivial) :
    Keeps w₀ r₀ (hubReads s ppn n) := by
  unfold hubReads
  repeat' (first
    | with_reducible assumption | with_reducible apply keeps_sendOver | intro _ | with_reducible apply Keeps.ite | split)

theorem keeps_hubWrites {w₀ : Part → Prop} {r₀ : State} (s : State) (ppn : Nat) (hk : Keeps w₀ r₀ s)
    (w_traffic : w₀ .traffic := by first | assumption | exact trivial) :
    Keeps w₀ r₀ (hubWrites s ppn) := by
  unfold hubWrites
  repeat' (first
    | with_reducible assumption | with_reducible apply keeps_sendOver | intro _ | with_reducible apply Keeps.ite | split)

theorem keeps_eachPiece {w₀ : Part → Prop} {r₀ : State} (asn va len : Nat) (f : State → Nat → Nat → State) (s : State) (hf : ∀ s a b, Keeps w₀ r₀ s → Keeps w₀ r₀ (f s a b)) (hk : Keeps w₀ r₀ s) :
    Keeps w₀ r₀ (eachPiece asn va len f s) := by
  unfold eachPiece
  repeat' (first
    | with_reducible assumption | with_reducible apply hf | with_reducible apply Keeps.foldl | intro _ | split)

theorem keeps_hubReadsVirt {w₀ : Part → Prop} {r₀ : State} (s : State) (asn va len : Nat) (hk : Keeps w₀ r₀ s)
    (w_traffic : w₀ .traffic := by first | assumption | exact trivial) :
    Keeps w₀ r₀ (hubReadsVirt s asn va len) := by
  unfold hubReadsVirt
  repeat' (first
    | with_reducible assumption | with_reducible apply keeps_hubReads | with_reducible apply keeps_eachPiece | intro _)

theorem keeps_hubWritesVirt {w₀ : Part → Prop} {r₀ : State} (s : State) (asn va len : Nat) (hk : Keeps w₀ r₀ s)
    (w_traffic : w₀ .traffic := by first | assumption | exact trivial) :
    Keeps w₀ r₀ (hubWritesVirt s asn va len) := by
  unfold hubWritesVirt
  repeat' (first
    | with_reducible assumption | with_reducible apply keeps_hubWrites | with_reducible apply keeps_eachPiece | intro _)

theorem keeps_timeRead {w₀ : Part → Prop} {r₀ : State} (s : State) (ppn : Nat) (hk : Keeps w₀ r₀ s)
    (w_traffic : w₀ .traffic := by first | assumption | exact trivial) :
    Keeps w₀ r₀ (timeRead s ppn) := by
  unfold timeRead
  simp only [State.mk_build]
  repeat' (first
    | with_reducible assumption | with_reducible apply keeps_Env.reads | with_reducible apply Keeps.upd | with_reducible rfl
    | with_reducible exact id | with_reducible exact Or.inl (by assumption) | with_reducible exact Or.inr rfl
    | with_reducible exact Or.inr ⟨rfl, rfl⟩ | with_reducible exact Or.inr ⟨rfl, rfl, rfl⟩
    | with_reducible exact Or.inr ⟨rfl, rfl, rfl, rfl⟩ | with_reducible exact length_modAt | (exact fun _ h => h) | intro _
    | (show Ctx.canon _; assumption) | with_reducible apply Ctx.canon_ite | (show Mem.wf _ = true; assumption)
    | with_reducible apply Keeps.ite | split)

theorem keeps_notePeak {w₀ : Part → Prop} {r₀ : State} (s : State) (d : Nat) (hk : Keeps w₀ r₀ s)
    (w_traffic : w₀ .traffic := by first | assumption | exact trivial) :
    Keeps w₀ r₀ (notePeak s d) := by
  unfold notePeak
  simp only [State.mk_build]
  repeat' (first
    | with_reducible assumption | with_reducible apply Keeps.upd | with_reducible rfl | with_reducible exact id
    | with_reducible exact Or.inl (by assumption) | with_reducible exact Or.inr rfl | with_reducible exact Or.inr ⟨rfl, rfl⟩
    | with_reducible exact Or.inr ⟨rfl, rfl, rfl⟩ | with_reducible exact Or.inr ⟨rfl, rfl, rfl, rfl⟩
    | with_reducible exact length_modAt | (exact fun _ h => h) | intro _ | (show Ctx.canon _; assumption)
    | with_reducible apply Ctx.canon_ite | (show Mem.wf _ = true; assumption))

theorem keeps_switchPage {w₀ : Part → Prop} {r₀ : State} (s : State) (asn vpn dst : Nat) (hk : Keeps w₀ r₀ s)
    (w_dies : w₀ .dies := by first | assumption | exact trivial)
    (w_pages : w₀ .pages := by first | assumption | exact trivial)
    (w_mem : w₀ .mem := by first | assumption | exact trivial) :
    Keeps w₀ r₀ (switchPage s asn vpn dst) := by
  unfold switchPage
  repeat' (first
    | with_reducible assumption | with_reducible apply keeps_modPage | with_reducible apply keeps_copyPage
    | with_reducible apply Keeps.upd | with_reducible rfl | with_reducible exact id
    | with_reducible exact Or.inl (by assumption) | with_reducible exact Or.inr rfl | with_reducible exact Or.inr ⟨rfl, rfl⟩
    | with_reducible exact Or.inr ⟨rfl, rfl, rfl⟩ | with_reducible exact Or.inr ⟨rfl, rfl, rfl, rfl⟩ | (exact fun _ h => h)
    | intro _ | (show Ctx.canon _; assumption) | with_reducible apply Ctx.canon_ite | (show Mem.wf _ = true; assumption)
    | split)

theorem keeps_poisonSeen {w₀ : Part → Prop} {r₀ : State} (s : State) (ppn o len : Nat) (hk : Keeps w₀ r₀ s)
    (w_regs : w₀ .regs := by first | assumption | exact trivial) :
    Keeps w₀ r₀ (poisonSeen s ppn o len) := by
  unfold poisonSeen
  repeat' (first
    | with_reducible assumption | with_reducible apply keeps_setBits | intro _ | with_reducible apply Keeps.ite | split)

theorem keeps_movePage {w₀ : Part → Prop} {r₀ : State} (s : State) (asn : Nat) (g : Page) (dst : Nat) (hk : Keeps w₀ r₀ s)
    (w_regs : w₀ .regs := by first | assumption | exact trivial)
    (w_dies : w₀ .dies := by first | assumption | exact trivial)
    (w_pages : w₀ .pages := by first | assumption | exact trivial)
    (w_mem : w₀ .mem := by first | assumption | exact trivial)
    (w_traffic : w₀ .traffic := by first | assumption | exact trivial) :
    Keeps w₀ r₀ (movePage s asn g dst) := by
  unfold movePage
  repeat' (first
    | with_reducible assumption | with_reducible apply keeps_hubReads | with_reducible apply keeps_hubWrites
    | with_reducible apply keeps_switchPage | with_reducible apply keeps_poisonSeen | intro _)

theorem keeps_promotePage {w₀ : Part → Prop} {r₀ : State} (s : State) (asn vpn : Nat) (hk : Keeps w₀ r₀ s)
    (w_regs : w₀ .regs := by first | assumption | exact trivial)
    (w_dies : w₀ .dies := by first | assumption | exact trivial)
    (w_pages : w₀ .pages := by first | assumption | exact trivial)
    (w_moves : w₀ .moves := by first | assumption | exact trivial)
    (w_mem : w₀ .mem := by first | assumption | exact trivial)
    (w_traffic : w₀ .traffic := by first | assumption | exact trivial) :
    Keeps w₀ r₀ (promotePage s asn vpn) := by
  unfold promotePage
  simp only [State.mk_build]
  repeat' (first
    | with_reducible assumption | with_reducible apply keeps_movePage | with_reducible apply Keeps.upd | with_reducible rfl
    | with_reducible exact id | with_reducible exact Or.inl (by assumption) | with_reducible exact Or.inr rfl
    | with_reducible exact Or.inr ⟨rfl, rfl⟩ | with_reducible exact Or.inr ⟨rfl, rfl, rfl⟩
    | with_reducible exact Or.inr ⟨rfl, rfl, rfl, rfl⟩ | with_reducible exact length_map' | (exact fun _ h => h) | intro _
    | (show Ctx.canon _; assumption) | with_reducible apply Ctx.canon_ite | (show Mem.wf _ = true; assumption)
    | with_reducible apply Keeps.ite | split)

theorem keeps_agentWrite {w₀ : Part → Prop} {r₀ : State} (s : State) (asn va : Nat) (b : Bytes) (hk : Keeps w₀ r₀ s)
    (w_regs : w₀ .regs := by first | assumption | exact trivial)
    (w_dies : w₀ .dies := by first | assumption | exact trivial)
    (w_pages : w₀ .pages := by first | assumption | exact trivial)
    (w_moves : w₀ .moves := by first | assumption | exact trivial)
    (w_mem : w₀ .mem := by first | assumption | exact trivial)
    (w_traffic : w₀ .traffic := by first | assumption | exact trivial) :
    Keeps w₀ r₀ (agentWrite s asn va b) := by
  unfold agentWrite
  dsimp only
  repeat' (first
    | with_reducible assumption | with_reducible apply keeps_virtWrite | with_reducible apply keeps_hubWritesVirt
    | with_reducible apply keeps_promotePage | with_reducible apply Keeps.foldl | intro _)

theorem keeps_agentReads {w₀ : Part → Prop} {r₀ : State} (s : State) (asn va n : Nat) (hk : Keeps w₀ r₀ s)
    (w_dies : w₀ .dies := by first | assumption | exact trivial)
    (w_mem : w₀ .mem := by first | assumption | exact trivial)
    (w_traffic : w₀ .traffic := by first | assumption | exact trivial) :
    Keeps w₀ r₀ (agentReads s asn va n) := by
  unfold agentReads
  repeat' (first
    | with_reducible assumption | with_reducible apply keeps_meetVirt | with_reducible apply keeps_hubReadsVirt | intro _)

theorem keeps_readThen {w₀ : Part → Prop} {r₀ : State} (s : State) (asn va n : Nat) (f : State → Except VErr Bytes → State) (hf : ∀ s x, Keeps w₀ r₀ s → Keeps w₀ r₀ (f s x)) (hk : Keeps w₀ r₀ s)
    (w_dies : w₀ .dies := by first | assumption | exact trivial)
    (w_mem : w₀ .mem := by first | assumption | exact trivial)
    (w_traffic : w₀ .traffic := by first | assumption | exact trivial) :
    Keeps w₀ r₀ (readThen s asn va n f) := by
  unfold readThen
  dsimp only
  repeat' (first
    | with_reducible assumption | with_reducible apply hf | with_reducible apply keeps_agentReads | intro _)

theorem keeps_sendQuota {w₀ : Part → Prop} {r₀ : State} (s : State) (asn tier cause use quota asked : Nat) (hk : Keeps w₀ r₀ s)
    (w_regs : w₀ .regs := by first | assumption | exact trivial)
    (w_host : w₀ .host := by first | assumption | exact trivial) :
    Keeps w₀ r₀ (sendQuota s asn tier cause use quota asked) := by
  unfold sendQuota
  repeat' (first
    | with_reducible assumption | with_reducible apply keeps_sendMsg | intro _)

theorem keeps_addOwnSem {w₀ : Part → Prop} {r₀ : State} (s : State) (asn idx n : Nat) (hk : Keeps w₀ r₀ s)
    (w_ctxs : w₀ .ctxs := by first | assumption | exact trivial) :
    Keeps w₀ r₀ (addOwnSem s asn idx n) := by
  unfold addOwnSem
  repeat' (first
    | with_reducible assumption | with_reducible apply keeps_modCtx | with_reducible apply Keeps.upd | with_reducible rfl
    | with_reducible exact id | with_reducible exact Or.inl (by assumption) | with_reducible exact Or.inr rfl
    | with_reducible exact Or.inr ⟨rfl, rfl⟩ | with_reducible exact Or.inr ⟨rfl, rfl, rfl⟩
    | with_reducible exact Or.inr ⟨rfl, rfl, rfl, rfl⟩ | with_reducible exact length_modAt | (exact fun _ h => h) | intro _
    | (show Ctx.canon _; assumption) | with_reducible apply Ctx.canon_ite | (show Mem.wf _ = true; assumption))

theorem keeps_addSem {w₀ : Part → Prop} {r₀ : State} (s : State) (asn idx n : Nat) (hk : Keeps w₀ r₀ s)
    (w_ctxs : w₀ .ctxs := by first | assumption | exact trivial) :
    Keeps w₀ r₀ (addSem s asn idx n) := by
  unfold addSem
  repeat' (first
    | with_reducible assumption | with_reducible apply keeps_addOwnSem | intro _ | split)

theorem keeps_takeSem {w₀ : Part → Prop} {r₀ : State} (s : State) (asn idx n : Nat) (hk : Keeps w₀ r₀ s)
    (w_ctxs : w₀ .ctxs := by first | assumption | exact trivial) :
    Keeps w₀ r₀ (takeSem s asn idx n) := by
  unfold takeSem
  repeat' (first
    | with_reducible assumption | with_reducible apply keeps_modCtx | with_reducible apply Keeps.upd | with_reducible rfl
    | with_reducible exact id | with_reducible exact Or.inl (by assumption) | with_reducible exact Or.inr rfl
    | with_reducible exact Or.inr ⟨rfl, rfl⟩ | with_reducible exact Or.inr ⟨rfl, rfl, rfl⟩
    | with_reducible exact Or.inr ⟨rfl, rfl, rfl, rfl⟩ | with_reducible exact length_modAt | (exact fun _ h => h) | intro _
    | (show Ctx.canon _; assumption) | with_reducible apply Ctx.canon_ite | (show Mem.wf _ = true; assumption) | split)

theorem keeps_addCounter {w₀ : Part → Prop} {r₀ : State} (s : State) (asn ctr n : Nat) (hk : Keeps w₀ r₀ s)
    (w_ctxs : w₀ .ctxs := by first | assumption | exact trivial) :
    Keeps w₀ r₀ (addCounter s asn ctr n) := by
  unfold addCounter
  repeat' (first
    | with_reducible assumption | with_reducible apply keeps_modCtx | with_reducible apply Keeps.upd | with_reducible rfl
    | with_reducible exact id | with_reducible exact Or.inl (by assumption) | with_reducible exact Or.inr rfl
    | with_reducible exact Or.inr ⟨rfl, rfl⟩ | with_reducible exact Or.inr ⟨rfl, rfl, rfl⟩
    | with_reducible exact Or.inr ⟨rfl, rfl, rfl, rfl⟩ | with_reducible exact length_modAt | (exact fun _ h => h) | intro _
    | (show Ctx.canon _; assumption) | with_reducible apply Ctx.canon_ite | (show Mem.wf _ = true; assumption))

theorem keeps_orFlags {w₀ : Part → Prop} {r₀ : State} (s : State) (asn f : Nat) (hk : Keeps w₀ r₀ s)
    (w_ctxs : w₀ .ctxs := by first | assumption | exact trivial) :
    Keeps w₀ r₀ (orFlags s asn f) := by
  unfold orFlags
  repeat' (first
    | with_reducible assumption | with_reducible apply keeps_modCtx | with_reducible apply Keeps.upd | with_reducible rfl
    | with_reducible exact id | with_reducible exact Or.inl (by assumption) | with_reducible exact Or.inr rfl
    | with_reducible exact Or.inr ⟨rfl, rfl⟩ | with_reducible exact Or.inr ⟨rfl, rfl, rfl⟩
    | with_reducible exact Or.inr ⟨rfl, rfl, rfl, rfl⟩ | (exact fun _ h => h) | intro _ | (show Ctx.canon _; assumption)
    | with_reducible apply Ctx.canon_ite | (show Mem.wf _ = true; assumption))

theorem keeps_stepFree {w₀ : Part → Prop} {r₀ : State} (s : State) (hk : Keeps w₀ r₀ s)
    (w_ids : w₀ .ids := by first | assumption | exact trivial) :
    Keeps w₀ r₀ (stepFree s) := by
  unfold stepFree
  simp only [State.mk_build]
  repeat' (first
    | with_reducible assumption | with_reducible apply Keeps.upd | with_reducible rfl | with_reducible exact id
    | with_reducible exact Or.inl (by assumption) | with_reducible exact Or.inr rfl | with_reducible exact Or.inr ⟨rfl, rfl⟩
    | with_reducible exact Or.inr ⟨rfl, rfl, rfl⟩ | with_reducible exact Or.inr ⟨rfl, rfl, rfl, rfl⟩ | (exact fun _ h => h)
    | intro _ | (show Ctx.canon _; assumption) | with_reducible apply Ctx.canon_ite | (show Mem.wf _ = true; assumption))

end Sys2Proof.Machine
end

