-- ==== Sys2Proof/Laws/KeepsJobs.lean ====
section
/-! SUPPORT. Laws/KeepsJobs.lean: what the operations of Machine/Jobs.lean keep. -/

set_option Elab.async false

namespace Sys2Proof.Machine

theorem keeps_resettle {w₀ : Part → Prop} {r₀ : State} (s : State) (hk : Keeps w₀ r₀ s)
    (w_dies : w₀ .dies := by first | assumption | exact trivial) :
    Keeps w₀ r₀ (resettle s) := by
  unfold resettle
  simp only [State.mk_build]
  repeat' (first
    | with_reducible assumption | with_reducible apply Keeps.upd | with_reducible rfl | with_reducible exact id
    | with_reducible exact Or.inl (by assumption) | with_reducible exact Or.inr rfl | with_reducible exact Or.inr ⟨rfl, rfl⟩
    | with_reducible exact Or.inr ⟨rfl, rfl, rfl⟩ | with_reducible exact Or.inr ⟨rfl, rfl, rfl, rfl⟩
    | with_reducible exact length_mapIdx' | (exact fun _ h => h) | intro _ | (show Ctx.canon _; assumption)
    | with_reducible apply Ctx.canon_ite | (show Mem.wf _ = true; assumption))

theorem keeps_addTotal {w₀ : Part → Prop} {r₀ : State} (s : State) (asn : Nat) (a : Acct) (hk : Keeps w₀ r₀ s)
    (w_acct : w₀ .acct := by first | assumption | exact trivial) :
    Keeps w₀ r₀ (addTotal s asn a) := by
  unfold addTotal
  simp only [State.mk_build]
  repeat' (first
    | with_reducible assumption | with_reducible apply Keeps.upd | with_reducible rfl | with_reducible exact id
    | with_reducible exact Or.inl (by assumption) | with_reducible exact Or.inr rfl | with_reducible exact Or.inr ⟨rfl, rfl⟩
    | with_reducible exact Or.inr ⟨rfl, rfl, rfl⟩ | with_reducible exact Or.inr ⟨rfl, rfl, rfl, rfl⟩ | (exact fun _ h => h)
    | intro _ | (show Ctx.canon _; assumption) | with_reducible apply Ctx.canon_ite | (show Mem.wf _ = true; assumption))

theorem keeps_flushCtx {w₀ : Part → Prop} {r₀ : State} (s : State) (asn : Nat) (hk : Keeps w₀ r₀ s)
    (w_ctxs : w₀ .ctxs := by first | assumption | exact trivial)
    (w_acct : w₀ .acct := by first | assumption | exact trivial) :
    Keeps w₀ r₀ (flushCtx s asn) := by
  unfold flushCtx
  dsimp only
  repeat' (first
    | with_reducible assumption | with_reducible apply keeps_addTotal | with_reducible apply Keeps.foldl
    | with_reducible apply keeps_modCtx | with_reducible apply Keeps.upd | with_reducible rfl | with_reducible exact id
    | with_reducible exact Or.inl (by assumption) | with_reducible exact Or.inr rfl | with_reducible exact Or.inr ⟨rfl, rfl⟩
    | with_reducible exact Or.inr ⟨rfl, rfl, rfl⟩ | with_reducible exact Or.inr ⟨rfl, rfl, rfl, rfl⟩ | (exact fun _ h => h)
    | intro _ | (show Ctx.canon _; assumption) | with_reducible apply Ctx.canon_ite | (show Mem.wf _ = true; assumption)
    | split)

theorem keeps_dropWaits {w₀ : Part → Prop} {r₀ : State} (s : State) (asn : Nat) (core : Nat → Bool) (hk : Keeps w₀ r₀ s)
    (w_ctxs : w₀ .ctxs := by first | assumption | exact trivial) :
    Keeps w₀ r₀ (dropWaits s asn core) := by
  unfold dropWaits
  simp only [State.mk_build]
  repeat' (first
    | with_reducible assumption | with_reducible apply Keeps.upd | with_reducible rfl | with_reducible exact id
    | with_reducible exact Or.inl (by assumption) | with_reducible exact Or.inr rfl | with_reducible exact Or.inr ⟨rfl, rfl⟩
    | with_reducible exact Or.inr ⟨rfl, rfl, rfl⟩ | with_reducible exact Or.inr ⟨rfl, rfl, rfl, rfl⟩
    | with_reducible exact length_map' | (exact fun _ h => h) | (exact fun _ h => canon_map (fun _ h => h) h)
    | (exact stores_map fun _ h => h) | (exact stores_map fun _ h => by split <;> exact h) | (exact pools_map fun _ h => h)
    | (exact stores_mapIdx fun _ _ h => h) | (exact pools_modAt fun _ h => h) | (exact fun h => h) | intro _
    | (show Ctx.canon _; assumption) | with_reducible apply Ctx.canon_ite | (show Mem.wf _ = true; assumption)
    | (refine Ctx.canon_cores (by assumption) ?_ ?_) | with_reducible apply Keeps.ite | split)

theorem keeps_stopJob {w₀ : Part → Prop} {r₀ : State} (s : State) (asn : Nat) (st : Status) (core index : Nat) (hk : Keeps w₀ r₀ s)
    (w_ctxs : w₀ .ctxs := by first | assumption | exact trivial) :
    Keeps w₀ r₀ (stopJob s asn st core index) := by
  unfold stopJob
  dsimp only
  repeat' (first
    | with_reducible assumption | with_reducible apply keeps_dropWaits | (exact stores_map fun k h => k.stop_store ▸ h)
    | with_reducible apply keeps_modCtx | with_reducible apply Keeps.upd | with_reducible rfl | with_reducible exact id
    | with_reducible exact Or.inl (by assumption) | with_reducible exact Or.inr rfl | with_reducible exact Or.inr ⟨rfl, rfl⟩
    | with_reducible exact Or.inr ⟨rfl, rfl, rfl⟩ | with_reducible exact Or.inr ⟨rfl, rfl, rfl, rfl⟩
    | with_reducible exact length_map' | (exact fun _ h => h) | (exact stores_map fun _ h => h)
    | (exact stores_map fun _ h => by split <;> exact h) | (exact pools_map fun _ h => h)
    | (exact stores_mapIdx fun _ _ h => h) | (exact pools_modAt fun _ h => h) | (exact fun h => h) | intro _
    | (show Ctx.canon _; assumption) | with_reducible apply Ctx.canon_ite | (show Mem.wf _ = true; assumption)
    | (refine Ctx.canon_cores (by assumption) ?_ ?_) | with_reducible apply Keeps.ite | split)

theorem keeps_dropAborts {w₀ : Part → Prop} {r₀ : State} (s : State) (asn : Nat) (hk : Keeps w₀ r₀ s)
    (w_groups : w₀ .groups := by first | assumption | exact trivial) :
    Keeps w₀ r₀ (dropAborts s asn) := by
  unfold dropAborts
  simp only [State.mk_build]
  repeat' (first
    | with_reducible assumption | with_reducible apply Keeps.upd | with_reducible rfl | with_reducible exact id
    | with_reducible exact Or.inl (by assumption) | with_reducible exact Or.inr rfl | with_reducible exact Or.inr ⟨rfl, rfl⟩
    | with_reducible exact Or.inr ⟨rfl, rfl, rfl⟩ | with_reducible exact Or.inr ⟨rfl, rfl, rfl, rfl⟩
    | with_reducible exact length_map' | (exact fun _ h => h) | intro _ | (show Ctx.canon _; assumption)
    | with_reducible apply Ctx.canon_ite | (show Mem.wf _ = true; assumption) | with_reducible apply Keeps.ite | split)

theorem keeps_endJob {w₀ : Part → Prop} {r₀ : State} (s : State) (asn : Nat) (st : Status) (core fault die index : Nat) (hk : Keeps w₀ r₀ s)
    (w_regs : w₀ .regs := by first | assumption | exact trivial)
    (w_host : w₀ .host := by first | assumption | exact trivial)
    (w_ctxs : w₀ .ctxs := by first | assumption | exact trivial)
    (w_groups : w₀ .groups := by first | assumption | exact trivial)
    (w_acct : w₀ .acct := by first | assumption | exact trivial) :
    Keeps w₀ r₀ (endJob s asn st core fault die index) := by
  unfold endJob
  dsimp only
  repeat' (first
    | with_reducible assumption | with_reducible apply keeps_pushCompletion | with_reducible apply keeps_complete
    | with_reducible apply keeps_flushCtx | with_reducible apply keeps_dropWaits | with_reducible apply keeps_dropAborts
    | with_reducible apply Keeps.foldl | with_reducible apply keeps_modCtx | with_reducible apply Keeps.upd
    | with_reducible rfl | with_reducible exact id | with_reducible exact Or.inl (by assumption)
    | with_reducible exact Or.inr rfl | with_reducible exact Or.inr ⟨rfl, rfl⟩ | with_reducible exact Or.inr ⟨rfl, rfl, rfl⟩
    | with_reducible exact Or.inr ⟨rfl, rfl, rfl, rfl⟩ | with_reducible exact length_map' | (exact fun _ h => h)
    | (exact stores_map fun _ h => h) | (exact stores_map fun _ h => by split <;> exact h) | (exact pools_map fun _ h => h)
    | (exact stores_mapIdx fun _ _ h => h) | (exact pools_modAt fun _ h => h) | (exact fun h => h) | intro _
    | (show Ctx.canon _; assumption) | with_reducible apply Ctx.canon_ite | (show Mem.wf _ = true; assumption)
    | (refine Ctx.canon_cores (by assumption) ?_ ?_) | with_reducible apply Keeps.ite | split)

theorem keeps_clearPrec {w₀ : Part → Prop} {r₀ : State} (s : State) (d sl : Nat) (hk : Keeps w₀ r₀ s)
    (w_regs : w₀ .regs := by first | assumption | exact trivial) :
    Keeps w₀ r₀ (clearPrec s d sl) := by
  unfold clearPrec
  simp only [State.mk_build]
  repeat' (first
    | with_reducible assumption | with_reducible apply Keeps.upd | with_reducible rfl | with_reducible exact id
    | with_reducible exact Or.inl (by assumption) | with_reducible exact Or.inr rfl | with_reducible exact Or.inr ⟨rfl, rfl⟩
    | with_reducible exact Or.inr ⟨rfl, rfl, rfl⟩ | with_reducible exact Or.inr ⟨rfl, rfl, rfl, rfl⟩ | (exact fun _ h => h)
    | intro _ | (show Ctx.canon _; assumption) | with_reducible apply Ctx.canon_ite | (show Mem.wf _ = true; assumption))

theorem keeps_clearSlots {w₀ : Part → Prop} {r₀ : State} (s : State) (c : Ctx) (hk : Keeps w₀ r₀ s)
    (w_regs : w₀ .regs := by first | assumption | exact trivial) :
    Keeps w₀ r₀ (clearSlots s c) := by
  unfold clearSlots
  repeat' (first
    | with_reducible assumption | with_reducible apply keeps_clearPrec | with_reducible apply Keeps.foldl | intro _ | split)

theorem keeps_pruneFences {w₀ : Part → Prop} {r₀ : State} (s : State) (hk : Keeps w₀ r₀ s)
    (w_ctxs : w₀ .ctxs := by first | assumption | exact trivial) :
    Keeps w₀ r₀ (pruneFences s) := by
  unfold pruneFences
  simp only [State.mk_build]
  repeat' (first
    | with_reducible assumption | with_reducible apply Keeps.upd | with_reducible rfl | with_reducible exact id
    | with_reducible exact Or.inl (by assumption) | with_reducible exact Or.inr rfl | with_reducible exact Or.inr ⟨rfl, rfl⟩
    | with_reducible exact Or.inr ⟨rfl, rfl, rfl⟩ | with_reducible exact Or.inr ⟨rfl, rfl, rfl, rfl⟩
    | with_reducible exact length_map' | (exact fun _ h => h) | (exact fun _ h => canon_map (fun _ h => h) h)
    | (exact fun _ h => canon_filter h) | intro _ | (show Ctx.canon _; assumption) | with_reducible apply Ctx.canon_ite
    | (show Mem.wf _ = true; assumption))

theorem keeps_forget {w₀ : Part → Prop} {r₀ : State} (s : State) (asn : Nat) (hk : Keeps w₀ r₀ s)
    (w_regs : w₀ .regs := by first | assumption | exact trivial)
    (w_moves : w₀ .moves := by first | assumption | exact trivial)
    (w_ctxs : w₀ .ctxs := by first | assumption | exact trivial) :
    Keeps w₀ r₀ (forget s asn) := by
  unfold forget
  simp only [State.mk_build]
  repeat' (first
    | with_reducible assumption | with_reducible apply keeps_dropWaits | with_reducible apply keeps_stopJob
    | with_reducible apply keeps_clearSlots | with_reducible apply keeps_pruneFences
    | (exact fun _ h => canon_map (fun _ h => h) (canon_filter h)) | with_reducible apply Keeps.foldl
    | with_reducible apply Keeps.upd | with_reducible rfl | with_reducible exact id
    | with_reducible exact Or.inl (by assumption) | with_reducible exact Or.inr rfl | with_reducible exact Or.inr ⟨rfl, rfl⟩
    | with_reducible exact Or.inr ⟨rfl, rfl, rfl⟩ | with_reducible exact Or.inr ⟨rfl, rfl, rfl, rfl⟩
    | with_reducible exact length_map' | (exact fun _ h => h) | (exact fun _ h => canon_map (fun _ h => h) h)
    | (exact fun _ h => canon_filter h) | intro _ | (show Ctx.canon _; assumption) | with_reducible apply Ctx.canon_ite
    | (show Mem.wf _ = true; assumption) | with_reducible apply Keeps.ite | split)

theorem keeps_loseCtx {w₀ : Part → Prop} {r₀ : State} (s : State) (asn fault die core index : Nat) (hk : Keeps w₀ r₀ s)
    (w_regs : w₀ .regs := by first | assumption | exact trivial)
    (w_host : w₀ .host := by first | assumption | exact trivial)
    (w_dies : w₀ .dies := by first | assumption | exact trivial)
    (w_moves : w₀ .moves := by first | assumption | exact trivial)
    (w_ctxs : w₀ .ctxs := by first | assumption | exact trivial)
    (w_groups : w₀ .groups := by first | assumption | exact trivial)
    (w_codecs : w₀ .codecs := by first | assumption | exact trivial)
    (w_acct : w₀ .acct := by first | assumption | exact trivial) :
    Keeps w₀ r₀ (loseCtx s asn fault die core index) := by
  unfold loseCtx
  simp only [State.mk_build]
  repeat' (first
    | with_reducible assumption | with_reducible apply keeps_complete | with_reducible apply keeps_resettle
    | with_reducible apply keeps_endJob | with_reducible apply keeps_forget | with_reducible apply Keeps.foldl
    | with_reducible apply Keeps.upd | with_reducible rfl | with_reducible exact id
    | with_reducible exact Or.inl (by assumption) | with_reducible exact Or.inr rfl | with_reducible exact Or.inr ⟨rfl, rfl⟩
    | with_reducible exact Or.inr ⟨rfl, rfl, rfl⟩ | with_reducible exact Or.inr ⟨rfl, rfl, rfl, rfl⟩
    | with_reducible exact length_map' | (exact fun _ h => h) | intro _ | (show Ctx.canon _; assumption)
    | with_reducible apply Ctx.canon_ite | (show Mem.wf _ = true; assumption) | with_reducible apply Keeps.ite | split)

theorem keeps_destroyCtx {w₀ : Part → Prop} {r₀ : State} (s : State) (asn : Nat) (hk : Keeps w₀ r₀ s)
    (w_regs : w₀ .regs := by first | assumption | exact trivial)
    (w_dies : w₀ .dies := by first | assumption | exact trivial)
    (w_moves : w₀ .moves := by first | assumption | exact trivial)
    (w_ctxs : w₀ .ctxs := by first | assumption | exact trivial)
    (w_acct : w₀ .acct := by first | assumption | exact trivial) :
    Keeps w₀ r₀ (destroyCtx s asn) := by
  unfold destroyCtx
  repeat' (first
    | with_reducible assumption | with_reducible apply keeps_resettle | with_reducible apply keeps_flushCtx
    | with_reducible apply keeps_forget | intro _)

theorem keeps_startCork {w₀ : Part → Prop} {r₀ : State} (s : State) (asn : Nat) (hk : Keeps w₀ r₀ s)
    (w_ctxs : w₀ .ctxs := by first | assumption | exact trivial)
    (w_acct : w₀ .acct := by first | assumption | exact trivial) :
    Keeps w₀ r₀ (startCork s asn) := by
  unfold startCork
  repeat' (first
    | with_reducible assumption | with_reducible apply keeps_flushCtx | with_reducible apply keeps_modCtx
    | with_reducible apply Keeps.upd | with_reducible rfl | with_reducible exact id
    | with_reducible exact Or.inl (by assumption) | with_reducible exact Or.inr rfl | with_reducible exact Or.inr ⟨rfl, rfl⟩
    | with_reducible exact Or.inr ⟨rfl, rfl, rfl⟩ | with_reducible exact Or.inr ⟨rfl, rfl, rfl, rfl⟩ | (exact fun _ h => h)
    | intro _ | (show Ctx.canon _; assumption) | with_reducible apply Ctx.canon_ite | (show Mem.wf _ = true; assumption)
    | split)

theorem keeps_startBench {w₀ : Part → Prop} {r₀ : State} (s : State) (asn : Nat) (hk : Keeps w₀ r₀ s)
    (w_ctxs : w₀ .ctxs := by first | assumption | exact trivial) :
    Keeps w₀ r₀ (startBench s asn) := by
  unfold startBench
  dsimp only
  repeat' (first
    | with_reducible assumption | with_reducible apply keeps_modCtx | with_reducible apply Keeps.upd | with_reducible rfl
    | with_reducible exact id | with_reducible exact Or.inl (by assumption) | with_reducible exact Or.inr rfl
    | with_reducible exact Or.inr ⟨rfl, rfl⟩ | with_reducible exact Or.inr ⟨rfl, rfl, rfl⟩
    | with_reducible exact Or.inr ⟨rfl, rfl, rfl, rfl⟩ | (exact fun _ h => h) | intro _ | (show Ctx.canon _; assumption)
    | with_reducible apply Ctx.canon_ite | (show Mem.wf _ = true; assumption) | with_reducible apply Keeps.ite | split)

end Sys2Proof.Machine
end

