-- ==== Sys2Proof/Laws/KeepsDies.lean ====
section
/-! SUPPORT. Laws/KeepsDies.lean: what the operations of Machine/Dies.lean keep. -/

set_option Elab.async false

namespace Sys2Proof.Machine

theorem keeps_releaseHeld {w₀ : Part → Prop} {r₀ : State} (s : State) (hk : Keeps w₀ r₀ s)
    (w_ctxs : w₀ .ctxs := by first | assumption | exact trivial) :
    Keeps w₀ r₀ (releaseHeld s) := by
  unfold releaseHeld
  simp only [State.mk_build]
  repeat' (first
    | with_reducible assumption
    | (exact fun _ h => canon_map (fun c h => ⟨stores_map (fun k hk => by split <;> exact hk) h.1, h.2⟩) h)
    | with_reducible apply Keeps.upd | with_reducible rfl | with_reducible exact id
    | with_reducible exact Or.inl (by assumption) | with_reducible exact Or.inr rfl | with_reducible exact Or.inr ⟨rfl, rfl⟩
    | with_reducible exact Or.inr ⟨rfl, rfl, rfl⟩ | with_reducible exact Or.inr ⟨rfl, rfl, rfl, rfl⟩
    | with_reducible exact length_map' | (exact fun _ h => h) | (exact fun _ h => canon_map (fun _ h => h) h) | intro _
    | (show Ctx.canon _; assumption) | with_reducible apply Ctx.canon_ite | (show Mem.wf _ = true; assumption)
    | with_reducible apply Keeps.ite | split)

theorem keeps_epochAbort {w₀ : Part → Prop} {r₀ : State} (s : State) (reason : Nat) (hk : Keeps w₀ r₀ s)
    (w_regs : w₀ .regs := by first | assumption | exact trivial)
    (w_host : w₀ .host := by first | assumption | exact trivial)
    (w_dies : w₀ .dies := by first | assumption | exact trivial)
    (w_ctxs : w₀ .ctxs := by first | assumption | exact trivial)
    (w_modes : w₀ .modes := by first | assumption | exact trivial) :
    Keeps w₀ r₀ (epochAbort s reason) := by
  unfold epochAbort
  simp only [State.mk_build]
  repeat' (first
    | with_reducible assumption | with_reducible apply keeps_sendMsg | with_reducible apply keeps_complete
    | with_reducible apply keeps_releaseHeld | with_reducible apply Keeps.upd | with_reducible rfl | with_reducible exact id
    | with_reducible exact Or.inl (by assumption) | with_reducible exact Or.inr rfl | with_reducible exact Or.inr ⟨rfl, rfl⟩
    | with_reducible exact Or.inr ⟨rfl, rfl, rfl⟩ | with_reducible exact Or.inr ⟨rfl, rfl, rfl, rfl⟩
    | with_reducible exact length_map' | (exact fun _ h => h) | intro _ | (show Ctx.canon _; assumption)
    | with_reducible apply Ctx.canon_ite | (show Mem.wf _ = true; assumption) | split)

theorem keeps_finishScreen {w₀ : Part → Prop} {r₀ : State} (s : State) (d outcome : Nat) (hk : Keeps w₀ r₀ s)
    (w_regs : w₀ .regs := by first | assumption | exact trivial)
    (w_host : w₀ .host := by first | assumption | exact trivial)
    (w_dies : w₀ .dies := by first | assumption | exact trivial)
    (w_store : w₀ .store := by first | assumption | exact trivial) :
    Keeps w₀ r₀ (finishScreen s d outcome) := by
  unfold finishScreen
  dsimp only
  repeat' (first
    | with_reducible assumption | with_reducible apply keeps_setReg | with_reducible apply keeps_modDie
    | with_reducible apply keeps_sendMsg | with_reducible apply keeps_logFault | with_reducible apply keeps_resettle
    | with_reducible apply Keeps.foldl | with_reducible apply Keeps.upd | with_reducible rfl | with_reducible exact id
    | with_reducible exact Or.inl (by assumption) | with_reducible exact Or.inr rfl | with_reducible exact Or.inr ⟨rfl, rfl⟩
    | with_reducible exact Or.inr ⟨rfl, rfl, rfl⟩ | with_reducible exact Or.inr ⟨rfl, rfl, rfl, rfl⟩ | (exact fun _ h => h)
    | intro _ | (show Ctx.canon _; assumption) | with_reducible apply Ctx.canon_ite | (show Mem.wf _ = true; assumption)
    | with_reducible apply Keeps.ite | split)

theorem keeps_abortScreen {w₀ : Part → Prop} {r₀ : State} (s : State) (d : Nat) (hk : Keeps w₀ r₀ s)
    (w_regs : w₀ .regs := by first | assumption | exact trivial)
    (w_host : w₀ .host := by first | assumption | exact trivial)
    (w_dies : w₀ .dies := by first | assumption | exact trivial)
    (w_store : w₀ .store := by first | assumption | exact trivial) :
    Keeps w₀ r₀ (abortScreen s d) := by
  unfold abortScreen
  repeat' (first
    | with_reducible assumption | with_reducible apply keeps_finishScreen | intro _ | with_reducible apply Keeps.ite
    | split)

theorem keeps_flagDie {w₀ : Part → Prop} {r₀ : State} (s : State) (d reason : Nat) (hk : Keeps w₀ r₀ s)
    (w_regs : w₀ .regs := by first | assumption | exact trivial)
    (w_host : w₀ .host := by first | assumption | exact trivial)
    (w_dies : w₀ .dies := by first | assumption | exact trivial)
    (w_store : w₀ .store := by first | assumption | exact trivial) :
    Keeps w₀ r₀ (flagDie s d reason) := by
  unfold flagDie
  dsimp only
  repeat' (first
    | with_reducible assumption | with_reducible apply keeps_modDie | with_reducible apply keeps_sendMsg
    | with_reducible apply keeps_logFault | with_reducible apply keeps_addMap | with_reducible apply Keeps.upd
    | with_reducible rfl | with_reducible exact id | with_reducible exact Or.inl (by assumption)
    | with_reducible exact Or.inr rfl | with_reducible exact Or.inr ⟨rfl, rfl⟩ | with_reducible exact Or.inr ⟨rfl, rfl, rfl⟩
    | with_reducible exact Or.inr ⟨rfl, rfl, rfl, rfl⟩ | (exact fun _ h => h) | intro _ | (show Ctx.canon _; assumption)
    | with_reducible apply Ctx.canon_ite | (show Mem.wf _ = true; assumption))

theorem keeps_enterReset {w₀ : Part → Prop} {r₀ : State} (s : State) (d : Nat) (goal : DieGoal) (hk : Keeps w₀ r₀ s)
    (w_regs : w₀ .regs := by first | assumption | exact trivial)
    (w_host : w₀ .host := by first | assumption | exact trivial)
    (w_dies : w₀ .dies := by first | assumption | exact trivial)
    (w_ctxs : w₀ .ctxs := by first | assumption | exact trivial)
    (w_modes : w₀ .modes := by first | assumption | exact trivial)
    (w_store : w₀ .store := by first | assumption | exact trivial) :
    Keeps w₀ r₀ (enterReset s d goal) := by
  unfold enterReset
  dsimp only
  repeat' (first
    | with_reducible assumption | with_reducible apply keeps_modDie | with_reducible apply keeps_logFault
    | with_reducible apply keeps_epochAbort | with_reducible apply keeps_abortScreen | with_reducible apply Keeps.upd
    | with_reducible rfl | with_reducible exact id | with_reducible exact Or.inl (by assumption)
    | with_reducible exact Or.inr rfl | with_reducible exact Or.inr ⟨rfl, rfl⟩ | with_reducible exact Or.inr ⟨rfl, rfl, rfl⟩
    | with_reducible exact Or.inr ⟨rfl, rfl, rfl, rfl⟩ | (exact fun _ h => h) | intro _ | (show Ctx.canon _; assumption)
    | with_reducible apply Ctx.canon_ite | (show Mem.wf _ = true; assumption) | with_reducible apply Keeps.ite | split)

theorem keeps_drainCheckDie {w₀ : Part → Prop} {r₀ : State} (s : State) (d : Nat) (hk : Keeps w₀ r₀ s)
    (w_regs : w₀ .regs := by first | assumption | exact trivial)
    (w_host : w₀ .host := by first | assumption | exact trivial)
    (w_dies : w₀ .dies := by first | assumption | exact trivial)
    (w_ctxs : w₀ .ctxs := by first | assumption | exact trivial)
    (w_modes : w₀ .modes := by first | assumption | exact trivial)
    (w_store : w₀ .store := by first | assumption | exact trivial) :
    Keeps w₀ r₀ (drainCheckDie s d) := by
  unfold drainCheckDie
  dsimp only
  repeat' (first
    | with_reducible assumption | with_reducible apply keeps_sendMsg | with_reducible apply keeps_enterReset | intro _
    | with_reducible apply Keeps.ite | split)

theorem keeps_drainCheck {w₀ : Part → Prop} {r₀ : State} (s : State) (hk : Keeps w₀ r₀ s)
    (w_regs : w₀ .regs := by first | assumption | exact trivial)
    (w_host : w₀ .host := by first | assumption | exact trivial)
    (w_dies : w₀ .dies := by first | assumption | exact trivial)
    (w_ctxs : w₀ .ctxs := by first | assumption | exact trivial)
    (w_modes : w₀ .modes := by first | assumption | exact trivial)
    (w_store : w₀ .store := by first | assumption | exact trivial) :
    Keeps w₀ r₀ (drainCheck s) := by
  unfold drainCheck
  repeat' (first
    | with_reducible assumption | with_reducible apply keeps_drainCheckDie | with_reducible apply Keeps.foldl | intro _)

theorem keeps_startDrain {w₀ : Part → Prop} {r₀ : State} (s : State) (d : Nat) (goal : DieGoal) (hk : Keeps w₀ r₀ s)
    (w_regs : w₀ .regs := by first | assumption | exact trivial)
    (w_host : w₀ .host := by first | assumption | exact trivial)
    (w_dies : w₀ .dies := by first | assumption | exact trivial)
    (w_ctxs : w₀ .ctxs := by first | assumption | exact trivial)
    (w_modes : w₀ .modes := by first | assumption | exact trivial)
    (w_acct : w₀ .acct := by first | assumption | exact trivial)
    (w_store : w₀ .store := by first | assumption | exact trivial) :
    Keeps w₀ r₀ (startDrain s d goal) := by
  unfold startDrain
  dsimp only
  repeat' (first
    | with_reducible assumption | with_reducible apply keeps_modDie | with_reducible apply keeps_logFault
    | with_reducible apply keeps_startCork | with_reducible apply keeps_abortScreen | with_reducible apply keeps_drainCheck
    | with_reducible apply Keeps.foldl | with_reducible apply Keeps.upd | with_reducible rfl | with_reducible exact id
    | with_reducible exact Or.inl (by assumption) | with_reducible exact Or.inr rfl | with_reducible exact Or.inr ⟨rfl, rfl⟩
    | with_reducible exact Or.inr ⟨rfl, rfl, rfl⟩ | with_reducible exact Or.inr ⟨rfl, rfl, rfl, rfl⟩
    | with_reducible exact length_map' | (exact fun _ h => h) | (exact fun _ h => canon_map (fun _ h => h) h)
    | (exact fun _ h => canon_filter h) | intro _ | (show Ctx.canon _; assumption) | with_reducible apply Ctx.canon_ite
    | (show Mem.wf _ = true; assumption) | split)

theorem keeps_drainHold {w₀ : Part → Prop} {r₀ : State} (s : State) (d flag : Nat) (hk : Keeps w₀ r₀ s)
    (w_regs : w₀ .regs := by first | assumption | exact trivial)
    (w_host : w₀ .host := by first | assumption | exact trivial)
    (w_dies : w₀ .dies := by first | assumption | exact trivial)
    (w_ctxs : w₀ .ctxs := by first | assumption | exact trivial)
    (w_modes : w₀ .modes := by first | assumption | exact trivial)
    (w_acct : w₀ .acct := by first | assumption | exact trivial)
    (w_store : w₀ .store := by first | assumption | exact trivial) :
    Keeps w₀ r₀ (drainHold s d flag) := by
  unfold drainHold
  repeat' (first
    | with_reducible assumption | with_reducible apply keeps_startDrain | intro _ | with_reducible apply Keeps.ite | split)

theorem keeps_regulatorWatch {w₀ : Part → Prop} {r₀ : State} (s : State) (hk : Keeps w₀ r₀ s)
    (w_regs : w₀ .regs := by first | assumption | exact trivial)
    (w_host : w₀ .host := by first | assumption | exact trivial)
    (w_dies : w₀ .dies := by first | assumption | exact trivial)
    (w_ctxs : w₀ .ctxs := by first | assumption | exact trivial)
    (w_modes : w₀ .modes := by first | assumption | exact trivial)
    (w_acct : w₀ .acct := by first | assumption | exact trivial)
    (w_store : w₀ .store := by first | assumption | exact trivial) :
    Keeps w₀ r₀ (regulatorWatch s) := by
  unfold regulatorWatch
  repeat' (first
    | with_reducible assumption | with_reducible apply keeps_drainHold | with_reducible apply Keeps.foldl | intro _
    | with_reducible apply Keeps.ite | split)

theorem keeps_recordHwFault {w₀ : Part → Prop} {r₀ : State} (s : State) (d : Nat) (hk : Keeps w₀ r₀ s)
    (w_dies : w₀ .dies := by first | assumption | exact trivial) :
    Keeps w₀ r₀ (recordHwFault s d) := by
  unfold recordHwFault
  dsimp only
  repeat' (first
    | with_reducible assumption | with_reducible apply keeps_modDie | with_reducible apply Keeps.upd | with_reducible rfl
    | with_reducible exact id | with_reducible exact Or.inl (by assumption) | with_reducible exact Or.inr rfl
    | with_reducible exact Or.inr ⟨rfl, rfl⟩ | with_reducible exact Or.inr ⟨rfl, rfl, rfl⟩
    | with_reducible exact Or.inr ⟨rfl, rfl, rfl, rfl⟩ | (exact fun _ h => h) | intro _ | (show Ctx.canon _; assumption)
    | with_reducible apply Ctx.canon_ite | (show Mem.wf _ = true; assumption))

theorem keeps_dieFault {w₀ : Part → Prop} {r₀ : State} (s : State) (d : Nat) (code : FaultCode) (onDie : Bool) (asn core index : Option Nat)
    (hk : Keeps w₀ r₀ s)
    (w_regs : w₀ .regs := by first | assumption | exact trivial)
    (w_host : w₀ .host := by first | assumption | exact trivial)
    (w_dies : w₀ .dies := by first | assumption | exact trivial)
    (w_moves : w₀ .moves := by first | assumption | exact trivial)
    (w_ctxs : w₀ .ctxs := by first | assumption | exact trivial)
    (w_groups : w₀ .groups := by first | assumption | exact trivial)
    (w_codecs : w₀ .codecs := by first | assumption | exact trivial)
    (w_modes : w₀ .modes := by first | assumption | exact trivial)
    (w_acct : w₀ .acct := by first | assumption | exact trivial)
    (w_store : w₀ .store := by first | assumption | exact trivial) : Keeps w₀ r₀ (dieFault s d code onDie asn core index) := by
  unfold dieFault
  extract_lets c slot lid s0 s1 hits gap cleared gap' s2 s3 x s4
  clear_value lid slot
  have h0 : Keeps w₀ r₀ s0 := keeps_logFault _ _ hk
  clear_value s0
  have h1 : Keeps w₀ r₀ s1 := by
    dsimp only [s1]
    split
    · exact keeps_recordHwFault _ _ h0
    · exact h0
  clear_value s1
  have hg : Keeps w₀ r₀ gap := h1.foldl fun _ _ h => keeps_setBits _ _ _ h
  clear_value gap
  have hg' : Keeps w₀ r₀ gap' := by
    dsimp only [gap', cleared]
    rw [State.mk_build]
    refine hg.upd rfl id id id id id id (fun _ h => canon_map (fun c h => ?_) h) fun _ h => h
    split
    · exact h
    · exact h
  clear_value gap'
  have h2 : Keeps w₀ r₀ s2 := hg'.foldl fun _ _ h => by
    split
    · exact keeps_loseCtx _ _ _ _ _ _ h
    · exact keeps_loseCtx _ _ _ _ _ _ h
  clear_value s2
  have h3 : Keeps w₀ r₀ s3 := keeps_sendMsg _ _ _ h2
  clear_value s3
  have h4 : Keeps w₀ r₀ s4 := by
    dsimp only [s4]
    split
    · exact keeps_sendMsg _ _ _ h3
    · exact h3
  clear_value s4
  split
  · exact h1
  · exact keeps_drainCheck _ (keeps_enterReset _ _ _ h4)

theorem keeps_sendRepair {w₀ : Part → Prop} {r₀ : State} (s : State) (kind d which slot row : Nat) (hk : Keeps w₀ r₀ s)
    (w_regs : w₀ .regs := by first | assumption | exact trivial)
    (w_host : w₀ .host := by first | assumption | exact trivial) :
    Keeps w₀ r₀ (sendRepair s kind d which slot row) := by
  unfold sendRepair
  repeat' (first
    | with_reducible assumption | with_reducible apply keeps_sendMsg | intro _)

theorem keeps_addFinding {w₀ : Part → Prop} {r₀ : State} (s : State) (d : Nat) (f : TestFinding) (hk : Keeps w₀ r₀ s)
    (w_regs : w₀ .regs := by first | assumption | exact trivial)
    (w_host : w₀ .host := by first | assumption | exact trivial)
    (w_store : w₀ .store := by first | assumption | exact trivial) :
    Keeps w₀ r₀ (addFinding s d f) := by
  unfold addFinding
  repeat' (first
    | with_reducible assumption | with_reducible apply keeps_logFault | with_reducible apply keeps_addMap
    | with_reducible apply keeps_sendRepair | with_reducible exact length_map' | intro _ | with_reducible apply Keeps.ite
    | split)

theorem keeps_repairEvents {w₀ : Part → Prop} {r₀ : State} (s : State) (d c : Nat) (old new : ClusterMap) (hk : Keeps w₀ r₀ s)
    (w_regs : w₀ .regs := by first | assumption | exact trivial)
    (w_host : w₀ .host := by first | assumption | exact trivial)
    (w_store : w₀ .store := by first | assumption | exact trivial) :
    Keeps w₀ r₀ (repairEvents s d c old new) := by
  unfold repairEvents
  dsimp only
  repeat' (first
    | with_reducible assumption | with_reducible apply keeps_addMap | with_reducible apply keeps_sendRepair
    | with_reducible exact length_map' | intro _ | with_reducible apply Keeps.ite | split)

theorem keeps_recordPending {w₀ : Part → Prop} {r₀ : State} (s : State) (d : Nat) (hk : Keeps w₀ r₀ s)
    (w_store : w₀ .store := by first | assumption | exact trivial) :
    Keeps w₀ r₀ (recordPending s d) := by
  unfold recordPending
  repeat' (first
    | with_reducible assumption | with_reducible apply keeps_addMap | with_reducible apply Keeps.foldl
    | with_reducible exact length_map' | intro _ | with_reducible apply Keeps.ite | split)

theorem keeps_applyMap {w₀ : Part → Prop} {r₀ : State} (s : State) (d : Nat) (findings : List TestFinding) (hk : Keeps w₀ r₀ s)
    (w_regs : w₀ .regs := by first | assumption | exact trivial)
    (w_host : w₀ .host := by first | assumption | exact trivial)
    (w_dies : w₀ .dies := by first | assumption | exact trivial)
    (w_store : w₀ .store := by first | assumption | exact trivial) :
    Keeps w₀ r₀ (applyMap s d findings) := by
  unfold applyMap
  dsimp only
  repeat' (first
    | with_reducible assumption | with_reducible apply keeps_modDie | with_reducible apply keeps_addFinding
    | with_reducible apply keeps_repairEvents | with_reducible apply keeps_recordPending | with_reducible apply Keeps.foldl
    | with_reducible apply Keeps.upd | with_reducible rfl | with_reducible exact id
    | with_reducible exact Or.inl (by assumption) | with_reducible exact Or.inr rfl | with_reducible exact Or.inr ⟨rfl, rfl⟩
    | with_reducible exact Or.inr ⟨rfl, rfl, rfl⟩ | with_reducible exact Or.inr ⟨rfl, rfl, rfl, rfl⟩
    | with_reducible exact length_map' | (exact fun _ h => h) | (exact stores_map fun _ h => h)
    | (exact stores_map fun _ h => by split <;> exact h) | (exact pools_map fun _ h => h)
    | (exact stores_mapIdx fun _ _ h => h) | (exact pools_modAt fun _ h => h) | (exact fun h => h) | intro _
    | (show Ctx.canon _; assumption) | with_reducible apply Ctx.canon_ite | (show Mem.wf _ = true; assumption)
    | (refine Ctx.canon_cores (by assumption) ?_ ?_))

theorem keeps_resetWindow {w₀ : Part → Prop} {r₀ : State} (s : State) (d : Nat) (hk : Keeps w₀ r₀ s)
    (w_regs : w₀ .regs := by first | assumption | exact trivial)
    (w_host : w₀ .host := by first | assumption | exact trivial)
    (w_dies : w₀ .dies := by first | assumption | exact trivial)
    (w_traffic : w₀ .traffic := by first | assumption | exact trivial) :
    Keeps w₀ r₀ (resetWindow s d) := by
  unfold resetWindow
  simp only [State.mk_build]
  repeat' (first
    | with_reducible assumption | with_reducible apply keeps_modDie | with_reducible apply Keeps.upd | with_reducible rfl
    | with_reducible exact id | with_reducible exact Or.inl (by assumption) | with_reducible exact Or.inr rfl
    | with_reducible exact Or.inr ⟨rfl, rfl⟩ | with_reducible exact Or.inr ⟨rfl, rfl, rfl⟩
    | with_reducible exact Or.inr ⟨rfl, rfl, rfl, rfl⟩ | with_reducible exact length_map' | (exact fun _ h => h) | intro _
    | (show Ctx.canon _; assumption) | with_reducible apply Ctx.canon_ite | (show Mem.wf _ = true; assumption))

theorem keeps_finishReset {w₀ : Part → Prop} {r : State} (s : State) (d : Nat) (hk : Keeps w₀ r s)
    (w_regs : w₀ .regs := by first | assumption | exact trivial)
    (w_host : w₀ .host := by first | assumption | exact trivial)
    (w_dies : w₀ .dies := by first | assumption | exact trivial)
    (w_ctxs : w₀ .ctxs := by first | assumption | exact trivial)
    (w_modes : w₀ .modes := by first | assumption | exact trivial)
    (w_acct : w₀ .acct := by first | assumption | exact trivial)
    (w_store : w₀ .store := by first | assumption | exact trivial)
    (w_traffic : w₀ .traffic := by first | assumption | exact trivial) : Keeps w₀ r (finishReset s d) := by
  unfold finishReset
  extract_lets x s1 noCl drained s2 keepOff online s3 s4
  have h1 : Keeps w₀ r s1 := keeps_modDie _ _ _ (keeps_resetWindow _ _ hk)
  have h2 : Keeps w₀ r s2 := by
    dsimp only [s2]
    clear_value s1
    repeat' (first | with_reducible assumption | exact h1 | with_reducible apply keeps_flagDie | split)
  clear_value s2
  have h3 : Keeps w₀ r s3 := by
    dsimp only [s3]
    split
    · exact keeps_modDie _ _ _ h2
    · exact h2
  clear_value s3
  have h4 : Keeps w₀ r s4 := keeps_resettle _ h3
  clear_value s4
  apply keeps_regulatorWatch
  repeat' (first | with_reducible assumption | exact h4 | with_reducible apply keeps_complete | split)

end Sys2Proof.Machine
end

