-- ==== Sys2Proof/Laws/KeepsRegMap.lean ====
section
/-! SUPPORT. Laws/KeepsRegMap.lean: what the operations of Machine/RegMap.lean keep. -/

set_option Elab.async false

namespace Sys2Proof.Machine

theorem keeps_storeMasked {w₀ : Part → Prop} {r₀ : State} (s : State) (off mask : Nat) (v : Word) (hk : Keeps w₀ r₀ s)
    (w_regs : w₀ .regs := by first | assumption | exact trivial) :
    Keeps w₀ r₀ (storeMasked s off mask v) := by
  unfold storeMasked
  dsimp only
  repeat' (first
    | with_reducible assumption | with_reducible apply keeps_setReg | intro _)

theorem keeps_clearW1c {w₀ : Part → Prop} {r₀ : State} (s : State) (off : Nat) (v : Word) (hk : Keeps w₀ r₀ s)
    (w_regs : w₀ .regs := by first | assumption | exact trivial) :
    Keeps w₀ r₀ (clearW1c s off v) := by
  unfold clearW1c
  repeat' (first
    | with_reducible assumption | with_reducible apply keeps_setReg | intro _)

theorem keeps_tallyRecIndex {w₀ : Part → Prop} {r₀ : State} (s : State) (v : Word) (hk : Keeps w₀ r₀ s)
    (w_regs : w₀ .regs := by first | assumption | exact trivial)
    (w_power : w₀ .power := by first | assumption | exact trivial) :
    Keeps w₀ r₀ (tallyRecIndex s v) := by
  unfold tallyRecIndex
  simp only [State.mk_build]
  repeat' (first
    | with_reducible assumption | with_reducible apply keeps_storeMasked | with_reducible apply Keeps.upd
    | with_reducible rfl | with_reducible exact id | with_reducible exact Or.inl (by assumption)
    | with_reducible exact Or.inr rfl | with_reducible exact Or.inr ⟨rfl, rfl⟩ | with_reducible exact Or.inr ⟨rfl, rfl, rfl⟩
    | with_reducible exact Or.inr ⟨rfl, rfl, rfl, rfl⟩ | (exact fun _ h => h) | intro _ | (show Ctx.canon _; assumption)
    | with_reducible apply Ctx.canon_ite | (show Mem.wf _ = true; assumption))

theorem keeps_logIndexWrite {w₀ : Part → Prop} {r₀ : State} (s : State) (v : Word) (hk : Keeps w₀ r₀ s)
    (w_regs : w₀ .regs := by first | assumption | exact trivial)
    (w_store : w₀ .store := by first | assumption | exact trivial) :
    Keeps w₀ r₀ (logIndexWrite s v) := by
  unfold logIndexWrite
  simp only [State.mk_build]
  repeat' (first
    | with_reducible assumption | with_reducible apply keeps_storeMasked | with_reducible apply Keeps.upd
    | with_reducible rfl | with_reducible exact id | with_reducible exact Or.inl (by assumption)
    | with_reducible exact Or.inr rfl | with_reducible exact Or.inr ⟨rfl, rfl⟩ | with_reducible exact Or.inr ⟨rfl, rfl, rfl⟩
    | with_reducible exact Or.inr ⟨rfl, rfl, rfl, rfl⟩ | (exact fun _ h => h) | intro _ | (show Ctx.canon _; assumption)
    | with_reducible apply Ctx.canon_ite | (show Mem.wf _ = true; assumption))

theorem keeps_applyRecord {w₀ : Part → Prop} {r₀ : State} (s : State) (r : Nat × Nat) (hk : Keeps w₀ r₀ s)
    (w_regs : w₀ .regs := by first | assumption | exact trivial)
    (w_power : w₀ .power := by first | assumption | exact trivial)
    (w_store : w₀ .store := by first | assumption | exact trivial) :
    Keeps w₀ r₀ (applyRecord s r) := by
  unfold applyRecord
  dsimp only
  repeat' (first
    | with_reducible assumption | with_reducible apply keeps_storeMasked | with_reducible apply keeps_tallyRecIndex
    | with_reducible apply keeps_logIndexWrite | intro _ | with_reducible apply Keeps.ite | split)

theorem keeps_applyRecords {w₀ : Part → Prop} {r₀ : State} (s : State) (recs : List (Nat × Nat)) (hk : Keeps w₀ r₀ s)
    (w_regs : w₀ .regs := by first | assumption | exact trivial)
    (w_power : w₀ .power := by first | assumption | exact trivial)
    (w_store : w₀ .store := by first | assumption | exact trivial) :
    Keeps w₀ r₀ (applyRecords s recs) := by
  unfold applyRecords
  repeat' (first
    | with_reducible assumption | with_reducible apply keeps_applyRecord | with_reducible apply Keeps.foldl | intro _)

end Sys2Proof.Machine
end

