-- ==== Sys2Proof/Laws/KeepsBoot.lean ====
section
/-! SUPPORT. Laws/KeepsBoot.lean: what the operations of Machine/Boot.lean keep. -/

set_option Elab.async false

namespace Sys2Proof.Machine

theorem keeps_moduleReset {w₀ : Part → Prop} {r₀ : State} (s : State) (hk : Keeps w₀ r₀ s)
    (w_hub : w₀ .hub := by first | assumption | exact trivial)
    (w_regs : w₀ .regs := by first | assumption | exact trivial)
    (w_host : w₀ .host := by first | assumption | exact trivial)
    (w_dies : w₀ .dies := by first | assumption | exact trivial)
    (w_pages : w₀ .pages := by first | assumption | exact trivial)
    (w_moves : w₀ .moves := by first | assumption | exact trivial)
    (w_ctxs : w₀ .ctxs := by first | assumption | exact trivial)
    (w_links : w₀ .links := by first | assumption | exact trivial)
    (w_groups : w₀ .groups := by first | assumption | exact trivial)
    (w_codecs : w₀ .codecs := by first | assumption | exact trivial)
    (w_modes : w₀ .modes := by first | assumption | exact trivial)
    (w_power : w₀ .power := by first | assumption | exact trivial)
    (w_acct : w₀ .acct := by first | assumption | exact trivial)
    (w_store : w₀ .store := by first | assumption | exact trivial)
    (w_mem : w₀ .mem := by first | assumption | exact trivial)
    (w_ids : w₀ .ids := by first | assumption | exact trivial)
    (w_traffic : w₀ .traffic := by first | assumption | exact trivial) : Keeps w₀ r₀ (moduleReset s) :=
  hk.trans
    { pending := rfl
      inv := fun i => ⟨rfl, (fun _ h => nomatch h), i.exported, length_map' i.dies, rfl, rfl, rfl, rfl, Nat.two_pow_pos 64⟩
      time := .inr rfl
      frame := fun x => .inl (by cases x <;> assumption) }

theorem keeps_hubResetWrite {w₀ : Part → Prop} {r₀ : State} (s : State) (v : Word) (hk : Keeps w₀ r₀ s)
    (w_hub : w₀ .hub := by first | assumption | exact trivial)
    (w_regs : w₀ .regs := by first | assumption | exact trivial)
    (w_host : w₀ .host := by first | assumption | exact trivial)
    (w_dies : w₀ .dies := by first | assumption | exact trivial)
    (w_pages : w₀ .pages := by first | assumption | exact trivial)
    (w_moves : w₀ .moves := by first | assumption | exact trivial)
    (w_ctxs : w₀ .ctxs := by first | assumption | exact trivial)
    (w_links : w₀ .links := by first | assumption | exact trivial)
    (w_groups : w₀ .groups := by first | assumption | exact trivial)
    (w_codecs : w₀ .codecs := by first | assumption | exact trivial)
    (w_modes : w₀ .modes := by first | assumption | exact trivial)
    (w_power : w₀ .power := by first | assumption | exact trivial)
    (w_acct : w₀ .acct := by first | assumption | exact trivial)
    (w_store : w₀ .store := by first | assumption | exact trivial)
    (w_mem : w₀ .mem := by first | assumption | exact trivial)
    (w_ids : w₀ .ids := by first | assumption | exact trivial)
    (w_traffic : w₀ .traffic := by first | assumption | exact trivial) :
    Keeps w₀ r₀ (hubResetWrite s v) := by
  unfold hubResetWrite
  repeat' (first
    | with_reducible assumption | with_reducible apply keeps_moduleReset | intro _ | with_reducible apply Keeps.ite | split)

theorem keeps_hostLinkTrained {w₀ : Part → Prop} {r₀ : State} (s : State) (hk : Keeps w₀ r₀ s)
    (w_hub : w₀ .hub := by first | assumption | exact trivial) :
    Keeps w₀ r₀ (hostLinkTrained s) := by
  unfold hostLinkTrained
  simp only [State.mk_build]
  repeat' (first
    | with_reducible assumption | with_reducible apply Keeps.upd | with_reducible rfl | with_reducible exact id
    | with_reducible exact Or.inl (by assumption) | with_reducible exact Or.inr rfl | with_reducible exact Or.inr ⟨rfl, rfl⟩
    | with_reducible exact Or.inr ⟨rfl, rfl, rfl⟩ | with_reducible exact Or.inr ⟨rfl, rfl, rfl, rfl⟩ | (exact fun _ h => h)
    | intro _ | (show Ctx.canon _; assumption) | with_reducible apply Ctx.canon_ite | (show Mem.wf _ = true; assumption)
    | with_reducible apply Keeps.ite | split)

theorem keeps_refuse {w₀ : Part → Prop} {r₀ : State} (s : State) (r : RefuseReason) (stack chan index off : Nat) (hk : Keeps w₀ r₀ s)
    (w_hub : w₀ .hub := by first | assumption | exact trivial)
    (w_regs : w₀ .regs := by first | assumption | exact trivial)
    (w_host : w₀ .host := by first | assumption | exact trivial)
    (w_dies : w₀ .dies := by first | assumption | exact trivial) :
    Keeps w₀ r₀ (refuse s r stack chan index off) := by
  induction stack generalizing s r chan index off with
  | zero =>
    unfold refuse
    simp only [State.mk_build]
    repeat' (first
      | with_reducible assumption | with_reducible apply keeps_sendMsg | with_reducible apply Keeps.upd | with_reducible rfl
      | with_reducible exact id | with_reducible exact Or.inl (by assumption) | with_reducible exact Or.inr rfl
      | with_reducible exact Or.inr ⟨rfl, rfl⟩ | with_reducible exact Or.inr ⟨rfl, rfl, rfl⟩
      | with_reducible exact Or.inr ⟨rfl, rfl, rfl, rfl⟩ | with_reducible exact length_map' | (exact fun _ h => h) | intro _
      | (show Ctx.canon _; assumption) | with_reducible apply Ctx.canon_ite | (show Mem.wf _ = true; assumption)
      | with_reducible apply Keeps.ite | split)
  | succ _ ih =>
    unfold refuse
    simp only [State.mk_build]
    repeat' (first
      | with_reducible assumption | with_reducible apply ih | with_reducible apply keeps_sendMsg
      | with_reducible apply Keeps.upd | with_reducible rfl | with_reducible exact id
      | with_reducible exact Or.inl (by assumption) | with_reducible exact Or.inr rfl
      | with_reducible exact Or.inr ⟨rfl, rfl⟩ | with_reducible exact Or.inr ⟨rfl, rfl, rfl⟩
      | with_reducible exact Or.inr ⟨rfl, rfl, rfl, rfl⟩ | with_reducible exact length_map' | (exact fun _ h => h) | intro _
      | (show Ctx.canon _; assumption) | with_reducible apply Ctx.canon_ite | (show Mem.wf _ = true; assumption)
      | with_reducible apply Keeps.ite | split)

theorem keeps_readCopies {w₀ : Part → Prop} {r₀ : State} (s : State) (hk : Keeps w₀ r₀ s)
    (w_hub : w₀ .hub := by first | assumption | exact trivial)
    (w_dies : w₀ .dies := by first | assumption | exact trivial)
    (w_store : w₀ .store := by first | assumption | exact trivial) :
    Keeps w₀ r₀ (readCopies s) := by
  unfold readCopies
  simp only [State.mk_build]
  repeat' (first
    | with_reducible assumption | with_reducible apply Keeps.foldl | with_reducible apply Keeps.upd | with_reducible rfl
    | with_reducible exact id | with_reducible exact Or.inl (by assumption) | with_reducible exact Or.inr rfl
    | with_reducible exact Or.inr ⟨rfl, rfl⟩ | with_reducible exact Or.inr ⟨rfl, rfl, rfl⟩
    | with_reducible exact Or.inr ⟨rfl, rfl, rfl, rfl⟩ | with_reducible exact length_mapIdx' | (exact fun _ h => h)
    | intro _ | (show Ctx.canon _; assumption) | with_reducible apply Ctx.canon_ite | (show Mem.wf _ = true; assumption)
    | with_reducible apply Keeps.ite | split)

theorem keeps_readBanks {w₀ : Part → Prop} {r₀ : State} (s : State) (f : Flash) (hk : Keeps w₀ r₀ s)
    (w_hub : w₀ .hub := by first | assumption | exact trivial)
    (w_dies : w₀ .dies := by first | assumption | exact trivial)
    (w_store : w₀ .store := by first | assumption | exact trivial) :
    Keeps w₀ r₀ (readBanks s f) := by
  unfold readBanks
  simp only [State.mk_build]
  repeat' (first
    | with_reducible assumption | with_reducible apply keeps_readCopies | with_reducible apply Keeps.upd
    | with_reducible rfl | with_reducible exact id | with_reducible exact Or.inl (by assumption)
    | with_reducible exact Or.inr rfl | with_reducible exact Or.inr ⟨rfl, rfl⟩ | with_reducible exact Or.inr ⟨rfl, rfl, rfl⟩
    | with_reducible exact Or.inr ⟨rfl, rfl, rfl, rfl⟩ | (exact fun _ h => h) | intro _ | (show Ctx.canon _; assumption)
    | with_reducible apply Ctx.canon_ite | (show Mem.wf _ = true; assumption))

theorem keeps_configReadDone {w₀ : Part → Prop} {r₀ : State} (s : State) (hk : Keeps w₀ r₀ s)
    (w_hub : w₀ .hub := by first | assumption | exact trivial)
    (w_regs : w₀ .regs := by first | assumption | exact trivial)
    (w_host : w₀ .host := by first | assumption | exact trivial)
    (w_dies : w₀ .dies := by first | assumption | exact trivial)
    (w_power : w₀ .power := by first | assumption | exact trivial)
    (w_store : w₀ .store := by first | assumption | exact trivial) :
    Keeps w₀ r₀ (configReadDone s) := by
  unfold configReadDone
  simp only [State.mk_build]
  repeat' (first
    | with_reducible assumption | with_reducible apply keeps_applyRecords | with_reducible apply keeps_refuse
    | with_reducible apply keeps_readBanks | with_reducible apply Keeps.upd | with_reducible rfl | with_reducible exact id
    | with_reducible exact Or.inl (by assumption) | with_reducible exact Or.inr rfl | with_reducible exact Or.inr ⟨rfl, rfl⟩
    | with_reducible exact Or.inr ⟨rfl, rfl, rfl⟩ | with_reducible exact Or.inr ⟨rfl, rfl, rfl, rfl⟩
    | with_reducible exact length_map' | (exact fun _ h => h) | intro _ | (show Ctx.canon _; assumption)
    | with_reducible apply Ctx.canon_ite | (show Mem.wf _ = true; assumption) | with_reducible apply Keeps.ite | split)

theorem keeps_trainChan {w₀ : Part → Prop} {r₀ : State} {s s1 : State} {t : ChanTrain} (hk : Keeps w₀ r₀ s) (h : trainChan s t = some s1)
    (w_dies : w₀ .dies := by first | assumption | exact trivial)
    (w_store : w₀ .store := by first | assumption | exact trivial) :
    Keeps w₀ r₀ s1 := by
  unfold trainChan at h
  dsimp only at h
  split at h
  · cases h
  · cases h
    refine keeps_modChan _ _ _ _ ?_
    rw [State.mk_build]
    exact hk.upd rfl id id id id id id (fun _ h => h) fun _ h => h

theorem keeps_trainAll {w₀ : Part → Prop} {r₀ : State} {s s1 : State} {l : List ChanTrain} (hk : Keeps w₀ r₀ s) (h : trainAll s l = .ok s1)
    (w_dies : w₀ .dies := by first | assumption | exact trivial)
    (w_store : w₀ .store := by first | assumption | exact trivial) :
    Keeps w₀ r₀ s1 := by
  induction l generalizing s with
  | nil => cases h; exact hk
  | cons t l ih =>
    unfold trainAll at h
    split at h
    · cases h
    · rename_i h1
      exact ih (keeps_trainChan hk h1) h

theorem keeps_writeBootCount {w₀ : Part → Prop} {r₀ : State} (s : State) (hk : Keeps w₀ r₀ s)
    (w_store : w₀ .store := by first | assumption | exact trivial) :
    Keeps w₀ r₀ (writeBootCount s) := by
  unfold writeBootCount
  simp only [State.mk_build]
  repeat' (first
    | with_reducible assumption | with_reducible apply keeps_flushMap | with_reducible apply Keeps.upd | with_reducible rfl
    | with_reducible exact id | with_reducible exact Or.inl (by assumption) | with_reducible exact Or.inr rfl
    | with_reducible exact Or.inr ⟨rfl, rfl⟩ | with_reducible exact Or.inr ⟨rfl, rfl, rfl⟩
    | with_reducible exact Or.inr ⟨rfl, rfl, rfl, rfl⟩ | with_reducible exact length_map' | (exact fun _ h => h) | intro _
    | (show Ctx.canon _; assumption) | with_reducible apply Ctx.canon_ite | (show Mem.wf _ = true; assumption))

theorem keeps_memTrainDone {w₀ : Part → Prop} {r₀ : State} (s : State) (serviceOk : Bool) (chans : List ChanTrain) (hk : Keeps w₀ r₀ s)
    (w_hub : w₀ .hub := by first | assumption | exact trivial)
    (w_regs : w₀ .regs := by first | assumption | exact trivial)
    (w_host : w₀ .host := by first | assumption | exact trivial)
    (w_dies : w₀ .dies := by first | assumption | exact trivial)
    (w_store : w₀ .store := by first | assumption | exact trivial) :
    Keeps w₀ r₀ (memTrainDone s serviceOk chans) := by
  unfold memTrainDone
  simp only [State.mk_build]
  repeat' (first
    | with_reducible assumption | with_reducible apply keeps_modMc | with_reducible apply keeps_refuse
    | with_reducible apply keeps_writeBootCount | (exact keeps_trainAll hk (by assumption)) | with_reducible apply Keeps.upd
    | with_reducible rfl | with_reducible exact id | with_reducible exact Or.inl (by assumption)
    | with_reducible exact Or.inr rfl | with_reducible exact Or.inr ⟨rfl, rfl⟩ | with_reducible exact Or.inr ⟨rfl, rfl, rfl⟩
    | with_reducible exact Or.inr ⟨rfl, rfl, rfl, rfl⟩ | with_reducible exact length_map' | (exact fun _ h => h) | intro _
    | (show Ctx.canon _; assumption) | with_reducible apply Ctx.canon_ite | (show Mem.wf _ = true; assumption)
    | with_reducible apply Keeps.ite | split)

theorem keeps_dieAbsent {w₀ : Part → Prop} {r₀ : State} (s : State) (d : Nat) (hk : Keeps w₀ r₀ s)
    (w_regs : w₀ .regs := by first | assumption | exact trivial)
    (w_host : w₀ .host := by first | assumption | exact trivial)
    (w_dies : w₀ .dies := by first | assumption | exact trivial)
    (w_store : w₀ .store := by first | assumption | exact trivial)
    (w_traffic : w₀ .traffic := by first | assumption | exact trivial) :
    Keeps w₀ r₀ (dieAbsent s d) := by
  unfold dieAbsent
  dsimp only
  repeat' (first
    | with_reducible assumption | with_reducible apply keeps_modDie | with_reducible apply keeps_sendMsg
    | with_reducible apply keeps_logFault | with_reducible apply keeps_resetWindow | with_reducible apply Keeps.upd
    | with_reducible rfl | with_reducible exact id | with_reducible exact Or.inl (by assumption)
    | with_reducible exact Or.inr rfl | with_reducible exact Or.inr ⟨rfl, rfl⟩ | with_reducible exact Or.inr ⟨rfl, rfl, rfl⟩
    | with_reducible exact Or.inr ⟨rfl, rfl, rfl, rfl⟩ | (exact fun _ h => h) | intro _ | (show Ctx.canon _; assumption)
    | with_reducible apply Ctx.canon_ite | (show Mem.wf _ = true; assumption))

theorem keeps_bringUp {w₀ : Part → Prop} {r₀ : State} (up : List Nat) (findings : List (Nat × TestFinding)) (s : State) (d : Nat) (hk : Keeps w₀ r₀ s)
    (w_regs : w₀ .regs := by first | assumption | exact trivial)
    (w_host : w₀ .host := by first | assumption | exact trivial)
    (w_dies : w₀ .dies := by first | assumption | exact trivial)
    (w_store : w₀ .store := by first | assumption | exact trivial)
    (w_traffic : w₀ .traffic := by first | assumption | exact trivial) :
    Keeps w₀ r₀ (bringUp up findings s d) := by
  unfold bringUp
  dsimp only
  repeat' (first
    | with_reducible assumption | with_reducible apply keeps_modDie | with_reducible apply keeps_applyMap
    | with_reducible apply keeps_dieAbsent | with_reducible apply Keeps.upd | with_reducible rfl | with_reducible exact id
    | with_reducible exact Or.inl (by assumption) | with_reducible exact Or.inr rfl | with_reducible exact Or.inr ⟨rfl, rfl⟩
    | with_reducible exact Or.inr ⟨rfl, rfl, rfl⟩ | with_reducible exact Or.inr ⟨rfl, rfl, rfl, rfl⟩
    | with_reducible exact length_map' | (exact fun _ h => h) | intro _ | (show Ctx.canon _; assumption)
    | with_reducible apply Ctx.canon_ite | (show Mem.wf _ = true; assumption) | with_reducible apply Keeps.ite | split)

theorem keeps_repairStepDone {w₀ : Part → Prop} {r₀ : State} (s : State) (up : List Nat) (findings : List (Nat × TestFinding)) (hk : Keeps w₀ r₀ s)
    (w_hub : w₀ .hub := by first | assumption | exact trivial)
    (w_regs : w₀ .regs := by first | assumption | exact trivial)
    (w_host : w₀ .host := by first | assumption | exact trivial)
    (w_dies : w₀ .dies := by first | assumption | exact trivial)
    (w_links : w₀ .links := by first | assumption | exact trivial)
    (w_store : w₀ .store := by first | assumption | exact trivial)
    (w_traffic : w₀ .traffic := by first | assumption | exact trivial) :
    Keeps w₀ r₀ (repairStepDone s up findings) := by
  unfold repairStepDone
  simp only [State.mk_build]
  repeat' (first
    | with_reducible assumption | with_reducible apply keeps_bringUp | with_reducible apply Keeps.foldl
    | with_reducible apply Keeps.upd | with_reducible rfl | with_reducible exact id
    | with_reducible exact Or.inl (by assumption) | with_reducible exact Or.inr rfl | with_reducible exact Or.inr ⟨rfl, rfl⟩
    | with_reducible exact Or.inr ⟨rfl, rfl, rfl⟩ | with_reducible exact Or.inr ⟨rfl, rfl, rfl, rfl⟩
    | with_reducible exact length_map' | with_reducible exact length_mapIdx' | (exact fun _ h => h) | intro _
    | (show Ctx.canon _; assumption) | with_reducible apply Ctx.canon_ite | (show Mem.wf _ = true; assumption)
    | with_reducible apply Keeps.ite | split)

theorem keeps_sendLink {w₀ : Part → Prop} {r₀ : State} (s : State) (n : Nat) (hk : Keeps w₀ r₀ s)
    (w_regs : w₀ .regs := by first | assumption | exact trivial)
    (w_host : w₀ .host := by first | assumption | exact trivial)
    (w_store : w₀ .store := by first | assumption | exact trivial) :
    Keeps w₀ r₀ (sendLink s n) := by
  unfold sendLink
  dsimp only
  repeat' (first
    | with_reducible assumption | with_reducible apply keeps_sendMsg | with_reducible apply keeps_logFault | intro _)

theorem keeps_setPort {w₀ : Part → Prop} {r₀ : State} (s : State) (n : Nat) (f : Port → Port) (hk : Keeps w₀ r₀ s)
    (w_regs : w₀ .regs := by first | assumption | exact trivial)
    (w_host : w₀ .host := by first | assumption | exact trivial)
    (w_links : w₀ .links := by first | assumption | exact trivial)
    (w_store : w₀ .store := by first | assumption | exact trivial) :
    Keeps w₀ r₀ (setPort s n f) := by
  unfold setPort
  simp only [State.mk_build]
  repeat' (first
    | with_reducible assumption | with_reducible apply keeps_setBits | with_reducible apply keeps_sendLink
    | (exact length_map' (length_modAt (by assumption))) | with_reducible apply Keeps.upd | with_reducible rfl
    | with_reducible exact id | with_reducible exact Or.inl (by assumption) | with_reducible exact Or.inr rfl
    | with_reducible exact Or.inr ⟨rfl, rfl⟩ | with_reducible exact Or.inr ⟨rfl, rfl, rfl⟩
    | with_reducible exact Or.inr ⟨rfl, rfl, rfl, rfl⟩ | with_reducible exact length_modAt
    | with_reducible exact length_map' | (exact fun _ h => h) | intro _ | (show Ctx.canon _; assumption)
    | with_reducible apply Ctx.canon_ite | (show Mem.wf _ = true; assumption) | with_reducible apply Keeps.ite | split)

theorem keeps_endTraining {w₀ : Part → Prop} {r₀ : State} (s : State) (n : Nat) (r : PortTrain) (hk : Keeps w₀ r₀ s)
    (w_regs : w₀ .regs := by first | assumption | exact trivial)
    (w_host : w₀ .host := by first | assumption | exact trivial)
    (w_links : w₀ .links := by first | assumption | exact trivial)
    (w_store : w₀ .store := by first | assumption | exact trivial) :
    Keeps w₀ r₀ (endTraining s n r) := by
  unfold endTraining
  dsimp only
  repeat' (first
    | with_reducible assumption | with_reducible apply keeps_setPort | with_reducible apply Keeps.upd | with_reducible rfl
    | with_reducible exact id | with_reducible exact Or.inl (by assumption) | with_reducible exact Or.inr rfl
    | with_reducible exact Or.inr ⟨rfl, rfl⟩ | with_reducible exact Or.inr ⟨rfl, rfl, rfl⟩
    | with_reducible exact Or.inr ⟨rfl, rfl, rfl, rfl⟩ | (exact fun _ h => h) | intro _ | (show Ctx.canon _; assumption)
    | with_reducible apply Ctx.canon_ite | (show Mem.wf _ = true; assumption) | with_reducible apply Keeps.ite | split)

theorem keeps_goReady {w₀ : Part → Prop} {r₀ : State} (s : State) (hk : Keeps w₀ r₀ s)
    (w_hub : w₀ .hub := by first | assumption | exact trivial)
    (w_regs : w₀ .regs := by first | assumption | exact trivial)
    (w_host : w₀ .host := by first | assumption | exact trivial)
    (w_dies : w₀ .dies := by first | assumption | exact trivial)
    (w_ctxs : w₀ .ctxs := by first | assumption | exact trivial)
    (w_modes : w₀ .modes := by first | assumption | exact trivial)
    (w_acct : w₀ .acct := by first | assumption | exact trivial)
    (w_store : w₀ .store := by first | assumption | exact trivial)
    (w_traffic : w₀ .traffic := by first | assumption | exact trivial) :
    Keeps w₀ r₀ (goReady s) := by
  unfold goReady
  simp only [State.mk_build]
  repeat' (first
    | with_reducible assumption | with_reducible apply keeps_modDie | with_reducible apply keeps_sendMsg
    | with_reducible apply keeps_regulatorWatch | with_reducible apply keeps_resetWindow | with_reducible apply Keeps.foldl
    | with_reducible apply Keeps.upd | with_reducible rfl | with_reducible exact id
    | with_reducible exact Or.inl (by assumption) | with_reducible exact Or.inr rfl | with_reducible exact Or.inr ⟨rfl, rfl⟩
    | with_reducible exact Or.inr ⟨rfl, rfl, rfl⟩ | with_reducible exact Or.inr ⟨rfl, rfl, rfl, rfl⟩ | (exact fun _ h => h)
    | intro _ | (show Ctx.canon _; assumption) | with_reducible apply Ctx.canon_ite | (show Mem.wf _ = true; assumption)
    | with_reducible apply Keeps.ite | split)

theorem keeps_portTrainDone {w₀ : Part → Prop} {r₀ : State} (s : State) (ports : List PortTrain) (far : List FarTrain) (hk : Keeps w₀ r₀ s)
    (w_hub : w₀ .hub := by first | assumption | exact trivial)
    (w_regs : w₀ .regs := by first | assumption | exact trivial)
    (w_host : w₀ .host := by first | assumption | exact trivial)
    (w_dies : w₀ .dies := by first | assumption | exact trivial)
    (w_ctxs : w₀ .ctxs := by first | assumption | exact trivial)
    (w_links : w₀ .links := by first | assumption | exact trivial)
    (w_modes : w₀ .modes := by first | assumption | exact trivial)
    (w_acct : w₀ .acct := by first | assumption | exact trivial)
    (w_store : w₀ .store := by first | assumption | exact trivial)
    (w_traffic : w₀ .traffic := by first | assumption | exact trivial) :
    Keeps w₀ r₀ (portTrainDone s ports far) := by
  unfold portTrainDone
  simp only [State.mk_build]
  repeat' (first
    | with_reducible assumption | with_reducible apply keeps_sendLink | with_reducible apply keeps_endTraining
    | with_reducible apply keeps_goReady | (with_reducible exact fun _ => length_map' List.length_range)
    | with_reducible apply Keeps.foldl | with_reducible apply Keeps.upd | with_reducible rfl | with_reducible exact id
    | with_reducible exact Or.inl (by assumption) | with_reducible exact Or.inr rfl | with_reducible exact Or.inr ⟨rfl, rfl⟩
    | with_reducible exact Or.inr ⟨rfl, rfl, rfl⟩ | with_reducible exact Or.inr ⟨rfl, rfl, rfl, rfl⟩
    | with_reducible exact length_map' | (exact fun _ h => h) | intro _ | (show Ctx.canon _; assumption)
    | with_reducible apply Ctx.canon_ite | (show Mem.wf _ = true; assumption) | with_reducible apply Keeps.ite | split)

theorem keeps_bootTimeout {w₀ : Part → Prop} {r₀ : State} (s : State) (applied : Nat) (up : List Nat) (findings : List (Nat × TestFinding))
    (ports : List PortTrain) (far : List FarTrain) (hk : Keeps w₀ r₀ s)
    (w_hub : w₀ .hub := by first | assumption | exact trivial)
    (w_regs : w₀ .regs := by first | assumption | exact trivial)
    (w_host : w₀ .host := by first | assumption | exact trivial)
    (w_dies : w₀ .dies := by first | assumption | exact trivial)
    (w_ctxs : w₀ .ctxs := by first | assumption | exact trivial)
    (w_links : w₀ .links := by first | assumption | exact trivial)
    (w_modes : w₀ .modes := by first | assumption | exact trivial)
    (w_power : w₀ .power := by first | assumption | exact trivial)
    (w_acct : w₀ .acct := by first | assumption | exact trivial)
    (w_store : w₀ .store := by first | assumption | exact trivial)
    (w_traffic : w₀ .traffic := by first | assumption | exact trivial) :
    Keeps w₀ r₀ (bootTimeout s applied up findings ports far) := by
  unfold bootTimeout
  dsimp only
  repeat' (first
    | with_reducible assumption | with_reducible apply keeps_applyRecords | with_reducible apply keeps_refuse
    | with_reducible apply keeps_readBanks | with_reducible apply keeps_repairStepDone
    | with_reducible apply keeps_portTrainDone | intro _ | with_reducible apply Keeps.ite | split)

theorem keeps_resumeBoot {w₀ : Part → Prop} {r₀ : State} (s : State) (hk : Keeps w₀ r₀ s)
    (w_hub : w₀ .hub := by first | assumption | exact trivial)
    (w_dies : w₀ .dies := by first | assumption | exact trivial) :
    Keeps w₀ r₀ (resumeBoot s) := by
  unfold resumeBoot
  simp only [State.mk_build]
  repeat' (first
    | with_reducible assumption | with_reducible apply Keeps.upd | with_reducible rfl | with_reducible exact id
    | with_reducible exact Or.inl (by assumption) | with_reducible exact Or.inr rfl | with_reducible exact Or.inr ⟨rfl, rfl⟩
    | with_reducible exact Or.inr ⟨rfl, rfl, rfl⟩ | with_reducible exact Or.inr ⟨rfl, rfl, rfl, rfl⟩
    | with_reducible exact length_map' | (exact fun _ h => h) | intro _ | (show Ctx.canon _; assumption)
    | with_reducible apply Ctx.canon_ite | (show Mem.wf _ = true; assumption))

theorem keeps_applyEnd {w₀ : Part → Prop} {r₀ : State} (s : State) (result : Nat) (hk : Keeps w₀ r₀ s)
    (w_hub : w₀ .hub := by first | assumption | exact trivial)
    (w_regs : w₀ .regs := by first | assumption | exact trivial)
    (w_host : w₀ .host := by first | assumption | exact trivial)
    (w_dies : w₀ .dies := by first | assumption | exact trivial) :
    Keeps w₀ r₀ (applyEnd s result) := by
  unfold applyEnd
  simp only [State.mk_build]
  repeat' (first
    | with_reducible assumption | with_reducible apply keeps_complete | with_reducible apply keeps_resumeBoot
    | with_reducible apply Keeps.upd | with_reducible rfl | with_reducible exact id
    | with_reducible exact Or.inl (by assumption) | with_reducible exact Or.inr rfl | with_reducible exact Or.inr ⟨rfl, rfl⟩
    | with_reducible exact Or.inr ⟨rfl, rfl, rfl⟩ | with_reducible exact Or.inr ⟨rfl, rfl, rfl, rfl⟩ | (exact fun _ h => h)
    | intro _ | (show Ctx.canon _; assumption) | with_reducible apply Ctx.canon_ite | (show Mem.wf _ = true; assumption)
    | with_reducible apply Keeps.ite | split)

theorem keeps_flashWriteDone {w₀ : Part → Prop} {r₀ : State} (s : State) (r : Region) (verified : Bool) (hk : Keeps w₀ r₀ s)
    (w_hub : w₀ .hub := by first | assumption | exact trivial)
    (w_regs : w₀ .regs := by first | assumption | exact trivial)
    (w_host : w₀ .host := by first | assumption | exact trivial)
    (w_dies : w₀ .dies := by first | assumption | exact trivial)
    (w_store : w₀ .store := by first | assumption | exact trivial) :
    Keeps w₀ r₀ (flashWriteDone s r verified) := by
  unfold flashWriteDone
  simp only [State.mk_build]
  repeat' (first
    | with_reducible assumption | with_reducible apply keeps_applyEnd | with_reducible apply Keeps.upd | with_reducible rfl
    | with_reducible exact id | with_reducible exact Or.inl (by assumption) | with_reducible exact Or.inr rfl
    | with_reducible exact Or.inr ⟨rfl, rfl⟩ | with_reducible exact Or.inr ⟨rfl, rfl, rfl⟩
    | with_reducible exact Or.inr ⟨rfl, rfl, rfl, rfl⟩ | (exact fun _ h => h) | intro _ | (show Ctx.canon _; assumption)
    | with_reducible apply Ctx.canon_ite | (show Mem.wf _ = true; assumption) | with_reducible apply Keeps.ite | split)

theorem keeps_faultLogFlush {w₀ : Part → Prop} {r₀ : State} (s : State) (hk : Keeps w₀ r₀ s)
    (w_store : w₀ .store := by first | assumption | exact trivial) :
    Keeps w₀ r₀ (faultLogFlush s) := by
  unfold faultLogFlush
  dsimp only
  repeat' (first
    | with_reducible assumption | with_reducible apply keeps_flushLog | intro _ | with_reducible apply Keeps.ite | split)

theorem keeps_tallyCopy {w₀ : Part → Prop} {r₀ : State} (s : State) (hk : Keeps w₀ r₀ s)
    (w_power : w₀ .power := by first | assumption | exact trivial)
    (w_store : w₀ .store := by first | assumption | exact trivial) :
    Keeps w₀ r₀ (tallyCopy s) := by
  unfold tallyCopy
  simp only [State.mk_build]
  repeat' (first
    | with_reducible assumption | with_reducible apply keeps_startFlashWrite | with_reducible apply Keeps.upd
    | with_reducible rfl | with_reducible exact id | with_reducible exact Or.inl (by assumption)
    | with_reducible exact Or.inr rfl | with_reducible exact Or.inr ⟨rfl, rfl⟩ | with_reducible exact Or.inr ⟨rfl, rfl, rfl⟩
    | with_reducible exact Or.inr ⟨rfl, rfl, rfl, rfl⟩ | (exact fun _ h => h) | intro _ | (show Ctx.canon _; assumption)
    | with_reducible apply Ctx.canon_ite | (show Mem.wf _ = true; assumption) | with_reducible apply Keeps.ite | split)

theorem keeps_finishWrites {w₀ : Part → Prop} {r₀ : State} (n : Nat) (s : State) (hk : Keeps w₀ r₀ s)
    (w_hub : w₀ .hub := by first | assumption | exact trivial)
    (w_regs : w₀ .regs := by first | assumption | exact trivial)
    (w_host : w₀ .host := by first | assumption | exact trivial)
    (w_dies : w₀ .dies := by first | assumption | exact trivial)
    (w_store : w₀ .store := by first | assumption | exact trivial) :
    Keeps w₀ r₀ (finishWrites n s) := by
  induction n generalizing s with
  | zero =>
    unfold finishWrites
    repeat' (first
      | with_reducible assumption | with_reducible apply keeps_flashWriteDone | intro _ | split)
  | succ _ ih =>
    unfold finishWrites
    repeat' (first
      | with_reducible assumption | with_reducible apply ih | with_reducible apply keeps_flashWriteDone | intro _ | split)

theorem keeps_hubUncorrectable {w₀ : Part → Prop} {r₀ : State} (s : State) (hk : Keeps w₀ r₀ s)
    (w_hub : w₀ .hub := by first | assumption | exact trivial)
    (w_regs : w₀ .regs := by first | assumption | exact trivial)
    (w_host : w₀ .host := by first | assumption | exact trivial)
    (w_dies : w₀ .dies := by first | assumption | exact trivial)
    (w_pages : w₀ .pages := by first | assumption | exact trivial)
    (w_moves : w₀ .moves := by first | assumption | exact trivial)
    (w_ctxs : w₀ .ctxs := by first | assumption | exact trivial)
    (w_links : w₀ .links := by first | assumption | exact trivial)
    (w_groups : w₀ .groups := by first | assumption | exact trivial)
    (w_codecs : w₀ .codecs := by first | assumption | exact trivial)
    (w_modes : w₀ .modes := by first | assumption | exact trivial)
    (w_power : w₀ .power := by first | assumption | exact trivial)
    (w_acct : w₀ .acct := by first | assumption | exact trivial)
    (w_store : w₀ .store := by first | assumption | exact trivial)
    (w_mem : w₀ .mem := by first | assumption | exact trivial)
    (w_ids : w₀ .ids := by first | assumption | exact trivial)
    (w_traffic : w₀ .traffic := by first | assumption | exact trivial) :
    Keeps w₀ r₀ (hubUncorrectable s) := by
  unfold hubUncorrectable
  dsimp only
  repeat' (first
    | with_reducible assumption | with_reducible apply keeps_logFault | with_reducible apply keeps_moduleReset
    | with_reducible apply keeps_tallyCopy | with_reducible apply keeps_finishWrites | intro _)

theorem keeps_flashRelease {w₀ : Part → Prop} {r₀ : State} (s : State) (v : Word) (hk : Keeps w₀ r₀ s)
    (w_store : w₀ .store := by first | assumption | exact trivial) :
    Keeps w₀ r₀ (flashRelease s v) := by
  unfold flashRelease
  simp only [State.mk_build]
  repeat' (first
    | with_reducible assumption | with_reducible apply Keeps.upd | with_reducible rfl | with_reducible exact id
    | with_reducible exact Or.inl (by assumption) | with_reducible exact Or.inr rfl | with_reducible exact Or.inr ⟨rfl, rfl⟩
    | with_reducible exact Or.inr ⟨rfl, rfl, rfl⟩ | with_reducible exact Or.inr ⟨rfl, rfl, rfl, rfl⟩ | (exact fun _ h => h)
    | intro _ | (show Ctx.canon _; assumption) | with_reducible apply Ctx.canon_ite | (show Mem.wf _ = true; assumption)
    | with_reducible apply Keeps.ite | split)

theorem keeps_flashAttach {w₀ : Part → Prop} {r₀ : State} (s : State) (v : Word) (supported : Bool) (hk : Keeps w₀ r₀ s)
    (w_hub : w₀ .hub := by first | assumption | exact trivial)
    (w_power : w₀ .power := by first | assumption | exact trivial)
    (w_store : w₀ .store := by first | assumption | exact trivial) :
    Keeps w₀ r₀ (flashAttach s v supported) := by
  unfold flashAttach
  simp only [State.mk_build]
  repeat' (first
    | with_reducible assumption | with_reducible apply keeps_logFault | with_reducible apply Keeps.upd | with_reducible rfl
    | with_reducible exact id | with_reducible exact Or.inl (by assumption) | with_reducible exact Or.inr rfl
    | with_reducible exact Or.inr ⟨rfl, rfl⟩ | with_reducible exact Or.inr ⟨rfl, rfl, rfl⟩
    | with_reducible exact Or.inr ⟨rfl, rfl, rfl, rfl⟩ | with_reducible exact length_map' | (exact fun _ h => h) | intro _
    | (show Ctx.canon _; assumption) | with_reducible apply Ctx.canon_ite | (show Mem.wf _ = true; assumption)
    | with_reducible apply Keeps.ite | split)

theorem keeps_applyStore {w₀ : Part → Prop} {r₀ : State} (s : State) (h : CmdHdr) (storeOnly writeFlash : Bool) (k : FlashBank) (hk : Keeps w₀ r₀ s)
    (w_hub : w₀ .hub := by first | assumption | exact trivial)
    (w_regs : w₀ .regs := by first | assumption | exact trivial)
    (w_host : w₀ .host := by first | assumption | exact trivial)
    (w_dies : w₀ .dies := by first | assumption | exact trivial)
    (w_store : w₀ .store := by first | assumption | exact trivial) :
    Keeps w₀ r₀ (applyStore s h storeOnly writeFlash k) := by
  unfold applyStore
  simp only [State.mk_build]
  repeat' (first
    | with_reducible assumption | with_reducible apply keeps_startFlashWrite | with_reducible apply keeps_applyEnd
    | with_reducible apply Keeps.upd | with_reducible rfl | with_reducible exact id
    | with_reducible exact Or.inl (by assumption) | with_reducible exact Or.inr rfl | with_reducible exact Or.inr ⟨rfl, rfl⟩
    | with_reducible exact Or.inr ⟨rfl, rfl, rfl⟩ | with_reducible exact Or.inr ⟨rfl, rfl, rfl, rfl⟩ | (exact fun _ h => h)
    | intro _ | (show Ctx.canon _; assumption) | with_reducible apply Ctx.canon_ite | (show Mem.wf _ = true; assumption)
    | with_reducible apply Keeps.ite | split)

theorem keeps_startApply {w₀ : Part → Prop} {r₀ : State} (h : CmdHdr) (storeOnly writeFlash : Bool) (bus bytes : Nat) (image : HostRead) (s : State) (hk : Keeps w₀ r₀ s)
    (w_hub : w₀ .hub := by first | assumption | exact trivial)
    (w_regs : w₀ .regs := by first | assumption | exact trivial)
    (w_host : w₀ .host := by first | assumption | exact trivial)
    (w_dies : w₀ .dies := by first | assumption | exact trivial)
    (w_power : w₀ .power := by first | assumption | exact trivial)
    (w_store : w₀ .store := by first | assumption | exact trivial) :
    Keeps w₀ r₀ (startApply h storeOnly writeFlash bus bytes image s) := by
  unfold startApply
  simp only [State.mk_build]
  repeat' (first
    | with_reducible assumption | with_reducible apply keeps_complete | with_reducible apply keeps_applyRecords
    | with_reducible apply keeps_applyStore | with_reducible apply Keeps.upd | with_reducible rfl | with_reducible exact id
    | with_reducible exact Or.inl (by assumption) | with_reducible exact Or.inr rfl | with_reducible exact Or.inr ⟨rfl, rfl⟩
    | with_reducible exact Or.inr ⟨rfl, rfl, rfl⟩ | with_reducible exact Or.inr ⟨rfl, rfl, rfl, rfl⟩ | (exact fun _ h => h)
    | intro _ | (show Ctx.canon _; assumption) | with_reducible apply Ctx.canon_ite | (show Mem.wf _ = true; assumption)
    | with_reducible apply Keeps.ite | split)

theorem keeps_startDormant {w₀ : Part → Prop} {r₀ : State} (h : CmdHdr) (s : State) (hk : Keeps w₀ r₀ s)
    (w_hub : w₀ .hub := by first | assumption | exact trivial)
    (w_regs : w₀ .regs := by first | assumption | exact trivial)
    (w_host : w₀ .host := by first | assumption | exact trivial)
    (w_dies : w₀ .dies := by first | assumption | exact trivial)
    (w_ctxs : w₀ .ctxs := by first | assumption | exact trivial)
    (w_acct : w₀ .acct := by first | assumption | exact trivial)
    (w_store : w₀ .store := by first | assumption | exact trivial) :
    Keeps w₀ r₀ (startDormant h s) := by
  unfold startDormant
  simp only [State.mk_build]
  repeat' (first
    | with_reducible assumption | with_reducible apply keeps_complete | with_reducible apply keeps_startCork
    | with_reducible apply keeps_abortScreen | with_reducible apply Keeps.foldl | with_reducible apply Keeps.upd
    | with_reducible rfl | with_reducible exact id | with_reducible exact Or.inl (by assumption)
    | with_reducible exact Or.inr rfl | with_reducible exact Or.inr ⟨rfl, rfl⟩ | with_reducible exact Or.inr ⟨rfl, rfl, rfl⟩
    | with_reducible exact Or.inr ⟨rfl, rfl, rfl, rfl⟩ | with_reducible exact length_map' | (exact fun _ h => h)
    | (exact fun _ h => canon_map (fun _ h => h) h) | (exact fun _ h => canon_filter h) | intro _
    | (show Ctx.canon _; assumption) | with_reducible apply Ctx.canon_ite | (show Mem.wf _ = true; assumption)
    | with_reducible apply Keeps.ite | split)

theorem keeps_dormantPowerDown {w₀ : Part → Prop} {r₀ : State} (s : State) (hk : Keeps w₀ r₀ s)
    (w_hub : w₀ .hub := by first | assumption | exact trivial)
    (w_regs : w₀ .regs := by first | assumption | exact trivial)
    (w_host : w₀ .host := by first | assumption | exact trivial)
    (w_dies : w₀ .dies := by first | assumption | exact trivial) :
    Keeps w₀ r₀ (dormantPowerDown s) := by
  unfold dormantPowerDown
  simp only [State.mk_build]
  repeat' (first
    | with_reducible assumption | with_reducible apply keeps_sendMsg | with_reducible apply keeps_complete
    | with_reducible apply Keeps.upd | with_reducible rfl | with_reducible exact id
    | with_reducible exact Or.inl (by assumption) | with_reducible exact Or.inr rfl | with_reducible exact Or.inr ⟨rfl, rfl⟩
    | with_reducible exact Or.inr ⟨rfl, rfl, rfl⟩ | with_reducible exact Or.inr ⟨rfl, rfl, rfl, rfl⟩
    | with_reducible exact length_map' | (exact fun _ h => h) | intro _ | (show Ctx.canon _; assumption)
    | with_reducible apply Ctx.canon_ite | (show Mem.wf _ = true; assumption) | with_reducible apply Keeps.ite | split)

theorem keeps_startWake {w₀ : Part → Prop} {r₀ : State} (h : CmdHdr) (s : State) (hk : Keeps w₀ r₀ s)
    (w_hub : w₀ .hub := by first | assumption | exact trivial)
    (w_regs : w₀ .regs := by first | assumption | exact trivial)
    (w_host : w₀ .host := by first | assumption | exact trivial)
    (w_dies : w₀ .dies := by first | assumption | exact trivial) :
    Keeps w₀ r₀ (startWake h s) := by
  unfold startWake
  simp only [State.mk_build]
  repeat' (first
    | with_reducible assumption | with_reducible apply keeps_complete | with_reducible apply Keeps.upd | with_reducible rfl
    | with_reducible exact id | with_reducible exact Or.inl (by assumption) | with_reducible exact Or.inr rfl
    | with_reducible exact Or.inr ⟨rfl, rfl⟩ | with_reducible exact Or.inr ⟨rfl, rfl, rfl⟩
    | with_reducible exact Or.inr ⟨rfl, rfl, rfl, rfl⟩ | with_reducible exact length_map' | (exact fun _ h => h) | intro _
    | (show Ctx.canon _; assumption) | with_reducible apply Ctx.canon_ite | (show Mem.wf _ = true; assumption)
    | with_reducible apply Keeps.ite | split)

theorem keeps_wakeDie {w₀ : Part → Prop} {r₀ : State} (s : State) (d : Nat) (hk : Keeps w₀ r₀ s)
    (w_regs : w₀ .regs := by first | assumption | exact trivial)
    (w_host : w₀ .host := by first | assumption | exact trivial)
    (w_dies : w₀ .dies := by first | assumption | exact trivial)
    (w_store : w₀ .store := by first | assumption | exact trivial)
    (w_traffic : w₀ .traffic := by first | assumption | exact trivial) :
    Keeps w₀ r₀ (wakeDie s d) := by
  unfold wakeDie
  dsimp only
  repeat' (first
    | with_reducible assumption | with_reducible apply keeps_modDie | with_reducible apply keeps_flagDie
    | with_reducible apply keeps_resetWindow | with_reducible apply keeps_dieAbsent | intro _
    | with_reducible apply Keeps.ite | split)

theorem keeps_wakeDone {w₀ : Part → Prop} {r₀ : State} (s : State) (hk : Keeps w₀ r₀ s)
    (w_hub : w₀ .hub := by first | assumption | exact trivial)
    (w_regs : w₀ .regs := by first | assumption | exact trivial)
    (w_host : w₀ .host := by first | assumption | exact trivial)
    (w_dies : w₀ .dies := by first | assumption | exact trivial)
    (w_ctxs : w₀ .ctxs := by first | assumption | exact trivial)
    (w_modes : w₀ .modes := by first | assumption | exact trivial)
    (w_acct : w₀ .acct := by first | assumption | exact trivial)
    (w_store : w₀ .store := by first | assumption | exact trivial)
    (w_traffic : w₀ .traffic := by first | assumption | exact trivial) :
    Keeps w₀ r₀ (wakeDone s) := by
  unfold wakeDone
  simp only [State.mk_build]
  repeat' (first
    | with_reducible assumption | with_reducible apply keeps_sendMsg | with_reducible apply keeps_complete
    | with_reducible apply keeps_resettle | with_reducible apply keeps_regulatorWatch | with_reducible apply keeps_wakeDie
    | with_reducible apply Keeps.foldl | with_reducible apply Keeps.upd | with_reducible rfl | with_reducible exact id
    | with_reducible exact Or.inl (by assumption) | with_reducible exact Or.inr rfl | with_reducible exact Or.inr ⟨rfl, rfl⟩
    | with_reducible exact Or.inr ⟨rfl, rfl, rfl⟩ | with_reducible exact Or.inr ⟨rfl, rfl, rfl, rfl⟩
    | with_reducible exact length_map' | (exact fun _ h => h) | intro _ | (show Ctx.canon _; assumption)
    | with_reducible apply Ctx.canon_ite | (show Mem.wf _ = true; assumption) | with_reducible apply Keeps.ite | split)

theorem keeps_dieLogicResetDone {w₀ : Part → Prop} {r₀ : State} (s : State) (d : Nat) (hk : Keeps w₀ r₀ s)
    (w_regs : w₀ .regs := by first | assumption | exact trivial)
    (w_host : w₀ .host := by first | assumption | exact trivial)
    (w_dies : w₀ .dies := by first | assumption | exact trivial)
    (w_store : w₀ .store := by first | assumption | exact trivial) :
    Keeps w₀ r₀ (dieLogicResetDone s d) := by
  unfold dieLogicResetDone
  dsimp only
  repeat' (first
    | with_reducible assumption | with_reducible apply keeps_modDie | with_reducible apply keeps_applyMap
    | with_reducible apply Keeps.upd | with_reducible rfl | with_reducible exact id
    | with_reducible exact Or.inl (by assumption) | with_reducible exact Or.inr rfl | with_reducible exact Or.inr ⟨rfl, rfl⟩
    | with_reducible exact Or.inr ⟨rfl, rfl, rfl⟩ | with_reducible exact Or.inr ⟨rfl, rfl, rfl, rfl⟩ | (exact fun _ h => h)
    | intro _ | (show Ctx.canon _; assumption) | with_reducible apply Ctx.canon_ite | (show Mem.wf _ = true; assumption)
    | with_reducible apply Keeps.ite | split)

theorem keeps_builtInTestDone {w₀ : Part → Prop} {r₀ : State} (s : State) (d : Nat) (findings : List TestFinding) (hk : Keeps w₀ r₀ s)
    (w_regs : w₀ .regs := by first | assumption | exact trivial)
    (w_host : w₀ .host := by first | assumption | exact trivial)
    (w_dies : w₀ .dies := by first | assumption | exact trivial)
    (w_ctxs : w₀ .ctxs := by first | assumption | exact trivial)
    (w_modes : w₀ .modes := by first | assumption | exact trivial)
    (w_acct : w₀ .acct := by first | assumption | exact trivial)
    (w_store : w₀ .store := by first | assumption | exact trivial)
    (w_traffic : w₀ .traffic := by first | assumption | exact trivial) :
    Keeps w₀ r₀ (builtInTestDone s d findings) := by
  unfold builtInTestDone
  dsimp only
  repeat' (first
    | with_reducible assumption | with_reducible apply keeps_applyMap | with_reducible apply keeps_finishReset | intro _
    | with_reducible apply Keeps.ite | split)

theorem keeps_fabricHang {w₀ : Part → Prop} {r₀ : State} (s : State) (d : Nat) (hk : Keeps w₀ r₀ s)
    (w_regs : w₀ .regs := by first | assumption | exact trivial)
    (w_host : w₀ .host := by first | assumption | exact trivial)
    (w_dies : w₀ .dies := by first | assumption | exact trivial)
    (w_moves : w₀ .moves := by first | assumption | exact trivial)
    (w_ctxs : w₀ .ctxs := by first | assumption | exact trivial)
    (w_groups : w₀ .groups := by first | assumption | exact trivial)
    (w_codecs : w₀ .codecs := by first | assumption | exact trivial)
    (w_modes : w₀ .modes := by first | assumption | exact trivial)
    (w_acct : w₀ .acct := by first | assumption | exact trivial)
    (w_store : w₀ .store := by first | assumption | exact trivial) :
    Keeps w₀ r₀ (fabricHang s d) := by
  unfold fabricHang
  dsimp only
  repeat' (first
    | with_reducible assumption | with_reducible apply keeps_modDie | with_reducible apply keeps_finishScreen
    | with_reducible apply keeps_dieFault | with_reducible apply Keeps.upd | with_reducible rfl | with_reducible exact id
    | with_reducible exact Or.inl (by assumption) | with_reducible exact Or.inr rfl | with_reducible exact Or.inr ⟨rfl, rfl⟩
    | with_reducible exact Or.inr ⟨rfl, rfl, rfl⟩ | with_reducible exact Or.inr ⟨rfl, rfl, rfl, rfl⟩ | (exact fun _ h => h)
    | intro _ | (show Ctx.canon _; assumption) | with_reducible apply Ctx.canon_ite | (show Mem.wf _ = true; assumption)
    | with_reducible apply Keeps.ite | split)

end Sys2Proof.Machine
end

