-- ==== Sys2Proof/Laws/KeepsPower.lean ====
section
/-! SUPPORT. Laws/KeepsPower.lean: what the operations of Machine/Power.lean keep. -/

set_option Elab.async false

namespace Sys2Proof.Machine

theorem keeps_modTier {w₀ : Part → Prop} {r₀ : State} (s : State) (t : Nat) (p : Nat → Nat → Island → Bool) (f : Island → Island) (hk : Keeps w₀ r₀ s)
    (w_dies : w₀ .dies := by first | assumption | exact trivial) :
    Keeps w₀ r₀ (modTier s t p f) := by
  unfold modTier
  simp only [State.mk_build]
  repeat' (first
    | with_reducible assumption | with_reducible apply Keeps.upd | with_reducible rfl | with_reducible exact id
    | with_reducible exact Or.inl (by assumption) | with_reducible exact Or.inr rfl | with_reducible exact Or.inr ⟨rfl, rfl⟩
    | with_reducible exact Or.inr ⟨rfl, rfl, rfl⟩ | with_reducible exact Or.inr ⟨rfl, rfl, rfl, rfl⟩
    | with_reducible exact length_mapIdx' | (exact fun _ h => h) | intro _ | (show Ctx.canon _; assumption)
    | with_reducible apply Ctx.canon_ite | (show Mem.wf _ = true; assumption) | with_reducible apply Keeps.ite | split)

theorem keeps_reportCaps {w₀ : Part → Prop} {r₀ : State} (s : State) (hk : Keeps w₀ r₀ s)
    (w_regs : w₀ .regs := by first | assumption | exact trivial)
    (w_host : w₀ .host := by first | assumption | exact trivial)
    (w_power : w₀ .power := by first | assumption | exact trivial) :
    Keeps w₀ r₀ (reportCaps s) := by
  unfold reportCaps
  simp only [State.mk_build]
  repeat' (first
    | with_reducible assumption | with_reducible apply keeps_sendMsg | with_reducible apply Keeps.upd | with_reducible rfl
    | with_reducible exact id | with_reducible exact Or.inl (by assumption) | with_reducible exact Or.inr rfl
    | with_reducible exact Or.inr ⟨rfl, rfl⟩ | with_reducible exact Or.inr ⟨rfl, rfl, rfl⟩
    | with_reducible exact Or.inr ⟨rfl, rfl, rfl, rfl⟩ | (exact fun _ h => h) | intro _ | (show Ctx.canon _; assumption)
    | with_reducible apply Ctx.canon_ite | (show Mem.wf _ = true; assumption) | with_reducible apply Keeps.ite | split)

theorem keeps_lowerCaps {w₀ : Part → Prop} {r₀ : State} (s : State) (hk : Keeps w₀ r₀ s)
    (w_dies : w₀ .dies := by first | assumption | exact trivial) :
    Keeps w₀ r₀ (lowerCaps s) := by
  unfold lowerCaps
  dsimp only
  repeat' (first
    | with_reducible assumption | with_reducible apply keeps_modTier | with_reducible apply Keeps.upd | with_reducible rfl
    | with_reducible exact id | with_reducible exact Or.inl (by assumption) | with_reducible exact Or.inr rfl
    | with_reducible exact Or.inr ⟨rfl, rfl⟩ | with_reducible exact Or.inr ⟨rfl, rfl, rfl⟩
    | with_reducible exact Or.inr ⟨rfl, rfl, rfl, rfl⟩ | (exact fun _ h => h) | intro _ | (show Ctx.canon _; assumption)
    | with_reducible apply Ctx.canon_ite | (show Mem.wf _ = true; assumption) | split)

theorem keeps_raiseCaps {w₀ : Part → Prop} {r₀ : State} (s : State) (hk : Keeps w₀ r₀ s)
    (w_dies : w₀ .dies := by first | assumption | exact trivial)
    (w_power : w₀ .power := by first | assumption | exact trivial) :
    Keeps w₀ r₀ (raiseCaps s) := by
  unfold raiseCaps
  simp only [State.mk_build]
  repeat' (first
    | with_reducible assumption | with_reducible apply keeps_modTier | with_reducible apply Keeps.upd | with_reducible rfl
    | with_reducible exact id | with_reducible exact Or.inl (by assumption) | with_reducible exact Or.inr rfl
    | with_reducible exact Or.inr ⟨rfl, rfl⟩ | with_reducible exact Or.inr ⟨rfl, rfl, rfl⟩
    | with_reducible exact Or.inr ⟨rfl, rfl, rfl, rfl⟩ | (exact fun _ h => h) | intro _ | (show Ctx.canon _; assumption)
    | with_reducible apply Ctx.canon_ite | (show Mem.wf _ = true; assumption) | split)

theorem keeps_powerTick {w₀ : Part → Prop} {r₀ : State} (s : State) (p : Nat) (hk : Keeps w₀ r₀ s)
    (w_regs : w₀ .regs := by first | assumption | exact trivial)
    (w_host : w₀ .host := by first | assumption | exact trivial)
    (w_dies : w₀ .dies := by first | assumption | exact trivial)
    (w_power : w₀ .power := by first | assumption | exact trivial) :
    Keeps w₀ r₀ (powerTick s p) := by
  unfold powerTick
  simp only [State.mk_build]
  repeat' (first
    | with_reducible assumption | with_reducible apply keeps_resettle | with_reducible apply keeps_reportCaps
    | with_reducible apply keeps_lowerCaps | with_reducible apply keeps_raiseCaps | with_reducible apply Keeps.upd
    | with_reducible rfl | with_reducible exact id | with_reducible exact Or.inl (by assumption)
    | with_reducible exact Or.inr rfl | with_reducible exact Or.inr ⟨rfl, rfl⟩ | with_reducible exact Or.inr ⟨rfl, rfl, rfl⟩
    | with_reducible exact Or.inr ⟨rfl, rfl, rfl, rfl⟩ | (exact fun _ h => h) | intro _ | (show Ctx.canon _; assumption)
    | with_reducible apply Ctx.canon_ite | (show Mem.wf _ = true; assumption) | with_reducible apply Keeps.ite | split)

theorem keeps_envelopeReturn {w₀ : Part → Prop} {r₀ : State} (s : State) (hk : Keeps w₀ r₀ s)
    (w_dies : w₀ .dies := by first | assumption | exact trivial) :
    Keeps w₀ r₀ (envelopeReturn s) := by
  unfold envelopeReturn
  simp only [State.mk_build]
  repeat' (first
    | with_reducible assumption | with_reducible apply keeps_resettle | with_reducible apply Keeps.upd | with_reducible rfl
    | with_reducible exact id | with_reducible exact Or.inl (by assumption) | with_reducible exact Or.inr rfl
    | with_reducible exact Or.inr ⟨rfl, rfl⟩ | with_reducible exact Or.inr ⟨rfl, rfl, rfl⟩
    | with_reducible exact Or.inr ⟨rfl, rfl, rfl, rfl⟩ | with_reducible exact length_map' | (exact fun _ h => h) | intro _
    | (show Ctx.canon _; assumption) | with_reducible apply Ctx.canon_ite | (show Mem.wf _ = true; assumption)
    | with_reducible apply Keeps.ite | split)

theorem keeps_thermalTick {w₀ : Part → Prop} {r₀ : State} (s : State) (d : Nat) (tj : Int) (hk : Keeps w₀ r₀ s)
    (w_dies : w₀ .dies := by first | assumption | exact trivial)
    (w_power : w₀ .power := by first | assumption | exact trivial) :
    Keeps w₀ r₀ (thermalTick s d tj) := by
  unfold thermalTick
  simp only [State.mk_build]
  repeat' (first
    | with_reducible assumption | with_reducible apply keeps_resettle | with_reducible apply keeps_modTier
    | with_reducible apply Keeps.upd | with_reducible rfl | with_reducible exact id
    | with_reducible exact Or.inl (by assumption) | with_reducible exact Or.inr rfl | with_reducible exact Or.inr ⟨rfl, rfl⟩
    | with_reducible exact Or.inr ⟨rfl, rfl, rfl⟩ | with_reducible exact Or.inr ⟨rfl, rfl, rfl, rfl⟩ | (exact fun _ h => h)
    | intro _ | (show Ctx.canon _; assumption) | with_reducible apply Ctx.canon_ite | (show Mem.wf _ = true; assumption)
    | with_reducible apply Keeps.ite | split)

theorem keeps_thermalReading {w₀ : Part → Prop} {r₀ : State} (s : State) (source cause : Nat) (r : Int) (hk : Keeps w₀ r₀ s)
    (w_regs : w₀ .regs := by first | assumption | exact trivial)
    (w_host : w₀ .host := by first | assumption | exact trivial)
    (w_dies : w₀ .dies := by first | assumption | exact trivial)
    (w_power : w₀ .power := by first | assumption | exact trivial)
    (w_store : w₀ .store := by first | assumption | exact trivial) :
    Keeps w₀ r₀ (thermalReading s source cause r) := by
  unfold thermalReading
  simp only [State.mk_build]
  repeat' (first
    | with_reducible assumption | with_reducible apply keeps_sendMsg | with_reducible apply keeps_logFault
    | with_reducible apply keeps_resettle | with_reducible apply Keeps.upd | with_reducible rfl | with_reducible exact id
    | with_reducible exact Or.inl (by assumption) | with_reducible exact Or.inr rfl | with_reducible exact Or.inr ⟨rfl, rfl⟩
    | with_reducible exact Or.inr ⟨rfl, rfl, rfl⟩ | with_reducible exact Or.inr ⟨rfl, rfl, rfl, rfl⟩ | (exact fun _ h => h)
    | intro _ | (show Ctx.canon _; assumption) | with_reducible apply Ctx.canon_ite | (show Mem.wf _ = true; assumption)
    | with_reducible apply Keeps.ite | split)

theorem keeps_thermalTrip {w₀ : Part → Prop} {r₀ : State} (s : State) (source cause : Nat) (r : Int) (hk : Keeps w₀ r₀ s)
    (w_regs : w₀ .regs := by first | assumption | exact trivial)
    (w_host : w₀ .host := by first | assumption | exact trivial)
    (w_dies : w₀ .dies := by first | assumption | exact trivial)
    (w_ctxs : w₀ .ctxs := by first | assumption | exact trivial)
    (w_modes : w₀ .modes := by first | assumption | exact trivial)
    (w_power : w₀ .power := by first | assumption | exact trivial)
    (w_acct : w₀ .acct := by first | assumption | exact trivial)
    (w_store : w₀ .store := by first | assumption | exact trivial) :
    Keeps w₀ r₀ (thermalTrip s source cause r) := by
  unfold thermalTrip
  dsimp only
  repeat' (first
    | with_reducible assumption | with_reducible apply keeps_drainHold | with_reducible apply keeps_thermalReading
    | with_reducible apply Keeps.foldl | intro _ | with_reducible apply Keeps.ite | split)

theorem keeps_voltageChange {w₀ : Part → Prop} {r₀ : State} (s : State) (mv : Nat) (hk : Keeps w₀ r₀ s)
    (w_dies : w₀ .dies := by first | assumption | exact trivial)
    (w_power : w₀ .power := by first | assumption | exact trivial)
    (w_store : w₀ .store := by first | assumption | exact trivial) :
    Keeps w₀ r₀ (voltageChange s mv) := by
  unfold voltageChange
  simp only [State.mk_build]
  repeat' (first
    | with_reducible assumption | with_reducible apply keeps_logFault | with_reducible apply keeps_resettle
    | with_reducible apply Keeps.upd | with_reducible rfl | with_reducible exact id
    | with_reducible exact Or.inl (by assumption) | with_reducible exact Or.inr rfl | with_reducible exact Or.inr ⟨rfl, rfl⟩
    | with_reducible exact Or.inr ⟨rfl, rfl, rfl⟩ | with_reducible exact Or.inr ⟨rfl, rfl, rfl, rfl⟩ | (exact fun _ h => h)
    | intro _ | (show Ctx.canon _; assumption) | with_reducible apply Ctx.canon_ite | (show Mem.wf _ = true; assumption)
    | with_reducible apply Keeps.ite | split)

theorem keeps_setVrm {w₀ : Part → Prop} {r₀ : State} (s : State) (n : Nat) (v : VrmState) (hk : Keeps w₀ r₀ s)
    (w_power : w₀ .power := by first | assumption | exact trivial) :
    Keeps w₀ r₀ (setVrm s n v) := by
  unfold setVrm
  simp only [State.mk_build]
  repeat' (first
    | with_reducible assumption | with_reducible apply Keeps.upd | with_reducible rfl | with_reducible exact id
    | with_reducible exact Or.inl (by assumption) | with_reducible exact Or.inr rfl | with_reducible exact Or.inr ⟨rfl, rfl⟩
    | with_reducible exact Or.inr ⟨rfl, rfl, rfl⟩ | with_reducible exact Or.inr ⟨rfl, rfl, rfl, rfl⟩ | (exact fun _ h => h)
    | intro _ | (show Ctx.canon _; assumption) | with_reducible apply Ctx.canon_ite | (show Mem.wf _ = true; assumption))

theorem keeps_regulatorFail {w₀ : Part → Prop} {r₀ : State} (s : State) (n : Nat) (hk : Keeps w₀ r₀ s)
    (w_regs : w₀ .regs := by first | assumption | exact trivial)
    (w_host : w₀ .host := by first | assumption | exact trivial)
    (w_dies : w₀ .dies := by first | assumption | exact trivial)
    (w_ctxs : w₀ .ctxs := by first | assumption | exact trivial)
    (w_modes : w₀ .modes := by first | assumption | exact trivial)
    (w_power : w₀ .power := by first | assumption | exact trivial)
    (w_acct : w₀ .acct := by first | assumption | exact trivial)
    (w_store : w₀ .store := by first | assumption | exact trivial) :
    Keeps w₀ r₀ (regulatorFail s n) := by
  unfold regulatorFail
  dsimp only
  repeat' (first
    | with_reducible assumption | with_reducible apply keeps_logFault | with_reducible apply keeps_resettle
    | with_reducible apply keeps_regulatorWatch | with_reducible apply keeps_setVrm | intro _
    | with_reducible apply Keeps.ite | split)

theorem keeps_regulatorFitted {w₀ : Part → Prop} {r₀ : State} (s : State) (n : Nat) (hk : Keeps w₀ r₀ s)
    (w_dies : w₀ .dies := by first | assumption | exact trivial)
    (w_power : w₀ .power := by first | assumption | exact trivial)
    (w_store : w₀ .store := by first | assumption | exact trivial) :
    Keeps w₀ r₀ (regulatorFitted s n) := by
  unfold regulatorFitted
  repeat' (first
    | with_reducible assumption | with_reducible apply keeps_logFault | with_reducible apply keeps_resettle
    | with_reducible apply keeps_setVrm | intro _ | split)

theorem keeps_vrmRelease {w₀ : Part → Prop} {r₀ : State} (s : State) (n : Nat) (v : Word) (hk : Keeps w₀ r₀ s)
    (w_power : w₀ .power := by first | assumption | exact trivial) :
    Keeps w₀ r₀ (vrmRelease s n v) := by
  unfold vrmRelease
  repeat' (first
    | with_reducible assumption | with_reducible apply keeps_setVrm | intro _ | with_reducible apply Keeps.ite | split)

theorem keeps_refLost {w₀ : Part → Prop} {r₀ : State} (s : State) (hk : Keeps w₀ r₀ s)
    (w_hub : w₀ .hub := by first | assumption | exact trivial)
    (w_regs : w₀ .regs := by first | assumption | exact trivial) :
    Keeps w₀ r₀ (refLost s) := by
  unfold refLost
  simp only [State.mk_build]
  repeat' (first
    | with_reducible assumption | with_reducible apply keeps_setBits | with_reducible apply Keeps.upd | with_reducible rfl
    | with_reducible exact id | with_reducible exact Or.inl (by assumption) | with_reducible exact Or.inr rfl
    | with_reducible exact Or.inr ⟨rfl, rfl⟩ | with_reducible exact Or.inr ⟨rfl, rfl, rfl⟩
    | with_reducible exact Or.inr ⟨rfl, rfl, rfl, rfl⟩ | (exact fun _ h => h) | intro _ | (show Ctx.canon _; assumption)
    | with_reducible apply Ctx.canon_ite | (show Mem.wf _ = true; assumption) | with_reducible apply Keeps.ite | split)

theorem keeps_pwrLimitWrite {w₀ : Part → Prop} {r₀ : State} (s : State) (v : Word) (hk : Keeps w₀ r₀ s)
    (w_regs : w₀ .regs := by first | assumption | exact trivial) :
    Keeps w₀ r₀ (pwrLimitWrite s v) := by
  unfold pwrLimitWrite
  dsimp only
  repeat' (first
    | with_reducible assumption | with_reducible apply keeps_setReg | with_reducible apply keeps_setBits | intro _
    | with_reducible apply Keeps.ite | split)

theorem keeps_pwrPeakClr {w₀ : Part → Prop} {r₀ : State} (s : State) (v : Word) (hk : Keeps w₀ r₀ s)
    (w_power : w₀ .power := by first | assumption | exact trivial) :
    Keeps w₀ r₀ (pwrPeakClr s v) := by
  unfold pwrPeakClr
  simp only [State.mk_build]
  repeat' (first
    | with_reducible assumption | with_reducible apply Keeps.upd | with_reducible rfl | with_reducible exact id
    | with_reducible exact Or.inl (by assumption) | with_reducible exact Or.inr rfl | with_reducible exact Or.inr ⟨rfl, rfl⟩
    | with_reducible exact Or.inr ⟨rfl, rfl, rfl⟩ | with_reducible exact Or.inr ⟨rfl, rfl, rfl, rfl⟩ | (exact fun _ h => h)
    | intro _ | (show Ctx.canon _; assumption) | with_reducible apply Ctx.canon_ite | (show Mem.wf _ = true; assumption)
    | with_reducible apply Keeps.ite | split)

theorem keeps_modIsland {w₀ : Part → Prop} {r₀ : State} (s : State) (d n : Nat) (f : Island → Island) (hk : Keeps w₀ r₀ s)
    (w_dies : w₀ .dies := by first | assumption | exact trivial) :
    Keeps w₀ r₀ (modIsland s d n f) := by
  unfold modIsland
  repeat' (first
    | with_reducible assumption | with_reducible apply keeps_modDie | with_reducible apply Keeps.upd | with_reducible rfl
    | with_reducible exact id | with_reducible exact Or.inl (by assumption) | with_reducible exact Or.inr rfl
    | with_reducible exact Or.inr ⟨rfl, rfl⟩ | with_reducible exact Or.inr ⟨rfl, rfl, rfl⟩
    | with_reducible exact Or.inr ⟨rfl, rfl, rfl, rfl⟩ | with_reducible exact length_modAt | (exact fun _ h => h) | intro _
    | (show Ctx.canon _; assumption) | with_reducible apply Ctx.canon_ite | (show Mem.wf _ = true; assumption))

theorem keeps_islVset {w₀ : Part → Prop} {r₀ : State} (s : State) (d n : Nat) (v : Word) (hk : Keeps w₀ r₀ s)
    (w_regs : w₀ .regs := by first | assumption | exact trivial)
    (w_dies : w₀ .dies := by first | assumption | exact trivial) :
    Keeps w₀ r₀ (islVset s d n v) := by
  unfold islVset
  repeat' (first
    | with_reducible assumption | with_reducible apply keeps_setReg | with_reducible apply keeps_setBits
    | with_reducible apply keeps_resettle | intro _ | with_reducible apply Keeps.ite | split)

theorem keeps_islMargin {w₀ : Part → Prop} {r₀ : State} (s : State) (d n : Nat) (v : Word) (hk : Keeps w₀ r₀ s)
    (w_regs : w₀ .regs := by first | assumption | exact trivial) :
    Keeps w₀ r₀ (islMargin s d n v) := by
  unfold islMargin
  dsimp only
  repeat' (first
    | with_reducible assumption | with_reducible apply keeps_setReg | with_reducible apply keeps_setBits | intro _
    | with_reducible apply Keeps.ite | split)

theorem keeps_islRateMinReset {w₀ : Part → Prop} {r₀ : State} (s : State) (d n : Nat) (v : Word) (hk : Keeps w₀ r₀ s)
    (w_dies : w₀ .dies := by first | assumption | exact trivial) :
    Keeps w₀ r₀ (islRateMinReset s d n v) := by
  unfold islRateMinReset
  repeat' (first
    | with_reducible assumption | with_reducible apply keeps_modIsland | with_reducible apply Keeps.upd | with_reducible rfl
    | with_reducible exact id | with_reducible exact Or.inl (by assumption) | with_reducible exact Or.inr rfl
    | with_reducible exact Or.inr ⟨rfl, rfl⟩ | with_reducible exact Or.inr ⟨rfl, rfl, rfl⟩
    | with_reducible exact Or.inr ⟨rfl, rfl, rfl, rfl⟩ | (exact fun _ h => h) | intro _ | (show Ctx.canon _; assumption)
    | with_reducible apply Ctx.canon_ite | (show Mem.wf _ = true; assumption) | with_reducible apply Keeps.ite | split)

theorem keeps_islRateUpdate {w₀ : Part → Prop} {r₀ : State} (s : State) (d n rate : Nat) (hk : Keeps w₀ r₀ s)
    (w_dies : w₀ .dies := by first | assumption | exact trivial) :
    Keeps w₀ r₀ (islRateUpdate s d n rate) := by
  unfold islRateUpdate
  dsimp only
  repeat' (first
    | with_reducible assumption | with_reducible apply keeps_modIsland | with_reducible apply Keeps.upd | with_reducible rfl
    | with_reducible exact id | with_reducible exact Or.inl (by assumption) | with_reducible exact Or.inr rfl
    | with_reducible exact Or.inr ⟨rfl, rfl⟩ | with_reducible exact Or.inr ⟨rfl, rfl, rfl⟩
    | with_reducible exact Or.inr ⟨rfl, rfl, rfl, rfl⟩ | (exact fun _ h => h) | intro _ | (show Ctx.canon _; assumption)
    | with_reducible apply Ctx.canon_ite | (show Mem.wf _ = true; assumption))

end Sys2Proof.Machine
end

