-- ==== Sys2Proof/Laws/KeepsTallyOps.lean ====
section
/-! SUPPORT. Laws/KeepsTallyOps.lean: what the operations of Machine/TallyOps.lean keep. -/

set_option Elab.async false

namespace Sys2Proof.Machine

theorem keeps_apportion {w₀ : Part → Prop} {r₀ : State} (s : State) (e : Nat) (hk : Keeps w₀ r₀ s)
    (w_acct : w₀ .acct := by first | assumption | exact trivial) :
    Keeps w₀ r₀ (apportion s e) := by
  unfold apportion
  simp only [State.mk_build]
  repeat' (first
    | with_reducible assumption | with_reducible apply Keeps.foldl | with_reducible apply Keeps.upd | with_reducible rfl
    | with_reducible exact id | with_reducible exact Or.inl (by assumption) | with_reducible exact Or.inr rfl
    | with_reducible exact Or.inr ⟨rfl, rfl⟩ | with_reducible exact Or.inr ⟨rfl, rfl, rfl⟩
    | with_reducible exact Or.inr ⟨rfl, rfl, rfl, rfl⟩ | with_reducible exact length_map' | (exact fun _ h => h) | intro _
    | (show Ctx.canon _; assumption) | with_reducible apply Ctx.canon_ite | (show Mem.wf _ = true; assumption)
    | with_reducible apply Keeps.ite | split)

theorem keeps_closeRecord {w₀ : Part → Prop} {r₀ : State} (s : State) (final : Bool) (hk : Keeps w₀ r₀ s)
    (w_regs : w₀ .regs := by first | assumption | exact trivial)
    (w_host : w₀ .host := by first | assumption | exact trivial)
    (w_power : w₀ .power := by first | assumption | exact trivial) :
    Keeps w₀ r₀ (closeRecord s final) := by
  unfold closeRecord
  simp only [State.mk_build]
  repeat' (first
    | with_reducible assumption | with_reducible apply keeps_sendMsg | with_reducible apply Keeps.upd | with_reducible rfl
    | with_reducible exact id | with_reducible exact Or.inl (by assumption) | with_reducible exact Or.inr rfl
    | with_reducible exact Or.inr ⟨rfl, rfl⟩ | with_reducible exact Or.inr ⟨rfl, rfl, rfl⟩
    | with_reducible exact Or.inr ⟨rfl, rfl, rfl, rfl⟩ | (exact fun _ h => h) | intro _ | (show Ctx.canon _; assumption)
    | with_reducible apply Ctx.canon_ite | (show Mem.wf _ = true; assumption))

theorem keeps_tallyInterval {w₀ : Part → Prop} {r₀ : State} (s : State) (e watts vin : Nat) (overrange : Bool) (hk : Keeps w₀ r₀ s)
    (w_regs : w₀ .regs := by first | assumption | exact trivial)
    (w_host : w₀ .host := by first | assumption | exact trivial)
    (w_power : w₀ .power := by first | assumption | exact trivial)
    (w_acct : w₀ .acct := by first | assumption | exact trivial) :
    Keeps w₀ r₀ (tallyInterval s e watts vin overrange) := by
  unfold tallyInterval
  simp only [State.mk_build]
  repeat' (first
    | with_reducible assumption | with_reducible apply keeps_apportion | with_reducible apply keeps_closeRecord
    | with_reducible apply Keeps.upd | with_reducible rfl | with_reducible exact id
    | with_reducible exact Or.inl (by assumption) | with_reducible exact Or.inr rfl | with_reducible exact Or.inr ⟨rfl, rfl⟩
    | with_reducible exact Or.inr ⟨rfl, rfl, rfl⟩ | with_reducible exact Or.inr ⟨rfl, rfl, rfl, rfl⟩ | (exact fun _ h => h)
    | intro _ | (show Ctx.canon _; assumption) | with_reducible apply Ctx.canon_ite | (show Mem.wf _ = true; assumption)
    | with_reducible apply Keeps.ite | split)

theorem keeps_tallyRecordClose {w₀ : Part → Prop} {r₀ : State} (s : State) (hk : Keeps w₀ r₀ s)
    (w_regs : w₀ .regs := by first | assumption | exact trivial)
    (w_host : w₀ .host := by first | assumption | exact trivial)
    (w_power : w₀ .power := by first | assumption | exact trivial) :
    Keeps w₀ r₀ (tallyRecordClose s) := by
  unfold tallyRecordClose
  repeat' (first
    | with_reducible assumption | with_reducible apply keeps_closeRecord | intro _ | with_reducible apply Keeps.ite | split)

theorem keeps_unmeteredInterval {w₀ : Part → Prop} {r₀ : State} (s : State) (e : Nat) (hk : Keeps w₀ r₀ s)
    (w_power : w₀ .power := by first | assumption | exact trivial)
    (w_acct : w₀ .acct := by first | assumption | exact trivial) :
    Keeps w₀ r₀ (unmeteredInterval s e) := by
  unfold unmeteredInterval
  simp only [State.mk_build]
  repeat' (first
    | with_reducible assumption | with_reducible apply keeps_apportion | with_reducible apply Keeps.upd | with_reducible rfl
    | with_reducible exact id | with_reducible exact Or.inl (by assumption) | with_reducible exact Or.inr rfl
    | with_reducible exact Or.inr ⟨rfl, rfl⟩ | with_reducible exact Or.inr ⟨rfl, rfl, rfl⟩
    | with_reducible exact Or.inr ⟨rfl, rfl, rfl, rfl⟩ | (exact fun _ h => h) | intro _ | (show Ctx.canon _; assumption)
    | with_reducible apply Ctx.canon_ite | (show Mem.wf _ = true; assumption) | with_reducible apply Keeps.ite | split)

theorem keeps_unmeteredRecord {w₀ : Part → Prop} {r₀ : State} (s : State) (hk : Keeps w₀ r₀ s)
    (w_regs : w₀ .regs := by first | assumption | exact trivial)
    (w_host : w₀ .host := by first | assumption | exact trivial)
    (w_power : w₀ .power := by first | assumption | exact trivial) :
    Keeps w₀ r₀ (unmeteredRecord s) := by
  unfold unmeteredRecord
  simp only [State.mk_build]
  repeat' (first
    | with_reducible assumption | with_reducible apply keeps_sendMsg | with_reducible apply Keeps.upd | with_reducible rfl
    | with_reducible exact id | with_reducible exact Or.inl (by assumption) | with_reducible exact Or.inr rfl
    | with_reducible exact Or.inr ⟨rfl, rfl⟩ | with_reducible exact Or.inr ⟨rfl, rfl, rfl⟩
    | with_reducible exact Or.inr ⟨rfl, rfl, rfl, rfl⟩ | (exact fun _ h => h) | intro _ | (show Ctx.canon _; assumption)
    | with_reducible apply Ctx.canon_ite | (show Mem.wf _ = true; assumption) | with_reducible apply Keeps.ite | split)

theorem keeps_tallyRelease {w₀ : Part → Prop} {r₀ : State} (s : State) (hk : Keeps w₀ r₀ s)
    (w_regs : w₀ .regs := by first | assumption | exact trivial)
    (w_host : w₀ .host := by first | assumption | exact trivial)
    (w_power : w₀ .power := by first | assumption | exact trivial)
    (w_acct : w₀ .acct := by first | assumption | exact trivial)
    (w_ids : w₀ .ids := by first | assumption | exact trivial) :
    Keeps w₀ r₀ (tallyRelease s) := by
  unfold tallyRelease
  simp only [State.mk_build]
  repeat' (first
    | with_reducible assumption | with_reducible apply keeps_apportion | with_reducible apply keeps_closeRecord
    | with_reducible apply Keeps.upd | with_reducible rfl | with_reducible exact id
    | with_reducible exact Or.inl (by assumption) | with_reducible exact Or.inr rfl | with_reducible exact Or.inr ⟨rfl, rfl⟩
    | with_reducible exact Or.inr ⟨rfl, rfl, rfl⟩ | with_reducible exact Or.inr ⟨rfl, rfl, rfl, rfl⟩ | (exact fun _ h => h)
    | intro _ | (show Ctx.canon _; assumption) | with_reducible apply Ctx.canon_ite | (show Mem.wf _ = true; assumption)
    | with_reducible apply Keeps.ite | split)

theorem keeps_tallyAttach {w₀ : Part → Prop} {r₀ : State} (s : State) (hk : Keeps w₀ r₀ s)
    (w_power : w₀ .power := by first | assumption | exact trivial) :
    Keeps w₀ r₀ (tallyAttach s) := by
  unfold tallyAttach
  simp only [State.mk_build]
  repeat' (first
    | with_reducible assumption | with_reducible apply Keeps.upd | with_reducible rfl | with_reducible exact id
    | with_reducible exact Or.inl (by assumption) | with_reducible exact Or.inr rfl | with_reducible exact Or.inr ⟨rfl, rfl⟩
    | with_reducible exact Or.inr ⟨rfl, rfl, rfl⟩ | with_reducible exact Or.inr ⟨rfl, rfl, rfl, rfl⟩ | (exact fun _ h => h)
    | intro _ | (show Ctx.canon _; assumption) | with_reducible apply Ctx.canon_ite | (show Mem.wf _ = true; assumption)
    | split)

theorem keeps_tallyCtl {w₀ : Part → Prop} {r₀ : State} (s : State) (v : Word) (hk : Keeps w₀ r₀ s)
    (w_regs : w₀ .regs := by first | assumption | exact trivial)
    (w_host : w₀ .host := by first | assumption | exact trivial)
    (w_power : w₀ .power := by first | assumption | exact trivial)
    (w_acct : w₀ .acct := by first | assumption | exact trivial)
    (w_ids : w₀ .ids := by first | assumption | exact trivial) :
    Keeps w₀ r₀ (tallyCtl s v) := by
  unfold tallyCtl
  dsimp only
  repeat' (first
    | with_reducible assumption | with_reducible apply keeps_tallyRelease | with_reducible apply keeps_tallyAttach | intro _
    | with_reducible apply Keeps.ite | split)

theorem keeps_tallyReleaseDone {w₀ : Part → Prop} {r₀ : State} (s : State) (hk : Keeps w₀ r₀ s)
    (w_power : w₀ .power := by first | assumption | exact trivial)
    (w_store : w₀ .store := by first | assumption | exact trivial) :
    Keeps w₀ r₀ (tallyReleaseDone s) := by
  unfold tallyReleaseDone
  simp only [State.mk_build]
  repeat' (first
    | with_reducible assumption | with_reducible apply keeps_tallyCopy | with_reducible apply Keeps.upd | with_reducible rfl
    | with_reducible exact id | with_reducible exact Or.inl (by assumption) | with_reducible exact Or.inr rfl
    | with_reducible exact Or.inr ⟨rfl, rfl⟩ | with_reducible exact Or.inr ⟨rfl, rfl, rfl⟩
    | with_reducible exact Or.inr ⟨rfl, rfl, rfl, rfl⟩ | (exact fun _ h => h) | intro _ | (show Ctx.canon _; assumption)
    | with_reducible apply Ctx.canon_ite | (show Mem.wf _ = true; assumption) | with_reducible apply Keeps.ite | split)

theorem keeps_tallySelfTest {w₀ : Part → Prop} {r₀ : State} (s : State) (passed : Bool) (fw serial secs total seq : Nat) (broken : Bool) (hk : Keeps w₀ r₀ s)
    (w_power : w₀ .power := by first | assumption | exact trivial)
    (w_store : w₀ .store := by first | assumption | exact trivial) :
    Keeps w₀ r₀ (tallySelfTest s passed fw serial secs total seq broken) := by
  unfold tallySelfTest
  simp only [State.mk_build]
  repeat' (first
    | with_reducible assumption | with_reducible apply keeps_logFault | with_reducible apply Keeps.upd | with_reducible rfl
    | with_reducible exact id | with_reducible exact Or.inl (by assumption) | with_reducible exact Or.inr rfl
    | with_reducible exact Or.inr ⟨rfl, rfl⟩ | with_reducible exact Or.inr ⟨rfl, rfl, rfl⟩
    | with_reducible exact Or.inr ⟨rfl, rfl, rfl, rfl⟩ | (exact fun _ h => h) | intro _ | (show Ctx.canon _; assumption)
    | with_reducible apply Ctx.canon_ite | (show Mem.wf _ = true; assumption) | with_reducible apply Keeps.ite | split)

theorem keeps_tallyPulled {w₀ : Part → Prop} {r₀ : State} (s : State) (hk : Keeps w₀ r₀ s)
    (w_power : w₀ .power := by first | assumption | exact trivial) :
    Keeps w₀ r₀ (tallyPulled s) := by
  unfold tallyPulled
  simp only [State.mk_build]
  repeat' (first
    | with_reducible assumption | with_reducible apply Keeps.upd | with_reducible rfl | with_reducible exact id
    | with_reducible exact Or.inl (by assumption) | with_reducible exact Or.inr rfl | with_reducible exact Or.inr ⟨rfl, rfl⟩
    | with_reducible exact Or.inr ⟨rfl, rfl, rfl⟩ | with_reducible exact Or.inr ⟨rfl, rfl, rfl, rfl⟩ | (exact fun _ h => h)
    | intro _ | (show Ctx.canon _; assumption) | with_reducible apply Ctx.canon_ite | (show Mem.wf _ = true; assumption)
    | with_reducible apply Keeps.ite | split)

theorem keeps_tallyFaulted {w₀ : Part → Prop} {r₀ : State} (s : State) (hk : Keeps w₀ r₀ s)
    (w_power : w₀ .power := by first | assumption | exact trivial) :
    Keeps w₀ r₀ (tallyFaulted s) := by
  unfold tallyFaulted
  simp only [State.mk_build]
  repeat' (first
    | with_reducible assumption | with_reducible apply Keeps.upd | with_reducible rfl | with_reducible exact id
    | with_reducible exact Or.inl (by assumption) | with_reducible exact Or.inr rfl | with_reducible exact Or.inr ⟨rfl, rfl⟩
    | with_reducible exact Or.inr ⟨rfl, rfl, rfl⟩ | with_reducible exact Or.inr ⟨rfl, rfl, rfl, rfl⟩ | (exact fun _ h => h)
    | intro _ | (show Ctx.canon _; assumption) | with_reducible apply Ctx.canon_ite | (show Mem.wf _ = true; assumption)
    | split)

theorem keeps_tallyFlashCopy {w₀ : Part → Prop} {r₀ : State} (s : State) (hk : Keeps w₀ r₀ s)
    (w_power : w₀ .power := by first | assumption | exact trivial)
    (w_store : w₀ .store := by first | assumption | exact trivial) :
    Keeps w₀ r₀ (tallyFlashCopy s) := by
  unfold tallyFlashCopy
  dsimp only
  repeat' (first
    | with_reducible assumption | with_reducible apply keeps_tallyCopy | intro _ | with_reducible apply Keeps.ite | split)

theorem keeps_inputPowerLoss {w₀ : Part → Prop} {r₀ : State} (s : State) (e watts vin : Nat) (hk : Keeps w₀ r₀ s)
    (w_hub : w₀ .hub := by first | assumption | exact trivial)
    (w_regs : w₀ .regs := by first | assumption | exact trivial)
    (w_host : w₀ .host := by first | assumption | exact trivial)
    (w_dies : w₀ .dies := by first | assumption | exact trivial)
    (w_pages : w₀ .pages := by first | assumption | exact trivial)
    (w_moves : w₀ .moves := by first | assumption | exact trivial)
    (w_ctxs : w₀ .ctxs := by first | assumption | exact trivial)
    (w_links : w₀ .links := by first | assumption | exact trivial)
    (w_groups : w₀ .groups := by first | assumption | exact trivial)
    (w_codecs : w₀ .codecs := by first | assumption | exact trivial)
    (w_modes : w₀ .modes := by first | assumption | exact trivial)
    (w_power : w₀ .power := by first | assumption | exact trivial)
    (w_acct : w₀ .acct := by first | assumption | exact trivial)
    (w_store : w₀ .store := by first | assumption | exact trivial)
    (w_mem : w₀ .mem := by first | assumption | exact trivial)
    (w_ids : w₀ .ids := by first | assumption | exact trivial)
    (w_traffic : w₀ .traffic := by first | assumption | exact trivial) :
    Keeps w₀ r₀ (inputPowerLoss s e watts vin) := by
  unfold inputPowerLoss
  simp only [State.mk_build]
  repeat' (first
    | with_reducible assumption | with_reducible apply keeps_moduleReset | with_reducible apply Keeps.upd
    | with_reducible rfl | with_reducible exact id | with_reducible exact Or.inl (by assumption)
    | with_reducible exact Or.inr rfl | with_reducible exact Or.inr ⟨rfl, rfl⟩ | with_reducible exact Or.inr ⟨rfl, rfl, rfl⟩
    | with_reducible exact Or.inr ⟨rfl, rfl, rfl, rfl⟩ | (exact fun _ h => h) | intro _ | (show Ctx.canon _; assumption)
    | with_reducible apply Ctx.canon_ite | (show Mem.wf _ = true; assumption) | with_reducible apply Keeps.ite | split)

theorem keeps_acctFlush {w₀ : Part → Prop} {r₀ : State} (s : State) (hk : Keeps w₀ r₀ s)
    (w_ctxs : w₀ .ctxs := by first | assumption | exact trivial)
    (w_acct : w₀ .acct := by first | assumption | exact trivial) :
    Keeps w₀ r₀ (acctFlush s) := by
  unfold acctFlush
  repeat' (first
    | with_reducible assumption | with_reducible apply keeps_flushCtx | with_reducible apply Keeps.foldl
    | with_reducible exact length_map' | intro _)

theorem keeps_acctCtl {w₀ : Part → Prop} {r₀ : State} (s : State) (asn : Nat) (v : Word) (hk : Keeps w₀ r₀ s)
    (w_regs : w₀ .regs := by first | assumption | exact trivial)
    (w_acct : w₀ .acct := by first | assumption | exact trivial) :
    Keeps w₀ r₀ (acctCtl s asn v) := by
  unfold acctCtl
  simp only [State.mk_build]
  repeat' (first
    | with_reducible assumption | with_reducible apply keeps_clearW1c | with_reducible apply Keeps.upd | with_reducible rfl
    | with_reducible exact id | with_reducible exact Or.inl (by assumption) | with_reducible exact Or.inr rfl
    | with_reducible exact Or.inr ⟨rfl, rfl⟩ | with_reducible exact Or.inr ⟨rfl, rfl, rfl⟩
    | with_reducible exact Or.inr ⟨rfl, rfl, rfl, rfl⟩ | (exact fun _ h => h) | intro _ | (show Ctx.canon _; assumption)
    | with_reducible apply Ctx.canon_ite | (show Mem.wf _ = true; assumption) | with_reducible apply Keeps.ite | split)

theorem keeps_appCtl {w₀ : Part → Prop} {r₀ : State} (s : State) (v : Word) (hk : Keeps w₀ r₀ s)
    (w_acct : w₀ .acct := by first | assumption | exact trivial) :
    Keeps w₀ r₀ (appCtl s v) := by
  unfold appCtl
  simp only [State.mk_build]
  repeat' (first
    | with_reducible assumption | with_reducible apply Keeps.upd | with_reducible rfl | with_reducible exact id
    | with_reducible exact Or.inl (by assumption) | with_reducible exact Or.inr rfl | with_reducible exact Or.inr ⟨rfl, rfl⟩
    | with_reducible exact Or.inr ⟨rfl, rfl, rfl⟩ | with_reducible exact Or.inr ⟨rfl, rfl, rfl, rfl⟩ | (exact fun _ h => h)
    | intro _ | (show Ctx.canon _; assumption) | with_reducible apply Ctx.canon_ite | (show Mem.wf _ = true; assumption)
    | with_reducible apply Keeps.ite | split)

end Sys2Proof.Machine
end

