-- ==== Sys2Proof/Laws/KeepsQueue.lean ====
section
/-! SUPPORT. Laws/KeepsQueue.lean: what the operations of Machine/Queue.lean keep. -/

set_option Elab.async false

namespace Sys2Proof.Machine

theorem keeps_startNow {w₀ : Part → Prop} {r₀ : State} (s : State) (h : CmdHdr) (code first : Nat) (start : State → State) (hstart : ∀ s, Keeps w₀ r₀ s → Keeps w₀ r₀ (start s)) (hk : Keeps w₀ r₀ s)
    (w_regs : w₀ .regs := by first | assumption | exact trivial)
    (w_host : w₀ .host := by first | assumption | exact trivial) :
    Keeps w₀ r₀ (startNow s h code first start) := by
  unfold startNow
  dsimp only
  repeat' (first
    | with_reducible assumption | with_reducible apply hstart | with_reducible apply keeps_complete
    | with_reducible apply keeps_beginCmd | intro _ | with_reducible apply Keeps.ite | split)

theorem keeps_fetchOne {w₀ : Part → Prop} {r₀ : State} (s : State) (q : Nat) (hk : Keeps w₀ r₀ s)
    (w_host : w₀ .host := by first | assumption | exact trivial) :
    Keeps w₀ r₀ (fetchOne s q) := by
  unfold fetchOne
  dsimp only
  repeat' (first
    | with_reducible assumption | with_reducible apply keeps_setQ | with_reducible apply Keeps.upd | with_reducible rfl
    | with_reducible exact id | with_reducible exact Or.inl (by assumption) | with_reducible exact Or.inr rfl
    | with_reducible exact Or.inr ⟨rfl, rfl⟩ | with_reducible exact Or.inr ⟨rfl, rfl, rfl⟩
    | with_reducible exact Or.inr ⟨rfl, rfl, rfl, rfl⟩ | (exact fun _ h => h) | intro _ | (show Ctx.canon _; assumption)
    | with_reducible apply Ctx.canon_ite | (show Mem.wf _ = true; assumption) | with_reducible apply Keeps.ite | split)

theorem keeps_enqueue {w₀ : Part → Prop} {r₀ : State} (s : State) (q : Nat) (i : Instr) (hk : Keeps w₀ r₀ s)
    (w_host : w₀ .host := by first | assumption | exact trivial) :
    Keeps w₀ r₀ (enqueue s q i) := by
  unfold enqueue
  dsimp only
  repeat' (first
    | with_reducible assumption | with_reducible apply keeps_setQ | with_reducible apply Keeps.upd | with_reducible rfl
    | with_reducible exact id | with_reducible exact Or.inl (by assumption) | with_reducible exact Or.inr rfl
    | with_reducible exact Or.inr ⟨rfl, rfl⟩ | with_reducible exact Or.inr ⟨rfl, rfl, rfl⟩
    | with_reducible exact Or.inr ⟨rfl, rfl, rfl, rfl⟩ | (exact fun _ h => h) | intro _ | (show Ctx.canon _; assumption)
    | with_reducible apply Ctx.canon_ite | (show Mem.wf _ = true; assumption))

theorem keeps_submit {w₀ : Part → Prop} {r₀ : State} (s : State) (h : CmdHdr) (i : Instr) (code first : Nat) (start : State → State) (hstart : ∀ s, Keeps w₀ r₀ s → Keeps w₀ r₀ (start s)) (hk : Keeps w₀ r₀ s)
    (w_regs : w₀ .regs := by first | assumption | exact trivial)
    (w_host : w₀ .host := by first | assumption | exact trivial) :
    Keeps w₀ r₀ (submit s h i code first start) := by
  unfold submit
  dsimp only
  repeat' (first
    | with_reducible assumption | with_reducible apply hstart | with_reducible apply keeps_startNow
    | with_reducible apply keeps_fetchOne | with_reducible apply keeps_enqueue | intro _ | with_reducible apply Keeps.ite
    | split)

theorem keeps_startNop {w₀ : Part → Prop} {r₀ : State} (h : CmdHdr) (s : State) (hk : Keeps w₀ r₀ s)
    (w_regs : w₀ .regs := by first | assumption | exact trivial)
    (w_host : w₀ .host := by first | assumption | exact trivial) :
    Keeps w₀ r₀ (startNop h s) := by
  unfold startNop
  repeat' (first
    | with_reducible assumption | with_reducible apply keeps_complete | intro _)

theorem keeps_startReserved {w₀ : Part → Prop} {r₀ : State} (h : CmdHdr) (code first : Nat) (s : State) (hk : Keeps w₀ r₀ s)
    (w_regs : w₀ .regs := by first | assumption | exact trivial)
    (w_host : w₀ .host := by first | assumption | exact trivial) :
    Keeps w₀ r₀ (startReserved h code first s) := by
  unfold startReserved
  repeat' (first
    | with_reducible assumption | with_reducible apply keeps_complete | with_reducible apply keeps_beginCmd | intro _)

theorem keeps_reservedCmd {w₀ : Part → Prop} {r₀ : State} (s : State) (h : CmdHdr) (code first : Nat) (hk : Keeps w₀ r₀ s)
    (w_regs : w₀ .regs := by first | assumption | exact trivial)
    (w_host : w₀ .host := by first | assumption | exact trivial) :
    Keeps w₀ r₀ (reservedCmd s h code first) := by
  unfold reservedCmd
  dsimp only
  repeat' (first
    | with_reducible assumption | with_reducible apply keeps_fetchOne | with_reducible apply keeps_enqueue
    | with_reducible apply keeps_startReserved | intro _ | with_reducible apply Keeps.ite | split)

end Sys2Proof.Machine
end

