-- ==== Sys2Proof/Laws/KeepsScreens.lean ====
section
/-! SUPPORT. Laws/KeepsScreens.lean: what the operations of Machine/Screens.lean keep. -/

set_option Elab.async false

namespace Sys2Proof.Machine

theorem keeps_screenStart {w₀ : Part → Prop} {r₀ : State} (s : State) (d : Nat) (hk : Keeps w₀ r₀ s)
    (w_regs : w₀ .regs := by first | assumption | exact trivial)
    (w_dies : w₀ .dies := by first | assumption | exact trivial)
    (w_store : w₀ .store := by first | assumption | exact trivial) :
    Keeps w₀ r₀ (screenStart s d) := by
  unfold screenStart
  simp only [State.mk_build]
  repeat' (first
    | with_reducible assumption | with_reducible apply keeps_setBits | with_reducible apply keeps_modDie
    | with_reducible apply keeps_resettle | with_reducible apply Keeps.upd | with_reducible rfl | with_reducible exact id
    | with_reducible exact Or.inl (by assumption) | with_reducible exact Or.inr rfl | with_reducible exact Or.inr ⟨rfl, rfl⟩
    | with_reducible exact Or.inr ⟨rfl, rfl, rfl⟩ | with_reducible exact Or.inr ⟨rfl, rfl, rfl, rfl⟩ | (exact fun _ h => h)
    | intro _ | (show Ctx.canon _; assumption) | with_reducible apply Ctx.canon_ite | (show Mem.wf _ = true; assumption)
    | with_reducible apply Keeps.ite | split)

theorem keeps_scrCmd {w₀ : Part → Prop} {r₀ : State} (s : State) (d : Nat) (v : Word) (hk : Keeps w₀ r₀ s)
    (w_regs : w₀ .regs := by first | assumption | exact trivial)
    (w_host : w₀ .host := by first | assumption | exact trivial)
    (w_dies : w₀ .dies := by first | assumption | exact trivial)
    (w_store : w₀ .store := by first | assumption | exact trivial) :
    Keeps w₀ r₀ (scrCmd s d v) := by
  unfold scrCmd
  dsimp only
  repeat' (first
    | with_reducible assumption | with_reducible apply keeps_abortScreen | with_reducible apply keeps_screenStart | intro _
    | with_reducible apply Keeps.ite | split)

theorem keeps_confirmSlot {w₀ : Part → Prop} {r₀ : State} (s : State) (d c k : Nat) (hk : Keeps w₀ r₀ s)
    (w_regs : w₀ .regs := by first | assumption | exact trivial)
    (w_host : w₀ .host := by first | assumption | exact trivial)
    (w_dies : w₀ .dies := by first | assumption | exact trivial) :
    Keeps w₀ r₀ (confirmSlot s d c k) := by
  unfold confirmSlot
  repeat' (first
    | with_reducible assumption | with_reducible apply keeps_modDie | with_reducible apply keeps_sendRepair
    | with_reducible apply Keeps.upd | with_reducible rfl | with_reducible exact id
    | with_reducible exact Or.inl (by assumption) | with_reducible exact Or.inr rfl | with_reducible exact Or.inr ⟨rfl, rfl⟩
    | with_reducible exact Or.inr ⟨rfl, rfl, rfl⟩ | with_reducible exact Or.inr ⟨rfl, rfl, rfl, rfl⟩ | (exact fun _ h => h)
    | intro _ | (show Ctx.canon _; assumption) | with_reducible apply Ctx.canon_ite | (show Mem.wf _ = true; assumption))

theorem keeps_decideScreen {w₀ : Part → Prop} {r₀ : State} (s : State) (d : Nat) (hk : Keeps w₀ r₀ s)
    (w_regs : w₀ .regs := by first | assumption | exact trivial)
    (w_host : w₀ .host := by first | assumption | exact trivial)
    (w_dies : w₀ .dies := by first | assumption | exact trivial)
    (w_ctxs : w₀ .ctxs := by first | assumption | exact trivial)
    (w_modes : w₀ .modes := by first | assumption | exact trivial)
    (w_acct : w₀ .acct := by first | assumption | exact trivial)
    (w_store : w₀ .store := by first | assumption | exact trivial) :
    Keeps w₀ r₀ (decideScreen s d) := by
  unfold decideScreen
  dsimp only
  repeat' (first
    | with_reducible assumption | with_reducible apply keeps_finishScreen | with_reducible apply keeps_drainHold
    | with_reducible apply keeps_confirmSlot | intro _ | with_reducible apply Keeps.ite | split)

theorem keeps_nextRound {w₀ : Part → Prop} {r₀ : State} (s : State) (d : Nat) (hk : Keeps w₀ r₀ s)
    (w_regs : w₀ .regs := by first | assumption | exact trivial)
    (w_host : w₀ .host := by first | assumption | exact trivial)
    (w_dies : w₀ .dies := by first | assumption | exact trivial)
    (w_ctxs : w₀ .ctxs := by first | assumption | exact trivial)
    (w_modes : w₀ .modes := by first | assumption | exact trivial)
    (w_acct : w₀ .acct := by first | assumption | exact trivial)
    (w_store : w₀ .store := by first | assumption | exact trivial) :
    Keeps w₀ r₀ (nextRound s d) := by
  unfold nextRound
  dsimp only
  repeat' (first
    | with_reducible assumption | with_reducible apply keeps_modDie | with_reducible apply keeps_resettle
    | with_reducible apply keeps_decideScreen | with_reducible apply Keeps.upd | with_reducible rfl
    | with_reducible exact id | with_reducible exact Or.inl (by assumption) | with_reducible exact Or.inr rfl
    | with_reducible exact Or.inr ⟨rfl, rfl⟩ | with_reducible exact Or.inr ⟨rfl, rfl, rfl⟩
    | with_reducible exact Or.inr ⟨rfl, rfl, rfl, rfl⟩ | (exact fun _ h => h) | intro _ | (show Ctx.canon _; assumption)
    | with_reducible apply Ctx.canon_ite | (show Mem.wf _ = true; assumption) | with_reducible apply Keeps.ite | split)

theorem keeps_screenRound {w₀ : Part → Prop} {r₀ : State} (s : State) (d : Nat) (r : ScreenRound) (hk : Keeps w₀ r₀ s)
    (w_regs : w₀ .regs := by first | assumption | exact trivial)
    (w_host : w₀ .host := by first | assumption | exact trivial)
    (w_dies : w₀ .dies := by first | assumption | exact trivial)
    (w_ctxs : w₀ .ctxs := by first | assumption | exact trivial)
    (w_modes : w₀ .modes := by first | assumption | exact trivial)
    (w_acct : w₀ .acct := by first | assumption | exact trivial)
    (w_store : w₀ .store := by first | assumption | exact trivial) :
    Keeps w₀ r₀ (screenRound s d r) := by
  unfold screenRound
  dsimp only
  repeat' (first
    | with_reducible assumption | with_reducible apply keeps_modDie | with_reducible apply keeps_resettle
    | with_reducible apply keeps_abortScreen | with_reducible apply keeps_nextRound | with_reducible apply Keeps.upd
    | with_reducible rfl | with_reducible exact id | with_reducible exact Or.inl (by assumption)
    | with_reducible exact Or.inr rfl | with_reducible exact Or.inr ⟨rfl, rfl⟩ | with_reducible exact Or.inr ⟨rfl, rfl, rfl⟩
    | with_reducible exact Or.inr ⟨rfl, rfl, rfl, rfl⟩ | (exact fun _ h => h) | intro _ | (show Ctx.canon _; assumption)
    | with_reducible apply Ctx.canon_ite | (show Mem.wf _ = true; assumption) | with_reducible apply Keeps.ite | split)

theorem keeps_clearFlag {w₀ : Part → Prop} {r₀ : State} (s : State) (d : Nat) (hk : Keeps w₀ r₀ s)
    (w_dies : w₀ .dies := by first | assumption | exact trivial)
    (w_store : w₀ .store := by first | assumption | exact trivial) :
    Keeps w₀ r₀ (clearFlag s d) := by
  unfold clearFlag
  simp only [State.mk_build]
  repeat' (first
    | with_reducible assumption | with_reducible apply keeps_modDie | with_reducible apply keeps_flushMap
    | with_reducible apply Keeps.upd | with_reducible rfl | with_reducible exact id
    | with_reducible exact Or.inl (by assumption) | with_reducible exact Or.inr rfl | with_reducible exact Or.inr ⟨rfl, rfl⟩
    | with_reducible exact Or.inr ⟨rfl, rfl, rfl⟩ | with_reducible exact Or.inr ⟨rfl, rfl, rfl, rfl⟩
    | with_reducible exact length_map' | (exact fun _ h => h) | intro _ | (show Ctx.canon _; assumption)
    | with_reducible apply Ctx.canon_ite | (show Mem.wf _ = true; assumption) | with_reducible apply Keeps.ite | split)

theorem keeps_dieFlagWrite {w₀ : Part → Prop} {r₀ : State} (s : State) (d : Nat) (v : Word) (hk : Keeps w₀ r₀ s)
    (w_regs : w₀ .regs := by first | assumption | exact trivial)
    (w_host : w₀ .host := by first | assumption | exact trivial)
    (w_dies : w₀ .dies := by first | assumption | exact trivial)
    (w_store : w₀ .store := by first | assumption | exact trivial) :
    Keeps w₀ r₀ (dieFlagWrite s d v) := by
  unfold dieFlagWrite
  dsimp only
  repeat' (first
    | with_reducible assumption | with_reducible apply keeps_flagDie | with_reducible apply keeps_clearFlag | intro _
    | with_reducible apply Keeps.ite | split)

theorem keeps_startDieDrain {w₀ : Part → Prop} {r₀ : State} (h : CmdHdr) (die : Nat) (goal : DieGoal) (s : State) (hk : Keeps w₀ r₀ s)
    (w_regs : w₀ .regs := by first | assumption | exact trivial)
    (w_host : w₀ .host := by first | assumption | exact trivial)
    (w_dies : w₀ .dies := by first | assumption | exact trivial)
    (w_ctxs : w₀ .ctxs := by first | assumption | exact trivial)
    (w_modes : w₀ .modes := by first | assumption | exact trivial)
    (w_acct : w₀ .acct := by first | assumption | exact trivial)
    (w_store : w₀ .store := by first | assumption | exact trivial) :
    Keeps w₀ r₀ (startDieDrain h die goal s) := by
  unfold startDieDrain
  repeat' (first
    | with_reducible assumption | with_reducible apply keeps_complete | with_reducible apply keeps_startDrain | intro _
    | with_reducible apply Keeps.ite | split)

theorem keeps_startDieRestore {w₀ : Part → Prop} {r₀ : State} (h : CmdHdr) (die : Nat) (s : State) (hk : Keeps w₀ r₀ s)
    (w_regs : w₀ .regs := by first | assumption | exact trivial)
    (w_host : w₀ .host := by first | assumption | exact trivial)
    (w_dies : w₀ .dies := by first | assumption | exact trivial)
    (w_ctxs : w₀ .ctxs := by first | assumption | exact trivial)
    (w_modes : w₀ .modes := by first | assumption | exact trivial)
    (w_store : w₀ .store := by first | assumption | exact trivial) :
    Keeps w₀ r₀ (startDieRestore h die s) := by
  unfold startDieRestore
  repeat' (first
    | with_reducible assumption | with_reducible apply keeps_complete | with_reducible apply keeps_enterReset | intro _
    | with_reducible apply Keeps.ite | split)

end Sys2Proof.Machine
end

