-- ==== Sys2Proof/Laws/KeepsPages.lean ====
section
/-! SUPPORT. Laws/KeepsPages.lean: what the operations of Machine/Pages.lean keep. -/

set_option Elab.async false

namespace Sys2Proof.Machine

theorem keeps_failQuota {w₀ : Part → Prop} {r₀ : State} (s : State) (h : CmdHdr) (cmd asn tier asked : Nat) (detail : Bytes) (hk : Keeps w₀ r₀ s)
    (w_regs : w₀ .regs := by first | assumption | exact trivial)
    (w_host : w₀ .host := by first | assumption | exact trivial) :
    Keeps w₀ r₀ (failQuota s h cmd asn tier asked detail) := by
  unfold failQuota
  dsimp only
  repeat' (first
    | with_reducible assumption | with_reducible apply keeps_complete | with_reducible apply keeps_sendQuota | intro _
    | with_reducible apply Keeps.ite | split)

theorem keeps_mapPages {w₀ : Part → Prop} {r₀ : State} (s : State) (asn v : Nat) (w : Bool) (ppns : List Nat) (hk : Keeps w₀ r₀ s)
    (w_pages : w₀ .pages := by first | assumption | exact trivial)
    (w_mem : w₀ .mem := by first | assumption | exact trivial) :
    Keeps w₀ r₀ (mapPages s asn v w ppns) := by
  unfold mapPages
  dsimp only
  repeat' (first
    | with_reducible assumption | with_reducible apply keeps_modSpace | with_reducible apply keeps_zeroPage
    | with_reducible apply Keeps.foldl | with_reducible apply Keeps.upd | with_reducible rfl | with_reducible exact id
    | with_reducible exact Or.inl (by assumption) | with_reducible exact Or.inr rfl | with_reducible exact Or.inr ⟨rfl, rfl⟩
    | with_reducible exact Or.inr ⟨rfl, rfl, rfl⟩ | with_reducible exact Or.inr ⟨rfl, rfl, rfl, rfl⟩
    | with_reducible exact length_mapIdx' | (exact fun _ h => h) | intro _ | (show Ctx.canon _; assumption)
    | with_reducible apply Ctx.canon_ite | (show Mem.wf _ = true; assumption))

theorem keeps_startAlloc {w₀ : Part → Prop} {r₀ : State} (h : CmdHdr) (asn tier w n va place : Nat) (s : State) (hk : Keeps w₀ r₀ s)
    (w_regs : w₀ .regs := by first | assumption | exact trivial)
    (w_host : w₀ .host := by first | assumption | exact trivial)
    (w_pages : w₀ .pages := by first | assumption | exact trivial)
    (w_moves : w₀ .moves := by first | assumption | exact trivial)
    (w_mem : w₀ .mem := by first | assumption | exact trivial) :
    Keeps w₀ r₀ (startAlloc h asn tier w n va place s) := by
  unfold startAlloc
  simp only [State.mk_build]
  repeat' (first
    | with_reducible assumption | with_reducible apply keeps_complete | with_reducible apply keeps_failQuota
    | with_reducible apply keeps_mapPages | with_reducible apply Keeps.upd | with_reducible rfl | with_reducible exact id
    | with_reducible exact Or.inl (by assumption) | with_reducible exact Or.inr rfl | with_reducible exact Or.inr ⟨rfl, rfl⟩
    | with_reducible exact Or.inr ⟨rfl, rfl, rfl⟩ | with_reducible exact Or.inr ⟨rfl, rfl, rfl, rfl⟩ | (exact fun _ h => h)
    | intro _ | (show Ctx.canon _; assumption) | with_reducible apply Ctx.canon_ite | (show Mem.wf _ = true; assumption)
    | with_reducible apply Keeps.ite | split)

theorem keeps_zeroFillDone {w₀ : Part → Prop} {r₀ : State} (s : State) (asn : Nat) (hk : Keeps w₀ r₀ s)
    (w_regs : w₀ .regs := by first | assumption | exact trivial)
    (w_host : w₀ .host := by first | assumption | exact trivial)
    (w_moves : w₀ .moves := by first | assumption | exact trivial) :
    Keeps w₀ r₀ (zeroFillDone s asn) := by
  unfold zeroFillDone
  simp only [State.mk_build]
  repeat' (first
    | with_reducible assumption | with_reducible apply keeps_complete | with_reducible apply Keeps.upd | with_reducible rfl
    | with_reducible exact id | with_reducible exact Or.inl (by assumption) | with_reducible exact Or.inr rfl
    | with_reducible exact Or.inr ⟨rfl, rfl⟩ | with_reducible exact Or.inr ⟨rfl, rfl, rfl⟩
    | with_reducible exact Or.inr ⟨rfl, rfl, rfl, rfl⟩ | (exact fun _ h => h) | intro _ | (show Ctx.canon _; assumption)
    | with_reducible apply Ctx.canon_ite | (show Mem.wf _ = true; assumption) | split)

theorem keeps_unmapPages {w₀ : Part → Prop} {r₀ : State} (s : State) (asn v n : Nat) (hk : Keeps w₀ r₀ s)
    (w_pages : w₀ .pages := by first | assumption | exact trivial) :
    Keeps w₀ r₀ (unmapPages s asn v n) := by
  unfold unmapPages
  repeat' (first
    | with_reducible assumption | with_reducible apply keeps_modSpace | with_reducible apply Keeps.upd | with_reducible rfl
    | with_reducible exact id | with_reducible exact Or.inl (by assumption) | with_reducible exact Or.inr rfl
    | with_reducible exact Or.inr ⟨rfl, rfl⟩ | with_reducible exact Or.inr ⟨rfl, rfl, rfl⟩
    | with_reducible exact Or.inr ⟨rfl, rfl, rfl, rfl⟩ | (exact fun _ h => h) | intro _ | (show Ctx.canon _; assumption)
    | with_reducible apply Ctx.canon_ite | (show Mem.wf _ = true; assumption))

theorem keeps_startFree {w₀ : Part → Prop} {r₀ : State} (h : CmdHdr) (asn n va : Nat) (s : State) (hk : Keeps w₀ r₀ s)
    (w_regs : w₀ .regs := by first | assumption | exact trivial)
    (w_host : w₀ .host := by first | assumption | exact trivial)
    (w_pages : w₀ .pages := by first | assumption | exact trivial) :
    Keeps w₀ r₀ (startFree h asn n va s) := by
  unfold startFree
  dsimp only
  repeat' (first
    | with_reducible assumption | with_reducible apply keeps_complete | with_reducible apply keeps_unmapPages | intro _
    | with_reducible apply Keeps.ite | split)

theorem keeps_settleMigration {w₀ : Part → Prop} {r₀ : State} (s : State) (m : Migration) (hk : Keeps w₀ r₀ s)
    (w_regs : w₀ .regs := by first | assumption | exact trivial)
    (w_host : w₀ .host := by first | assumption | exact trivial)
    (w_moves : w₀ .moves := by first | assumption | exact trivial) :
    Keeps w₀ r₀ (settleMigration s m) := by
  unfold settleMigration
  simp only [State.mk_build]
  repeat' (first
    | with_reducible assumption | with_reducible apply keeps_complete | with_reducible apply Keeps.upd | with_reducible rfl
    | with_reducible exact id | with_reducible exact Or.inl (by assumption) | with_reducible exact Or.inr rfl
    | with_reducible exact Or.inr ⟨rfl, rfl⟩ | with_reducible exact Or.inr ⟨rfl, rfl, rfl⟩
    | with_reducible exact Or.inr ⟨rfl, rfl, rfl, rfl⟩ | (exact fun _ h => h) | intro _ | (show Ctx.canon _; assumption)
    | with_reducible apply Ctx.canon_ite | (show Mem.wf _ = true; assumption) | with_reducible apply Keeps.ite | split)

theorem keeps_settleMigrations {w₀ : Part → Prop} {r₀ : State} (s : State) (hk : Keeps w₀ r₀ s)
    (w_regs : w₀ .regs := by first | assumption | exact trivial)
    (w_host : w₀ .host := by first | assumption | exact trivial)
    (w_moves : w₀ .moves := by first | assumption | exact trivial) :
    Keeps w₀ r₀ (settleMigrations s) := by
  unfold settleMigrations
  repeat' (first
    | with_reducible assumption | with_reducible apply keeps_settleMigration | with_reducible apply Keeps.foldl | intro _)

theorem keeps_startMigrate {w₀ : Part → Prop} {r₀ : State} (h : CmdHdr) (asn tier access n va place : Nat) (s : State) (hk : Keeps w₀ r₀ s)
    (w_regs : w₀ .regs := by first | assumption | exact trivial)
    (w_host : w₀ .host := by first | assumption | exact trivial)
    (w_pages : w₀ .pages := by first | assumption | exact trivial)
    (w_moves : w₀ .moves := by first | assumption | exact trivial) :
    Keeps w₀ r₀ (startMigrate h asn tier access n va place s) := by
  unfold startMigrate
  simp only [State.mk_build]
  repeat' (first
    | with_reducible assumption | with_reducible apply keeps_complete | with_reducible apply keeps_modSpace
    | with_reducible apply keeps_failQuota | with_reducible apply keeps_settleMigration | with_reducible apply Keeps.upd
    | with_reducible rfl | with_reducible exact id | with_reducible exact Or.inl (by assumption)
    | with_reducible exact Or.inr rfl | with_reducible exact Or.inr ⟨rfl, rfl⟩ | with_reducible exact Or.inr ⟨rfl, rfl, rfl⟩
    | with_reducible exact Or.inr ⟨rfl, rfl, rfl, rfl⟩ | with_reducible exact length_map' | (exact fun _ h => h) | intro _
    | (show Ctx.canon _; assumption) | with_reducible apply Ctx.canon_ite | (show Mem.wf _ = true; assumption)
    | with_reducible apply Keeps.ite | split)

theorem keeps_releaseHolders {w₀ : Part → Prop} {r₀ : State} (s : State) (asn vpn : Nat) (hk : Keeps w₀ r₀ s)
    (w_ctxs : w₀ .ctxs := by first | assumption | exact trivial) :
    Keeps w₀ r₀ (releaseHolders s asn vpn) := by
  unfold releaseHolders
  repeat' (first
    | with_reducible assumption | with_reducible apply keeps_modCtx | with_reducible apply Keeps.upd | with_reducible rfl
    | with_reducible exact id | with_reducible exact Or.inl (by assumption) | with_reducible exact Or.inr rfl
    | with_reducible exact Or.inr ⟨rfl, rfl⟩ | with_reducible exact Or.inr ⟨rfl, rfl, rfl⟩
    | with_reducible exact Or.inr ⟨rfl, rfl, rfl, rfl⟩ | with_reducible exact length_map' | (exact fun _ h => h)
    | (exact stores_map fun _ h => h) | (exact stores_map fun _ h => by split <;> exact h) | (exact pools_map fun _ h => h)
    | (exact stores_mapIdx fun _ _ h => h) | (exact pools_modAt fun _ h => h) | (exact fun h => h) | intro _
    | (show Ctx.canon _; assumption) | with_reducible apply Ctx.canon_ite | (show Mem.wf _ = true; assumption)
    | (refine Ctx.canon_cores (by assumption) ?_ ?_) | with_reducible apply Keeps.ite | split)

theorem keeps_migratePageDone {w₀ : Part → Prop} {r₀ : State} (s : State) (asn : Nat) (hk : Keeps w₀ r₀ s)
    (w_regs : w₀ .regs := by first | assumption | exact trivial)
    (w_host : w₀ .host := by first | assumption | exact trivial)
    (w_dies : w₀ .dies := by first | assumption | exact trivial)
    (w_pages : w₀ .pages := by first | assumption | exact trivial)
    (w_moves : w₀ .moves := by first | assumption | exact trivial)
    (w_ctxs : w₀ .ctxs := by first | assumption | exact trivial)
    (w_mem : w₀ .mem := by first | assumption | exact trivial)
    (w_traffic : w₀ .traffic := by first | assumption | exact trivial) :
    Keeps w₀ r₀ (migratePageDone s asn) := by
  unfold migratePageDone
  simp only [State.mk_build]
  repeat' (first
    | with_reducible assumption | with_reducible apply keeps_movePage | with_reducible apply keeps_settleMigration
    | with_reducible apply keeps_releaseHolders | with_reducible apply Keeps.upd | with_reducible rfl
    | with_reducible exact id | with_reducible exact Or.inl (by assumption) | with_reducible exact Or.inr rfl
    | with_reducible exact Or.inr ⟨rfl, rfl⟩ | with_reducible exact Or.inr ⟨rfl, rfl, rfl⟩
    | with_reducible exact Or.inr ⟨rfl, rfl, rfl, rfl⟩ | with_reducible exact length_map' | (exact fun _ h => h) | intro _
    | (show Ctx.canon _; assumption) | with_reducible apply Ctx.canon_ite | (show Mem.wf _ = true; assumption)
    | with_reducible apply Keeps.ite | split)

theorem keeps_startPromotion {w₀ : Part → Prop} {r₀ : State} (s : State) (asn vpn die : Nat) (hk : Keeps w₀ r₀ s)
    (w_pages : w₀ .pages := by first | assumption | exact trivial) :
    Keeps w₀ r₀ (startPromotion s asn vpn die) := by
  unfold startPromotion
  simp only [State.mk_build]
  repeat' (first
    | with_reducible assumption | with_reducible apply Keeps.upd | with_reducible rfl | with_reducible exact id
    | with_reducible exact Or.inl (by assumption) | with_reducible exact Or.inr rfl | with_reducible exact Or.inr ⟨rfl, rfl⟩
    | with_reducible exact Or.inr ⟨rfl, rfl, rfl⟩ | with_reducible exact Or.inr ⟨rfl, rfl, rfl, rfl⟩ | (exact fun _ h => h)
    | intro _ | (show Ctx.canon _; assumption) | with_reducible apply Ctx.canon_ite | (show Mem.wf _ = true; assumption)
    | with_reducible apply Keeps.ite | split)

theorem keeps_promotionDone {w₀ : Part → Prop} {r₀ : State} (s : State) (asn vpn : Nat) (hk : Keeps w₀ r₀ s)
    (w_regs : w₀ .regs := by first | assumption | exact trivial)
    (w_dies : w₀ .dies := by first | assumption | exact trivial)
    (w_pages : w₀ .pages := by first | assumption | exact trivial)
    (w_ctxs : w₀ .ctxs := by first | assumption | exact trivial)
    (w_mem : w₀ .mem := by first | assumption | exact trivial)
    (w_traffic : w₀ .traffic := by first | assumption | exact trivial) :
    Keeps w₀ r₀ (promotionDone s asn vpn) := by
  unfold promotionDone
  simp only [State.mk_build]
  repeat' (first
    | with_reducible assumption | with_reducible apply keeps_movePage | with_reducible apply keeps_releaseHolders
    | with_reducible apply Keeps.upd | with_reducible rfl | with_reducible exact id
    | with_reducible exact Or.inl (by assumption) | with_reducible exact Or.inr rfl | with_reducible exact Or.inr ⟨rfl, rfl⟩
    | with_reducible exact Or.inr ⟨rfl, rfl, rfl⟩ | with_reducible exact Or.inr ⟨rfl, rfl, rfl, rfl⟩ | (exact fun _ h => h)
    | intro _ | (show Ctx.canon _; assumption) | with_reducible apply Ctx.canon_ite | (show Mem.wf _ = true; assumption)
    | with_reducible apply Keeps.ite | split)

theorem keeps_losePages {w₀ : Part → Prop} {r₀ : State} (s : State) (p : Nat) (hk : Keeps w₀ r₀ s)
    (w_pages : w₀ .pages := by first | assumption | exact trivial) :
    Keeps w₀ r₀ (losePages s p) := by
  unfold losePages
  simp only [State.mk_build]
  repeat' (first
    | with_reducible assumption | with_reducible apply Keeps.upd | with_reducible rfl | with_reducible exact id
    | with_reducible exact Or.inl (by assumption) | with_reducible exact Or.inr rfl | with_reducible exact Or.inr ⟨rfl, rfl⟩
    | with_reducible exact Or.inr ⟨rfl, rfl, rfl⟩ | with_reducible exact Or.inr ⟨rfl, rfl, rfl, rfl⟩
    | with_reducible exact length_map' | (exact fun _ h => h) | intro _ | (show Ctx.canon _; assumption)
    | with_reducible apply Ctx.canon_ite | (show Mem.wf _ = true; assumption) | with_reducible apply Keeps.ite | split)

theorem keeps_rerouteDown {w₀ : Part → Prop} {r₀ : State} (s : State) (p : Nat) (m : Migration) (hk : Keeps w₀ r₀ s)
    (w_moves : w₀ .moves := by first | assumption | exact trivial) :
    Keeps w₀ r₀ (rerouteDown s p m) := by
  unfold rerouteDown
  simp only [State.mk_build]
  repeat' (first
    | with_reducible assumption | with_reducible apply Keeps.upd | with_reducible rfl | with_reducible exact id
    | with_reducible exact Or.inl (by assumption) | with_reducible exact Or.inr rfl | with_reducible exact Or.inr ⟨rfl, rfl⟩
    | with_reducible exact Or.inr ⟨rfl, rfl, rfl⟩ | with_reducible exact Or.inr ⟨rfl, rfl, rfl, rfl⟩
    | with_reducible exact length_map' | (exact fun _ h => h) | intro _ | (show Ctx.canon _; assumption)
    | with_reducible apply Ctx.canon_ite | (show Mem.wf _ = true; assumption) | with_reducible apply Keeps.ite | split)

theorem keeps_faultHolder {w₀ : Part → Prop} {r₀ : State} (s : State) (x : Nat × Nat) (hk : Keeps w₀ r₀ s)
    (w_regs : w₀ .regs := by first | assumption | exact trivial)
    (w_host : w₀ .host := by first | assumption | exact trivial)
    (w_dies : w₀ .dies := by first | assumption | exact trivial)
    (w_moves : w₀ .moves := by first | assumption | exact trivial)
    (w_ctxs : w₀ .ctxs := by first | assumption | exact trivial)
    (w_groups : w₀ .groups := by first | assumption | exact trivial)
    (w_codecs : w₀ .codecs := by first | assumption | exact trivial)
    (w_modes : w₀ .modes := by first | assumption | exact trivial)
    (w_acct : w₀ .acct := by first | assumption | exact trivial)
    (w_store : w₀ .store := by first | assumption | exact trivial) :
    Keeps w₀ r₀ (faultHolder s x) := by
  unfold faultHolder
  repeat' (first
    | with_reducible assumption | with_reducible apply keeps_dieFault | with_reducible apply keeps_modCore
    | with_reducible apply Keeps.upd | with_reducible rfl | with_reducible exact id
    | with_reducible exact Or.inl (by assumption) | with_reducible exact Or.inr rfl | with_reducible exact Or.inr ⟨rfl, rfl⟩
    | with_reducible exact Or.inr ⟨rfl, rfl, rfl⟩ | with_reducible exact Or.inr ⟨rfl, rfl, rfl, rfl⟩
    | with_reducible exact length_map' | (exact fun _ h => h) | intro _ | (show Ctx.canon _; assumption)
    | with_reducible apply Ctx.canon_ite | (show Mem.wf _ = true; assumption) | with_reducible apply Keeps.ite | split)

theorem keeps_farPortDown {w₀ : Part → Prop} {r₀ : State} (s : State) (p : Nat) (hk : Keeps w₀ r₀ s)
    (w_regs : w₀ .regs := by first | assumption | exact trivial)
    (w_host : w₀ .host := by first | assumption | exact trivial)
    (w_dies : w₀ .dies := by first | assumption | exact trivial)
    (w_pages : w₀ .pages := by first | assumption | exact trivial)
    (w_moves : w₀ .moves := by first | assumption | exact trivial)
    (w_ctxs : w₀ .ctxs := by first | assumption | exact trivial)
    (w_links : w₀ .links := by first | assumption | exact trivial)
    (w_groups : w₀ .groups := by first | assumption | exact trivial)
    (w_codecs : w₀ .codecs := by first | assumption | exact trivial)
    (w_modes : w₀ .modes := by first | assumption | exact trivial)
    (w_acct : w₀ .acct := by first | assumption | exact trivial)
    (w_store : w₀ .store := by first | assumption | exact trivial) :
    Keeps w₀ r₀ (farPortDown s p) := by
  unfold farPortDown
  simp only [State.mk_build]
  repeat' (first
    | with_reducible assumption | with_reducible apply keeps_sendMsg | with_reducible apply keeps_logFault
    | with_reducible apply keeps_settleMigrations | with_reducible apply keeps_losePages
    | with_reducible apply keeps_rerouteDown | with_reducible apply keeps_faultHolder | with_reducible apply Keeps.foldl
    | with_reducible apply Keeps.upd | with_reducible rfl | with_reducible exact id
    | with_reducible exact Or.inl (by assumption) | with_reducible exact Or.inr rfl | with_reducible exact Or.inr ⟨rfl, rfl⟩
    | with_reducible exact Or.inr ⟨rfl, rfl, rfl⟩ | with_reducible exact Or.inr ⟨rfl, rfl, rfl, rfl⟩
    | with_reducible exact length_modAt | with_reducible exact length_map' | (exact fun _ h => h)
    | (exact fun _ h => canon_map (fun _ h => h) h) | intro _ | (show Ctx.canon _; assumption)
    | with_reducible apply Ctx.canon_ite | (show Mem.wf _ = true; assumption) | with_reducible apply Keeps.ite | split)

theorem keeps_startXfer {w₀ : Part → Prop} {r₀ : State} (h : CmdHdr) (toHost : Bool) (asn w va off n : Nat) (s : State) (hk : Keeps w₀ r₀ s)
    (w_regs : w₀ .regs := by first | assumption | exact trivial)
    (w_host : w₀ .host := by first | assumption | exact trivial)
    (w_moves : w₀ .moves := by first | assumption | exact trivial)
    (w_ids : w₀ .ids := by first | assumption | exact trivial) :
    Keeps w₀ r₀ (startXfer h toHost asn w va off n s) := by
  unfold startXfer
  simp only [State.mk_build]
  repeat' (first
    | with_reducible assumption | with_reducible apply keeps_complete | with_reducible apply Keeps.upd | with_reducible rfl
    | with_reducible exact id | with_reducible exact Or.inl (by assumption) | with_reducible exact Or.inr rfl
    | with_reducible exact Or.inr ⟨rfl, rfl⟩ | with_reducible exact Or.inr ⟨rfl, rfl, rfl⟩
    | with_reducible exact Or.inr ⟨rfl, rfl, rfl, rfl⟩ | (exact fun _ h => h) | intro _ | (show Ctx.canon _; assumption)
    | with_reducible apply Ctx.canon_ite | (show Mem.wf _ = true; assumption) | with_reducible apply Keeps.ite | split)

theorem keeps_seenIn {w₀ : Part → Prop} {r₀ : State} (s : State) (asn va n : Nat) (hk : Keeps w₀ r₀ s)
    (w_regs : w₀ .regs := by first | assumption | exact trivial) :
    Keeps w₀ r₀ (seenIn s asn va n) := by
  unfold seenIn
  repeat' (first
    | with_reducible assumption | with_reducible apply keeps_poisonSeen | with_reducible apply Keeps.foldl | intro _
    | split)

theorem keeps_xferComplete {w₀ : Part → Prop} {r₀ : State} (s : State) (id : Nat) (host : HostRead) (hk : Keeps w₀ r₀ s)
    (w_regs : w₀ .regs := by first | assumption | exact trivial)
    (w_host : w₀ .host := by first | assumption | exact trivial)
    (w_dies : w₀ .dies := by first | assumption | exact trivial)
    (w_pages : w₀ .pages := by first | assumption | exact trivial)
    (w_moves : w₀ .moves := by first | assumption | exact trivial)
    (w_mem : w₀ .mem := by first | assumption | exact trivial)
    (w_traffic : w₀ .traffic := by first | assumption | exact trivial) :
    Keeps w₀ r₀ (xferComplete s id host) := by
  unfold xferComplete
  simp only [State.mk_build]
  repeat' (first
    | with_reducible assumption | with_reducible apply keeps_complete | with_reducible apply keeps_meetVirt
    | with_reducible apply keeps_hubReadsVirt | with_reducible apply keeps_agentWrite | with_reducible apply Keeps.upd
    | with_reducible rfl | with_reducible exact id | with_reducible exact Or.inl (by assumption)
    | with_reducible exact Or.inr rfl | with_reducible exact Or.inr ⟨rfl, rfl⟩ | with_reducible exact Or.inr ⟨rfl, rfl, rfl⟩
    | with_reducible exact Or.inr ⟨rfl, rfl, rfl, rfl⟩ | (exact fun _ h => h) | intro _ | (show Ctx.canon _; assumption)
    | with_reducible apply Ctx.canon_ite | (show Mem.wf _ = true; assumption) | with_reducible apply Keeps.ite | split)

theorem keeps_copyVirt {w₀ : Part → Prop} {r₀ : State} (s0 : State) (asn src dst n : Nat) (hk : Keeps w₀ r₀ s0)
    (w_regs : w₀ .regs := by first | assumption | exact trivial)
    (w_dies : w₀ .dies := by first | assumption | exact trivial)
    (w_pages : w₀ .pages := by first | assumption | exact trivial)
    (w_moves : w₀ .moves := by first | assumption | exact trivial)
    (w_mem : w₀ .mem := by first | assumption | exact trivial)
    (w_traffic : w₀ .traffic := by first | assumption | exact trivial) :
    Keeps w₀ r₀ (copyVirt s0 asn src dst n) := by
  unfold copyVirt
  dsimp only
  repeat' (first
    | with_reducible assumption | with_reducible apply keeps_poisonVirt | with_reducible apply keeps_agentWrite
    | with_reducible apply keeps_agentReads | with_reducible apply keeps_seenIn | intro _)

theorem keeps_endDecant {w₀ : Part → Prop} {r₀ : State} (s : State) (d : Decant) (hk : Keeps w₀ r₀ s)
    (w_moves : w₀ .moves := by first | assumption | exact trivial)
    (w_ctxs : w₀ .ctxs := by first | assumption | exact trivial) :
    Keeps w₀ r₀ (endDecant s d) := by
  unfold endDecant
  simp only [State.mk_build]
  repeat' (first
    | with_reducible assumption | with_reducible apply keeps_addSem | with_reducible apply keeps_pruneFences
    | with_reducible apply Keeps.upd | with_reducible rfl | with_reducible exact id
    | with_reducible exact Or.inl (by assumption) | with_reducible exact Or.inr rfl | with_reducible exact Or.inr ⟨rfl, rfl⟩
    | with_reducible exact Or.inr ⟨rfl, rfl, rfl⟩ | with_reducible exact Or.inr ⟨rfl, rfl, rfl, rfl⟩ | (exact fun _ h => h)
    | intro _ | (show Ctx.canon _; assumption) | with_reducible apply Ctx.canon_ite | (show Mem.wf _ = true; assumption))

theorem keeps_decantPage {w₀ : Part → Prop} {r₀ : State} (s : State) (id : Nat) (host : HostRead) (hk : Keeps w₀ r₀ s)
    (w_regs : w₀ .regs := by first | assumption | exact trivial)
    (w_dies : w₀ .dies := by first | assumption | exact trivial)
    (w_pages : w₀ .pages := by first | assumption | exact trivial)
    (w_moves : w₀ .moves := by first | assumption | exact trivial)
    (w_ctxs : w₀ .ctxs := by first | assumption | exact trivial)
    (w_mem : w₀ .mem := by first | assumption | exact trivial)
    (w_traffic : w₀ .traffic := by first | assumption | exact trivial) :
    Keeps w₀ r₀ (decantPage s id host) := by
  unfold decantPage
  simp only [State.mk_build]
  repeat' (first
    | with_reducible assumption | with_reducible apply keeps_agentWrite | with_reducible apply keeps_stopJob
    | with_reducible apply keeps_pruneFences | with_reducible apply keeps_copyVirt | with_reducible apply keeps_endDecant
    | with_reducible apply Keeps.upd | with_reducible rfl | with_reducible exact id
    | with_reducible exact Or.inl (by assumption) | with_reducible exact Or.inr rfl | with_reducible exact Or.inr ⟨rfl, rfl⟩
    | with_reducible exact Or.inr ⟨rfl, rfl, rfl⟩ | with_reducible exact Or.inr ⟨rfl, rfl, rfl, rfl⟩
    | with_reducible exact length_map' | (exact fun _ h => h) | intro _ | (show Ctx.canon _; assumption)
    | with_reducible apply Ctx.canon_ite | (show Mem.wf _ = true; assumption) | with_reducible apply Keeps.ite | split)

theorem keeps_failXfer {w₀ : Part → Prop} {r₀ : State} (s : State) (x : Xfer) (hk : Keeps w₀ r₀ s)
    (w_regs : w₀ .regs := by first | assumption | exact trivial)
    (w_host : w₀ .host := by first | assumption | exact trivial)
    (w_moves : w₀ .moves := by first | assumption | exact trivial) :
    Keeps w₀ r₀ (failXfer s x) := by
  unfold failXfer
  simp only [State.mk_build]
  repeat' (first
    | with_reducible assumption | with_reducible apply keeps_complete | with_reducible apply Keeps.upd | with_reducible rfl
    | with_reducible exact id | with_reducible exact Or.inl (by assumption) | with_reducible exact Or.inr rfl
    | with_reducible exact Or.inr ⟨rfl, rfl⟩ | with_reducible exact Or.inr ⟨rfl, rfl, rfl⟩
    | with_reducible exact Or.inr ⟨rfl, rfl, rfl, rfl⟩ | (exact fun _ h => h) | intro _ | (show Ctx.canon _; assumption)
    | with_reducible apply Ctx.canon_ite | (show Mem.wf _ = true; assumption))

theorem keeps_failHostReads {w₀ : Part → Prop} {r₀ : State} (s : State) (hk : Keeps w₀ r₀ s)
    (w_regs : w₀ .regs := by first | assumption | exact trivial)
    (w_host : w₀ .host := by first | assumption | exact trivial)
    (w_dies : w₀ .dies := by first | assumption | exact trivial)
    (w_pages : w₀ .pages := by first | assumption | exact trivial)
    (w_moves : w₀ .moves := by first | assumption | exact trivial)
    (w_ctxs : w₀ .ctxs := by first | assumption | exact trivial)
    (w_mem : w₀ .mem := by first | assumption | exact trivial)
    (w_traffic : w₀ .traffic := by first | assumption | exact trivial) :
    Keeps w₀ r₀ (failHostReads s) := by
  unfold failHostReads
  dsimp only
  repeat' (first
    | with_reducible assumption | with_reducible apply keeps_decantPage | with_reducible apply keeps_failXfer
    | with_reducible apply Keeps.foldl | intro _ | with_reducible apply Keeps.ite | split)

theorem keeps_hostLinkReset {w₀ : Part → Prop} {r₀ : State} (s : State) (hk : Keeps w₀ r₀ s)
    (w_regs : w₀ .regs := by first | assumption | exact trivial)
    (w_host : w₀ .host := by first | assumption | exact trivial)
    (w_dies : w₀ .dies := by first | assumption | exact trivial)
    (w_pages : w₀ .pages := by first | assumption | exact trivial)
    (w_moves : w₀ .moves := by first | assumption | exact trivial)
    (w_ctxs : w₀ .ctxs := by first | assumption | exact trivial)
    (w_mem : w₀ .mem := by first | assumption | exact trivial)
    (w_traffic : w₀ .traffic := by first | assumption | exact trivial) :
    Keeps w₀ r₀ (hostLinkReset s) := by
  unfold hostLinkReset
  simp only [State.mk_build]
  repeat' (first
    | with_reducible assumption | with_reducible apply keeps_setReg | with_reducible apply keeps_failHostReads
    | with_reducible apply Keeps.foldl | with_reducible apply Keeps.upd | with_reducible rfl | with_reducible exact id
    | with_reducible exact Or.inl (by assumption) | with_reducible exact Or.inr rfl | with_reducible exact Or.inr ⟨rfl, rfl⟩
    | with_reducible exact Or.inr ⟨rfl, rfl, rfl⟩ | with_reducible exact Or.inr ⟨rfl, rfl, rfl, rfl⟩
    | with_reducible exact length_map' | (exact fun _ h => h) | intro _ | (show Ctx.canon _; assumption)
    | with_reducible apply Ctx.canon_ite | (show Mem.wf _ = true; assumption))

theorem keeps_lowered {w₀ : Part → Prop} {r₀ : State} (s : State) (asn tier old use new : Nat) (hk : Keeps w₀ r₀ s)
    (w_regs : w₀ .regs := by first | assumption | exact trivial)
    (w_host : w₀ .host := by first | assumption | exact trivial) :
    Keeps w₀ r₀ (lowered s asn tier old use new) := by
  unfold lowered
  repeat' (first
    | with_reducible assumption | with_reducible apply keeps_sendQuota | intro _ | with_reducible apply Keeps.ite | split)

theorem keeps_nearQuotaWrite {w₀ : Part → Prop} {r₀ : State} (s : State) (asn : Nat) (v : Word) (hk : Keeps w₀ r₀ s)
    (w_regs : w₀ .regs := by first | assumption | exact trivial)
    (w_host : w₀ .host := by first | assumption | exact trivial) :
    Keeps w₀ r₀ (nearQuotaWrite s asn v) := by
  unfold nearQuotaWrite
  dsimp only
  repeat' (first
    | with_reducible assumption | with_reducible apply keeps_setBits | with_reducible apply keeps_storeMasked
    | with_reducible apply keeps_lowered | intro _ | with_reducible apply Keeps.ite | split)

theorem keeps_cellarQuotaWrite {w₀ : Part → Prop} {r₀ : State} (s : State) (asn : Nat) (v : Word) (hk : Keeps w₀ r₀ s)
    (w_regs : w₀ .regs := by first | assumption | exact trivial)
    (w_host : w₀ .host := by first | assumption | exact trivial) :
    Keeps w₀ r₀ (cellarQuotaWrite s asn v) := by
  unfold cellarQuotaWrite
  dsimp only
  repeat' (first
    | with_reducible assumption | with_reducible apply keeps_setBits | with_reducible apply keeps_storeMasked
    | with_reducible apply keeps_lowered | intro _ | with_reducible apply Keeps.ite | split)

theorem keeps_hwWrite {w₀ : Part → Prop} {r₀ : State} (s : State) (asn w reg : Nat) (v : Word) (hk : Keeps w₀ r₀ s)
    (w_regs : w₀ .regs := by first | assumption | exact trivial) :
    Keeps w₀ r₀ (hwWrite s asn w reg v) := by
  unfold hwWrite
  repeat' (first
    | with_reducible assumption | with_reducible apply keeps_setBits | with_reducible apply keeps_storeMasked | intro _
    | with_reducible apply Keeps.ite | split)

theorem keeps_tierStall {w₀ : Part → Prop} {r₀ : State} (s : State) (asn sem : Nat) (hk : Keeps w₀ r₀ s)
    (w_regs : w₀ .regs := by first | assumption | exact trivial)
    (w_host : w₀ .host := by first | assumption | exact trivial)
    (w_ctxs : w₀ .ctxs := by first | assumption | exact trivial) :
    Keeps w₀ r₀ (tierStall s asn sem) := by
  unfold tierStall
  dsimp only
  repeat' (first
    | with_reducible assumption | with_reducible apply keeps_sendMsg | with_reducible apply keeps_modCtx
    | with_reducible apply Keeps.upd | with_reducible rfl | with_reducible exact id
    | with_reducible exact Or.inl (by assumption) | with_reducible exact Or.inr rfl | with_reducible exact Or.inr ⟨rfl, rfl⟩
    | with_reducible exact Or.inr ⟨rfl, rfl, rfl⟩ | with_reducible exact Or.inr ⟨rfl, rfl, rfl, rfl⟩
    | with_reducible exact length_map' | (exact fun _ h => h) | intro _ | (show Ctx.canon _; assumption)
    | with_reducible apply Ctx.canon_ite | (show Mem.wf _ = true; assumption) | with_reducible apply Keeps.ite | split)

end Sys2Proof.Machine
end

