-- ==== Sys2Proof/Laws/KeepsNearMem.lean ====
section
/-! SUPPORT. Laws/KeepsNearMem.lean: what the operations of Machine/NearMem.lean keep. -/

set_option Elab.async false

namespace Sys2Proof.Machine

theorem keeps_patrolScrub {w₀ : Part → Prop} {r₀ : State} (s : State) (d mc chan line row : Nat) (correctable : Bool) (hk : Keeps w₀ r₀ s)
    (w_dies : w₀ .dies := by first | assumption | exact trivial)
    (w_mem : w₀ .mem := by first | assumption | exact trivial) :
    Keeps w₀ r₀ (patrolScrub s d mc chan line row correctable) := by
  unfold patrolScrub
  simp only [State.mk_build]
  repeat' (first
    | with_reducible assumption | with_reducible apply keeps_meetCell | with_reducible apply Keeps.upd | with_reducible rfl
    | with_reducible exact id | with_reducible exact Or.inl (by assumption) | with_reducible exact Or.inr rfl
    | with_reducible exact Or.inr ⟨rfl, rfl⟩ | with_reducible exact Or.inr ⟨rfl, rfl, rfl⟩
    | with_reducible exact Or.inr ⟨rfl, rfl, rfl, rfl⟩ | (exact fun _ h => h) | intro _ | (show Ctx.canon _; assumption)
    | with_reducible apply Ctx.canon_ite | (show Mem.wf _ = true; assumption) | with_reducible apply Keeps.ite | split)

theorem keeps_sendChan {w₀ : Part → Prop} {r₀ : State} (s : State) (kind d mc chan row : Nat) (hk : Keeps w₀ r₀ s)
    (w_regs : w₀ .regs := by first | assumption | exact trivial)
    (w_host : w₀ .host := by first | assumption | exact trivial)
    (w_store : w₀ .store := by first | assumption | exact trivial) :
    Keeps w₀ r₀ (sendChan s kind d mc chan row) := by
  unfold sendChan
  repeat' (first
    | with_reducible assumption | with_reducible apply keeps_logFault | with_reducible apply keeps_sendRepair | intro _)

theorem keeps_copyCell {w₀ : Part → Prop} {r₀ : State} (d mc : Nat) (s : State) (c : CellError) (hk : Keeps w₀ r₀ s)
    (w_dies : w₀ .dies := by first | assumption | exact trivial)
    (w_mem : w₀ .mem := by first | assumption | exact trivial) :
    Keeps w₀ r₀ (copyCell d mc s c) := by
  unfold copyCell
  simp only [State.mk_build]
  repeat' (first
    | with_reducible assumption | with_reducible apply keeps_modMc | with_reducible apply keeps_addPoison
    | with_reducible apply Keeps.upd | with_reducible rfl | with_reducible exact id
    | with_reducible exact Or.inl (by assumption) | with_reducible exact Or.inr rfl | with_reducible exact Or.inr ⟨rfl, rfl⟩
    | with_reducible exact Or.inr ⟨rfl, rfl, rfl⟩ | with_reducible exact Or.inr ⟨rfl, rfl, rfl, rfl⟩ | (exact fun _ h => h)
    | intro _ | (show Ctx.canon _; assumption) | with_reducible apply Ctx.canon_ite | (show Mem.wf _ = true; assumption)
    | with_reducible apply Keeps.ite | split)

theorem keeps_rowRemap {w₀ : Part → Prop} {r₀ : State} (s : State) (d mc chan row : Nat) (hk : Keeps w₀ r₀ s)
    (w_regs : w₀ .regs := by first | assumption | exact trivial)
    (w_host : w₀ .host := by first | assumption | exact trivial)
    (w_dies : w₀ .dies := by first | assumption | exact trivial)
    (w_store : w₀ .store := by first | assumption | exact trivial)
    (w_mem : w₀ .mem := by first | assumption | exact trivial) :
    Keeps w₀ r₀ (rowRemap s d mc chan row) := by
  unfold rowRemap
  dsimp only
  repeat' (first
    | with_reducible assumption | with_reducible apply keeps_modMc | with_reducible apply keeps_modChan
    | with_reducible apply keeps_sendChan | with_reducible apply keeps_copyCell | with_reducible apply Keeps.foldl
    | with_reducible apply Keeps.upd | with_reducible rfl | with_reducible exact id
    | with_reducible exact Or.inl (by assumption) | with_reducible exact Or.inr rfl | with_reducible exact Or.inr ⟨rfl, rfl⟩
    | with_reducible exact Or.inr ⟨rfl, rfl, rfl⟩ | with_reducible exact Or.inr ⟨rfl, rfl, rfl, rfl⟩ | (exact fun _ h => h)
    | intro _ | (show Ctx.canon _; assumption) | with_reducible apply Ctx.canon_ite | (show Mem.wf _ = true; assumption)
    | with_reducible apply Keeps.ite | split)

theorem keeps_poisonReader {w₀ : Part → Prop} {r₀ : State} (s : State) (reader : CaReader) (hk : Keeps w₀ r₀ s)
    (w_regs : w₀ .regs := by first | assumption | exact trivial)
    (w_host : w₀ .host := by first | assumption | exact trivial)
    (w_dies : w₀ .dies := by first | assumption | exact trivial)
    (w_moves : w₀ .moves := by first | assumption | exact trivial)
    (w_ctxs : w₀ .ctxs := by first | assumption | exact trivial)
    (w_groups : w₀ .groups := by first | assumption | exact trivial)
    (w_codecs : w₀ .codecs := by first | assumption | exact trivial)
    (w_modes : w₀ .modes := by first | assumption | exact trivial)
    (w_acct : w₀ .acct := by first | assumption | exact trivial)
    (w_store : w₀ .store := by first | assumption | exact trivial)
    (w_mem : w₀ .mem := by first | assumption | exact trivial) :
    Keeps w₀ r₀ (poisonReader s reader) := by
  unfold poisonReader
  simp only [State.mk_build]
  repeat' (first
    | with_reducible assumption | with_reducible apply keeps_complete | with_reducible apply keeps_addPoison
    | with_reducible apply keeps_stopJob | with_reducible apply keeps_dieFault | with_reducible apply Keeps.upd
    | with_reducible rfl | with_reducible exact id | with_reducible exact Or.inl (by assumption)
    | with_reducible exact Or.inr rfl | with_reducible exact Or.inr ⟨rfl, rfl⟩ | with_reducible exact Or.inr ⟨rfl, rfl, rfl⟩
    | with_reducible exact Or.inr ⟨rfl, rfl, rfl, rfl⟩ | (exact fun _ h => h) | intro _ | (show Ctx.canon _; assumption)
    | with_reducible apply Ctx.canon_ite | (show Mem.wf _ = true; assumption) | with_reducible apply Keeps.ite | split)

theorem keeps_caFailed {w₀ : Part → Prop} {r₀ : State} (s : State) (d mc : Nat) (read : Bool) (line : Nat) (reader : CaReader) (hk : Keeps w₀ r₀ s)
    (w_regs : w₀ .regs := by first | assumption | exact trivial)
    (w_host : w₀ .host := by first | assumption | exact trivial)
    (w_dies : w₀ .dies := by first | assumption | exact trivial)
    (w_moves : w₀ .moves := by first | assumption | exact trivial)
    (w_ctxs : w₀ .ctxs := by first | assumption | exact trivial)
    (w_groups : w₀ .groups := by first | assumption | exact trivial)
    (w_codecs : w₀ .codecs := by first | assumption | exact trivial)
    (w_modes : w₀ .modes := by first | assumption | exact trivial)
    (w_acct : w₀ .acct := by first | assumption | exact trivial)
    (w_store : w₀ .store := by first | assumption | exact trivial)
    (w_mem : w₀ .mem := by first | assumption | exact trivial) :
    Keeps w₀ r₀ (caFailed s d mc read line reader) := by
  unfold caFailed
  dsimp only
  repeat' (first
    | with_reducible assumption | with_reducible apply keeps_modMc | with_reducible apply keeps_addPoison
    | with_reducible apply keeps_poisonReader | with_reducible apply Keeps.upd | with_reducible rfl
    | with_reducible exact id | with_reducible exact Or.inl (by assumption) | with_reducible exact Or.inr rfl
    | with_reducible exact Or.inr ⟨rfl, rfl⟩ | with_reducible exact Or.inr ⟨rfl, rfl, rfl⟩
    | with_reducible exact Or.inr ⟨rfl, rfl, rfl, rfl⟩ | (exact fun _ h => h) | intro _ | (show Ctx.canon _; assumption)
    | with_reducible apply Ctx.canon_ite | (show Mem.wf _ = true; assumption) | with_reducible apply Keeps.ite | split)

theorem keeps_caParity {w₀ : Part → Prop} {r₀ : State} (s : State) (d mc chan retries : Nat) (read : Bool) (line : Nat) (reader : CaReader) (hk : Keeps w₀ r₀ s)
    (w_regs : w₀ .regs := by first | assumption | exact trivial)
    (w_host : w₀ .host := by first | assumption | exact trivial)
    (w_dies : w₀ .dies := by first | assumption | exact trivial)
    (w_moves : w₀ .moves := by first | assumption | exact trivial)
    (w_ctxs : w₀ .ctxs := by first | assumption | exact trivial)
    (w_groups : w₀ .groups := by first | assumption | exact trivial)
    (w_codecs : w₀ .codecs := by first | assumption | exact trivial)
    (w_modes : w₀ .modes := by first | assumption | exact trivial)
    (w_acct : w₀ .acct := by first | assumption | exact trivial)
    (w_store : w₀ .store := by first | assumption | exact trivial)
    (w_mem : w₀ .mem := by first | assumption | exact trivial) :
    Keeps w₀ r₀ (caParity s d mc chan retries read line reader) := by
  unfold caParity
  dsimp only
  repeat' (first
    | with_reducible assumption | with_reducible apply keeps_modMc | with_reducible apply keeps_modChan
    | with_reducible apply keeps_sendChan | with_reducible apply keeps_caFailed | with_reducible apply Keeps.upd
    | with_reducible rfl | with_reducible exact id | with_reducible exact Or.inl (by assumption)
    | with_reducible exact Or.inr rfl | with_reducible exact Or.inr ⟨rfl, rfl⟩ | with_reducible exact Or.inr ⟨rfl, rfl, rfl⟩
    | with_reducible exact Or.inr ⟨rfl, rfl, rfl, rfl⟩ | (exact fun _ h => h) | intro _ | (show Ctx.canon _; assumption)
    | with_reducible apply Ctx.canon_ite | (show Mem.wf _ = true; assumption) | with_reducible apply Keeps.ite | split)

theorem keeps_clearReadMax {w₀ : Part → Prop} {r₀ : State} (s : State) (stack : Nat) (hk : Keeps w₀ r₀ s)
    (w_traffic : w₀ .traffic := by first | assumption | exact trivial) :
    Keeps w₀ r₀ (clearReadMax s stack) := by
  unfold clearReadMax
  simp only [State.mk_build]
  repeat' (first
    | with_reducible assumption | with_reducible apply keeps_Env.reads | with_reducible apply Keeps.upd | with_reducible rfl
    | with_reducible exact id | with_reducible exact Or.inl (by assumption) | with_reducible exact Or.inr rfl
    | with_reducible exact Or.inr ⟨rfl, rfl⟩ | with_reducible exact Or.inr ⟨rfl, rfl, rfl⟩
    | with_reducible exact Or.inr ⟨rfl, rfl, rfl, rfl⟩ | with_reducible exact length_modAt | (exact fun _ h => h) | intro _
    | (show Ctx.canon _; assumption) | with_reducible apply Ctx.canon_ite | (show Mem.wf _ = true; assumption))

theorem keeps_c0LatClr {w₀ : Part → Prop} {r₀ : State} (s : State) (d mc : Nat) (v : Word) (hk : Keeps w₀ r₀ s)
    (w_traffic : w₀ .traffic := by first | assumption | exact trivial) :
    Keeps w₀ r₀ (c0LatClr s d mc v) := by
  unfold c0LatClr
  repeat' (first
    | with_reducible assumption | with_reducible apply keeps_clearReadMax | intro _ | with_reducible apply Keeps.ite
    | split)

theorem keeps_clearPeak {w₀ : Part → Prop} {r₀ : State} (s : State) (d : Nat) (hk : Keeps w₀ r₀ s)
    (w_traffic : w₀ .traffic := by first | assumption | exact trivial) :
    Keeps w₀ r₀ (clearPeak s d) := by
  unfold clearPeak
  simp only [State.mk_build]
  repeat' (first
    | with_reducible assumption | with_reducible apply Keeps.upd | with_reducible rfl | with_reducible exact id
    | with_reducible exact Or.inl (by assumption) | with_reducible exact Or.inr rfl | with_reducible exact Or.inr ⟨rfl, rfl⟩
    | with_reducible exact Or.inr ⟨rfl, rfl, rfl⟩ | with_reducible exact Or.inr ⟨rfl, rfl, rfl, rfl⟩
    | with_reducible exact length_modAt | (exact fun _ h => h) | intro _ | (show Ctx.canon _; assumption)
    | with_reducible apply Ctx.canon_ite | (show Mem.wf _ = true; assumption))

theorem keeps_trkPeakClr {w₀ : Part → Prop} {r₀ : State} (s : State) (d : Nat) (v : Word) (hk : Keeps w₀ r₀ s)
    (w_traffic : w₀ .traffic := by first | assumption | exact trivial) :
    Keeps w₀ r₀ (trkPeakClr s d v) := by
  unfold trkPeakClr
  repeat' (first
    | with_reducible assumption | with_reducible apply keeps_clearPeak | intro _ | with_reducible apply Keeps.ite | split)

end Sys2Proof.Machine
end

