-- ==== Sys2Proof/Laws/KeepsContexts.lean ====
section
/-! SUPPORT. Laws/KeepsContexts.lean: what the operations of Machine/Contexts.lean keep. -/

set_option Elab.async false

namespace Sys2Proof.Machine

theorem keeps_rejectCtx {w₀ : Part → Prop} {r₀ : State} (s : State) (h : CmdHdr) (cmd asn : Nat) (set : List Nat) (hk : Keeps w₀ r₀ s)
    (w_regs : w₀ .regs := by first | assumption | exact trivial)
    (w_host : w₀ .host := by first | assumption | exact trivial) :
    Keeps w₀ r₀ (rejectCtx s h cmd asn set) := by
  unfold rejectCtx
  dsimp only
  repeat' (first
    | with_reducible assumption | with_reducible apply keeps_sendMsg | with_reducible apply keeps_complete | intro _)

theorem keeps_loadPrec {w₀ : Part → Prop} {r₀ : State} (s : State) (c : Ctx) (hk : Keeps w₀ r₀ s)
    (w_regs : w₀ .regs := by first | assumption | exact trivial) :
    Keeps w₀ r₀ (loadPrec s c) := by
  unfold loadPrec
  dsimp only
  repeat' (first
    | with_reducible assumption | with_reducible apply keeps_setReg | with_reducible apply keeps_clearPrec
    | with_reducible apply Keeps.foldl | with_reducible exact length_map' | intro _ | with_reducible apply Keeps.ite
    | split)

theorem keeps_makeResident {w₀ : Part → Prop} {r₀ : State} (s : State) (c : Ctx) (set : List Nat) (hk : Keeps w₀ r₀ s)
    (hc : r₀.Inv → c.canon)
    (w_regs : w₀ .regs := by first | assumption | exact trivial)
    (w_dies : w₀ .dies := by first | assumption | exact trivial)
    (w_ctxs : w₀ .ctxs := by first | assumption | exact trivial) : Keeps w₀ r₀ (makeResident s c set) := by
  unfold makeResident
  refine keeps_resettle _ (keeps_modCtx (keeps_loadPrec _ _ ?_) fun _ h => h)
  rw [State.mk_build]
  refine hk.upd rfl id id id id id id (fun i h => canon_append (canon_filter h) fun x hx => ?_) fun _ h => h
  cases List.mem_singleton.1 hx
  exact hc i

theorem keeps_readImageAt {w₀ : Part → Prop} {r₀ : State} (s : State) (asn va n : Nat) (hk : Keeps w₀ r₀ s)
    (w_dies : w₀ .dies := by first | assumption | exact trivial)
    (w_mem : w₀ .mem := by first | assumption | exact trivial)
    (w_traffic : w₀ .traffic := by first | assumption | exact trivial) :
    Keeps w₀ r₀ (readImageAt s asn va n) := by
  unfold readImageAt
  repeat' (first
    | with_reducible assumption | with_reducible apply keeps_agentReads | intro _ | with_reducible apply Keeps.ite | split)

theorem keeps_ensureSpace {w₀ : Part → Prop} {r₀ : State} (s : State) (asn : Nat) (hk : Keeps w₀ r₀ s)
    (w_pages : w₀ .pages := by first | assumption | exact trivial) :
    Keeps w₀ r₀ (ensureSpace s asn) := by
  unfold ensureSpace
  simp only [State.mk_build]
  repeat' (first
    | with_reducible assumption | with_reducible apply Keeps.upd | with_reducible rfl | with_reducible exact id
    | with_reducible exact Or.inl (by assumption) | with_reducible exact Or.inr rfl | with_reducible exact Or.inr ⟨rfl, rfl⟩
    | with_reducible exact Or.inr ⟨rfl, rfl, rfl⟩ | with_reducible exact Or.inr ⟨rfl, rfl, rfl, rfl⟩ | (exact fun _ h => h)
    | intro _ | (show Ctx.canon _; assumption) | with_reducible apply Ctx.canon_ite | (show Mem.wf _ = true; assumption)
    | with_reducible apply Keeps.ite | split)

theorem Ctx.tidy_canon (c : Ctx) : c.tidy.canon := by
  constructor
  · intro k hk
    obtain ⟨x, -, rfl⟩ := List.mem_map.1 hk
    exact Mem.wf_tidy _
  · intro q hq
    obtain ⟨x, -, rfl⟩ := List.mem_map.1 hq
    exact Mem.wf_tidy _

theorem findImage_canon {s : State} {asn va n : Nat} {i : CorkImage} (he : ∀ c ∈ s.exported, c.canon)
    (h : findImage s asn va n = some i) : i.ctx.canon := by
  unfold findImage at h
  dsimp only at h
  split at h
  · rename_i c hc
    cases h
    exact he c (List.mem_of_find?_eq_some hc)
  · obtain ⟨j, -, rfl⟩ := Option.map_eq_some_iff.1 h
    exact Ctx.tidy_canon _

theorem newCtx_canon (asn cls : Nat) (cd6 : Bool) (sliceUs : Nat) (set : List Nat) : (newCtx asn cls cd6 sliceUs set).canon := by
  constructor
  · intro k hk
    rw [List.eq_of_mem_replicate hk]
    rfl
  · intro q hq
    rw [List.eq_of_mem_replicate hq]
    rfl

theorem createFrom_canon {s : State} {h : CmdHdr} {asn cls kind sliceUs : Nat} {set : List Nat} {va : Nat} {c : Ctx}
    (he : ∀ c ∈ s.exported, c.canon) (hc : createFrom s h asn cls kind sliceUs set va = .ok c) : c.canon := by
  unfold createFrom at hc
  split at hc
  · cases hc
    exact newCtx_canon ..
  · split at hc
    · cases hc
    · split at hc
      · cases hc
      · rename_i hi
        split at hc
        · cases hc
        · split at hc
          · cases hc
          · cases hc
            exact findImage_canon he hi

theorem keeps_startCreate {w₀ : Part → Prop} {r₀ : State} (h : CmdHdr) (asn cls kind sliceUs clusters imageVA resumeVA resumeCount : Nat) (s : State)
    (hk : Keeps w₀ r₀ s)
    (w_regs : w₀ .regs := by first | assumption | exact trivial)
    (w_host : w₀ .host := by first | assumption | exact trivial)
    (w_dies : w₀ .dies := by first | assumption | exact trivial)
    (w_pages : w₀ .pages := by first | assumption | exact trivial)
    (w_ctxs : w₀ .ctxs := by first | assumption | exact trivial)
    (w_mem : w₀ .mem := by first | assumption | exact trivial)
    (w_traffic : w₀ .traffic := by first | assumption | exact trivial) : Keeps w₀ r₀ (startCreate h asn cls kind sliceUs clusters imageVA resumeVA resumeCount s) := by
  have hs : ∀ n, Keeps w₀ r₀ (readImageAt s asn imageVA n) := fun _ => keeps_readImageAt _ _ _ _ hk
  unfold startCreate
  dsimp only
  repeat' (first
    | with_reducible assumption | exact hs _ | with_reducible apply keeps_complete | with_reducible apply keeps_failQuota
    | with_reducible apply keeps_rejectCtx | with_reducible apply keeps_ensureSpace | with_reducible apply keeps_makeResident
    | with_reducible apply Keeps.foldl | (intro _ _ _; with_reducible apply keeps_hubWrites) | with_reducible apply Keeps.ite | split)
  all_goals
    rename_i hc
    exact fun i => (createFrom_canon ((hs _).inv i).exported hc : Ctx.canon _)

theorem keeps_startDestroy {w₀ : Part → Prop} {r₀ : State} (h : CmdHdr) (asn : Nat) (s : State) (hk : Keeps w₀ r₀ s)
    (w_regs : w₀ .regs := by first | assumption | exact trivial)
    (w_host : w₀ .host := by first | assumption | exact trivial)
    (w_dies : w₀ .dies := by first | assumption | exact trivial)
    (w_moves : w₀ .moves := by first | assumption | exact trivial)
    (w_ctxs : w₀ .ctxs := by first | assumption | exact trivial)
    (w_acct : w₀ .acct := by first | assumption | exact trivial) :
    Keeps w₀ r₀ (startDestroy h asn s) := by
  unfold startDestroy
  repeat' (first
    | with_reducible assumption | with_reducible apply keeps_complete | with_reducible apply keeps_destroyCtx | intro _
    | with_reducible apply Keeps.ite | split)

theorem keeps_startCtxCork {w₀ : Part → Prop} {r₀ : State} (h : CmdHdr) (asn : Nat) (s : State) (hk : Keeps w₀ r₀ s)
    (w_regs : w₀ .regs := by first | assumption | exact trivial)
    (w_host : w₀ .host := by first | assumption | exact trivial)
    (w_ctxs : w₀ .ctxs := by first | assumption | exact trivial)
    (w_acct : w₀ .acct := by first | assumption | exact trivial) :
    Keeps w₀ r₀ (startCtxCork h asn s) := by
  unfold startCtxCork
  repeat' (first
    | with_reducible assumption | with_reducible apply keeps_complete | with_reducible apply keeps_startCork
    | with_reducible apply keeps_modCtx | with_reducible apply Keeps.upd | with_reducible rfl | with_reducible exact id
    | with_reducible exact Or.inl (by assumption) | with_reducible exact Or.inr rfl | with_reducible exact Or.inr ⟨rfl, rfl⟩
    | with_reducible exact Or.inr ⟨rfl, rfl, rfl⟩ | with_reducible exact Or.inr ⟨rfl, rfl, rfl, rfl⟩ | (exact fun _ h => h)
    | intro _ | (show Ctx.canon _; assumption) | with_reducible apply Ctx.canon_ite | (show Mem.wf _ = true; assumption)
    | with_reducible apply Keeps.ite | split)

theorem keeps_startUncork {w₀ : Part → Prop} {r₀ : State} (h : CmdHdr) (asn clusters : Nat) (s : State) (hk : Keeps w₀ r₀ s)
    (w_regs : w₀ .regs := by first | assumption | exact trivial)
    (w_host : w₀ .host := by first | assumption | exact trivial)
    (w_dies : w₀ .dies := by first | assumption | exact trivial)
    (w_ctxs : w₀ .ctxs := by first | assumption | exact trivial)
    (w_acct : w₀ .acct := by first | assumption | exact trivial) :
    Keeps w₀ r₀ (startUncork h asn clusters s) := by
  unfold startUncork
  dsimp only
  repeat' (first
    | with_reducible assumption | with_reducible apply keeps_complete | with_reducible apply keeps_rejectCtx
    | with_reducible apply keeps_makeResident | with_reducible apply keeps_flushCtx | with_reducible apply Keeps.ite | split)
  rename_i hc
  exact fun i => (hk.inv i).ctxs _ (List.mem_of_find?_eq_some hc)

theorem keeps_startSetClass {w₀ : Part → Prop} {r₀ : State} (h : CmdHdr) (asn cls sliceUs : Nat) (s : State) (hk : Keeps w₀ r₀ s)
    (w_regs : w₀ .regs := by first | assumption | exact trivial)
    (w_host : w₀ .host := by first | assumption | exact trivial)
    (w_dies : w₀ .dies := by first | assumption | exact trivial)
    (w_ctxs : w₀ .ctxs := by first | assumption | exact trivial) :
    Keeps w₀ r₀ (startSetClass h asn cls sliceUs s) := by
  unfold startSetClass
  dsimp only
  repeat' (first
    | with_reducible assumption | with_reducible apply keeps_complete | with_reducible apply keeps_resettle
    | with_reducible apply keeps_modCtx | with_reducible apply Keeps.upd | with_reducible rfl | with_reducible exact id
    | with_reducible exact Or.inl (by assumption) | with_reducible exact Or.inr rfl | with_reducible exact Or.inr ⟨rfl, rfl⟩
    | with_reducible exact Or.inr ⟨rfl, rfl, rfl⟩ | with_reducible exact Or.inr ⟨rfl, rfl, rfl, rfl⟩ | (exact fun _ h => h)
    | intro _ | (show Ctx.canon _; assumption) | with_reducible apply Ctx.canon_ite | (show Mem.wf _ = true; assumption)
    | with_reducible apply Keeps.ite | split)

theorem keeps_startExport {w₀ : Part → Prop} {r₀ : State} (h : CmdHdr) (asn move va : Nat) (s : State) (hk : Keeps w₀ r₀ s)
    (w_regs : w₀ .regs := by first | assumption | exact trivial)
    (w_host : w₀ .host := by first | assumption | exact trivial)
    (w_ctxs : w₀ .ctxs := by first | assumption | exact trivial) :
    Keeps w₀ r₀ (startExport h asn move va s) := by
  unfold startExport
  dsimp only
  repeat' (first
    | with_reducible assumption | with_reducible apply keeps_complete | with_reducible apply keeps_modCtx
    | with_reducible apply Keeps.upd | with_reducible rfl | with_reducible exact id
    | with_reducible exact Or.inl (by assumption) | with_reducible exact Or.inr rfl | with_reducible exact Or.inr ⟨rfl, rfl⟩
    | with_reducible exact Or.inr ⟨rfl, rfl, rfl⟩ | with_reducible exact Or.inr ⟨rfl, rfl, rfl, rfl⟩ | (exact fun _ h => h)
    | intro _ | (show Ctx.canon _; assumption) | with_reducible apply Ctx.canon_ite | (show Mem.wf _ = true; assumption)
    | with_reducible apply Keeps.ite | split)

theorem keeps_exportDone {w₀ : Part → Prop} {r₀ : State} (s : State) (asn : Nat) (hk : Keeps w₀ r₀ s)
    (w_regs : w₀ .regs := by first | assumption | exact trivial)
    (w_host : w₀ .host := by first | assumption | exact trivial)
    (w_dies : w₀ .dies := by first | assumption | exact trivial)
    (w_pages : w₀ .pages := by first | assumption | exact trivial)
    (w_moves : w₀ .moves := by first | assumption | exact trivial)
    (w_ctxs : w₀ .ctxs := by first | assumption | exact trivial)
    (w_acct : w₀ .acct := by first | assumption | exact trivial)
    (w_mem : w₀ .mem := by first | assumption | exact trivial)
    (w_traffic : w₀ .traffic := by first | assumption | exact trivial) :
    Keeps w₀ r₀ (exportDone s asn) := by
  unfold exportDone
  simp only [State.mk_build]
  repeat' (first
    | with_reducible assumption | with_reducible apply keeps_complete | with_reducible apply keeps_hubReads
    | with_reducible apply keeps_agentWrite | with_reducible apply keeps_destroyCtx
    | (exact fun i h => canon_append h fun x hx => by cases List.mem_singleton.1 hx; have hm := (hk.inv i).ctxs _ (List.mem_of_find?_eq_some (by assumption)); exact hm)
    | with_reducible apply Keeps.foldl | with_reducible apply keeps_modCtx | with_reducible apply Keeps.upd
    | with_reducible rfl | with_reducible exact id | with_reducible exact Or.inl (by assumption)
    | with_reducible exact Or.inr rfl | with_reducible exact Or.inr ⟨rfl, rfl⟩ | with_reducible exact Or.inr ⟨rfl, rfl, rfl⟩
    | with_reducible exact Or.inr ⟨rfl, rfl, rfl, rfl⟩ | (exact fun _ h => h) | intro _ | (show Ctx.canon _; assumption)
    | with_reducible apply Ctx.canon_ite | (show Mem.wf _ = true; assumption) | with_reducible apply Keeps.ite | split)

theorem keeps_startAsnDestroy {w₀ : Part → Prop} {r₀ : State} (h : CmdHdr) (asn : Nat) (s : State) (hk : Keeps w₀ r₀ s)
    (w_regs : w₀ .regs := by first | assumption | exact trivial)
    (w_host : w₀ .host := by first | assumption | exact trivial)
    (w_pages : w₀ .pages := by first | assumption | exact trivial) :
    Keeps w₀ r₀ (startAsnDestroy h asn s) := by
  unfold startAsnDestroy
  simp only [State.mk_build]
  repeat' (first
    | with_reducible assumption | with_reducible apply keeps_complete | with_reducible apply Keeps.upd | with_reducible rfl
    | with_reducible exact id | with_reducible exact Or.inl (by assumption) | with_reducible exact Or.inr rfl
    | with_reducible exact Or.inr ⟨rfl, rfl⟩ | with_reducible exact Or.inr ⟨rfl, rfl, rfl⟩
    | with_reducible exact Or.inr ⟨rfl, rfl, rfl, rfl⟩ | (exact fun _ h => h) | intro _ | (show Ctx.canon _; assumption)
    | with_reducible apply Ctx.canon_ite | (show Mem.wf _ = true; assumption) | with_reducible apply Keeps.ite | split)

theorem keeps_startAliasSet {w₀ : Part → Prop} {r₀ : State} (h : CmdHdr) (asn i oa oi : Nat) (s : State) (hk : Keeps w₀ r₀ s)
    (w_regs : w₀ .regs := by first | assumption | exact trivial)
    (w_host : w₀ .host := by first | assumption | exact trivial)
    (w_ctxs : w₀ .ctxs := by first | assumption | exact trivial) :
    Keeps w₀ r₀ (startAliasSet h asn i oa oi s) := by
  unfold startAliasSet
  dsimp only
  repeat' (first
    | with_reducible assumption | with_reducible apply keeps_complete | with_reducible apply keeps_modCtx
    | with_reducible apply Keeps.upd | with_reducible rfl | with_reducible exact id
    | with_reducible exact Or.inl (by assumption) | with_reducible exact Or.inr rfl | with_reducible exact Or.inr ⟨rfl, rfl⟩
    | with_reducible exact Or.inr ⟨rfl, rfl, rfl⟩ | with_reducible exact Or.inr ⟨rfl, rfl, rfl, rfl⟩ | (exact fun _ h => h)
    | intro _ | (show Ctx.canon _; assumption) | with_reducible apply Ctx.canon_ite | (show Mem.wf _ = true; assumption)
    | with_reducible apply Keeps.ite | split)

theorem keeps_startAliasClear {w₀ : Part → Prop} {r₀ : State} (h : CmdHdr) (asn i oa oi : Nat) (s : State) (hk : Keeps w₀ r₀ s)
    (w_regs : w₀ .regs := by first | assumption | exact trivial)
    (w_host : w₀ .host := by first | assumption | exact trivial)
    (w_ctxs : w₀ .ctxs := by first | assumption | exact trivial) :
    Keeps w₀ r₀ (startAliasClear h asn i oa oi s) := by
  unfold startAliasClear
  dsimp only
  repeat' (first
    | with_reducible assumption | with_reducible apply keeps_complete | with_reducible apply keeps_modCtx
    | with_reducible apply Keeps.upd | with_reducible rfl | with_reducible exact id
    | with_reducible exact Or.inl (by assumption) | with_reducible exact Or.inr rfl | with_reducible exact Or.inr ⟨rfl, rfl⟩
    | with_reducible exact Or.inr ⟨rfl, rfl, rfl⟩ | with_reducible exact Or.inr ⟨rfl, rfl, rfl, rfl⟩ | (exact fun _ h => h)
    | intro _ | (show Ctx.canon _; assumption) | with_reducible apply Ctx.canon_ite | (show Mem.wf _ = true; assumption)
    | with_reducible apply Keeps.ite | split)

theorem keeps_startSemSignal {w₀ : Part → Prop} {r₀ : State} (h : CmdHdr) (asn i n : Nat) (s : State) (hk : Keeps w₀ r₀ s)
    (w_regs : w₀ .regs := by first | assumption | exact trivial)
    (w_host : w₀ .host := by first | assumption | exact trivial)
    (w_ctxs : w₀ .ctxs := by first | assumption | exact trivial) :
    Keeps w₀ r₀ (startSemSignal h asn i n s) := by
  unfold startSemSignal
  dsimp only
  repeat' (first
    | with_reducible assumption | with_reducible apply keeps_complete | with_reducible apply keeps_addSem | intro _
    | with_reducible apply Keeps.ite | split)

theorem keeps_tryCommit {w₀ : Part → Prop} {r₀ : State} (s : State) (hk : Keeps w₀ r₀ s)
    (w_regs : w₀ .regs := by first | assumption | exact trivial)
    (w_host : w₀ .host := by first | assumption | exact trivial)
    (w_dies : w₀ .dies := by first | assumption | exact trivial)
    (w_ctxs : w₀ .ctxs := by first | assumption | exact trivial)
    (w_modes : w₀ .modes := by first | assumption | exact trivial) :
    Keeps w₀ r₀ (tryCommit s) := by
  unfold tryCommit
  simp only [State.mk_build]
  repeat' (first
    | with_reducible assumption | with_reducible apply keeps_complete | with_reducible apply keeps_releaseHeld
    | with_reducible apply Keeps.upd | with_reducible rfl | with_reducible exact id
    | with_reducible exact Or.inl (by assumption) | with_reducible exact Or.inr rfl | with_reducible exact Or.inr ⟨rfl, rfl⟩
    | with_reducible exact Or.inr ⟨rfl, rfl, rfl⟩ | with_reducible exact Or.inr ⟨rfl, rfl, rfl, rfl⟩
    | with_reducible exact length_mapIdx' | (exact fun _ h => h) | intro _ | (show Ctx.canon _; assumption)
    | with_reducible apply Ctx.canon_ite | (show Mem.wf _ = true; assumption) | with_reducible apply Keeps.ite | split)

theorem keeps_startModeSet {w₀ : Part → Prop} {r₀ : State} (h : CmdHdr) (taster : Bool) (value rate expect timeout : Nat) (s : State) (hk : Keeps w₀ r₀ s)
    (w_regs : w₀ .regs := by first | assumption | exact trivial)
    (w_host : w₀ .host := by first | assumption | exact trivial)
    (w_dies : w₀ .dies := by first | assumption | exact trivial)
    (w_ctxs : w₀ .ctxs := by first | assumption | exact trivial)
    (w_modes : w₀ .modes := by first | assumption | exact trivial) :
    Keeps w₀ r₀ (startModeSet h taster value rate expect timeout s) := by
  unfold startModeSet
  simp only [State.mk_build]
  repeat' (first
    | with_reducible assumption | with_reducible apply keeps_complete | with_reducible apply keeps_tryCommit
    | with_reducible apply Keeps.upd | with_reducible rfl | with_reducible exact id
    | with_reducible exact Or.inl (by assumption) | with_reducible exact Or.inr rfl | with_reducible exact Or.inr ⟨rfl, rfl⟩
    | with_reducible exact Or.inr ⟨rfl, rfl, rfl⟩ | with_reducible exact Or.inr ⟨rfl, rfl, rfl, rfl⟩ | (exact fun _ h => h)
    | intro _ | (show Ctx.canon _; assumption) | with_reducible apply Ctx.canon_ite | (show Mem.wf _ = true; assumption)
    | with_reducible apply Keeps.ite | split)

theorem keeps_epochAck {w₀ : Part → Prop} {r₀ : State} (s : State) (d : Nat) (hk : Keeps w₀ r₀ s)
    (w_regs : w₀ .regs := by first | assumption | exact trivial)
    (w_host : w₀ .host := by first | assumption | exact trivial)
    (w_dies : w₀ .dies := by first | assumption | exact trivial)
    (w_ctxs : w₀ .ctxs := by first | assumption | exact trivial)
    (w_modes : w₀ .modes := by first | assumption | exact trivial) :
    Keeps w₀ r₀ (epochAck s d) := by
  unfold epochAck
  simp only [State.mk_build]
  repeat' (first
    | with_reducible assumption | with_reducible apply keeps_modDie | with_reducible apply keeps_tryCommit
    | with_reducible apply Keeps.upd | with_reducible rfl | with_reducible exact id
    | with_reducible exact Or.inl (by assumption) | with_reducible exact Or.inr rfl | with_reducible exact Or.inr ⟨rfl, rfl⟩
    | with_reducible exact Or.inr ⟨rfl, rfl, rfl⟩ | with_reducible exact Or.inr ⟨rfl, rfl, rfl, rfl⟩ | (exact fun _ h => h)
    | intro _ | (show Ctx.canon _; assumption) | with_reducible apply Ctx.canon_ite | (show Mem.wf _ = true; assumption)
    | with_reducible apply Keeps.ite | split)

theorem keeps_epochTimeout {w₀ : Part → Prop} {r₀ : State} (s : State) (hk : Keeps w₀ r₀ s)
    (w_regs : w₀ .regs := by first | assumption | exact trivial)
    (w_host : w₀ .host := by first | assumption | exact trivial)
    (w_dies : w₀ .dies := by first | assumption | exact trivial)
    (w_ctxs : w₀ .ctxs := by first | assumption | exact trivial)
    (w_modes : w₀ .modes := by first | assumption | exact trivial) :
    Keeps w₀ r₀ (epochTimeout s) := by
  unfold epochTimeout
  repeat' (first
    | with_reducible assumption | with_reducible apply keeps_epochAbort | intro _ | with_reducible apply Keeps.ite | split)

end Sys2Proof.Machine
end

