-- ==== Sys2Proof/Laws/KeepsOperands.lean ====
section
/-! SUPPORT. Laws/KeepsOperands.lean: what the operations of Machine/Operands.lean keep. -/

set_option Elab.async false

namespace Sys2Proof.Machine

theorem keeps_startDescBind {w₀ : Part → Prop} {r₀ : State} (h : CmdHdr) (asn first count va : Nat) (s : State) (hk : Keeps w₀ r₀ s)
    (w_regs : w₀ .regs := by first | assumption | exact trivial)
    (w_host : w₀ .host := by first | assumption | exact trivial)
    (w_dies : w₀ .dies := by first | assumption | exact trivial)
    (w_ctxs : w₀ .ctxs := by first | assumption | exact trivial)
    (w_mem : w₀ .mem := by first | assumption | exact trivial)
    (w_traffic : w₀ .traffic := by first | assumption | exact trivial) :
    Keeps w₀ r₀ (startDescBind h asn first count va s) := by
  unfold startDescBind
  dsimp only
  repeat' (first
    | with_reducible assumption | with_reducible apply keeps_complete | with_reducible apply keeps_readThen
    | with_reducible apply keeps_modCtx | with_reducible apply Keeps.upd | with_reducible rfl | with_reducible exact id
    | with_reducible exact Or.inl (by assumption) | with_reducible exact Or.inr rfl | with_reducible exact Or.inr ⟨rfl, rfl⟩
    | with_reducible exact Or.inr ⟨rfl, rfl, rfl⟩ | with_reducible exact Or.inr ⟨rfl, rfl, rfl, rfl⟩
    | with_reducible exact length_map' | with_reducible exact length_mapIdx' | (exact fun _ h => h) | intro _
    | (show Ctx.canon _; assumption) | with_reducible apply Ctx.canon_ite | (show Mem.wf _ = true; assumption)
    | with_reducible apply Keeps.ite | split)

theorem keeps_putRun {w₀ : Part → Prop} {r₀ : State} (asn core : Nat) (s : State) (r : Run) (hk : Keeps w₀ r₀ s)
    (w_dies : w₀ .dies := by first | assumption | exact trivial)
    (w_moves : w₀ .moves := by first | assumption | exact trivial)
    (w_ctxs : w₀ .ctxs := by first | assumption | exact trivial)
    (w_mem : w₀ .mem := by first | assumption | exact trivial) :
    Keeps w₀ r₀ (putRun asn core s r) := by
  unfold putRun
  repeat' (first
    | with_reducible assumption | with_reducible apply keeps_virtWrite | (exact Mem.wf_writeN _ _ (by assumption))
    | (exact pools_modAt fun _ h => Mem.wf_writeN _ _ h) | with_reducible apply keeps_modCore
    | with_reducible apply keeps_modCtx | with_reducible apply Keeps.upd | with_reducible rfl | with_reducible exact id
    | with_reducible exact Or.inl (by assumption) | with_reducible exact Or.inr rfl | with_reducible exact Or.inr ⟨rfl, rfl⟩
    | with_reducible exact Or.inr ⟨rfl, rfl, rfl⟩ | with_reducible exact Or.inr ⟨rfl, rfl, rfl, rfl⟩
    | with_reducible exact length_modAt | (exact fun _ h => h) | (exact stores_map fun _ h => h)
    | (exact stores_map fun _ h => by split <;> exact h) | (exact pools_map fun _ h => h)
    | (exact stores_mapIdx fun _ _ h => h) | (exact pools_modAt fun _ h => h) | (exact fun h => h) | intro _
    | (show Ctx.canon _; assumption) | with_reducible apply Ctx.canon_ite | (show Mem.wf _ = true; assumption)
    | (refine Ctx.canon_cores (by assumption) ?_ ?_) | with_reducible apply Keeps.ite | split)

theorem keeps_putRuns {w₀ : Part → Prop} {r₀ : State} (s : State) (asn core : Nat) (rs : List Run) (hk : Keeps w₀ r₀ s)
    (w_dies : w₀ .dies := by first | assumption | exact trivial)
    (w_moves : w₀ .moves := by first | assumption | exact trivial)
    (w_ctxs : w₀ .ctxs := by first | assumption | exact trivial)
    (w_mem : w₀ .mem := by first | assumption | exact trivial) :
    Keeps w₀ r₀ (putRuns s asn core rs) := by
  unfold putRuns
  repeat' (first
    | with_reducible assumption | with_reducible apply keeps_putRun | with_reducible apply Keeps.foldl | intro _)

end Sys2Proof.Machine
end

