-- ==== Sys2Proof/Laws/KeepsTile.lean ====
section
/-! SUPPORT. Laws/KeepsTile.lean: what the operations of Machine/Tile.lean keep. -/

set_option Elab.async false

namespace Sys2Proof.Machine

theorem keeps_Env.reads {w₀ : Part → Prop} {r₀ : State} (e : Env) (s : State) (ppn : Nat) (hk : Keeps w₀ r₀ s)
    (w_traffic : w₀ .traffic := by first | assumption | exact trivial) :
    Keeps w₀ r₀ (Env.reads e s ppn) := by
  unfold Env.reads
  repeat' (first
    | with_reducible assumption | with_reducible apply keeps_coreReads | with_reducible apply keeps_timeRead | intro _
    | with_reducible apply Keeps.ite | split)

theorem keeps_fetched {w₀ : Part → Prop} {r₀ : State} {e : Env} (hk : Keeps w₀ r₀ e.s)
    (w_dies : w₀ .dies := by first | assumption | exact trivial)
    (w_mem : w₀ .mem := by first | assumption | exact trivial)
    (w_traffic : w₀ .traffic := by first | assumption | exact trivial) : Keeps w₀ r₀ e.fetched.s := by
  have h : Keeps w₀ r₀ (eachPiece e.c.asn (e.j.progVA + 16 * e.k.pc) 16 (fun s ppn _ => e.reads s ppn)
      (meetVirt e.s e.c.asn (e.j.progVA + 16 * e.k.pc) 16)) :=
    keeps_eachPiece _ _ _ _ _ (fun _ _ _ h => keeps_Env.reads e _ _ h) (keeps_meetVirt _ _ _ _ hk)
  unfold Env.fetched
  dsimp only
  rw [State.mk_build]
  exact h.upd rfl id id id id id id (fun _ h => h) fun _ h => h

theorem keeps_rowEnv {w₀ : Part → Prop} {r₀ s : State} {asn core : Nat} {e : Env} (hk : Keeps w₀ r₀ s) (h : rowEnv s asn core = some e)
    (w_dies : w₀ .dies := by first | assumption | exact trivial)
    (w_mem : w₀ .mem := by first | assumption | exact trivial)
    (w_traffic : w₀ .traffic := by first | assumption | exact trivial) : Keeps w₀ r₀ e.s := by
  unfold rowEnv at h
  obtain ⟨e₀, h₀, rfl⟩ := Option.map_eq_some_iff.1 h
  exact keeps_fetched (hk.env h₀)

theorem keeps_haltCore {w₀ : Part → Prop} {r₀ : State} (e : Env) (h : Halt) (hk : Keeps w₀ r₀ e.s)
    (w_regs : w₀ .regs := by first | assumption | exact trivial)
    (w_host : w₀ .host := by first | assumption | exact trivial)
    (w_dies : w₀ .dies := by first | assumption | exact trivial)
    (w_pages : w₀ .pages := by first | assumption | exact trivial)
    (w_moves : w₀ .moves := by first | assumption | exact trivial)
    (w_ctxs : w₀ .ctxs := by first | assumption | exact trivial)
    (w_groups : w₀ .groups := by first | assumption | exact trivial)
    (w_codecs : w₀ .codecs := by first | assumption | exact trivial)
    (w_modes : w₀ .modes := by first | assumption | exact trivial)
    (w_acct : w₀ .acct := by first | assumption | exact trivial)
    (w_store : w₀ .store := by first | assumption | exact trivial) :
    Keeps w₀ r₀ (haltCore e h) := by
  unfold haltCore
  repeat' (first
    | with_reducible assumption | with_reducible apply keeps_stopJob | with_reducible apply keeps_dieFault
    | with_reducible apply keeps_startPromotion | with_reducible apply keeps_seenIn | with_reducible apply keeps_modCore
    | with_reducible apply Keeps.upd | with_reducible rfl | with_reducible exact id
    | with_reducible exact Or.inl (by assumption) | with_reducible exact Or.inr rfl | with_reducible exact Or.inr ⟨rfl, rfl⟩
    | with_reducible exact Or.inr ⟨rfl, rfl, rfl⟩ | with_reducible exact Or.inr ⟨rfl, rfl, rfl, rfl⟩ | (exact fun _ h => h)
    | intro _ | (show Ctx.canon _; assumption) | with_reducible apply Ctx.canon_ite | (show Mem.wf _ = true; assumption)
    | split)

theorem keeps_tileRow {w₀ : Part → Prop} {r₀ : State} (s : State) (asn core : Nat) (mine : Nat → Bool) (body : Env → Nat → State) (hbody : ∀ e w, Keeps w₀ r₀ e.s → Keeps w₀ r₀ (body e w)) (hk : Keeps w₀ r₀ s)
    (w_regs : w₀ .regs := by first | assumption | exact trivial)
    (w_host : w₀ .host := by first | assumption | exact trivial)
    (w_dies : w₀ .dies := by first | assumption | exact trivial)
    (w_pages : w₀ .pages := by first | assumption | exact trivial)
    (w_moves : w₀ .moves := by first | assumption | exact trivial)
    (w_ctxs : w₀ .ctxs := by first | assumption | exact trivial)
    (w_groups : w₀ .groups := by first | assumption | exact trivial)
    (w_codecs : w₀ .codecs := by first | assumption | exact trivial)
    (w_modes : w₀ .modes := by first | assumption | exact trivial)
    (w_acct : w₀ .acct := by first | assumption | exact trivial)
    (w_store : w₀ .store := by first | assumption | exact trivial)
    (w_mem : w₀ .mem := by first | assumption | exact trivial)
    (w_traffic : w₀ .traffic := by first | assumption | exact trivial) :
    Keeps w₀ r₀ (tileRow s asn core mine body) := by
  unfold tileRow
  repeat' (first
    | with_reducible assumption | with_reducible apply hbody | with_reducible apply keeps_rowEnv
    | with_reducible apply keeps_haltCore | (exact keeps_rowEnv hk (by assumption)) | (exact fun _ h => h) | intro _
    | (show Ctx.canon _; assumption) | with_reducible apply Ctx.canon_ite | (show Mem.wf _ = true; assumption)
    | with_reducible apply Keeps.ite | split)

theorem keeps_noteFirst {w₀ : Part → Prop} {r₀ : State} (e : Env) (hk : Keeps w₀ r₀ e.s)
    (w_ctxs : w₀ .ctxs := by first | assumption | exact trivial) :
    Keeps w₀ r₀ (noteFirst e) := by
  unfold noteFirst
  dsimp only
  repeat' (first
    | with_reducible assumption | with_reducible apply keeps_modCtx | with_reducible apply Keeps.upd | with_reducible rfl
    | with_reducible exact id | with_reducible exact Or.inl (by assumption) | with_reducible exact Or.inr rfl
    | with_reducible exact Or.inr ⟨rfl, rfl⟩ | with_reducible exact Or.inr ⟨rfl, rfl, rfl⟩
    | with_reducible exact Or.inr ⟨rfl, rfl, rfl, rfl⟩ | with_reducible exact length_map' | (exact fun _ h => h) | intro _
    | (show Ctx.canon _; assumption) | with_reducible apply Ctx.canon_ite | (show Mem.wf _ = true; assumption)
    | with_reducible apply Keeps.ite | split)

theorem keeps_seqDone {w₀ : Part → Prop} {r₀ : State} (e : Env) (w : Nat) (f : Core → Core) (hf : ∀ k : Core, k.store.wf = true → (f k).store.wf = true) (hk : Keeps w₀ r₀ e.s)
    (w_ctxs : w₀ .ctxs := by first | assumption | exact trivial) :
    Keeps w₀ r₀ (seqDone e w f) := by
  unfold seqDone
  dsimp only
  repeat' (first
    | with_reducible assumption | with_reducible apply hf | with_reducible apply keeps_addSem
    | with_reducible apply keeps_noteFirst | with_reducible apply keeps_modCore | (exact fun _ h => h) | intro _
    | (show Ctx.canon _; assumption) | with_reducible apply Ctx.canon_ite | (show Mem.wf _ = true; assumption) | split)

theorem keeps_seqRow {w₀ : Part → Prop} {r₀ : State} (s : State) (asn core : Nat) (mine : Nat → Bool) (resv : List (Nat × Nat)) (drain : Bool)
    (regs : Nat → List Nat × List Nat) (body : Env → Nat → State) (hbody : ∀ e w, Keeps w₀ r₀ e.s → Keeps w₀ r₀ (body e w)) (hk : Keeps w₀ r₀ s)
    (w_regs : w₀ .regs := by first | assumption | exact trivial)
    (w_host : w₀ .host := by first | assumption | exact trivial)
    (w_dies : w₀ .dies := by first | assumption | exact trivial)
    (w_pages : w₀ .pages := by first | assumption | exact trivial)
    (w_moves : w₀ .moves := by first | assumption | exact trivial)
    (w_ctxs : w₀ .ctxs := by first | assumption | exact trivial)
    (w_groups : w₀ .groups := by first | assumption | exact trivial)
    (w_codecs : w₀ .codecs := by first | assumption | exact trivial)
    (w_modes : w₀ .modes := by first | assumption | exact trivial)
    (w_acct : w₀ .acct := by first | assumption | exact trivial)
    (w_store : w₀ .store := by first | assumption | exact trivial)
    (w_mem : w₀ .mem := by first | assumption | exact trivial)
    (w_traffic : w₀ .traffic := by first | assumption | exact trivial) :
    Keeps w₀ r₀ (seqRow s asn core mine resv drain regs body) := by
  unfold seqRow
  repeat' (first
    | with_reducible assumption | with_reducible apply hbody | with_reducible apply keeps_haltCore
    | with_reducible apply keeps_tileRow | (exact fun _ h => h) | intro _ | (show Ctx.canon _; assumption)
    | with_reducible apply Ctx.canon_ite | (show Mem.wf _ = true; assumption) | with_reducible apply Keeps.ite | split)

theorem keeps_jump {w₀ : Part → Prop} {r₀ : State} (e : Env) (w : Nat) (t : Nat) (f : Core → Core) (hf : ∀ k : Core, k.store.wf = true → (f k).store.wf = true) (hk : Keeps w₀ r₀ e.s)
    (w_regs : w₀ .regs := by first | assumption | exact trivial)
    (w_host : w₀ .host := by first | assumption | exact trivial)
    (w_dies : w₀ .dies := by first | assumption | exact trivial)
    (w_pages : w₀ .pages := by first | assumption | exact trivial)
    (w_moves : w₀ .moves := by first | assumption | exact trivial)
    (w_ctxs : w₀ .ctxs := by first | assumption | exact trivial)
    (w_groups : w₀ .groups := by first | assumption | exact trivial)
    (w_codecs : w₀ .codecs := by first | assumption | exact trivial)
    (w_modes : w₀ .modes := by first | assumption | exact trivial)
    (w_acct : w₀ .acct := by first | assumption | exact trivial)
    (w_store : w₀ .store := by first | assumption | exact trivial) :
    Keeps w₀ r₀ (jump e w t f) := by
  unfold jump
  dsimp only
  repeat' (first
    | with_reducible assumption | with_reducible apply hf | with_reducible apply keeps_haltCore
    | with_reducible apply keeps_seqDone | (exact hf _ (by assumption)) | with_reducible apply Keeps.upd
    | with_reducible rfl | with_reducible exact id | with_reducible exact Or.inl (by assumption)
    | with_reducible exact Or.inr rfl | with_reducible exact Or.inr ⟨rfl, rfl⟩ | with_reducible exact Or.inr ⟨rfl, rfl, rfl⟩
    | with_reducible exact Or.inr ⟨rfl, rfl, rfl, rfl⟩ | (exact fun _ h => h) | intro _ | (show Ctx.canon _; assumption)
    | with_reducible apply Ctx.canon_ite | (show Mem.wf _ = true; assumption) | with_reducible apply Keeps.ite | split)

theorem keeps_notePark {w₀ : Part → Prop} {r₀ : State} (s : State) (asn core : Nat) (hk : Keeps w₀ r₀ s)
    (w_ctxs : w₀ .ctxs := by first | assumption | exact trivial) :
    Keeps w₀ r₀ (notePark s asn core) := by
  unfold notePark
  repeat' (first
    | with_reducible assumption | (exact notePark_canon (by assumption)) | with_reducible apply keeps_modCtx
    | (exact fun _ h => h) | intro _ | (show Ctx.canon _; assumption) | with_reducible apply Ctx.canon_ite
    | (show Mem.wf _ = true; assumption))

theorem keeps_endProg {w₀ : Part → Prop} {r₀ : State} (s : State) (asn core : Nat) (hk : Keeps w₀ r₀ s)
    (w_regs : w₀ .regs := by first | assumption | exact trivial)
    (w_host : w₀ .host := by first | assumption | exact trivial)
    (w_dies : w₀ .dies := by first | assumption | exact trivial)
    (w_pages : w₀ .pages := by first | assumption | exact trivial)
    (w_moves : w₀ .moves := by first | assumption | exact trivial)
    (w_ctxs : w₀ .ctxs := by first | assumption | exact trivial)
    (w_groups : w₀ .groups := by first | assumption | exact trivial)
    (w_codecs : w₀ .codecs := by first | assumption | exact trivial)
    (w_modes : w₀ .modes := by first | assumption | exact trivial)
    (w_acct : w₀ .acct := by first | assumption | exact trivial)
    (w_store : w₀ .store := by first | assumption | exact trivial)
    (w_mem : w₀ .mem := by first | assumption | exact trivial)
    (w_traffic : w₀ .traffic := by first | assumption | exact trivial) :
    Keeps w₀ r₀ (endProg s asn core) := by
  unfold endProg
  repeat' (first
    | with_reducible assumption | with_reducible apply keeps_seqDone | with_reducible apply keeps_seqRow
    | with_reducible apply keeps_notePark | with_reducible apply Keeps.upd | with_reducible rfl | with_reducible exact id
    | with_reducible exact Or.inl (by assumption) | with_reducible exact Or.inr rfl | with_reducible exact Or.inr ⟨rfl, rfl⟩
    | with_reducible exact Or.inr ⟨rfl, rfl, rfl⟩ | with_reducible exact Or.inr ⟨rfl, rfl, rfl, rfl⟩ | (exact fun _ h => h)
    | intro _ | (show Ctx.canon _; assumption) | with_reducible apply Ctx.canon_ite | (show Mem.wf _ = true; assumption))

theorem keeps_loop {w₀ : Part → Prop} {r₀ : State} (s : State) (asn core : Nat) (hk : Keeps w₀ r₀ s)
    (w_regs : w₀ .regs := by first | assumption | exact trivial)
    (w_host : w₀ .host := by first | assumption | exact trivial)
    (w_dies : w₀ .dies := by first | assumption | exact trivial)
    (w_pages : w₀ .pages := by first | assumption | exact trivial)
    (w_moves : w₀ .moves := by first | assumption | exact trivial)
    (w_ctxs : w₀ .ctxs := by first | assumption | exact trivial)
    (w_groups : w₀ .groups := by first | assumption | exact trivial)
    (w_codecs : w₀ .codecs := by first | assumption | exact trivial)
    (w_modes : w₀ .modes := by first | assumption | exact trivial)
    (w_acct : w₀ .acct := by first | assumption | exact trivial)
    (w_store : w₀ .store := by first | assumption | exact trivial)
    (w_mem : w₀ .mem := by first | assumption | exact trivial)
    (w_traffic : w₀ .traffic := by first | assumption | exact trivial) :
    Keeps w₀ r₀ (loop s asn core) := by
  unfold loop
  dsimp only
  repeat' (first
    | with_reducible assumption | with_reducible apply keeps_seqDone | with_reducible apply keeps_seqRow
    | with_reducible apply keeps_jump | (exact setX_wf (by assumption)) | intro _ | with_reducible apply Keeps.ite | split)

theorem keeps_branch {w₀ : Part → Prop} {r₀ : State} (s : State) (asn core : Nat) (hk : Keeps w₀ r₀ s)
    (w_regs : w₀ .regs := by first | assumption | exact trivial)
    (w_host : w₀ .host := by first | assumption | exact trivial)
    (w_dies : w₀ .dies := by first | assumption | exact trivial)
    (w_pages : w₀ .pages := by first | assumption | exact trivial)
    (w_moves : w₀ .moves := by first | assumption | exact trivial)
    (w_ctxs : w₀ .ctxs := by first | assumption | exact trivial)
    (w_groups : w₀ .groups := by first | assumption | exact trivial)
    (w_codecs : w₀ .codecs := by first | assumption | exact trivial)
    (w_modes : w₀ .modes := by first | assumption | exact trivial)
    (w_acct : w₀ .acct := by first | assumption | exact trivial)
    (w_store : w₀ .store := by first | assumption | exact trivial)
    (w_mem : w₀ .mem := by first | assumption | exact trivial)
    (w_traffic : w₀ .traffic := by first | assumption | exact trivial) :
    Keeps w₀ r₀ (branch s asn core) := by
  unfold branch
  repeat' (first
    | with_reducible assumption | with_reducible apply keeps_seqDone | with_reducible apply keeps_seqRow
    | with_reducible apply keeps_jump | (exact fun _ h => h) | intro _ | (show Ctx.canon _; assumption)
    | with_reducible apply Ctx.canon_ite | (show Mem.wf _ = true; assumption) | with_reducible apply Keeps.ite | split)

theorem keeps_vecScalar {w₀ : Part → Prop} {r₀ : State} (s : State) (asn core : Nat) (hk : Keeps w₀ r₀ s)
    (w_regs : w₀ .regs := by first | assumption | exact trivial)
    (w_host : w₀ .host := by first | assumption | exact trivial)
    (w_dies : w₀ .dies := by first | assumption | exact trivial)
    (w_pages : w₀ .pages := by first | assumption | exact trivial)
    (w_moves : w₀ .moves := by first | assumption | exact trivial)
    (w_ctxs : w₀ .ctxs := by first | assumption | exact trivial)
    (w_groups : w₀ .groups := by first | assumption | exact trivial)
    (w_codecs : w₀ .codecs := by first | assumption | exact trivial)
    (w_modes : w₀ .modes := by first | assumption | exact trivial)
    (w_acct : w₀ .acct := by first | assumption | exact trivial)
    (w_store : w₀ .store := by first | assumption | exact trivial)
    (w_mem : w₀ .mem := by first | assumption | exact trivial)
    (w_traffic : w₀ .traffic := by first | assumption | exact trivial) :
    Keeps w₀ r₀ (vecScalar s asn core) := by
  unfold vecScalar
  dsimp only
  repeat' (first
    | with_reducible assumption | with_reducible apply keeps_haltCore | with_reducible apply keeps_seqDone
    | with_reducible apply keeps_seqRow | (exact fun _ h => h) | intro _ | (show Ctx.canon _; assumption)
    | with_reducible apply Ctx.canon_ite | (show Mem.wf _ = true; assumption) | (exact setX_wf (by assumption))
    | with_reducible apply Keeps.ite | split)

theorem keeps_joinFence {w₀ : Part → Prop} {r₀ : State} (s : State) (asn sem core : Nat) (hk : Keeps w₀ r₀ s)
    (w_ctxs : w₀ .ctxs := by first | assumption | exact trivial) :
    Keeps w₀ r₀ (joinFence s asn sem core) := by
  unfold joinFence
  repeat' (first
    | with_reducible assumption | with_reducible apply keeps_modCtx | with_reducible apply Keeps.upd | with_reducible rfl
    | with_reducible exact id | with_reducible exact Or.inl (by assumption) | with_reducible exact Or.inr rfl
    | with_reducible exact Or.inr ⟨rfl, rfl⟩ | with_reducible exact Or.inr ⟨rfl, rfl, rfl⟩
    | with_reducible exact Or.inr ⟨rfl, rfl, rfl, rfl⟩ | with_reducible exact length_map' | (exact fun _ h => h)
    | (exact stores_map fun _ h => h) | (exact stores_map fun _ h => by split <;> exact h) | (exact pools_map fun _ h => h)
    | (exact stores_mapIdx fun _ _ h => h) | (exact pools_modAt fun _ h => h) | (exact fun h => h) | intro _
    | (show Ctx.canon _; assumption) | with_reducible apply Ctx.canon_ite | (show Mem.wf _ = true; assumption)
    | (refine Ctx.canon_cores (by assumption) ?_ ?_) | with_reducible apply Keeps.ite | split)

theorem keeps_leaveFences {w₀ : Part → Prop} {r₀ : State} (s : State) (asn core : Nat) (hk : Keeps w₀ r₀ s)
    (w_ctxs : w₀ .ctxs := by first | assumption | exact trivial) :
    Keeps w₀ r₀ (leaveFences s asn core) := by
  unfold leaveFences
  dsimp only
  repeat' (first
    | with_reducible assumption | with_reducible apply keeps_modCtx | with_reducible apply Keeps.upd | with_reducible rfl
    | with_reducible exact id | with_reducible exact Or.inl (by assumption) | with_reducible exact Or.inr rfl
    | with_reducible exact Or.inr ⟨rfl, rfl⟩ | with_reducible exact Or.inr ⟨rfl, rfl, rfl⟩
    | with_reducible exact Or.inr ⟨rfl, rfl, rfl, rfl⟩ | (exact fun _ h => h) | (exact stores_map fun _ h => h)
    | (exact stores_map fun _ h => by split <;> exact h) | (exact pools_map fun _ h => h)
    | (exact stores_mapIdx fun _ _ h => h) | (exact pools_modAt fun _ h => h) | (exact fun h => h) | intro _
    | (show Ctx.canon _; assumption) | with_reducible apply Ctx.canon_ite | (show Mem.wf _ = true; assumption)
    | (refine Ctx.canon_cores (by assumption) ?_ ?_) | with_reducible apply Keeps.ite | split)

theorem keeps_lend {w₀ : Part → Prop} {r₀ : State} (s : State) (asn core owner : Nat) (hk : Keeps w₀ r₀ s)
    (w_ctxs : w₀ .ctxs := by first | assumption | exact trivial) :
    Keeps w₀ r₀ (lend s asn core owner) := by
  unfold lend
  dsimp only
  repeat' (first
    | with_reducible assumption | with_reducible apply keeps_modCtx | with_reducible apply Keeps.upd | with_reducible rfl
    | with_reducible exact id | with_reducible exact Or.inl (by assumption) | with_reducible exact Or.inr rfl
    | with_reducible exact Or.inr ⟨rfl, rfl⟩ | with_reducible exact Or.inr ⟨rfl, rfl, rfl⟩
    | with_reducible exact Or.inr ⟨rfl, rfl, rfl, rfl⟩ | (exact fun _ h => h) | intro _ | (show Ctx.canon _; assumption)
    | with_reducible apply Ctx.canon_ite | (show Mem.wf _ = true; assumption) | with_reducible apply Keeps.ite | split)

theorem keeps_block {w₀ : Part → Prop} {r₀ : State} (e : Env) (sem n : Nat) (consume : Bool) (oa oi : Nat) (hk : Keeps w₀ r₀ e.s)
    (w_ctxs : w₀ .ctxs := by first | assumption | exact trivial) :
    Keeps w₀ r₀ (block e sem n consume oa oi) := by
  unfold block
  dsimp only
  repeat' (first
    | with_reducible assumption | with_reducible apply keeps_noteFirst | with_reducible apply keeps_notePark
    | with_reducible apply keeps_joinFence | with_reducible apply keeps_lend | with_reducible apply keeps_modCore
    | with_reducible apply keeps_modCtx | with_reducible apply Keeps.upd | with_reducible rfl | with_reducible exact id
    | with_reducible exact Or.inl (by assumption) | with_reducible exact Or.inr rfl | with_reducible exact Or.inr ⟨rfl, rfl⟩
    | with_reducible exact Or.inr ⟨rfl, rfl, rfl⟩ | with_reducible exact Or.inr ⟨rfl, rfl, rfl, rfl⟩ | (exact fun _ h => h)
    | intro _ | (show Ctx.canon _; assumption) | with_reducible apply Ctx.canon_ite | (show Mem.wf _ = true; assumption))

theorem keeps_waitRow {w₀ : Part → Prop} {r₀ : State} (s : State) (asn core sub : Nat) (consume : Bool) (hk : Keeps w₀ r₀ s)
    (w_regs : w₀ .regs := by first | assumption | exact trivial)
    (w_host : w₀ .host := by first | assumption | exact trivial)
    (w_dies : w₀ .dies := by first | assumption | exact trivial)
    (w_pages : w₀ .pages := by first | assumption | exact trivial)
    (w_moves : w₀ .moves := by first | assumption | exact trivial)
    (w_ctxs : w₀ .ctxs := by first | assumption | exact trivial)
    (w_groups : w₀ .groups := by first | assumption | exact trivial)
    (w_codecs : w₀ .codecs := by first | assumption | exact trivial)
    (w_modes : w₀ .modes := by first | assumption | exact trivial)
    (w_acct : w₀ .acct := by first | assumption | exact trivial)
    (w_store : w₀ .store := by first | assumption | exact trivial)
    (w_mem : w₀ .mem := by first | assumption | exact trivial)
    (w_traffic : w₀ .traffic := by first | assumption | exact trivial) :
    Keeps w₀ r₀ (waitRow s asn core sub consume) := by
  unfold waitRow
  dsimp only
  repeat' (first
    | with_reducible assumption | with_reducible apply keeps_takeSem | with_reducible apply keeps_haltCore
    | with_reducible apply keeps_seqDone | with_reducible apply keeps_seqRow | with_reducible apply keeps_block
    | with_reducible apply Keeps.upd | with_reducible rfl | with_reducible exact id
    | with_reducible exact Or.inl (by assumption) | with_reducible exact Or.inr rfl | with_reducible exact Or.inr ⟨rfl, rfl⟩
    | with_reducible exact Or.inr ⟨rfl, rfl, rfl⟩ | with_reducible exact Or.inr ⟨rfl, rfl, rfl, rfl⟩ | (exact fun _ h => h)
    | intro _ | (show Ctx.canon _; assumption) | with_reducible apply Ctx.canon_ite | (show Mem.wf _ = true; assumption)
    | with_reducible apply Keeps.ite | split)

theorem keeps_waitSatisfied {w₀ : Part → Prop} {r₀ : State} (s : State) (asn sem : Nat) (hk : Keeps w₀ r₀ s)
    (w_ctxs : w₀ .ctxs := by first | assumption | exact trivial) :
    Keeps w₀ r₀ (waitSatisfied s asn sem) := by
  unfold waitSatisfied
  dsimp only
  repeat' (first
    | with_reducible assumption | with_reducible apply keeps_addSem | with_reducible apply keeps_leaveFences
    | with_reducible apply keeps_modCore | with_reducible apply keeps_modCtx | with_reducible apply Keeps.upd
    | with_reducible rfl | with_reducible exact id | with_reducible exact Or.inl (by assumption)
    | with_reducible exact Or.inr rfl | with_reducible exact Or.inr ⟨rfl, rfl⟩ | with_reducible exact Or.inr ⟨rfl, rfl, rfl⟩
    | with_reducible exact Or.inr ⟨rfl, rfl, rfl, rfl⟩ | with_reducible exact length_modAt
    | with_reducible exact length_map' | (exact fun _ h => h) | intro _ | (show Ctx.canon _; assumption)
    | with_reducible apply Ctx.canon_ite | (show Mem.wf _ = true; assumption) | with_reducible apply Keeps.ite | split)

theorem keeps_signal {w₀ : Part → Prop} {r₀ : State} (s : State) (asn core : Nat) (hk : Keeps w₀ r₀ s)
    (w_regs : w₀ .regs := by first | assumption | exact trivial)
    (w_host : w₀ .host := by first | assumption | exact trivial)
    (w_dies : w₀ .dies := by first | assumption | exact trivial)
    (w_pages : w₀ .pages := by first | assumption | exact trivial)
    (w_moves : w₀ .moves := by first | assumption | exact trivial)
    (w_ctxs : w₀ .ctxs := by first | assumption | exact trivial)
    (w_groups : w₀ .groups := by first | assumption | exact trivial)
    (w_codecs : w₀ .codecs := by first | assumption | exact trivial)
    (w_modes : w₀ .modes := by first | assumption | exact trivial)
    (w_acct : w₀ .acct := by first | assumption | exact trivial)
    (w_store : w₀ .store := by first | assumption | exact trivial)
    (w_mem : w₀ .mem := by first | assumption | exact trivial)
    (w_traffic : w₀ .traffic := by first | assumption | exact trivial) :
    Keeps w₀ r₀ (signal s asn core) := by
  unfold signal
  dsimp only
  repeat' (first
    | with_reducible assumption | with_reducible apply keeps_addSem | with_reducible apply keeps_haltCore
    | with_reducible apply keeps_seqDone | with_reducible apply keeps_seqRow | (exact fun _ h => h) | intro _
    | (show Ctx.canon _; assumption) | with_reducible apply Ctx.canon_ite | (show Mem.wf _ = true; assumption) | split)

theorem keeps_fence {w₀ : Part → Prop} {r₀ : State} (s : State) (asn core : Nat) (hk : Keeps w₀ r₀ s)
    (w_regs : w₀ .regs := by first | assumption | exact trivial)
    (w_host : w₀ .host := by first | assumption | exact trivial)
    (w_dies : w₀ .dies := by first | assumption | exact trivial)
    (w_pages : w₀ .pages := by first | assumption | exact trivial)
    (w_moves : w₀ .moves := by first | assumption | exact trivial)
    (w_ctxs : w₀ .ctxs := by first | assumption | exact trivial)
    (w_groups : w₀ .groups := by first | assumption | exact trivial)
    (w_codecs : w₀ .codecs := by first | assumption | exact trivial)
    (w_modes : w₀ .modes := by first | assumption | exact trivial)
    (w_acct : w₀ .acct := by first | assumption | exact trivial)
    (w_store : w₀ .store := by first | assumption | exact trivial)
    (w_mem : w₀ .mem := by first | assumption | exact trivial)
    (w_traffic : w₀ .traffic := by first | assumption | exact trivial) :
    Keeps w₀ r₀ (fence s asn core) := by
  unfold fence
  repeat' (first
    | with_reducible assumption | with_reducible apply keeps_seqDone | with_reducible apply keeps_seqRow
    | (exact fun _ h => h) | intro _ | (show Ctx.canon _; assumption) | with_reducible apply Ctx.canon_ite
    | (show Mem.wf _ = true; assumption))

theorem keeps_stint {w₀ : Part → Prop} {r₀ : State} (s : State) (asn core : Nat) (hk : Keeps w₀ r₀ s)
    (w_regs : w₀ .regs := by first | assumption | exact trivial)
    (w_host : w₀ .host := by first | assumption | exact trivial)
    (w_dies : w₀ .dies := by first | assumption | exact trivial)
    (w_pages : w₀ .pages := by first | assumption | exact trivial)
    (w_moves : w₀ .moves := by first | assumption | exact trivial)
    (w_ctxs : w₀ .ctxs := by first | assumption | exact trivial)
    (w_groups : w₀ .groups := by first | assumption | exact trivial)
    (w_codecs : w₀ .codecs := by first | assumption | exact trivial)
    (w_modes : w₀ .modes := by first | assumption | exact trivial)
    (w_acct : w₀ .acct := by first | assumption | exact trivial)
    (w_store : w₀ .store := by first | assumption | exact trivial)
    (w_mem : w₀ .mem := by first | assumption | exact trivial)
    (w_traffic : w₀ .traffic := by first | assumption | exact trivial) :
    Keeps w₀ r₀ (stint s asn core) := by
  unfold stint
  dsimp only
  repeat' (first
    | with_reducible assumption | with_reducible apply keeps_seqDone | with_reducible apply keeps_seqRow
    | with_reducible apply keeps_notePark | with_reducible apply Keeps.upd | with_reducible rfl | with_reducible exact id
    | with_reducible exact Or.inl (by assumption) | with_reducible exact Or.inr rfl | with_reducible exact Or.inr ⟨rfl, rfl⟩
    | with_reducible exact Or.inr ⟨rfl, rfl, rfl⟩ | with_reducible exact Or.inr ⟨rfl, rfl, rfl, rfl⟩ | (exact fun _ h => h)
    | intro _ | (show Ctx.canon _; assumption) | with_reducible apply Ctx.canon_ite | (show Mem.wf _ = true; assumption)
    | with_reducible apply Keeps.ite | split)

theorem keeps_trig {w₀ : Part → Prop} {r₀ : State} (s : State) (asn core : Nat) (hk : Keeps w₀ r₀ s)
    (w_regs : w₀ .regs := by first | assumption | exact trivial)
    (w_host : w₀ .host := by first | assumption | exact trivial)
    (w_dies : w₀ .dies := by first | assumption | exact trivial)
    (w_pages : w₀ .pages := by first | assumption | exact trivial)
    (w_moves : w₀ .moves := by first | assumption | exact trivial)
    (w_ctxs : w₀ .ctxs := by first | assumption | exact trivial)
    (w_groups : w₀ .groups := by first | assumption | exact trivial)
    (w_codecs : w₀ .codecs := by first | assumption | exact trivial)
    (w_modes : w₀ .modes := by first | assumption | exact trivial)
    (w_acct : w₀ .acct := by first | assumption | exact trivial)
    (w_store : w₀ .store := by first | assumption | exact trivial)
    (w_mem : w₀ .mem := by first | assumption | exact trivial)
    (w_traffic : w₀ .traffic := by first | assumption | exact trivial) :
    Keeps w₀ r₀ (trig s asn core) := by
  unfold trig
  repeat' (first
    | with_reducible assumption | with_reducible apply keeps_addCounter | with_reducible apply keeps_haltCore
    | with_reducible apply keeps_seqDone | with_reducible apply keeps_seqRow | (exact fun _ h => h) | intro _
    | (show Ctx.canon _; assumption) | with_reducible apply Ctx.canon_ite | (show Mem.wf _ = true; assumption)
    | with_reducible apply Keeps.ite | split)

theorem keeps_fenceWaiters {w₀ : Part → Prop} {r₀ : State} (s : State) (asn sem : Nat) (hk : Keeps w₀ r₀ s)
    (w_ctxs : w₀ .ctxs := by first | assumption | exact trivial) :
    Keeps w₀ r₀ (fenceWaiters s asn sem) := by
  unfold fenceWaiters
  dsimp only
  repeat' (first
    | with_reducible assumption | with_reducible apply keeps_joinFence | with_reducible apply Keeps.foldl
    | with_reducible exact length_map' | intro _ | split)

theorem keeps_acceptDecant {w₀ : Part → Prop} {r₀ : State} (e : Env) (w : Nat) (runs : List CopyRun) (hk : Keeps w₀ r₀ e.s)
    (w_moves : w₀ .moves := by first | assumption | exact trivial)
    (w_ctxs : w₀ .ctxs := by first | assumption | exact trivial)
    (w_ids : w₀ .ids := by first | assumption | exact trivial) :
    Keeps w₀ r₀ (acceptDecant e w runs) := by
  unfold acceptDecant
  simp only [State.mk_build]
  repeat' (first
    | with_reducible assumption | with_reducible apply keeps_noteFirst | with_reducible apply keeps_fenceWaiters
    | with_reducible apply keeps_modCore | with_reducible apply Keeps.upd | with_reducible rfl | with_reducible exact id
    | with_reducible exact Or.inl (by assumption) | with_reducible exact Or.inr rfl | with_reducible exact Or.inr ⟨rfl, rfl⟩
    | with_reducible exact Or.inr ⟨rfl, rfl, rfl⟩ | with_reducible exact Or.inr ⟨rfl, rfl, rfl, rfl⟩
    | with_reducible exact length_map' | (exact fun _ h => h) | intro _ | (show Ctx.canon _; assumption)
    | with_reducible apply Ctx.canon_ite | (show Mem.wf _ = true; assumption) | with_reducible apply Keeps.ite | split)

theorem keeps_decantBody {w₀ : Part → Prop} {r₀ : State} (s : State) (e : Env) (w : Nat) (he : Keeps w₀ r₀ e.s) (hk : Keeps w₀ r₀ s)
    (w_regs : w₀ .regs := by first | assumption | exact trivial)
    (w_host : w₀ .host := by first | assumption | exact trivial)
    (w_dies : w₀ .dies := by first | assumption | exact trivial)
    (w_pages : w₀ .pages := by first | assumption | exact trivial)
    (w_moves : w₀ .moves := by first | assumption | exact trivial)
    (w_ctxs : w₀ .ctxs := by first | assumption | exact trivial)
    (w_groups : w₀ .groups := by first | assumption | exact trivial)
    (w_codecs : w₀ .codecs := by first | assumption | exact trivial)
    (w_modes : w₀ .modes := by first | assumption | exact trivial)
    (w_acct : w₀ .acct := by first | assumption | exact trivial)
    (w_store : w₀ .store := by first | assumption | exact trivial)
    (w_ids : w₀ .ids := by first | assumption | exact trivial) :
    Keeps w₀ r₀ (decantBody s e w) := by
  unfold decantBody
  repeat' (first
    | with_reducible assumption | with_reducible apply keeps_haltCore | with_reducible apply keeps_noteFirst
    | with_reducible apply keeps_acceptDecant | with_reducible apply keeps_modCore | with_reducible apply Keeps.upd
    | with_reducible rfl | with_reducible exact id | with_reducible exact Or.inl (by assumption)
    | with_reducible exact Or.inr rfl | with_reducible exact Or.inr ⟨rfl, rfl⟩ | with_reducible exact Or.inr ⟨rfl, rfl, rfl⟩
    | with_reducible exact Or.inr ⟨rfl, rfl, rfl, rfl⟩ | (exact fun _ h => h) | intro _ | (show Ctx.canon _; assumption)
    | with_reducible apply Ctx.canon_ite | (show Mem.wf _ = true; assumption) | with_reducible apply Keeps.ite | split)

theorem keeps_decantAccepted {w₀ : Part → Prop} {r₀ : State} (s : State) (asn core : Nat) (hk : Keeps w₀ r₀ s)
    (w_regs : w₀ .regs := by first | assumption | exact trivial)
    (w_host : w₀ .host := by first | assumption | exact trivial)
    (w_dies : w₀ .dies := by first | assumption | exact trivial)
    (w_pages : w₀ .pages := by first | assumption | exact trivial)
    (w_moves : w₀ .moves := by first | assumption | exact trivial)
    (w_ctxs : w₀ .ctxs := by first | assumption | exact trivial)
    (w_groups : w₀ .groups := by first | assumption | exact trivial)
    (w_codecs : w₀ .codecs := by first | assumption | exact trivial)
    (w_modes : w₀ .modes := by first | assumption | exact trivial)
    (w_acct : w₀ .acct := by first | assumption | exact trivial)
    (w_store : w₀ .store := by first | assumption | exact trivial)
    (w_mem : w₀ .mem := by first | assumption | exact trivial)
    (w_ids : w₀ .ids := by first | assumption | exact trivial)
    (w_traffic : w₀ .traffic := by first | assumption | exact trivial) :
    Keeps w₀ r₀ (decantAccepted s asn core) := by
  unfold decantAccepted
  repeat' (first
    | with_reducible assumption | with_reducible apply keeps_haltCore | with_reducible apply keeps_decantBody
    | (with_reducible exact Keeps.env hk (by assumption)) | (refine keeps_fetched ?_) | (exact fun _ h => h) | intro _
    | (show Ctx.canon _; assumption) | with_reducible apply Ctx.canon_ite | (show Mem.wf _ = true; assumption)
    | with_reducible apply Keeps.ite | split)

theorem keeps_stintOverrun {w₀ : Part → Prop} {r₀ : State} (s : State) (asn core : Nat) (hk : Keeps w₀ r₀ s)
    (w_regs : w₀ .regs := by first | assumption | exact trivial)
    (w_host : w₀ .host := by first | assumption | exact trivial)
    (w_dies : w₀ .dies := by first | assumption | exact trivial)
    (w_moves : w₀ .moves := by first | assumption | exact trivial)
    (w_ctxs : w₀ .ctxs := by first | assumption | exact trivial)
    (w_groups : w₀ .groups := by first | assumption | exact trivial)
    (w_codecs : w₀ .codecs := by first | assumption | exact trivial)
    (w_modes : w₀ .modes := by first | assumption | exact trivial)
    (w_acct : w₀ .acct := by first | assumption | exact trivial)
    (w_store : w₀ .store := by first | assumption | exact trivial) :
    Keeps w₀ r₀ (stintOverrun s asn core) := by
  unfold stintOverrun
  repeat' (first
    | with_reducible assumption | with_reducible apply keeps_dieFault | (exact fun _ h => h) | intro _
    | (show Ctx.canon _; assumption) | with_reducible apply Ctx.canon_ite | (show Mem.wf _ = true; assumption)
    | with_reducible apply Keeps.ite | split)

end Sys2Proof.Machine
end

