-- ==== Sys2Proof/Laws/KeepsProd.lean ====
section
/-! SUPPORT. Laws/KeepsProd.lean: what the operations of Machine/Prod.lean keep. -/

set_option Elab.async false

namespace Sys2Proof.Machine

theorem keeps_bumpPrec {w₀ : Part → Prop} {r₀ : State} (s : State) (off n : Nat) (hk : Keeps w₀ r₀ s)
    (w_regs : w₀ .regs := by first | assumption | exact trivial) :
    Keeps w₀ r₀ (bumpPrec s off n) := by
  unfold bumpPrec
  repeat' (first
    | with_reducible assumption | with_reducible apply keeps_setReg | intro _)

end Sys2Proof.Machine
end

