-- ==== Sys2Proof/Laws/KeepsUnits.lean ====
section
/-! SUPPORT. Laws/KeepsUnits.lean: what the operations of Machine/Units.lean keep. -/

set_option Elab.async false

namespace Sys2Proof.Machine

theorem keeps_Env.noteReads {w₀ : Part → Prop} {r₀ : State} (e : Env) (vpns : List Nat) (s : State) (hk : Keeps w₀ r₀ s)
    (w_traffic : w₀ .traffic := by first | assumption | exact trivial) :
    Keeps w₀ r₀ (Env.noteReads e vpns s) := by
  unfold Env.noteReads
  repeat' (first
    | with_reducible assumption | with_reducible apply Keeps.foldl | with_reducible apply keeps_Env.reads | intro _ | split)

theorem keeps_Env.noteWrites {w₀ : Part → Prop} {r₀ : State} (e : Env) (rs : List Run) (s : State) (hk : Keeps w₀ r₀ s)
    (w_traffic : w₀ .traffic := by first | assumption | exact trivial) :
    Keeps w₀ r₀ (Env.noteWrites e rs s) := by
  unfold Env.noteWrites
  repeat' (first
    | with_reducible assumption | with_reducible apply keeps_coreWrites | with_reducible apply keeps_eachPiece
    | with_reducible apply Keeps.foldl | intro _)

theorem keeps_haltFlight {w₀ : Part → Prop} {r₀ : State} (e : Env) (h : Halt) (hk : Keeps w₀ r₀ e.s)
    (w_regs : w₀ .regs := by first | assumption | exact trivial)
    (w_host : w₀ .host := by first | assumption | exact trivial)
    (w_dies : w₀ .dies := by first | assumption | exact trivial)
    (w_pages : w₀ .pages := by first | assumption | exact trivial)
    (w_moves : w₀ .moves := by first | assumption | exact trivial)
    (w_ctxs : w₀ .ctxs := by first | assumption | exact trivial)
    (w_groups : w₀ .groups := by first | assumption | exact trivial)
    (w_codecs : w₀ .codecs := by first | assumption | exact trivial)
    (w_modes : w₀ .modes := by first | assumption | exact trivial)
    (w_acct : w₀ .acct := by first | assumption | exact trivial)
    (w_store : w₀ .store := by first | assumption | exact trivial) :
    Keeps w₀ r₀ (haltFlight e h) := by
  unfold haltFlight
  repeat' (first
    | with_reducible assumption | with_reducible apply keeps_haltCore | with_reducible apply keeps_modCore
    | (exact fun _ h => h) | intro _ | (show Ctx.canon _; assumption) | with_reducible apply Ctx.canon_ite
    | (show Mem.wf _ = true; assumption) | split)

theorem openTracks_canon {c : Ctx} {cl : Nat} (h : c.canon) : (openTracks c cl).canon := ⟨h.1, pools_modAt (fun _ k => k) h.2⟩

theorem advanceTrack_canon {c : Ctx} {cl lo cnt idx : Nat} (h : c.canon) : (advanceTrack c cl lo cnt idx).canon :=
  openTracks_canon ⟨h.1, pools_modAt (fun _ k => k) h.2⟩

theorem keeps_noteWait {w₀ : Part → Prop} {r₀ : State} (s : State) (asn core : Nat) (w : FlightWait) (hk : Keeps w₀ r₀ s)
    (w_ctxs : w₀ .ctxs := by first | assumption | exact trivial) :
    Keeps w₀ r₀ (noteWait s asn core w) := by
  unfold noteWait
  repeat' (first
    | with_reducible assumption | with_reducible apply keeps_notePark | (exact openTracks_canon (by assumption))
    | with_reducible apply keeps_modCtx | (exact fun _ h => h) | intro _ | (show Ctx.canon _; assumption)
    | with_reducible apply Ctx.canon_ite | (show Mem.wf _ = true; assumption) | split)

theorem setXs_store (l : List (Nat × Word)) (k : Core) : (l.foldl (fun k r => k.setX r.1 r.2) k).store = k.store := by
  induction l generalizing k with
  | nil => rfl
  | cons r t ih => exact (ih _).trans (setX_store ..)

theorem onCore_store {p : Plan} {e : Env} {n : Nat} {l : List TasterTile} {k : Core} (h : k.store.wf = true) :
    (p.onCore e n l k).store.wf = true := by
  unfold Plan.onCore
  dsimp only
  split
  all_goals
    dsimp only [Core.drop]
    rw [setXs_store]
    exact h

theorem countCluster_canon {c : Ctx} {d i : Nat} {a : Acct} {f : Cluster → Cluster} (hf : ∀ q : Cluster, q.pool.wf = true → (f q).pool.wf = true)
    (h : c.canon) : ({ c.count d a with clusters := modAt c.clusters i f } : Ctx).canon := ⟨h.1, pools_modAt hf h.2⟩

theorem keeps_perform {w₀ : Part → Prop} {r₀ : State} (e : Env) (f : Flight) (pages : List Nat) (p : Plan) (hk : Keeps w₀ r₀ e.s)
    (w_regs : w₀ .regs := by first | assumption | exact trivial)
    (w_host : w₀ .host := by first | assumption | exact trivial)
    (w_dies : w₀ .dies := by first | assumption | exact trivial)
    (w_pages : w₀ .pages := by first | assumption | exact trivial)
    (w_moves : w₀ .moves := by first | assumption | exact trivial)
    (w_ctxs : w₀ .ctxs := by first | assumption | exact trivial)
    (w_groups : w₀ .groups := by first | assumption | exact trivial)
    (w_codecs : w₀ .codecs := by first | assumption | exact trivial)
    (w_modes : w₀ .modes := by first | assumption | exact trivial)
    (w_acct : w₀ .acct := by first | assumption | exact trivial)
    (w_store : w₀ .store := by first | assumption | exact trivial)
    (w_mem : w₀ .mem := by first | assumption | exact trivial)
    (w_ids : w₀ .ids := by first | assumption | exact trivial)
    (w_traffic : w₀ .traffic := by first | assumption | exact trivial) :
    Keeps w₀ r₀ (perform e f pages p) := by
  unfold perform
  simp only [State.mk_build]
  repeat' (first
    | with_reducible assumption | with_reducible apply keeps_orFlags | with_reducible apply keeps_putRuns
    | with_reducible apply keeps_bumpPrec | with_reducible apply keeps_haltFlight | with_reducible apply keeps_noteWait
    | (exact onCore_store (by assumption)) | (exact countCluster_canon (fun _ h => h) (by assumption))
    | with_reducible apply keeps_Env.noteReads | with_reducible apply keeps_Env.noteWrites
    | with_reducible apply keeps_modCore | with_reducible apply keeps_modCtx | with_reducible apply Keeps.upd
    | with_reducible rfl | with_reducible exact id | with_reducible exact Or.inl (by assumption)
    | with_reducible exact Or.inr rfl | with_reducible exact Or.inr ⟨rfl, rfl⟩ | with_reducible exact Or.inr ⟨rfl, rfl, rfl⟩
    | with_reducible exact Or.inr ⟨rfl, rfl, rfl, rfl⟩ | with_reducible exact length_modAt
    | with_reducible exact length_map' | (exact fun _ h => h) | (exact stores_map fun _ h => h)
    | (exact stores_map fun _ h => by split <;> exact h) | (exact pools_map fun _ h => h)
    | (exact stores_mapIdx fun _ _ h => h) | (exact pools_modAt fun _ h => h) | (exact fun h => h) | intro _
    | (show Ctx.canon _; assumption) | with_reducible apply Ctx.canon_ite | (show Mem.wf _ = true; assumption)
    | (refine Ctx.canon_cores (by assumption) ?_ ?_) | with_reducible apply Keeps.ite | split)

theorem keeps_meets {w₀ : Part → Prop} {r₀ : State} {α : Type} (f : Env → Except Halt α) (n : Nat) {e : Env} (hk : Keeps w₀ r₀ e.s)
    (w_dies : w₀ .dies := by first | assumption | exact trivial)
    (w_mem : w₀ .mem := by first | assumption | exact trivial) : Keeps w₀ r₀ (e.meets f n).s := by
  induction n generalizing e with
  | zero => exact hk
  | succ n ih =>
    unfold Env.meets
    split
    · dsimp only
      split
      · exact ih (keeps_meetVirt _ _ _ _ hk)
      · exact hk
    · exact hk

theorem keeps_met {w₀ : Part → Prop} {r₀ : State} {α : Type} {e : Env} (f : Env → Except Halt α) (hk : Keeps w₀ r₀ e.s)
    (w_dies : w₀ .dies := by first | assumption | exact trivial)
    (w_mem : w₀ .mem := by first | assumption | exact trivial) : Keeps w₀ r₀ (e.met f).s := keeps_meets f _ hk

theorem keeps_runFlight {w₀ : Part → Prop} {r₀ : State} (e : Env) (f : Flight) (run : Env → Nat → Except Halt Plan) (hk : Keeps w₀ r₀ e.s)
    (w_regs : w₀ .regs := by first | assumption | exact trivial)
    (w_host : w₀ .host := by first | assumption | exact trivial)
    (w_dies : w₀ .dies := by first | assumption | exact trivial)
    (w_pages : w₀ .pages := by first | assumption | exact trivial)
    (w_moves : w₀ .moves := by first | assumption | exact trivial)
    (w_ctxs : w₀ .ctxs := by first | assumption | exact trivial)
    (w_groups : w₀ .groups := by first | assumption | exact trivial)
    (w_codecs : w₀ .codecs := by first | assumption | exact trivial)
    (w_modes : w₀ .modes := by first | assumption | exact trivial)
    (w_acct : w₀ .acct := by first | assumption | exact trivial)
    (w_store : w₀ .store := by first | assumption | exact trivial)
    (w_mem : w₀ .mem := by first | assumption | exact trivial)
    (w_ids : w₀ .ids := by first | assumption | exact trivial)
    (w_traffic : w₀ .traffic := by first | assumption | exact trivial) :
    Keeps w₀ r₀ (runFlight e f run) := by
  unfold runFlight
  dsimp only
  repeat' (first
    | with_reducible assumption | with_reducible apply keeps_haltFlight | with_reducible apply keeps_perform
    | (refine keeps_met _ ?_) | intro _ | split)

theorem keeps_elim {w₀ : Part → Prop} {r₀ s : State} {α : Type} {o : Option α} {f : α → State} (hk : Keeps w₀ r₀ s)
    (hf : ∀ a, Keeps w₀ r₀ (f a)) : Keeps w₀ r₀ (o.elim s f) := by
  cases o with
  | none => exact hk
  | some a => exact hf a

theorem keeps_tryStart {w₀ : Part → Prop} {r₀ : State} (asn core : Nat) (s : State) (id : Nat) (hk : Keeps w₀ r₀ s)
    (w_regs : w₀ .regs := by first | assumption | exact trivial)
    (w_host : w₀ .host := by first | assumption | exact trivial)
    (w_dies : w₀ .dies := by first | assumption | exact trivial)
    (w_pages : w₀ .pages := by first | assumption | exact trivial)
    (w_moves : w₀ .moves := by first | assumption | exact trivial)
    (w_ctxs : w₀ .ctxs := by first | assumption | exact trivial)
    (w_groups : w₀ .groups := by first | assumption | exact trivial)
    (w_codecs : w₀ .codecs := by first | assumption | exact trivial)
    (w_modes : w₀ .modes := by first | assumption | exact trivial)
    (w_acct : w₀ .acct := by first | assumption | exact trivial)
    (w_store : w₀ .store := by first | assumption | exact trivial)
    (w_mem : w₀ .mem := by first | assumption | exact trivial)
    (w_ids : w₀ .ids := by first | assumption | exact trivial)
    (w_traffic : w₀ .traffic := by first | assumption | exact trivial) :
    Keeps w₀ r₀ (tryStart asn core s id) := by
  unfold tryStart
  repeat' (first
    | with_reducible assumption | with_reducible apply keeps_runFlight | with_reducible apply keeps_elim | (exact hk)
    | intro _ | with_reducible apply Keeps.ite | split)

theorem keeps_goCore {w₀ : Part → Prop} {r₀ : State} (asn core : Nat) (s : State) (hk : Keeps w₀ r₀ s)
    (w_regs : w₀ .regs := by first | assumption | exact trivial)
    (w_host : w₀ .host := by first | assumption | exact trivial)
    (w_dies : w₀ .dies := by first | assumption | exact trivial)
    (w_pages : w₀ .pages := by first | assumption | exact trivial)
    (w_moves : w₀ .moves := by first | assumption | exact trivial)
    (w_ctxs : w₀ .ctxs := by first | assumption | exact trivial)
    (w_groups : w₀ .groups := by first | assumption | exact trivial)
    (w_codecs : w₀ .codecs := by first | assumption | exact trivial)
    (w_modes : w₀ .modes := by first | assumption | exact trivial)
    (w_acct : w₀ .acct := by first | assumption | exact trivial)
    (w_store : w₀ .store := by first | assumption | exact trivial)
    (w_mem : w₀ .mem := by first | assumption | exact trivial)
    (w_ids : w₀ .ids := by first | assumption | exact trivial)
    (w_traffic : w₀ .traffic := by first | assumption | exact trivial) :
    Keeps w₀ r₀ (goCore asn core s) := by
  unfold goCore
  dsimp only
  repeat' (first
    | with_reducible assumption | with_reducible apply keeps_notePeak | with_reducible apply keeps_tryStart
    | with_reducible apply Keeps.foldl | with_reducible apply keeps_modCore | with_reducible exact length_map'
    | (exact fun _ h => h) | intro _ | (show Ctx.canon _; assumption) | with_reducible apply Ctx.canon_ite
    | (show Mem.wf _ = true; assumption) | split)

theorem keeps_goCtx {w₀ : Part → Prop} {r₀ : State} (s : State) (asn : Nat) (hk : Keeps w₀ r₀ s)
    (w_regs : w₀ .regs := by first | assumption | exact trivial)
    (w_host : w₀ .host := by first | assumption | exact trivial)
    (w_dies : w₀ .dies := by first | assumption | exact trivial)
    (w_pages : w₀ .pages := by first | assumption | exact trivial)
    (w_moves : w₀ .moves := by first | assumption | exact trivial)
    (w_ctxs : w₀ .ctxs := by first | assumption | exact trivial)
    (w_groups : w₀ .groups := by first | assumption | exact trivial)
    (w_codecs : w₀ .codecs := by first | assumption | exact trivial)
    (w_modes : w₀ .modes := by first | assumption | exact trivial)
    (w_acct : w₀ .acct := by first | assumption | exact trivial)
    (w_store : w₀ .store := by first | assumption | exact trivial)
    (w_mem : w₀ .mem := by first | assumption | exact trivial)
    (w_ids : w₀ .ids := by first | assumption | exact trivial)
    (w_traffic : w₀ .traffic := by first | assumption | exact trivial) :
    Keeps w₀ r₀ (goCtx s asn) := by
  unfold goCtx
  repeat' (first
    | with_reducible assumption | with_reducible apply keeps_goCore | with_reducible apply Keeps.foldl
    | (exact fun _ h => h) | intro _ | (show Ctx.canon _; assumption) | with_reducible apply Ctx.canon_ite
    | (show Mem.wf _ = true; assumption) | split)

theorem keeps_place {w₀ : Part → Prop} {r₀ : State} (e : Env) (w : Nat) (pr : Prep) (i : Issued) (pages : List Nat) (hk : Keeps w₀ r₀ e.s)
    (w_ctxs : w₀ .ctxs := by first | assumption | exact trivial)
    (w_ids : w₀ .ids := by first | assumption | exact trivial)
    (w_traffic : w₀ .traffic := by first | assumption | exact trivial) :
    Keeps w₀ r₀ (place e w pr i pages) := by
  unfold place
  simp only [State.mk_build]
  repeat' (first
    | with_reducible assumption | with_reducible apply keeps_noteFirst | with_reducible apply keeps_Env.noteReads
    | with_reducible apply keeps_modCore | with_reducible apply Keeps.upd | with_reducible rfl | with_reducible exact id
    | with_reducible exact Or.inl (by assumption) | with_reducible exact Or.inr rfl | with_reducible exact Or.inr ⟨rfl, rfl⟩
    | with_reducible exact Or.inr ⟨rfl, rfl, rfl⟩ | with_reducible exact Or.inr ⟨rfl, rfl, rfl, rfl⟩ | (exact fun _ h => h)
    | intro _ | (show Ctx.canon _; assumption) | with_reducible apply Ctx.canon_ite | (show Mem.wf _ = true; assumption))

theorem keeps_issueUnit {w₀ : Part → Prop} {r₀ : State} (e : Env) (w : Nat) (pr : Prep) (i : Issued) (pages : List Nat) (hk : Keeps w₀ r₀ e.s)
    (w_regs : w₀ .regs := by first | assumption | exact trivial)
    (w_host : w₀ .host := by first | assumption | exact trivial)
    (w_dies : w₀ .dies := by first | assumption | exact trivial)
    (w_pages : w₀ .pages := by first | assumption | exact trivial)
    (w_moves : w₀ .moves := by first | assumption | exact trivial)
    (w_ctxs : w₀ .ctxs := by first | assumption | exact trivial)
    (w_groups : w₀ .groups := by first | assumption | exact trivial)
    (w_codecs : w₀ .codecs := by first | assumption | exact trivial)
    (w_modes : w₀ .modes := by first | assumption | exact trivial)
    (w_acct : w₀ .acct := by first | assumption | exact trivial)
    (w_store : w₀ .store := by first | assumption | exact trivial)
    (w_mem : w₀ .mem := by first | assumption | exact trivial)
    (w_ids : w₀ .ids := by first | assumption | exact trivial)
    (w_traffic : w₀ .traffic := by first | assumption | exact trivial) :
    Keeps w₀ r₀ (issueUnit e w pr i pages) := by
  unfold issueUnit
  repeat' (first
    | with_reducible assumption | with_reducible apply keeps_goCore | with_reducible apply keeps_place
    | (exact fun _ h => h) | intro _ | (show Ctx.canon _; assumption) | with_reducible apply Ctx.canon_ite
    | (show Mem.wf _ = true; assumption))

theorem keeps_unitBody {w₀ : Part → Prop} {r₀ : State} (s : State) (e : Env) (w : Nat) (he : Keeps w₀ r₀ e.s) (hk : Keeps w₀ r₀ s)
    (w_regs : w₀ .regs := by first | assumption | exact trivial)
    (w_host : w₀ .host := by first | assumption | exact trivial)
    (w_dies : w₀ .dies := by first | assumption | exact trivial)
    (w_pages : w₀ .pages := by first | assumption | exact trivial)
    (w_moves : w₀ .moves := by first | assumption | exact trivial)
    (w_ctxs : w₀ .ctxs := by first | assumption | exact trivial)
    (w_groups : w₀ .groups := by first | assumption | exact trivial)
    (w_codecs : w₀ .codecs := by first | assumption | exact trivial)
    (w_modes : w₀ .modes := by first | assumption | exact trivial)
    (w_acct : w₀ .acct := by first | assumption | exact trivial)
    (w_store : w₀ .store := by first | assumption | exact trivial)
    (w_mem : w₀ .mem := by first | assumption | exact trivial)
    (w_ids : w₀ .ids := by first | assumption | exact trivial)
    (w_traffic : w₀ .traffic := by first | assumption | exact trivial) :
    Keeps w₀ r₀ (unitBody s e w) := by
  unfold unitBody
  dsimp only
  repeat' (first
    | with_reducible assumption | with_reducible apply keeps_haltCore | with_reducible apply keeps_issueUnit
    | (refine keeps_met _ ?_) | (exact fun _ h => h) | intro _ | (show Ctx.canon _; assumption)
    | with_reducible apply Ctx.canon_ite | (show Mem.wf _ = true; assumption) | with_reducible apply Keeps.ite | split)

theorem keeps_unitRow {w₀ : Part → Prop} {r₀ : State} (s : State) (asn core : Nat) (mine : Nat → Bool) (hk : Keeps w₀ r₀ s)
    (w_regs : w₀ .regs := by first | assumption | exact trivial)
    (w_host : w₀ .host := by first | assumption | exact trivial)
    (w_dies : w₀ .dies := by first | assumption | exact trivial)
    (w_pages : w₀ .pages := by first | assumption | exact trivial)
    (w_moves : w₀ .moves := by first | assumption | exact trivial)
    (w_ctxs : w₀ .ctxs := by first | assumption | exact trivial)
    (w_groups : w₀ .groups := by first | assumption | exact trivial)
    (w_codecs : w₀ .codecs := by first | assumption | exact trivial)
    (w_modes : w₀ .modes := by first | assumption | exact trivial)
    (w_acct : w₀ .acct := by first | assumption | exact trivial)
    (w_store : w₀ .store := by first | assumption | exact trivial)
    (w_mem : w₀ .mem := by first | assumption | exact trivial)
    (w_ids : w₀ .ids := by first | assumption | exact trivial)
    (w_traffic : w₀ .traffic := by first | assumption | exact trivial) :
    Keeps w₀ r₀ (unitRow s asn core mine) := by
  unfold unitRow
  repeat' (first
    | with_reducible assumption | with_reducible apply keeps_tileRow | with_reducible apply keeps_unitBody | intro _)

theorem keeps_epochRow {w₀ : Part → Prop} {r₀ : State} (s : State) (asn core : Nat) (mine : Nat → Bool) (taster : Bool) (hk : Keeps w₀ r₀ s)
    (w_regs : w₀ .regs := by first | assumption | exact trivial)
    (w_host : w₀ .host := by first | assumption | exact trivial)
    (w_dies : w₀ .dies := by first | assumption | exact trivial)
    (w_pages : w₀ .pages := by first | assumption | exact trivial)
    (w_moves : w₀ .moves := by first | assumption | exact trivial)
    (w_ctxs : w₀ .ctxs := by first | assumption | exact trivial)
    (w_groups : w₀ .groups := by first | assumption | exact trivial)
    (w_codecs : w₀ .codecs := by first | assumption | exact trivial)
    (w_modes : w₀ .modes := by first | assumption | exact trivial)
    (w_acct : w₀ .acct := by first | assumption | exact trivial)
    (w_store : w₀ .store := by first | assumption | exact trivial)
    (w_mem : w₀ .mem := by first | assumption | exact trivial)
    (w_ids : w₀ .ids := by first | assumption | exact trivial)
    (w_traffic : w₀ .traffic := by first | assumption | exact trivial) :
    Keeps w₀ r₀ (epochRow s asn core mine taster) := by
  unfold epochRow
  repeat' (first
    | with_reducible assumption | with_reducible apply keeps_tileRow | with_reducible apply keeps_unitBody
    | with_reducible apply keeps_modCore | with_reducible apply Keeps.upd | with_reducible rfl | with_reducible exact id
    | with_reducible exact Or.inl (by assumption) | with_reducible exact Or.inr rfl | with_reducible exact Or.inr ⟨rfl, rfl⟩
    | with_reducible exact Or.inr ⟨rfl, rfl, rfl⟩ | with_reducible exact Or.inr ⟨rfl, rfl, rfl, rfl⟩ | (exact fun _ h => h)
    | intro _ | (show Ctx.canon _; assumption) | with_reducible apply Ctx.canon_ite | (show Mem.wf _ = true; assumption)
    | with_reducible apply Keeps.ite | split)

theorem keeps_onDieErrors {w₀ : Part → Prop} {r₀ : State} (s : State) (d : Nat) (errs : Completion) (hk : Keeps w₀ r₀ s)
    (w_dies : w₀ .dies := by first | assumption | exact trivial)
    (w_store : w₀ .store := by first | assumption | exact trivial) :
    Keeps w₀ r₀ (onDieErrors s d errs) := by
  unfold onDieErrors
  simp only [State.mk_build]
  repeat' (first
    | with_reducible assumption | with_reducible apply keeps_modDie | with_reducible apply Keeps.upd | with_reducible rfl
    | with_reducible exact id | with_reducible exact Or.inl (by assumption) | with_reducible exact Or.inr rfl
    | with_reducible exact Or.inr ⟨rfl, rfl⟩ | with_reducible exact Or.inr ⟨rfl, rfl, rfl⟩
    | with_reducible exact Or.inr ⟨rfl, rfl, rfl, rfl⟩ | (exact fun _ h => h) | intro _ | (show Ctx.canon _; assumption)
    | with_reducible apply Ctx.canon_ite | (show Mem.wf _ = true; assumption))

theorem keeps_instructionComplete {w₀ : Part → Prop} {r₀ : State} (s0 : State) (asn core : Nat) (errs : Completion) (hk : Keeps w₀ r₀ s0)
    (w_regs : w₀ .regs := by first | assumption | exact trivial)
    (w_host : w₀ .host := by first | assumption | exact trivial)
    (w_dies : w₀ .dies := by first | assumption | exact trivial)
    (w_pages : w₀ .pages := by first | assumption | exact trivial)
    (w_moves : w₀ .moves := by first | assumption | exact trivial)
    (w_ctxs : w₀ .ctxs := by first | assumption | exact trivial)
    (w_groups : w₀ .groups := by first | assumption | exact trivial)
    (w_codecs : w₀ .codecs := by first | assumption | exact trivial)
    (w_modes : w₀ .modes := by first | assumption | exact trivial)
    (w_acct : w₀ .acct := by first | assumption | exact trivial)
    (w_store : w₀ .store := by first | assumption | exact trivial)
    (w_mem : w₀ .mem := by first | assumption | exact trivial)
    (w_ids : w₀ .ids := by first | assumption | exact trivial)
    (w_traffic : w₀ .traffic := by first | assumption | exact trivial) :
    Keeps w₀ r₀ (instructionComplete s0 asn core errs) := by
  unfold instructionComplete
  dsimp only
  repeat' (first
    | with_reducible assumption | with_reducible apply keeps_addSem | with_reducible apply keeps_dieFault
    | with_reducible apply keeps_goCore | with_reducible apply keeps_onDieErrors | (rw [Core.finish_store]; assumption)
    | with_reducible apply keeps_modCore | with_reducible exact length_map' | (exact fun _ h => h) | intro _
    | (show Ctx.canon _; assumption) | with_reducible apply Ctx.canon_ite | (show Mem.wf _ = true; assumption)
    | with_reducible apply Keeps.ite | split)

theorem flightEnv_s {s : State} {asn core id : Nat} {e : Env} {f : Flight} (h : flightEnv s asn core id = some (e, f)) : e.s = s := by
  unfold flightEnv at h
  split at h
  · split at h
    · split at h
      · cases h
        rfl
      · cases h
    · cases h
  · cases h

theorem keeps_orderedTurn {w₀ : Part → Prop} {r₀ : State} (s : State) (asn core id : Nat) (hk : Keeps w₀ r₀ s)
    (w_regs : w₀ .regs := by first | assumption | exact trivial)
    (w_host : w₀ .host := by first | assumption | exact trivial)
    (w_dies : w₀ .dies := by first | assumption | exact trivial)
    (w_pages : w₀ .pages := by first | assumption | exact trivial)
    (w_moves : w₀ .moves := by first | assumption | exact trivial)
    (w_ctxs : w₀ .ctxs := by first | assumption | exact trivial)
    (w_groups : w₀ .groups := by first | assumption | exact trivial)
    (w_codecs : w₀ .codecs := by first | assumption | exact trivial)
    (w_modes : w₀ .modes := by first | assumption | exact trivial)
    (w_acct : w₀ .acct := by first | assumption | exact trivial)
    (w_store : w₀ .store := by first | assumption | exact trivial)
    (w_mem : w₀ .mem := by first | assumption | exact trivial)
    (w_ids : w₀ .ids := by first | assumption | exact trivial)
    (w_traffic : w₀ .traffic := by first | assumption | exact trivial) :
    Keeps w₀ r₀ (orderedTurn s asn core id) := by
  unfold orderedTurn
  dsimp only
  repeat' (first
    | with_reducible assumption | with_reducible apply keeps_runFlight | with_reducible apply keeps_goCore
    | (exact advanceTrack_canon (by assumption))
    | (have he := flightEnv_s (by assumption : flightEnv _ _ _ _ = some _); rw [he]; exact hk)
    | with_reducible apply keeps_modCtx | with_reducible exact length_map' | (exact fun _ h => h) | intro _
    | (show Ctx.canon _; assumption) | with_reducible apply Ctx.canon_ite | (show Mem.wf _ = true; assumption)
    | with_reducible apply Keeps.ite | split)

theorem keeps_pieceLandingReady {w₀ : Part → Prop} {r₀ : State} (s : State) (asn core id : Nat) (hk : Keeps w₀ r₀ s)
    (w_regs : w₀ .regs := by first | assumption | exact trivial)
    (w_host : w₀ .host := by first | assumption | exact trivial)
    (w_dies : w₀ .dies := by first | assumption | exact trivial)
    (w_pages : w₀ .pages := by first | assumption | exact trivial)
    (w_moves : w₀ .moves := by first | assumption | exact trivial)
    (w_ctxs : w₀ .ctxs := by first | assumption | exact trivial)
    (w_groups : w₀ .groups := by first | assumption | exact trivial)
    (w_codecs : w₀ .codecs := by first | assumption | exact trivial)
    (w_modes : w₀ .modes := by first | assumption | exact trivial)
    (w_acct : w₀ .acct := by first | assumption | exact trivial)
    (w_store : w₀ .store := by first | assumption | exact trivial)
    (w_mem : w₀ .mem := by first | assumption | exact trivial)
    (w_ids : w₀ .ids := by first | assumption | exact trivial)
    (w_traffic : w₀ .traffic := by first | assumption | exact trivial) :
    Keeps w₀ r₀ (pieceLandingReady s asn core id) := by
  unfold pieceLandingReady
  repeat' (first
    | with_reducible assumption | with_reducible apply keeps_runFlight | with_reducible apply keeps_goCore
    | (have he := flightEnv_s (by assumption : flightEnv _ _ _ _ = some _); rw [he]; exact hk) | (exact fun _ h => h)
    | intro _ | (show Ctx.canon _; assumption) | with_reducible apply Ctx.canon_ite | (show Mem.wf _ = true; assumption)
    | with_reducible apply Keeps.ite | split)

end Sys2Proof.Machine
end

