-- ==== Sys2Proof/Laws/KeepsTaster.lean ====
section
/-! SUPPORT. Laws/KeepsTaster.lean: what the operations of Machine/Taster.lean keep. -/

set_option Elab.async false

namespace Sys2Proof.Machine

theorem keeps_noteWide {w₀ : Part → Prop} {r₀ : State} (s : State) (asn : Nat) (t : TasterTile) (hk : Keeps w₀ r₀ s)
    (w_regs : w₀ .regs := by first | assumption | exact trivial)
    (w_host : w₀ .host := by first | assumption | exact trivial)
    (w_ctxs : w₀ .ctxs := by first | assumption | exact trivial) :
    Keeps w₀ r₀ (noteWide s asn t) := by
  unfold noteWide
  dsimp only
  repeat' (first
    | with_reducible assumption | with_reducible apply keeps_sendMsg | with_reducible apply keeps_bumpPrec
    | with_reducible apply keeps_modCore | with_reducible apply keeps_modCtx | with_reducible apply Keeps.upd
    | with_reducible rfl | with_reducible exact id | with_reducible exact Or.inl (by assumption)
    | with_reducible exact Or.inr rfl | with_reducible exact Or.inr ⟨rfl, rfl⟩ | with_reducible exact Or.inr ⟨rfl, rfl, rfl⟩
    | with_reducible exact Or.inr ⟨rfl, rfl, rfl, rfl⟩ | with_reducible exact length_modAt | (exact fun _ h => h) | intro _
    | (show Ctx.canon _; assumption) | with_reducible apply Ctx.canon_ite | (show Mem.wf _ = true; assumption)
    | with_reducible apply Keeps.ite | split)

theorem keeps_refillQueue {w₀ : Part → Prop} {r₀ : State} (s : State) (asn cl : Nat) (hk : Keeps w₀ r₀ s)
    (w_ctxs : w₀ .ctxs := by first | assumption | exact trivial) :
    Keeps w₀ r₀ (refillQueue s asn cl) := by
  unfold refillQueue
  repeat' (first
    | with_reducible assumption | (exact stores_modAt fun _ h => h) | with_reducible apply keeps_modCtx
    | with_reducible apply Keeps.upd | with_reducible rfl | with_reducible exact id
    | with_reducible exact Or.inl (by assumption) | with_reducible exact Or.inr rfl | with_reducible exact Or.inr ⟨rfl, rfl⟩
    | with_reducible exact Or.inr ⟨rfl, rfl, rfl⟩ | with_reducible exact Or.inr ⟨rfl, rfl, rfl, rfl⟩
    | with_reducible exact length_modAt | with_reducible exact length_map' | (exact fun _ h => h)
    | (exact stores_map fun _ h => h) | (exact stores_map fun _ h => by split <;> exact h) | (exact pools_map fun _ h => h)
    | (exact stores_mapIdx fun _ _ h => h) | (exact pools_modAt fun _ h => h) | (exact fun h => h) | intro _
    | (show Ctx.canon _; assumption) | with_reducible apply Ctx.canon_ite | (show Mem.wf _ = true; assumption)
    | (refine Ctx.canon_cores (by assumption) ?_ ?_) | with_reducible apply Keeps.ite | split)

theorem keeps_giveVerdict {w₀ : Part → Prop} {r₀ : State} (e : Env) (cl : Nat) (t : TasterTile) (v : Verdict) (hk : Keeps w₀ r₀ e.s)
    (w_regs : w₀ .regs := by first | assumption | exact trivial)
    (w_host : w₀ .host := by first | assumption | exact trivial)
    (w_dies : w₀ .dies := by first | assumption | exact trivial)
    (w_pages : w₀ .pages := by first | assumption | exact trivial)
    (w_moves : w₀ .moves := by first | assumption | exact trivial)
    (w_ctxs : w₀ .ctxs := by first | assumption | exact trivial)
    (w_groups : w₀ .groups := by first | assumption | exact trivial)
    (w_codecs : w₀ .codecs := by first | assumption | exact trivial)
    (w_modes : w₀ .modes := by first | assumption | exact trivial)
    (w_acct : w₀ .acct := by first | assumption | exact trivial)
    (w_store : w₀ .store := by first | assumption | exact trivial)
    (w_mem : w₀ .mem := by first | assumption | exact trivial)
    (w_ids : w₀ .ids := by first | assumption | exact trivial)
    (w_traffic : w₀ .traffic := by first | assumption | exact trivial) :
    Keeps w₀ r₀ (giveVerdict e cl t v) := by
  unfold giveVerdict
  dsimp only
  repeat' (first
    | with_reducible assumption | with_reducible apply keeps_orFlags | with_reducible apply keeps_putRuns
    | with_reducible apply keeps_bumpPrec | with_reducible apply keeps_goCore | with_reducible apply keeps_noteWide
    | with_reducible apply keeps_refillQueue
    | (have he := flightEnv_s (by assumption : flightEnv _ _ _ _ = some _); rw [he]; assumption)
    | with_reducible apply Keeps.foldl | with_reducible apply keeps_Env.noteWrites | with_reducible apply keeps_modCore
    | with_reducible apply keeps_modCtx | with_reducible apply Keeps.upd | with_reducible rfl | with_reducible exact id
    | with_reducible exact Or.inl (by assumption) | with_reducible exact Or.inr rfl | with_reducible exact Or.inr ⟨rfl, rfl⟩
    | with_reducible exact Or.inr ⟨rfl, rfl, rfl⟩ | with_reducible exact Or.inr ⟨rfl, rfl, rfl, rfl⟩
    | with_reducible exact length_modAt | with_reducible exact length_map' | (exact fun _ h => h)
    | (exact stores_map fun _ h => h) | (exact stores_map fun _ h => by split <;> exact h) | (exact pools_map fun _ h => h)
    | (exact stores_mapIdx fun _ _ h => h) | (exact pools_modAt fun _ h => h) | (exact fun h => h) | intro _
    | (show Ctx.canon _; assumption) | with_reducible apply Ctx.canon_ite | (show Mem.wf _ = true; assumption)
    | (refine Ctx.canon_cores (by assumption) ?_ ?_) | with_reducible apply Keeps.ite | split)

theorem keeps_tasterVerdict {w₀ : Part → Prop} {r₀ : State} (s : State) (asn cl : Nat) (hk : Keeps w₀ r₀ s)
    (w_regs : w₀ .regs := by first | assumption | exact trivial)
    (w_host : w₀ .host := by first | assumption | exact trivial)
    (w_dies : w₀ .dies := by first | assumption | exact trivial)
    (w_pages : w₀ .pages := by first | assumption | exact trivial)
    (w_moves : w₀ .moves := by first | assumption | exact trivial)
    (w_ctxs : w₀ .ctxs := by first | assumption | exact trivial)
    (w_groups : w₀ .groups := by first | assumption | exact trivial)
    (w_codecs : w₀ .codecs := by first | assumption | exact trivial)
    (w_modes : w₀ .modes := by first | assumption | exact trivial)
    (w_acct : w₀ .acct := by first | assumption | exact trivial)
    (w_store : w₀ .store := by first | assumption | exact trivial)
    (w_mem : w₀ .mem := by first | assumption | exact trivial)
    (w_ids : w₀ .ids := by first | assumption | exact trivial)
    (w_traffic : w₀ .traffic := by first | assumption | exact trivial) :
    Keeps w₀ r₀ (tasterVerdict s asn cl) := by
  unfold tasterVerdict
  dsimp only
  repeat' (first
    | with_reducible assumption | with_reducible apply keeps_haltCore | with_reducible apply keeps_giveVerdict
    | (have he := flightEnv_s (by assumption : flightEnv _ _ _ _ = some _); rw [he]; assumption) | (exact fun _ h => h)
    | intro _ | (show Ctx.canon _; assumption) | with_reducible apply Ctx.canon_ite | (show Mem.wf _ = true; assumption)
    | with_reducible apply Keeps.ite | split)

end Sys2Proof.Machine
end

