-- ==== Sys2Proof/Laws/KeepsKeeper.lean ====
section
/-! SUPPORT. Laws/KeepsKeeper.lean: what the operations of Machine/Keeper.lean keep. -/

set_option Elab.async false

namespace Sys2Proof.Machine

theorem keeps_putSet {w₀ : Part → Prop} {r₀ : State} (s : State) (asn : Nat) (v : VersionSet) (hk : Keeps w₀ r₀ s)
    (w_ctxs : w₀ .ctxs := by first | assumption | exact trivial) :
    Keeps w₀ r₀ (putSet s asn v) := by
  unfold putSet
  repeat' (first
    | with_reducible assumption | with_reducible apply keeps_modCtx | with_reducible apply Keeps.upd | with_reducible rfl
    | with_reducible exact id | with_reducible exact Or.inl (by assumption) | with_reducible exact Or.inr rfl
    | with_reducible exact Or.inr ⟨rfl, rfl⟩ | with_reducible exact Or.inr ⟨rfl, rfl, rfl⟩
    | with_reducible exact Or.inr ⟨rfl, rfl, rfl, rfl⟩ | (exact fun _ h => h) | intro _ | (show Ctx.canon _; assumption)
    | with_reducible apply Ctx.canon_ite | (show Mem.wf _ = true; assumption))

theorem keeps_hubWrite {w₀ : Part → Prop} {r₀ : State} (s : State) (asn va : Nat) (b : Bytes) (hk : Keeps w₀ r₀ s)
    (w_regs : w₀ .regs := by first | assumption | exact trivial)
    (w_dies : w₀ .dies := by first | assumption | exact trivial)
    (w_pages : w₀ .pages := by first | assumption | exact trivial)
    (w_moves : w₀ .moves := by first | assumption | exact trivial)
    (w_mem : w₀ .mem := by first | assumption | exact trivial)
    (w_traffic : w₀ .traffic := by first | assumption | exact trivial) :
    Keeps w₀ r₀ (hubWrite s asn va b) := by
  unfold hubWrite
  repeat' (first
    | with_reducible assumption | with_reducible apply keeps_agentWrite | intro _ | split)

theorem keeps_rewriteRecord {w₀ : Part → Prop} {r₀ : State} (s : State) (asn : Nat) (v : VersionSet) (version : Nat) (hk : Keeps w₀ r₀ s)
    (w_regs : w₀ .regs := by first | assumption | exact trivial)
    (w_dies : w₀ .dies := by first | assumption | exact trivial)
    (w_pages : w₀ .pages := by first | assumption | exact trivial)
    (w_moves : w₀ .moves := by first | assumption | exact trivial)
    (w_mem : w₀ .mem := by first | assumption | exact trivial)
    (w_traffic : w₀ .traffic := by first | assumption | exact trivial) :
    Keeps w₀ r₀ (rewriteRecord s asn v version) := by
  unfold rewriteRecord
  repeat' (first
    | with_reducible assumption | with_reducible apply keeps_hubWrite | intro _)

theorem keeps_startVersionSet {w₀ : Part → Prop} {r₀ : State} (h : CmdHdr) (asn set slots semBase rec0 : Nat) (s : State) (hk : Keeps w₀ r₀ s)
    (w_regs : w₀ .regs := by first | assumption | exact trivial)
    (w_host : w₀ .host := by first | assumption | exact trivial)
    (w_ctxs : w₀ .ctxs := by first | assumption | exact trivial) :
    Keeps w₀ r₀ (startVersionSet h asn set slots semBase rec0 s) := by
  unfold startVersionSet
  dsimp only
  repeat' (first
    | with_reducible assumption | with_reducible apply keeps_complete | with_reducible apply keeps_putSet | intro _
    | with_reducible apply Keeps.ite | split)

theorem keeps_resetSets {w₀ : Part → Prop} {r₀ : State} (s : State) (asn : Nat) (hk : Keeps w₀ r₀ s)
    (w_regs : w₀ .regs := by first | assumption | exact trivial)
    (w_dies : w₀ .dies := by first | assumption | exact trivial)
    (w_pages : w₀ .pages := by first | assumption | exact trivial)
    (w_moves : w₀ .moves := by first | assumption | exact trivial)
    (w_ctxs : w₀ .ctxs := by first | assumption | exact trivial)
    (w_mem : w₀ .mem := by first | assumption | exact trivial)
    (w_traffic : w₀ .traffic := by first | assumption | exact trivial) :
    Keeps w₀ r₀ (resetSets s asn) := by
  unfold resetSets
  dsimp only
  repeat' (first
    | with_reducible assumption | with_reducible apply keeps_putSet | with_reducible apply keeps_rewriteRecord
    | with_reducible apply Keeps.foldl | intro _ | split)

theorem keeps_keeperAct {w₀ : Part → Prop} {r₀ : State} (s : State) (asn : Nat) (v w : VersionSet) (role version : Nat) (sig : Option Nat) (hk : Keeps w₀ r₀ s)
    (w_regs : w₀ .regs := by first | assumption | exact trivial)
    (w_dies : w₀ .dies := by first | assumption | exact trivial)
    (w_pages : w₀ .pages := by first | assumption | exact trivial)
    (w_moves : w₀ .moves := by first | assumption | exact trivial)
    (w_ctxs : w₀ .ctxs := by first | assumption | exact trivial)
    (w_mem : w₀ .mem := by first | assumption | exact trivial)
    (w_traffic : w₀ .traffic := by first | assumption | exact trivial) :
    Keeps w₀ r₀ (keeperAct s asn v w role version sig) := by
  unfold keeperAct
  dsimp only
  repeat' (first
    | with_reducible assumption | with_reducible apply keeps_addSem | with_reducible apply keeps_takeSem
    | with_reducible apply keeps_putSet | with_reducible apply keeps_rewriteRecord | intro _ | split)

theorem keeps_keeper {w₀ : Part → Prop} {r₀ : State} (s : State) (asn n : Nat) (may : VersionSet → Bool) (act : VersionSet → State) (hact : ∀ v, Keeps w₀ r₀ (act v)) (hk : Keeps w₀ r₀ s) :
    Keeps w₀ r₀ (keeper s asn n may act) := by
  unfold keeper
  repeat' (first
    | with_reducible assumption | with_reducible apply hact | intro _ | with_reducible apply Keeps.ite | split)

theorem keeps_keeperRetire {w₀ : Part → Prop} {r₀ : State} (s : State) (asn n : Nat) (hk : Keeps w₀ r₀ s)
    (w_regs : w₀ .regs := by first | assumption | exact trivial)
    (w_dies : w₀ .dies := by first | assumption | exact trivial)
    (w_pages : w₀ .pages := by first | assumption | exact trivial)
    (w_moves : w₀ .moves := by first | assumption | exact trivial)
    (w_ctxs : w₀ .ctxs := by first | assumption | exact trivial)
    (w_mem : w₀ .mem := by first | assumption | exact trivial)
    (w_traffic : w₀ .traffic := by first | assumption | exact trivial) :
    Keeps w₀ r₀ (keeperRetire s asn n) := by
  unfold keeperRetire
  repeat' (first
    | with_reducible assumption | with_reducible apply keeps_keeperAct | with_reducible apply keeps_keeper | intro _)

theorem keeps_keeperPublish {w₀ : Part → Prop} {r₀ : State} (s : State) (asn n : Nat) (hk : Keeps w₀ r₀ s)
    (w_regs : w₀ .regs := by first | assumption | exact trivial)
    (w_dies : w₀ .dies := by first | assumption | exact trivial)
    (w_pages : w₀ .pages := by first | assumption | exact trivial)
    (w_moves : w₀ .moves := by first | assumption | exact trivial)
    (w_ctxs : w₀ .ctxs := by first | assumption | exact trivial)
    (w_mem : w₀ .mem := by first | assumption | exact trivial)
    (w_traffic : w₀ .traffic := by first | assumption | exact trivial) :
    Keeps w₀ r₀ (keeperPublish s asn n) := by
  unfold keeperPublish
  dsimp only
  repeat' (first
    | with_reducible assumption | with_reducible apply keeps_keeperAct | with_reducible apply keeps_keeper | intro _)

theorem keeps_keeperClaim {w₀ : Part → Prop} {r₀ : State} (s : State) (asn n : Nat) (hk : Keeps w₀ r₀ s)
    (w_regs : w₀ .regs := by first | assumption | exact trivial)
    (w_dies : w₀ .dies := by first | assumption | exact trivial)
    (w_pages : w₀ .pages := by first | assumption | exact trivial)
    (w_moves : w₀ .moves := by first | assumption | exact trivial)
    (w_ctxs : w₀ .ctxs := by first | assumption | exact trivial)
    (w_mem : w₀ .mem := by first | assumption | exact trivial)
    (w_traffic : w₀ .traffic := by first | assumption | exact trivial) :
    Keeps w₀ r₀ (keeperClaim s asn n) := by
  unfold keeperClaim
  repeat' (first
    | with_reducible assumption | with_reducible apply keeps_keeperAct | with_reducible apply keeps_keeper | intro _)

theorem keeps_keeperPin {w₀ : Part → Prop} {r₀ : State} (s : State) (asn n : Nat) (hk : Keeps w₀ r₀ s)
    (w_regs : w₀ .regs := by first | assumption | exact trivial)
    (w_dies : w₀ .dies := by first | assumption | exact trivial)
    (w_pages : w₀ .pages := by first | assumption | exact trivial)
    (w_moves : w₀ .moves := by first | assumption | exact trivial)
    (w_ctxs : w₀ .ctxs := by first | assumption | exact trivial)
    (w_mem : w₀ .mem := by first | assumption | exact trivial)
    (w_traffic : w₀ .traffic := by first | assumption | exact trivial) :
    Keeps w₀ r₀ (keeperPin s asn n) := by
  unfold keeperPin
  repeat' (first
    | with_reducible assumption | with_reducible apply keeps_keeperAct | with_reducible apply keeps_keeper | intro _)

end Sys2Proof.Machine
end

