-- ==== Sys2Proof/Laws/KeepsCodec.lean ====
section
/-! SUPPORT. Laws/KeepsCodec.lean: what the operations of Machine/Codec.lean keep. -/

set_option Elab.async false

namespace Sys2Proof.Machine

theorem keeps_modCodec {w₀ : Part → Prop} {r₀ : State} (s : State) (u : Nat) (f : Codec → Codec) (hk : Keeps w₀ r₀ s)
    (w_codecs : w₀ .codecs := by first | assumption | exact trivial) :
    Keeps w₀ r₀ (modCodec s u f) := by
  unfold modCodec
  simp only [State.mk_build]
  repeat' (first
    | with_reducible assumption | with_reducible apply Keeps.upd | with_reducible rfl | with_reducible exact id
    | with_reducible exact Or.inl (by assumption) | with_reducible exact Or.inr rfl | with_reducible exact Or.inr ⟨rfl, rfl⟩
    | with_reducible exact Or.inr ⟨rfl, rfl, rfl⟩ | with_reducible exact Or.inr ⟨rfl, rfl, rfl, rfl⟩
    | with_reducible exact length_modAt | (exact fun _ h => h) | intro _ | (show Ctx.canon _; assumption)
    | with_reducible apply Ctx.canon_ite | (show Mem.wf _ = true; assumption))

theorem keeps_putStream {w₀ : Part → Prop} {r₀ : State} (s : State) (id : Nat) (t : Option Stream) (hk : Keeps w₀ r₀ s)
    (w_codecs : w₀ .codecs := by first | assumption | exact trivial) :
    Keeps w₀ r₀ (putStream s id t) := by
  unfold putStream
  repeat' (first
    | with_reducible assumption | with_reducible apply keeps_modCodec | with_reducible apply Keeps.upd | with_reducible rfl
    | with_reducible exact id | with_reducible exact Or.inl (by assumption) | with_reducible exact Or.inr rfl
    | with_reducible exact Or.inr ⟨rfl, rfl⟩ | with_reducible exact Or.inr ⟨rfl, rfl, rfl⟩
    | with_reducible exact Or.inr ⟨rfl, rfl, rfl, rfl⟩ | with_reducible exact length_modAt | (exact fun _ h => h) | intro _
    | (show Ctx.canon _; assumption) | with_reducible apply Ctx.canon_ite | (show Mem.wf _ = true; assumption))

theorem keeps_startStreamOpen {w₀ : Part → Prop} {r₀ : State} (h : CmdHdr) (unit asn semBase va : Nat) (s : State) (hk : Keeps w₀ r₀ s)
    (w_regs : w₀ .regs := by first | assumption | exact trivial)
    (w_host : w₀ .host := by first | assumption | exact trivial)
    (w_dies : w₀ .dies := by first | assumption | exact trivial)
    (w_codecs : w₀ .codecs := by first | assumption | exact trivial)
    (w_mem : w₀ .mem := by first | assumption | exact trivial)
    (w_traffic : w₀ .traffic := by first | assumption | exact trivial) :
    Keeps w₀ r₀ (startStreamOpen h unit asn semBase va s) := by
  unfold startStreamOpen
  dsimp only
  repeat' (first
    | with_reducible assumption | with_reducible apply keeps_complete | with_reducible apply keeps_readThen
    | with_reducible apply keeps_putStream | with_reducible exact length_map' | intro _ | with_reducible apply Keeps.ite
    | split)

theorem keeps_freeStream {w₀ : Part → Prop} {r₀ : State} (s : State) (id : Nat) (t : Stream) (hk : Keeps w₀ r₀ s)
    (w_regs : w₀ .regs := by first | assumption | exact trivial)
    (w_host : w₀ .host := by first | assumption | exact trivial)
    (w_codecs : w₀ .codecs := by first | assumption | exact trivial) :
    Keeps w₀ r₀ (freeStream s id t) := by
  unfold freeStream
  dsimp only
  repeat' (first
    | with_reducible assumption | with_reducible apply keeps_complete | with_reducible apply keeps_putStream
    | with_reducible apply Keeps.foldl | with_reducible exact length_map' | intro _)

theorem keeps_startStreamClose {w₀ : Part → Prop} {r₀ : State} (h : CmdHdr) (id : Nat) (s : State) (hk : Keeps w₀ r₀ s)
    (w_regs : w₀ .regs := by first | assumption | exact trivial)
    (w_host : w₀ .host := by first | assumption | exact trivial)
    (w_codecs : w₀ .codecs := by first | assumption | exact trivial) :
    Keeps w₀ r₀ (startStreamClose h id s) := by
  unfold startStreamClose
  dsimp only
  repeat' (first
    | with_reducible assumption | with_reducible apply keeps_complete | with_reducible apply keeps_putStream
    | with_reducible apply keeps_freeStream | with_reducible apply Keeps.upd | with_reducible rfl | with_reducible exact id
    | with_reducible exact Or.inl (by assumption) | with_reducible exact Or.inr rfl | with_reducible exact Or.inr ⟨rfl, rfl⟩
    | with_reducible exact Or.inr ⟨rfl, rfl, rfl⟩ | with_reducible exact Or.inr ⟨rfl, rfl, rfl, rfl⟩ | (exact fun _ h => h)
    | intro _ | (show Ctx.canon _; assumption) | with_reducible apply Ctx.canon_ite | (show Mem.wf _ = true; assumption)
    | with_reducible apply Keeps.ite | split)

theorem keeps_startFrameSubmit {w₀ : Part → Prop} {r₀ : State} (h : CmdHdr) (id : Nat) (entry : Bytes) (s : State) (hk : Keeps w₀ r₀ s)
    (w_regs : w₀ .regs := by first | assumption | exact trivial)
    (w_host : w₀ .host := by first | assumption | exact trivial)
    (w_codecs : w₀ .codecs := by first | assumption | exact trivial) :
    Keeps w₀ r₀ (startFrameSubmit h id entry s) := by
  unfold startFrameSubmit
  dsimp only
  repeat' (first
    | with_reducible assumption | with_reducible apply keeps_complete | with_reducible apply keeps_putStream
    | with_reducible apply Keeps.upd | with_reducible rfl | with_reducible exact id
    | with_reducible exact Or.inl (by assumption) | with_reducible exact Or.inr rfl | with_reducible exact Or.inr ⟨rfl, rfl⟩
    | with_reducible exact Or.inr ⟨rfl, rfl, rfl⟩ | with_reducible exact Or.inr ⟨rfl, rfl, rfl, rfl⟩ | (exact fun _ h => h)
    | intro _ | (show Ctx.canon _; assumption) | with_reducible apply Ctx.canon_ite | (show Mem.wf _ = true; assumption)
    | with_reducible apply Keeps.ite | split)

theorem keeps_submitConsume {w₀ : Part → Prop} {r₀ : State} (s : State) (id : Nat) (hk : Keeps w₀ r₀ s)
    (w_dies : w₀ .dies := by first | assumption | exact trivial)
    (w_ctxs : w₀ .ctxs := by first | assumption | exact trivial)
    (w_codecs : w₀ .codecs := by first | assumption | exact trivial)
    (w_mem : w₀ .mem := by first | assumption | exact trivial)
    (w_ids : w₀ .ids := by first | assumption | exact trivial)
    (w_traffic : w₀ .traffic := by first | assumption | exact trivial) :
    Keeps w₀ r₀ (submitConsume s id) := by
  unfold submitConsume
  simp only [State.mk_build]
  repeat' (first
    | with_reducible assumption | with_reducible apply keeps_agentReads | with_reducible apply keeps_takeSem
    | with_reducible apply keeps_putStream | with_reducible apply Keeps.upd | with_reducible rfl | with_reducible exact id
    | with_reducible exact Or.inl (by assumption) | with_reducible exact Or.inr rfl | with_reducible exact Or.inr ⟨rfl, rfl⟩
    | with_reducible exact Or.inr ⟨rfl, rfl, rfl⟩ | with_reducible exact Or.inr ⟨rfl, rfl, rfl, rfl⟩ | (exact fun _ h => h)
    | intro _ | (show Ctx.canon _; assumption) | with_reducible apply Ctx.canon_ite | (show Mem.wf _ = true; assumption)
    | with_reducible apply Keeps.ite | split)

theorem keeps_emitRecord {w₀ : Part → Prop} {r₀ : State} (s : State) (id : Nat) (t : Stream) (rec0 : Bytes) (hk : Keeps w₀ r₀ s)
    (w_regs : w₀ .regs := by first | assumption | exact trivial)
    (w_dies : w₀ .dies := by first | assumption | exact trivial)
    (w_pages : w₀ .pages := by first | assumption | exact trivial)
    (w_moves : w₀ .moves := by first | assumption | exact trivial)
    (w_ctxs : w₀ .ctxs := by first | assumption | exact trivial)
    (w_codecs : w₀ .codecs := by first | assumption | exact trivial)
    (w_mem : w₀ .mem := by first | assumption | exact trivial)
    (w_traffic : w₀ .traffic := by first | assumption | exact trivial) :
    Keeps w₀ r₀ (emitRecord s id t rec0) := by
  unfold emitRecord
  dsimp only
  repeat' (first
    | with_reducible assumption | with_reducible apply keeps_addSem | with_reducible apply keeps_hubWrite
    | with_reducible apply keeps_putStream | with_reducible apply Keeps.upd | with_reducible rfl | with_reducible exact id
    | with_reducible exact Or.inl (by assumption) | with_reducible exact Or.inr rfl | with_reducible exact Or.inr ⟨rfl, rfl⟩
    | with_reducible exact Or.inr ⟨rfl, rfl, rfl⟩ | with_reducible exact Or.inr ⟨rfl, rfl, rfl, rfl⟩ | (exact fun _ h => h)
    | intro _ | (show Ctx.canon _; assumption) | with_reducible apply Ctx.canon_ite | (show Mem.wf _ = true; assumption)
    | with_reducible apply Keeps.ite | split)

theorem keeps_paceOrEmit {w₀ : Part → Prop} {r₀ : State} (s : State) (id : Nat) (t : Stream) (rec0 : Bytes) (bytes : Nat) (hk : Keeps w₀ r₀ s)
    (w_regs : w₀ .regs := by first | assumption | exact trivial)
    (w_dies : w₀ .dies := by first | assumption | exact trivial)
    (w_pages : w₀ .pages := by first | assumption | exact trivial)
    (w_moves : w₀ .moves := by first | assumption | exact trivial)
    (w_ctxs : w₀ .ctxs := by first | assumption | exact trivial)
    (w_codecs : w₀ .codecs := by first | assumption | exact trivial)
    (w_mem : w₀ .mem := by first | assumption | exact trivial)
    (w_traffic : w₀ .traffic := by first | assumption | exact trivial) :
    Keeps w₀ r₀ (paceOrEmit s id t rec0 bytes) := by
  unfold paceOrEmit
  dsimp only
  repeat' (first
    | with_reducible assumption | with_reducible apply keeps_putStream | with_reducible apply keeps_emitRecord
    | with_reducible apply Keeps.upd | with_reducible rfl | with_reducible exact id
    | with_reducible exact Or.inl (by assumption) | with_reducible exact Or.inr rfl | with_reducible exact Or.inr ⟨rfl, rfl⟩
    | with_reducible exact Or.inr ⟨rfl, rfl, rfl⟩ | with_reducible exact Or.inr ⟨rfl, rfl, rfl, rfl⟩ | (exact fun _ h => h)
    | intro _ | (show Ctx.canon _; assumption) | with_reducible apply Ctx.canon_ite | (show Mem.wf _ = true; assumption)
    | with_reducible apply Keeps.ite | split)

theorem keeps_fillBuffer {w₀ : Part → Prop} {r₀ : State} (s : State) (t : Stream) (p : Pic) (hk : Keeps w₀ r₀ s)
    (w_regs : w₀ .regs := by first | assumption | exact trivial)
    (w_dies : w₀ .dies := by first | assumption | exact trivial)
    (w_pages : w₀ .pages := by first | assumption | exact trivial)
    (w_moves : w₀ .moves := by first | assumption | exact trivial)
    (w_mem : w₀ .mem := by first | assumption | exact trivial)
    (w_traffic : w₀ .traffic := by first | assumption | exact trivial) :
    Keeps w₀ r₀ (fillBuffer s t p) := by
  unfold fillBuffer
  repeat' (first
    | with_reducible assumption | with_reducible apply keeps_hubWrite | intro _)

theorem keeps_readBuffers {w₀ : Part → Prop} {r₀ : State} (s : State) (t : Stream) (nums : List Nat) (hk : Keeps w₀ r₀ s)
    (w_dies : w₀ .dies := by first | assumption | exact trivial)
    (w_mem : w₀ .mem := by first | assumption | exact trivial)
    (w_traffic : w₀ .traffic := by first | assumption | exact trivial) :
    Keeps w₀ r₀ (readBuffers s t nums) := by
  unfold readBuffers
  repeat' (first
    | with_reducible assumption | with_reducible apply keeps_agentReads | with_reducible apply Keeps.foldl | intro _)

theorem keeps_writeTensor {w₀ : Part → Prop} {r₀ : State} (s : State) (t : Stream) (slot : Nat) (p : Pic) (hk : Keeps w₀ r₀ s)
    (w_regs : w₀ .regs := by first | assumption | exact trivial)
    (w_dies : w₀ .dies := by first | assumption | exact trivial)
    (w_pages : w₀ .pages := by first | assumption | exact trivial)
    (w_moves : w₀ .moves := by first | assumption | exact trivial)
    (w_mem : w₀ .mem := by first | assumption | exact trivial)
    (w_traffic : w₀ .traffic := by first | assumption | exact trivial) :
    Keeps w₀ r₀ (writeTensor s t slot p) := by
  unfold writeTensor
  dsimp only
  repeat' (first
    | with_reducible assumption | with_reducible apply keeps_hubWrite | with_reducible apply Keeps.foldl | intro _)

theorem keeps_writeHead {w₀ : Part → Prop} {r₀ : State} (s : State) (id : Nat) (t : Stream) (hk : Keeps w₀ r₀ s)
    (w_regs : w₀ .regs := by first | assumption | exact trivial)
    (w_dies : w₀ .dies := by first | assumption | exact trivial)
    (w_pages : w₀ .pages := by first | assumption | exact trivial)
    (w_moves : w₀ .moves := by first | assumption | exact trivial)
    (w_ctxs : w₀ .ctxs := by first | assumption | exact trivial)
    (w_codecs : w₀ .codecs := by first | assumption | exact trivial)
    (w_mem : w₀ .mem := by first | assumption | exact trivial)
    (w_traffic : w₀ .traffic := by first | assumption | exact trivial) :
    Keeps w₀ r₀ (writeHead s id t) := by
  unfold writeHead
  dsimp only
  repeat' (first
    | with_reducible assumption | with_reducible apply keeps_hubWrite | with_reducible apply keeps_paceOrEmit
    | with_reducible apply keeps_readBuffers | with_reducible apply keeps_writeTensor | with_reducible apply Keeps.upd
    | with_reducible rfl | with_reducible exact id | with_reducible exact Or.inl (by assumption)
    | with_reducible exact Or.inr rfl | with_reducible exact Or.inr ⟨rfl, rfl⟩ | with_reducible exact Or.inr ⟨rfl, rfl, rfl⟩
    | with_reducible exact Or.inr ⟨rfl, rfl, rfl, rfl⟩ | with_reducible exact length_map' | (exact fun _ h => h) | intro _
    | (show Ctx.canon _; assumption) | with_reducible apply Ctx.canon_ite | (show Mem.wf _ = true; assumption)
    | with_reducible apply Keeps.ite | split)

theorem keeps_drainOut {w₀ : Part → Prop} {r₀ : State} (n : Nat) (s : State) (id : Nat) (hk : Keeps w₀ r₀ s)
    (w_regs : w₀ .regs := by first | assumption | exact trivial)
    (w_dies : w₀ .dies := by first | assumption | exact trivial)
    (w_pages : w₀ .pages := by first | assumption | exact trivial)
    (w_moves : w₀ .moves := by first | assumption | exact trivial)
    (w_ctxs : w₀ .ctxs := by first | assumption | exact trivial)
    (w_codecs : w₀ .codecs := by first | assumption | exact trivial)
    (w_mem : w₀ .mem := by first | assumption | exact trivial)
    (w_traffic : w₀ .traffic := by first | assumption | exact trivial) :
    Keeps w₀ r₀ (drainOut n s id) := by
  induction n generalizing s id with
  | zero =>
    unfold drainOut
    repeat' (first
      | with_reducible assumption | with_reducible apply keeps_writeHead | intro _ | with_reducible apply Keeps.ite | split)
  | succ _ ih =>
    unfold drainOut
    repeat' (first
      | with_reducible assumption | with_reducible apply ih | with_reducible apply keeps_writeHead | intro _
      | with_reducible apply Keeps.ite | split)

theorem keeps_drainStream {w₀ : Part → Prop} {r₀ : State} (s : State) (id : Nat) (hk : Keeps w₀ r₀ s)
    (w_regs : w₀ .regs := by first | assumption | exact trivial)
    (w_dies : w₀ .dies := by first | assumption | exact trivial)
    (w_pages : w₀ .pages := by first | assumption | exact trivial)
    (w_moves : w₀ .moves := by first | assumption | exact trivial)
    (w_ctxs : w₀ .ctxs := by first | assumption | exact trivial)
    (w_codecs : w₀ .codecs := by first | assumption | exact trivial)
    (w_mem : w₀ .mem := by first | assumption | exact trivial)
    (w_traffic : w₀ .traffic := by first | assumption | exact trivial) :
    Keeps w₀ r₀ (drainStream s id) := by
  unfold drainStream
  repeat' (first
    | with_reducible assumption | with_reducible apply keeps_drainOut | intro _ | with_reducible apply Keeps.ite | split)

theorem keeps_startFrameRelease {w₀ : Part → Prop} {r₀ : State} (h : CmdHdr) (id n : Nat) (s : State) (hk : Keeps w₀ r₀ s)
    (w_regs : w₀ .regs := by first | assumption | exact trivial)
    (w_host : w₀ .host := by first | assumption | exact trivial)
    (w_dies : w₀ .dies := by first | assumption | exact trivial)
    (w_pages : w₀ .pages := by first | assumption | exact trivial)
    (w_moves : w₀ .moves := by first | assumption | exact trivial)
    (w_ctxs : w₀ .ctxs := by first | assumption | exact trivial)
    (w_codecs : w₀ .codecs := by first | assumption | exact trivial)
    (w_mem : w₀ .mem := by first | assumption | exact trivial)
    (w_traffic : w₀ .traffic := by first | assumption | exact trivial) :
    Keeps w₀ r₀ (startFrameRelease h id n s) := by
  unfold startFrameRelease
  dsimp only
  repeat' (first
    | with_reducible assumption | with_reducible apply keeps_complete | with_reducible apply keeps_putStream
    | with_reducible apply keeps_drainStream | intro _ | with_reducible apply Keeps.ite | split)

theorem keeps_releaseConsume {w₀ : Part → Prop} {r₀ : State} (s : State) (id : Nat) (hk : Keeps w₀ r₀ s)
    (w_regs : w₀ .regs := by first | assumption | exact trivial)
    (w_dies : w₀ .dies := by first | assumption | exact trivial)
    (w_pages : w₀ .pages := by first | assumption | exact trivial)
    (w_moves : w₀ .moves := by first | assumption | exact trivial)
    (w_ctxs : w₀ .ctxs := by first | assumption | exact trivial)
    (w_codecs : w₀ .codecs := by first | assumption | exact trivial)
    (w_mem : w₀ .mem := by first | assumption | exact trivial)
    (w_traffic : w₀ .traffic := by first | assumption | exact trivial) :
    Keeps w₀ r₀ (releaseConsume s id) := by
  unfold releaseConsume
  repeat' (first
    | with_reducible assumption | with_reducible apply keeps_takeSem | with_reducible apply keeps_putStream
    | with_reducible apply keeps_drainStream | intro _ | with_reducible apply Keeps.ite | split)

theorem keeps_pacedRecord {w₀ : Part → Prop} {r₀ : State} (s : State) (id : Nat) (hk : Keeps w₀ r₀ s)
    (w_regs : w₀ .regs := by first | assumption | exact trivial)
    (w_dies : w₀ .dies := by first | assumption | exact trivial)
    (w_pages : w₀ .pages := by first | assumption | exact trivial)
    (w_moves : w₀ .moves := by first | assumption | exact trivial)
    (w_ctxs : w₀ .ctxs := by first | assumption | exact trivial)
    (w_codecs : w₀ .codecs := by first | assumption | exact trivial)
    (w_mem : w₀ .mem := by first | assumption | exact trivial)
    (w_traffic : w₀ .traffic := by first | assumption | exact trivial) :
    Keeps w₀ r₀ (pacedRecord s id) := by
  unfold pacedRecord
  repeat' (first
    | with_reducible assumption | with_reducible apply keeps_emitRecord | with_reducible apply Keeps.upd
    | with_reducible rfl | with_reducible exact id | with_reducible exact Or.inl (by assumption)
    | with_reducible exact Or.inr rfl | with_reducible exact Or.inr ⟨rfl, rfl⟩ | with_reducible exact Or.inr ⟨rfl, rfl, rfl⟩
    | with_reducible exact Or.inr ⟨rfl, rfl, rfl, rfl⟩ | (exact fun _ h => h) | intro _ | (show Ctx.canon _; assumption)
    | with_reducible apply Ctx.canon_ite | (show Mem.wf _ = true; assumption) | with_reducible apply Keeps.ite | split)

theorem keeps_entryDone {w₀ : Part → Prop} {r₀ : State} (s : State) (t : Stream) (e : CodedEntry) (hk : Keeps w₀ r₀ s)
    (w_regs : w₀ .regs := by first | assumption | exact trivial)
    (w_host : w₀ .host := by first | assumption | exact trivial)
    (w_ctxs : w₀ .ctxs := by first | assumption | exact trivial) :
    Keeps w₀ r₀ (entryDone s t e) := by
  unfold entryDone
  dsimp only
  repeat' (first
    | with_reducible assumption | with_reducible apply keeps_complete | with_reducible apply keeps_addSem | intro _ | split)

theorem keeps_entryEnds {w₀ : Part → Prop} {r₀ : State} (s : State) (id : Nat) (t : Stream) (e : CodedEntry) (hk : Keeps w₀ r₀ s)
    (w_regs : w₀ .regs := by first | assumption | exact trivial)
    (w_host : w₀ .host := by first | assumption | exact trivial)
    (w_codecs : w₀ .codecs := by first | assumption | exact trivial) :
    Keeps w₀ r₀ (entryEnds s id t e) := by
  unfold entryEnds
  repeat' (first
    | with_reducible assumption | with_reducible apply keeps_complete | with_reducible apply keeps_putStream | intro _
    | split)

theorem keeps_codeFrame {w₀ : Part → Prop} {r₀ : State} (x : State × Stream) (n : Nat) (hk : Keeps w₀ r₀ x.1)
    (w_dies : w₀ .dies := by first | assumption | exact trivial)
    (w_mem : w₀ .mem := by first | assumption | exact trivial)
    (w_traffic : w₀ .traffic := by first | assumption | exact trivial) :
    Keeps w₀ r₀ (codeFrame x n).1 := by
  unfold codeFrame
  dsimp only
  repeat' (first | with_reducible assumption | exact keeps_readBuffers _ _ _ hk | split)

theorem keeps_codeFrames {w₀ : Part → Prop} {r₀ : State} (l : List Nat) (x : State × Stream) (hk : Keeps w₀ r₀ x.1)
    (w_dies : w₀ .dies := by first | assumption | exact trivial)
    (w_mem : w₀ .mem := by first | assumption | exact trivial)
    (w_traffic : w₀ .traffic := by first | assumption | exact trivial) :
    Keeps w₀ r₀ (l.foldl codeFrame x).1 := by
  induction l generalizing x with
  | nil => exact hk
  | cons y t ih => exact ih _ (keeps_codeFrame x y hk)

theorem keeps_encodeEntry {w₀ : Part → Prop} {r₀ : State} (s : State) (id : Nat) (t : Stream) (e : CodedEntry) (hk : Keeps w₀ r₀ s)
    (w_regs : w₀ .regs := by first | assumption | exact trivial)
    (w_host : w₀ .host := by first | assumption | exact trivial)
    (w_dies : w₀ .dies := by first | assumption | exact trivial)
    (w_pages : w₀ .pages := by first | assumption | exact trivial)
    (w_moves : w₀ .moves := by first | assumption | exact trivial)
    (w_ctxs : w₀ .ctxs := by first | assumption | exact trivial)
    (w_codecs : w₀ .codecs := by first | assumption | exact trivial)
    (w_mem : w₀ .mem := by first | assumption | exact trivial)
    (w_traffic : w₀ .traffic := by first | assumption | exact trivial) :
    Keeps w₀ r₀ (encodeEntry s id t e) := by
  unfold encodeEntry
  dsimp only
  repeat' (first
    | with_reducible assumption | with_reducible apply keeps_agentReads | with_reducible apply keeps_putStream
    | with_reducible apply keeps_fillBuffer | with_reducible apply keeps_entryDone | with_reducible apply keeps_entryEnds
    | with_reducible apply keeps_codeFrame | with_reducible apply keeps_codeFrames | with_reducible apply Keeps.foldl
    | with_reducible apply Keeps.upd | with_reducible rfl | with_reducible exact id
    | with_reducible exact Or.inl (by assumption) | with_reducible exact Or.inr rfl | with_reducible exact Or.inr ⟨rfl, rfl⟩
    | with_reducible exact Or.inr ⟨rfl, rfl, rfl⟩ | with_reducible exact Or.inr ⟨rfl, rfl, rfl, rfl⟩ | (exact fun _ h => h)
    | intro _ | (show Ctx.canon _; assumption) | with_reducible apply Ctx.canon_ite | (show Mem.wf _ = true; assumption)
    | with_reducible apply Keeps.ite | split)

theorem keeps_decodeFrame {w₀ : Part → Prop} {r₀ : State} (u : StreamFeatures) (pts : Nat) (poisoned : Bool) (x : State × Stream) (f : DecodedFrame)
    (hk : Keeps w₀ r₀ x.1)
    (w_regs : w₀ .regs := by first | assumption | exact trivial)
    (w_dies : w₀ .dies := by first | assumption | exact trivial)
    (w_pages : w₀ .pages := by first | assumption | exact trivial)
    (w_moves : w₀ .moves := by first | assumption | exact trivial)
    (w_mem : w₀ .mem := by first | assumption | exact trivial)
    (w_traffic : w₀ .traffic := by first | assumption | exact trivial) : Keeps w₀ r₀ (decodeFrame u pts poisoned x f).1 := by
  unfold decodeFrame
  dsimp only
  split
  · exact hk
  · split
    · exact hk
    · split
      · exact keeps_readBuffers _ _ _ hk
      · exact keeps_fillBuffer _ _ _ (keeps_readBuffers _ _ _ hk)

theorem keeps_decodeFrames {w₀ : Part → Prop} {r₀ : State} (u : StreamFeatures) (pts : Nat) (poisoned : Bool) (l : List DecodedFrame)
    (x : State × Stream) (hk : Keeps w₀ r₀ x.1)
    (w_regs : w₀ .regs := by first | assumption | exact trivial)
    (w_dies : w₀ .dies := by first | assumption | exact trivial)
    (w_pages : w₀ .pages := by first | assumption | exact trivial)
    (w_moves : w₀ .moves := by first | assumption | exact trivial)
    (w_mem : w₀ .mem := by first | assumption | exact trivial)
    (w_traffic : w₀ .traffic := by first | assumption | exact trivial) : Keeps w₀ r₀ (l.foldl (decodeFrame u pts poisoned) x).1 := by
  induction l generalizing x with
  | nil => exact hk
  | cons y t ih => exact ih _ (keeps_decodeFrame u pts poisoned x y hk)

theorem keeps_decodeData {w₀ : Part → Prop} {r₀ : State} (s : State) (t : Stream) (pts : Nat) (data : Option Bytes) (hk : Keeps w₀ r₀ s)
    (w_regs : w₀ .regs := by first | assumption | exact trivial)
    (w_dies : w₀ .dies := by first | assumption | exact trivial)
    (w_pages : w₀ .pages := by first | assumption | exact trivial)
    (w_moves : w₀ .moves := by first | assumption | exact trivial)
    (w_mem : w₀ .mem := by first | assumption | exact trivial)
    (w_traffic : w₀ .traffic := by first | assumption | exact trivial) :
    Keeps w₀ r₀ (decodeData s t pts data).1 := by
  unfold decodeData
  dsimp only
  split
  · exact hk
  · split
    · exact hk
    · exact keeps_decodeFrames _ _ _ _ _ hk

theorem keeps_decodeEntry {w₀ : Part → Prop} {r₀ : State} (s : State) (id : Nat) (t : Stream) (e : CodedEntry) (hk : Keeps w₀ r₀ s)
    (w_regs : w₀ .regs := by first | assumption | exact trivial)
    (w_host : w₀ .host := by first | assumption | exact trivial)
    (w_dies : w₀ .dies := by first | assumption | exact trivial)
    (w_pages : w₀ .pages := by first | assumption | exact trivial)
    (w_moves : w₀ .moves := by first | assumption | exact trivial)
    (w_ctxs : w₀ .ctxs := by first | assumption | exact trivial)
    (w_codecs : w₀ .codecs := by first | assumption | exact trivial)
    (w_mem : w₀ .mem := by first | assumption | exact trivial)
    (w_traffic : w₀ .traffic := by first | assumption | exact trivial) :
    Keeps w₀ r₀ (decodeEntry s id t e) := by
  unfold decodeEntry
  dsimp only
  repeat' (first
    | with_reducible assumption | with_reducible apply keeps_agentReads | with_reducible apply keeps_putStream
    | with_reducible apply keeps_entryDone | with_reducible apply keeps_entryEnds | with_reducible apply keeps_decodeData
    | intro _ | with_reducible apply Keeps.ite | split)

/-- The codec units' nanosecond leaves the queue of waiting commands and the timebase alone and keeps the invariant. -/
theorem codecsNs_pending (s : State) : (codecsNs s).pending = s.pending := rfl

theorem codecsNs_hub (s : State) : (codecsNs s).hub = s.hub := rfl

theorem codecsNs_inv {s : State} (h : s.Inv) : (codecsNs s).Inv :=
  ⟨h.mem, h.ctxs, h.exported, h.dies, h.ports, h.farPorts, h.groups, length_mapIdx' h.codecs, h.timebase⟩

theorem keeps_streamSwitch {w₀ : Part → Prop} {r₀ : State} (s : State) (u : Nat) (hk : Keeps w₀ r₀ s)
    (w_codecs : w₀ .codecs := by first | assumption | exact trivial) :
    Keeps w₀ r₀ (streamSwitch s u) := by
  unfold streamSwitch
  repeat' (first
    | with_reducible assumption | with_reducible apply keeps_modCodec | with_reducible apply Keeps.upd | with_reducible rfl
    | with_reducible exact id | with_reducible exact Or.inl (by assumption) | with_reducible exact Or.inr rfl
    | with_reducible exact Or.inr ⟨rfl, rfl⟩ | with_reducible exact Or.inr ⟨rfl, rfl, rfl⟩
    | with_reducible exact Or.inr ⟨rfl, rfl, rfl, rfl⟩ | with_reducible exact length_modAt
    | with_reducible exact length_map' | (exact fun _ h => h) | intro _ | (show Ctx.canon _; assumption)
    | with_reducible apply Ctx.canon_ite | (show Mem.wf _ = true; assumption) | with_reducible apply Keeps.ite | split)

theorem keeps_frameDone {w₀ : Part → Prop} {r₀ : State} (s : State) (u : Nat) (hk : Keeps w₀ r₀ s)
    (w_regs : w₀ .regs := by first | assumption | exact trivial)
    (w_host : w₀ .host := by first | assumption | exact trivial)
    (w_dies : w₀ .dies := by first | assumption | exact trivial)
    (w_pages : w₀ .pages := by first | assumption | exact trivial)
    (w_moves : w₀ .moves := by first | assumption | exact trivial)
    (w_ctxs : w₀ .ctxs := by first | assumption | exact trivial)
    (w_codecs : w₀ .codecs := by first | assumption | exact trivial)
    (w_mem : w₀ .mem := by first | assumption | exact trivial)
    (w_traffic : w₀ .traffic := by first | assumption | exact trivial) :
    Keeps w₀ r₀ (frameDone s u) := by
  unfold frameDone
  dsimp only
  repeat' (first
    | with_reducible assumption | with_reducible apply keeps_modCodec | with_reducible apply keeps_freeStream
    | with_reducible apply keeps_drainOut | with_reducible apply keeps_encodeEntry | with_reducible apply keeps_decodeEntry
    | with_reducible apply Keeps.upd | with_reducible rfl | with_reducible exact id
    | with_reducible exact Or.inl (by assumption) | with_reducible exact Or.inr rfl | with_reducible exact Or.inr ⟨rfl, rfl⟩
    | with_reducible exact Or.inr ⟨rfl, rfl, rfl⟩ | with_reducible exact Or.inr ⟨rfl, rfl, rfl, rfl⟩ | (exact fun _ h => h)
    | intro _ | (show Ctx.canon _; assumption) | with_reducible apply Ctx.canon_ite | (show Mem.wf _ = true; assumption)
    | with_reducible apply Keeps.ite | split)

end Sys2Proof.Machine
end

