-- ==== Sys2Proof/Laws/KeepsSeating.lean ====
section
/-! SUPPORT. Laws/KeepsSeating.lean: what the operations of Machine/Seating.lean keep. -/

set_option Elab.async false

namespace Sys2Proof.Machine

theorem keeps_clearPrecCounters {w₀ : Part → Prop} {r₀ : State} (s : State) (c : Ctx) (hk : Keeps w₀ r₀ s)
    (w_regs : w₀ .regs := by first | assumption | exact trivial) :
    Keeps w₀ r₀ (clearPrecCounters s c) := by
  unfold clearPrecCounters
  repeat' (first
    | with_reducible assumption | with_reducible apply keeps_setReg | with_reducible apply Keeps.foldl | intro _)

theorem startJob_canon {c : Ctx} {j : Job} {armed : List Armed} (h : c.canon) : (c.startJob j armed).canon :=
  ⟨stores_mapIdx (fun _ _ k => k) h.1, pools_map (fun _ k => k) h.2⟩

theorem keeps_startJobLaunch {w₀ : Part → Prop} {r₀ : State} (h : CmdHdr) (asn p rank len va seed : Nat) (s : State) (hk : Keeps w₀ r₀ s)
    (w_regs : w₀ .regs := by first | assumption | exact trivial)
    (w_host : w₀ .host := by first | assumption | exact trivial)
    (w_dies : w₀ .dies := by first | assumption | exact trivial)
    (w_pages : w₀ .pages := by first | assumption | exact trivial)
    (w_moves : w₀ .moves := by first | assumption | exact trivial)
    (w_ctxs : w₀ .ctxs := by first | assumption | exact trivial)
    (w_groups : w₀ .groups := by first | assumption | exact trivial)
    (w_mem : w₀ .mem := by first | assumption | exact trivial)
    (w_traffic : w₀ .traffic := by first | assumption | exact trivial) :
    Keeps w₀ r₀ (startJobLaunch h asn p rank len va seed s) := by
  unfold startJobLaunch
  simp only [State.mk_build]
  repeat' (first
    | with_reducible assumption | with_reducible apply keeps_complete | with_reducible apply keeps_readTrellis
    | with_reducible apply keeps_resetSets | with_reducible apply keeps_clearPrecCounters
    | (exact startJob_canon (by assumption)) | with_reducible apply keeps_modCtx | with_reducible apply Keeps.upd
    | with_reducible rfl | with_reducible exact id | with_reducible exact Or.inl (by assumption)
    | with_reducible exact Or.inr rfl | with_reducible exact Or.inr ⟨rfl, rfl⟩ | with_reducible exact Or.inr ⟨rfl, rfl, rfl⟩
    | with_reducible exact Or.inr ⟨rfl, rfl, rfl, rfl⟩ | with_reducible exact length_map' | (exact fun _ h => h) | intro _
    | (show Ctx.canon _; assumption) | with_reducible apply Ctx.canon_ite | (show Mem.wf _ = true; assumption)
    | with_reducible apply Keeps.ite | split)

theorem keeps_endTransfers {w₀ : Part → Prop} {r₀ : State} (s : State) (asn : Nat) (hk : Keeps w₀ r₀ s)
    (w_regs : w₀ .regs := by first | assumption | exact trivial)
    (w_host : w₀ .host := by first | assumption | exact trivial)
    (w_dies : w₀ .dies := by first | assumption | exact trivial)
    (w_pages : w₀ .pages := by first | assumption | exact trivial)
    (w_moves : w₀ .moves := by first | assumption | exact trivial)
    (w_ctxs : w₀ .ctxs := by first | assumption | exact trivial)
    (w_groups : w₀ .groups := by first | assumption | exact trivial)
    (w_mem : w₀ .mem := by first | assumption | exact trivial)
    (w_ids : w₀ .ids := by first | assumption | exact trivial)
    (w_traffic : w₀ .traffic := by first | assumption | exact trivial) :
    Keeps w₀ r₀ (endTransfers s asn) := by
  unfold endTransfers
  simp only [State.mk_build]
  repeat' (first
    | with_reducible assumption | with_reducible apply keeps_pruneFences | with_reducible apply keeps_writeRecord
    | with_reducible apply keeps_sendAborts | with_reducible apply keeps_dropFiring | with_reducible apply Keeps.foldl
    | with_reducible apply Keeps.upd | with_reducible rfl | with_reducible exact id
    | with_reducible exact Or.inl (by assumption) | with_reducible exact Or.inr rfl | with_reducible exact Or.inr ⟨rfl, rfl⟩
    | with_reducible exact Or.inr ⟨rfl, rfl, rfl⟩ | with_reducible exact Or.inr ⟨rfl, rfl, rfl, rfl⟩ | (exact fun _ h => h)
    | intro _ | (show Ctx.canon _; assumption) | with_reducible apply Ctx.canon_ite | (show Mem.wf _ = true; assumption))

theorem keeps_startJobEnd {w₀ : Part → Prop} {r₀ : State} (h : CmdHdr) (asn : Nat) (s : State) (hk : Keeps w₀ r₀ s)
    (w_regs : w₀ .regs := by first | assumption | exact trivial)
    (w_host : w₀ .host := by first | assumption | exact trivial)
    (w_dies : w₀ .dies := by first | assumption | exact trivial)
    (w_pages : w₀ .pages := by first | assumption | exact trivial)
    (w_moves : w₀ .moves := by first | assumption | exact trivial)
    (w_ctxs : w₀ .ctxs := by first | assumption | exact trivial)
    (w_groups : w₀ .groups := by first | assumption | exact trivial)
    (w_acct : w₀ .acct := by first | assumption | exact trivial)
    (w_mem : w₀ .mem := by first | assumption | exact trivial)
    (w_ids : w₀ .ids := by first | assumption | exact trivial)
    (w_traffic : w₀ .traffic := by first | assumption | exact trivial) :
    Keeps w₀ r₀ (startJobEnd h asn s) := by
  unfold startJobEnd
  dsimp only
  repeat' (first
    | with_reducible assumption | with_reducible apply keeps_complete | with_reducible apply keeps_stopJob
    | with_reducible apply keeps_endJob | with_reducible apply keeps_endTransfers | with_reducible apply keeps_modCtx
    | with_reducible apply Keeps.upd | with_reducible rfl | with_reducible exact id
    | with_reducible exact Or.inl (by assumption) | with_reducible exact Or.inr rfl | with_reducible exact Or.inr ⟨rfl, rfl⟩
    | with_reducible exact Or.inr ⟨rfl, rfl, rfl⟩ | with_reducible exact Or.inr ⟨rfl, rfl, rfl, rfl⟩
    | with_reducible exact length_map' | (exact fun _ h => h) | intro _ | (show Ctx.canon _; assumption)
    | with_reducible apply Ctx.canon_ite | (show Mem.wf _ = true; assumption) | with_reducible apply Keeps.ite | split)

theorem keeps_jobComplete {w₀ : Part → Prop} {r₀ : State} (s : State) (asn : Nat) (hk : Keeps w₀ r₀ s)
    (w_regs : w₀ .regs := by first | assumption | exact trivial)
    (w_host : w₀ .host := by first | assumption | exact trivial)
    (w_ctxs : w₀ .ctxs := by first | assumption | exact trivial)
    (w_groups : w₀ .groups := by first | assumption | exact trivial)
    (w_acct : w₀ .acct := by first | assumption | exact trivial) :
    Keeps w₀ r₀ (jobComplete s asn) := by
  unfold jobComplete
  dsimp only
  repeat' (first
    | with_reducible assumption | with_reducible apply keeps_endJob | intro _ | with_reducible apply Keeps.ite | split)

theorem keeps_seatOne {w₀ : Part → Prop} {r₀ : State} (s : State) (asn : Nat) (hk : Keeps w₀ r₀ s)
    (w_ctxs : w₀ .ctxs := by first | assumption | exact trivial)
    (w_acct : w₀ .acct := by first | assumption | exact trivial) :
    Keeps w₀ r₀ (seatOne s asn) := by
  unfold seatOne
  repeat' (first
    | with_reducible assumption | with_reducible apply keeps_flushCtx | with_reducible apply keeps_modCtx
    | with_reducible apply Keeps.upd | with_reducible rfl | with_reducible exact id
    | with_reducible exact Or.inl (by assumption) | with_reducible exact Or.inr rfl | with_reducible exact Or.inr ⟨rfl, rfl⟩
    | with_reducible exact Or.inr ⟨rfl, rfl, rfl⟩ | with_reducible exact Or.inr ⟨rfl, rfl, rfl, rfl⟩ | (exact fun _ h => h)
    | intro _ | (show Ctx.canon _; assumption) | with_reducible apply Ctx.canon_ite | (show Mem.wf _ = true; assumption)
    | with_reducible apply Keeps.ite | split)

theorem keeps_seatClaimants {w₀ : Part → Prop} {r₀ : State} (s : State) (hk : Keeps w₀ r₀ s)
    (w_ctxs : w₀ .ctxs := by first | assumption | exact trivial)
    (w_acct : w₀ .acct := by first | assumption | exact trivial) :
    Keeps w₀ r₀ (seatClaimants s) := by
  unfold seatClaimants
  repeat' (first
    | with_reducible assumption | with_reducible apply keeps_seatOne | with_reducible apply Keeps.foldl
    | with_reducible exact length_map' | intro _)

theorem keeps_displace {w₀ : Part → Prop} {r₀ : State} (b : Ctx) (s : State) (asn : Nat) (hk : Keeps w₀ r₀ s)
    (w_ctxs : w₀ .ctxs := by first | assumption | exact trivial)
    (w_acct : w₀ .acct := by first | assumption | exact trivial) :
    Keeps w₀ r₀ (displace b s asn) := by
  unfold displace
  repeat' (first
    | with_reducible assumption | with_reducible apply keeps_flushCtx | with_reducible apply keeps_startBench
    | with_reducible apply keeps_modCtx | with_reducible apply Keeps.upd | with_reducible rfl | with_reducible exact id
    | with_reducible exact Or.inl (by assumption) | with_reducible exact Or.inr rfl | with_reducible exact Or.inr ⟨rfl, rfl⟩
    | with_reducible exact Or.inr ⟨rfl, rfl, rfl⟩ | with_reducible exact Or.inr ⟨rfl, rfl, rfl, rfl⟩ | (exact fun _ h => h)
    | intro _ | (show Ctx.canon _; assumption) | with_reducible apply Ctx.canon_ite | (show Mem.wf _ = true; assumption)
    | with_reducible apply Keeps.ite | split)

theorem keeps_seatingDecision {w₀ : Part → Prop} {r₀ : State} (s : State) (hk : Keeps w₀ r₀ s)
    (w_ctxs : w₀ .ctxs := by first | assumption | exact trivial)
    (w_acct : w₀ .acct := by first | assumption | exact trivial) :
    Keeps w₀ r₀ (seatingDecision s) := by
  unfold seatingDecision
  dsimp only
  repeat' (first
    | with_reducible assumption | with_reducible apply keeps_seatOne | with_reducible apply keeps_seatClaimants
    | with_reducible apply keeps_displace | with_reducible apply Keeps.foldl | with_reducible apply keeps_modCtx
    | with_reducible apply Keeps.upd | with_reducible rfl | with_reducible exact id
    | with_reducible exact Or.inl (by assumption) | with_reducible exact Or.inr rfl | with_reducible exact Or.inr ⟨rfl, rfl⟩
    | with_reducible exact Or.inr ⟨rfl, rfl, rfl⟩ | with_reducible exact Or.inr ⟨rfl, rfl, rfl, rfl⟩
    | with_reducible exact length_map' | (exact fun _ h => h) | (exact fun _ h => canon_map (fun _ h => h) h) | intro _
    | (show Ctx.canon _; assumption) | with_reducible apply Ctx.canon_ite | (show Mem.wf _ = true; assumption)
    | with_reducible apply Keeps.ite | split)

theorem keeps_sliceExpiry {w₀ : Part → Prop} {r₀ : State} (s : State) (asn : Nat) (hk : Keeps w₀ r₀ s)
    (w_ctxs : w₀ .ctxs := by first | assumption | exact trivial) :
    Keeps w₀ r₀ (sliceExpiry s asn) := by
  unfold sliceExpiry
  repeat' (first
    | with_reducible assumption | with_reducible apply keeps_modCtx | with_reducible apply Keeps.upd | with_reducible rfl
    | with_reducible exact id | with_reducible exact Or.inl (by assumption) | with_reducible exact Or.inr rfl
    | with_reducible exact Or.inr ⟨rfl, rfl⟩ | with_reducible exact Or.inr ⟨rfl, rfl, rfl⟩
    | with_reducible exact Or.inr ⟨rfl, rfl, rfl, rfl⟩ | (exact fun _ h => h) | intro _ | (show Ctx.canon _; assumption)
    | with_reducible apply Ctx.canon_ite | (show Mem.wf _ = true; assumption) | with_reducible apply Keeps.ite | split)

theorem keeps_unqueue {w₀ : Part → Prop} {r₀ : State} (s : State) (asn : Nat) (hk : Keeps w₀ r₀ s)
    (w_ctxs : w₀ .ctxs := by first | assumption | exact trivial) :
    Keeps w₀ r₀ (unqueue s asn) := by
  unfold unqueue
  simp only [State.mk_build]
  repeat' (first
    | with_reducible assumption | with_reducible apply Keeps.upd | with_reducible rfl | with_reducible exact id
    | with_reducible exact Or.inl (by assumption) | with_reducible exact Or.inr rfl | with_reducible exact Or.inr ⟨rfl, rfl⟩
    | with_reducible exact Or.inr ⟨rfl, rfl, rfl⟩ | with_reducible exact Or.inr ⟨rfl, rfl, rfl, rfl⟩
    | with_reducible exact length_map' | (exact fun _ h => h) | (exact fun _ h => canon_map (fun _ h => h) h)
    | (exact fun _ h => canon_filter h) | intro _ | (show Ctx.canon _; assumption) | with_reducible apply Ctx.canon_ite
    | (show Mem.wf _ = true; assumption))

theorem keeps_areaWrites {w₀ : Part → Prop} {r₀ : State} (s : State) (c : Ctx) (hk : Keeps w₀ r₀ s)
    (w_traffic : w₀ .traffic := by first | assumption | exact trivial) :
    Keeps w₀ r₀ (areaWrites s c) := by
  unfold areaWrites
  repeat' (first
    | with_reducible assumption | with_reducible apply keeps_coreWrites | with_reducible apply Keeps.foldl
    | with_reducible exact length_mapIdx' | intro _ | with_reducible apply Keeps.ite | split)

theorem keeps_areaReads {w₀ : Part → Prop} {r₀ : State} (s : State) (c : Ctx) (hk : Keeps w₀ r₀ s)
    (w_traffic : w₀ .traffic := by first | assumption | exact trivial) :
    Keeps w₀ r₀ (areaReads s c) := by
  unfold areaReads
  repeat' (first
    | with_reducible assumption | with_reducible apply keeps_dieReads | with_reducible apply Keeps.foldl
    | with_reducible exact length_mapIdx' | intro _)

theorem keeps_writeArea {w₀ : Part → Prop} {r₀ : State} (s0 : State) (c : Ctx) (hk : Keeps w₀ r₀ s0)
    (w_mem : w₀ .mem := by first | assumption | exact trivial)
    (w_traffic : w₀ .traffic := by first | assumption | exact trivial) :
    Keeps w₀ r₀ (writeArea s0 c) := by
  unfold writeArea
  simp only [State.mk_build]
  repeat' (first
    | with_reducible assumption | with_reducible apply keeps_areaWrites | with_reducible apply Keeps.upd
    | with_reducible rfl | with_reducible exact id | with_reducible exact Or.inl (by assumption)
    | with_reducible exact Or.inr rfl | with_reducible exact Or.inr ⟨rfl, rfl⟩ | with_reducible exact Or.inr ⟨rfl, rfl, rfl⟩
    | with_reducible exact Or.inr ⟨rfl, rfl, rfl, rfl⟩ | (exact fun _ h => h) | intro _ | (show Ctx.canon _; assumption)
    | with_reducible apply Ctx.canon_ite | (show Mem.wf _ = true; assumption) | with_reducible apply Keeps.ite | split)

theorem keeps_corkBegin {w₀ : Part → Prop} {r₀ : State} (s : State) (asn : Nat) (hk : Keeps w₀ r₀ s)
    (w_ctxs : w₀ .ctxs := by first | assumption | exact trivial)
    (w_acct : w₀ .acct := by first | assumption | exact trivial)
    (w_mem : w₀ .mem := by first | assumption | exact trivial)
    (w_traffic : w₀ .traffic := by first | assumption | exact trivial) :
    Keeps w₀ r₀ (corkBegin s asn) := by
  unfold corkBegin
  repeat' (first
    | with_reducible assumption | with_reducible apply keeps_flushCtx | with_reducible apply keeps_unqueue
    | with_reducible apply keeps_writeArea | with_reducible apply keeps_modCtx | with_reducible apply Keeps.upd
    | with_reducible rfl | with_reducible exact id | with_reducible exact Or.inl (by assumption)
    | with_reducible exact Or.inr rfl | with_reducible exact Or.inr ⟨rfl, rfl⟩ | with_reducible exact Or.inr ⟨rfl, rfl, rfl⟩
    | with_reducible exact Or.inr ⟨rfl, rfl, rfl, rfl⟩ | with_reducible exact length_map' | (exact fun _ h => h)
    | (exact stores_map fun _ h => h) | (exact stores_map fun _ h => by split <;> exact h) | (exact pools_map fun _ h => h)
    | (exact stores_mapIdx fun _ _ h => h) | (exact pools_modAt fun _ h => h) | (exact fun h => h) | intro _
    | (show Ctx.canon _; assumption) | with_reducible apply Ctx.canon_ite | (show Mem.wf _ = true; assumption)
    | (refine Ctx.canon_cores (by assumption) ?_ ?_) | with_reducible apply Keeps.ite | split)

theorem keeps_countCorked {w₀ : Part → Prop} {r₀ : State} (s : State) (c : Ctx) (hk : Keeps w₀ r₀ s)
    (w_hub : w₀ .hub := by first | assumption | exact trivial)
    (w_dies : w₀ .dies := by first | assumption | exact trivial) :
    Keeps w₀ r₀ (countCorked s c) := by
  unfold countCorked
  simp only [State.mk_build]
  repeat' (first
    | with_reducible assumption | with_reducible apply Keeps.upd | with_reducible rfl | with_reducible exact id
    | with_reducible exact Or.inl (by assumption) | with_reducible exact Or.inr rfl | with_reducible exact Or.inr ⟨rfl, rfl⟩
    | with_reducible exact Or.inr ⟨rfl, rfl, rfl⟩ | with_reducible exact Or.inr ⟨rfl, rfl, rfl, rfl⟩
    | with_reducible exact length_mapIdx' | (exact fun _ h => h) | intro _ | (show Ctx.canon _; assumption)
    | with_reducible apply Ctx.canon_ite | (show Mem.wf _ = true; assumption) | with_reducible apply Keeps.ite | split)

theorem keeps_becomeCorked {w₀ : Part → Prop} {r₀ : State} (s : State) (c : Ctx) (hk : Keeps w₀ r₀ s)
    (w_hub : w₀ .hub := by first | assumption | exact trivial)
    (w_regs : w₀ .regs := by first | assumption | exact trivial)
    (w_host : w₀ .host := by first | assumption | exact trivial)
    (w_dies : w₀ .dies := by first | assumption | exact trivial)
    (w_ctxs : w₀ .ctxs := by first | assumption | exact trivial)
    (w_modes : w₀ .modes := by first | assumption | exact trivial)
    (w_acct : w₀ .acct := by first | assumption | exact trivial)
    (w_store : w₀ .store := by first | assumption | exact trivial) :
    Keeps w₀ r₀ (becomeCorked s c) := by
  unfold becomeCorked
  dsimp only
  repeat' (first
    | with_reducible assumption | with_reducible apply keeps_complete | with_reducible apply keeps_resettle
    | with_reducible apply keeps_flushCtx | with_reducible apply keeps_clearSlots | with_reducible apply keeps_drainCheck
    | with_reducible apply keeps_countCorked | with_reducible apply Keeps.foldl | with_reducible apply keeps_modCtx
    | with_reducible apply Keeps.upd | with_reducible rfl | with_reducible exact id
    | with_reducible exact Or.inl (by assumption) | with_reducible exact Or.inr rfl | with_reducible exact Or.inr ⟨rfl, rfl⟩
    | with_reducible exact Or.inr ⟨rfl, rfl, rfl⟩ | with_reducible exact Or.inr ⟨rfl, rfl, rfl, rfl⟩ | (exact fun _ h => h)
    | intro _ | (show Ctx.canon _; assumption) | with_reducible apply Ctx.canon_ite | (show Mem.wf _ = true; assumption))

theorem discard_canon {c : Ctx} (h : c.canon) : c.discard.canon := by
  unfold Ctx.discard
  refine Ctx.canon_ite ⟨fun k hk => ?_, fun q hq => ?_⟩ h
  · obtain ⟨x, -, rfl⟩ := List.mem_map.1 hk
    rfl
  · obtain ⟨x, -, rfl⟩ := List.mem_map.1 hq
    rfl

theorem keeps_corkDone {w₀ : Part → Prop} {r₀ : State} (s : State) (asn : Nat) (hk : Keeps w₀ r₀ s)
    (w_hub : w₀ .hub := by first | assumption | exact trivial)
    (w_regs : w₀ .regs := by first | assumption | exact trivial)
    (w_host : w₀ .host := by first | assumption | exact trivial)
    (w_dies : w₀ .dies := by first | assumption | exact trivial)
    (w_ctxs : w₀ .ctxs := by first | assumption | exact trivial)
    (w_modes : w₀ .modes := by first | assumption | exact trivial)
    (w_acct : w₀ .acct := by first | assumption | exact trivial)
    (w_store : w₀ .store := by first | assumption | exact trivial) :
    Keeps w₀ r₀ (corkDone s asn) := by
  unfold corkDone
  dsimp only
  repeat' (first
    | with_reducible assumption | with_reducible apply keeps_flushCtx | with_reducible apply keeps_seatClaimants
    | with_reducible apply keeps_becomeCorked | (exact discard_canon (by assumption)) | with_reducible apply keeps_modCtx
    | with_reducible apply Keeps.upd | with_reducible rfl | with_reducible exact id
    | with_reducible exact Or.inl (by assumption) | with_reducible exact Or.inr rfl | with_reducible exact Or.inr ⟨rfl, rfl⟩
    | with_reducible exact Or.inr ⟨rfl, rfl, rfl⟩ | with_reducible exact Or.inr ⟨rfl, rfl, rfl, rfl⟩ | (exact fun _ h => h)
    | intro _ | (show Ctx.canon _; assumption) | with_reducible apply Ctx.canon_ite | (show Mem.wf _ = true; assumption)
    | with_reducible apply Keeps.ite | split)

theorem keeps_requeue {w₀ : Part → Prop} {r₀ : State} (asn : Nat) (s : State) (core : Nat) (hk : Keeps w₀ r₀ s)
    (w_ctxs : w₀ .ctxs := by first | assumption | exact trivial) :
    Keeps w₀ r₀ (requeue asn s core) := by
  unfold requeue
  dsimp only
  repeat' (first
    | with_reducible assumption | with_reducible apply keeps_stopJob | with_reducible apply keeps_joinFence
    | with_reducible apply keeps_lend | with_reducible apply keeps_modCtx | with_reducible apply Keeps.upd
    | with_reducible rfl | with_reducible exact id | with_reducible exact Or.inl (by assumption)
    | with_reducible exact Or.inr rfl | with_reducible exact Or.inr ⟨rfl, rfl⟩ | with_reducible exact Or.inr ⟨rfl, rfl, rfl⟩
    | with_reducible exact Or.inr ⟨rfl, rfl, rfl, rfl⟩ | (exact fun _ h => h) | intro _ | (show Ctx.canon _; assumption)
    | with_reducible apply Ctx.canon_ite | (show Mem.wf _ = true; assumption) | with_reducible apply Keeps.ite | split)

theorem keeps_readArea {w₀ : Part → Prop} {r₀ : State} (s : State) (c : Ctx) (hk : Keeps w₀ r₀ s)
    (w_dies : w₀ .dies := by first | assumption | exact trivial)
    (w_mem : w₀ .mem := by first | assumption | exact trivial)
    (w_traffic : w₀ .traffic := by first | assumption | exact trivial) :
    Keeps w₀ r₀ (readArea s c) := by
  unfold readArea
  repeat' (first
    | with_reducible assumption | with_reducible apply keeps_meetCells | with_reducible apply keeps_areaReads
    | with_reducible apply Keeps.foldl | intro _ | with_reducible apply Keeps.ite | split)

theorem keeps_resumeEntry {w₀ : Part → Prop} {r₀ : State} (s : State) (asn va : Nat) (hk : Keeps w₀ r₀ s)
    (w_regs : w₀ .regs := by first | assumption | exact trivial)
    (w_dies : w₀ .dies := by first | assumption | exact trivial)
    (w_mem : w₀ .mem := by first | assumption | exact trivial)
    (w_traffic : w₀ .traffic := by first | assumption | exact trivial) : Keeps w₀ r₀ (resumeEntry s asn va).1 := by
  unfold resumeEntry
  dsimp only
  repeat' (first | with_reducible assumption | with_reducible apply keeps_seenIn | with_reducible apply keeps_agentReads | split)

theorem replay_canon {c : Ctx} {e : Nat × Bytes} (h : c.canon) : (c.replay e).canon := by
  unfold Ctx.replay
  exact Ctx.canon_ite ⟨h.1, pools_map (fun _ k => Mem.wf_writeN _ _ k) h.2⟩ ⟨stores_map (fun _ k => Mem.wf_writeN _ _ k) h.1, h.2⟩

theorem keeps_replayList {w₀ : Part → Prop} {r₀ : State} (s : State) (asn va n : Nat) (hk : Keeps w₀ r₀ s)
    (w_regs : w₀ .regs := by first | assumption | exact trivial)
    (w_dies : w₀ .dies := by first | assumption | exact trivial)
    (w_ctxs : w₀ .ctxs := by first | assumption | exact trivial)
    (w_mem : w₀ .mem := by first | assumption | exact trivial)
    (w_traffic : w₀ .traffic := by first | assumption | exact trivial) : Keeps w₀ r₀ (replayList s asn va n).1 := by
  induction n generalizing s va with
  | zero => exact hk
  | succ n ih =>
    unfold replayList
    have k := keeps_resumeEntry s asn va hk
    split
    · rename_i h
      rw [h] at k
      exact k
    · rename_i h
      rw [h] at k
      dsimp only
      split
      · exact k
      · exact ih _ _ (keeps_modCtx k fun _ h => replay_canon h)

theorem keeps_replayed {w₀ : Part → Prop} {r₀ : State} {s t : State} {asn va n : Nat} {x : Except Bool Unit} (h : replayList s asn va n = (t, x))
    (hk : Keeps w₀ r₀ s)
    (w_regs : w₀ .regs := by first | assumption | exact trivial)
    (w_dies : w₀ .dies := by first | assumption | exact trivial)
    (w_ctxs : w₀ .ctxs := by first | assumption | exact trivial)
    (w_mem : w₀ .mem := by first | assumption | exact trivial)
    (w_traffic : w₀ .traffic := by first | assumption | exact trivial) : Keeps w₀ r₀ t := by
  have k := keeps_replayList s asn va n hk
  rw [h] at k
  exact k

theorem stores_resume {l : List Core} {b e : Bool} {p : Prop} [Decidable p] (h : ∀ k ∈ l, k.store.wf = true) :
    ∀ k ∈ (if p then l.map Core.halt else l.map (Core.resume b e)), k.store.wf = true := by
  split
  · exact stores_map (fun _ h => h) h
  · exact stores_map (fun _ h => h) h

theorem keeps_uncorkDone {w₀ : Part → Prop} {r₀ : State} (s : State) (asn : Nat) (hk : Keeps w₀ r₀ s)
    (w_regs : w₀ .regs := by first | assumption | exact trivial)
    (w_host : w₀ .host := by first | assumption | exact trivial)
    (w_dies : w₀ .dies := by first | assumption | exact trivial)
    (w_pages : w₀ .pages := by first | assumption | exact trivial)
    (w_moves : w₀ .moves := by first | assumption | exact trivial)
    (w_ctxs : w₀ .ctxs := by first | assumption | exact trivial)
    (w_groups : w₀ .groups := by first | assumption | exact trivial)
    (w_codecs : w₀ .codecs := by first | assumption | exact trivial)
    (w_modes : w₀ .modes := by first | assumption | exact trivial)
    (w_acct : w₀ .acct := by first | assumption | exact trivial)
    (w_store : w₀ .store := by first | assumption | exact trivial)
    (w_mem : w₀ .mem := by first | assumption | exact trivial)
    (w_ids : w₀ .ids := by first | assumption | exact trivial)
    (w_traffic : w₀ .traffic := by first | assumption | exact trivial) :
    Keeps w₀ r₀ (uncorkDone s asn) := by
  unfold uncorkDone
  dsimp only
  repeat' (first
    | with_reducible assumption | with_reducible apply keeps_flushCtx | with_reducible apply keeps_stopJob
    | with_reducible apply keeps_dieFault | with_reducible apply keeps_goCtx | with_reducible apply keeps_requeue
    | with_reducible apply keeps_readArea | (exact stores_resume) | (refine keeps_replayed ‹replayList _ _ _ _ = _› ?_)
    | with_reducible apply Keeps.foldl | with_reducible apply keeps_modCtx | with_reducible apply Keeps.upd
    | with_reducible rfl | with_reducible exact id | with_reducible exact Or.inl (by assumption)
    | with_reducible exact Or.inr rfl | with_reducible exact Or.inr ⟨rfl, rfl⟩ | with_reducible exact Or.inr ⟨rfl, rfl, rfl⟩
    | with_reducible exact Or.inr ⟨rfl, rfl, rfl, rfl⟩ | with_reducible exact length_map' | (exact fun _ h => h)
    | (exact stores_map fun _ h => h) | (exact stores_map fun _ h => by split <;> exact h) | (exact pools_map fun _ h => h)
    | (exact stores_mapIdx fun _ _ h => h) | (exact pools_modAt fun _ h => h) | (exact fun h => h) | intro _
    | (show Ctx.canon _; assumption) | with_reducible apply Ctx.canon_ite | (show Mem.wf _ = true; assumption)
    | (refine Ctx.canon_cores (by assumption) ?_ ?_) | with_reducible apply Keeps.ite | split)

end Sys2Proof.Machine
end

