-- ==== Sys2Proof/Laws/KeepsRegisters.lean ====
section
/-! SUPPORT. Laws/KeepsRegisters.lean: what the operations of Machine/Registers.lean keep. -/

set_option Elab.async false

namespace Sys2Proof.Machine

theorem keeps_hostRead {w₀ : Part → Prop} {r₀ : State} (s : State) (off : Nat) (hk : Keeps w₀ r₀ s)
    (w_host : w₀ .host := by first | assumption | exact trivial) :
    Keeps w₀ r₀ (hostRead s off) := by
  unfold hostRead
  simp only [State.mk_build]
  repeat' (first
    | with_reducible assumption | with_reducible apply Keeps.upd | with_reducible rfl | with_reducible exact id
    | with_reducible exact Or.inl (by assumption) | with_reducible exact Or.inr rfl | with_reducible exact Or.inr ⟨rfl, rfl⟩
    | with_reducible exact Or.inr ⟨rfl, rfl, rfl⟩ | with_reducible exact Or.inr ⟨rfl, rfl, rfl, rfl⟩ | (exact fun _ h => h)
    | intro _ | (show Ctx.canon _; assumption) | with_reducible apply Ctx.canon_ite | (show Mem.wf _ = true; assumption)
    | with_reducible apply Keeps.ite | split)

theorem keeps_busRead {w₀ : Part → Prop} {r₀ : State} (s : State) (r : BusRead) (hk : Keeps w₀ r₀ s)
    (w_host : w₀ .host := by first | assumption | exact trivial) :
    Keeps w₀ r₀ (busRead s r) := by
  unfold busRead
  simp only [State.mk_build]
  repeat' (first
    | with_reducible assumption | with_reducible apply keeps_hostRead | with_reducible apply Keeps.foldl
    | with_reducible apply Keeps.upd | with_reducible rfl | with_reducible exact id
    | with_reducible exact Or.inl (by assumption) | with_reducible exact Or.inr rfl | with_reducible exact Or.inr ⟨rfl, rfl⟩
    | with_reducible exact Or.inr ⟨rfl, rfl, rfl⟩ | with_reducible exact Or.inr ⟨rfl, rfl, rfl, rfl⟩ | (exact fun _ h => h)
    | intro _ | (show Ctx.canon _; assumption) | with_reducible apply Ctx.canon_ite | (show Mem.wf _ = true; assumption)
    | with_reducible apply Keeps.ite | split)

theorem keeps_refuseHq {w₀ : Part → Prop} {r₀ : State} (s : State) (q : Nat) (hk : Keeps w₀ r₀ s)
    (w_regs : w₀ .regs := by first | assumption | exact trivial) :
    Keeps w₀ r₀ (refuseHq s q) := by
  unfold refuseHq
  repeat' (first
    | with_reducible assumption | with_reducible apply keeps_setBits | intro _)

theorem keeps_hqBaseWrite {w₀ : Part → Prop} {r₀ : State} (s : State) (q reg : Nat) (v : Word) (hk : Keeps w₀ r₀ s)
    (w_regs : w₀ .regs := by first | assumption | exact trivial) :
    Keeps w₀ r₀ (hqBaseWrite s q reg v) := by
  unfold hqBaseWrite
  dsimp only
  repeat' (first
    | with_reducible assumption | with_reducible apply keeps_storeMasked | with_reducible apply keeps_refuseHq | intro _
    | with_reducible apply Keeps.ite | split)

theorem keeps_startQueue {w₀ : Part → Prop} {r₀ : State} (s : State) (q : Nat) (hk : Keeps w₀ r₀ s)
    (w_regs : w₀ .regs := by first | assumption | exact trivial)
    (w_host : w₀ .host := by first | assumption | exact trivial) :
    Keeps w₀ r₀ (startQueue s q) := by
  unfold startQueue
  repeat' (first
    | with_reducible assumption | with_reducible apply keeps_setQ | with_reducible apply keeps_cqDrain
    | with_reducible apply Keeps.upd | with_reducible rfl | with_reducible exact id
    | with_reducible exact Or.inl (by assumption) | with_reducible exact Or.inr rfl | with_reducible exact Or.inr ⟨rfl, rfl⟩
    | with_reducible exact Or.inr ⟨rfl, rfl, rfl⟩ | with_reducible exact Or.inr ⟨rfl, rfl, rfl, rfl⟩ | (exact fun _ h => h)
    | intro _ | (show Ctx.canon _; assumption) | with_reducible apply Ctx.canon_ite | (show Mem.wf _ = true; assumption))

theorem keeps_hqCtl {w₀ : Part → Prop} {r₀ : State} (s : State) (q : Nat) (v : Word) (hk : Keeps w₀ r₀ s)
    (w_regs : w₀ .regs := by first | assumption | exact trivial)
    (w_host : w₀ .host := by first | assumption | exact trivial) :
    Keeps w₀ r₀ (hqCtl s q v) := by
  unfold hqCtl
  dsimp only
  repeat' (first
    | with_reducible assumption | with_reducible apply keeps_setQ | with_reducible apply keeps_storeMasked
    | with_reducible apply keeps_refuseHq | with_reducible apply keeps_startQueue | with_reducible apply Keeps.upd
    | with_reducible rfl | with_reducible exact id | with_reducible exact Or.inl (by assumption)
    | with_reducible exact Or.inr rfl | with_reducible exact Or.inr ⟨rfl, rfl⟩ | with_reducible exact Or.inr ⟨rfl, rfl, rfl⟩
    | with_reducible exact Or.inr ⟨rfl, rfl, rfl, rfl⟩ | (exact fun _ h => h) | intro _ | (show Ctx.canon _; assumption)
    | with_reducible apply Ctx.canon_ite | (show Mem.wf _ = true; assumption) | with_reducible apply Keeps.ite | split)

theorem keeps_msgWrite {w₀ : Part → Prop} {r₀ : State} (s : State) (off : Nat) (v : Word) (hk : Keeps w₀ r₀ s)
    (w_regs : w₀ .regs := by first | assumption | exact trivial)
    (w_host : w₀ .host := by first | assumption | exact trivial) :
    Keeps w₀ r₀ (msgWrite s off v) := by
  unfold msgWrite
  simp only [State.mk_build]
  repeat' (first
    | with_reducible assumption | with_reducible apply keeps_setBits | with_reducible apply keeps_msgDrain
    | with_reducible apply keeps_storeMasked | with_reducible apply Keeps.upd | with_reducible rfl | with_reducible exact id
    | with_reducible exact Or.inl (by assumption) | with_reducible exact Or.inr rfl | with_reducible exact Or.inr ⟨rfl, rfl⟩
    | with_reducible exact Or.inr ⟨rfl, rfl, rfl⟩ | with_reducible exact Or.inr ⟨rfl, rfl, rfl, rfl⟩ | (exact fun _ h => h)
    | intro _ | (show Ctx.canon _; assumption) | with_reducible apply Ctx.canon_ite | (show Mem.wf _ = true; assumption)
    | with_reducible apply Keeps.ite | split)

theorem keeps_msgHead {w₀ : Part → Prop} {r₀ : State} (s : State) (v : Word) (hk : Keeps w₀ r₀ s)
    (w_regs : w₀ .regs := by first | assumption | exact trivial)
    (w_host : w₀ .host := by first | assumption | exact trivial) :
    Keeps w₀ r₀ (msgHead s v) := by
  unfold msgHead
  simp only [State.mk_build]
  repeat' (first
    | with_reducible assumption | with_reducible apply keeps_msgDrain | with_reducible apply Keeps.upd | with_reducible rfl
    | with_reducible exact id | with_reducible exact Or.inl (by assumption) | with_reducible exact Or.inr rfl
    | with_reducible exact Or.inr ⟨rfl, rfl⟩ | with_reducible exact Or.inr ⟨rfl, rfl, rfl⟩
    | with_reducible exact Or.inr ⟨rfl, rfl, rfl, rfl⟩ | (exact fun _ h => h) | intro _ | (show Ctx.canon _; assumption)
    | with_reducible apply Ctx.canon_ite | (show Mem.wf _ = true; assumption))

theorem keeps_msixCtl {w₀ : Part → Prop} {r₀ : State} (s : State) (v : Nat) (w : Word) (hk : Keeps w₀ r₀ s)
    (w_regs : w₀ .regs := by first | assumption | exact trivial)
    (w_host : w₀ .host := by first | assumption | exact trivial) :
    Keeps w₀ r₀ (msixCtl s v w) := by
  unfold msixCtl
  dsimp only
  repeat' (first
    | with_reducible assumption | with_reducible apply keeps_setReg | with_reducible apply keeps_raiseMsix
    | with_reducible apply keeps_storeMasked | intro _ | with_reducible apply Keeps.ite | split)

theorem keeps_precWrite {w₀ : Part → Prop} {r₀ : State} (s : State) (d slot reg : Nat) (v : Word) (hk : Keeps w₀ r₀ s)
    (w_regs : w₀ .regs := by first | assumption | exact trivial) :
    Keeps w₀ r₀ (precWrite s d slot reg v) := by
  unfold precWrite
  dsimp only
  repeat' (first
    | with_reducible assumption | with_reducible apply keeps_setBits | with_reducible apply keeps_storeMasked
    | with_reducible apply keeps_clearW1c | intro _ | with_reducible apply Keeps.ite | split)

theorem keeps_plainWrite {w₀ : Part → Prop} {r₀ : State} (s : State) (off : Nat) (v : Word) (hk : Keeps w₀ r₀ s)
    (w_regs : w₀ .regs := by first | assumption | exact trivial) :
    Keeps w₀ r₀ (plainWrite s off v) := by
  unfold plainWrite
  dsimp only
  repeat' (first
    | with_reducible assumption | with_reducible apply keeps_storeMasked | with_reducible apply keeps_clearW1c | intro _
    | with_reducible apply Keeps.ite | split)

theorem keeps_writeDie {w₀ : Part → Prop} {r₀ : State} (s : State) (d o : Nat) (v : Word) (hk : Keeps w₀ r₀ s)
    (w_regs : w₀ .regs := by first | assumption | exact trivial)
    (w_dies : w₀ .dies := by first | assumption | exact trivial)
    (w_traffic : w₀ .traffic := by first | assumption | exact trivial) :
    Keeps w₀ r₀ (writeDie s d o v) := by
  unfold writeDie
  dsimp only
  repeat' (first
    | with_reducible assumption | with_reducible apply keeps_islVset | with_reducible apply keeps_islMargin
    | with_reducible apply keeps_islRateMinReset | with_reducible apply keeps_c0LatClr
    | with_reducible apply keeps_trkPeakClr | with_reducible apply keeps_precWrite | with_reducible apply keeps_plainWrite
    | intro _ | with_reducible apply Keeps.ite | split)

theorem keeps_writePower {w₀ : Part → Prop} {r₀ : State} (s : State) (off : Nat) (v : Word) (hk : Keeps w₀ r₀ s)
    (w_regs : w₀ .regs := by first | assumption | exact trivial)
    (w_host : w₀ .host := by first | assumption | exact trivial)
    (w_power : w₀ .power := by first | assumption | exact trivial)
    (w_acct : w₀ .acct := by first | assumption | exact trivial)
    (w_ids : w₀ .ids := by first | assumption | exact trivial) :
    Keeps w₀ r₀ (writePower s off v) := by
  unfold writePower
  repeat' (first
    | with_reducible assumption | with_reducible apply keeps_tallyRecIndex | with_reducible apply keeps_pwrLimitWrite
    | with_reducible apply keeps_pwrPeakClr | with_reducible apply keeps_tallyCtl | with_reducible apply keeps_appCtl
    | with_reducible apply keeps_plainWrite | intro _ | with_reducible apply Keeps.ite | split)

theorem keeps_writeScreen {w₀ : Part → Prop} {r₀ : State} (s : State) (d o : Nat) (v : Word) (hk : Keeps w₀ r₀ s)
    (w_regs : w₀ .regs := by first | assumption | exact trivial)
    (w_host : w₀ .host := by first | assumption | exact trivial)
    (w_dies : w₀ .dies := by first | assumption | exact trivial)
    (w_store : w₀ .store := by first | assumption | exact trivial) :
    Keeps w₀ r₀ (writeScreen s d o v) := by
  unfold writeScreen
  dsimp only
  repeat' (first
    | with_reducible assumption | with_reducible apply keeps_scrCmd | with_reducible apply keeps_plainWrite | intro _
    | with_reducible apply Keeps.ite | split)

theorem keeps_writeFlashReg {w₀ : Part → Prop} {r₀ : State} (s : State) (v : Word) (hk : Keeps w₀ r₀ s)
    (w_hub : w₀ .hub := by first | assumption | exact trivial)
    (w_power : w₀ .power := by first | assumption | exact trivial)
    (w_store : w₀ .store := by first | assumption | exact trivial)
    (w_ids : w₀ .ids := by first | assumption | exact trivial) :
    Keeps w₀ r₀ (writeFlashReg s v) := by
  unfold writeFlashReg
  simp only [State.mk_build]
  repeat' (first
    | with_reducible assumption | with_reducible apply keeps_flashRelease | with_reducible apply keeps_flashAttach
    | with_reducible apply Keeps.upd | with_reducible rfl | with_reducible exact id
    | with_reducible exact Or.inl (by assumption) | with_reducible exact Or.inr rfl | with_reducible exact Or.inr ⟨rfl, rfl⟩
    | with_reducible exact Or.inr ⟨rfl, rfl, rfl⟩ | with_reducible exact Or.inr ⟨rfl, rfl, rfl, rfl⟩ | (exact fun _ h => h)
    | intro _ | (show Ctx.canon _; assumption) | with_reducible apply Ctx.canon_ite | (show Mem.wf _ = true; assumption)
    | with_reducible apply Keeps.ite | split)

theorem keeps_writeRel {w₀ : Part → Prop} {r₀ : State} (s : State) (off : Nat) (v : Word) (hk : Keeps w₀ r₀ s)
    (w_hub : w₀ .hub := by first | assumption | exact trivial)
    (w_regs : w₀ .regs := by first | assumption | exact trivial)
    (w_host : w₀ .host := by first | assumption | exact trivial)
    (w_dies : w₀ .dies := by first | assumption | exact trivial)
    (w_power : w₀ .power := by first | assumption | exact trivial)
    (w_store : w₀ .store := by first | assumption | exact trivial)
    (w_ids : w₀ .ids := by first | assumption | exact trivial) :
    Keeps w₀ r₀ (writeRel s off v) := by
  unfold writeRel
  repeat' (first
    | with_reducible assumption | with_reducible apply keeps_logIndexWrite | with_reducible apply keeps_vrmRelease
    | with_reducible apply keeps_dieFlagWrite | with_reducible apply keeps_plainWrite
    | with_reducible apply keeps_writeScreen | with_reducible apply keeps_writeFlashReg | intro _
    | with_reducible apply Keeps.ite | split)

theorem keeps_writeHub {w₀ : Part → Prop} {r₀ : State} (s : State) (off : Nat) (v : Word) (hk : Keeps w₀ r₀ s)
    (w_hub : w₀ .hub := by first | assumption | exact trivial)
    (w_regs : w₀ .regs := by first | assumption | exact trivial)
    (w_host : w₀ .host := by first | assumption | exact trivial)
    (w_dies : w₀ .dies := by first | assumption | exact trivial)
    (w_pages : w₀ .pages := by first | assumption | exact trivial)
    (w_moves : w₀ .moves := by first | assumption | exact trivial)
    (w_ctxs : w₀ .ctxs := by first | assumption | exact trivial)
    (w_links : w₀ .links := by first | assumption | exact trivial)
    (w_groups : w₀ .groups := by first | assumption | exact trivial)
    (w_codecs : w₀ .codecs := by first | assumption | exact trivial)
    (w_modes : w₀ .modes := by first | assumption | exact trivial)
    (w_power : w₀ .power := by first | assumption | exact trivial)
    (w_acct : w₀ .acct := by first | assumption | exact trivial)
    (w_store : w₀ .store := by first | assumption | exact trivial)
    (w_mem : w₀ .mem := by first | assumption | exact trivial)
    (w_ids : w₀ .ids := by first | assumption | exact trivial)
    (w_traffic : w₀ .traffic := by first | assumption | exact trivial) :
    Keeps w₀ r₀ (writeHub s off v) := by
  unfold writeHub
  dsimp only
  repeat' (first
    | with_reducible assumption | with_reducible apply keeps_hubResetWrite | with_reducible apply keeps_acctCtl
    | with_reducible apply keeps_hqBaseWrite | with_reducible apply keeps_hqCtl | with_reducible apply keeps_msgWrite
    | with_reducible apply keeps_msgHead | with_reducible apply keeps_msixCtl | with_reducible apply keeps_plainWrite
    | intro _ | with_reducible apply Keeps.ite | split)

theorem keeps_writeLink {w₀ : Part → Prop} {r₀ : State} (s : State) (off : Nat) (v : Word) (hk : Keeps w₀ r₀ s)
    (w_regs : w₀ .regs := by first | assumption | exact trivial)
    (w_host : w₀ .host := by first | assumption | exact trivial)
    (w_links : w₀ .links := by first | assumption | exact trivial)
    (w_store : w₀ .store := by first | assumption | exact trivial) :
    Keeps w₀ r₀ (writeLink s off v) := by
  unfold writeLink
  repeat' (first
    | with_reducible assumption | with_reducible apply keeps_storeMasked | with_reducible apply keeps_portRetrain
    | with_reducible apply keeps_plainWrite | intro _ | with_reducible apply Keeps.ite | split)

theorem keeps_writeTier {w₀ : Part → Prop} {r₀ : State} (s : State) (off : Nat) (v : Word) (hk : Keeps w₀ r₀ s)
    (w_regs : w₀ .regs := by first | assumption | exact trivial)
    (w_host : w₀ .host := by first | assumption | exact trivial) :
    Keeps w₀ r₀ (writeTier s off v) := by
  unfold writeTier
  dsimp only
  repeat' (first
    | with_reducible assumption | with_reducible apply keeps_nearQuotaWrite | with_reducible apply keeps_cellarQuotaWrite
    | with_reducible apply keeps_hwWrite | with_reducible apply keeps_plainWrite | intro _ | with_reducible apply Keeps.ite
    | split)

theorem keeps_writeReg {w₀ : Part → Prop} {r₀ : State} (s : State) (off : Nat) (v : Word) (hk : Keeps w₀ r₀ s)
    (w_hub : w₀ .hub := by first | assumption | exact trivial)
    (w_regs : w₀ .regs := by first | assumption | exact trivial)
    (w_host : w₀ .host := by first | assumption | exact trivial)
    (w_dies : w₀ .dies := by first | assumption | exact trivial)
    (w_pages : w₀ .pages := by first | assumption | exact trivial)
    (w_moves : w₀ .moves := by first | assumption | exact trivial)
    (w_ctxs : w₀ .ctxs := by first | assumption | exact trivial)
    (w_links : w₀ .links := by first | assumption | exact trivial)
    (w_groups : w₀ .groups := by first | assumption | exact trivial)
    (w_codecs : w₀ .codecs := by first | assumption | exact trivial)
    (w_modes : w₀ .modes := by first | assumption | exact trivial)
    (w_power : w₀ .power := by first | assumption | exact trivial)
    (w_acct : w₀ .acct := by first | assumption | exact trivial)
    (w_store : w₀ .store := by first | assumption | exact trivial)
    (w_mem : w₀ .mem := by first | assumption | exact trivial)
    (w_ids : w₀ .ids := by first | assumption | exact trivial)
    (w_traffic : w₀ .traffic := by first | assumption | exact trivial) :
    Keeps w₀ r₀ (writeReg s off v) := by
  unfold writeReg
  repeat' (first
    | with_reducible assumption | with_reducible apply keeps_writeDie | with_reducible apply keeps_writePower
    | with_reducible apply keeps_writeRel | with_reducible apply keeps_writeHub | with_reducible apply keeps_writeLink
    | with_reducible apply keeps_writeTier | intro _ | with_reducible apply Keeps.ite | split)

theorem keeps_busWrite {w₀ : Part → Prop} {r₀ : State} (s : State) (off width : Nat) (v : BitVec 64) (hk : Keeps w₀ r₀ s)
    (w_hub : w₀ .hub := by first | assumption | exact trivial)
    (w_regs : w₀ .regs := by first | assumption | exact trivial)
    (w_host : w₀ .host := by first | assumption | exact trivial)
    (w_dies : w₀ .dies := by first | assumption | exact trivial)
    (w_pages : w₀ .pages := by first | assumption | exact trivial)
    (w_moves : w₀ .moves := by first | assumption | exact trivial)
    (w_ctxs : w₀ .ctxs := by first | assumption | exact trivial)
    (w_links : w₀ .links := by first | assumption | exact trivial)
    (w_groups : w₀ .groups := by first | assumption | exact trivial)
    (w_codecs : w₀ .codecs := by first | assumption | exact trivial)
    (w_modes : w₀ .modes := by first | assumption | exact trivial)
    (w_power : w₀ .power := by first | assumption | exact trivial)
    (w_acct : w₀ .acct := by first | assumption | exact trivial)
    (w_store : w₀ .store := by first | assumption | exact trivial)
    (w_mem : w₀ .mem := by first | assumption | exact trivial)
    (w_ids : w₀ .ids := by first | assumption | exact trivial)
    (w_traffic : w₀ .traffic := by first | assumption | exact trivial) :
    Keeps w₀ r₀ (busWrite s off width v) := by
  unfold busWrite
  repeat' (first
    | with_reducible assumption | with_reducible apply keeps_writeReg | intro _ | with_reducible apply Keeps.ite | split)

end Sys2Proof.Machine
end

