-- ==== Sys2Proof/Laws/KeepsPump.lean ====
section
/-! SUPPORT. Laws/KeepsPump.lean: what the operations of Machine/Pump.lean keep. -/

set_option Elab.async false

namespace Sys2Proof.Machine

theorem keeps_hostCmd {w₀ : Part → Prop} {r₀ : State} {i : Instr} {c : HostCmd} (h : hostCmd i = some c) (s : State) (hk : Keeps w₀ r₀ s)
    (w_hub : w₀ .hub := by first | assumption | exact trivial)
    (w_regs : w₀ .regs := by first | assumption | exact trivial)
    (w_host : w₀ .host := by first | assumption | exact trivial)
    (w_dies : w₀ .dies := by first | assumption | exact trivial)
    (w_pages : w₀ .pages := by first | assumption | exact trivial)
    (w_moves : w₀ .moves := by first | assumption | exact trivial)
    (w_ctxs : w₀ .ctxs := by first | assumption | exact trivial)
    (w_groups : w₀ .groups := by first | assumption | exact trivial)
    (w_codecs : w₀ .codecs := by first | assumption | exact trivial)
    (w_modes : w₀ .modes := by first | assumption | exact trivial)
    (w_power : w₀ .power := by first | assumption | exact trivial)
    (w_acct : w₀ .acct := by first | assumption | exact trivial)
    (w_store : w₀ .store := by first | assumption | exact trivial)
    (w_mem : w₀ .mem := by first | assumption | exact trivial)
    (w_ids : w₀ .ids := by first | assumption | exact trivial)
    (w_traffic : w₀ .traffic := by first | assumption | exact trivial) :
    Keeps w₀ r₀ (c.start s) := by
  unfold hostCmd at h
  split at h
  all_goals cases h
  all_goals repeat' (first
    | with_reducible assumption | with_reducible apply keeps_startNop | with_reducible apply keeps_startCreate
    | with_reducible apply keeps_startDestroy | with_reducible apply keeps_startCtxCork
    | with_reducible apply keeps_startUncork | with_reducible apply keeps_startExport
    | with_reducible apply keeps_startSetClass | with_reducible apply keeps_startAsnDestroy
    | with_reducible apply keeps_startAliasSet | with_reducible apply keeps_startAliasClear
    | with_reducible apply keeps_startSemSignal | with_reducible apply keeps_startJobLaunch
    | with_reducible apply keeps_startJobEnd | with_reducible apply keeps_startDescBind
    | with_reducible apply keeps_startTrellisBind | with_reducible apply keeps_startVersionSet
    | with_reducible apply keeps_startAlloc | with_reducible apply keeps_startMigrate
    | with_reducible apply keeps_startFree | with_reducible apply keeps_startXfer
    | with_reducible apply keeps_startGroupCreate | with_reducible apply keeps_startGroupDestroy
    | with_reducible apply keeps_startStreamOpen | with_reducible apply keeps_startStreamClose
    | with_reducible apply keeps_startFrameSubmit | with_reducible apply keeps_startFrameRelease
    | with_reducible apply keeps_startModeSet | with_reducible apply keeps_startApply
    | with_reducible apply keeps_startDormant | with_reducible apply keeps_startWake
    | with_reducible apply keeps_startDieDrain | with_reducible apply keeps_startDieRestore)

theorem keeps_startCmd {w₀ : Part → Prop} {r₀ : State} (s : State) (t : Nat) (i : Instr) (hk : Keeps w₀ r₀ s)
    (w_hub : w₀ .hub := by first | assumption | exact trivial)
    (w_regs : w₀ .regs := by first | assumption | exact trivial)
    (w_host : w₀ .host := by first | assumption | exact trivial)
    (w_dies : w₀ .dies := by first | assumption | exact trivial)
    (w_pages : w₀ .pages := by first | assumption | exact trivial)
    (w_moves : w₀ .moves := by first | assumption | exact trivial)
    (w_ctxs : w₀ .ctxs := by first | assumption | exact trivial)
    (w_groups : w₀ .groups := by first | assumption | exact trivial)
    (w_codecs : w₀ .codecs := by first | assumption | exact trivial)
    (w_modes : w₀ .modes := by first | assumption | exact trivial)
    (w_power : w₀ .power := by first | assumption | exact trivial)
    (w_acct : w₀ .acct := by first | assumption | exact trivial)
    (w_store : w₀ .store := by first | assumption | exact trivial)
    (w_mem : w₀ .mem := by first | assumption | exact trivial)
    (w_ids : w₀ .ids := by first | assumption | exact trivial)
    (w_traffic : w₀ .traffic := by first | assumption | exact trivial) :
    Keeps w₀ r₀ (startCmd s t i) := by
  unfold startCmd
  dsimp only
  repeat' (first
    | with_reducible assumption | with_reducible apply keeps_startNow | with_reducible apply keeps_startReserved
    | (exact keeps_hostCmd (by assumption) _ (by assumption)) | with_reducible apply keeps_modCtx
    | with_reducible apply Keeps.upd | with_reducible rfl | with_reducible exact id
    | with_reducible exact Or.inl (by assumption) | with_reducible exact Or.inr rfl | with_reducible exact Or.inr ⟨rfl, rfl⟩
    | with_reducible exact Or.inr ⟨rfl, rfl, rfl⟩ | with_reducible exact Or.inr ⟨rfl, rfl, rfl, rfl⟩
    | with_reducible exact length_map' | (exact fun _ h => h) | intro _ | (show Ctx.canon _; assumption)
    | with_reducible apply Ctx.canon_ite | (show Mem.wf _ = true; assumption) | with_reducible apply Keeps.ite | split)

theorem keeps_startHead {w₀ : Part → Prop} {r₀ : State} (s : State) (q : Nat) (hk : Keeps w₀ r₀ s)
    (w_hub : w₀ .hub := by first | assumption | exact trivial)
    (w_regs : w₀ .regs := by first | assumption | exact trivial)
    (w_host : w₀ .host := by first | assumption | exact trivial)
    (w_dies : w₀ .dies := by first | assumption | exact trivial)
    (w_pages : w₀ .pages := by first | assumption | exact trivial)
    (w_moves : w₀ .moves := by first | assumption | exact trivial)
    (w_ctxs : w₀ .ctxs := by first | assumption | exact trivial)
    (w_groups : w₀ .groups := by first | assumption | exact trivial)
    (w_codecs : w₀ .codecs := by first | assumption | exact trivial)
    (w_modes : w₀ .modes := by first | assumption | exact trivial)
    (w_power : w₀ .power := by first | assumption | exact trivial)
    (w_acct : w₀ .acct := by first | assumption | exact trivial)
    (w_store : w₀ .store := by first | assumption | exact trivial)
    (w_mem : w₀ .mem := by first | assumption | exact trivial)
    (w_ids : w₀ .ids := by first | assumption | exact trivial)
    (w_traffic : w₀ .traffic := by first | assumption | exact trivial) :
    Keeps w₀ r₀ (startHead s q) := by
  unfold startHead
  dsimp only
  repeat' (first
    | with_reducible assumption | with_reducible apply keeps_setQ | with_reducible apply keeps_startCmd
    | with_reducible apply Keeps.upd | with_reducible rfl | with_reducible exact id
    | with_reducible exact Or.inl (by assumption) | with_reducible exact Or.inr rfl | with_reducible exact Or.inr ⟨rfl, rfl⟩
    | with_reducible exact Or.inr ⟨rfl, rfl, rfl⟩ | with_reducible exact Or.inr ⟨rfl, rfl, rfl, rfl⟩ | (exact fun _ h => h)
    | intro _ | (show Ctx.canon _; assumption) | with_reducible apply Ctx.canon_ite | (show Mem.wf _ = true; assumption)
    | with_reducible apply Keeps.ite | split)

theorem keeps_startQ {w₀ : Part → Prop} {r₀ : State} (n : Nat) (s : State) (q : Nat) (hk : Keeps w₀ r₀ s)
    (w_hub : w₀ .hub := by first | assumption | exact trivial)
    (w_regs : w₀ .regs := by first | assumption | exact trivial)
    (w_host : w₀ .host := by first | assumption | exact trivial)
    (w_dies : w₀ .dies := by first | assumption | exact trivial)
    (w_pages : w₀ .pages := by first | assumption | exact trivial)
    (w_moves : w₀ .moves := by first | assumption | exact trivial)
    (w_ctxs : w₀ .ctxs := by first | assumption | exact trivial)
    (w_groups : w₀ .groups := by first | assumption | exact trivial)
    (w_codecs : w₀ .codecs := by first | assumption | exact trivial)
    (w_modes : w₀ .modes := by first | assumption | exact trivial)
    (w_power : w₀ .power := by first | assumption | exact trivial)
    (w_acct : w₀ .acct := by first | assumption | exact trivial)
    (w_store : w₀ .store := by first | assumption | exact trivial)
    (w_mem : w₀ .mem := by first | assumption | exact trivial)
    (w_ids : w₀ .ids := by first | assumption | exact trivial)
    (w_traffic : w₀ .traffic := by first | assumption | exact trivial) :
    Keeps w₀ r₀ (startQ n s q) := by
  induction n generalizing s q with
  | zero =>
    unfold startQ
    repeat' (first
      | with_reducible assumption | with_reducible apply keeps_startHead | intro _ | with_reducible apply Keeps.ite | split)
  | succ _ ih =>
    unfold startQ
    repeat' (first
      | with_reducible assumption | with_reducible apply ih | with_reducible apply keeps_startHead | intro _
      | with_reducible apply Keeps.ite | split)

theorem keeps_startWaiting {w₀ : Part → Prop} {r₀ : State} (s : State) (hk : Keeps w₀ r₀ s)
    (w_hub : w₀ .hub := by first | assumption | exact trivial)
    (w_regs : w₀ .regs := by first | assumption | exact trivial)
    (w_host : w₀ .host := by first | assumption | exact trivial)
    (w_dies : w₀ .dies := by first | assumption | exact trivial)
    (w_pages : w₀ .pages := by first | assumption | exact trivial)
    (w_moves : w₀ .moves := by first | assumption | exact trivial)
    (w_ctxs : w₀ .ctxs := by first | assumption | exact trivial)
    (w_groups : w₀ .groups := by first | assumption | exact trivial)
    (w_codecs : w₀ .codecs := by first | assumption | exact trivial)
    (w_modes : w₀ .modes := by first | assumption | exact trivial)
    (w_power : w₀ .power := by first | assumption | exact trivial)
    (w_acct : w₀ .acct := by first | assumption | exact trivial)
    (w_store : w₀ .store := by first | assumption | exact trivial)
    (w_mem : w₀ .mem := by first | assumption | exact trivial)
    (w_ids : w₀ .ids := by first | assumption | exact trivial)
    (w_traffic : w₀ .traffic := by first | assumption | exact trivial) :
    Keeps w₀ r₀ (startWaiting s) := by
  unfold startWaiting
  repeat' (first
    | with_reducible assumption | with_reducible apply keeps_startQ | with_reducible apply Keeps.foldl | intro _)

theorem keeps_takeEntries {w₀ : Part → Prop} {r₀ : State} (q : Nat) (l : List Bytes) (x : State × List HostRead) (hk : Keeps w₀ r₀ x.1)
    (w_host : w₀ .host := by first | assumption | exact trivial) :
    Keeps w₀ r₀ (l.foldl (takeEntry q) x).1 := by
  induction l generalizing x with
  | nil => exact hk
  | cons b t ih => exact ih _ (keeps_enqueue _ _ _ (keeps_fetchOne _ _ hk))

theorem keeps_sqTail {w₀ : Part → Prop} {r₀ : State} (s : State) (q : Nat) (v : Word) (fetched : List Bytes) (images : List HostRead) (hk : Keeps w₀ r₀ s)
    (w_hub : w₀ .hub := by first | assumption | exact trivial)
    (w_regs : w₀ .regs := by first | assumption | exact trivial)
    (w_host : w₀ .host := by first | assumption | exact trivial)
    (w_dies : w₀ .dies := by first | assumption | exact trivial)
    (w_pages : w₀ .pages := by first | assumption | exact trivial)
    (w_moves : w₀ .moves := by first | assumption | exact trivial)
    (w_ctxs : w₀ .ctxs := by first | assumption | exact trivial)
    (w_groups : w₀ .groups := by first | assumption | exact trivial)
    (w_codecs : w₀ .codecs := by first | assumption | exact trivial)
    (w_modes : w₀ .modes := by first | assumption | exact trivial)
    (w_power : w₀ .power := by first | assumption | exact trivial)
    (w_acct : w₀ .acct := by first | assumption | exact trivial)
    (w_store : w₀ .store := by first | assumption | exact trivial)
    (w_mem : w₀ .mem := by first | assumption | exact trivial)
    (w_ids : w₀ .ids := by first | assumption | exact trivial)
    (w_traffic : w₀ .traffic := by first | assumption | exact trivial) :
    Keeps w₀ r₀ (sqTail s q v fetched images) := by
  unfold sqTail
  dsimp only
  repeat' (first
    | with_reducible assumption | with_reducible apply keeps_setQ | with_reducible apply keeps_startWaiting
    | with_reducible apply keeps_takeEntry | with_reducible apply keeps_takeEntries | with_reducible apply Keeps.foldl
    | with_reducible apply Keeps.upd | with_reducible rfl | with_reducible exact id
    | with_reducible exact Or.inl (by assumption) | with_reducible exact Or.inr rfl | with_reducible exact Or.inr ⟨rfl, rfl⟩
    | with_reducible exact Or.inr ⟨rfl, rfl, rfl⟩ | with_reducible exact Or.inr ⟨rfl, rfl, rfl, rfl⟩ | (exact fun _ h => h)
    | intro _ | (show Ctx.canon _; assumption) | with_reducible apply Ctx.canon_ite | (show Mem.wf _ = true; assumption)
    | with_reducible apply Keeps.ite | split)

theorem keeps_fetchError {w₀ : Part → Prop} {r₀ : State} (s : State) (q : Nat) (hk : Keeps w₀ r₀ s)
    (w_regs : w₀ .regs := by first | assumption | exact trivial)
    (w_host : w₀ .host := by first | assumption | exact trivial) :
    Keeps w₀ r₀ (fetchError s q) := by
  unfold fetchError
  dsimp only
  repeat' (first
    | with_reducible assumption | with_reducible apply keeps_setBits | with_reducible apply keeps_setQ
    | with_reducible apply Keeps.upd | with_reducible rfl | with_reducible exact id
    | with_reducible exact Or.inl (by assumption) | with_reducible exact Or.inr rfl | with_reducible exact Or.inr ⟨rfl, rfl⟩
    | with_reducible exact Or.inr ⟨rfl, rfl, rfl⟩ | with_reducible exact Or.inr ⟨rfl, rfl, rfl, rfl⟩ | (exact fun _ h => h)
    | intro _ | (show Ctx.canon _; assumption) | with_reducible apply Ctx.canon_ite | (show Mem.wf _ = true; assumption)
    | with_reducible apply Keeps.ite | split)

theorem keeps_cqHead {w₀ : Part → Prop} {r₀ : State} (s : State) (q : Nat) (v : Word) (hk : Keeps w₀ r₀ s)
    (w_hub : w₀ .hub := by first | assumption | exact trivial)
    (w_regs : w₀ .regs := by first | assumption | exact trivial)
    (w_host : w₀ .host := by first | assumption | exact trivial)
    (w_dies : w₀ .dies := by first | assumption | exact trivial)
    (w_pages : w₀ .pages := by first | assumption | exact trivial)
    (w_moves : w₀ .moves := by first | assumption | exact trivial)
    (w_ctxs : w₀ .ctxs := by first | assumption | exact trivial)
    (w_groups : w₀ .groups := by first | assumption | exact trivial)
    (w_codecs : w₀ .codecs := by first | assumption | exact trivial)
    (w_modes : w₀ .modes := by first | assumption | exact trivial)
    (w_power : w₀ .power := by first | assumption | exact trivial)
    (w_acct : w₀ .acct := by first | assumption | exact trivial)
    (w_store : w₀ .store := by first | assumption | exact trivial)
    (w_mem : w₀ .mem := by first | assumption | exact trivial)
    (w_ids : w₀ .ids := by first | assumption | exact trivial)
    (w_traffic : w₀ .traffic := by first | assumption | exact trivial) :
    Keeps w₀ r₀ (cqHead s q v) := by
  induction q generalizing s v with
  | zero =>
    unfold cqHead
    dsimp only
    repeat' (first
      | with_reducible assumption | with_reducible apply keeps_setQ | with_reducible apply keeps_cqDrain
      | with_reducible apply keeps_startWaiting | with_reducible apply Keeps.upd | with_reducible rfl
      | with_reducible exact id | with_reducible exact Or.inl (by assumption) | with_reducible exact Or.inr rfl
      | with_reducible exact Or.inr ⟨rfl, rfl⟩ | with_reducible exact Or.inr ⟨rfl, rfl, rfl⟩
      | with_reducible exact Or.inr ⟨rfl, rfl, rfl, rfl⟩ | (exact fun _ h => h) | intro _ | (show Ctx.canon _; assumption)
      | with_reducible apply Ctx.canon_ite | (show Mem.wf _ = true; assumption) | with_reducible apply Keeps.ite | split)
  | succ _ ih =>
    unfold cqHead
    dsimp only
    repeat' (first
      | with_reducible assumption | with_reducible apply ih | with_reducible apply keeps_setQ
      | with_reducible apply keeps_cqDrain | with_reducible apply keeps_startWaiting | with_reducible apply Keeps.upd
      | with_reducible rfl | with_reducible exact id | with_reducible exact Or.inl (by assumption)
      | with_reducible exact Or.inr rfl | with_reducible exact Or.inr ⟨rfl, rfl⟩
      | with_reducible exact Or.inr ⟨rfl, rfl, rfl⟩ | with_reducible exact Or.inr ⟨rfl, rfl, rfl, rfl⟩
      | (exact fun _ h => h) | intro _ | (show Ctx.canon _; assumption) | with_reducible apply Ctx.canon_ite
      | (show Mem.wf _ = true; assumption) | with_reducible apply Keeps.ite | split)

end Sys2Proof.Machine
end

