-- ==== Sys2Proof/Laws/KeepsTick.lean ====
section
/-! SUPPORT. Laws/KeepsTick.lean: what the operations of Machine/Tick.lean keep. -/

set_option Elab.async false

namespace Sys2Proof.Machine

theorem keeps_corkedNs {w₀ : Part → Prop} {r₀ : State} (s : State) (c : Ctx) (hk : Keeps w₀ r₀ s)
    (w_acct : w₀ .acct := by first | assumption | exact trivial) :
    Keeps w₀ r₀ (corkedNs s c) := by
  unfold corkedNs
  repeat' (first
    | with_reducible assumption | with_reducible apply keeps_addTotal | with_reducible apply Keeps.foldl | intro _
    | with_reducible apply Keeps.ite | split)

theorem count_canon {c : Ctx} {d : Nat} {a : Acct} (h : c.canon) : (c.count d a).canon := h

theorem counts_canon (l : List Nat) (f : Nat → Acct) (c : Ctx) (h : c.canon) : (l.foldl (fun x d => x.count d (f d)) c).canon := by
  induction l generalizing c with
  | nil => exact h
  | cons d t ih => exact ih _ (count_canon h)

theorem coreNs_store {on : Bool} {k : Core} (h : k.store.wf = true) : (Core.ns on k).store.wf = true := by
  unfold Core.ns
  split
  · exact h
  · exact h

theorem ctxNs_canon {s : State} {c : Ctx} (h : c.canon) : (c.ns s).canon := by
  unfold Ctx.ns
  dsimp only
  refine Ctx.canon_ite (counts_canon _ _ _ ⟨?_, h.2⟩) ⟨?_, h.2⟩
  · exact stores_mapIdx (fun _ _ k => coreNs_store k) h.1
  · exact stores_mapIdx (fun _ _ k => coreNs_store k) h.1

theorem corkedNs_hub (l : List Ctx) (s : State) : (l.foldl corkedNs s).hub = s.hub := by
  induction l generalizing s with
  | nil => rfl
  | cons c t ih =>
    refine (ih _).trans ?_
    unfold corkedNs
    split <;> rfl

/-- One nanosecond moves the timebase on by 1, modulo 2^64. -/
theorem oneNs_timebase (s : State) : (oneNs s).hub.timebase = (s.hub.timebase + 1) % 2 ^ 64 := by
  unfold oneNs
  dsimp only
  rw [corkedNs_hub]

theorem oneNs_pending (s : State) : (oneNs s).pending = s.pending :=
  ((Keeps.refl (w₀ := fun _ => True) s).foldl (l := s.ctxs) fun _ _ h => keeps_corkedNs _ _ h).pending

/-- One nanosecond keeps the invariant. -/
theorem oneNs_inv {s : State} (h : s.Inv) : (oneNs s).Inv := by
  have k : (s.ctxs.foldl corkedNs s).Inv := ((Keeps.refl (w₀ := fun _ => True) s).foldl fun _ _ h => keeps_corkedNs _ _ h).inv h
  exact ⟨k.mem, canon_map (fun _ h => ctxNs_canon h) k.ctxs, k.exported, k.dies, k.ports, k.farPorts, k.groups, k.codecs,
    (oneNs_timebase s).symm ▸ Nat.mod_lt _ (Nat.two_pow_pos 64)⟩

/-- A tick keeps the queue of waiting commands. -/
theorem tick_pending (s : State) : (tick s).pending = s.pending := by
  unfold tick
  split
  · rfl
  · rw [(keeps_startWaiting _ (Keeps.refl (w₀ := fun _ => True) _)).pending]
    rw [codecsNs_pending]
    split
    · rfl
    · exact oneNs_pending s

/-- A tick keeps the invariant. -/
theorem tick_inv {s : State} (h : s.Inv) : (tick s).Inv := by
  unfold tick
  split
  · exact h
  · refine (keeps_startWaiting _ (Keeps.refl (w₀ := fun _ => True) _)).inv ?_
    refine codecsNs_inv ?_
    split
    · exact h
    · exact oneNs_inv h

end Sys2Proof.Machine
end

