-- ==== Sys2Proof/Laws/State.lean ====
section
/-! SUPPORT. Laws/State.lean: what each base update of the state leaves: one lemma for every field it does not write. -/

namespace Sys2Proof.Machine

/-! ### setReg -/

@[simp] theorem setReg_pending (s : State) (off : Nat) (v : Word) : (setReg s off v).pending = s.pending := rfl
@[simp] theorem setReg_paused (s : State) (off : Nat) (v : Word) : (setReg s off v).paused = s.paused := rfl
@[simp] theorem setReg_hub (s : State) (off : Nat) (v : Word) : (setReg s off v).hub = s.hub := rfl
@[simp] theorem setReg_flash (s : State) (off : Nat) (v : Word) : (setReg s off v).flash = s.flash := rfl
@[simp] theorem setReg_latches (s : State) (off : Nat) (v : Word) : (setReg s off v).latches = s.latches := rfl
@[simp] theorem setReg_queues (s : State) (off : Nat) (v : Word) : (setReg s off v).queues = s.queues := rfl
@[simp] theorem setReg_msg (s : State) (off : Nat) (v : Word) : (setReg s off v).msg = s.msg := rfl
@[simp] theorem setReg_out (s : State) (off : Nat) (v : Word) : (setReg s off v).out = s.out := rfl
@[simp] theorem setReg_dies (s : State) (off : Nat) (v : Word) : (setReg s off v).dies = s.dies := rfl
@[simp] theorem setReg_spaces (s : State) (off : Nat) (v : Word) : (setReg s off v).spaces = s.spaces := rfl
@[simp] theorem setReg_ctxs (s : State) (off : Nat) (v : Word) : (setReg s off v).ctxs = s.ctxs := rfl
@[simp] theorem setReg_promotions (s : State) (off : Nat) (v : Word) : (setReg s off v).promotions = s.promotions := rfl
@[simp] theorem setReg_fills (s : State) (off : Nat) (v : Word) : (setReg s off v).fills = s.fills := rfl
@[simp] theorem setReg_migrations (s : State) (off : Nat) (v : Word) : (setReg s off v).migrations = s.migrations := rfl
@[simp] theorem setReg_decants (s : State) (off : Nat) (v : Word) : (setReg s off v).decants = s.decants := rfl
@[simp] theorem setReg_xfers (s : State) (off : Nat) (v : Word) : (setReg s off v).xfers = s.xfers := rfl
@[simp] theorem setReg_ports (s : State) (off : Nat) (v : Word) : (setReg s off v).ports = s.ports := rfl
@[simp] theorem setReg_farPorts (s : State) (off : Nat) (v : Word) : (setReg s off v).farPorts = s.farPorts := rfl
@[simp] theorem setReg_groups (s : State) (off : Nat) (v : Word) : (setReg s off v).groups = s.groups := rfl
@[simp] theorem setReg_firings (s : State) (off : Nat) (v : Word) : (setReg s off v).firings = s.firings := rfl
@[simp] theorem setReg_codecs (s : State) (off : Nat) (v : Word) : (setReg s off v).codecs = s.codecs := rfl
@[simp] theorem setReg_modes (s : State) (off : Nat) (v : Word) : (setReg s off v).modes = s.modes := rfl
@[simp] theorem setReg_power (s : State) (off : Nat) (v : Word) : (setReg s off v).power = s.power := rfl
@[simp] theorem setReg_tally (s : State) (off : Nat) (v : Word) : (setReg s off v).tally = s.tally := rfl
@[simp] theorem setReg_app (s : State) (off : Nat) (v : Word) : (setReg s off v).app = s.app := rfl
@[simp] theorem setReg_rel (s : State) (off : Nat) (v : Word) : (setReg s off v).rel = s.rel := rfl
@[simp] theorem setReg_totals (s : State) (off : Nat) (v : Word) : (setReg s off v).totals = s.totals := rfl
@[simp] theorem setReg_mem (s : State) (off : Nat) (v : Word) : (setReg s off v).mem = s.mem := rfl
@[simp] theorem setReg_poison (s : State) (off : Nat) (v : Word) : (setReg s off v).poison = s.poison := rfl
@[simp] theorem setReg_cells (s : State) (off : Nat) (v : Word) : (setReg s off v).cells = s.cells := rfl
@[simp] theorem setReg_traffic (s : State) (off : Nat) (v : Word) : (setReg s off v).traffic = s.traffic := rfl
@[simp] theorem setReg_exported (s : State) (off : Nat) (v : Word) : (setReg s off v).exported = s.exported := rfl
@[simp] theorem setReg_nextId (s : State) (off : Nat) (v : Word) : (setReg s off v).nextId = s.nextId := rfl
@[simp] theorem setReg_free (s : State) (off : Nat) (v : Word) : (setReg s off v).free = s.free := rfl

/-! ### setBits -/

@[simp] theorem setBits_pending (s : State) (off : Nat) (v : Word) : (setBits s off v).pending = s.pending := rfl
@[simp] theorem setBits_paused (s : State) (off : Nat) (v : Word) : (setBits s off v).paused = s.paused := rfl
@[simp] theorem setBits_hub (s : State) (off : Nat) (v : Word) : (setBits s off v).hub = s.hub := rfl
@[simp] theorem setBits_flash (s : State) (off : Nat) (v : Word) : (setBits s off v).flash = s.flash := rfl
@[simp] theorem setBits_latches (s : State) (off : Nat) (v : Word) : (setBits s off v).latches = s.latches := rfl
@[simp] theorem setBits_queues (s : State) (off : Nat) (v : Word) : (setBits s off v).queues = s.queues := rfl
@[simp] theorem setBits_msg (s : State) (off : Nat) (v : Word) : (setBits s off v).msg = s.msg := rfl
@[simp] theorem setBits_out (s : State) (off : Nat) (v : Word) : (setBits s off v).out = s.out := rfl
@[simp] theorem setBits_dies (s : State) (off : Nat) (v : Word) : (setBits s off v).dies = s.dies := rfl
@[simp] theorem setBits_spaces (s : State) (off : Nat) (v : Word) : (setBits s off v).spaces = s.spaces := rfl
@[simp] theorem setBits_ctxs (s : State) (off : Nat) (v : Word) : (setBits s off v).ctxs = s.ctxs := rfl
@[simp] theorem setBits_promotions (s : State) (off : Nat) (v : Word) : (setBits s off v).promotions = s.promotions := rfl
@[simp] theorem setBits_fills (s : State) (off : Nat) (v : Word) : (setBits s off v).fills = s.fills := rfl
@[simp] theorem setBits_migrations (s : State) (off : Nat) (v : Word) : (setBits s off v).migrations = s.migrations := rfl
@[simp] theorem setBits_decants (s : State) (off : Nat) (v : Word) : (setBits s off v).decants = s.decants := rfl
@[simp] theorem setBits_xfers (s : State) (off : Nat) (v : Word) : (setBits s off v).xfers = s.xfers := rfl
@[simp] theorem setBits_ports (s : State) (off : Nat) (v : Word) : (setBits s off v).ports = s.ports := rfl
@[simp] theorem setBits_farPorts (s : State) (off : Nat) (v : Word) : (setBits s off v).farPorts = s.farPorts := rfl
@[simp] theorem setBits_groups (s : State) (off : Nat) (v : Word) : (setBits s off v).groups = s.groups := rfl
@[simp] theorem setBits_firings (s : State) (off : Nat) (v : Word) : (setBits s off v).firings = s.firings := rfl
@[simp] theorem setBits_codecs (s : State) (off : Nat) (v : Word) : (setBits s off v).codecs = s.codecs := rfl
@[simp] theorem setBits_modes (s : State) (off : Nat) (v : Word) : (setBits s off v).modes = s.modes := rfl
@[simp] theorem setBits_power (s : State) (off : Nat) (v : Word) : (setBits s off v).power = s.power := rfl
@[simp] theorem setBits_tally (s : State) (off : Nat) (v : Word) : (setBits s off v).tally = s.tally := rfl
@[simp] theorem setBits_app (s : State) (off : Nat) (v : Word) : (setBits s off v).app = s.app := rfl
@[simp] theorem setBits_rel (s : State) (off : Nat) (v : Word) : (setBits s off v).rel = s.rel := rfl
@[simp] theorem setBits_totals (s : State) (off : Nat) (v : Word) : (setBits s off v).totals = s.totals := rfl
@[simp] theorem setBits_mem (s : State) (off : Nat) (v : Word) : (setBits s off v).mem = s.mem := rfl
@[simp] theorem setBits_poison (s : State) (off : Nat) (v : Word) : (setBits s off v).poison = s.poison := rfl
@[simp] theorem setBits_cells (s : State) (off : Nat) (v : Word) : (setBits s off v).cells = s.cells := rfl
@[simp] theorem setBits_traffic (s : State) (off : Nat) (v : Word) : (setBits s off v).traffic = s.traffic := rfl
@[simp] theorem setBits_exported (s : State) (off : Nat) (v : Word) : (setBits s off v).exported = s.exported := rfl
@[simp] theorem setBits_nextId (s : State) (off : Nat) (v : Word) : (setBits s off v).nextId = s.nextId := rfl
@[simp] theorem setBits_free (s : State) (off : Nat) (v : Word) : (setBits s off v).free = s.free := rfl

/-! ### setQ -/

@[simp] theorem setQ_pending (s : State) (q : Nat) (v : HostQueue) : (setQ s q v).pending = s.pending := rfl
@[simp] theorem setQ_paused (s : State) (q : Nat) (v : HostQueue) : (setQ s q v).paused = s.paused := rfl
@[simp] theorem setQ_hub (s : State) (q : Nat) (v : HostQueue) : (setQ s q v).hub = s.hub := rfl
@[simp] theorem setQ_flash (s : State) (q : Nat) (v : HostQueue) : (setQ s q v).flash = s.flash := rfl
@[simp] theorem setQ_regs (s : State) (q : Nat) (v : HostQueue) : (setQ s q v).regs = s.regs := rfl
@[simp] theorem setQ_latches (s : State) (q : Nat) (v : HostQueue) : (setQ s q v).latches = s.latches := rfl
@[simp] theorem setQ_msg (s : State) (q : Nat) (v : HostQueue) : (setQ s q v).msg = s.msg := rfl
@[simp] theorem setQ_out (s : State) (q : Nat) (v : HostQueue) : (setQ s q v).out = s.out := rfl
@[simp] theorem setQ_dies (s : State) (q : Nat) (v : HostQueue) : (setQ s q v).dies = s.dies := rfl
@[simp] theorem setQ_spaces (s : State) (q : Nat) (v : HostQueue) : (setQ s q v).spaces = s.spaces := rfl
@[simp] theorem setQ_ctxs (s : State) (q : Nat) (v : HostQueue) : (setQ s q v).ctxs = s.ctxs := rfl
@[simp] theorem setQ_promotions (s : State) (q : Nat) (v : HostQueue) : (setQ s q v).promotions = s.promotions := rfl
@[simp] theorem setQ_fills (s : State) (q : Nat) (v : HostQueue) : (setQ s q v).fills = s.fills := rfl
@[simp] theorem setQ_migrations (s : State) (q : Nat) (v : HostQueue) : (setQ s q v).migrations = s.migrations := rfl
@[simp] theorem setQ_decants (s : State) (q : Nat) (v : HostQueue) : (setQ s q v).decants = s.decants := rfl
@[simp] theorem setQ_xfers (s : State) (q : Nat) (v : HostQueue) : (setQ s q v).xfers = s.xfers := rfl
@[simp] theorem setQ_ports (s : State) (q : Nat) (v : HostQueue) : (setQ s q v).ports = s.ports := rfl
@[simp] theorem setQ_farPorts (s : State) (q : Nat) (v : HostQueue) : (setQ s q v).farPorts = s.farPorts := rfl
@[simp] theorem setQ_groups (s : State) (q : Nat) (v : HostQueue) : (setQ s q v).groups = s.groups := rfl
@[simp] theorem setQ_firings (s : State) (q : Nat) (v : HostQueue) : (setQ s q v).firings = s.firings := rfl
@[simp] theorem setQ_codecs (s : State) (q : Nat) (v : HostQueue) : (setQ s q v).codecs = s.codecs := rfl
@[simp] theorem setQ_modes (s : State) (q : Nat) (v : HostQueue) : (setQ s q v).modes = s.modes := rfl
@[simp] theorem setQ_power (s : State) (q : Nat) (v : HostQueue) : (setQ s q v).power = s.power := rfl
@[simp] theorem setQ_tally (s : State) (q : Nat) (v : HostQueue) : (setQ s q v).tally = s.tally := rfl
@[simp] theorem setQ_app (s : State) (q : Nat) (v : HostQueue) : (setQ s q v).app = s.app := rfl
@[simp] theorem setQ_rel (s : State) (q : Nat) (v : HostQueue) : (setQ s q v).rel = s.rel := rfl
@[simp] theorem setQ_totals (s : State) (q : Nat) (v : HostQueue) : (setQ s q v).totals = s.totals := rfl
@[simp] theorem setQ_mem (s : State) (q : Nat) (v : HostQueue) : (setQ s q v).mem = s.mem := rfl
@[simp] theorem setQ_poison (s : State) (q : Nat) (v : HostQueue) : (setQ s q v).poison = s.poison := rfl
@[simp] theorem setQ_cells (s : State) (q : Nat) (v : HostQueue) : (setQ s q v).cells = s.cells := rfl
@[simp] theorem setQ_traffic (s : State) (q : Nat) (v : HostQueue) : (setQ s q v).traffic = s.traffic := rfl
@[simp] theorem setQ_exported (s : State) (q : Nat) (v : HostQueue) : (setQ s q v).exported = s.exported := rfl
@[simp] theorem setQ_nextId (s : State) (q : Nat) (v : HostQueue) : (setQ s q v).nextId = s.nextId := rfl
@[simp] theorem setQ_free (s : State) (q : Nat) (v : HostQueue) : (setQ s q v).free = s.free := rfl

/-! ### beginCmd -/

@[simp] theorem beginCmd_pending (s : State) (h : CmdHdr) (cmd : Nat) : (beginCmd s h cmd).pending = s.pending := rfl
@[simp] theorem beginCmd_paused (s : State) (h : CmdHdr) (cmd : Nat) : (beginCmd s h cmd).paused = s.paused := rfl
@[simp] theorem beginCmd_hub (s : State) (h : CmdHdr) (cmd : Nat) : (beginCmd s h cmd).hub = s.hub := rfl
@[simp] theorem beginCmd_flash (s : State) (h : CmdHdr) (cmd : Nat) : (beginCmd s h cmd).flash = s.flash := rfl
@[simp] theorem beginCmd_regs (s : State) (h : CmdHdr) (cmd : Nat) : (beginCmd s h cmd).regs = s.regs := rfl
@[simp] theorem beginCmd_latches (s : State) (h : CmdHdr) (cmd : Nat) : (beginCmd s h cmd).latches = s.latches := rfl
@[simp] theorem beginCmd_msg (s : State) (h : CmdHdr) (cmd : Nat) : (beginCmd s h cmd).msg = s.msg := rfl
@[simp] theorem beginCmd_out (s : State) (h : CmdHdr) (cmd : Nat) : (beginCmd s h cmd).out = s.out := rfl
@[simp] theorem beginCmd_dies (s : State) (h : CmdHdr) (cmd : Nat) : (beginCmd s h cmd).dies = s.dies := rfl
@[simp] theorem beginCmd_spaces (s : State) (h : CmdHdr) (cmd : Nat) : (beginCmd s h cmd).spaces = s.spaces := rfl
@[simp] theorem beginCmd_ctxs (s : State) (h : CmdHdr) (cmd : Nat) : (beginCmd s h cmd).ctxs = s.ctxs := rfl
@[simp] theorem beginCmd_promotions (s : State) (h : CmdHdr) (cmd : Nat) : (beginCmd s h cmd).promotions = s.promotions := rfl
@[simp] theorem beginCmd_fills (s : State) (h : CmdHdr) (cmd : Nat) : (beginCmd s h cmd).fills = s.fills := rfl
@[simp] theorem beginCmd_migrations (s : State) (h : CmdHdr) (cmd : Nat) : (beginCmd s h cmd).migrations = s.migrations := rfl
@[simp] theorem beginCmd_decants (s : State) (h : CmdHdr) (cmd : Nat) : (beginCmd s h cmd).decants = s.decants := rfl
@[simp] theorem beginCmd_xfers (s : State) (h : CmdHdr) (cmd : Nat) : (beginCmd s h cmd).xfers = s.xfers := rfl
@[simp] theorem beginCmd_ports (s : State) (h : CmdHdr) (cmd : Nat) : (beginCmd s h cmd).ports = s.ports := rfl
@[simp] theorem beginCmd_farPorts (s : State) (h : CmdHdr) (cmd : Nat) : (beginCmd s h cmd).farPorts = s.farPorts := rfl
@[simp] theorem beginCmd_groups (s : State) (h : CmdHdr) (cmd : Nat) : (beginCmd s h cmd).groups = s.groups := rfl
@[simp] theorem beginCmd_firings (s : State) (h : CmdHdr) (cmd : Nat) : (beginCmd s h cmd).firings = s.firings := rfl
@[simp] theorem beginCmd_codecs (s : State) (h : CmdHdr) (cmd : Nat) : (beginCmd s h cmd).codecs = s.codecs := rfl
@[simp] theorem beginCmd_modes (s : State) (h : CmdHdr) (cmd : Nat) : (beginCmd s h cmd).modes = s.modes := rfl
@[simp] theorem beginCmd_power (s : State) (h : CmdHdr) (cmd : Nat) : (beginCmd s h cmd).power = s.power := rfl
@[simp] theorem beginCmd_tally (s : State) (h : CmdHdr) (cmd : Nat) : (beginCmd s h cmd).tally = s.tally := rfl
@[simp] theorem beginCmd_app (s : State) (h : CmdHdr) (cmd : Nat) : (beginCmd s h cmd).app = s.app := rfl
@[simp] theorem beginCmd_rel (s : State) (h : CmdHdr) (cmd : Nat) : (beginCmd s h cmd).rel = s.rel := rfl
@[simp] theorem beginCmd_totals (s : State) (h : CmdHdr) (cmd : Nat) : (beginCmd s h cmd).totals = s.totals := rfl
@[simp] theorem beginCmd_mem (s : State) (h : CmdHdr) (cmd : Nat) : (beginCmd s h cmd).mem = s.mem := rfl
@[simp] theorem beginCmd_poison (s : State) (h : CmdHdr) (cmd : Nat) : (beginCmd s h cmd).poison = s.poison := rfl
@[simp] theorem beginCmd_cells (s : State) (h : CmdHdr) (cmd : Nat) : (beginCmd s h cmd).cells = s.cells := rfl
@[simp] theorem beginCmd_traffic (s : State) (h : CmdHdr) (cmd : Nat) : (beginCmd s h cmd).traffic = s.traffic := rfl
@[simp] theorem beginCmd_exported (s : State) (h : CmdHdr) (cmd : Nat) : (beginCmd s h cmd).exported = s.exported := rfl
@[simp] theorem beginCmd_nextId (s : State) (h : CmdHdr) (cmd : Nat) : (beginCmd s h cmd).nextId = s.nextId := rfl
@[simp] theorem beginCmd_free (s : State) (h : CmdHdr) (cmd : Nat) : (beginCmd s h cmd).free = s.free := rfl

/-! ### modDie -/

@[simp] theorem modDie_pending (s : State) (d : Nat) (f : Die → Die) : (modDie s d f).pending = s.pending := rfl
@[simp] theorem modDie_paused (s : State) (d : Nat) (f : Die → Die) : (modDie s d f).paused = s.paused := rfl
@[simp] theorem modDie_hub (s : State) (d : Nat) (f : Die → Die) : (modDie s d f).hub = s.hub := rfl
@[simp] theorem modDie_flash (s : State) (d : Nat) (f : Die → Die) : (modDie s d f).flash = s.flash := rfl
@[simp] theorem modDie_regs (s : State) (d : Nat) (f : Die → Die) : (modDie s d f).regs = s.regs := rfl
@[simp] theorem modDie_latches (s : State) (d : Nat) (f : Die → Die) : (modDie s d f).latches = s.latches := rfl
@[simp] theorem modDie_queues (s : State) (d : Nat) (f : Die → Die) : (modDie s d f).queues = s.queues := rfl
@[simp] theorem modDie_msg (s : State) (d : Nat) (f : Die → Die) : (modDie s d f).msg = s.msg := rfl
@[simp] theorem modDie_out (s : State) (d : Nat) (f : Die → Die) : (modDie s d f).out = s.out := rfl
@[simp] theorem modDie_spaces (s : State) (d : Nat) (f : Die → Die) : (modDie s d f).spaces = s.spaces := rfl
@[simp] theorem modDie_ctxs (s : State) (d : Nat) (f : Die → Die) : (modDie s d f).ctxs = s.ctxs := rfl
@[simp] theorem modDie_promotions (s : State) (d : Nat) (f : Die → Die) : (modDie s d f).promotions = s.promotions := rfl
@[simp] theorem modDie_fills (s : State) (d : Nat) (f : Die → Die) : (modDie s d f).fills = s.fills := rfl
@[simp] theorem modDie_migrations (s : State) (d : Nat) (f : Die → Die) : (modDie s d f).migrations = s.migrations := rfl
@[simp] theorem modDie_decants (s : State) (d : Nat) (f : Die → Die) : (modDie s d f).decants = s.decants := rfl
@[simp] theorem modDie_xfers (s : State) (d : Nat) (f : Die → Die) : (modDie s d f).xfers = s.xfers := rfl
@[simp] theorem modDie_ports (s : State) (d : Nat) (f : Die → Die) : (modDie s d f).ports = s.ports := rfl
@[simp] theorem modDie_farPorts (s : State) (d : Nat) (f : Die → Die) : (modDie s d f).farPorts = s.farPorts := rfl
@[simp] theorem modDie_groups (s : State) (d : Nat) (f : Die → Die) : (modDie s d f).groups = s.groups := rfl
@[simp] theorem modDie_firings (s : State) (d : Nat) (f : Die → Die) : (modDie s d f).firings = s.firings := rfl
@[simp] theorem modDie_codecs (s : State) (d : Nat) (f : Die → Die) : (modDie s d f).codecs = s.codecs := rfl
@[simp] theorem modDie_modes (s : State) (d : Nat) (f : Die → Die) : (modDie s d f).modes = s.modes := rfl
@[simp] theorem modDie_power (s : State) (d : Nat) (f : Die → Die) : (modDie s d f).power = s.power := rfl
@[simp] theorem modDie_tally (s : State) (d : Nat) (f : Die → Die) : (modDie s d f).tally = s.tally := rfl
@[simp] theorem modDie_app (s : State) (d : Nat) (f : Die → Die) : (modDie s d f).app = s.app := rfl
@[simp] theorem modDie_rel (s : State) (d : Nat) (f : Die → Die) : (modDie s d f).rel = s.rel := rfl
@[simp] theorem modDie_totals (s : State) (d : Nat) (f : Die → Die) : (modDie s d f).totals = s.totals := rfl
@[simp] theorem modDie_mem (s : State) (d : Nat) (f : Die → Die) : (modDie s d f).mem = s.mem := rfl
@[simp] theorem modDie_poison (s : State) (d : Nat) (f : Die → Die) : (modDie s d f).poison = s.poison := rfl
@[simp] theorem modDie_cells (s : State) (d : Nat) (f : Die → Die) : (modDie s d f).cells = s.cells := rfl
@[simp] theorem modDie_traffic (s : State) (d : Nat) (f : Die → Die) : (modDie s d f).traffic = s.traffic := rfl
@[simp] theorem modDie_exported (s : State) (d : Nat) (f : Die → Die) : (modDie s d f).exported = s.exported := rfl
@[simp] theorem modDie_nextId (s : State) (d : Nat) (f : Die → Die) : (modDie s d f).nextId = s.nextId := rfl
@[simp] theorem modDie_free (s : State) (d : Nat) (f : Die → Die) : (modDie s d f).free = s.free := rfl

/-! ### modSpace -/

@[simp] theorem modSpace_pending (s : State) (asn : Nat) (f : Space → Space) : (modSpace s asn f).pending = s.pending := rfl
@[simp] theorem modSpace_paused (s : State) (asn : Nat) (f : Space → Space) : (modSpace s asn f).paused = s.paused := rfl
@[simp] theorem modSpace_hub (s : State) (asn : Nat) (f : Space → Space) : (modSpace s asn f).hub = s.hub := rfl
@[simp] theorem modSpace_flash (s : State) (asn : Nat) (f : Space → Space) : (modSpace s asn f).flash = s.flash := rfl
@[simp] theorem modSpace_regs (s : State) (asn : Nat) (f : Space → Space) : (modSpace s asn f).regs = s.regs := rfl
@[simp] theorem modSpace_latches (s : State) (asn : Nat) (f : Space → Space) : (modSpace s asn f).latches = s.latches := rfl
@[simp] theorem modSpace_queues (s : State) (asn : Nat) (f : Space → Space) : (modSpace s asn f).queues = s.queues := rfl
@[simp] theorem modSpace_msg (s : State) (asn : Nat) (f : Space → Space) : (modSpace s asn f).msg = s.msg := rfl
@[simp] theorem modSpace_out (s : State) (asn : Nat) (f : Space → Space) : (modSpace s asn f).out = s.out := rfl
@[simp] theorem modSpace_dies (s : State) (asn : Nat) (f : Space → Space) : (modSpace s asn f).dies = s.dies := rfl
@[simp] theorem modSpace_ctxs (s : State) (asn : Nat) (f : Space → Space) : (modSpace s asn f).ctxs = s.ctxs := rfl
@[simp] theorem modSpace_promotions (s : State) (asn : Nat) (f : Space → Space) : (modSpace s asn f).promotions = s.promotions := rfl
@[simp] theorem modSpace_fills (s : State) (asn : Nat) (f : Space → Space) : (modSpace s asn f).fills = s.fills := rfl
@[simp] theorem modSpace_migrations (s : State) (asn : Nat) (f : Space → Space) : (modSpace s asn f).migrations = s.migrations := rfl
@[simp] theorem modSpace_decants (s : State) (asn : Nat) (f : Space → Space) : (modSpace s asn f).decants = s.decants := rfl
@[simp] theorem modSpace_xfers (s : State) (asn : Nat) (f : Space → Space) : (modSpace s asn f).xfers = s.xfers := rfl
@[simp] theorem modSpace_ports (s : State) (asn : Nat) (f : Space → Space) : (modSpace s asn f).ports = s.ports := rfl
@[simp] theorem modSpace_farPorts (s : State) (asn : Nat) (f : Space → Space) : (modSpace s asn f).farPorts = s.farPorts := rfl
@[simp] theorem modSpace_groups (s : State) (asn : Nat) (f : Space → Space) : (modSpace s asn f).groups = s.groups := rfl
@[simp] theorem modSpace_firings (s : State) (asn : Nat) (f : Space → Space) : (modSpace s asn f).firings = s.firings := rfl
@[simp] theorem modSpace_codecs (s : State) (asn : Nat) (f : Space → Space) : (modSpace s asn f).codecs = s.codecs := rfl
@[simp] theorem modSpace_modes (s : State) (asn : Nat) (f : Space → Space) : (modSpace s asn f).modes = s.modes := rfl
@[simp] theorem modSpace_power (s : State) (asn : Nat) (f : Space → Space) : (modSpace s asn f).power = s.power := rfl
@[simp] theorem modSpace_tally (s : State) (asn : Nat) (f : Space → Space) : (modSpace s asn f).tally = s.tally := rfl
@[simp] theorem modSpace_app (s : State) (asn : Nat) (f : Space → Space) : (modSpace s asn f).app = s.app := rfl
@[simp] theorem modSpace_rel (s : State) (asn : Nat) (f : Space → Space) : (modSpace s asn f).rel = s.rel := rfl
@[simp] theorem modSpace_totals (s : State) (asn : Nat) (f : Space → Space) : (modSpace s asn f).totals = s.totals := rfl
@[simp] theorem modSpace_mem (s : State) (asn : Nat) (f : Space → Space) : (modSpace s asn f).mem = s.mem := rfl
@[simp] theorem modSpace_poison (s : State) (asn : Nat) (f : Space → Space) : (modSpace s asn f).poison = s.poison := rfl
@[simp] theorem modSpace_cells (s : State) (asn : Nat) (f : Space → Space) : (modSpace s asn f).cells = s.cells := rfl
@[simp] theorem modSpace_traffic (s : State) (asn : Nat) (f : Space → Space) : (modSpace s asn f).traffic = s.traffic := rfl
@[simp] theorem modSpace_exported (s : State) (asn : Nat) (f : Space → Space) : (modSpace s asn f).exported = s.exported := rfl
@[simp] theorem modSpace_nextId (s : State) (asn : Nat) (f : Space → Space) : (modSpace s asn f).nextId = s.nextId := rfl
@[simp] theorem modSpace_free (s : State) (asn : Nat) (f : Space → Space) : (modSpace s asn f).free = s.free := rfl

/-! ### modPage -/

@[simp] theorem modPage_pending (s : State) (asn vpn : Nat) (f : Page → Page) : (modPage s asn vpn f).pending = s.pending := rfl
@[simp] theorem modPage_paused (s : State) (asn vpn : Nat) (f : Page → Page) : (modPage s asn vpn f).paused = s.paused := rfl
@[simp] theorem modPage_hub (s : State) (asn vpn : Nat) (f : Page → Page) : (modPage s asn vpn f).hub = s.hub := rfl
@[simp] theorem modPage_flash (s : State) (asn vpn : Nat) (f : Page → Page) : (modPage s asn vpn f).flash = s.flash := rfl
@[simp] theorem modPage_regs (s : State) (asn vpn : Nat) (f : Page → Page) : (modPage s asn vpn f).regs = s.regs := rfl
@[simp] theorem modPage_latches (s : State) (asn vpn : Nat) (f : Page → Page) : (modPage s asn vpn f).latches = s.latches := rfl
@[simp] theorem modPage_queues (s : State) (asn vpn : Nat) (f : Page → Page) : (modPage s asn vpn f).queues = s.queues := rfl
@[simp] theorem modPage_msg (s : State) (asn vpn : Nat) (f : Page → Page) : (modPage s asn vpn f).msg = s.msg := rfl
@[simp] theorem modPage_out (s : State) (asn vpn : Nat) (f : Page → Page) : (modPage s asn vpn f).out = s.out := rfl
@[simp] theorem modPage_dies (s : State) (asn vpn : Nat) (f : Page → Page) : (modPage s asn vpn f).dies = s.dies := rfl
@[simp] theorem modPage_ctxs (s : State) (asn vpn : Nat) (f : Page → Page) : (modPage s asn vpn f).ctxs = s.ctxs := rfl
@[simp] theorem modPage_promotions (s : State) (asn vpn : Nat) (f : Page → Page) : (modPage s asn vpn f).promotions = s.promotions := rfl
@[simp] theorem modPage_fills (s : State) (asn vpn : Nat) (f : Page → Page) : (modPage s asn vpn f).fills = s.fills := rfl
@[simp] theorem modPage_migrations (s : State) (asn vpn : Nat) (f : Page → Page) : (modPage s asn vpn f).migrations = s.migrations := rfl
@[simp] theorem modPage_decants (s : State) (asn vpn : Nat) (f : Page → Page) : (modPage s asn vpn f).decants = s.decants := rfl
@[simp] theorem modPage_xfers (s : State) (asn vpn : Nat) (f : Page → Page) : (modPage s asn vpn f).xfers = s.xfers := rfl
@[simp] theorem modPage_ports (s : State) (asn vpn : Nat) (f : Page → Page) : (modPage s asn vpn f).ports = s.ports := rfl
@[simp] theorem modPage_farPorts (s : State) (asn vpn : Nat) (f : Page → Page) : (modPage s asn vpn f).farPorts = s.farPorts := rfl
@[simp] theorem modPage_groups (s : State) (asn vpn : Nat) (f : Page → Page) : (modPage s asn vpn f).groups = s.groups := rfl
@[simp] theorem modPage_firings (s : State) (asn vpn : Nat) (f : Page → Page) : (modPage s asn vpn f).firings = s.firings := rfl
@[simp] theorem modPage_codecs (s : State) (asn vpn : Nat) (f : Page → Page) : (modPage s asn vpn f).codecs = s.codecs := rfl
@[simp] theorem modPage_modes (s : State) (asn vpn : Nat) (f : Page → Page) : (modPage s asn vpn f).modes = s.modes := rfl
@[simp] theorem modPage_power (s : State) (asn vpn : Nat) (f : Page → Page) : (modPage s asn vpn f).power = s.power := rfl
@[simp] theorem modPage_tally (s : State) (asn vpn : Nat) (f : Page → Page) : (modPage s asn vpn f).tally = s.tally := rfl
@[simp] theorem modPage_app (s : State) (asn vpn : Nat) (f : Page → Page) : (modPage s asn vpn f).app = s.app := rfl
@[simp] theorem modPage_rel (s : State) (asn vpn : Nat) (f : Page → Page) : (modPage s asn vpn f).rel = s.rel := rfl
@[simp] theorem modPage_totals (s : State) (asn vpn : Nat) (f : Page → Page) : (modPage s asn vpn f).totals = s.totals := rfl
@[simp] theorem modPage_mem (s : State) (asn vpn : Nat) (f : Page → Page) : (modPage s asn vpn f).mem = s.mem := rfl
@[simp] theorem modPage_poison (s : State) (asn vpn : Nat) (f : Page → Page) : (modPage s asn vpn f).poison = s.poison := rfl
@[simp] theorem modPage_cells (s : State) (asn vpn : Nat) (f : Page → Page) : (modPage s asn vpn f).cells = s.cells := rfl
@[simp] theorem modPage_traffic (s : State) (asn vpn : Nat) (f : Page → Page) : (modPage s asn vpn f).traffic = s.traffic := rfl
@[simp] theorem modPage_exported (s : State) (asn vpn : Nat) (f : Page → Page) : (modPage s asn vpn f).exported = s.exported := rfl
@[simp] theorem modPage_nextId (s : State) (asn vpn : Nat) (f : Page → Page) : (modPage s asn vpn f).nextId = s.nextId := rfl
@[simp] theorem modPage_free (s : State) (asn vpn : Nat) (f : Page → Page) : (modPage s asn vpn f).free = s.free := rfl

/-! ### modCtx -/

@[simp] theorem modCtx_pending (s : State) (asn : Nat) (f : Ctx → Ctx) : (modCtx s asn f).pending = s.pending := rfl
@[simp] theorem modCtx_paused (s : State) (asn : Nat) (f : Ctx → Ctx) : (modCtx s asn f).paused = s.paused := rfl
@[simp] theorem modCtx_hub (s : State) (asn : Nat) (f : Ctx → Ctx) : (modCtx s asn f).hub = s.hub := rfl
@[simp] theorem modCtx_flash (s : State) (asn : Nat) (f : Ctx → Ctx) : (modCtx s asn f).flash = s.flash := rfl
@[simp] theorem modCtx_regs (s : State) (asn : Nat) (f : Ctx → Ctx) : (modCtx s asn f).regs = s.regs := rfl
@[simp] theorem modCtx_latches (s : State) (asn : Nat) (f : Ctx → Ctx) : (modCtx s asn f).latches = s.latches := rfl
@[simp] theorem modCtx_queues (s : State) (asn : Nat) (f : Ctx → Ctx) : (modCtx s asn f).queues = s.queues := rfl
@[simp] theorem modCtx_msg (s : State) (asn : Nat) (f : Ctx → Ctx) : (modCtx s asn f).msg = s.msg := rfl
@[simp] theorem modCtx_out (s : State) (asn : Nat) (f : Ctx → Ctx) : (modCtx s asn f).out = s.out := rfl
@[simp] theorem modCtx_dies (s : State) (asn : Nat) (f : Ctx → Ctx) : (modCtx s asn f).dies = s.dies := rfl
@[simp] theorem modCtx_spaces (s : State) (asn : Nat) (f : Ctx → Ctx) : (modCtx s asn f).spaces = s.spaces := rfl
@[simp] theorem modCtx_promotions (s : State) (asn : Nat) (f : Ctx → Ctx) : (modCtx s asn f).promotions = s.promotions := rfl
@[simp] theorem modCtx_fills (s : State) (asn : Nat) (f : Ctx → Ctx) : (modCtx s asn f).fills = s.fills := rfl
@[simp] theorem modCtx_migrations (s : State) (asn : Nat) (f : Ctx → Ctx) : (modCtx s asn f).migrations = s.migrations := rfl
@[simp] theorem modCtx_decants (s : State) (asn : Nat) (f : Ctx → Ctx) : (modCtx s asn f).decants = s.decants := rfl
@[simp] theorem modCtx_xfers (s : State) (asn : Nat) (f : Ctx → Ctx) : (modCtx s asn f).xfers = s.xfers := rfl
@[simp] theorem modCtx_ports (s : State) (asn : Nat) (f : Ctx → Ctx) : (modCtx s asn f).ports = s.ports := rfl
@[simp] theorem modCtx_farPorts (s : State) (asn : Nat) (f : Ctx → Ctx) : (modCtx s asn f).farPorts = s.farPorts := rfl
@[simp] theorem modCtx_groups (s : State) (asn : Nat) (f : Ctx → Ctx) : (modCtx s asn f).groups = s.groups := rfl
@[simp] theorem modCtx_firings (s : State) (asn : Nat) (f : Ctx → Ctx) : (modCtx s asn f).firings = s.firings := rfl
@[simp] theorem modCtx_codecs (s : State) (asn : Nat) (f : Ctx → Ctx) : (modCtx s asn f).codecs = s.codecs := rfl
@[simp] theorem modCtx_modes (s : State) (asn : Nat) (f : Ctx → Ctx) : (modCtx s asn f).modes = s.modes := rfl
@[simp] theorem modCtx_power (s : State) (asn : Nat) (f : Ctx → Ctx) : (modCtx s asn f).power = s.power := rfl
@[simp] theorem modCtx_tally (s : State) (asn : Nat) (f : Ctx → Ctx) : (modCtx s asn f).tally = s.tally := rfl
@[simp] theorem modCtx_app (s : State) (asn : Nat) (f : Ctx → Ctx) : (modCtx s asn f).app = s.app := rfl
@[simp] theorem modCtx_rel (s : State) (asn : Nat) (f : Ctx → Ctx) : (modCtx s asn f).rel = s.rel := rfl
@[simp] theorem modCtx_totals (s : State) (asn : Nat) (f : Ctx → Ctx) : (modCtx s asn f).totals = s.totals := rfl
@[simp] theorem modCtx_mem (s : State) (asn : Nat) (f : Ctx → Ctx) : (modCtx s asn f).mem = s.mem := rfl
@[simp] theorem modCtx_poison (s : State) (asn : Nat) (f : Ctx → Ctx) : (modCtx s asn f).poison = s.poison := rfl
@[simp] theorem modCtx_cells (s : State) (asn : Nat) (f : Ctx → Ctx) : (modCtx s asn f).cells = s.cells := rfl
@[simp] theorem modCtx_traffic (s : State) (asn : Nat) (f : Ctx → Ctx) : (modCtx s asn f).traffic = s.traffic := rfl
@[simp] theorem modCtx_exported (s : State) (asn : Nat) (f : Ctx → Ctx) : (modCtx s asn f).exported = s.exported := rfl
@[simp] theorem modCtx_nextId (s : State) (asn : Nat) (f : Ctx → Ctx) : (modCtx s asn f).nextId = s.nextId := rfl
@[simp] theorem modCtx_free (s : State) (asn : Nat) (f : Ctx → Ctx) : (modCtx s asn f).free = s.free := rfl

/-! ### modCore -/

@[simp] theorem modCore_pending (s : State) (asn core : Nat) (f : Core → Core) : (modCore s asn core f).pending = s.pending := rfl
@[simp] theorem modCore_paused (s : State) (asn core : Nat) (f : Core → Core) : (modCore s asn core f).paused = s.paused := rfl
@[simp] theorem modCore_hub (s : State) (asn core : Nat) (f : Core → Core) : (modCore s asn core f).hub = s.hub := rfl
@[simp] theorem modCore_flash (s : State) (asn core : Nat) (f : Core → Core) : (modCore s asn core f).flash = s.flash := rfl
@[simp] theorem modCore_regs (s : State) (asn core : Nat) (f : Core → Core) : (modCore s asn core f).regs = s.regs := rfl
@[simp] theorem modCore_latches (s : State) (asn core : Nat) (f : Core → Core) : (modCore s asn core f).latches = s.latches := rfl
@[simp] theorem modCore_queues (s : State) (asn core : Nat) (f : Core → Core) : (modCore s asn core f).queues = s.queues := rfl
@[simp] theorem modCore_msg (s : State) (asn core : Nat) (f : Core → Core) : (modCore s asn core f).msg = s.msg := rfl
@[simp] theorem modCore_out (s : State) (asn core : Nat) (f : Core → Core) : (modCore s asn core f).out = s.out := rfl
@[simp] theorem modCore_dies (s : State) (asn core : Nat) (f : Core → Core) : (modCore s asn core f).dies = s.dies := rfl
@[simp] theorem modCore_spaces (s : State) (asn core : Nat) (f : Core → Core) : (modCore s asn core f).spaces = s.spaces := rfl
@[simp] theorem modCore_promotions (s : State) (asn core : Nat) (f : Core → Core) : (modCore s asn core f).promotions = s.promotions := rfl
@[simp] theorem modCore_fills (s : State) (asn core : Nat) (f : Core → Core) : (modCore s asn core f).fills = s.fills := rfl
@[simp] theorem modCore_migrations (s : State) (asn core : Nat) (f : Core → Core) : (modCore s asn core f).migrations = s.migrations := rfl
@[simp] theorem modCore_decants (s : State) (asn core : Nat) (f : Core → Core) : (modCore s asn core f).decants = s.decants := rfl
@[simp] theorem modCore_xfers (s : State) (asn core : Nat) (f : Core → Core) : (modCore s asn core f).xfers = s.xfers := rfl
@[simp] theorem modCore_ports (s : State) (asn core : Nat) (f : Core → Core) : (modCore s asn core f).ports = s.ports := rfl
@[simp] theorem modCore_farPorts (s : State) (asn core : Nat) (f : Core → Core) : (modCore s asn core f).farPorts = s.farPorts := rfl
@[simp] theorem modCore_groups (s : State) (asn core : Nat) (f : Core → Core) : (modCore s asn core f).groups = s.groups := rfl
@[simp] theorem modCore_firings (s : State) (asn core : Nat) (f : Core → Core) : (modCore s asn core f).firings = s.firings := rfl
@[simp] theorem modCore_codecs (s : State) (asn core : Nat) (f : Core → Core) : (modCore s asn core f).codecs = s.codecs := rfl
@[simp] theorem modCore_modes (s : State) (asn core : Nat) (f : Core → Core) : (modCore s asn core f).modes = s.modes := rfl
@[simp] theorem modCore_power (s : State) (asn core : Nat) (f : Core → Core) : (modCore s asn core f).power = s.power := rfl
@[simp] theorem modCore_tally (s : State) (asn core : Nat) (f : Core → Core) : (modCore s asn core f).tally = s.tally := rfl
@[simp] theorem modCore_app (s : State) (asn core : Nat) (f : Core → Core) : (modCore s asn core f).app = s.app := rfl
@[simp] theorem modCore_rel (s : State) (asn core : Nat) (f : Core → Core) : (modCore s asn core f).rel = s.rel := rfl
@[simp] theorem modCore_totals (s : State) (asn core : Nat) (f : Core → Core) : (modCore s asn core f).totals = s.totals := rfl
@[simp] theorem modCore_mem (s : State) (asn core : Nat) (f : Core → Core) : (modCore s asn core f).mem = s.mem := rfl
@[simp] theorem modCore_poison (s : State) (asn core : Nat) (f : Core → Core) : (modCore s asn core f).poison = s.poison := rfl
@[simp] theorem modCore_cells (s : State) (asn core : Nat) (f : Core → Core) : (modCore s asn core f).cells = s.cells := rfl
@[simp] theorem modCore_traffic (s : State) (asn core : Nat) (f : Core → Core) : (modCore s asn core f).traffic = s.traffic := rfl
@[simp] theorem modCore_exported (s : State) (asn core : Nat) (f : Core → Core) : (modCore s asn core f).exported = s.exported := rfl
@[simp] theorem modCore_nextId (s : State) (asn core : Nat) (f : Core → Core) : (modCore s asn core f).nextId = s.nextId := rfl
@[simp] theorem modCore_free (s : State) (asn core : Nat) (f : Core → Core) : (modCore s asn core f).free = s.free := rfl

/-! ### addOwnSem -/

@[simp] theorem addOwnSem_pending (s : State) (asn i n : Nat) : (addOwnSem s asn i n).pending = s.pending := rfl
@[simp] theorem addOwnSem_paused (s : State) (asn i n : Nat) : (addOwnSem s asn i n).paused = s.paused := rfl
@[simp] theorem addOwnSem_hub (s : State) (asn i n : Nat) : (addOwnSem s asn i n).hub = s.hub := rfl
@[simp] theorem addOwnSem_flash (s : State) (asn i n : Nat) : (addOwnSem s asn i n).flash = s.flash := rfl
@[simp] theorem addOwnSem_regs (s : State) (asn i n : Nat) : (addOwnSem s asn i n).regs = s.regs := rfl
@[simp] theorem addOwnSem_latches (s : State) (asn i n : Nat) : (addOwnSem s asn i n).latches = s.latches := rfl
@[simp] theorem addOwnSem_queues (s : State) (asn i n : Nat) : (addOwnSem s asn i n).queues = s.queues := rfl
@[simp] theorem addOwnSem_msg (s : State) (asn i n : Nat) : (addOwnSem s asn i n).msg = s.msg := rfl
@[simp] theorem addOwnSem_out (s : State) (asn i n : Nat) : (addOwnSem s asn i n).out = s.out := rfl
@[simp] theorem addOwnSem_dies (s : State) (asn i n : Nat) : (addOwnSem s asn i n).dies = s.dies := rfl
@[simp] theorem addOwnSem_spaces (s : State) (asn i n : Nat) : (addOwnSem s asn i n).spaces = s.spaces := rfl
@[simp] theorem addOwnSem_promotions (s : State) (asn i n : Nat) : (addOwnSem s asn i n).promotions = s.promotions := rfl
@[simp] theorem addOwnSem_fills (s : State) (asn i n : Nat) : (addOwnSem s asn i n).fills = s.fills := rfl
@[simp] theorem addOwnSem_migrations (s : State) (asn i n : Nat) : (addOwnSem s asn i n).migrations = s.migrations := rfl
@[simp] theorem addOwnSem_decants (s : State) (asn i n : Nat) : (addOwnSem s asn i n).decants = s.decants := rfl
@[simp] theorem addOwnSem_xfers (s : State) (asn i n : Nat) : (addOwnSem s asn i n).xfers = s.xfers := rfl
@[simp] theorem addOwnSem_ports (s : State) (asn i n : Nat) : (addOwnSem s asn i n).ports = s.ports := rfl
@[simp] theorem addOwnSem_farPorts (s : State) (asn i n : Nat) : (addOwnSem s asn i n).farPorts = s.farPorts := rfl
@[simp] theorem addOwnSem_groups (s : State) (asn i n : Nat) : (addOwnSem s asn i n).groups = s.groups := rfl
@[simp] theorem addOwnSem_firings (s : State) (asn i n : Nat) : (addOwnSem s asn i n).firings = s.firings := rfl
@[simp] theorem addOwnSem_codecs (s : State) (asn i n : Nat) : (addOwnSem s asn i n).codecs = s.codecs := rfl
@[simp] theorem addOwnSem_modes (s : State) (asn i n : Nat) : (addOwnSem s asn i n).modes = s.modes := rfl
@[simp] theorem addOwnSem_power (s : State) (asn i n : Nat) : (addOwnSem s asn i n).power = s.power := rfl
@[simp] theorem addOwnSem_tally (s : State) (asn i n : Nat) : (addOwnSem s asn i n).tally = s.tally := rfl
@[simp] theorem addOwnSem_app (s : State) (asn i n : Nat) : (addOwnSem s asn i n).app = s.app := rfl
@[simp] theorem addOwnSem_rel (s : State) (asn i n : Nat) : (addOwnSem s asn i n).rel = s.rel := rfl
@[simp] theorem addOwnSem_totals (s : State) (asn i n : Nat) : (addOwnSem s asn i n).totals = s.totals := rfl
@[simp] theorem addOwnSem_mem (s : State) (asn i n : Nat) : (addOwnSem s asn i n).mem = s.mem := rfl
@[simp] theorem addOwnSem_poison (s : State) (asn i n : Nat) : (addOwnSem s asn i n).poison = s.poison := rfl
@[simp] theorem addOwnSem_cells (s : State) (asn i n : Nat) : (addOwnSem s asn i n).cells = s.cells := rfl
@[simp] theorem addOwnSem_traffic (s : State) (asn i n : Nat) : (addOwnSem s asn i n).traffic = s.traffic := rfl
@[simp] theorem addOwnSem_exported (s : State) (asn i n : Nat) : (addOwnSem s asn i n).exported = s.exported := rfl
@[simp] theorem addOwnSem_nextId (s : State) (asn i n : Nat) : (addOwnSem s asn i n).nextId = s.nextId := rfl
@[simp] theorem addOwnSem_free (s : State) (asn i n : Nat) : (addOwnSem s asn i n).free = s.free := rfl

/-! ### addCounter -/

@[simp] theorem addCounter_pending (s : State) (asn i n : Nat) : (addCounter s asn i n).pending = s.pending := rfl
@[simp] theorem addCounter_paused (s : State) (asn i n : Nat) : (addCounter s asn i n).paused = s.paused := rfl
@[simp] theorem addCounter_hub (s : State) (asn i n : Nat) : (addCounter s asn i n).hub = s.hub := rfl
@[simp] theorem addCounter_flash (s : State) (asn i n : Nat) : (addCounter s asn i n).flash = s.flash := rfl
@[simp] theorem addCounter_regs (s : State) (asn i n : Nat) : (addCounter s asn i n).regs = s.regs := rfl
@[simp] theorem addCounter_latches (s : State) (asn i n : Nat) : (addCounter s asn i n).latches = s.latches := rfl
@[simp] theorem addCounter_queues (s : State) (asn i n : Nat) : (addCounter s asn i n).queues = s.queues := rfl
@[simp] theorem addCounter_msg (s : State) (asn i n : Nat) : (addCounter s asn i n).msg = s.msg := rfl
@[simp] theorem addCounter_out (s : State) (asn i n : Nat) : (addCounter s asn i n).out = s.out := rfl
@[simp] theorem addCounter_dies (s : State) (asn i n : Nat) : (addCounter s asn i n).dies = s.dies := rfl
@[simp] theorem addCounter_spaces (s : State) (asn i n : Nat) : (addCounter s asn i n).spaces = s.spaces := rfl
@[simp] theorem addCounter_promotions (s : State) (asn i n : Nat) : (addCounter s asn i n).promotions = s.promotions := rfl
@[simp] theorem addCounter_fills (s : State) (asn i n : Nat) : (addCounter s asn i n).fills = s.fills := rfl
@[simp] theorem addCounter_migrations (s : State) (asn i n : Nat) : (addCounter s asn i n).migrations = s.migrations := rfl
@[simp] theorem addCounter_decants (s : State) (asn i n : Nat) : (addCounter s asn i n).decants = s.decants := rfl
@[simp] theorem addCounter_xfers (s : State) (asn i n : Nat) : (addCounter s asn i n).xfers = s.xfers := rfl
@[simp] theorem addCounter_ports (s : State) (asn i n : Nat) : (addCounter s asn i n).ports = s.ports := rfl
@[simp] theorem addCounter_farPorts (s : State) (asn i n : Nat) : (addCounter s asn i n).farPorts = s.farPorts := rfl
@[simp] theorem addCounter_groups (s : State) (asn i n : Nat) : (addCounter s asn i n).groups = s.groups := rfl
@[simp] theorem addCounter_firings (s : State) (asn i n : Nat) : (addCounter s asn i n).firings = s.firings := rfl
@[simp] theorem addCounter_codecs (s : State) (asn i n : Nat) : (addCounter s asn i n).codecs = s.codecs := rfl
@[simp] theorem addCounter_modes (s : State) (asn i n : Nat) : (addCounter s asn i n).modes = s.modes := rfl
@[simp] theorem addCounter_power (s : State) (asn i n : Nat) : (addCounter s asn i n).power = s.power := rfl
@[simp] theorem addCounter_tally (s : State) (asn i n : Nat) : (addCounter s asn i n).tally = s.tally := rfl
@[simp] theorem addCounter_app (s : State) (asn i n : Nat) : (addCounter s asn i n).app = s.app := rfl
@[simp] theorem addCounter_rel (s : State) (asn i n : Nat) : (addCounter s asn i n).rel = s.rel := rfl
@[simp] theorem addCounter_totals (s : State) (asn i n : Nat) : (addCounter s asn i n).totals = s.totals := rfl
@[simp] theorem addCounter_mem (s : State) (asn i n : Nat) : (addCounter s asn i n).mem = s.mem := rfl
@[simp] theorem addCounter_poison (s : State) (asn i n : Nat) : (addCounter s asn i n).poison = s.poison := rfl
@[simp] theorem addCounter_cells (s : State) (asn i n : Nat) : (addCounter s asn i n).cells = s.cells := rfl
@[simp] theorem addCounter_traffic (s : State) (asn i n : Nat) : (addCounter s asn i n).traffic = s.traffic := rfl
@[simp] theorem addCounter_exported (s : State) (asn i n : Nat) : (addCounter s asn i n).exported = s.exported := rfl
@[simp] theorem addCounter_nextId (s : State) (asn i n : Nat) : (addCounter s asn i n).nextId = s.nextId := rfl
@[simp] theorem addCounter_free (s : State) (asn i n : Nat) : (addCounter s asn i n).free = s.free := rfl

/-! ### orFlags -/

@[simp] theorem orFlags_pending (s : State) (asn f : Nat) : (orFlags s asn f).pending = s.pending := rfl
@[simp] theorem orFlags_paused (s : State) (asn f : Nat) : (orFlags s asn f).paused = s.paused := rfl
@[simp] theorem orFlags_hub (s : State) (asn f : Nat) : (orFlags s asn f).hub = s.hub := rfl
@[simp] theorem orFlags_flash (s : State) (asn f : Nat) : (orFlags s asn f).flash = s.flash := rfl
@[simp] theorem orFlags_regs (s : State) (asn f : Nat) : (orFlags s asn f).regs = s.regs := rfl
@[simp] theorem orFlags_latches (s : State) (asn f : Nat) : (orFlags s asn f).latches = s.latches := rfl
@[simp] theorem orFlags_queues (s : State) (asn f : Nat) : (orFlags s asn f).queues = s.queues := rfl
@[simp] theorem orFlags_msg (s : State) (asn f : Nat) : (orFlags s asn f).msg = s.msg := rfl
@[simp] theorem orFlags_out (s : State) (asn f : Nat) : (orFlags s asn f).out = s.out := rfl
@[simp] theorem orFlags_dies (s : State) (asn f : Nat) : (orFlags s asn f).dies = s.dies := rfl
@[simp] theorem orFlags_spaces (s : State) (asn f : Nat) : (orFlags s asn f).spaces = s.spaces := rfl
@[simp] theorem orFlags_promotions (s : State) (asn f : Nat) : (orFlags s asn f).promotions = s.promotions := rfl
@[simp] theorem orFlags_fills (s : State) (asn f : Nat) : (orFlags s asn f).fills = s.fills := rfl
@[simp] theorem orFlags_migrations (s : State) (asn f : Nat) : (orFlags s asn f).migrations = s.migrations := rfl
@[simp] theorem orFlags_decants (s : State) (asn f : Nat) : (orFlags s asn f).decants = s.decants := rfl
@[simp] theorem orFlags_xfers (s : State) (asn f : Nat) : (orFlags s asn f).xfers = s.xfers := rfl
@[simp] theorem orFlags_ports (s : State) (asn f : Nat) : (orFlags s asn f).ports = s.ports := rfl
@[simp] theorem orFlags_farPorts (s : State) (asn f : Nat) : (orFlags s asn f).farPorts = s.farPorts := rfl
@[simp] theorem orFlags_groups (s : State) (asn f : Nat) : (orFlags s asn f).groups = s.groups := rfl
@[simp] theorem orFlags_firings (s : State) (asn f : Nat) : (orFlags s asn f).firings = s.firings := rfl
@[simp] theorem orFlags_codecs (s : State) (asn f : Nat) : (orFlags s asn f).codecs = s.codecs := rfl
@[simp] theorem orFlags_modes (s : State) (asn f : Nat) : (orFlags s asn f).modes = s.modes := rfl
@[simp] theorem orFlags_power (s : State) (asn f : Nat) : (orFlags s asn f).power = s.power := rfl
@[simp] theorem orFlags_tally (s : State) (asn f : Nat) : (orFlags s asn f).tally = s.tally := rfl
@[simp] theorem orFlags_app (s : State) (asn f : Nat) : (orFlags s asn f).app = s.app := rfl
@[simp] theorem orFlags_rel (s : State) (asn f : Nat) : (orFlags s asn f).rel = s.rel := rfl
@[simp] theorem orFlags_totals (s : State) (asn f : Nat) : (orFlags s asn f).totals = s.totals := rfl
@[simp] theorem orFlags_mem (s : State) (asn f : Nat) : (orFlags s asn f).mem = s.mem := rfl
@[simp] theorem orFlags_poison (s : State) (asn f : Nat) : (orFlags s asn f).poison = s.poison := rfl
@[simp] theorem orFlags_cells (s : State) (asn f : Nat) : (orFlags s asn f).cells = s.cells := rfl
@[simp] theorem orFlags_traffic (s : State) (asn f : Nat) : (orFlags s asn f).traffic = s.traffic := rfl
@[simp] theorem orFlags_exported (s : State) (asn f : Nat) : (orFlags s asn f).exported = s.exported := rfl
@[simp] theorem orFlags_nextId (s : State) (asn f : Nat) : (orFlags s asn f).nextId = s.nextId := rfl
@[simp] theorem orFlags_free (s : State) (asn f : Nat) : (orFlags s asn f).free = s.free := rfl

/-! ### addPoison -/

@[simp] theorem addPoison_pending (s : State) (l : List Nat) : (addPoison s l).pending = s.pending := rfl
@[simp] theorem addPoison_paused (s : State) (l : List Nat) : (addPoison s l).paused = s.paused := rfl
@[simp] theorem addPoison_hub (s : State) (l : List Nat) : (addPoison s l).hub = s.hub := rfl
@[simp] theorem addPoison_flash (s : State) (l : List Nat) : (addPoison s l).flash = s.flash := rfl
@[simp] theorem addPoison_regs (s : State) (l : List Nat) : (addPoison s l).regs = s.regs := rfl
@[simp] theorem addPoison_latches (s : State) (l : List Nat) : (addPoison s l).latches = s.latches := rfl
@[simp] theorem addPoison_queues (s : State) (l : List Nat) : (addPoison s l).queues = s.queues := rfl
@[simp] theorem addPoison_msg (s : State) (l : List Nat) : (addPoison s l).msg = s.msg := rfl
@[simp] theorem addPoison_out (s : State) (l : List Nat) : (addPoison s l).out = s.out := rfl
@[simp] theorem addPoison_dies (s : State) (l : List Nat) : (addPoison s l).dies = s.dies := rfl
@[simp] theorem addPoison_spaces (s : State) (l : List Nat) : (addPoison s l).spaces = s.spaces := rfl
@[simp] theorem addPoison_ctxs (s : State) (l : List Nat) : (addPoison s l).ctxs = s.ctxs := rfl
@[simp] theorem addPoison_promotions (s : State) (l : List Nat) : (addPoison s l).promotions = s.promotions := rfl
@[simp] theorem addPoison_fills (s : State) (l : List Nat) : (addPoison s l).fills = s.fills := rfl
@[simp] theorem addPoison_migrations (s : State) (l : List Nat) : (addPoison s l).migrations = s.migrations := rfl
@[simp] theorem addPoison_decants (s : State) (l : List Nat) : (addPoison s l).decants = s.decants := rfl
@[simp] theorem addPoison_xfers (s : State) (l : List Nat) : (addPoison s l).xfers = s.xfers := rfl
@[simp] theorem addPoison_ports (s : State) (l : List Nat) : (addPoison s l).ports = s.ports := rfl
@[simp] theorem addPoison_farPorts (s : State) (l : List Nat) : (addPoison s l).farPorts = s.farPorts := rfl
@[simp] theorem addPoison_groups (s : State) (l : List Nat) : (addPoison s l).groups = s.groups := rfl
@[simp] theorem addPoison_firings (s : State) (l : List Nat) : (addPoison s l).firings = s.firings := rfl
@[simp] theorem addPoison_codecs (s : State) (l : List Nat) : (addPoison s l).codecs = s.codecs := rfl
@[simp] theorem addPoison_modes (s : State) (l : List Nat) : (addPoison s l).modes = s.modes := rfl
@[simp] theorem addPoison_power (s : State) (l : List Nat) : (addPoison s l).power = s.power := rfl
@[simp] theorem addPoison_tally (s : State) (l : List Nat) : (addPoison s l).tally = s.tally := rfl
@[simp] theorem addPoison_app (s : State) (l : List Nat) : (addPoison s l).app = s.app := rfl
@[simp] theorem addPoison_rel (s : State) (l : List Nat) : (addPoison s l).rel = s.rel := rfl
@[simp] theorem addPoison_totals (s : State) (l : List Nat) : (addPoison s l).totals = s.totals := rfl
@[simp] theorem addPoison_mem (s : State) (l : List Nat) : (addPoison s l).mem = s.mem := rfl
@[simp] theorem addPoison_cells (s : State) (l : List Nat) : (addPoison s l).cells = s.cells := rfl
@[simp] theorem addPoison_traffic (s : State) (l : List Nat) : (addPoison s l).traffic = s.traffic := rfl
@[simp] theorem addPoison_exported (s : State) (l : List Nat) : (addPoison s l).exported = s.exported := rfl
@[simp] theorem addPoison_nextId (s : State) (l : List Nat) : (addPoison s l).nextId = s.nextId := rfl
@[simp] theorem addPoison_free (s : State) (l : List Nat) : (addPoison s l).free = s.free := rfl

/-! ### cancelMoves -/

@[simp] theorem cancelMoves_pending (s : State) (asn : Nat) (l : List Nat) : (cancelMoves s asn l).pending = s.pending := rfl
@[simp] theorem cancelMoves_paused (s : State) (asn : Nat) (l : List Nat) : (cancelMoves s asn l).paused = s.paused := rfl
@[simp] theorem cancelMoves_hub (s : State) (asn : Nat) (l : List Nat) : (cancelMoves s asn l).hub = s.hub := rfl
@[simp] theorem cancelMoves_flash (s : State) (asn : Nat) (l : List Nat) : (cancelMoves s asn l).flash = s.flash := rfl
@[simp] theorem cancelMoves_regs (s : State) (asn : Nat) (l : List Nat) : (cancelMoves s asn l).regs = s.regs := rfl
@[simp] theorem cancelMoves_latches (s : State) (asn : Nat) (l : List Nat) : (cancelMoves s asn l).latches = s.latches := rfl
@[simp] theorem cancelMoves_queues (s : State) (asn : Nat) (l : List Nat) : (cancelMoves s asn l).queues = s.queues := rfl
@[simp] theorem cancelMoves_msg (s : State) (asn : Nat) (l : List Nat) : (cancelMoves s asn l).msg = s.msg := rfl
@[simp] theorem cancelMoves_out (s : State) (asn : Nat) (l : List Nat) : (cancelMoves s asn l).out = s.out := rfl
@[simp] theorem cancelMoves_dies (s : State) (asn : Nat) (l : List Nat) : (cancelMoves s asn l).dies = s.dies := rfl
@[simp] theorem cancelMoves_spaces (s : State) (asn : Nat) (l : List Nat) : (cancelMoves s asn l).spaces = s.spaces := rfl
@[simp] theorem cancelMoves_ctxs (s : State) (asn : Nat) (l : List Nat) : (cancelMoves s asn l).ctxs = s.ctxs := rfl
@[simp] theorem cancelMoves_promotions (s : State) (asn : Nat) (l : List Nat) : (cancelMoves s asn l).promotions = s.promotions := rfl
@[simp] theorem cancelMoves_fills (s : State) (asn : Nat) (l : List Nat) : (cancelMoves s asn l).fills = s.fills := rfl
@[simp] theorem cancelMoves_decants (s : State) (asn : Nat) (l : List Nat) : (cancelMoves s asn l).decants = s.decants := rfl
@[simp] theorem cancelMoves_xfers (s : State) (asn : Nat) (l : List Nat) : (cancelMoves s asn l).xfers = s.xfers := rfl
@[simp] theorem cancelMoves_ports (s : State) (asn : Nat) (l : List Nat) : (cancelMoves s asn l).ports = s.ports := rfl
@[simp] theorem cancelMoves_farPorts (s : State) (asn : Nat) (l : List Nat) : (cancelMoves s asn l).farPorts = s.farPorts := rfl
@[simp] theorem cancelMoves_groups (s : State) (asn : Nat) (l : List Nat) : (cancelMoves s asn l).groups = s.groups := rfl
@[simp] theorem cancelMoves_firings (s : State) (asn : Nat) (l : List Nat) : (cancelMoves s asn l).firings = s.firings := rfl
@[simp] theorem cancelMoves_codecs (s : State) (asn : Nat) (l : List Nat) : (cancelMoves s asn l).codecs = s.codecs := rfl
@[simp] theorem cancelMoves_modes (s : State) (asn : Nat) (l : List Nat) : (cancelMoves s asn l).modes = s.modes := rfl
@[simp] theorem cancelMoves_power (s : State) (asn : Nat) (l : List Nat) : (cancelMoves s asn l).power = s.power := rfl
@[simp] theorem cancelMoves_tally (s : State) (asn : Nat) (l : List Nat) : (cancelMoves s asn l).tally = s.tally := rfl
@[simp] theorem cancelMoves_app (s : State) (asn : Nat) (l : List Nat) : (cancelMoves s asn l).app = s.app := rfl
@[simp] theorem cancelMoves_rel (s : State) (asn : Nat) (l : List Nat) : (cancelMoves s asn l).rel = s.rel := rfl
@[simp] theorem cancelMoves_totals (s : State) (asn : Nat) (l : List Nat) : (cancelMoves s asn l).totals = s.totals := rfl
@[simp] theorem cancelMoves_mem (s : State) (asn : Nat) (l : List Nat) : (cancelMoves s asn l).mem = s.mem := rfl
@[simp] theorem cancelMoves_poison (s : State) (asn : Nat) (l : List Nat) : (cancelMoves s asn l).poison = s.poison := rfl
@[simp] theorem cancelMoves_cells (s : State) (asn : Nat) (l : List Nat) : (cancelMoves s asn l).cells = s.cells := rfl
@[simp] theorem cancelMoves_traffic (s : State) (asn : Nat) (l : List Nat) : (cancelMoves s asn l).traffic = s.traffic := rfl
@[simp] theorem cancelMoves_exported (s : State) (asn : Nat) (l : List Nat) : (cancelMoves s asn l).exported = s.exported := rfl
@[simp] theorem cancelMoves_nextId (s : State) (asn : Nat) (l : List Nat) : (cancelMoves s asn l).nextId = s.nextId := rfl
@[simp] theorem cancelMoves_free (s : State) (asn : Nat) (l : List Nat) : (cancelMoves s asn l).free = s.free := rfl

/-! ### addTotal -/

@[simp] theorem addTotal_pending (s : State) (asn : Nat) (a : Acct) : (addTotal s asn a).pending = s.pending := rfl
@[simp] theorem addTotal_paused (s : State) (asn : Nat) (a : Acct) : (addTotal s asn a).paused = s.paused := rfl
@[simp] theorem addTotal_hub (s : State) (asn : Nat) (a : Acct) : (addTotal s asn a).hub = s.hub := rfl
@[simp] theorem addTotal_flash (s : State) (asn : Nat) (a : Acct) : (addTotal s asn a).flash = s.flash := rfl
@[simp] theorem addTotal_regs (s : State) (asn : Nat) (a : Acct) : (addTotal s asn a).regs = s.regs := rfl
@[simp] theorem addTotal_latches (s : State) (asn : Nat) (a : Acct) : (addTotal s asn a).latches = s.latches := rfl
@[simp] theorem addTotal_queues (s : State) (asn : Nat) (a : Acct) : (addTotal s asn a).queues = s.queues := rfl
@[simp] theorem addTotal_msg (s : State) (asn : Nat) (a : Acct) : (addTotal s asn a).msg = s.msg := rfl
@[simp] theorem addTotal_out (s : State) (asn : Nat) (a : Acct) : (addTotal s asn a).out = s.out := rfl
@[simp] theorem addTotal_dies (s : State) (asn : Nat) (a : Acct) : (addTotal s asn a).dies = s.dies := rfl
@[simp] theorem addTotal_spaces (s : State) (asn : Nat) (a : Acct) : (addTotal s asn a).spaces = s.spaces := rfl
@[simp] theorem addTotal_ctxs (s : State) (asn : Nat) (a : Acct) : (addTotal s asn a).ctxs = s.ctxs := rfl
@[simp] theorem addTotal_promotions (s : State) (asn : Nat) (a : Acct) : (addTotal s asn a).promotions = s.promotions := rfl
@[simp] theorem addTotal_fills (s : State) (asn : Nat) (a : Acct) : (addTotal s asn a).fills = s.fills := rfl
@[simp] theorem addTotal_migrations (s : State) (asn : Nat) (a : Acct) : (addTotal s asn a).migrations = s.migrations := rfl
@[simp] theorem addTotal_decants (s : State) (asn : Nat) (a : Acct) : (addTotal s asn a).decants = s.decants := rfl
@[simp] theorem addTotal_xfers (s : State) (asn : Nat) (a : Acct) : (addTotal s asn a).xfers = s.xfers := rfl
@[simp] theorem addTotal_ports (s : State) (asn : Nat) (a : Acct) : (addTotal s asn a).ports = s.ports := rfl
@[simp] theorem addTotal_farPorts (s : State) (asn : Nat) (a : Acct) : (addTotal s asn a).farPorts = s.farPorts := rfl
@[simp] theorem addTotal_groups (s : State) (asn : Nat) (a : Acct) : (addTotal s asn a).groups = s.groups := rfl
@[simp] theorem addTotal_firings (s : State) (asn : Nat) (a : Acct) : (addTotal s asn a).firings = s.firings := rfl
@[simp] theorem addTotal_codecs (s : State) (asn : Nat) (a : Acct) : (addTotal s asn a).codecs = s.codecs := rfl
@[simp] theorem addTotal_modes (s : State) (asn : Nat) (a : Acct) : (addTotal s asn a).modes = s.modes := rfl
@[simp] theorem addTotal_power (s : State) (asn : Nat) (a : Acct) : (addTotal s asn a).power = s.power := rfl
@[simp] theorem addTotal_tally (s : State) (asn : Nat) (a : Acct) : (addTotal s asn a).tally = s.tally := rfl
@[simp] theorem addTotal_app (s : State) (asn : Nat) (a : Acct) : (addTotal s asn a).app = s.app := rfl
@[simp] theorem addTotal_rel (s : State) (asn : Nat) (a : Acct) : (addTotal s asn a).rel = s.rel := rfl
@[simp] theorem addTotal_mem (s : State) (asn : Nat) (a : Acct) : (addTotal s asn a).mem = s.mem := rfl
@[simp] theorem addTotal_poison (s : State) (asn : Nat) (a : Acct) : (addTotal s asn a).poison = s.poison := rfl
@[simp] theorem addTotal_cells (s : State) (asn : Nat) (a : Acct) : (addTotal s asn a).cells = s.cells := rfl
@[simp] theorem addTotal_traffic (s : State) (asn : Nat) (a : Acct) : (addTotal s asn a).traffic = s.traffic := rfl
@[simp] theorem addTotal_exported (s : State) (asn : Nat) (a : Acct) : (addTotal s asn a).exported = s.exported := rfl
@[simp] theorem addTotal_nextId (s : State) (asn : Nat) (a : Acct) : (addTotal s asn a).nextId = s.nextId := rfl
@[simp] theorem addTotal_free (s : State) (asn : Nat) (a : Acct) : (addTotal s asn a).free = s.free := rfl

/-! ### stepFree -/

@[simp] theorem stepFree_pending (s : State) : (stepFree s).pending = s.pending := rfl
@[simp] theorem stepFree_paused (s : State) : (stepFree s).paused = s.paused := rfl
@[simp] theorem stepFree_hub (s : State) : (stepFree s).hub = s.hub := rfl
@[simp] theorem stepFree_flash (s : State) : (stepFree s).flash = s.flash := rfl
@[simp] theorem stepFree_regs (s : State) : (stepFree s).regs = s.regs := rfl
@[simp] theorem stepFree_latches (s : State) : (stepFree s).latches = s.latches := rfl
@[simp] theorem stepFree_queues (s : State) : (stepFree s).queues = s.queues := rfl
@[simp] theorem stepFree_msg (s : State) : (stepFree s).msg = s.msg := rfl
@[simp] theorem stepFree_out (s : State) : (stepFree s).out = s.out := rfl
@[simp] theorem stepFree_dies (s : State) : (stepFree s).dies = s.dies := rfl
@[simp] theorem stepFree_spaces (s : State) : (stepFree s).spaces = s.spaces := rfl
@[simp] theorem stepFree_ctxs (s : State) : (stepFree s).ctxs = s.ctxs := rfl
@[simp] theorem stepFree_promotions (s : State) : (stepFree s).promotions = s.promotions := rfl
@[simp] theorem stepFree_fills (s : State) : (stepFree s).fills = s.fills := rfl
@[simp] theorem stepFree_migrations (s : State) : (stepFree s).migrations = s.migrations := rfl
@[simp] theorem stepFree_decants (s : State) : (stepFree s).decants = s.decants := rfl
@[simp] theorem stepFree_xfers (s : State) : (stepFree s).xfers = s.xfers := rfl
@[simp] theorem stepFree_ports (s : State) : (stepFree s).ports = s.ports := rfl
@[simp] theorem stepFree_farPorts (s : State) : (stepFree s).farPorts = s.farPorts := rfl
@[simp] theorem stepFree_groups (s : State) : (stepFree s).groups = s.groups := rfl
@[simp] theorem stepFree_firings (s : State) : (stepFree s).firings = s.firings := rfl
@[simp] theorem stepFree_codecs (s : State) : (stepFree s).codecs = s.codecs := rfl
@[simp] theorem stepFree_modes (s : State) : (stepFree s).modes = s.modes := rfl
@[simp] theorem stepFree_power (s : State) : (stepFree s).power = s.power := rfl
@[simp] theorem stepFree_tally (s : State) : (stepFree s).tally = s.tally := rfl
@[simp] theorem stepFree_app (s : State) : (stepFree s).app = s.app := rfl
@[simp] theorem stepFree_rel (s : State) : (stepFree s).rel = s.rel := rfl
@[simp] theorem stepFree_totals (s : State) : (stepFree s).totals = s.totals := rfl
@[simp] theorem stepFree_mem (s : State) : (stepFree s).mem = s.mem := rfl
@[simp] theorem stepFree_poison (s : State) : (stepFree s).poison = s.poison := rfl
@[simp] theorem stepFree_cells (s : State) : (stepFree s).cells = s.cells := rfl
@[simp] theorem stepFree_traffic (s : State) : (stepFree s).traffic = s.traffic := rfl
@[simp] theorem stepFree_exported (s : State) : (stepFree s).exported = s.exported := rfl
@[simp] theorem stepFree_nextId (s : State) : (stepFree s).nextId = s.nextId := rfl

end Sys2Proof.Machine
end

