-- ==== Sys2Proof/Laws/Ops.lean ====
section
/-! SUPPORT. Laws/Ops.lean: what the shared operations do, said once: contexts and cores, semaphores, registers, host queues,
a command that starts, and an instruction of a core that issues. -/

namespace Sys2Proof.Machine

/-! ### Outcomes -/

/-- A well-formed command answers the state its meaning gives. -/
theorem event_next {wf : Bool} (s : State) (f : State → State) (h : wf = true) : event wf s f = .next (f s) := by
  simp [event, h]

/-- An ill-formed term names no command. -/
theorem event_refused {wf : Bool} (s : State) (f : State → State) (h : wf = false) : event wf s f = .refused .illFormed := by
  simp [event, h]

/-! ### Contexts and cores -/

theorem find_map_asn (l : List Ctx) (asn a : Nat) (f : Ctx → Ctx) (hf : ∀ c, (f c).asn = c.asn) :
    (l.map fun c => if c.asn = asn then f c else c).find? (fun c => c.asn == a) =
      (l.find? fun c => c.asn == a).map fun c => if c.asn = asn then f c else c := by
  induction l with
  | nil => rfl
  | cons c t ih =>
    have hc : (if c.asn = asn then f c else c).asn = c.asn := by split <;> simp [hf]
    simp only [List.map_cons, List.find?_cons, hc]
    split
    · rfl
    · exact ih

/-- The context of an ASN after a change of one. -/
theorem ctxOf_modCtx {s : State} {asn a : Nat} {f : Ctx → Ctx} (hf : ∀ c, (f c).asn = c.asn) :
    ctxOf (modCtx s asn f) a = (ctxOf s a).map fun c => if c.asn = asn then f c else c :=
  find_map_asn s.ctxs asn a f hf

theorem asn_of_ctxOf {s : State} {a : Nat} {c : Ctx} (h : ctxOf s a = some c) : c.asn = a := by
  have := List.find?_some h
  simpa using this

/-- The changed context. -/
theorem ctxOf_modCtx_self {s : State} {asn : Nat} {f : Ctx → Ctx} (hf : ∀ c, (f c).asn = c.asn) :
    ctxOf (modCtx s asn f) asn = (ctxOf s asn).map f := by
  rw [ctxOf_modCtx hf]
  cases h : ctxOf s asn with
  | none => rfl
  | some c => simp [asn_of_ctxOf h]

/-- Every other context is as before. -/
theorem ctxOf_modCtx_other {s : State} {asn a : Nat} {f : Ctx → Ctx} (hf : ∀ c, (f c).asn = c.asn) (h : a ≠ asn) :
    ctxOf (modCtx s asn f) a = ctxOf s a := by
  rw [ctxOf_modCtx hf]
  cases hc : ctxOf s a with
  | none => rfl
  | some c => simp [asn_of_ctxOf hc, h]

/-- A change of a context that leaves its cores alone. -/
theorem coreOf_modCtx {s : State} {asn a k : Nat} {f : Ctx → Ctx} (hf : ∀ c, (f c).asn = c.asn)
    (hc : ∀ c, (f c).cores = c.cores) : coreOf (modCtx s asn f) a k = coreOf s a k := by
  unfold coreOf
  rw [ctxOf_modCtx hf]
  cases ctxOf s a with
  | none => rfl
  | some c => simp only [Option.map_some, Option.bind_some]; split <;> simp [hc]

/-- The changed core. -/
theorem coreOf_modCore_self {s : State} {asn core : Nat} {f : Core → Core} :
    coreOf (modCore s asn core f) asn core = (coreOf s asn core).map f := by
  unfold modCore coreOf
  rw [ctxOf_modCtx_self (f := fun c => { c with cores := modAt c.cores core f }) fun _ => rfl]
  cases ctxOf s asn with
  | none => rfl
  | some c => simp [modAt, List.getElem?_modify_eq]

/-- Every other core is as before. -/
theorem coreOf_modCore_other {s : State} {asn core a k : Nat} {f : Core → Core} (h : ¬(a = asn ∧ k = core)) :
    coreOf (modCore s asn core f) a k = coreOf s a k := by
  unfold modCore coreOf
  rw [ctxOf_modCtx (f := fun c => { c with cores := modAt c.cores core f }) fun _ => rfl]
  cases hc : ctxOf s a with
  | none => rfl
  | some c =>
    simp only [Option.map_some, Option.bind_some]
    split
    · rename_i e
      have e' : a = asn := (asn_of_ctxOf hc).symm.trans e
      have : core ≠ k := fun e2 => h ⟨e', e2.symm⟩
      simp [modAt, this]
    · rfl

theorem coreOf_addOwnSem (s : State) (asn i n a k : Nat) : coreOf (addOwnSem s asn i n) a k = coreOf s a k :=
  coreOf_modCtx (fun _ => rfl) fun _ => rfl

theorem coreOf_addSem (s : State) (asn i n a k : Nat) : coreOf (addSem s asn i n) a k = coreOf s a k := by
  unfold addSem
  split
  · rfl
  · split
    · rfl
    · exact coreOf_addOwnSem ..

theorem coreOf_orFlags (s : State) (asn f a k : Nat) : coreOf (orFlags s asn f) a k = coreOf s a k :=
  coreOf_modCtx (fun _ => rfl) fun _ => rfl

/-- The first issue of a job is noted beside the cores. -/
theorem noteFirst_eq (e : Env) : ∃ f : Ctx → Ctx, (noteFirst e = e.s ∨ noteFirst e = modCtx e.s e.c.asn f) ∧
    (∀ c, (f c).asn = c.asn ∧ (f c).cores = c.cores ∧ (f c).sems = c.sems ∧ (f c).aliases = c.aliases ∧
      (f c).flags = c.flags ∧ (f c).clusters = c.clusters ∧ (f c).desc = c.desc ∧ (f c).counters = c.counters ∧
      (f c).set = c.set ∧ (f c).state = c.state) := by
  unfold noteFirst
  split
  · exact ⟨id, .inl rfl, fun c => by simp⟩
  · refine ⟨_, .inr rfl, fun c => ?_⟩
    dsimp only
    split <;> simp [Ctx.countLow, Ctx.count]

theorem coreOf_noteFirst (e : Env) (a k : Nat) : coreOf (noteFirst e) a k = coreOf e.s a k := by
  obtain ⟨f, h, hf⟩ := noteFirst_eq e
  rcases h with h | h
  · rw [h]
  · rw [h, coreOf_modCtx (fun c => (hf c).1) fun c => (hf c).2.1]

/-! ### The core an instruction runs on -/

/-- What an environment holds. -/
theorem envOf_facts {s : State} {asn core : Nat} {run : CoreRun} {e : Env} (h : envOf s asn core run = some e) :
    e.s = s ∧ e.core = core ∧ ctxOf s asn = some e.c ∧ e.c.asn = asn ∧ coreOf s asn core = some e.k ∧ e.c.job = some e.j ∧
      e.k.run = run ∧ e.c.seatedNow = true ∧ e.k.hold = none ∧ e.k.flight.any Flight.isPiece = false := by
  unfold envOf at h
  split at h
  · cases h
  · rename_i c hc
    split at h
    · rename_i j k hj hk
      split at h
      · rename_i hr
        cases h
        simp only [Bool.and_eq_true, beq_iff_eq, Bool.not_eq_true', Option.isNone_iff_eq_none] at hr
        obtain ⟨⟨⟨⟨h1, h2⟩, h3⟩, h4⟩, -⟩ := hr
        exact ⟨rfl, rfl, hc, asn_of_ctxOf hc, by simp [coreOf, hc, hk], hj, h2, h1, h3, h4⟩
      · cases h
    · cases h

/-! ### Reads -/

/-- What reads of memory can do to the state: the errors they meet change the dies' counters, the poison marks and the errors themselves
(R490, R491), and their data the traffic. -/
def Reads (s t : State) : Prop := ∃ d p l r, t = { s with dies := d, poison := p, cells := l, traffic := r }

theorem Reads.refl (s : State) : Reads s s := ⟨_, _, _, _, rfl⟩

theorem Reads.trans {r s t : State} (h : Reads r s) (k : Reads s t) : Reads r t := by
  obtain ⟨_, _, _, _, rfl⟩ := h
  obtain ⟨_, _, _, _, rfl⟩ := k
  exact ⟨_, _, _, _, rfl⟩

theorem Reads.foldl {α : Type} {f : State → α → State} (hf : ∀ s x, Reads s (f s x)) (xs : List α) (s : State) :
    Reads s (xs.foldl f s) := by
  induction xs generalizing s with
  | nil => exact .refl s
  | cons x t ih => exact (hf s x).trans (ih _)

theorem reads_meetCell (s : State) (c : CellError) : Reads s (meetCell s c) := by
  unfold meetCell
  dsimp only
  split
  · exact ⟨_, _, _, _, rfl⟩
  · exact ⟨_, _, _, _, rfl⟩

theorem reads_meetVirt (s : State) (asn va n : Nat) : Reads s (meetVirt s asn va n) := by
  unfold meetVirt
  split
  · exact .refl s
  · refine Reads.foldl (fun s x => ?_) _ s
    split
    · exact Reads.foldl reads_meetCell _ _
    · exact .refl s

theorem reads_sendOver (s : State) (l : List (Nat × Nat)) (n : Nat) : Reads s (sendOver s l n) := ⟨_, _, _, _, rfl⟩

theorem reads_timeRead (s : State) (ppn : Nat) : Reads s (timeRead s ppn) := by
  unfold timeRead
  split
  · exact ⟨_, _, _, _, rfl⟩
  · exact .refl s

theorem reads_coreReads (s : State) (d ppn : Nat) : Reads s (coreReads s d ppn) := by
  unfold coreReads dieReads
  split
  · exact (reads_sendOver ..).trans (reads_sendOver ..)
  · exact reads_sendOver ..

theorem reads_envReads (e : Env) (s : State) (ppn : Nat) : Reads s (e.reads s ppn) := by
  unfold Env.reads
  split
  · exact (reads_coreReads ..).trans (reads_timeRead ..)
  · exact reads_coreReads ..

theorem reads_eachPiece {asn va n : Nat} {f : State → Nat → Nat → State} (hf : ∀ s p m, Reads s (f s p m)) (s : State) :
    Reads s (eachPiece asn va n f s) := by
  refine Reads.foldl (fun s x => ?_) _ s
  split
  · exact hf ..
  · exact .refl s

theorem reads_noteReads (e : Env) (l : List Nat) (s : State) : Reads s (e.noteReads l s) := by
  refine Reads.foldl (fun s x => ?_) _ s
  split
  · exact reads_envReads ..
  · exact .refl s

theorem reads_noteWrites (e : Env) (l : List Run) (s : State) : Reads s (e.noteWrites l s) :=
  Reads.foldl (fun s _ => reads_eachPiece (fun _ _ _ => (reads_sendOver ..).trans (reads_sendOver ..)) s) _ s

/-- What runs on a core meets the errors in the cells it reads: nothing of its environment but that state differs. -/
theorem meets_env {α : Type} (f : Env → Except Halt α) (n : Nat) (e : Env) :
    ∃ t, e.meets f n = { e with s := t } ∧ Reads e.s t := by
  induction n generalizing e with
  | zero => exact ⟨e.s, rfl, .refl _⟩
  | succ n ih =>
    unfold Env.meets
    split
    · dsimp only
      split
      · obtain ⟨t, h, k⟩ := ih { e with s := _ }
        exact ⟨t, h, (reads_meetVirt ..).trans k⟩
      · exact ⟨e.s, rfl, .refl _⟩
    · exact ⟨e.s, rfl, .refl _⟩

theorem met_env {α : Type} (e : Env) (f : Env → Except Halt α) : ∃ t, e.met f = { e with s := t } ∧ Reads e.s t := meets_env f _ e

/-- What the environment of a row holds: the state after the fetch. -/
theorem rowEnv_facts {s : State} {asn core : Nat} {e : Env} (h : rowEnv s asn core = some e) :
    Reads s e.s ∧ e.core = core ∧ ctxOf s asn = some e.c ∧ e.c.asn = asn ∧
      coreOf s asn core = some e.k ∧ e.c.job = some e.j ∧ e.k.run = .running ∧ e.c.seatedNow = true ∧ e.k.hold = none ∧
      e.k.flight.any Flight.isPiece = false := by
  unfold rowEnv at h
  obtain ⟨e₀, h₀, rfl⟩ := Option.map_eq_some_iff.1 h
  obtain ⟨hs, h⟩ := envOf_facts h₀
  refine ⟨?_, h⟩
  rw [← hs]
  exact ((reads_meetVirt ..).trans (reads_eachPiece (fun s p _ => reads_envReads _ s p) _)).trans ⟨_, _, _, _, rfl⟩

/-- A row runs its body on a word of its own. -/
theorem tileRow_eq {s : State} {asn core w : Nat} {e : Env} {mine : Nat → Bool} {body : Env → Nat → State}
    (h : Fetches s asn core e w) (hm : mine w = true) : tileRow s asn core mine body = body e w := by
  simp [tileRow, h.env, h.word, h.header, hm]

/-- A sequencer instruction runs its body once it issues. -/
theorem seqRow_eq {s : State} {asn core w : Nat} {e : Env} {mine : Nat → Bool} {resv : List (Nat × Nat)} {drain : Bool}
    {regs : Nat → List Nat × List Nat} {body : Env → Nat → State} (h : Fetches s asn core e w) (hm : mine w = true)
    (hf : SeqFree e w resv (regs w).1 (regs w).2) (hd : drain = true → e.k.flight = []) :
    seqRow s asn core mine resv drain regs body = body e w := by
  unfold seqRow
  rw [tileRow_eq h hm]
  simp only [hf.reserved, Bool.not_true, Bool.false_eq_true, if_false, hf.free]
  cases drain with
  | false => simp
  | true => simp [hd rfl]

/-- A unit instruction that issues takes its place in flight, and what may start of its core does. -/
theorem unitRow_eq {s : State} {asn core w : Nat} {e e₁ : Env} {mine : Nat → Bool} {ops : UnitOps} {pr : Prep} {i : Issued}
    (h : Fetches s asn core e w) (hm : mine w = true) (ho : unitOps w = some ops) (hi : Issues ops e e₁ w pr i) :
    unitRow s asn core mine = goCore e₁.c.asn e₁.core (placed ops e₁ w pr i) := by
  unfold unitRow
  rw [tileRow_eq h hm]
  simp only [unitBody, ho, hi.prep, hi.free, Bool.false_eq_true, if_false, ← hi.met, hi.check]
  rfl

/-! ### Semaphores -/

/-- A change of contexts that leaves semaphores and aliases alone leaves every count. -/
theorem semCount_congr {s t : State} (h : ∀ a, (ctxOf t a).map (fun c => (c.asn, c.sems, c.aliases)) =
    (ctxOf s a).map fun c => (c.asn, c.sems, c.aliases)) (a i : Nat) : semCount t a i = semCount s a i := by
  unfold semCount
  have ha := h a
  cases hs : ctxOf s a with
  | none => rw [hs] at ha; simp at ha; rw [ha]
  | some c =>
    cases ht : ctxOf t a with
    | none => rw [hs, ht] at ha; simp at ha
    | some d =>
      rw [hs, ht] at ha
      simp only [Option.map_some, Option.some.injEq, Prod.mk.injEq] at ha
      obtain ⟨h1, h2, h3⟩ := ha
      have htgt : semTarget d i = semTarget c i := by unfold semTarget; rw [h3, h1]
      simp only [htgt]
      split
      · rfl
      · rename_i o j _
        have ho := h o
        cases hs' : ctxOf s o with
        | none => rw [hs'] at ho; simp at ho; rw [ho]
        | some c' =>
          cases ht' : ctxOf t o with
          | none => rw [hs', ht'] at ho; simp at ho
          | some d' =>
            rw [hs', ht'] at ho
            simp only [Option.map_some, Option.some.injEq, Prod.mk.injEq] at ho
            simp [ho.2.1]

/-! ### Registers and host queues -/

/-- A register reads what was last stored in it. -/
theorem assocD_assocSet_self {α : Type} (l : List (Nat × α)) (k : Nat) (v d : α) : assocD (assocSet l k v) k d = v := by
  induction l with
  | nil => simp [assocSet, assocD]
  | cons x t ih =>
    obtain ⟨j, w⟩ := x
    unfold assocSet
    split
    · simp [assocD]
    · split
      · simp [assocD]
      · rename_i h
        simp [assocD, Ne.symm h, ih]

/-- Every other key keeps its value. -/
theorem assocD_assocSet_other {α : Type} (l : List (Nat × α)) {k j : Nat} (v d : α) (h : j ≠ k) :
    assocD (assocSet l k v) j d = assocD l j d := by
  induction l with
  | nil => simp [assocSet, assocD, Ne.symm h]
  | cons x t ih =>
    obtain ⟨i, w⟩ := x
    unfold assocSet
    split
    · simp [assocD, Ne.symm h]
    · split
      · rename_i e
        subst e
        simp [assocD, Ne.symm h]
      · simp only [assocD, ih]

theorem getReg_setReg_self (s : State) (off : Nat) (v : Word) : getReg (setReg s off v) off = v :=
  assocD_assocSet_self ..

theorem getReg_setReg_other (s : State) {off o : Nat} (v : Word) (h : o ≠ off) : getReg (setReg s off v) o = getReg s o :=
  assocD_assocSet_other _ _ _ h

theorem getQ_setQ_self (s : State) (q : Nat) (v : HostQueue) : getQ (setQ s q v) q = v := assocD_assocSet_self ..

theorem getQ_setQ_other (s : State) {q r : Nat} (v : HostQueue) (h : r ≠ q) : getQ (setQ s q v) r = getQ s r :=
  assocD_assocSet_other _ _ _ h

end Sys2Proof.Machine
end

