-- ==== Sys2Proof/Laws/Exec.lean ====
section
/-! SUPPORT. Laws/Exec.lean: what each command keeps: the queue, the invariant, the timebase, and every part that its list of parts
does not name. -/

namespace Sys2Proof.Machine

/-- Membership in a list of parts, as a proposition that computes. -/
def Part.among (l : List Part) (x : Part) : Prop := if x ∈ l then True else False

/-- The next state of an event is what its meaning gives. -/
theorem event_inv {b : Bool} {s t : State} {f : State → State} (h : event b s f = .next t) : t = f s := by
  unfold event at h; split at h
  · exact (Host.Outcome.next.inj h).symm
  · cases h


theorem exec_endProg_keeps {s t : State} {asn core} (hx : exec (.endProg asn core) s = .next t) :
    Keeps (Part.among (Instr.parts (.endProg asn core))) s t := by
  change execEndProg asn core s = _ at hx
  unfold execEndProg at hx
  rw [event_inv hx]
  have hk : Keeps (Part.among (Instr.parts (.endProg asn core))) s s := Keeps.refl s
  try dsimp only
  repeat' (first | with_reducible assumption | with_reducible apply keeps_endProg | exact trivial | intro _ | split)

theorem exec_loop_keeps {s t : State} {asn core} (hx : exec (.loop asn core) s = .next t) :
    Keeps (Part.among (Instr.parts (.loop asn core))) s t := by
  change execLoop asn core s = _ at hx
  unfold execLoop at hx
  rw [event_inv hx]
  have hk : Keeps (Part.among (Instr.parts (.loop asn core))) s s := Keeps.refl s
  try dsimp only
  repeat' (first | with_reducible assumption | with_reducible apply keeps_loop | exact trivial | intro _ | split)

theorem exec_branch_keeps {s t : State} {asn core} (hx : exec (.branch asn core) s = .next t) :
    Keeps (Part.among (Instr.parts (.branch asn core))) s t := by
  change execBranch asn core s = _ at hx
  unfold execBranch at hx
  rw [event_inv hx]
  have hk : Keeps (Part.among (Instr.parts (.branch asn core))) s s := Keeps.refl s
  try dsimp only
  repeat' (first | with_reducible assumption | with_reducible apply keeps_branch | exact trivial | intro _ | split)

theorem exec_waitConsume_keeps {s t : State} {asn core} (hx : exec (.waitConsume asn core) s = .next t) :
    Keeps (Part.among (Instr.parts (.waitConsume asn core))) s t := by
  change execWaitConsume asn core s = _ at hx
  unfold execWaitConsume at hx
  rw [event_inv hx]
  have hk : Keeps (Part.among (Instr.parts (.waitConsume asn core))) s s := Keeps.refl s
  try dsimp only
  repeat' (first | with_reducible assumption | with_reducible apply keeps_waitRow | exact trivial | intro _ | split)

theorem exec_waitPeek_keeps {s t : State} {asn core} (hx : exec (.waitPeek asn core) s = .next t) :
    Keeps (Part.among (Instr.parts (.waitPeek asn core))) s t := by
  change execWaitPeek asn core s = _ at hx
  unfold execWaitPeek at hx
  rw [event_inv hx]
  have hk : Keeps (Part.among (Instr.parts (.waitPeek asn core))) s s := Keeps.refl s
  try dsimp only
  repeat' (first | with_reducible assumption | with_reducible apply keeps_waitRow | exact trivial | intro _ | split)

theorem exec_signal_keeps {s t : State} {asn core} (hx : exec (.signal asn core) s = .next t) :
    Keeps (Part.among (Instr.parts (.signal asn core))) s t := by
  change execSignal asn core s = _ at hx
  unfold execSignal at hx
  rw [event_inv hx]
  have hk : Keeps (Part.among (Instr.parts (.signal asn core))) s s := Keeps.refl s
  try dsimp only
  repeat' (first | with_reducible assumption | with_reducible apply keeps_signal | exact trivial | intro _ | split)

theorem exec_fence_keeps {s t : State} {asn core} (hx : exec (.fence asn core) s = .next t) :
    Keeps (Part.among (Instr.parts (.fence asn core))) s t := by
  change execFence asn core s = _ at hx
  unfold execFence at hx
  rw [event_inv hx]
  have hk : Keeps (Part.among (Instr.parts (.fence asn core))) s s := Keeps.refl s
  try dsimp only
  repeat' (first | with_reducible assumption | with_reducible apply keeps_fence | exact trivial | intro _ | split)

theorem exec_trig_keeps {s t : State} {asn core} (hx : exec (.trig asn core) s = .next t) :
    Keeps (Part.among (Instr.parts (.trig asn core))) s t := by
  change execTrig asn core s = _ at hx
  unfold execTrig at hx
  rw [event_inv hx]
  have hk : Keeps (Part.among (Instr.parts (.trig asn core))) s s := Keeps.refl s
  try dsimp only
  repeat' (first | with_reducible assumption | with_reducible apply keeps_trig | exact trivial | intro _ | split)

theorem exec_stint_keeps {s t : State} {asn core} (hx : exec (.stint asn core) s = .next t) :
    Keeps (Part.among (Instr.parts (.stint asn core))) s t := by
  change execStint asn core s = _ at hx
  unfold execStint at hx
  rw [event_inv hx]
  have hk : Keeps (Part.among (Instr.parts (.stint asn core))) s s := Keeps.refl s
  try dsimp only
  repeat' (first | with_reducible assumption | with_reducible apply keeps_stint | exact trivial | intro _ | split)

theorem exec_loadCopy_keeps {s t : State} {asn core} (hx : exec (.loadCopy asn core) s = .next t) :
    Keeps (Part.among (Instr.parts (.loadCopy asn core))) s t := by
  change execLoadCopy asn core s = _ at hx
  unfold execLoadCopy at hx
  rw [event_inv hx]
  have hk : Keeps (Part.among (Instr.parts (.loadCopy asn core))) s s := Keeps.refl s
  try dsimp only
  repeat' (first | with_reducible assumption | with_reducible apply keeps_unitRow | exact trivial | intro _ | split)

theorem exec_loadXreg_keeps {s t : State} {asn core} (hx : exec (.loadXreg asn core) s = .next t) :
    Keeps (Part.among (Instr.parts (.loadXreg asn core))) s t := by
  change execLoadXreg asn core s = _ at hx
  unfold execLoadXreg at hx
  rw [event_inv hx]
  have hk : Keeps (Part.among (Instr.parts (.loadXreg asn core))) s s := Keeps.refl s
  try dsimp only
  repeat' (first | with_reducible assumption | with_reducible apply keeps_unitRow | exact trivial | intro _ | split)

theorem exec_storeCopy_keeps {s t : State} {asn core} (hx : exec (.storeCopy asn core) s = .next t) :
    Keeps (Part.among (Instr.parts (.storeCopy asn core))) s t := by
  change execStoreCopy asn core s = _ at hx
  unfold execStoreCopy at hx
  rw [event_inv hx]
  have hk : Keeps (Part.among (Instr.parts (.storeCopy asn core))) s s := Keeps.refl s
  try dsimp only
  repeat' (first | with_reducible assumption | with_reducible apply keeps_unitRow | exact trivial | intro _ | split)

theorem exec_storeAddInt32_keeps {s t : State} {asn core} (hx : exec (.storeAddInt32 asn core) s = .next t) :
    Keeps (Part.among (Instr.parts (.storeAddInt32 asn core))) s t := by
  change execStoreAddInt32 asn core s = _ at hx
  unfold execStoreAddInt32 at hx
  rw [event_inv hx]
  have hk : Keeps (Part.among (Instr.parts (.storeAddInt32 asn core))) s s := Keeps.refl s
  try dsimp only
  repeat' (first | with_reducible assumption | with_reducible apply keeps_unitRow | exact trivial | intro _ | split)

theorem exec_storeMinInt32_keeps {s t : State} {asn core} (hx : exec (.storeMinInt32 asn core) s = .next t) :
    Keeps (Part.among (Instr.parts (.storeMinInt32 asn core))) s t := by
  change execStoreMinInt32 asn core s = _ at hx
  unfold execStoreMinInt32 at hx
  rw [event_inv hx]
  have hk : Keeps (Part.among (Instr.parts (.storeMinInt32 asn core))) s s := Keeps.refl s
  try dsimp only
  repeat' (first | with_reducible assumption | with_reducible apply keeps_unitRow | exact trivial | intro _ | split)

theorem exec_storeMaxInt32_keeps {s t : State} {asn core} (hx : exec (.storeMaxInt32 asn core) s = .next t) :
    Keeps (Part.among (Instr.parts (.storeMaxInt32 asn core))) s t := by
  change execStoreMaxInt32 asn core s = _ at hx
  unfold execStoreMaxInt32 at hx
  rw [event_inv hx]
  have hk : Keeps (Part.among (Instr.parts (.storeMaxInt32 asn core))) s s := Keeps.refl s
  try dsimp only
  repeat' (first | with_reducible assumption | with_reducible apply keeps_unitRow | exact trivial | intro _ | split)

theorem exec_storeCas_keeps {s t : State} {asn core} (hx : exec (.storeCas asn core) s = .next t) :
    Keeps (Part.among (Instr.parts (.storeCas asn core))) s t := by
  change execStoreCas asn core s = _ at hx
  unfold execStoreCas at hx
  rw [event_inv hx]
  have hk : Keeps (Part.among (Instr.parts (.storeCas asn core))) s s := Keeps.refl s
  try dsimp only
  repeat' (first | with_reducible assumption | with_reducible apply keeps_unitRow | exact trivial | intro _ | split)

theorem exec_storeAddFloat_keeps {s t : State} {asn core} (hx : exec (.storeAddFloat asn core) s = .next t) :
    Keeps (Part.among (Instr.parts (.storeAddFloat asn core))) s t := by
  change execStoreAddFloat asn core s = _ at hx
  unfold execStoreAddFloat at hx
  rw [event_inv hx]
  have hk : Keeps (Part.among (Instr.parts (.storeAddFloat asn core))) s s := Keeps.refl s
  try dsimp only
  repeat' (first | with_reducible assumption | with_reducible apply keeps_unitRow | exact trivial | intro _ | split)

theorem exec_storeOrdered_keeps {s t : State} {asn core} (hx : exec (.storeOrdered asn core) s = .next t) :
    Keeps (Part.among (Instr.parts (.storeOrdered asn core))) s t := by
  change execStoreOrdered asn core s = _ at hx
  unfold execStoreOrdered at hx
  rw [event_inv hx]
  have hk : Keeps (Part.among (Instr.parts (.storeOrdered asn core))) s s := Keeps.refl s
  try dsimp only
  repeat' (first | with_reducible assumption | with_reducible apply keeps_unitRow | exact trivial | intro _ | split)

theorem exec_storeAddInt64_keeps {s t : State} {asn core} (hx : exec (.storeAddInt64 asn core) s = .next t) :
    Keeps (Part.among (Instr.parts (.storeAddInt64 asn core))) s t := by
  change execStoreAddInt64 asn core s = _ at hx
  unfold execStoreAddInt64 at hx
  rw [event_inv hx]
  have hk : Keeps (Part.among (Instr.parts (.storeAddInt64 asn core))) s s := Keeps.refl s
  try dsimp only
  repeat' (first | with_reducible assumption | with_reducible apply keeps_unitRow | exact trivial | intro _ | split)

theorem exec_decantFromVirtual_keeps {s t : State} {asn core} (hx : exec (.decantFromVirtual asn core) s = .next t) :
    Keeps (Part.among (Instr.parts (.decantFromVirtual asn core))) s t := by
  change execDecantFromVirtual asn core s = _ at hx
  unfold execDecantFromVirtual at hx
  rw [event_inv hx]
  have hk : Keeps (Part.among (Instr.parts (.decantFromVirtual asn core))) s s := Keeps.refl s
  try dsimp only
  repeat' (first | with_reducible assumption | with_reducible apply keeps_decantBody | with_reducible apply keeps_tileRow | exact trivial | intro _ | split)

theorem exec_decantFromHost_keeps {s t : State} {asn core} (hx : exec (.decantFromHost asn core) s = .next t) :
    Keeps (Part.among (Instr.parts (.decantFromHost asn core))) s t := by
  change execDecantFromHost asn core s = _ at hx
  unfold execDecantFromHost at hx
  rw [event_inv hx]
  have hk : Keeps (Part.among (Instr.parts (.decantFromHost asn core))) s s := Keeps.refl s
  try dsimp only
  repeat' (first | with_reducible assumption | with_reducible apply keeps_decantBody | with_reducible apply keeps_tileRow | exact trivial | intro _ | split)

theorem exec_leesCheck_keeps {s t : State} {asn core} (hx : exec (.leesCheck asn core) s = .next t) :
    Keeps (Part.among (Instr.parts (.leesCheck asn core))) s t := by
  change execLeesCheck asn core s = _ at hx
  unfold execLeesCheck at hx
  rw [event_inv hx]
  have hk : Keeps (Part.among (Instr.parts (.leesCheck asn core))) s s := Keeps.refl s
  try dsimp only
  repeat' (first | with_reducible assumption | with_reducible apply keeps_unitRow | exact trivial | intro _ | split)

theorem exec_matProd_keeps {s t : State} {asn core} (hx : exec (.matProd asn core) s = .next t) :
    Keeps (Part.among (Instr.parts (.matProd asn core))) s t := by
  change execMatProd asn core s = _ at hx
  unfold execMatProd at hx
  rw [event_inv hx]
  have hk : Keeps (Part.among (Instr.parts (.matProd asn core))) s s := Keeps.refl s
  try dsimp only
  repeat' (first | with_reducible assumption | with_reducible apply keeps_epochRow | exact trivial | intro _ | split)

theorem exec_attnWindow_keeps {s t : State} {asn core} (hx : exec (.attnWindow asn core) s = .next t) :
    Keeps (Part.among (Instr.parts (.attnWindow asn core))) s t := by
  change execAttnWindow asn core s = _ at hx
  unfold execAttnWindow at hx
  rw [event_inv hx]
  have hk : Keeps (Part.among (Instr.parts (.attnWindow asn core))) s s := Keeps.refl s
  try dsimp only
  repeat' (first | with_reducible assumption | with_reducible apply keeps_unitRow | exact trivial | intro _ | split)

theorem exec_attnCross_keeps {s t : State} {asn core} (hx : exec (.attnCross asn core) s = .next t) :
    Keeps (Part.among (Instr.parts (.attnCross asn core))) s t := by
  change execAttnCross asn core s = _ at hx
  unfold execAttnCross at hx
  rw [event_inv hx]
  have hk : Keeps (Part.among (Instr.parts (.attnCross asn core))) s s := Keeps.refl s
  try dsimp only
  repeat' (first | with_reducible assumption | with_reducible apply keeps_unitRow | exact trivial | intro _ | split)

theorem exec_attnPiece_keeps {s t : State} {asn core} (hx : exec (.attnPiece asn core) s = .next t) :
    Keeps (Part.among (Instr.parts (.attnPiece asn core))) s t := by
  change execAttnPiece asn core s = _ at hx
  unfold execAttnPiece at hx
  rw [event_inv hx]
  have hk : Keeps (Part.among (Instr.parts (.attnPiece asn core))) s s := Keeps.refl s
  try dsimp only
  repeat' (first | with_reducible assumption | with_reducible apply keeps_unitRow | exact trivial | intro _ | split)

theorem exec_convolve_keeps {s t : State} {asn core} (hx : exec (.convolve asn core) s = .next t) :
    Keeps (Part.among (Instr.parts (.convolve asn core))) s t := by
  change execConvolve asn core s = _ at hx
  unfold execConvolve at hx
  rw [event_inv hx]
  have hk : Keeps (Part.among (Instr.parts (.convolve asn core))) s s := Keeps.refl s
  try dsimp only
  repeat' (first | with_reducible assumption | with_reducible apply keeps_unitRow | exact trivial | intro _ | split)

theorem exec_poolMax_keeps {s t : State} {asn core} (hx : exec (.poolMax asn core) s = .next t) :
    Keeps (Part.among (Instr.parts (.poolMax asn core))) s t := by
  change execPoolMax asn core s = _ at hx
  unfold execPoolMax at hx
  rw [event_inv hx]
  have hk : Keeps (Part.among (Instr.parts (.poolMax asn core))) s s := Keeps.refl s
  try dsimp only
  repeat' (first | with_reducible assumption | with_reducible apply keeps_unitRow | exact trivial | intro _ | split)

theorem exec_poolAvg_keeps {s t : State} {asn core} (hx : exec (.poolAvg asn core) s = .next t) :
    Keeps (Part.among (Instr.parts (.poolAvg asn core))) s t := by
  change execPoolAvg asn core s = _ at hx
  unfold execPoolAvg at hx
  rw [event_inv hx]
  have hk : Keeps (Part.among (Instr.parts (.poolAvg asn core))) s s := Keeps.refl s
  try dsimp only
  repeat' (first | with_reducible assumption | with_reducible apply keeps_unitRow | exact trivial | intro _ | split)

theorem exec_poolNearest_keeps {s t : State} {asn core} (hx : exec (.poolNearest asn core) s = .next t) :
    Keeps (Part.among (Instr.parts (.poolNearest asn core))) s t := by
  change execPoolNearest asn core s = _ at hx
  unfold execPoolNearest at hx
  rw [event_inv hx]
  have hk : Keeps (Part.among (Instr.parts (.poolNearest asn core))) s s := Keeps.refl s
  try dsimp only
  repeat' (first | with_reducible assumption | with_reducible apply keeps_unitRow | exact trivial | intro _ | split)

theorem exec_foldStats_keeps {s t : State} {asn core} (hx : exec (.foldStats asn core) s = .next t) :
    Keeps (Part.among (Instr.parts (.foldStats asn core))) s t := by
  change execFoldStats asn core s = _ at hx
  unfold execFoldStats at hx
  rw [event_inv hx]
  have hk : Keeps (Part.among (Instr.parts (.foldStats asn core))) s s := Keeps.refl s
  try dsimp only
  repeat' (first | with_reducible assumption | with_reducible apply keeps_unitRow | exact trivial | intro _ | split)

theorem exec_foldMerge_keeps {s t : State} {asn core} (hx : exec (.foldMerge asn core) s = .next t) :
    Keeps (Part.among (Instr.parts (.foldMerge asn core))) s t := by
  change execFoldMerge asn core s = _ at hx
  unfold execFoldMerge at hx
  rw [event_inv hx]
  have hk : Keeps (Part.among (Instr.parts (.foldMerge asn core))) s s := Keeps.refl s
  try dsimp only
  repeat' (first | with_reducible assumption | with_reducible apply keeps_unitRow | exact trivial | intro _ | split)

theorem exec_foldNorm_keeps {s t : State} {asn core} (hx : exec (.foldNorm asn core) s = .next t) :
    Keeps (Part.among (Instr.parts (.foldNorm asn core))) s t := by
  change execFoldNorm asn core s = _ at hx
  unfold execFoldNorm at hx
  rw [event_inv hx]
  have hk : Keeps (Part.among (Instr.parts (.foldNorm asn core))) s s := Keeps.refl s
  try dsimp only
  repeat' (first | with_reducible assumption | with_reducible apply keeps_unitRow | exact trivial | intro _ | split)

theorem exec_vecEw_keeps {s t : State} {asn core} (hx : exec (.vecEw asn core) s = .next t) :
    Keeps (Part.among (Instr.parts (.vecEw asn core))) s t := by
  change execVecEw asn core s = _ at hx
  unfold execVecEw at hx
  rw [event_inv hx]
  have hk : Keeps (Part.among (Instr.parts (.vecEw asn core))) s s := Keeps.refl s
  try dsimp only
  repeat' (first | with_reducible assumption | with_reducible apply keeps_unitRow | exact trivial | intro _ | split)

theorem exec_vecRowb_keeps {s t : State} {asn core} (hx : exec (.vecRowb asn core) s = .next t) :
    Keeps (Part.among (Instr.parts (.vecRowb asn core))) s t := by
  change execVecRowb asn core s = _ at hx
  unfold execVecRowb at hx
  rw [event_inv hx]
  have hk : Keeps (Part.among (Instr.parts (.vecRowb asn core))) s s := Keeps.refl s
  try dsimp only
  repeat' (first | with_reducible assumption | with_reducible apply keeps_unitRow | exact trivial | intro _ | split)

theorem exec_vecColb_keeps {s t : State} {asn core} (hx : exec (.vecColb asn core) s = .next t) :
    Keeps (Part.among (Instr.parts (.vecColb asn core))) s t := by
  change execVecColb asn core s = _ at hx
  unfold execVecColb at hx
  rw [event_inv hx]
  have hk : Keeps (Part.among (Instr.parts (.vecColb asn core))) s s := Keeps.refl s
  try dsimp only
  repeat' (first | with_reducible assumption | with_reducible apply keeps_unitRow | exact trivial | intro _ | split)

theorem exec_vecReduce_keeps {s t : State} {asn core} (hx : exec (.vecReduce asn core) s = .next t) :
    Keeps (Part.among (Instr.parts (.vecReduce asn core))) s t := by
  change execVecReduce asn core s = _ at hx
  unfold execVecReduce at hx
  rw [event_inv hx]
  have hk : Keeps (Part.among (Instr.parts (.vecReduce asn core))) s s := Keeps.refl s
  try dsimp only
  repeat' (first | with_reducible assumption | with_reducible apply keeps_unitRow | exact trivial | intro _ | split)

theorem exec_vecScalar_keeps {s t : State} {asn core} (hx : exec (.vecScalar asn core) s = .next t) :
    Keeps (Part.among (Instr.parts (.vecScalar asn core))) s t := by
  change execVecScalar asn core s = _ at hx
  unfold execVecScalar at hx
  rw [event_inv hx]
  have hk : Keeps (Part.among (Instr.parts (.vecScalar asn core))) s s := Keeps.refl s
  try dsimp only
  repeat' (first | with_reducible assumption | with_reducible apply keeps_vecScalar | exact trivial | intro _ | split)

theorem exec_funcApply_keeps {s t : State} {asn core} (hx : exec (.funcApply asn core) s = .next t) :
    Keeps (Part.among (Instr.parts (.funcApply asn core))) s t := by
  change execFuncApply asn core s = _ at hx
  unfold execFuncApply at hx
  rw [event_inv hx]
  have hk : Keeps (Part.among (Instr.parts (.funcApply asn core))) s s := Keeps.refl s
  try dsimp only
  repeat' (first | with_reducible assumption | with_reducible apply keeps_epochRow | exact trivial | intro _ | split)

theorem exec_funcReload_keeps {s t : State} {asn core} (hx : exec (.funcReload asn core) s = .next t) :
    Keeps (Part.among (Instr.parts (.funcReload asn core))) s t := by
  change execFuncReload asn core s = _ at hx
  unfold execFuncReload at hx
  rw [event_inv hx]
  have hk : Keeps (Part.among (Instr.parts (.funcReload asn core))) s s := Keeps.refl s
  try dsimp only
  repeat' (first | with_reducible assumption | with_reducible apply keeps_unitRow | exact trivial | intro _ | split)

theorem exec_blendRun_keeps {s t : State} {asn core} (hx : exec (.blendRun asn core) s = .next t) :
    Keeps (Part.among (Instr.parts (.blendRun asn core))) s t := by
  change execBlendRun asn core s = _ at hx
  unfold execBlendRun at hx
  rw [event_inv hx]
  have hk : Keeps (Part.among (Instr.parts (.blendRun asn core))) s s := Keeps.refl s
  try dsimp only
  repeat' (first | with_reducible assumption | with_reducible apply keeps_unitRow | exact trivial | intro _ | split)

theorem exec_blendLoad_keeps {s t : State} {asn core} (hx : exec (.blendLoad asn core) s = .next t) :
    Keeps (Part.among (Instr.parts (.blendLoad asn core))) s t := by
  change execBlendLoad asn core s = _ at hx
  unfold execBlendLoad at hx
  rw [event_inv hx]
  have hk : Keeps (Part.among (Instr.parts (.blendLoad asn core))) s s := Keeps.refl s
  try dsimp only
  repeat' (first | with_reducible assumption | with_reducible apply keeps_unitRow | exact trivial | intro _ | split)

theorem exec_instructionComplete_keeps {s t : State} {asn core done} (hx : exec (.instructionComplete asn core done) s = .next t) :
    Keeps (Part.among (Instr.parts (.instructionComplete asn core done))) s t := by
  change execInstructionComplete asn core done s = _ at hx
  unfold execInstructionComplete at hx
  rw [event_inv hx]
  have hk : Keeps (Part.among (Instr.parts (.instructionComplete asn core done))) s s := Keeps.refl s
  try dsimp only
  repeat' (first | with_reducible assumption | with_reducible apply keeps_instructionComplete | exact trivial | intro _ | split)

theorem exec_tasterVerdict_keeps {s t : State} {asn cluster} (hx : exec (.tasterVerdict asn cluster) s = .next t) :
    Keeps (Part.among (Instr.parts (.tasterVerdict asn cluster))) s t := by
  change execTasterVerdict asn cluster s = _ at hx
  unfold execTasterVerdict at hx
  rw [event_inv hx]
  have hk : Keeps (Part.among (Instr.parts (.tasterVerdict asn cluster))) s s := Keeps.refl s
  try dsimp only
  repeat' (first | with_reducible assumption | with_reducible apply keeps_tasterVerdict | exact trivial | intro _ | split)

theorem exec_promotionDone_keeps {s t : State} {asn vpn} (hx : exec (.promotionDone asn vpn) s = .next t) :
    Keeps (Part.among (Instr.parts (.promotionDone asn vpn))) s t := by
  change execPromotionDone asn vpn s = _ at hx
  unfold execPromotionDone at hx
  rw [event_inv hx]
  have hk : Keeps (Part.among (Instr.parts (.promotionDone asn vpn))) s s := Keeps.refl s
  try dsimp only
  repeat' (first | with_reducible assumption | with_reducible apply keeps_goCtx | with_reducible apply keeps_promotionDone | exact trivial | intro _ | split)

theorem exec_waitSatisfied_keeps {s t : State} {asn sem} (hx : exec (.waitSatisfied asn sem) s = .next t) :
    Keeps (Part.among (Instr.parts (.waitSatisfied asn sem))) s t := by
  change execWaitSatisfied asn sem s = _ at hx
  unfold execWaitSatisfied at hx
  rw [event_inv hx]
  have hk : Keeps (Part.among (Instr.parts (.waitSatisfied asn sem))) s s := Keeps.refl s
  try dsimp only
  repeat' (first | with_reducible assumption | with_reducible apply keeps_waitSatisfied | exact trivial | intro _ | split)

theorem exec_pieceLandingReady_keeps {s t : State} {asn core id} (hx : exec (.pieceLandingReady asn core id) s = .next t) :
    Keeps (Part.among (Instr.parts (.pieceLandingReady asn core id))) s t := by
  change execPieceLandingReady asn core id s = _ at hx
  unfold execPieceLandingReady at hx
  rw [event_inv hx]
  have hk : Keeps (Part.among (Instr.parts (.pieceLandingReady asn core id))) s s := Keeps.refl s
  try dsimp only
  repeat' (first | with_reducible assumption | with_reducible apply keeps_pieceLandingReady | exact trivial | intro _ | split)

theorem exec_orderedTurn_keeps {s t : State} {asn core id} (hx : exec (.orderedTurn asn core id) s = .next t) :
    Keeps (Part.among (Instr.parts (.orderedTurn asn core id))) s t := by
  change execOrderedTurn asn core id s = _ at hx
  unfold execOrderedTurn at hx
  rw [event_inv hx]
  have hk : Keeps (Part.among (Instr.parts (.orderedTurn asn core id))) s s := Keeps.refl s
  try dsimp only
  repeat' (first | with_reducible assumption | with_reducible apply keeps_orderedTurn | exact trivial | intro _ | split)

theorem exec_decantAccepted_keeps {s t : State} {asn core} (hx : exec (.decantAccepted asn core) s = .next t) :
    Keeps (Part.among (Instr.parts (.decantAccepted asn core))) s t := by
  change execDecantAccepted asn core s = _ at hx
  unfold execDecantAccepted at hx
  rw [event_inv hx]
  have hk : Keeps (Part.among (Instr.parts (.decantAccepted asn core))) s s := Keeps.refl s
  try dsimp only
  repeat' (first | with_reducible assumption | with_reducible apply keeps_decantAccepted | exact trivial | intro _ | split)

theorem exec_decantPageDone_keeps {s t : State} {id host} (hx : exec (.decantPageDone id host) s = .next t) :
    Keeps (Part.among (Instr.parts (.decantPageDone id host))) s t := by
  change execDecantPageDone id host s = _ at hx
  unfold execDecantPageDone at hx
  rw [event_inv hx]
  have hk : Keeps (Part.among (Instr.parts (.decantPageDone id host))) s s := Keeps.refl s
  try dsimp only
  repeat' (first | with_reducible assumption | with_reducible apply keeps_decantPage | exact trivial | intro _ | split)

theorem exec_stintOverrun_keeps {s t : State} {asn core} (hx : exec (.stintOverrun asn core) s = .next t) :
    Keeps (Part.among (Instr.parts (.stintOverrun asn core))) s t := by
  change execStintOverrun asn core s = _ at hx
  unfold execStintOverrun at hx
  rw [event_inv hx]
  have hk : Keeps (Part.among (Instr.parts (.stintOverrun asn core))) s s := Keeps.refl s
  try dsimp only
  repeat' (first | with_reducible assumption | with_reducible apply keeps_stintOverrun | exact trivial | intro _ | split)

theorem exec_fabricHang_keeps {s t : State} {die} (hx : exec (.fabricHang die) s = .next t) :
    Keeps (Part.among (Instr.parts (.fabricHang die))) s t := by
  change execFabricHang die s = _ at hx
  unfold execFabricHang at hx
  rw [event_inv hx]
  have hk : Keeps (Part.among (Instr.parts (.fabricHang die))) s s := Keeps.refl s
  try dsimp only
  repeat' (first | with_reducible assumption | with_reducible apply keeps_fabricHang | exact trivial | intro _ | split)

theorem exec_dieLogicResetDone_keeps {s t : State} {die} (hx : exec (.dieLogicResetDone die) s = .next t) :
    Keeps (Part.among (Instr.parts (.dieLogicResetDone die))) s t := by
  change execDieLogicResetDone die s = _ at hx
  unfold execDieLogicResetDone at hx
  rw [event_inv hx]
  have hk : Keeps (Part.among (Instr.parts (.dieLogicResetDone die))) s s := Keeps.refl s
  try dsimp only
  repeat' (first | with_reducible assumption | with_reducible apply keeps_dieLogicResetDone | exact trivial | intro _ | split)

theorem exec_builtInTestDone_keeps {s t : State} {die findings} (hx : exec (.builtInTestDone die findings) s = .next t) :
    Keeps (Part.among (Instr.parts (.builtInTestDone die findings))) s t := by
  change execBuiltInTestDone die findings s = _ at hx
  unfold execBuiltInTestDone at hx
  rw [event_inv hx]
  have hk : Keeps (Part.among (Instr.parts (.builtInTestDone die findings))) s s := Keeps.refl s
  try dsimp only
  repeat' (first | with_reducible assumption | with_reducible apply keeps_builtInTestDone | exact trivial | intro _ | split)

theorem exec_jobComplete_keeps {s t : State} {asn} (hx : exec (.jobComplete asn) s = .next t) :
    Keeps (Part.among (Instr.parts (.jobComplete asn))) s t := by
  change execJobComplete asn s = _ at hx
  unfold execJobComplete at hx
  rw [event_inv hx]
  have hk : Keeps (Part.among (Instr.parts (.jobComplete asn))) s s := Keeps.refl s
  try dsimp only
  repeat' (first | with_reducible assumption | with_reducible apply keeps_jobComplete | exact trivial | intro _ | split)

theorem exec_seatingDecision_keeps {s t : State} (hx : exec (.seatingDecision) s = .next t) :
    Keeps (Part.among (Instr.parts (.seatingDecision))) s t := by
  change execSeatingDecision  s = _ at hx
  unfold execSeatingDecision at hx
  rw [event_inv hx]
  have hk : Keeps (Part.among (Instr.parts (.seatingDecision))) s s := Keeps.refl s
  try dsimp only
  repeat' (first | with_reducible assumption | with_reducible apply keeps_seatingDecision | exact trivial | intro _ | split)

theorem exec_sliceExpiry_keeps {s t : State} {asn} (hx : exec (.sliceExpiry asn) s = .next t) :
    Keeps (Part.among (Instr.parts (.sliceExpiry asn))) s t := by
  change execSliceExpiry asn s = _ at hx
  unfold execSliceExpiry at hx
  rw [event_inv hx]
  have hk : Keeps (Part.among (Instr.parts (.sliceExpiry asn))) s s := Keeps.refl s
  try dsimp only
  repeat' (first | with_reducible assumption | with_reducible apply keeps_sliceExpiry | exact trivial | intro _ | split)

theorem exec_corkBegin_keeps {s t : State} {asn} (hx : exec (.corkBegin asn) s = .next t) :
    Keeps (Part.among (Instr.parts (.corkBegin asn))) s t := by
  change execCorkBegin asn s = _ at hx
  unfold execCorkBegin at hx
  rw [event_inv hx]
  have hk : Keeps (Part.among (Instr.parts (.corkBegin asn))) s s := Keeps.refl s
  try dsimp only
  repeat' (first | with_reducible assumption | with_reducible apply keeps_corkBegin | exact trivial | intro _ | split)

theorem exec_corkDone_keeps {s t : State} {asn} (hx : exec (.corkDone asn) s = .next t) :
    Keeps (Part.among (Instr.parts (.corkDone asn))) s t := by
  change execCorkDone asn s = _ at hx
  unfold execCorkDone at hx
  rw [event_inv hx]
  have hk : Keeps (Part.among (Instr.parts (.corkDone asn))) s s := Keeps.refl s
  try dsimp only
  repeat' (first | with_reducible assumption | with_reducible apply keeps_corkDone | exact trivial | intro _ | split)

theorem exec_uncorkDone_keeps {s t : State} {asn} (hx : exec (.uncorkDone asn) s = .next t) :
    Keeps (Part.among (Instr.parts (.uncorkDone asn))) s t := by
  change execUncorkDone asn s = _ at hx
  unfold execUncorkDone at hx
  rw [event_inv hx]
  have hk : Keeps (Part.among (Instr.parts (.uncorkDone asn))) s s := Keeps.refl s
  try dsimp only
  repeat' (first | with_reducible assumption | with_reducible apply keeps_uncorkDone | exact trivial | intro _ | split)

theorem exec_nop_keeps {s t : State} {h} (hx : exec (.nop h) s = .next t) :
    Keeps (Part.among (Instr.parts (.nop h))) s t := by
  change execNop h s = _ at hx
  unfold execNop at hx
  rw [event_inv hx]
  have hk : Keeps (Part.among (Instr.parts (.nop h))) s s := Keeps.refl s
  try dsimp only
  repeat' (first | with_reducible assumption | with_reducible apply keeps_startNop | with_reducible apply keeps_submit | exact trivial | intro _ | split)

theorem exec_reservedCmd_keeps {s t : State} {h code first} (hx : exec (.reservedCmd h code first) s = .next t) :
    Keeps (Part.among (Instr.parts (.reservedCmd h code first))) s t := by
  change execReservedCmd h code first s = _ at hx
  unfold execReservedCmd at hx
  rw [event_inv hx]
  have hk : Keeps (Part.among (Instr.parts (.reservedCmd h code first))) s s := Keeps.refl s
  try dsimp only
  repeat' (first | with_reducible assumption | with_reducible apply keeps_reservedCmd | exact trivial | intro _ | split)

theorem exec_ctxCreate_keeps {s t : State} {h asn cls kind sliceUs clusters imageVA resumeVA resumeCount} (hx : exec (.ctxCreate h asn cls kind sliceUs clusters imageVA resumeVA resumeCount) s = .next t) :
    Keeps (Part.among (Instr.parts (.ctxCreate h asn cls kind sliceUs clusters imageVA resumeVA resumeCount))) s t := by
  change execCtxCreate h asn cls kind sliceUs clusters imageVA resumeVA resumeCount s = _ at hx
  unfold execCtxCreate at hx
  rw [event_inv hx]
  have hk : Keeps (Part.among (Instr.parts (.ctxCreate h asn cls kind sliceUs clusters imageVA resumeVA resumeCount))) s s := Keeps.refl s
  try dsimp only
  repeat' (first | with_reducible assumption | with_reducible apply keeps_startCreate | with_reducible apply keeps_submit | exact trivial | intro _ | split)

theorem exec_ctxDestroy_keeps {s t : State} {h asn} (hx : exec (.ctxDestroy h asn) s = .next t) :
    Keeps (Part.among (Instr.parts (.ctxDestroy h asn))) s t := by
  change execCtxDestroy h asn s = _ at hx
  unfold execCtxDestroy at hx
  rw [event_inv hx]
  have hk : Keeps (Part.among (Instr.parts (.ctxDestroy h asn))) s s := Keeps.refl s
  try dsimp only
  repeat' (first | with_reducible assumption | with_reducible apply keeps_startDestroy | with_reducible apply keeps_submit | exact trivial | intro _ | split)

theorem exec_ctxCork_keeps {s t : State} {h asn} (hx : exec (.ctxCork h asn) s = .next t) :
    Keeps (Part.among (Instr.parts (.ctxCork h asn))) s t := by
  change execCtxCork h asn s = _ at hx
  unfold execCtxCork at hx
  rw [event_inv hx]
  have hk : Keeps (Part.among (Instr.parts (.ctxCork h asn))) s s := Keeps.refl s
  try dsimp only
  repeat' (first | with_reducible assumption | with_reducible apply keeps_startCtxCork | with_reducible apply keeps_submit | exact trivial | intro _ | split)

theorem exec_ctxUncork_keeps {s t : State} {h asn clusters} (hx : exec (.ctxUncork h asn clusters) s = .next t) :
    Keeps (Part.among (Instr.parts (.ctxUncork h asn clusters))) s t := by
  change execCtxUncork h asn clusters s = _ at hx
  unfold execCtxUncork at hx
  rw [event_inv hx]
  have hk : Keeps (Part.among (Instr.parts (.ctxUncork h asn clusters))) s s := Keeps.refl s
  try dsimp only
  repeat' (first | with_reducible assumption | with_reducible apply keeps_startUncork | with_reducible apply keeps_submit | exact trivial | intro _ | split)

theorem exec_ctxExport_keeps {s t : State} {h asn move imageVA} (hx : exec (.ctxExport h asn move imageVA) s = .next t) :
    Keeps (Part.among (Instr.parts (.ctxExport h asn move imageVA))) s t := by
  change execCtxExport h asn move imageVA s = _ at hx
  unfold execCtxExport at hx
  rw [event_inv hx]
  have hk : Keeps (Part.among (Instr.parts (.ctxExport h asn move imageVA))) s s := Keeps.refl s
  try dsimp only
  repeat' (first | with_reducible assumption | with_reducible apply keeps_startExport | with_reducible apply keeps_submit | exact trivial | intro _ | split)

theorem exec_ctxSetClass_keeps {s t : State} {h asn cls sliceUs} (hx : exec (.ctxSetClass h asn cls sliceUs) s = .next t) :
    Keeps (Part.among (Instr.parts (.ctxSetClass h asn cls sliceUs))) s t := by
  change execCtxSetClass h asn cls sliceUs s = _ at hx
  unfold execCtxSetClass at hx
  rw [event_inv hx]
  have hk : Keeps (Part.among (Instr.parts (.ctxSetClass h asn cls sliceUs))) s s := Keeps.refl s
  try dsimp only
  repeat' (first | with_reducible assumption | with_reducible apply keeps_startSetClass | with_reducible apply keeps_submit | exact trivial | intro _ | split)

theorem exec_asnDestroy_keeps {s t : State} {h asn} (hx : exec (.asnDestroy h asn) s = .next t) :
    Keeps (Part.among (Instr.parts (.asnDestroy h asn))) s t := by
  change execAsnDestroy h asn s = _ at hx
  unfold execAsnDestroy at hx
  rw [event_inv hx]
  have hk : Keeps (Part.among (Instr.parts (.asnDestroy h asn))) s s := Keeps.refl s
  try dsimp only
  repeat' (first | with_reducible assumption | with_reducible apply keeps_startAsnDestroy | with_reducible apply keeps_submit | exact trivial | intro _ | split)

theorem exec_semAliasSet_keeps {s t : State} {h asn index ownerAsn ownerIndex} (hx : exec (.semAliasSet h asn index ownerAsn ownerIndex) s = .next t) :
    Keeps (Part.among (Instr.parts (.semAliasSet h asn index ownerAsn ownerIndex))) s t := by
  change execSemAliasSet h asn index ownerAsn ownerIndex s = _ at hx
  unfold execSemAliasSet at hx
  rw [event_inv hx]
  have hk : Keeps (Part.among (Instr.parts (.semAliasSet h asn index ownerAsn ownerIndex))) s s := Keeps.refl s
  try dsimp only
  repeat' (first | with_reducible assumption | with_reducible apply keeps_startAliasSet | with_reducible apply keeps_submit | exact trivial | intro _ | split)

theorem exec_semAliasClear_keeps {s t : State} {h asn index ownerAsn ownerIndex} (hx : exec (.semAliasClear h asn index ownerAsn ownerIndex) s = .next t) :
    Keeps (Part.among (Instr.parts (.semAliasClear h asn index ownerAsn ownerIndex))) s t := by
  change execSemAliasClear h asn index ownerAsn ownerIndex s = _ at hx
  unfold execSemAliasClear at hx
  rw [event_inv hx]
  have hk : Keeps (Part.among (Instr.parts (.semAliasClear h asn index ownerAsn ownerIndex))) s s := Keeps.refl s
  try dsimp only
  repeat' (first | with_reducible assumption | with_reducible apply keeps_startAliasClear | with_reducible apply keeps_submit | exact trivial | intro _ | split)

theorem exec_semSignal_keeps {s t : State} {h asn index n} (hx : exec (.semSignal h asn index n) s = .next t) :
    Keeps (Part.among (Instr.parts (.semSignal h asn index n))) s t := by
  change execSemSignal h asn index n s = _ at hx
  unfold execSemSignal at hx
  rw [event_inv hx]
  have hk : Keeps (Part.among (Instr.parts (.semSignal h asn index n))) s s := Keeps.refl s
  try dsimp only
  repeat' (first | with_reducible assumption | with_reducible apply keeps_startSemSignal | with_reducible apply keeps_submit | exact trivial | intro _ | split)

theorem exec_jobLaunch_keeps {s t : State} {h asn p rank progLen progVA seed} (hx : exec (.jobLaunch h asn p rank progLen progVA seed) s = .next t) :
    Keeps (Part.among (Instr.parts (.jobLaunch h asn p rank progLen progVA seed))) s t := by
  change execJobLaunch h asn p rank progLen progVA seed s = _ at hx
  unfold execJobLaunch at hx
  rw [event_inv hx]
  have hk : Keeps (Part.among (Instr.parts (.jobLaunch h asn p rank progLen progVA seed))) s s := Keeps.refl s
  try dsimp only
  repeat' (first | with_reducible assumption | with_reducible apply keeps_startJobLaunch | with_reducible apply keeps_submit | exact trivial | intro _ | split)

theorem exec_jobEnd_keeps {s t : State} {h asn} (hx : exec (.jobEnd h asn) s = .next t) :
    Keeps (Part.among (Instr.parts (.jobEnd h asn))) s t := by
  change execJobEnd h asn s = _ at hx
  unfold execJobEnd at hx
  rw [event_inv hx]
  have hk : Keeps (Part.among (Instr.parts (.jobEnd h asn))) s s := Keeps.refl s
  try dsimp only
  repeat' (first | with_reducible assumption | with_reducible apply keeps_startJobEnd | with_reducible apply keeps_submit | exact trivial | intro _ | split)

theorem exec_descBind_keeps {s t : State} {h asn first count srcVA} (hx : exec (.descBind h asn first count srcVA) s = .next t) :
    Keeps (Part.among (Instr.parts (.descBind h asn first count srcVA))) s t := by
  change execDescBind h asn first count srcVA s = _ at hx
  unfold execDescBind at hx
  rw [event_inv hx]
  have hk : Keeps (Part.among (Instr.parts (.descBind h asn first count srcVA))) s s := Keeps.refl s
  try dsimp only
  repeat' (first | with_reducible assumption | with_reducible apply keeps_startDescBind | with_reducible apply keeps_submit | exact trivial | intro _ | split)

theorem exec_trellisBind_keeps {s t : State} {h asn entries tableVA} (hx : exec (.trellisBind h asn entries tableVA) s = .next t) :
    Keeps (Part.among (Instr.parts (.trellisBind h asn entries tableVA))) s t := by
  change execTrellisBind h asn entries tableVA s = _ at hx
  unfold execTrellisBind at hx
  rw [event_inv hx]
  have hk : Keeps (Part.among (Instr.parts (.trellisBind h asn entries tableVA))) s s := Keeps.refl s
  try dsimp only
  repeat' (first | with_reducible assumption | with_reducible apply keeps_startTrellisBind | with_reducible apply keeps_submit | exact trivial | intro _ | split)

theorem exec_versionSet_keeps {s t : State} {h asn set slots semBase record} (hx : exec (.versionSet h asn set slots semBase record) s = .next t) :
    Keeps (Part.among (Instr.parts (.versionSet h asn set slots semBase record))) s t := by
  change execVersionSet h asn set slots semBase record s = _ at hx
  unfold execVersionSet at hx
  rw [event_inv hx]
  have hk : Keeps (Part.among (Instr.parts (.versionSet h asn set slots semBase record))) s s := Keeps.refl s
  try dsimp only
  repeat' (first | with_reducible assumption | with_reducible apply keeps_startVersionSet | with_reducible apply keeps_submit | exact trivial | intro _ | split)

theorem exec_memAlloc_keeps {s t : State} {h asn tier w pages va place} (hx : exec (.memAlloc h asn tier w pages va place) s = .next t) :
    Keeps (Part.among (Instr.parts (.memAlloc h asn tier w pages va place))) s t := by
  change execMemAlloc h asn tier w pages va place s = _ at hx
  unfold execMemAlloc at hx
  rw [event_inv hx]
  have hk : Keeps (Part.among (Instr.parts (.memAlloc h asn tier w pages va place))) s s := Keeps.refl s
  try dsimp only
  repeat' (first | with_reducible assumption | with_reducible apply keeps_place | with_reducible apply keeps_startAlloc | with_reducible apply keeps_submit | exact trivial | intro _ | split)

theorem exec_zeroFillDone_keeps {s t : State} {asn} (hx : exec (.zeroFillDone asn) s = .next t) :
    Keeps (Part.among (Instr.parts (.zeroFillDone asn))) s t := by
  change execZeroFillDone asn s = _ at hx
  unfold execZeroFillDone at hx
  rw [event_inv hx]
  have hk : Keeps (Part.among (Instr.parts (.zeroFillDone asn))) s s := Keeps.refl s
  try dsimp only
  repeat' (first | with_reducible assumption | with_reducible apply keeps_zeroFillDone | exact trivial | intro _ | split)

theorem exec_memMigrate_keeps {s t : State} {h asn tier access pages va place} (hx : exec (.memMigrate h asn tier access pages va place) s = .next t) :
    Keeps (Part.among (Instr.parts (.memMigrate h asn tier access pages va place))) s t := by
  change execMemMigrate h asn tier access pages va place s = _ at hx
  unfold execMemMigrate at hx
  rw [event_inv hx]
  have hk : Keeps (Part.among (Instr.parts (.memMigrate h asn tier access pages va place))) s s := Keeps.refl s
  try dsimp only
  repeat' (first | with_reducible assumption | with_reducible apply keeps_place | with_reducible apply keeps_startMigrate | with_reducible apply keeps_submit | exact trivial | intro _ | split)

theorem exec_migratePageDone_keeps {s t : State} {asn} (hx : exec (.migratePageDone asn) s = .next t) :
    Keeps (Part.among (Instr.parts (.migratePageDone asn))) s t := by
  change execMigratePageDone asn s = _ at hx
  unfold execMigratePageDone at hx
  rw [event_inv hx]
  have hk : Keeps (Part.among (Instr.parts (.migratePageDone asn))) s s := Keeps.refl s
  try dsimp only
  repeat' (first | with_reducible assumption | with_reducible apply keeps_goCtx | with_reducible apply keeps_migratePageDone | exact trivial | intro _ | split)

theorem exec_memFree_keeps {s t : State} {h asn pages va} (hx : exec (.memFree h asn pages va) s = .next t) :
    Keeps (Part.among (Instr.parts (.memFree h asn pages va))) s t := by
  change execMemFree h asn pages va s = _ at hx
  unfold execMemFree at hx
  rw [event_inv hx]
  have hk : Keeps (Part.among (Instr.parts (.memFree h asn pages va))) s s := Keeps.refl s
  try dsimp only
  repeat' (first | with_reducible assumption | with_reducible apply keeps_startFree | with_reducible apply keeps_submit | exact trivial | intro _ | split)

theorem exec_xferToHost_keeps {s t : State} {h asn window va winOff bytes} (hx : exec (.xferToHost h asn window va winOff bytes) s = .next t) :
    Keeps (Part.among (Instr.parts (.xferToHost h asn window va winOff bytes))) s t := by
  change execXferToHost h asn window va winOff bytes s = _ at hx
  unfold execXferToHost at hx
  rw [event_inv hx]
  have hk : Keeps (Part.among (Instr.parts (.xferToHost h asn window va winOff bytes))) s s := Keeps.refl s
  try dsimp only
  repeat' (first | with_reducible assumption | with_reducible apply keeps_startXfer | with_reducible apply keeps_submit | exact trivial | intro _ | split)

theorem exec_xferFromHost_keeps {s t : State} {h asn window va winOff bytes} (hx : exec (.xferFromHost h asn window va winOff bytes) s = .next t) :
    Keeps (Part.among (Instr.parts (.xferFromHost h asn window va winOff bytes))) s t := by
  change execXferFromHost h asn window va winOff bytes s = _ at hx
  unfold execXferFromHost at hx
  rw [event_inv hx]
  have hk : Keeps (Part.among (Instr.parts (.xferFromHost h asn window va winOff bytes))) s s := Keeps.refl s
  try dsimp only
  repeat' (first | with_reducible assumption | with_reducible apply keeps_startXfer | with_reducible apply keeps_submit | exact trivial | intro _ | split)

theorem exec_xferComplete_keeps {s t : State} {id host} (hx : exec (.xferComplete id host) s = .next t) :
    Keeps (Part.among (Instr.parts (.xferComplete id host))) s t := by
  change execXferComplete id host s = _ at hx
  unfold execXferComplete at hx
  rw [event_inv hx]
  have hk : Keeps (Part.among (Instr.parts (.xferComplete id host))) s s := Keeps.refl s
  try dsimp only
  repeat' (first | with_reducible assumption | with_reducible apply keeps_xferComplete | exact trivial | intro _ | split)

theorem exec_groupCreate_keeps {s t : State} {h asn size tag gen credits wdMs members} (hx : exec (.groupCreate h asn size tag gen credits wdMs members) s = .next t) :
    Keeps (Part.among (Instr.parts (.groupCreate h asn size tag gen credits wdMs members))) s t := by
  change execGroupCreate h asn size tag gen credits wdMs members s = _ at hx
  unfold execGroupCreate at hx
  rw [event_inv hx]
  have hk : Keeps (Part.among (Instr.parts (.groupCreate h asn size tag gen credits wdMs members))) s s := Keeps.refl s
  try dsimp only
  repeat' (first | with_reducible assumption | with_reducible apply keeps_startGroupCreate | with_reducible apply keeps_submit | exact trivial | intro _ | split)

theorem exec_groupDestroy_keeps {s t : State} {h asn slot} (hx : exec (.groupDestroy h asn slot) s = .next t) :
    Keeps (Part.among (Instr.parts (.groupDestroy h asn slot))) s t := by
  change execGroupDestroy h asn slot s = _ at hx
  unfold execGroupDestroy at hx
  rw [event_inv hx]
  have hk : Keeps (Part.among (Instr.parts (.groupDestroy h asn slot))) s s := Keeps.refl s
  try dsimp only
  repeat' (first | with_reducible assumption | with_reducible apply keeps_startGroupDestroy | with_reducible apply keeps_submit | exact trivial | intro _ | split)

theorem exec_streamOpen_keeps {s t : State} {h unit asn semBase paramVA} (hx : exec (.streamOpen h unit asn semBase paramVA) s = .next t) :
    Keeps (Part.among (Instr.parts (.streamOpen h unit asn semBase paramVA))) s t := by
  change execStreamOpen h unit asn semBase paramVA s = _ at hx
  unfold execStreamOpen at hx
  rw [event_inv hx]
  have hk : Keeps (Part.among (Instr.parts (.streamOpen h unit asn semBase paramVA))) s s := Keeps.refl s
  try dsimp only
  repeat' (first | with_reducible assumption | with_reducible apply keeps_startStreamOpen | with_reducible apply keeps_submit | exact trivial | intro _ | split)

theorem exec_streamClose_keeps {s t : State} {h stream} (hx : exec (.streamClose h stream) s = .next t) :
    Keeps (Part.among (Instr.parts (.streamClose h stream))) s t := by
  change execStreamClose h stream s = _ at hx
  unfold execStreamClose at hx
  rw [event_inv hx]
  have hk : Keeps (Part.among (Instr.parts (.streamClose h stream))) s s := Keeps.refl s
  try dsimp only
  repeat' (first | with_reducible assumption | with_reducible apply keeps_startStreamClose | with_reducible apply keeps_submit | exact trivial | intro _ | split)

theorem exec_frameSubmit_keeps {s t : State} {h stream entry} (hx : exec (.frameSubmit h stream entry) s = .next t) :
    Keeps (Part.among (Instr.parts (.frameSubmit h stream entry))) s t := by
  change execFrameSubmit h stream entry s = _ at hx
  unfold execFrameSubmit at hx
  rw [event_inv hx]
  have hk : Keeps (Part.among (Instr.parts (.frameSubmit h stream entry))) s s := Keeps.refl s
  try dsimp only
  repeat' (first | with_reducible assumption | with_reducible apply keeps_startFrameSubmit | with_reducible apply keeps_submit | exact trivial | intro _ | split)

theorem exec_frameRelease_keeps {s t : State} {h stream count} (hx : exec (.frameRelease h stream count) s = .next t) :
    Keeps (Part.among (Instr.parts (.frameRelease h stream count))) s t := by
  change execFrameRelease h stream count s = _ at hx
  unfold execFrameRelease at hx
  rw [event_inv hx]
  have hk : Keeps (Part.among (Instr.parts (.frameRelease h stream count))) s s := Keeps.refl s
  try dsimp only
  repeat' (first | with_reducible assumption | with_reducible apply keeps_startFrameRelease | with_reducible apply keeps_submit | exact trivial | intro _ | split)

theorem exec_modeSetVintage_keeps {s t : State} {h value rateLog2 expectEpoch timeoutUs} (hx : exec (.modeSetVintage h value rateLog2 expectEpoch timeoutUs) s = .next t) :
    Keeps (Part.among (Instr.parts (.modeSetVintage h value rateLog2 expectEpoch timeoutUs))) s t := by
  change execModeSetVintage h value rateLog2 expectEpoch timeoutUs s = _ at hx
  unfold execModeSetVintage at hx
  rw [event_inv hx]
  have hk : Keeps (Part.among (Instr.parts (.modeSetVintage h value rateLog2 expectEpoch timeoutUs))) s s := Keeps.refl s
  try dsimp only
  repeat' (first | with_reducible assumption | with_reducible apply keeps_startModeSet | with_reducible apply keeps_submit | exact trivial | intro _ | split)

theorem exec_modeSetTaster_keeps {s t : State} {h value rateLog2 expectEpoch timeoutUs} (hx : exec (.modeSetTaster h value rateLog2 expectEpoch timeoutUs) s = .next t) :
    Keeps (Part.among (Instr.parts (.modeSetTaster h value rateLog2 expectEpoch timeoutUs))) s t := by
  change execModeSetTaster h value rateLog2 expectEpoch timeoutUs s = _ at hx
  unfold execModeSetTaster at hx
  rw [event_inv hx]
  have hk : Keeps (Part.among (Instr.parts (.modeSetTaster h value rateLog2 expectEpoch timeoutUs))) s s := Keeps.refl s
  try dsimp only
  repeat' (first | with_reducible assumption | with_reducible apply keeps_startModeSet | with_reducible apply keeps_submit | exact trivial | intro _ | split)

theorem exec_dieEpochAck_keeps {s t : State} {die} (hx : exec (.dieEpochAck die) s = .next t) :
    Keeps (Part.among (Instr.parts (.dieEpochAck die))) s t := by
  change execDieEpochAck die s = _ at hx
  unfold execDieEpochAck at hx
  rw [event_inv hx]
  have hk : Keeps (Part.among (Instr.parts (.dieEpochAck die))) s s := Keeps.refl s
  try dsimp only
  repeat' (first | with_reducible assumption | with_reducible apply keeps_epochAck | exact trivial | intro _ | split)

theorem exec_epochTimeout_keeps {s t : State} (hx : exec (.epochTimeout) s = .next t) :
    Keeps (Part.among (Instr.parts (.epochTimeout))) s t := by
  change execEpochTimeout  s = _ at hx
  unfold execEpochTimeout at hx
  rw [event_inv hx]
  have hk : Keeps (Part.among (Instr.parts (.epochTimeout))) s s := Keeps.refl s
  try dsimp only
  repeat' (first | with_reducible assumption | with_reducible apply keeps_epochTimeout | exact trivial | intro _ | split)

theorem exec_applyConfig_keeps {s t : State} {h writeFlash imageBus imageBytes image} (hx : exec (.applyConfig h writeFlash imageBus imageBytes image) s = .next t) :
    Keeps (Part.among (Instr.parts (.applyConfig h writeFlash imageBus imageBytes image))) s t := by
  change execApplyConfig h writeFlash imageBus imageBytes image s = _ at hx
  unfold execApplyConfig at hx
  rw [event_inv hx]
  have hk : Keeps (Part.among (Instr.parts (.applyConfig h writeFlash imageBus imageBytes image))) s s := Keeps.refl s
  try dsimp only
  repeat' (first | with_reducible assumption | with_reducible apply keeps_startApply | with_reducible apply keeps_submit | exact trivial | intro _ | split)

theorem exec_applyStoreOnly_keeps {s t : State} {h writeFlash imageBus imageBytes image} (hx : exec (.applyStoreOnly h writeFlash imageBus imageBytes image) s = .next t) :
    Keeps (Part.among (Instr.parts (.applyStoreOnly h writeFlash imageBus imageBytes image))) s t := by
  change execApplyStoreOnly h writeFlash imageBus imageBytes image s = _ at hx
  unfold execApplyStoreOnly at hx
  rw [event_inv hx]
  have hk : Keeps (Part.among (Instr.parts (.applyStoreOnly h writeFlash imageBus imageBytes image))) s s := Keeps.refl s
  try dsimp only
  repeat' (first | with_reducible assumption | with_reducible apply keeps_startApply | with_reducible apply keeps_submit | exact trivial | intro _ | split)

theorem exec_dormantEnter_keeps {s t : State} {h} (hx : exec (.dormantEnter h) s = .next t) :
    Keeps (Part.among (Instr.parts (.dormantEnter h))) s t := by
  change execDormantEnter h s = _ at hx
  unfold execDormantEnter at hx
  rw [event_inv hx]
  have hk : Keeps (Part.among (Instr.parts (.dormantEnter h))) s s := Keeps.refl s
  try dsimp only
  repeat' (first | with_reducible assumption | with_reducible apply keeps_startDormant | with_reducible apply keeps_submit | exact trivial | intro _ | split)

theorem exec_dormantPowerDown_keeps {s t : State} (hx : exec (.dormantPowerDown) s = .next t) :
    Keeps (Part.among (Instr.parts (.dormantPowerDown))) s t := by
  change execDormantPowerDown  s = _ at hx
  unfold execDormantPowerDown at hx
  rw [event_inv hx]
  have hk : Keeps (Part.among (Instr.parts (.dormantPowerDown))) s s := Keeps.refl s
  try dsimp only
  repeat' (first | with_reducible assumption | with_reducible apply keeps_dormantPowerDown | exact trivial | intro _ | split)

theorem exec_wake_keeps {s t : State} {h} (hx : exec (.wake h) s = .next t) :
    Keeps (Part.among (Instr.parts (.wake h))) s t := by
  change execWake h s = _ at hx
  unfold execWake at hx
  rw [event_inv hx]
  have hk : Keeps (Part.among (Instr.parts (.wake h))) s s := Keeps.refl s
  try dsimp only
  repeat' (first | with_reducible assumption | with_reducible apply keeps_startWake | with_reducible apply keeps_submit | exact trivial | intro _ | split)

theorem exec_wakeDone_keeps {s t : State} (hx : exec (.wakeDone) s = .next t) :
    Keeps (Part.among (Instr.parts (.wakeDone))) s t := by
  change execWakeDone  s = _ at hx
  unfold execWakeDone at hx
  rw [event_inv hx]
  have hk : Keeps (Part.among (Instr.parts (.wakeDone))) s s := Keeps.refl s
  try dsimp only
  repeat' (first | with_reducible assumption | with_reducible apply keeps_resumeLinks | with_reducible apply keeps_wakeDone | exact trivial | intro _ | split)

theorem exec_dieDrainHold_keeps {s t : State} {h die} (hx : exec (.dieDrainHold h die) s = .next t) :
    Keeps (Part.among (Instr.parts (.dieDrainHold h die))) s t := by
  change execDieDrainHold h die s = _ at hx
  unfold execDieDrainHold at hx
  rw [event_inv hx]
  have hk : Keeps (Part.among (Instr.parts (.dieDrainHold h die))) s s := Keeps.refl s
  try dsimp only
  repeat' (first | with_reducible assumption | with_reducible apply keeps_startDieDrain | with_reducible apply keeps_submit | exact trivial | intro _ | split)

theorem exec_dieDrainRepair_keeps {s t : State} {h die} (hx : exec (.dieDrainRepair h die) s = .next t) :
    Keeps (Part.among (Instr.parts (.dieDrainRepair h die))) s t := by
  change execDieDrainRepair h die s = _ at hx
  unfold execDieDrainRepair at hx
  rw [event_inv hx]
  have hk : Keeps (Part.among (Instr.parts (.dieDrainRepair h die))) s s := Keeps.refl s
  try dsimp only
  repeat' (first | with_reducible assumption | with_reducible apply keeps_startDieDrain | with_reducible apply keeps_submit | exact trivial | intro _ | split)

theorem exec_dieRestore_keeps {s t : State} {h die} (hx : exec (.dieRestore h die) s = .next t) :
    Keeps (Part.among (Instr.parts (.dieRestore h die))) s t := by
  change execDieRestore h die s = _ at hx
  unfold execDieRestore at hx
  rw [event_inv hx]
  have hk : Keeps (Part.among (Instr.parts (.dieRestore h die))) s s := Keeps.refl s
  try dsimp only
  repeat' (first | with_reducible assumption | with_reducible apply keeps_startDieRestore | with_reducible apply keeps_submit | exact trivial | intro _ | split)

theorem exec_sqTailDoorbell_keeps {s t : State} {q val fetched images} (hx : exec (.sqTailDoorbell q val fetched images) s = .next t) :
    Keeps (Part.among (Instr.parts (.sqTailDoorbell q val fetched images))) s t := by
  change execSqTailDoorbell q val fetched images s = _ at hx
  unfold execSqTailDoorbell at hx
  rw [event_inv hx]
  have hk : Keeps (Part.among (Instr.parts (.sqTailDoorbell q val fetched images))) s s := Keeps.refl s
  try dsimp only
  repeat' (first | with_reducible assumption | with_reducible apply keeps_fetched | with_reducible apply keeps_sqTail | exact trivial | intro _ | split)

theorem exec_commandFetchError_keeps {s t : State} {q} (hx : exec (.commandFetchError q) s = .next t) :
    Keeps (Part.among (Instr.parts (.commandFetchError q))) s t := by
  change execCommandFetchError q s = _ at hx
  unfold execCommandFetchError at hx
  rw [event_inv hx]
  have hk : Keeps (Part.among (Instr.parts (.commandFetchError q))) s s := Keeps.refl s
  try dsimp only
  repeat' (first | with_reducible assumption | with_reducible apply keeps_fetchError | exact trivial | intro _ | split)

theorem exec_cqHeadDoorbell_keeps {s t : State} {q val} (hx : exec (.cqHeadDoorbell q val) s = .next t) :
    Keeps (Part.among (Instr.parts (.cqHeadDoorbell q val))) s t := by
  change execCqHeadDoorbell q val s = _ at hx
  unfold execCqHeadDoorbell at hx
  rw [event_inv hx]
  have hk : Keeps (Part.among (Instr.parts (.cqHeadDoorbell q val))) s s := Keeps.refl s
  try dsimp only
  repeat' (first | with_reducible assumption | with_reducible apply keeps_cqHead | exact trivial | intro _ | split)

theorem exec_hqCtlWrite_keeps {s t : State} {q val} (hx : exec (.hqCtlWrite q val) s = .next t) :
    Keeps (Part.among (Instr.parts (.hqCtlWrite q val))) s t := by
  change execHqCtlWrite q val s = _ at hx
  unfold execHqCtlWrite at hx
  rw [event_inv hx]
  have hk : Keeps (Part.among (Instr.parts (.hqCtlWrite q val))) s s := Keeps.refl s
  try dsimp only
  repeat' (first | with_reducible assumption | with_reducible apply keeps_hqCtl | exact trivial | intro _ | split)

theorem exec_msgCtlWrite_keeps {s t : State} {val} (hx : exec (.msgCtlWrite val) s = .next t) :
    Keeps (Part.among (Instr.parts (.msgCtlWrite val))) s t := by
  change execMsgCtlWrite val s = _ at hx
  unfold execMsgCtlWrite at hx
  rw [event_inv hx]
  have hk : Keeps (Part.among (Instr.parts (.msgCtlWrite val))) s s := Keeps.refl s
  try dsimp only
  repeat' (first | with_reducible assumption | with_reducible apply keeps_msgWrite | exact trivial | intro _ | split)

theorem exec_msgHeadWrite_keeps {s t : State} {val} (hx : exec (.msgHeadWrite val) s = .next t) :
    Keeps (Part.among (Instr.parts (.msgHeadWrite val))) s t := by
  change execMsgHeadWrite val s = _ at hx
  unfold execMsgHeadWrite at hx
  rw [event_inv hx]
  have hk : Keeps (Part.among (Instr.parts (.msgHeadWrite val))) s s := Keeps.refl s
  try dsimp only
  repeat' (first | with_reducible assumption | with_reducible apply keeps_msgHead | exact trivial | intro _ | split)

theorem exec_registerWrite_keeps {s t : State} {off width val} (hx : exec (.registerWrite off width val) s = .next t) :
    Keeps (Part.among (Instr.parts (.registerWrite off width val))) s t := by
  change execRegisterWrite off width val s = _ at hx
  unfold execRegisterWrite at hx
  rw [event_inv hx]
  have hk : Keeps (Part.among (Instr.parts (.registerWrite off width val))) s s := Keeps.refl s
  try dsimp only
  repeat' (first | with_reducible assumption | with_reducible apply keeps_busWrite | exact trivial | intro _ | split)

theorem exec_loReadLatch_keeps {s t : State} {r} (hx : exec (.loReadLatch r) s = .next t) :
    Keeps (Part.among (Instr.parts (.loReadLatch r))) s t := by
  change execLoReadLatch r s = _ at hx
  unfold execLoReadLatch at hx
  rw [event_inv hx]
  have hk : Keeps (Part.among (Instr.parts (.loReadLatch r))) s s := Keeps.refl s
  try dsimp only
  repeat' (first | with_reducible assumption | with_reducible apply keeps_busRead | exact trivial | intro _ | split)

theorem exec_hubResetModule_keeps {s t : State} {val} (hx : exec (.hubResetModule val) s = .next t) :
    Keeps (Part.among (Instr.parts (.hubResetModule val))) s t := by
  change execHubResetModule val s = _ at hx
  unfold execHubResetModule at hx
  rw [event_inv hx]
  have hk : Keeps (Part.among (Instr.parts (.hubResetModule val))) s s := Keeps.refl s
  try dsimp only
  repeat' (first | with_reducible assumption | with_reducible apply keeps_hubResetWrite | exact trivial | intro _ | split)

theorem exec_islVsetWrite_keeps {s t : State} {die isl val} (hx : exec (.islVsetWrite die isl val) s = .next t) :
    Keeps (Part.among (Instr.parts (.islVsetWrite die isl val))) s t := by
  change execIslVsetWrite die isl val s = _ at hx
  unfold execIslVsetWrite at hx
  rw [event_inv hx]
  have hk : Keeps (Part.among (Instr.parts (.islVsetWrite die isl val))) s s := Keeps.refl s
  try dsimp only
  repeat' (first | with_reducible assumption | with_reducible apply keeps_islVset | exact trivial | intro _ | split)

theorem exec_islMarginWrite_keeps {s t : State} {die isl val} (hx : exec (.islMarginWrite die isl val) s = .next t) :
    Keeps (Part.among (Instr.parts (.islMarginWrite die isl val))) s t := by
  change execIslMarginWrite die isl val s = _ at hx
  unfold execIslMarginWrite at hx
  rw [event_inv hx]
  have hk : Keeps (Part.among (Instr.parts (.islMarginWrite die isl val))) s s := Keeps.refl s
  try dsimp only
  repeat' (first | with_reducible assumption | with_reducible apply keeps_islMargin | exact trivial | intro _ | split)

theorem exec_islRateMinReset_keeps {s t : State} {die isl val} (hx : exec (.islRateMinReset die isl val) s = .next t) :
    Keeps (Part.among (Instr.parts (.islRateMinReset die isl val))) s t := by
  change execIslRateMinReset die isl val s = _ at hx
  unfold execIslRateMinReset at hx
  rw [event_inv hx]
  have hk : Keeps (Part.among (Instr.parts (.islRateMinReset die isl val))) s s := Keeps.refl s
  try dsimp only
  repeat' (first | with_reducible assumption | with_reducible apply keeps_islRateMinReset | exact trivial | intro _ | split)

theorem exec_islRampDone_keeps {s t : State} {die isl} (hx : exec (.islRampDone die isl) s = .next t) :
    Keeps (Part.among (Instr.parts (.islRampDone die isl))) s t := by
  change execIslRampDone die isl s = _ at hx
  unfold execIslRampDone at hx
  rw [event_inv hx]
  have hk : Keeps (Part.among (Instr.parts (.islRampDone die isl))) s s := Keeps.refl s
  try dsimp only
  repeat' (first | with_reducible assumption | with_reducible apply keeps_modIsland | exact trivial | intro _ | split)

theorem exec_islRateUpdate_keeps {s t : State} {die isl rate} (hx : exec (.islRateUpdate die isl rate) s = .next t) :
    Keeps (Part.among (Instr.parts (.islRateUpdate die isl rate))) s t := by
  change execIslRateUpdate die isl rate s = _ at hx
  unfold execIslRateUpdate at hx
  rw [event_inv hx]
  have hk : Keeps (Part.among (Instr.parts (.islRateUpdate die isl rate))) s s := Keeps.refl s
  try dsimp only
  repeat' (first | with_reducible assumption | with_reducible apply keeps_islRateUpdate | exact trivial | intro _ | split)

theorem exec_mcC0LatMaxClr_keeps {s t : State} {die mc val} (hx : exec (.mcC0LatMaxClr die mc val) s = .next t) :
    Keeps (Part.among (Instr.parts (.mcC0LatMaxClr die mc val))) s t := by
  change execMcC0LatMaxClr die mc val s = _ at hx
  unfold execMcC0LatMaxClr at hx
  rw [event_inv hx]
  have hk : Keeps (Part.among (Instr.parts (.mcC0LatMaxClr die mc val))) s s := Keeps.refl s
  try dsimp only
  repeat' (first | with_reducible assumption | with_reducible apply keeps_c0LatClr | exact trivial | intro _ | split)

theorem exec_trkPeakClr_keeps {s t : State} {die val} (hx : exec (.trkPeakClr die val) s = .next t) :
    Keeps (Part.among (Instr.parts (.trkPeakClr die val))) s t := by
  change execTrkPeakClr die val s = _ at hx
  unfold execTrkPeakClr at hx
  rw [event_inv hx]
  have hk : Keeps (Part.among (Instr.parts (.trkPeakClr die val))) s s := Keeps.refl s
  try dsimp only
  repeat' (first | with_reducible assumption | with_reducible apply keeps_trkPeakClr | exact trivial | intro _ | split)

theorem exec_tqNearQuotaWrite_keeps {s t : State} {asn val} (hx : exec (.tqNearQuotaWrite asn val) s = .next t) :
    Keeps (Part.among (Instr.parts (.tqNearQuotaWrite asn val))) s t := by
  simp only [exec, execTqNearQuotaWrite] at hx
  rw [event_inv hx]
  have hk : Keeps (Part.among (Instr.parts (.tqNearQuotaWrite asn val))) s s := Keeps.refl s
  try dsimp only
  repeat' (first | with_reducible assumption | with_reducible apply keeps_nearQuotaWrite | exact trivial | intro _ | split)

theorem exec_tqCellarQuotaWrite_keeps {s t : State} {asn val} (hx : exec (.tqCellarQuotaWrite asn val) s = .next t) :
    Keeps (Part.among (Instr.parts (.tqCellarQuotaWrite asn val))) s t := by
  simp only [exec, execTqCellarQuotaWrite] at hx
  rw [event_inv hx]
  have hk : Keeps (Part.among (Instr.parts (.tqCellarQuotaWrite asn val))) s s := Keeps.refl s
  try dsimp only
  repeat' (first | with_reducible assumption | with_reducible apply keeps_cellarQuotaWrite | exact trivial | intro _ | split)

theorem exec_hwWindowWrite_keeps {s t : State} {asn window reg val} (hx : exec (.hwWindowWrite asn window reg val) s = .next t) :
    Keeps (Part.among (Instr.parts (.hwWindowWrite asn window reg val))) s t := by
  change execHwWindowWrite asn window reg val s = _ at hx
  unfold execHwWindowWrite at hx
  rw [event_inv hx]
  have hk : Keeps (Part.among (Instr.parts (.hwWindowWrite asn window reg val))) s s := Keeps.refl s
  try dsimp only
  repeat' (first | with_reducible assumption | with_reducible apply keeps_hwWrite | exact trivial | intro _ | split)

theorem exec_precSettingWrite_keeps {s t : State} {die slot reg val} (hx : exec (.precSettingWrite die slot reg val) s = .next t) :
    Keeps (Part.among (Instr.parts (.precSettingWrite die slot reg val))) s t := by
  change execPrecSettingWrite die slot reg val s = _ at hx
  unfold execPrecSettingWrite at hx
  rw [event_inv hx]
  have hk : Keeps (Part.among (Instr.parts (.precSettingWrite die slot reg val))) s s := Keeps.refl s
  try dsimp only
  repeat' (first | with_reducible assumption | with_reducible apply keeps_precWrite | exact trivial | intro _ | split)

theorem exec_relDieFlagSet_keeps {s t : State} {die val} (hx : exec (.relDieFlagSet die val) s = .next t) :
    Keeps (Part.among (Instr.parts (.relDieFlagSet die val))) s t := by
  change execRelDieFlagSet die val s = _ at hx
  unfold execRelDieFlagSet at hx
  rw [event_inv hx]
  have hk : Keeps (Part.among (Instr.parts (.relDieFlagSet die val))) s s := Keeps.refl s
  try dsimp only
  repeat' (first | with_reducible assumption | with_reducible apply keeps_dieFlagWrite | exact trivial | intro _ | split)

theorem exec_relDieFlagClr_keeps {s t : State} {die val} (hx : exec (.relDieFlagClr die val) s = .next t) :
    Keeps (Part.among (Instr.parts (.relDieFlagClr die val))) s t := by
  change execRelDieFlagClr die val s = _ at hx
  unfold execRelDieFlagClr at hx
  rw [event_inv hx]
  have hk : Keeps (Part.among (Instr.parts (.relDieFlagClr die val))) s s := Keeps.refl s
  try dsimp only
  repeat' (first | with_reducible assumption | with_reducible apply keeps_dieFlagWrite | exact trivial | intro _ | split)

theorem exec_relFlashRelease_keeps {s t : State} {val} (hx : exec (.relFlashRelease val) s = .next t) :
    Keeps (Part.among (Instr.parts (.relFlashRelease val))) s t := by
  change execRelFlashRelease val s = _ at hx
  unfold execRelFlashRelease at hx
  rw [event_inv hx]
  have hk : Keeps (Part.among (Instr.parts (.relFlashRelease val))) s s := Keeps.refl s
  try dsimp only
  repeat' (first | with_reducible assumption | with_reducible apply keeps_flashRelease | exact trivial | intro _ | split)

theorem exec_relFlashAttach_keeps {s t : State} {val supported} (hx : exec (.relFlashAttach val supported) s = .next t) :
    Keeps (Part.among (Instr.parts (.relFlashAttach val supported))) s t := by
  change execRelFlashAttach val supported s = _ at hx
  unfold execRelFlashAttach at hx
  rw [event_inv hx]
  have hk : Keeps (Part.among (Instr.parts (.relFlashAttach val supported))) s s := Keeps.refl s
  try dsimp only
  repeat' (first | with_reducible assumption | with_reducible apply keeps_flashAttach | exact trivial | intro _ | split)

theorem exec_relVrmRelease_keeps {s t : State} {pos val} (hx : exec (.relVrmRelease pos val) s = .next t) :
    Keeps (Part.among (Instr.parts (.relVrmRelease pos val))) s t := by
  change execRelVrmRelease pos val s = _ at hx
  unfold execRelVrmRelease at hx
  rw [event_inv hx]
  have hk : Keeps (Part.among (Instr.parts (.relVrmRelease pos val))) s s := Keeps.refl s
  try dsimp only
  repeat' (first | with_reducible assumption | with_reducible apply keeps_vrmRelease | exact trivial | intro _ | split)

theorem exec_scrStart_keeps {s t : State} {die val} (hx : exec (.scrStart die val) s = .next t) :
    Keeps (Part.among (Instr.parts (.scrStart die val))) s t := by
  change execScrStart die val s = _ at hx
  unfold execScrStart at hx
  rw [event_inv hx]
  have hk : Keeps (Part.among (Instr.parts (.scrStart die val))) s s := Keeps.refl s
  try dsimp only
  repeat' (first | with_reducible assumption | with_reducible apply keeps_scrCmd | exact trivial | intro _ | split)

theorem exec_scrStop_keeps {s t : State} {die val} (hx : exec (.scrStop die val) s = .next t) :
    Keeps (Part.among (Instr.parts (.scrStop die val))) s t := by
  change execScrStop die val s = _ at hx
  unfold execScrStop at hx
  rw [event_inv hx]
  have hk : Keeps (Part.among (Instr.parts (.scrStop die val))) s s := Keeps.refl s
  try dsimp only
  repeat' (first | with_reducible assumption | with_reducible apply keeps_scrCmd | exact trivial | intro _ | split)

theorem exec_screenRoundDone_keeps {s t : State} {die round} (hx : exec (.screenRoundDone die round) s = .next t) :
    Keeps (Part.among (Instr.parts (.screenRoundDone die round))) s t := by
  change execScreenRoundDone die round s = _ at hx
  unfold execScreenRoundDone at hx
  rw [event_inv hx]
  have hk : Keeps (Part.among (Instr.parts (.screenRoundDone die round))) s s := Keeps.refl s
  try dsimp only
  repeat' (first | with_reducible assumption | with_reducible apply keeps_screenRound | exact trivial | intro _ | split)

theorem exec_relLogIndexWrite_keeps {s t : State} {val} (hx : exec (.relLogIndexWrite val) s = .next t) :
    Keeps (Part.among (Instr.parts (.relLogIndexWrite val))) s t := by
  change execRelLogIndexWrite val s = _ at hx
  unfold execRelLogIndexWrite at hx
  rw [event_inv hx]
  have hk : Keeps (Part.among (Instr.parts (.relLogIndexWrite val))) s s := Keeps.refl s
  try dsimp only
  repeat' (first | with_reducible assumption | with_reducible apply keeps_logIndexWrite | exact trivial | intro _ | split)

theorem exec_relMapIndexWrite_keeps {s t : State} {val} (hx : exec (.relMapIndexWrite val) s = .next t) :
    Keeps (Part.among (Instr.parts (.relMapIndexWrite val))) s t := by
  change execRelMapIndexWrite val s = _ at hx
  unfold execRelMapIndexWrite at hx
  rw [event_inv hx]
  have hk : Keeps (Part.among (Instr.parts (.relMapIndexWrite val))) s s := Keeps.refl s
  try dsimp only
  repeat' (first | with_reducible assumption | with_reducible apply keeps_storeMasked | exact trivial | intro _ | split)

theorem exec_pwrLimitWrite_keeps {s t : State} {val} (hx : exec (.pwrLimitWrite val) s = .next t) :
    Keeps (Part.among (Instr.parts (.pwrLimitWrite val))) s t := by
  change execPwrLimitWrite val s = _ at hx
  unfold execPwrLimitWrite at hx
  rw [event_inv hx]
  have hk : Keeps (Part.among (Instr.parts (.pwrLimitWrite val))) s s := Keeps.refl s
  try dsimp only
  repeat' (first | with_reducible assumption | with_reducible apply keeps_pwrLimitWrite | exact trivial | intro _ | split)

theorem exec_pwrPeakClr_keeps {s t : State} {val} (hx : exec (.pwrPeakClr val) s = .next t) :
    Keeps (Part.among (Instr.parts (.pwrPeakClr val))) s t := by
  change execPwrPeakClr val s = _ at hx
  unfold execPwrPeakClr at hx
  rw [event_inv hx]
  have hk : Keeps (Part.among (Instr.parts (.pwrPeakClr val))) s s := Keeps.refl s
  try dsimp only
  repeat' (first | with_reducible assumption | with_reducible apply keeps_pwrPeakClr | exact trivial | intro _ | split)

theorem exec_acctClr_keeps {s t : State} {asn val} (hx : exec (.acctClr asn val) s = .next t) :
    Keeps (Part.among (Instr.parts (.acctClr asn val))) s t := by
  change execAcctClr asn val s = _ at hx
  unfold execAcctClr at hx
  rw [event_inv hx]
  have hk : Keeps (Part.among (Instr.parts (.acctClr asn val))) s s := Keeps.refl s
  try dsimp only
  repeat' (first | with_reducible assumption | with_reducible apply keeps_acctCtl | exact trivial | intro _ | split)

theorem exec_appClr_keeps {s t : State} {val} (hx : exec (.appClr val) s = .next t) :
    Keeps (Part.among (Instr.parts (.appClr val))) s t := by
  change execAppClr val s = _ at hx
  unfold execAppClr at hx
  rw [event_inv hx]
  have hk : Keeps (Part.among (Instr.parts (.appClr val))) s s := Keeps.refl s
  try dsimp only
  repeat' (first | with_reducible assumption | with_reducible apply keeps_appCtl | exact trivial | intro _ | split)

theorem exec_acctFlush_keeps {s t : State} (hx : exec (.acctFlush) s = .next t) :
    Keeps (Part.among (Instr.parts (.acctFlush))) s t := by
  change execAcctFlush  s = _ at hx
  unfold execAcctFlush at hx
  rw [event_inv hx]
  have hk : Keeps (Part.among (Instr.parts (.acctFlush))) s s := Keeps.refl s
  try dsimp only
  repeat' (first | with_reducible assumption | with_reducible apply keeps_acctFlush | exact trivial | intro _ | split)

theorem exec_tallyRelease_keeps {s t : State} {val} (hx : exec (.tallyRelease val) s = .next t) :
    Keeps (Part.among (Instr.parts (.tallyRelease val))) s t := by
  change execTallyRelease val s = _ at hx
  unfold execTallyRelease at hx
  rw [event_inv hx]
  have hk : Keeps (Part.among (Instr.parts (.tallyRelease val))) s s := Keeps.refl s
  try dsimp only
  repeat' (first | with_reducible assumption | with_reducible apply keeps_tallyCtl | with_reducible apply keeps_tallyRelease | exact trivial | intro _ | split)

theorem exec_tallyReleaseDone_keeps {s t : State} (hx : exec (.tallyReleaseDone) s = .next t) :
    Keeps (Part.among (Instr.parts (.tallyReleaseDone))) s t := by
  change execTallyReleaseDone  s = _ at hx
  unfold execTallyReleaseDone at hx
  rw [event_inv hx]
  have hk : Keeps (Part.among (Instr.parts (.tallyReleaseDone))) s s := Keeps.refl s
  try dsimp only
  repeat' (first | with_reducible assumption | with_reducible apply keeps_tallyReleaseDone | exact trivial | intro _ | split)

theorem exec_tallyAttach_keeps {s t : State} {val} (hx : exec (.tallyAttach val) s = .next t) :
    Keeps (Part.among (Instr.parts (.tallyAttach val))) s t := by
  change execTallyAttach val s = _ at hx
  unfold execTallyAttach at hx
  rw [event_inv hx]
  have hk : Keeps (Part.among (Instr.parts (.tallyAttach val))) s s := Keeps.refl s
  try dsimp only
  repeat' (first | with_reducible assumption | with_reducible apply keeps_tallyAttach | with_reducible apply keeps_tallyCtl | exact trivial | intro _ | split)

theorem exec_tallySelfTestDone_keeps {s t : State} {passed fwRev serial seconds total recSeq sealBroken} (hx : exec (.tallySelfTestDone passed fwRev serial seconds total recSeq sealBroken) s = .next t) :
    Keeps (Part.among (Instr.parts (.tallySelfTestDone passed fwRev serial seconds total recSeq sealBroken))) s t := by
  change execTallySelfTestDone passed fwRev serial seconds total recSeq sealBroken s = _ at hx
  unfold execTallySelfTestDone at hx
  rw [event_inv hx]
  have hk : Keeps (Part.among (Instr.parts (.tallySelfTestDone passed fwRev serial seconds total recSeq sealBroken))) s s := Keeps.refl s
  try dsimp only
  repeat' (first | with_reducible assumption | with_reducible apply keeps_tallySelfTest | exact trivial | intro _ | split)

theorem exec_tallyRecIndexWrite_keeps {s t : State} {val} (hx : exec (.tallyRecIndexWrite val) s = .next t) :
    Keeps (Part.among (Instr.parts (.tallyRecIndexWrite val))) s t := by
  change execTallyRecIndexWrite val s = _ at hx
  unfold execTallyRecIndexWrite at hx
  rw [event_inv hx]
  have hk : Keeps (Part.among (Instr.parts (.tallyRecIndexWrite val))) s s := Keeps.refl s
  try dsimp only
  repeat' (first | with_reducible assumption | with_reducible apply keeps_tallyRecIndex | exact trivial | intro _ | split)

theorem exec_tallyIntervalClose_keeps {s t : State} {energyMJ watts vin10mV overrange} (hx : exec (.tallyIntervalClose energyMJ watts vin10mV overrange) s = .next t) :
    Keeps (Part.among (Instr.parts (.tallyIntervalClose energyMJ watts vin10mV overrange))) s t := by
  change execTallyIntervalClose energyMJ watts vin10mV overrange s = _ at hx
  unfold execTallyIntervalClose at hx
  rw [event_inv hx]
  have hk : Keeps (Part.among (Instr.parts (.tallyIntervalClose energyMJ watts vin10mV overrange))) s s := Keeps.refl s
  try dsimp only
  repeat' (first | with_reducible assumption | with_reducible apply keeps_tallyInterval | exact trivial | intro _ | split)

theorem exec_tallyRecordClose_keeps {s t : State} (hx : exec (.tallyRecordClose) s = .next t) :
    Keeps (Part.among (Instr.parts (.tallyRecordClose))) s t := by
  change execTallyRecordClose  s = _ at hx
  unfold execTallyRecordClose at hx
  rw [event_inv hx]
  have hk : Keeps (Part.among (Instr.parts (.tallyRecordClose))) s s := Keeps.refl s
  try dsimp only
  repeat' (first | with_reducible assumption | with_reducible apply keeps_tallyRecordClose | exact trivial | intro _ | split)

theorem exec_unmeteredRecord_keeps {s t : State} (hx : exec (.unmeteredRecord) s = .next t) :
    Keeps (Part.among (Instr.parts (.unmeteredRecord))) s t := by
  change execUnmeteredRecord  s = _ at hx
  unfold execUnmeteredRecord at hx
  rw [event_inv hx]
  have hk : Keeps (Part.among (Instr.parts (.unmeteredRecord))) s s := Keeps.refl s
  try dsimp only
  repeat' (first | with_reducible assumption | with_reducible apply keeps_unmeteredRecord | exact trivial | intro _ | split)

theorem exec_tallyPulled_keeps {s t : State} (hx : exec (.tallyPulled) s = .next t) :
    Keeps (Part.among (Instr.parts (.tallyPulled))) s t := by
  change execTallyPulled  s = _ at hx
  unfold execTallyPulled at hx
  rw [event_inv hx]
  have hk : Keeps (Part.among (Instr.parts (.tallyPulled))) s s := Keeps.refl s
  try dsimp only
  repeat' (first | with_reducible assumption | with_reducible apply keeps_tallyPulled | exact trivial | intro _ | split)

theorem exec_tallyFault_keeps {s t : State} (hx : exec (.tallyFault) s = .next t) :
    Keeps (Part.among (Instr.parts (.tallyFault))) s t := by
  change execTallyFault  s = _ at hx
  unfold execTallyFault at hx
  rw [event_inv hx]
  have hk : Keeps (Part.among (Instr.parts (.tallyFault))) s s := Keeps.refl s
  try dsimp only
  repeat' (first | with_reducible assumption | with_reducible apply keeps_tallyFaulted | exact trivial | intro _ | split)

theorem exec_tallySealOpened_keeps {s t : State} (hx : exec (.tallySealOpened) s = .next t) :
    Keeps (Part.among (Instr.parts (.tallySealOpened))) s t := by
  change execTallySealOpened  s = _ at hx
  unfold execTallySealOpened at hx
  rw [event_inv hx]
  have hk : Keeps (Part.among (Instr.parts (.tallySealOpened))) s s := Keeps.refl s
  try dsimp only
  simp only [State.mk_build]
  exact hk.upd rfl id id id id id id (fun _ h => h) (fun _ h => h) (w_power := .inl trivial)

theorem exec_tallyFlashCopy_keeps {s t : State} (hx : exec (.tallyFlashCopy) s = .next t) :
    Keeps (Part.among (Instr.parts (.tallyFlashCopy))) s t := by
  change execTallyFlashCopy  s = _ at hx
  unfold execTallyFlashCopy at hx
  rw [event_inv hx]
  have hk : Keeps (Part.among (Instr.parts (.tallyFlashCopy))) s s := Keeps.refl s
  try dsimp only
  repeat' (first | with_reducible assumption | with_reducible apply keeps_tallyFlashCopy | exact trivial | intro _ | split)

theorem exec_powerLoopTick_keeps {s t : State} {inputMw} (hx : exec (.powerLoopTick inputMw) s = .next t) :
    Keeps (Part.among (Instr.parts (.powerLoopTick inputMw))) s t := by
  change execPowerLoopTick inputMw s = _ at hx
  unfold execPowerLoopTick at hx
  rw [event_inv hx]
  have hk : Keeps (Part.among (Instr.parts (.powerLoopTick inputMw))) s s := Keeps.refl s
  try dsimp only
  repeat' (first | with_reducible assumption | with_reducible apply keeps_powerTick | exact trivial | intro _ | split)

theorem exec_thermalCapTick_keeps {s t : State} {die tj} (hx : exec (.thermalCapTick die tj) s = .next t) :
    Keeps (Part.among (Instr.parts (.thermalCapTick die tj))) s t := by
  change execThermalCapTick die tj s = _ at hx
  unfold execThermalCapTick at hx
  rw [event_inv hx]
  have hk : Keeps (Part.among (Instr.parts (.thermalCapTick die tj))) s s := Keeps.refl s
  try dsimp only
  repeat' (first | with_reducible assumption | with_reducible apply keeps_thermalTick | exact trivial | intro _ | split)

theorem exec_thermal_keeps {s t : State} {source cause reading} (hx : exec (.thermal source cause reading) s = .next t) :
    Keeps (Part.among (Instr.parts (.thermal source cause reading))) s t := by
  change execThermal source cause reading s = _ at hx
  unfold execThermal at hx
  rw [event_inv hx]
  have hk : Keeps (Part.among (Instr.parts (.thermal source cause reading))) s s := Keeps.refl s
  try dsimp only
  repeat' (first | with_reducible assumption | with_reducible apply keeps_thermalReading | exact trivial | intro _ | split)

theorem exec_thermalTrip_keeps {s t : State} {source cause reading} (hx : exec (.thermalTrip source cause reading) s = .next t) :
    Keeps (Part.among (Instr.parts (.thermalTrip source cause reading))) s t := by
  change execThermalTrip source cause reading s = _ at hx
  unfold execThermalTrip at hx
  rw [event_inv hx]
  have hk : Keeps (Part.among (Instr.parts (.thermalTrip source cause reading))) s s := Keeps.refl s
  try dsimp only
  repeat' (first | with_reducible assumption | with_reducible apply keeps_thermalTrip | exact trivial | intro _ | split)

theorem exec_envelopeReturn_keeps {s t : State} (hx : exec (.envelopeReturn) s = .next t) :
    Keeps (Part.among (Instr.parts (.envelopeReturn))) s t := by
  change execEnvelopeReturn  s = _ at hx
  unfold execEnvelopeReturn at hx
  rw [event_inv hx]
  have hk : Keeps (Part.among (Instr.parts (.envelopeReturn))) s s := Keeps.refl s
  try dsimp only
  repeat' (first | with_reducible assumption | with_reducible apply keeps_envelopeReturn | exact trivial | intro _ | split)

theorem exec_inputVoltageChange_keeps {s t : State} {mv} (hx : exec (.inputVoltageChange mv) s = .next t) :
    Keeps (Part.among (Instr.parts (.inputVoltageChange mv))) s t := by
  change execInputVoltageChange mv s = _ at hx
  unfold execInputVoltageChange at hx
  rw [event_inv hx]
  have hk : Keeps (Part.among (Instr.parts (.inputVoltageChange mv))) s s := Keeps.refl s
  try dsimp only
  repeat' (first | with_reducible assumption | with_reducible apply keeps_voltageChange | exact trivial | intro _ | split)

theorem exec_inputPowerLoss_keeps {s t : State} {energyMJ watts vin10mV} (hx : exec (.inputPowerLoss energyMJ watts vin10mV) s = .next t) :
    Keeps (Part.among (Instr.parts (.inputPowerLoss energyMJ watts vin10mV))) s t := by
  change execInputPowerLoss energyMJ watts vin10mV s = _ at hx
  unfold execInputPowerLoss at hx
  rw [event_inv hx]
  have hk : Keeps (Part.among (Instr.parts (.inputPowerLoss energyMJ watts vin10mV))) s s := Keeps.refl s
  try dsimp only
  repeat' (first | with_reducible assumption | with_reducible apply keeps_inputPowerLoss | exact trivial | intro _ | split)

theorem exec_regulatorFail_keeps {s t : State} {pos} (hx : exec (.regulatorFail pos) s = .next t) :
    Keeps (Part.among (Instr.parts (.regulatorFail pos))) s t := by
  change execRegulatorFail pos s = _ at hx
  unfold execRegulatorFail at hx
  rw [event_inv hx]
  have hk : Keeps (Part.among (Instr.parts (.regulatorFail pos))) s s := Keeps.refl s
  try dsimp only
  repeat' (first | with_reducible assumption | with_reducible apply keeps_regulatorFail | exact trivial | intro _ | split)

theorem exec_regulatorFitted_keeps {s t : State} {pos} (hx : exec (.regulatorFitted pos) s = .next t) :
    Keeps (Part.among (Instr.parts (.regulatorFitted pos))) s t := by
  change execRegulatorFitted pos s = _ at hx
  unfold execRegulatorFitted at hx
  rw [event_inv hx]
  have hk : Keeps (Part.among (Instr.parts (.regulatorFitted pos))) s s := Keeps.refl s
  try dsimp only
  repeat' (first | with_reducible assumption | with_reducible apply keeps_regulatorFitted | exact trivial | intro _ | split)

theorem exec_refClockLost_keeps {s t : State} (hx : exec (.refClockLost) s = .next t) :
    Keeps (Part.among (Instr.parts (.refClockLost))) s t := by
  change execRefClockLost  s = _ at hx
  unfold execRefClockLost at hx
  rw [event_inv hx]
  have hk : Keeps (Part.among (Instr.parts (.refClockLost))) s s := Keeps.refl s
  try dsimp only
  repeat' (first | with_reducible assumption | with_reducible apply keeps_refLost | exact trivial | intro _ | split)

theorem exec_refClockReturn_keeps {s t : State} (hx : exec (.refClockReturn) s = .next t) :
    Keeps (Part.among (Instr.parts (.refClockReturn))) s t := by
  change execRefClockReturn  s = _ at hx
  unfold execRefClockReturn at hx
  rw [event_inv hx]
  have hk : Keeps (Part.among (Instr.parts (.refClockReturn))) s s := Keeps.refl s
  try dsimp only
  simp only [State.mk_build]
  exact hk.upd rfl id id id id id id (fun _ h => h) (fun _ h => h) (w_hub := .inl trivial)

theorem exec_moduleReset_keeps {s t : State} (hx : exec (.moduleReset) s = .next t) :
    Keeps (Part.among (Instr.parts (.moduleReset))) s t := by
  change execModuleReset  s = _ at hx
  unfold execModuleReset at hx
  rw [event_inv hx]
  have hk : Keeps (Part.among (Instr.parts (.moduleReset))) s s := Keeps.refl s
  try dsimp only
  repeat' (first | with_reducible assumption | with_reducible apply keeps_moduleReset | exact trivial | intro _ | split)

theorem exec_hostLinkTrained_keeps {s t : State} (hx : exec (.hostLinkTrained) s = .next t) :
    Keeps (Part.among (Instr.parts (.hostLinkTrained))) s t := by
  change execHostLinkTrained  s = _ at hx
  unfold execHostLinkTrained at hx
  rw [event_inv hx]
  have hk : Keeps (Part.among (Instr.parts (.hostLinkTrained))) s s := Keeps.refl s
  try dsimp only
  repeat' (first | with_reducible assumption | with_reducible apply keeps_hostLinkTrained | exact trivial | intro _ | split)

theorem exec_configReadDone_keeps {s t : State} (hx : exec (.configReadDone) s = .next t) :
    Keeps (Part.among (Instr.parts (.configReadDone))) s t := by
  change execConfigReadDone  s = _ at hx
  unfold execConfigReadDone at hx
  rw [event_inv hx]
  have hk : Keeps (Part.among (Instr.parts (.configReadDone))) s s := Keeps.refl s
  try dsimp only
  repeat' (first | with_reducible assumption | with_reducible apply keeps_configReadDone | exact trivial | intro _ | split)

theorem exec_memTrainDone_keeps {s t : State} {serviceOk chans} (hx : exec (.memTrainDone serviceOk chans) s = .next t) :
    Keeps (Part.among (Instr.parts (.memTrainDone serviceOk chans))) s t := by
  change execMemTrainDone serviceOk chans s = _ at hx
  unfold execMemTrainDone at hx
  rw [event_inv hx]
  have hk : Keeps (Part.among (Instr.parts (.memTrainDone serviceOk chans))) s s := Keeps.refl s
  try dsimp only
  repeat' (first | with_reducible assumption | with_reducible apply keeps_memTrainDone | exact trivial | intro _ | split)

theorem exec_repairStepDone_keeps {s t : State} {up findings} (hx : exec (.repairStepDone up findings) s = .next t) :
    Keeps (Part.among (Instr.parts (.repairStepDone up findings))) s t := by
  change execRepairStepDone up findings s = _ at hx
  unfold execRepairStepDone at hx
  rw [event_inv hx]
  have hk : Keeps (Part.among (Instr.parts (.repairStepDone up findings))) s s := Keeps.refl s
  try dsimp only
  repeat' (first | with_reducible assumption | with_reducible apply keeps_repairStepDone | exact trivial | intro _ | split)

theorem exec_portTrainDone_keeps {s t : State} {ports far} (hx : exec (.portTrainDone ports far) s = .next t) :
    Keeps (Part.among (Instr.parts (.portTrainDone ports far))) s t := by
  change execPortTrainDone ports far s = _ at hx
  unfold execPortTrainDone at hx
  rw [event_inv hx]
  have hk : Keeps (Part.among (Instr.parts (.portTrainDone ports far))) s s := Keeps.refl s
  try dsimp only
  repeat' (first | with_reducible assumption | with_reducible apply keeps_portTrainDone | exact trivial | intro _ | split)

theorem exec_bootStepTimeout_keeps {s t : State} {applied up findings ports far} (hx : exec (.bootStepTimeout applied up findings ports far) s = .next t) :
    Keeps (Part.among (Instr.parts (.bootStepTimeout applied up findings ports far))) s t := by
  change execBootStepTimeout applied up findings ports far s = _ at hx
  unfold execBootStepTimeout at hx
  rw [event_inv hx]
  have hk : Keeps (Part.among (Instr.parts (.bootStepTimeout applied up findings ports far))) s s := Keeps.refl s
  try dsimp only
  repeat' (first | with_reducible assumption | with_reducible apply keeps_bootTimeout | exact trivial | intro _ | split)

theorem exec_hostLinkReset_keeps {s t : State} (hx : exec (.hostLinkReset) s = .next t) :
    Keeps (Part.among (Instr.parts (.hostLinkReset))) s t := by
  change execHostLinkReset  s = _ at hx
  unfold execHostLinkReset at hx
  rw [event_inv hx]
  have hk : Keeps (Part.among (Instr.parts (.hostLinkReset))) s s := Keeps.refl s
  try dsimp only
  repeat' (first | with_reducible assumption | with_reducible apply keeps_hostLinkReset | exact trivial | intro _ | split)

theorem exec_hubUncorrectable_keeps {s t : State} (hx : exec (.hubUncorrectable) s = .next t) :
    Keeps (Part.among (Instr.parts (.hubUncorrectable))) s t := by
  change execHubUncorrectable  s = _ at hx
  unfold execHubUncorrectable at hx
  rw [event_inv hx]
  have hk : Keeps (Part.among (Instr.parts (.hubUncorrectable))) s s := Keeps.refl s
  try dsimp only
  repeat' (first | with_reducible assumption | with_reducible apply keeps_hubUncorrectable | exact trivial | intro _ | split)

theorem exec_faultLogFlush_keeps {s t : State} (hx : exec (.faultLogFlush) s = .next t) :
    Keeps (Part.among (Instr.parts (.faultLogFlush))) s t := by
  change execFaultLogFlush  s = _ at hx
  unfold execFaultLogFlush at hx
  rw [event_inv hx]
  have hk : Keeps (Part.among (Instr.parts (.faultLogFlush))) s s := Keeps.refl s
  try dsimp only
  repeat' (first | with_reducible assumption | with_reducible apply keeps_faultLogFlush | exact trivial | intro _ | split)

theorem exec_flashWriteDone_keeps {s t : State} {region verified} (hx : exec (.flashWriteDone region verified) s = .next t) :
    Keeps (Part.among (Instr.parts (.flashWriteDone region verified))) s t := by
  change execFlashWriteDone region verified s = _ at hx
  unfold execFlashWriteDone at hx
  rw [event_inv hx]
  have hk : Keeps (Part.among (Instr.parts (.flashWriteDone region verified))) s s := Keeps.refl s
  try dsimp only
  repeat' (first | with_reducible assumption | with_reducible apply keeps_flashWriteDone | exact trivial | intro _ | split)

theorem exec_patrolScrub_keeps {s t : State} {die mc chan line rowWord correctable} (hx : exec (.patrolScrub die mc chan line rowWord correctable) s = .next t) :
    Keeps (Part.among (Instr.parts (.patrolScrub die mc chan line rowWord correctable))) s t := by
  change execPatrolScrub die mc chan line rowWord correctable s = _ at hx
  unfold execPatrolScrub at hx
  rw [event_inv hx]
  have hk : Keeps (Part.among (Instr.parts (.patrolScrub die mc chan line rowWord correctable))) s s := Keeps.refl s
  try dsimp only
  repeat' (first | with_reducible assumption | with_reducible apply keeps_patrolScrub | exact trivial | intro _ | split)

theorem exec_rowRemap_keeps {s t : State} {die mc chan rowWord} (hx : exec (.rowRemap die mc chan rowWord) s = .next t) :
    Keeps (Part.among (Instr.parts (.rowRemap die mc chan rowWord))) s t := by
  change execRowRemap die mc chan rowWord s = _ at hx
  unfold execRowRemap at hx
  rw [event_inv hx]
  have hk : Keeps (Part.among (Instr.parts (.rowRemap die mc chan rowWord))) s s := Keeps.refl s
  try dsimp only
  repeat' (first | with_reducible assumption | with_reducible apply keeps_rowRemap | exact trivial | intro _ | split)

theorem exec_caParityError_keeps {s t : State} {die mc chan retries read line reader} (hx : exec (.caParityError die mc chan retries read line reader) s = .next t) :
    Keeps (Part.among (Instr.parts (.caParityError die mc chan retries read line reader))) s t := by
  change execCaParityError die mc chan retries read line reader s = _ at hx
  unfold execCaParityError at hx
  rw [event_inv hx]
  have hk : Keeps (Part.among (Instr.parts (.caParityError die mc chan retries read line reader))) s s := Keeps.refl s
  try dsimp only
  repeat' (first | with_reducible assumption | with_reducible apply keeps_caParity | exact trivial | intro _ | split)

theorem exec_flitReplay_keeps {s t : State} {port} (hx : exec (.flitReplay port) s = .next t) :
    Keeps (Part.among (Instr.parts (.flitReplay port))) s t := by
  change execFlitReplay port s = _ at hx
  unfold execFlitReplay at hx
  rw [event_inv hx]
  have hk : Keeps (Part.among (Instr.parts (.flitReplay port))) s s := Keeps.refl s
  try dsimp only
  repeat' (first | with_reducible assumption | with_reducible apply keeps_flitReplay | exact trivial | intro _ | split)

theorem exec_laneFail_keeps {s t : State} {port lane} (hx : exec (.laneFail port lane) s = .next t) :
    Keeps (Part.among (Instr.parts (.laneFail port lane))) s t := by
  change execLaneFail port lane s = _ at hx
  unfold execLaneFail at hx
  rw [event_inv hx]
  have hk : Keeps (Part.among (Instr.parts (.laneFail port lane))) s s := Keeps.refl s
  try dsimp only
  repeat' (first | with_reducible assumption | with_reducible apply keeps_laneFail | exact trivial | intro _ | split)

theorem exec_laneRetrainDone_keeps {s t : State} {port} (hx : exec (.laneRetrainDone port) s = .next t) :
    Keeps (Part.among (Instr.parts (.laneRetrainDone port))) s t := by
  change execLaneRetrainDone port s = _ at hx
  unfold execLaneRetrainDone at hx
  rw [event_inv hx]
  have hk : Keeps (Part.among (Instr.parts (.laneRetrainDone port))) s s := Keeps.refl s
  try dsimp only
  repeat' (first | with_reducible assumption | with_reducible apply keeps_laneRetrainDone | exact trivial | intro _ | split)

theorem exec_portDown_keeps {s t : State} {port} (hx : exec (.portDown port) s = .next t) :
    Keeps (Part.among (Instr.parts (.portDown port))) s t := by
  change execPortDown port s = _ at hx
  unfold execPortDown at hx
  rw [event_inv hx]
  have hk : Keeps (Part.among (Instr.parts (.portDown port))) s s := Keeps.refl s
  try dsimp only
  repeat' (first | with_reducible assumption | with_reducible apply keeps_portDown | exact trivial | intro _ | split)

theorem exec_vlPortRetrain_keeps {s t : State} {port val} (hx : exec (.vlPortRetrain port val) s = .next t) :
    Keeps (Part.among (Instr.parts (.vlPortRetrain port val))) s t := by
  change execVlPortRetrain port val s = _ at hx
  unfold execVlPortRetrain at hx
  rw [event_inv hx]
  have hk : Keeps (Part.among (Instr.parts (.vlPortRetrain port val))) s s := Keeps.refl s
  try dsimp only
  repeat' (first | with_reducible assumption | with_reducible apply keeps_portRetrain | exact trivial | intro _ | split)

theorem exec_portRetrainDone_keeps {s t : State} {port result} (hx : exec (.portRetrainDone port result) s = .next t) :
    Keeps (Part.among (Instr.parts (.portRetrainDone port result))) s t := by
  change execPortRetrainDone port result s = _ at hx
  unfold execPortRetrainDone at hx
  rw [event_inv hx]
  have hk : Keeps (Part.among (Instr.parts (.portRetrainDone port result))) s s := Keeps.refl s
  try dsimp only
  repeat' (first | with_reducible assumption | with_reducible apply keeps_portRetrainDone | exact trivial | intro _ | split)

theorem exec_peerTraining_keeps {s t : State} {port} (hx : exec (.peerTraining port) s = .next t) :
    Keeps (Part.among (Instr.parts (.peerTraining port))) s t := by
  change execPeerTraining port s = _ at hx
  unfold execPeerTraining at hx
  rw [event_inv hx]
  have hk : Keeps (Part.among (Instr.parts (.peerTraining port))) s s := Keeps.refl s
  try dsimp only
  repeat' (first | with_reducible assumption | with_reducible apply keeps_peerTraining | exact trivial | intro _ | split)

theorem exec_farPortDown_keeps {s t : State} {port} (hx : exec (.farPortDown port) s = .next t) :
    Keeps (Part.among (Instr.parts (.farPortDown port))) s t := by
  change execFarPortDown port s = _ at hx
  unfold execFarPortDown at hx
  rw [event_inv hx]
  have hk : Keeps (Part.among (Instr.parts (.farPortDown port))) s s := Keeps.refl s
  try dsimp only
  repeat' (first | with_reducible assumption | with_reducible apply keeps_farPortDown | exact trivial | intro _ | split)

theorem exec_cxlRequestTimeout_keeps {s t : State} {port} (hx : exec (.cxlRequestTimeout port) s = .next t) :
    Keeps (Part.among (Instr.parts (.cxlRequestTimeout port))) s t := by
  change execCxlRequestTimeout port s = _ at hx
  unfold execCxlRequestTimeout at hx
  rw [event_inv hx]
  have hk : Keeps (Part.among (Instr.parts (.cxlRequestTimeout port))) s s := Keeps.refl s
  try dsimp only
  repeat' (first | with_reducible assumption | with_reducible apply keeps_farPortDown | exact trivial | intro _ | split)

theorem exec_trellisFire_keeps {s t : State} {asn entry} (hx : exec (.trellisFire asn entry) s = .next t) :
    Keeps (Part.among (Instr.parts (.trellisFire asn entry))) s t := by
  change execTrellisFire asn entry s = _ at hx
  unfold execTrellisFire at hx
  rw [event_inv hx]
  have hk : Keeps (Part.among (Instr.parts (.trellisFire asn entry))) s s := Keeps.refl s
  try dsimp only
  repeat' (first | with_reducible assumption | with_reducible apply keeps_trellisFire | exact trivial | intro _ | split)

theorem exec_ctsArrival_keeps {s t : State} {cts fromRank} (hx : exec (.ctsArrival cts fromRank) s = .next t) :
    Keeps (Part.among (Instr.parts (.ctsArrival cts fromRank))) s t := by
  change execCtsArrival cts fromRank s = _ at hx
  unfold execCtsArrival at hx
  rw [event_inv hx]
  have hk : Keeps (Part.among (Instr.parts (.ctsArrival cts fromRank))) s s := Keeps.refl s
  try dsimp only
  repeat' (first | with_reducible assumption | with_reducible apply keeps_ctsArrival | with_reducible apply keeps_linkEvent | exact trivial | intro _ | split)

theorem exec_ctsRetry_keeps {s t : State} {cts fromRank} (hx : exec (.ctsRetry cts fromRank) s = .next t) :
    Keeps (Part.among (Instr.parts (.ctsRetry cts fromRank))) s t := by
  change execCtsRetry cts fromRank s = _ at hx
  unfold execCtsRetry at hx
  rw [event_inv hx]
  have hk : Keeps (Part.among (Instr.parts (.ctsRetry cts fromRank))) s s := Keeps.refl s
  try dsimp only
  repeat' (first | with_reducible assumption | with_reducible apply keeps_ctsRetry | with_reducible apply keeps_linkEvent | exact trivial | intro _ | split)

theorem exec_packetArrival_keeps {s t : State} {p} (hx : exec (.packetArrival p) s = .next t) :
    Keeps (Part.among (Instr.parts (.packetArrival p))) s t := by
  change execPacketArrival p s = _ at hx
  unfold execPacketArrival at hx
  rw [event_inv hx]
  have hk : Keeps (Part.among (Instr.parts (.packetArrival p))) s s := Keeps.refl s
  try dsimp only
  repeat' (first | with_reducible assumption | with_reducible apply keeps_linkEvent | with_reducible apply keeps_packetArrival | exact trivial | intro _ | split)

theorem exec_packetAck_keeps {s t : State} {tag gen seq offset} (hx : exec (.packetAck tag gen seq offset) s = .next t) :
    Keeps (Part.among (Instr.parts (.packetAck tag gen seq offset))) s t := by
  change execPacketAck tag gen seq offset s = _ at hx
  unfold execPacketAck at hx
  rw [event_inv hx]
  have hk : Keeps (Part.among (Instr.parts (.packetAck tag gen seq offset))) s s := Keeps.refl s
  try dsimp only
  repeat' (first | with_reducible assumption | with_reducible apply keeps_linkEvent | with_reducible apply keeps_packetAck | exact trivial | intro _ | split)

theorem exec_firingComplete_keeps {s t : State} {asn entry} (hx : exec (.firingComplete asn entry) s = .next t) :
    Keeps (Part.among (Instr.parts (.firingComplete asn entry))) s t := by
  change execFiringComplete asn entry s = _ at hx
  unfold execFiringComplete at hx
  rw [event_inv hx]
  have hk : Keeps (Part.among (Instr.parts (.firingComplete asn entry))) s s := Keeps.refl s
  try dsimp only
  repeat' (first | with_reducible assumption | with_reducible apply keeps_firingComplete | exact trivial | intro _ | split)

theorem exec_abortArrival_keeps {s t : State} {tag gen seq reason} (hx : exec (.abortArrival tag gen seq reason) s = .next t) :
    Keeps (Part.among (Instr.parts (.abortArrival tag gen seq reason))) s t := by
  change execAbortArrival tag gen seq reason s = _ at hx
  unfold execAbortArrival at hx
  rw [event_inv hx]
  have hk : Keeps (Part.among (Instr.parts (.abortArrival tag gen seq reason))) s s := Keeps.refl s
  try dsimp only
  repeat' (first | with_reducible assumption | with_reducible apply keeps_abortArrival | with_reducible apply keeps_linkEvent | exact trivial | intro _ | split)

theorem exec_groupWait_keeps {s t : State} {asn entry} (hx : exec (.groupWait asn entry) s = .next t) :
    Keeps (Part.among (Instr.parts (.groupWait asn entry))) s t := by
  change execGroupWait asn entry s = _ at hx
  unfold execGroupWait at hx
  rw [event_inv hx]
  have hk : Keeps (Part.among (Instr.parts (.groupWait asn entry))) s s := Keeps.refl s
  try dsimp only
  repeat' (first | with_reducible assumption | with_reducible apply keeps_groupWait | exact trivial | intro _ | split)

theorem exec_tierStall_keeps {s t : State} {asn sem} (hx : exec (.tierStall asn sem) s = .next t) :
    Keeps (Part.among (Instr.parts (.tierStall asn sem))) s t := by
  change execTierStall asn sem s = _ at hx
  unfold execTierStall at hx
  rw [event_inv hx]
  have hk : Keeps (Part.among (Instr.parts (.tierStall asn sem))) s s := Keeps.refl s
  try dsimp only
  repeat' (first | with_reducible assumption | with_reducible apply keeps_tierStall | exact trivial | intro _ | split)

theorem exec_keeperPin_keeps {s t : State} {asn set} (hx : exec (.keeperPin asn set) s = .next t) :
    Keeps (Part.among (Instr.parts (.keeperPin asn set))) s t := by
  change execKeeperPin asn set s = _ at hx
  unfold execKeeperPin at hx
  rw [event_inv hx]
  have hk : Keeps (Part.among (Instr.parts (.keeperPin asn set))) s s := Keeps.refl s
  try dsimp only
  repeat' (first | with_reducible assumption | with_reducible apply keeps_keeperPin | exact trivial | intro _ | split)

theorem exec_keeperRetire_keeps {s t : State} {asn set} (hx : exec (.keeperRetire asn set) s = .next t) :
    Keeps (Part.among (Instr.parts (.keeperRetire asn set))) s t := by
  change execKeeperRetire asn set s = _ at hx
  unfold execKeeperRetire at hx
  rw [event_inv hx]
  have hk : Keeps (Part.among (Instr.parts (.keeperRetire asn set))) s s := Keeps.refl s
  try dsimp only
  repeat' (first | with_reducible assumption | with_reducible apply keeps_keeperRetire | exact trivial | intro _ | split)

theorem exec_keeperClaim_keeps {s t : State} {asn set} (hx : exec (.keeperClaim asn set) s = .next t) :
    Keeps (Part.among (Instr.parts (.keeperClaim asn set))) s t := by
  change execKeeperClaim asn set s = _ at hx
  unfold execKeeperClaim at hx
  rw [event_inv hx]
  have hk : Keeps (Part.among (Instr.parts (.keeperClaim asn set))) s s := Keeps.refl s
  try dsimp only
  repeat' (first | with_reducible assumption | with_reducible apply keeps_keeperClaim | exact trivial | intro _ | split)

theorem exec_keeperPublish_keeps {s t : State} {asn set} (hx : exec (.keeperPublish asn set) s = .next t) :
    Keeps (Part.among (Instr.parts (.keeperPublish asn set))) s t := by
  change execKeeperPublish asn set s = _ at hx
  unfold execKeeperPublish at hx
  rw [event_inv hx]
  have hk : Keeps (Part.among (Instr.parts (.keeperPublish asn set))) s s := Keeps.refl s
  try dsimp only
  repeat' (first | with_reducible assumption | with_reducible apply keeps_keeperPublish | exact trivial | intro _ | split)

theorem exec_codecSubmitConsume_keeps {s t : State} {stream} (hx : exec (.codecSubmitConsume stream) s = .next t) :
    Keeps (Part.among (Instr.parts (.codecSubmitConsume stream))) s t := by
  change execCodecSubmitConsume stream s = _ at hx
  unfold execCodecSubmitConsume at hx
  rw [event_inv hx]
  have hk : Keeps (Part.among (Instr.parts (.codecSubmitConsume stream))) s s := Keeps.refl s
  try dsimp only
  repeat' (first | with_reducible assumption | with_reducible apply keeps_submitConsume | exact trivial | intro _ | split)

theorem exec_codecStreamSwitch_keeps {s t : State} {unit} (hx : exec (.codecStreamSwitch unit) s = .next t) :
    Keeps (Part.among (Instr.parts (.codecStreamSwitch unit))) s t := by
  change execCodecStreamSwitch unit s = _ at hx
  unfold execCodecStreamSwitch at hx
  rw [event_inv hx]
  have hk : Keeps (Part.among (Instr.parts (.codecStreamSwitch unit))) s s := Keeps.refl s
  try dsimp only
  repeat' (first | with_reducible assumption | with_reducible apply keeps_streamSwitch | exact trivial | intro _ | split)

theorem exec_codecFrameDone_keeps {s t : State} {unit} (hx : exec (.codecFrameDone unit) s = .next t) :
    Keeps (Part.among (Instr.parts (.codecFrameDone unit))) s t := by
  change execCodecFrameDone unit s = _ at hx
  unfold execCodecFrameDone at hx
  rw [event_inv hx]
  have hk : Keeps (Part.among (Instr.parts (.codecFrameDone unit))) s s := Keeps.refl s
  try dsimp only
  repeat' (first | with_reducible assumption | with_reducible apply keeps_frameDone | exact trivial | intro _ | split)

theorem exec_codecReleaseConsume_keeps {s t : State} {stream} (hx : exec (.codecReleaseConsume stream) s = .next t) :
    Keeps (Part.among (Instr.parts (.codecReleaseConsume stream))) s t := by
  change execCodecReleaseConsume stream s = _ at hx
  unfold execCodecReleaseConsume at hx
  rw [event_inv hx]
  have hk : Keeps (Part.among (Instr.parts (.codecReleaseConsume stream))) s s := Keeps.refl s
  try dsimp only
  repeat' (first | with_reducible assumption | with_reducible apply keeps_releaseConsume | exact trivial | intro _ | split)

theorem exec_codecPacedRecord_keeps {s t : State} {stream} (hx : exec (.codecPacedRecord stream) s = .next t) :
    Keeps (Part.among (Instr.parts (.codecPacedRecord stream))) s t := by
  change execCodecPacedRecord stream s = _ at hx
  unfold execCodecPacedRecord at hx
  rw [event_inv hx]
  have hk : Keeps (Part.among (Instr.parts (.codecPacedRecord stream))) s s := Keeps.refl s
  try dsimp only
  repeat' (first | with_reducible assumption | with_reducible apply keeps_pacedRecord | exact trivial | intro _ | split)

theorem exec_unmeteredIntervalClose_keeps {s t : State} {energyMJ} (hx : exec (.unmeteredIntervalClose energyMJ) s = .next t) :
    Keeps (Part.among (Instr.parts (.unmeteredIntervalClose energyMJ))) s t := by
  change execUnmeteredIntervalClose energyMJ s = _ at hx
  unfold execUnmeteredIntervalClose at hx
  rw [event_inv hx]
  have hk : Keeps (Part.among (Instr.parts (.unmeteredIntervalClose energyMJ))) s s := Keeps.refl s
  try dsimp only
  repeat' (first | with_reducible assumption | with_reducible apply keeps_unmeteredInterval | exact trivial | intro _ | split)

theorem exec_ctxExportDone_keeps {s t : State} {asn} (hx : exec (.ctxExportDone asn) s = .next t) :
    Keeps (Part.among (Instr.parts (.ctxExportDone asn))) s t := by
  change execCtxExportDone asn s = _ at hx
  unfold execCtxExportDone at hx
  rw [event_inv hx]
  have hk : Keeps (Part.among (Instr.parts (.ctxExportDone asn))) s s := Keeps.refl s
  try dsimp only
  repeat' (first | with_reducible assumption | with_reducible apply keeps_exportDone | exact trivial | intro _ | split)

/-- A well-formed command has its meaning's effect. -/
theorem exec_endProg_next {s : State} {asn core} (hw : (Instr.endProg asn core).wf = true) :
    exec (.endProg asn core) s = .next (endProg s asn core) := by
  change execEndProg asn core s = _
  unfold execEndProg
  exact event_next _ _ hw

/-- A well-formed command has its meaning's effect. -/
theorem exec_loop_next {s : State} {asn core} (hw : (Instr.loop asn core).wf = true) :
    exec (.loop asn core) s = .next (loop s asn core) := by
  change execLoop asn core s = _
  unfold execLoop
  exact event_next _ _ hw

/-- A well-formed command has its meaning's effect. -/
theorem exec_branch_next {s : State} {asn core} (hw : (Instr.branch asn core).wf = true) :
    exec (.branch asn core) s = .next (branch s asn core) := by
  change execBranch asn core s = _
  unfold execBranch
  exact event_next _ _ hw

/-- A well-formed command has its meaning's effect. -/
theorem exec_waitConsume_next {s : State} {asn core} (hw : (Instr.waitConsume asn core).wf = true) :
    exec (.waitConsume asn core) s = .next (waitRow s asn core 0 true) := by
  change execWaitConsume asn core s = _
  unfold execWaitConsume
  exact event_next _ _ hw

/-- A well-formed command has its meaning's effect. -/
theorem exec_waitPeek_next {s : State} {asn core} (hw : (Instr.waitPeek asn core).wf = true) :
    exec (.waitPeek asn core) s = .next (waitRow s asn core 1 false) := by
  change execWaitPeek asn core s = _
  unfold execWaitPeek
  exact event_next _ _ hw

/-- A well-formed command has its meaning's effect. -/
theorem exec_signal_next {s : State} {asn core} (hw : (Instr.signal asn core).wf = true) :
    exec (.signal asn core) s = .next (signal s asn core) := by
  change execSignal asn core s = _
  unfold execSignal
  exact event_next _ _ hw

/-- A well-formed command has its meaning's effect. -/
theorem exec_fence_next {s : State} {asn core} (hw : (Instr.fence asn core).wf = true) :
    exec (.fence asn core) s = .next (fence s asn core) := by
  change execFence asn core s = _
  unfold execFence
  exact event_next _ _ hw

/-- A well-formed command has its meaning's effect. -/
theorem exec_trig_next {s : State} {asn core} (hw : (Instr.trig asn core).wf = true) :
    exec (.trig asn core) s = .next (trig s asn core) := by
  change execTrig asn core s = _
  unfold execTrig
  exact event_next _ _ hw

/-- A well-formed command has its meaning's effect. -/
theorem exec_stint_next {s : State} {asn core} (hw : (Instr.stint asn core).wf = true) :
    exec (.stint asn core) s = .next (stint s asn core) := by
  change execStint asn core s = _
  unfold execStint
  exact event_next _ _ hw

/-- A well-formed command has its meaning's effect. -/
theorem exec_loadCopy_next {s : State} {asn core} (hw : (Instr.loadCopy asn core).wf = true) :
    exec (.loadCopy asn core) s = .next (unitRow s asn core (isRow 0x10 0)) := by
  change execLoadCopy asn core s = _
  unfold execLoadCopy
  exact event_next _ _ hw

/-- A well-formed command has its meaning's effect. -/
theorem exec_loadXreg_next {s : State} {asn core} (hw : (Instr.loadXreg asn core).wf = true) :
    exec (.loadXreg asn core) s = .next (unitRow s asn core (isRow 0x10 1)) := by
  change execLoadXreg asn core s = _
  unfold execLoadXreg
  exact event_next _ _ hw

/-- A well-formed command has its meaning's effect. -/
theorem exec_storeCopy_next {s : State} {asn core} (hw : (Instr.storeCopy asn core).wf = true) :
    exec (.storeCopy asn core) s = .next (unitRow s asn core (isRow 0x11 0)) := by
  change execStoreCopy asn core s = _
  unfold execStoreCopy
  exact event_next _ _ hw

/-- A well-formed command has its meaning's effect. -/
theorem exec_storeAddInt32_next {s : State} {asn core} (hw : (Instr.storeAddInt32 asn core).wf = true) :
    exec (.storeAddInt32 asn core) s = .next (unitRow s asn core (isRow 0x11 1)) := by
  change execStoreAddInt32 asn core s = _
  unfold execStoreAddInt32
  exact event_next _ _ hw

/-- A well-formed command has its meaning's effect. -/
theorem exec_storeMinInt32_next {s : State} {asn core} (hw : (Instr.storeMinInt32 asn core).wf = true) :
    exec (.storeMinInt32 asn core) s = .next (unitRow s asn core (isRow 0x11 2)) := by
  change execStoreMinInt32 asn core s = _
  unfold execStoreMinInt32
  exact event_next _ _ hw

/-- A well-formed command has its meaning's effect. -/
theorem exec_storeMaxInt32_next {s : State} {asn core} (hw : (Instr.storeMaxInt32 asn core).wf = true) :
    exec (.storeMaxInt32 asn core) s = .next (unitRow s asn core (isRow 0x11 3)) := by
  change execStoreMaxInt32 asn core s = _
  unfold execStoreMaxInt32
  exact event_next _ _ hw

/-- A well-formed command has its meaning's effect. -/
theorem exec_storeCas_next {s : State} {asn core} (hw : (Instr.storeCas asn core).wf = true) :
    exec (.storeCas asn core) s = .next (unitRow s asn core (isRow 0x11 4)) := by
  change execStoreCas asn core s = _
  unfold execStoreCas
  exact event_next _ _ hw

/-- A well-formed command has its meaning's effect. -/
theorem exec_storeAddFloat_next {s : State} {asn core} (hw : (Instr.storeAddFloat asn core).wf = true) :
    exec (.storeAddFloat asn core) s = .next (unitRow s asn core (isRow 0x11 5)) := by
  change execStoreAddFloat asn core s = _
  unfold execStoreAddFloat
  exact event_next _ _ hw

/-- A well-formed command has its meaning's effect. -/
theorem exec_storeOrdered_next {s : State} {asn core} (hw : (Instr.storeOrdered asn core).wf = true) :
    exec (.storeOrdered asn core) s = .next (unitRow s asn core (isRow 0x11 6)) := by
  change execStoreOrdered asn core s = _
  unfold execStoreOrdered
  exact event_next _ _ hw

/-- A well-formed command has its meaning's effect. -/
theorem exec_storeAddInt64_next {s : State} {asn core} (hw : (Instr.storeAddInt64 asn core).wf = true) :
    exec (.storeAddInt64 asn core) s = .next (unitRow s asn core (isRow 0x11 7)) := by
  change execStoreAddInt64 asn core s = _
  unfold execStoreAddInt64
  exact event_next _ _ hw

/-- A well-formed command has its meaning's effect. -/
theorem exec_decantFromVirtual_next {s : State} {asn core} (hw : (Instr.decantFromVirtual asn core).wf = true) :
    exec (.decantFromVirtual asn core) s = .next (tileRow s asn core (isRow 0x12 0) (decantBody s)) := by
  change execDecantFromVirtual asn core s = _
  unfold execDecantFromVirtual
  exact event_next _ _ hw

/-- A well-formed command has its meaning's effect. -/
theorem exec_decantFromHost_next {s : State} {asn core} (hw : (Instr.decantFromHost asn core).wf = true) :
    exec (.decantFromHost asn core) s = .next (tileRow s asn core (isRow 0x12 1) (decantBody s)) := by
  change execDecantFromHost asn core s = _
  unfold execDecantFromHost
  exact event_next _ _ hw

/-- A well-formed command has its meaning's effect. -/
theorem exec_leesCheck_next {s : State} {asn core} (hw : (Instr.leesCheck asn core).wf = true) :
    exec (.leesCheck asn core) s = .next (unitRow s asn core (isRow 0x13 0)) := by
  change execLeesCheck asn core s = _
  unfold execLeesCheck
  exact event_next _ _ hw

/-- A well-formed command has its meaning's effect. -/
theorem exec_matProd_next {s : State} {asn core} (hw : (Instr.matProd asn core).wf = true) :
    exec (.matProd asn core) s = .next (epochRow s asn core (isRow 0x20 0) true) := by
  change execMatProd asn core s = _
  unfold execMatProd
  exact event_next _ _ hw

/-- A well-formed command has its meaning's effect. -/
theorem exec_attnWindow_next {s : State} {asn core} (hw : (Instr.attnWindow asn core).wf = true) :
    exec (.attnWindow asn core) s = .next (unitRow s asn core (isRow 0x21 0)) := by
  change execAttnWindow asn core s = _
  unfold execAttnWindow
  exact event_next _ _ hw

/-- A well-formed command has its meaning's effect. -/
theorem exec_attnCross_next {s : State} {asn core} (hw : (Instr.attnCross asn core).wf = true) :
    exec (.attnCross asn core) s = .next (unitRow s asn core (isRow 0x21 1)) := by
  change execAttnCross asn core s = _
  unfold execAttnCross
  exact event_next _ _ hw

/-- A well-formed command has its meaning's effect. -/
theorem exec_attnPiece_next {s : State} {asn core} (hw : (Instr.attnPiece asn core).wf = true) :
    exec (.attnPiece asn core) s = .next (unitRow s asn core (isRow 0x21 2)) := by
  change execAttnPiece asn core s = _
  unfold execAttnPiece
  exact event_next _ _ hw

/-- A well-formed command has its meaning's effect. -/
theorem exec_convolve_next {s : State} {asn core} (hw : (Instr.convolve asn core).wf = true) :
    exec (.convolve asn core) s = .next (unitRow s asn core (isRow 0x22 0)) := by
  change execConvolve asn core s = _
  unfold execConvolve
  exact event_next _ _ hw

/-- A well-formed command has its meaning's effect. -/
theorem exec_poolMax_next {s : State} {asn core} (hw : (Instr.poolMax asn core).wf = true) :
    exec (.poolMax asn core) s = .next (unitRow s asn core (isRow 0x23 0)) := by
  change execPoolMax asn core s = _
  unfold execPoolMax
  exact event_next _ _ hw

/-- A well-formed command has its meaning's effect. -/
theorem exec_poolAvg_next {s : State} {asn core} (hw : (Instr.poolAvg asn core).wf = true) :
    exec (.poolAvg asn core) s = .next (unitRow s asn core (isRow 0x23 1)) := by
  change execPoolAvg asn core s = _
  unfold execPoolAvg
  exact event_next _ _ hw

/-- A well-formed command has its meaning's effect. -/
theorem exec_poolNearest_next {s : State} {asn core} (hw : (Instr.poolNearest asn core).wf = true) :
    exec (.poolNearest asn core) s = .next (unitRow s asn core (isRow 0x23 2)) := by
  change execPoolNearest asn core s = _
  unfold execPoolNearest
  exact event_next _ _ hw

/-- A well-formed command has its meaning's effect. -/
theorem exec_foldStats_next {s : State} {asn core} (hw : (Instr.foldStats asn core).wf = true) :
    exec (.foldStats asn core) s = .next (unitRow s asn core (isRow 0x24 0)) := by
  change execFoldStats asn core s = _
  unfold execFoldStats
  exact event_next _ _ hw

/-- A well-formed command has its meaning's effect. -/
theorem exec_foldMerge_next {s : State} {asn core} (hw : (Instr.foldMerge asn core).wf = true) :
    exec (.foldMerge asn core) s = .next (unitRow s asn core (isRow 0x24 1)) := by
  change execFoldMerge asn core s = _
  unfold execFoldMerge
  exact event_next _ _ hw

/-- A well-formed command has its meaning's effect. -/
theorem exec_foldNorm_next {s : State} {asn core} (hw : (Instr.foldNorm asn core).wf = true) :
    exec (.foldNorm asn core) s = .next (unitRow s asn core (isRow 0x24 2)) := by
  change execFoldNorm asn core s = _
  unfold execFoldNorm
  exact event_next _ _ hw

/-- A well-formed command has its meaning's effect. -/
theorem exec_vecEw_next {s : State} {asn core} (hw : (Instr.vecEw asn core).wf = true) :
    exec (.vecEw asn core) s = .next (unitRow s asn core (isRow 0x25 0)) := by
  change execVecEw asn core s = _
  unfold execVecEw
  exact event_next _ _ hw

/-- A well-formed command has its meaning's effect. -/
theorem exec_vecRowb_next {s : State} {asn core} (hw : (Instr.vecRowb asn core).wf = true) :
    exec (.vecRowb asn core) s = .next (unitRow s asn core (isRow 0x25 1)) := by
  change execVecRowb asn core s = _
  unfold execVecRowb
  exact event_next _ _ hw

/-- A well-formed command has its meaning's effect. -/
theorem exec_vecColb_next {s : State} {asn core} (hw : (Instr.vecColb asn core).wf = true) :
    exec (.vecColb asn core) s = .next (unitRow s asn core (isRow 0x25 2)) := by
  change execVecColb asn core s = _
  unfold execVecColb
  exact event_next _ _ hw

/-- A well-formed command has its meaning's effect. -/
theorem exec_vecReduce_next {s : State} {asn core} (hw : (Instr.vecReduce asn core).wf = true) :
    exec (.vecReduce asn core) s = .next (unitRow s asn core (isRow 0x25 3)) := by
  change execVecReduce asn core s = _
  unfold execVecReduce
  exact event_next _ _ hw

/-- A well-formed command has its meaning's effect. -/
theorem exec_vecScalar_next {s : State} {asn core} (hw : (Instr.vecScalar asn core).wf = true) :
    exec (.vecScalar asn core) s = .next (vecScalar s asn core) := by
  change execVecScalar asn core s = _
  unfold execVecScalar
  exact event_next _ _ hw

/-- A well-formed command has its meaning's effect. -/
theorem exec_funcApply_next {s : State} {asn core} (hw : (Instr.funcApply asn core).wf = true) :
    exec (.funcApply asn core) s = .next (epochRow s asn core (isRow 0x26 0) false) := by
  change execFuncApply asn core s = _
  unfold execFuncApply
  exact event_next _ _ hw

/-- A well-formed command has its meaning's effect. -/
theorem exec_funcReload_next {s : State} {asn core} (hw : (Instr.funcReload asn core).wf = true) :
    exec (.funcReload asn core) s = .next (unitRow s asn core (isRow 0x26 1)) := by
  change execFuncReload asn core s = _
  unfold execFuncReload
  exact event_next _ _ hw

/-- A well-formed command has its meaning's effect. -/
theorem exec_blendRun_next {s : State} {asn core} (hw : (Instr.blendRun asn core).wf = true) :
    exec (.blendRun asn core) s = .next (unitRow s asn core (isRow 0x27 0)) := by
  change execBlendRun asn core s = _
  unfold execBlendRun
  exact event_next _ _ hw

/-- A well-formed command has its meaning's effect. -/
theorem exec_blendLoad_next {s : State} {asn core} (hw : (Instr.blendLoad asn core).wf = true) :
    exec (.blendLoad asn core) s = .next (unitRow s asn core (isRow 0x27 1)) := by
  change execBlendLoad asn core s = _
  unfold execBlendLoad
  exact event_next _ _ hw

/-- A well-formed command has its meaning's effect. -/
theorem exec_instructionComplete_next {s : State} {asn core done} (hw : (Instr.instructionComplete asn core done).wf = true) :
    exec (.instructionComplete asn core done) s = .next (instructionComplete s asn core done) := by
  change execInstructionComplete asn core done s = _
  unfold execInstructionComplete
  exact event_next _ _ hw

/-- A well-formed command has its meaning's effect. -/
theorem exec_tasterVerdict_next {s : State} {asn cluster} (hw : (Instr.tasterVerdict asn cluster).wf = true) :
    exec (.tasterVerdict asn cluster) s = .next (tasterVerdict s asn cluster) := by
  change execTasterVerdict asn cluster s = _
  unfold execTasterVerdict
  exact event_next _ _ hw

/-- A well-formed command has its meaning's effect. -/
theorem exec_promotionDone_next {s : State} {asn vpn} (hw : (Instr.promotionDone asn vpn).wf = true) :
    exec (.promotionDone asn vpn) s = .next (goCtx (promotionDone s asn vpn) asn) := by
  change execPromotionDone asn vpn s = _
  unfold execPromotionDone
  exact event_next _ _ hw

/-- A well-formed command has its meaning's effect. -/
theorem exec_waitSatisfied_next {s : State} {asn sem} (hw : (Instr.waitSatisfied asn sem).wf = true) :
    exec (.waitSatisfied asn sem) s = .next (waitSatisfied s asn sem) := by
  change execWaitSatisfied asn sem s = _
  unfold execWaitSatisfied
  exact event_next _ _ hw

/-- A well-formed command has its meaning's effect. -/
theorem exec_pieceLandingReady_next {s : State} {asn core id} (hw : (Instr.pieceLandingReady asn core id).wf = true) :
    exec (.pieceLandingReady asn core id) s = .next (pieceLandingReady s asn core id) := by
  change execPieceLandingReady asn core id s = _
  unfold execPieceLandingReady
  exact event_next _ _ hw

/-- A well-formed command has its meaning's effect. -/
theorem exec_orderedTurn_next {s : State} {asn core id} (hw : (Instr.orderedTurn asn core id).wf = true) :
    exec (.orderedTurn asn core id) s = .next (orderedTurn s asn core id) := by
  change execOrderedTurn asn core id s = _
  unfold execOrderedTurn
  exact event_next _ _ hw

/-- A well-formed command has its meaning's effect. -/
theorem exec_decantAccepted_next {s : State} {asn core} (hw : (Instr.decantAccepted asn core).wf = true) :
    exec (.decantAccepted asn core) s = .next (decantAccepted s asn core) := by
  change execDecantAccepted asn core s = _
  unfold execDecantAccepted
  exact event_next _ _ hw

/-- A well-formed command has its meaning's effect. -/
theorem exec_decantPageDone_next {s : State} {id host} (hw : (Instr.decantPageDone id host).wf = true) :
    exec (.decantPageDone id host) s = .next (decantPage s id host) := by
  change execDecantPageDone id host s = _
  unfold execDecantPageDone
  exact event_next _ _ hw

/-- A well-formed command has its meaning's effect. -/
theorem exec_stintOverrun_next {s : State} {asn core} (hw : (Instr.stintOverrun asn core).wf = true) :
    exec (.stintOverrun asn core) s = .next (stintOverrun s asn core) := by
  change execStintOverrun asn core s = _
  unfold execStintOverrun
  exact event_next _ _ hw

/-- A well-formed command has its meaning's effect. -/
theorem exec_fabricHang_next {s : State} {die} (hw : (Instr.fabricHang die).wf = true) :
    exec (.fabricHang die) s = .next (fabricHang s die) := by
  change execFabricHang die s = _
  unfold execFabricHang
  exact event_next _ _ hw

/-- A well-formed command has its meaning's effect. -/
theorem exec_dieLogicResetDone_next {s : State} {die} (hw : (Instr.dieLogicResetDone die).wf = true) :
    exec (.dieLogicResetDone die) s = .next (dieLogicResetDone s die) := by
  change execDieLogicResetDone die s = _
  unfold execDieLogicResetDone
  exact event_next _ _ hw

/-- A well-formed command has its meaning's effect. -/
theorem exec_builtInTestDone_next {s : State} {die findings} (hw : (Instr.builtInTestDone die findings).wf = true) :
    exec (.builtInTestDone die findings) s = .next (builtInTestDone s die findings) := by
  change execBuiltInTestDone die findings s = _
  unfold execBuiltInTestDone
  exact event_next _ _ hw

/-- A well-formed command has its meaning's effect. -/
theorem exec_jobComplete_next {s : State} {asn} (hw : (Instr.jobComplete asn).wf = true) :
    exec (.jobComplete asn) s = .next (jobComplete s asn) := by
  change execJobComplete asn s = _
  unfold execJobComplete
  exact event_next _ _ hw

/-- A well-formed command has its meaning's effect. -/
theorem exec_seatingDecision_next {s : State} (hw : (Instr.seatingDecision).wf = true) :
    exec (.seatingDecision) s = .next (seatingDecision s) := by
  change execSeatingDecision  s = _
  unfold execSeatingDecision
  exact event_next _ _ hw

/-- A well-formed command has its meaning's effect. -/
theorem exec_sliceExpiry_next {s : State} {asn} (hw : (Instr.sliceExpiry asn).wf = true) :
    exec (.sliceExpiry asn) s = .next (sliceExpiry s asn) := by
  change execSliceExpiry asn s = _
  unfold execSliceExpiry
  exact event_next _ _ hw

/-- A well-formed command has its meaning's effect. -/
theorem exec_corkBegin_next {s : State} {asn} (hw : (Instr.corkBegin asn).wf = true) :
    exec (.corkBegin asn) s = .next (corkBegin s asn) := by
  change execCorkBegin asn s = _
  unfold execCorkBegin
  exact event_next _ _ hw

/-- A well-formed command has its meaning's effect. -/
theorem exec_corkDone_next {s : State} {asn} (hw : (Instr.corkDone asn).wf = true) :
    exec (.corkDone asn) s = .next (corkDone s asn) := by
  change execCorkDone asn s = _
  unfold execCorkDone
  exact event_next _ _ hw

/-- A well-formed command has its meaning's effect. -/
theorem exec_uncorkDone_next {s : State} {asn} (hw : (Instr.uncorkDone asn).wf = true) :
    exec (.uncorkDone asn) s = .next (uncorkDone s asn) := by
  change execUncorkDone asn s = _
  unfold execUncorkDone
  exact event_next _ _ hw

/-- A well-formed command has its meaning's effect. -/
theorem exec_nop_next {s : State} {h} (hw : (Instr.nop h).wf = true) :
    exec (.nop h) s = .next (submit s h (.nop h) 0x0001 0 (startNop h)) := by
  change execNop h s = _
  unfold execNop
  exact event_next _ _ hw

/-- A well-formed command has its meaning's effect. -/
theorem exec_reservedCmd_next {s : State} {h code first} (hw : (Instr.reservedCmd h code first).wf = true) :
    exec (.reservedCmd h code first) s = .next (reservedCmd s h code first) := by
  change execReservedCmd h code first s = _
  unfold execReservedCmd
  exact event_next _ _ hw

/-- A well-formed command has its meaning's effect. -/
theorem exec_ctxCreate_next {s : State} {h asn cls kind sliceUs clusters imageVA resumeVA resumeCount} (hw : (Instr.ctxCreate h asn cls kind sliceUs clusters imageVA resumeVA resumeCount).wf = true) :
    exec (.ctxCreate h asn cls kind sliceUs clusters imageVA resumeVA resumeCount) s = .next (submit s h (.ctxCreate h asn cls kind sliceUs clusters imageVA resumeVA resumeCount) 0x0010 0 (startCreate h asn cls kind sliceUs clusters imageVA resumeVA resumeCount)) := by
  change execCtxCreate h asn cls kind sliceUs clusters imageVA resumeVA resumeCount s = _
  unfold execCtxCreate
  exact event_next _ _ hw

/-- A well-formed command has its meaning's effect. -/
theorem exec_ctxDestroy_next {s : State} {h asn} (hw : (Instr.ctxDestroy h asn).wf = true) :
    exec (.ctxDestroy h asn) s = .next (submit s h (.ctxDestroy h asn) 0x0011 0 (startDestroy h asn)) := by
  change execCtxDestroy h asn s = _
  unfold execCtxDestroy
  exact event_next _ _ hw

/-- A well-formed command has its meaning's effect. -/
theorem exec_ctxCork_next {s : State} {h asn} (hw : (Instr.ctxCork h asn).wf = true) :
    exec (.ctxCork h asn) s = .next (submit s h (.ctxCork h asn) 0x0012 0 (startCtxCork h asn)) := by
  change execCtxCork h asn s = _
  unfold execCtxCork
  exact event_next _ _ hw

/-- A well-formed command has its meaning's effect. -/
theorem exec_ctxUncork_next {s : State} {h asn clusters} (hw : (Instr.ctxUncork h asn clusters).wf = true) :
    exec (.ctxUncork h asn clusters) s = .next (submit s h (.ctxUncork h asn clusters) 0x0013 0 (startUncork h asn clusters)) := by
  change execCtxUncork h asn clusters s = _
  unfold execCtxUncork
  exact event_next _ _ hw

/-- A well-formed command has its meaning's effect. -/
theorem exec_ctxExport_next {s : State} {h asn move imageVA} (hw : (Instr.ctxExport h asn move imageVA).wf = true) :
    exec (.ctxExport h asn move imageVA) s = .next (submit s h (.ctxExport h asn move imageVA) 0x0014 0 (startExport h asn move imageVA)) := by
  change execCtxExport h asn move imageVA s = _
  unfold execCtxExport
  exact event_next _ _ hw

/-- A well-formed command has its meaning's effect. -/
theorem exec_ctxSetClass_next {s : State} {h asn cls sliceUs} (hw : (Instr.ctxSetClass h asn cls sliceUs).wf = true) :
    exec (.ctxSetClass h asn cls sliceUs) s = .next (submit s h (.ctxSetClass h asn cls sliceUs) 0x0015 0 (startSetClass h asn cls sliceUs)) := by
  change execCtxSetClass h asn cls sliceUs s = _
  unfold execCtxSetClass
  exact event_next _ _ hw

/-- A well-formed command has its meaning's effect. -/
theorem exec_asnDestroy_next {s : State} {h asn} (hw : (Instr.asnDestroy h asn).wf = true) :
    exec (.asnDestroy h asn) s = .next (submit s h (.asnDestroy h asn) 0x0016 0 (startAsnDestroy h asn)) := by
  change execAsnDestroy h asn s = _
  unfold execAsnDestroy
  exact event_next _ _ hw

/-- A well-formed command has its meaning's effect. -/
theorem exec_semAliasSet_next {s : State} {h asn index ownerAsn ownerIndex} (hw : (Instr.semAliasSet h asn index ownerAsn ownerIndex).wf = true) :
    exec (.semAliasSet h asn index ownerAsn ownerIndex) s = .next (submit s h (.semAliasSet h asn index ownerAsn ownerIndex) 0x0017 0 (startAliasSet h asn index ownerAsn ownerIndex)) := by
  change execSemAliasSet h asn index ownerAsn ownerIndex s = _
  unfold execSemAliasSet
  exact event_next _ _ hw

/-- A well-formed command has its meaning's effect. -/
theorem exec_semAliasClear_next {s : State} {h asn index ownerAsn ownerIndex} (hw : (Instr.semAliasClear h asn index ownerAsn ownerIndex).wf = true) :
    exec (.semAliasClear h asn index ownerAsn ownerIndex) s = .next (submit s h (.semAliasClear h asn index ownerAsn ownerIndex) 0x0017 0 (startAliasClear h asn index ownerAsn ownerIndex)) := by
  change execSemAliasClear h asn index ownerAsn ownerIndex s = _
  unfold execSemAliasClear
  exact event_next _ _ hw

/-- A well-formed command has its meaning's effect. -/
theorem exec_semSignal_next {s : State} {h asn index n} (hw : (Instr.semSignal h asn index n).wf = true) :
    exec (.semSignal h asn index n) s = .next (submit s h (.semSignal h asn index n) 0x0018 0 (startSemSignal h asn index n)) := by
  change execSemSignal h asn index n s = _
  unfold execSemSignal
  exact event_next _ _ hw

/-- A well-formed command has its meaning's effect. -/
theorem exec_jobLaunch_next {s : State} {h asn p rank progLen progVA seed} (hw : (Instr.jobLaunch h asn p rank progLen progVA seed).wf = true) :
    exec (.jobLaunch h asn p rank progLen progVA seed) s = .next (submit s h (.jobLaunch h asn p rank progLen progVA seed) 0x0020 0 (startJobLaunch h asn p rank progLen progVA seed)) := by
  change execJobLaunch h asn p rank progLen progVA seed s = _
  unfold execJobLaunch
  exact event_next _ _ hw

/-- A well-formed command has its meaning's effect. -/
theorem exec_jobEnd_next {s : State} {h asn} (hw : (Instr.jobEnd h asn).wf = true) :
    exec (.jobEnd h asn) s = .next (submit s h (.jobEnd h asn) 0x0021 0 (startJobEnd h asn)) := by
  change execJobEnd h asn s = _
  unfold execJobEnd
  exact event_next _ _ hw

/-- A well-formed command has its meaning's effect. -/
theorem exec_descBind_next {s : State} {h asn first count srcVA} (hw : (Instr.descBind h asn first count srcVA).wf = true) :
    exec (.descBind h asn first count srcVA) s = .next (submit s h (.descBind h asn first count srcVA) 0x0022 first (startDescBind h asn first count srcVA)) := by
  change execDescBind h asn first count srcVA s = _
  unfold execDescBind
  exact event_next _ _ hw

/-- A well-formed command has its meaning's effect. -/
theorem exec_trellisBind_next {s : State} {h asn entries tableVA} (hw : (Instr.trellisBind h asn entries tableVA).wf = true) :
    exec (.trellisBind h asn entries tableVA) s = .next (submit s h (.trellisBind h asn entries tableVA) 0x0023 0 (startTrellisBind h asn entries tableVA)) := by
  change execTrellisBind h asn entries tableVA s = _
  unfold execTrellisBind
  exact event_next _ _ hw

/-- A well-formed command has its meaning's effect. -/
theorem exec_versionSet_next {s : State} {h asn set slots semBase record} (hw : (Instr.versionSet h asn set slots semBase record).wf = true) :
    exec (.versionSet h asn set slots semBase record) s = .next (submit s h (.versionSet h asn set slots semBase record) 0x0024 0 (startVersionSet h asn set slots semBase record)) := by
  change execVersionSet h asn set slots semBase record s = _
  unfold execVersionSet
  exact event_next _ _ hw

/-- A well-formed command has its meaning's effect. -/
theorem exec_memAlloc_next {s : State} {h asn tier w pages va place} (hw : (Instr.memAlloc h asn tier w pages va place).wf = true) :
    exec (.memAlloc h asn tier w pages va place) s = .next (submit s h (.memAlloc h asn tier w pages va place) 0x0030 0 (startAlloc h asn tier w pages va place)) := by
  change execMemAlloc h asn tier w pages va place s = _
  unfold execMemAlloc
  exact event_next _ _ hw

/-- A well-formed command has its meaning's effect. -/
theorem exec_zeroFillDone_next {s : State} {asn} (hw : (Instr.zeroFillDone asn).wf = true) :
    exec (.zeroFillDone asn) s = .next (zeroFillDone s asn) := by
  change execZeroFillDone asn s = _
  unfold execZeroFillDone
  exact event_next _ _ hw

/-- A well-formed command has its meaning's effect. -/
theorem exec_memMigrate_next {s : State} {h asn tier access pages va place} (hw : (Instr.memMigrate h asn tier access pages va place).wf = true) :
    exec (.memMigrate h asn tier access pages va place) s = .next (submit s h (.memMigrate h asn tier access pages va place) 0x0031 0 (startMigrate h asn tier access pages va place)) := by
  change execMemMigrate h asn tier access pages va place s = _
  unfold execMemMigrate
  exact event_next _ _ hw

/-- A well-formed command has its meaning's effect. -/
theorem exec_migratePageDone_next {s : State} {asn} (hw : (Instr.migratePageDone asn).wf = true) :
    exec (.migratePageDone asn) s = .next (goCtx (migratePageDone s asn) asn) := by
  change execMigratePageDone asn s = _
  unfold execMigratePageDone
  exact event_next _ _ hw

/-- A well-formed command has its meaning's effect. -/
theorem exec_memFree_next {s : State} {h asn pages va} (hw : (Instr.memFree h asn pages va).wf = true) :
    exec (.memFree h asn pages va) s = .next (submit s h (.memFree h asn pages va) 0x0032 0 (startFree h asn pages va)) := by
  change execMemFree h asn pages va s = _
  unfold execMemFree
  exact event_next _ _ hw

/-- A well-formed command has its meaning's effect. -/
theorem exec_xferToHost_next {s : State} {h asn window va winOff bytes} (hw : (Instr.xferToHost h asn window va winOff bytes).wf = true) :
    exec (.xferToHost h asn window va winOff bytes) s = .next (submit s h (.xferToHost h asn window va winOff bytes) 0x0033 0 (startXfer h true asn window va winOff bytes)) := by
  change execXferToHost h asn window va winOff bytes s = _
  unfold execXferToHost
  exact event_next _ _ hw

/-- A well-formed command has its meaning's effect. -/
theorem exec_xferFromHost_next {s : State} {h asn window va winOff bytes} (hw : (Instr.xferFromHost h asn window va winOff bytes).wf = true) :
    exec (.xferFromHost h asn window va winOff bytes) s = .next (submit s h (.xferFromHost h asn window va winOff bytes) 0x0033 0 (startXfer h false asn window va winOff bytes)) := by
  change execXferFromHost h asn window va winOff bytes s = _
  unfold execXferFromHost
  exact event_next _ _ hw

/-- A well-formed command has its meaning's effect. -/
theorem exec_xferComplete_next {s : State} {id host} (hw : (Instr.xferComplete id host).wf = true) :
    exec (.xferComplete id host) s = .next (xferComplete s id host) := by
  change execXferComplete id host s = _
  unfold execXferComplete
  exact event_next _ _ hw

/-- A well-formed command has its meaning's effect. -/
theorem exec_groupCreate_next {s : State} {h asn size tag gen credits wdMs members} (hw : (Instr.groupCreate h asn size tag gen credits wdMs members).wf = true) :
    exec (.groupCreate h asn size tag gen credits wdMs members) s = .next (submit s h (.groupCreate h asn size tag gen credits wdMs members) 0x0040 0 (startGroupCreate h asn size tag gen credits wdMs members)) := by
  change execGroupCreate h asn size tag gen credits wdMs members s = _
  unfold execGroupCreate
  exact event_next _ _ hw

/-- A well-formed command has its meaning's effect. -/
theorem exec_groupDestroy_next {s : State} {h asn slot} (hw : (Instr.groupDestroy h asn slot).wf = true) :
    exec (.groupDestroy h asn slot) s = .next (submit s h (.groupDestroy h asn slot) 0x0041 0 (startGroupDestroy h asn slot)) := by
  change execGroupDestroy h asn slot s = _
  unfold execGroupDestroy
  exact event_next _ _ hw

/-- A well-formed command has its meaning's effect. -/
theorem exec_streamOpen_next {s : State} {h unit asn semBase paramVA} (hw : (Instr.streamOpen h unit asn semBase paramVA).wf = true) :
    exec (.streamOpen h unit asn semBase paramVA) s = .next (submit s h (.streamOpen h unit asn semBase paramVA) 0x0050 0 (startStreamOpen h unit asn semBase paramVA)) := by
  change execStreamOpen h unit asn semBase paramVA s = _
  unfold execStreamOpen
  exact event_next _ _ hw

/-- A well-formed command has its meaning's effect. -/
theorem exec_streamClose_next {s : State} {h stream} (hw : (Instr.streamClose h stream).wf = true) :
    exec (.streamClose h stream) s = .next (submit s h (.streamClose h stream) 0x0051 0 (startStreamClose h stream)) := by
  change execStreamClose h stream s = _
  unfold execStreamClose
  exact event_next _ _ hw

/-- A well-formed command has its meaning's effect. -/
theorem exec_frameSubmit_next {s : State} {h stream entry} (hw : (Instr.frameSubmit h stream entry).wf = true) :
    exec (.frameSubmit h stream entry) s = .next (submit s h (.frameSubmit h stream entry) 0x0052 0 (startFrameSubmit h stream entry)) := by
  change execFrameSubmit h stream entry s = _
  unfold execFrameSubmit
  exact event_next _ _ hw

/-- A well-formed command has its meaning's effect. -/
theorem exec_frameRelease_next {s : State} {h stream count} (hw : (Instr.frameRelease h stream count).wf = true) :
    exec (.frameRelease h stream count) s = .next (submit s h (.frameRelease h stream count) 0x0053 0 (startFrameRelease h stream count)) := by
  change execFrameRelease h stream count s = _
  unfold execFrameRelease
  exact event_next _ _ hw

/-- A well-formed command has its meaning's effect. -/
theorem exec_modeSetVintage_next {s : State} {h value rateLog2 expectEpoch timeoutUs} (hw : (Instr.modeSetVintage h value rateLog2 expectEpoch timeoutUs).wf = true) :
    exec (.modeSetVintage h value rateLog2 expectEpoch timeoutUs) s = .next (submit s h (.modeSetVintage h value rateLog2 expectEpoch timeoutUs) 0x0060 0 (startModeSet h false value rateLog2 expectEpoch timeoutUs)) := by
  change execModeSetVintage h value rateLog2 expectEpoch timeoutUs s = _
  unfold execModeSetVintage
  exact event_next _ _ hw

/-- A well-formed command has its meaning's effect. -/
theorem exec_modeSetTaster_next {s : State} {h value rateLog2 expectEpoch timeoutUs} (hw : (Instr.modeSetTaster h value rateLog2 expectEpoch timeoutUs).wf = true) :
    exec (.modeSetTaster h value rateLog2 expectEpoch timeoutUs) s = .next (submit s h (.modeSetTaster h value rateLog2 expectEpoch timeoutUs) 0x0060 0 (startModeSet h true value rateLog2 expectEpoch timeoutUs)) := by
  change execModeSetTaster h value rateLog2 expectEpoch timeoutUs s = _
  unfold execModeSetTaster
  exact event_next _ _ hw

/-- A well-formed command has its meaning's effect. -/
theorem exec_dieEpochAck_next {s : State} {die} (hw : (Instr.dieEpochAck die).wf = true) :
    exec (.dieEpochAck die) s = .next (epochAck s die) := by
  change execDieEpochAck die s = _
  unfold execDieEpochAck
  exact event_next _ _ hw

/-- A well-formed command has its meaning's effect. -/
theorem exec_epochTimeout_next {s : State} (hw : (Instr.epochTimeout).wf = true) :
    exec (.epochTimeout) s = .next (epochTimeout s) := by
  change execEpochTimeout  s = _
  unfold execEpochTimeout
  exact event_next _ _ hw

/-- A well-formed command has its meaning's effect. -/
theorem exec_applyConfig_next {s : State} {h writeFlash imageBus imageBytes image} (hw : (Instr.applyConfig h writeFlash imageBus imageBytes image).wf = true) :
    exec (.applyConfig h writeFlash imageBus imageBytes image) s = .next (submit s h (.applyConfig h writeFlash imageBus imageBytes image) 0x0070 0 (startApply h false writeFlash imageBus imageBytes image)) := by
  change execApplyConfig h writeFlash imageBus imageBytes image s = _
  unfold execApplyConfig
  exact event_next _ _ hw

/-- A well-formed command has its meaning's effect. -/
theorem exec_applyStoreOnly_next {s : State} {h writeFlash imageBus imageBytes image} (hw : (Instr.applyStoreOnly h writeFlash imageBus imageBytes image).wf = true) :
    exec (.applyStoreOnly h writeFlash imageBus imageBytes image) s = .next (submit s h (.applyStoreOnly h writeFlash imageBus imageBytes image) 0x0070 0 (startApply h true writeFlash imageBus imageBytes image)) := by
  change execApplyStoreOnly h writeFlash imageBus imageBytes image s = _
  unfold execApplyStoreOnly
  exact event_next _ _ hw

/-- A well-formed command has its meaning's effect. -/
theorem exec_dormantEnter_next {s : State} {h} (hw : (Instr.dormantEnter h).wf = true) :
    exec (.dormantEnter h) s = .next (submit s h (.dormantEnter h) 0x0071 0 (startDormant h)) := by
  change execDormantEnter h s = _
  unfold execDormantEnter
  exact event_next _ _ hw

/-- A well-formed command has its meaning's effect. -/
theorem exec_dormantPowerDown_next {s : State} (hw : (Instr.dormantPowerDown).wf = true) :
    exec (.dormantPowerDown) s = .next (dormantPowerDown s) := by
  change execDormantPowerDown  s = _
  unfold execDormantPowerDown
  exact event_next _ _ hw

/-- A well-formed command has its meaning's effect. -/
theorem exec_wake_next {s : State} {h} (hw : (Instr.wake h).wf = true) :
    exec (.wake h) s = .next (submit s h (.wake h) 0x0072 0 (startWake h)) := by
  change execWake h s = _
  unfold execWake
  exact event_next _ _ hw

/-- A well-formed command has its meaning's effect. -/
theorem exec_wakeDone_next {s : State} (hw : (Instr.wakeDone).wf = true) :
    exec (.wakeDone) s = .next (resumeLinks (wakeDone s)) := by
  change execWakeDone  s = _
  unfold execWakeDone
  exact event_next _ _ hw

/-- A well-formed command has its meaning's effect. -/
theorem exec_dieDrainHold_next {s : State} {h die} (hw : (Instr.dieDrainHold h die).wf = true) :
    exec (.dieDrainHold h die) s = .next (submit s h (.dieDrainHold h die) 0x0078 0 (startDieDrain h die (.hold (some h) 0))) := by
  change execDieDrainHold h die s = _
  unfold execDieDrainHold
  exact event_next _ _ hw

/-- A well-formed command has its meaning's effect. -/
theorem exec_dieDrainRepair_next {s : State} {h die} (hw : (Instr.dieDrainRepair h die).wf = true) :
    exec (.dieDrainRepair h die) s = .next (submit s h (.dieDrainRepair h die) 0x0078 0 (startDieDrain h die (.repair h))) := by
  change execDieDrainRepair h die s = _
  unfold execDieDrainRepair
  exact event_next _ _ hw

/-- A well-formed command has its meaning's effect. -/
theorem exec_dieRestore_next {s : State} {h die} (hw : (Instr.dieRestore h die).wf = true) :
    exec (.dieRestore h die) s = .next (submit s h (.dieRestore h die) 0x0079 0 (startDieRestore h die)) := by
  change execDieRestore h die s = _
  unfold execDieRestore
  exact event_next _ _ hw

/-- A well-formed command has its meaning's effect. -/
theorem exec_sqTailDoorbell_next {s : State} {q val fetched images} (hw : (Instr.sqTailDoorbell q val fetched images).wf = true) :
    exec (.sqTailDoorbell q val fetched images) s = .next (sqTail s q val fetched images) := by
  change execSqTailDoorbell q val fetched images s = _
  unfold execSqTailDoorbell
  exact event_next _ _ hw

/-- A well-formed command has its meaning's effect. -/
theorem exec_commandFetchError_next {s : State} {q} (hw : (Instr.commandFetchError q).wf = true) :
    exec (.commandFetchError q) s = .next (fetchError s q) := by
  change execCommandFetchError q s = _
  unfold execCommandFetchError
  exact event_next _ _ hw

/-- A well-formed command has its meaning's effect. -/
theorem exec_cqHeadDoorbell_next {s : State} {q val} (hw : (Instr.cqHeadDoorbell q val).wf = true) :
    exec (.cqHeadDoorbell q val) s = .next (cqHead s q val) := by
  change execCqHeadDoorbell q val s = _
  unfold execCqHeadDoorbell
  exact event_next _ _ hw

/-- A well-formed command has its meaning's effect. -/
theorem exec_hqCtlWrite_next {s : State} {q val} (hw : (Instr.hqCtlWrite q val).wf = true) :
    exec (.hqCtlWrite q val) s = .next (hqCtl s q val) := by
  change execHqCtlWrite q val s = _
  unfold execHqCtlWrite
  exact event_next _ _ hw

/-- A well-formed command has its meaning's effect. -/
theorem exec_msgCtlWrite_next {s : State} {val} (hw : (Instr.msgCtlWrite val).wf = true) :
    exec (.msgCtlWrite val) s = .next (msgWrite s 0x408 val) := by
  change execMsgCtlWrite val s = _
  unfold execMsgCtlWrite
  exact event_next _ _ hw

/-- A well-formed command has its meaning's effect. -/
theorem exec_msgHeadWrite_next {s : State} {val} (hw : (Instr.msgHeadWrite val).wf = true) :
    exec (.msgHeadWrite val) s = .next (msgHead s val) := by
  change execMsgHeadWrite val s = _
  unfold execMsgHeadWrite
  exact event_next _ _ hw

/-- A well-formed command has its meaning's effect. -/
theorem exec_registerWrite_next {s : State} {off width val} (hw : (Instr.registerWrite off width val).wf = true) :
    exec (.registerWrite off width val) s = .next (busWrite s off width val) := by
  change execRegisterWrite off width val s = _
  unfold execRegisterWrite
  exact event_next _ _ hw

/-- A well-formed command has its meaning's effect. -/
theorem exec_loReadLatch_next {s : State} {r} (hw : (Instr.loReadLatch r).wf = true) :
    exec (.loReadLatch r) s = .next (busRead s r) := by
  change execLoReadLatch r s = _
  unfold execLoReadLatch
  exact event_next _ _ hw

/-- A well-formed command has its meaning's effect. -/
theorem exec_hubResetModule_next {s : State} {val} (hw : (Instr.hubResetModule val).wf = true) :
    exec (.hubResetModule val) s = .next (hubResetWrite s val) := by
  change execHubResetModule val s = _
  unfold execHubResetModule
  exact event_next _ _ hw

/-- A well-formed command has its meaning's effect. -/
theorem exec_islVsetWrite_next {s : State} {die isl val} (hw : (Instr.islVsetWrite die isl val).wf = true) :
    exec (.islVsetWrite die isl val) s = .next (islVset s die isl val) := by
  change execIslVsetWrite die isl val s = _
  unfold execIslVsetWrite
  exact event_next _ _ hw

/-- A well-formed command has its meaning's effect. -/
theorem exec_islMarginWrite_next {s : State} {die isl val} (hw : (Instr.islMarginWrite die isl val).wf = true) :
    exec (.islMarginWrite die isl val) s = .next (islMargin s die isl val) := by
  change execIslMarginWrite die isl val s = _
  unfold execIslMarginWrite
  exact event_next _ _ hw

/-- A well-formed command has its meaning's effect. -/
theorem exec_islRateMinReset_next {s : State} {die isl val} (hw : (Instr.islRateMinReset die isl val).wf = true) :
    exec (.islRateMinReset die isl val) s = .next (islRateMinReset s die isl val) := by
  change execIslRateMinReset die isl val s = _
  unfold execIslRateMinReset
  exact event_next _ _ hw

/-- A well-formed command has its meaning's effect. -/
theorem exec_islRampDone_next {s : State} {die isl} (hw : (Instr.islRampDone die isl).wf = true) :
    exec (.islRampDone die isl) s = .next (modIsland s die isl fun i => { i with ramping := false }) := by
  change execIslRampDone die isl s = _
  unfold execIslRampDone
  exact event_next _ _ hw

/-- A well-formed command has its meaning's effect. -/
theorem exec_islRateUpdate_next {s : State} {die isl rate} (hw : (Instr.islRateUpdate die isl rate).wf = true) :
    exec (.islRateUpdate die isl rate) s = .next (islRateUpdate s die isl rate) := by
  change execIslRateUpdate die isl rate s = _
  unfold execIslRateUpdate
  exact event_next _ _ hw

/-- A well-formed command has its meaning's effect. -/
theorem exec_mcC0LatMaxClr_next {s : State} {die mc val} (hw : (Instr.mcC0LatMaxClr die mc val).wf = true) :
    exec (.mcC0LatMaxClr die mc val) s = .next (c0LatClr s die mc val) := by
  change execMcC0LatMaxClr die mc val s = _
  unfold execMcC0LatMaxClr
  exact event_next _ _ hw

/-- A well-formed command has its meaning's effect. -/
theorem exec_trkPeakClr_next {s : State} {die val} (hw : (Instr.trkPeakClr die val).wf = true) :
    exec (.trkPeakClr die val) s = .next (trkPeakClr s die val) := by
  change execTrkPeakClr die val s = _
  unfold execTrkPeakClr
  exact event_next _ _ hw

/-- A well-formed command has its meaning's effect. -/
theorem exec_tqNearQuotaWrite_next {s : State} {asn val} (hw : (Instr.tqNearQuotaWrite asn val).wf = true) :
    exec (.tqNearQuotaWrite asn val) s = .next (nearQuotaWrite s asn val) := by
  change execTqNearQuotaWrite asn val s = _
  unfold execTqNearQuotaWrite
  exact event_next _ _ hw

/-- A well-formed command has its meaning's effect. -/
theorem exec_tqCellarQuotaWrite_next {s : State} {asn val} (hw : (Instr.tqCellarQuotaWrite asn val).wf = true) :
    exec (.tqCellarQuotaWrite asn val) s = .next (cellarQuotaWrite s asn val) := by
  change execTqCellarQuotaWrite asn val s = _
  unfold execTqCellarQuotaWrite
  exact event_next _ _ hw

/-- A well-formed command has its meaning's effect. -/
theorem exec_hwWindowWrite_next {s : State} {asn window reg val} (hw : (Instr.hwWindowWrite asn window reg val).wf = true) :
    exec (.hwWindowWrite asn window reg val) s = .next (hwWrite s asn window reg val) := by
  change execHwWindowWrite asn window reg val s = _
  unfold execHwWindowWrite
  exact event_next _ _ hw

/-- A well-formed command has its meaning's effect. -/
theorem exec_precSettingWrite_next {s : State} {die slot reg val} (hw : (Instr.precSettingWrite die slot reg val).wf = true) :
    exec (.precSettingWrite die slot reg val) s = .next (precWrite s die slot reg val) := by
  change execPrecSettingWrite die slot reg val s = _
  unfold execPrecSettingWrite
  exact event_next _ _ hw

/-- A well-formed command has its meaning's effect. -/
theorem exec_relDieFlagSet_next {s : State} {die val} (hw : (Instr.relDieFlagSet die val).wf = true) :
    exec (.relDieFlagSet die val) s = .next (dieFlagWrite s die val) := by
  change execRelDieFlagSet die val s = _
  unfold execRelDieFlagSet
  exact event_next _ _ hw

/-- A well-formed command has its meaning's effect. -/
theorem exec_relDieFlagClr_next {s : State} {die val} (hw : (Instr.relDieFlagClr die val).wf = true) :
    exec (.relDieFlagClr die val) s = .next (dieFlagWrite s die val) := by
  change execRelDieFlagClr die val s = _
  unfold execRelDieFlagClr
  exact event_next _ _ hw

/-- A well-formed command has its meaning's effect. -/
theorem exec_relFlashRelease_next {s : State} {val} (hw : (Instr.relFlashRelease val).wf = true) :
    exec (.relFlashRelease val) s = .next (flashRelease s val) := by
  change execRelFlashRelease val s = _
  unfold execRelFlashRelease
  exact event_next _ _ hw

/-- A well-formed command has its meaning's effect. -/
theorem exec_relFlashAttach_next {s : State} {val supported} (hw : (Instr.relFlashAttach val supported).wf = true) :
    exec (.relFlashAttach val supported) s = .next (flashAttach s val supported) := by
  change execRelFlashAttach val supported s = _
  unfold execRelFlashAttach
  exact event_next _ _ hw

/-- A well-formed command has its meaning's effect. -/
theorem exec_relVrmRelease_next {s : State} {pos val} (hw : (Instr.relVrmRelease pos val).wf = true) :
    exec (.relVrmRelease pos val) s = .next (vrmRelease s pos val) := by
  change execRelVrmRelease pos val s = _
  unfold execRelVrmRelease
  exact event_next _ _ hw

/-- A well-formed command has its meaning's effect. -/
theorem exec_scrStart_next {s : State} {die val} (hw : (Instr.scrStart die val).wf = true) :
    exec (.scrStart die val) s = .next (scrCmd s die val) := by
  change execScrStart die val s = _
  unfold execScrStart
  exact event_next _ _ hw

/-- A well-formed command has its meaning's effect. -/
theorem exec_scrStop_next {s : State} {die val} (hw : (Instr.scrStop die val).wf = true) :
    exec (.scrStop die val) s = .next (scrCmd s die val) := by
  change execScrStop die val s = _
  unfold execScrStop
  exact event_next _ _ hw

/-- A well-formed command has its meaning's effect. -/
theorem exec_screenRoundDone_next {s : State} {die round} (hw : (Instr.screenRoundDone die round).wf = true) :
    exec (.screenRoundDone die round) s = .next (screenRound s die round) := by
  change execScreenRoundDone die round s = _
  unfold execScreenRoundDone
  exact event_next _ _ hw

/-- A well-formed command has its meaning's effect. -/
theorem exec_relLogIndexWrite_next {s : State} {val} (hw : (Instr.relLogIndexWrite val).wf = true) :
    exec (.relLogIndexWrite val) s = .next (logIndexWrite s val) := by
  change execRelLogIndexWrite val s = _
  unfold execRelLogIndexWrite
  exact event_next _ _ hw

/-- A well-formed command has its meaning's effect. -/
theorem exec_relMapIndexWrite_next {s : State} {val} (hw : (Instr.relMapIndexWrite val).wf = true) :
    exec (.relMapIndexWrite val) s = .next (storeMasked s 0xD02004 (rwMask 0xD02004) val) := by
  change execRelMapIndexWrite val s = _
  unfold execRelMapIndexWrite
  exact event_next _ _ hw

/-- A well-formed command has its meaning's effect. -/
theorem exec_pwrLimitWrite_next {s : State} {val} (hw : (Instr.pwrLimitWrite val).wf = true) :
    exec (.pwrLimitWrite val) s = .next (pwrLimitWrite s val) := by
  change execPwrLimitWrite val s = _
  unfold execPwrLimitWrite
  exact event_next _ _ hw

/-- A well-formed command has its meaning's effect. -/
theorem exec_pwrPeakClr_next {s : State} {val} (hw : (Instr.pwrPeakClr val).wf = true) :
    exec (.pwrPeakClr val) s = .next (pwrPeakClr s val) := by
  change execPwrPeakClr val s = _
  unfold execPwrPeakClr
  exact event_next _ _ hw

/-- A well-formed command has its meaning's effect. -/
theorem exec_acctClr_next {s : State} {asn val} (hw : (Instr.acctClr asn val).wf = true) :
    exec (.acctClr asn val) s = .next (acctCtl s asn val) := by
  change execAcctClr asn val s = _
  unfold execAcctClr
  exact event_next _ _ hw

/-- A well-formed command has its meaning's effect. -/
theorem exec_appClr_next {s : State} {val} (hw : (Instr.appClr val).wf = true) :
    exec (.appClr val) s = .next (appCtl s val) := by
  change execAppClr val s = _
  unfold execAppClr
  exact event_next _ _ hw

/-- A well-formed command has its meaning's effect. -/
theorem exec_acctFlush_next {s : State} (hw : (Instr.acctFlush).wf = true) :
    exec (.acctFlush) s = .next (acctFlush s) := by
  change execAcctFlush  s = _
  unfold execAcctFlush
  exact event_next _ _ hw

/-- A well-formed command has its meaning's effect. -/
theorem exec_tallyRelease_next {s : State} {val} (hw : (Instr.tallyRelease val).wf = true) :
    exec (.tallyRelease val) s = .next (tallyCtl s val) := by
  change execTallyRelease val s = _
  unfold execTallyRelease
  exact event_next _ _ hw

/-- A well-formed command has its meaning's effect. -/
theorem exec_tallyReleaseDone_next {s : State} (hw : (Instr.tallyReleaseDone).wf = true) :
    exec (.tallyReleaseDone) s = .next (tallyReleaseDone s) := by
  change execTallyReleaseDone  s = _
  unfold execTallyReleaseDone
  exact event_next _ _ hw

/-- A well-formed command has its meaning's effect. -/
theorem exec_tallyAttach_next {s : State} {val} (hw : (Instr.tallyAttach val).wf = true) :
    exec (.tallyAttach val) s = .next (tallyCtl s val) := by
  change execTallyAttach val s = _
  unfold execTallyAttach
  exact event_next _ _ hw

/-- A well-formed command has its meaning's effect. -/
theorem exec_tallySelfTestDone_next {s : State} {passed fwRev serial seconds total recSeq sealBroken} (hw : (Instr.tallySelfTestDone passed fwRev serial seconds total recSeq sealBroken).wf = true) :
    exec (.tallySelfTestDone passed fwRev serial seconds total recSeq sealBroken) s = .next (tallySelfTest s passed fwRev serial seconds total recSeq sealBroken) := by
  change execTallySelfTestDone passed fwRev serial seconds total recSeq sealBroken s = _
  unfold execTallySelfTestDone
  exact event_next _ _ hw

/-- A well-formed command has its meaning's effect. -/
theorem exec_tallyRecIndexWrite_next {s : State} {val} (hw : (Instr.tallyRecIndexWrite val).wf = true) :
    exec (.tallyRecIndexWrite val) s = .next (tallyRecIndex s val) := by
  change execTallyRecIndexWrite val s = _
  unfold execTallyRecIndexWrite
  exact event_next _ _ hw

/-- A well-formed command has its meaning's effect. -/
theorem exec_tallyIntervalClose_next {s : State} {energyMJ watts vin10mV overrange} (hw : (Instr.tallyIntervalClose energyMJ watts vin10mV overrange).wf = true) :
    exec (.tallyIntervalClose energyMJ watts vin10mV overrange) s = .next (tallyInterval s energyMJ watts vin10mV overrange) := by
  change execTallyIntervalClose energyMJ watts vin10mV overrange s = _
  unfold execTallyIntervalClose
  exact event_next _ _ hw

/-- A well-formed command has its meaning's effect. -/
theorem exec_tallyRecordClose_next {s : State} (hw : (Instr.tallyRecordClose).wf = true) :
    exec (.tallyRecordClose) s = .next (tallyRecordClose s) := by
  change execTallyRecordClose  s = _
  unfold execTallyRecordClose
  exact event_next _ _ hw

/-- A well-formed command has its meaning's effect. -/
theorem exec_unmeteredRecord_next {s : State} (hw : (Instr.unmeteredRecord).wf = true) :
    exec (.unmeteredRecord) s = .next (unmeteredRecord s) := by
  change execUnmeteredRecord  s = _
  unfold execUnmeteredRecord
  exact event_next _ _ hw

/-- A well-formed command has its meaning's effect. -/
theorem exec_tallyPulled_next {s : State} (hw : (Instr.tallyPulled).wf = true) :
    exec (.tallyPulled) s = .next (tallyPulled s) := by
  change execTallyPulled  s = _
  unfold execTallyPulled
  exact event_next _ _ hw

/-- A well-formed command has its meaning's effect. -/
theorem exec_tallyFault_next {s : State} (hw : (Instr.tallyFault).wf = true) :
    exec (.tallyFault) s = .next (tallyFaulted s) := by
  change execTallyFault  s = _
  unfold execTallyFault
  exact event_next _ _ hw

/-- A well-formed command has its meaning's effect. -/
theorem exec_tallySealOpened_next {s : State} (hw : (Instr.tallySealOpened).wf = true) :
    exec (.tallySealOpened) s = .next ({ s with tally := { s.tally with sealBroken := true } }) := by
  change execTallySealOpened  s = _
  unfold execTallySealOpened
  exact event_next _ _ hw

/-- A well-formed command has its meaning's effect. -/
theorem exec_tallyFlashCopy_next {s : State} (hw : (Instr.tallyFlashCopy).wf = true) :
    exec (.tallyFlashCopy) s = .next (tallyFlashCopy s) := by
  change execTallyFlashCopy  s = _
  unfold execTallyFlashCopy
  exact event_next _ _ hw

/-- A well-formed command has its meaning's effect. -/
theorem exec_powerLoopTick_next {s : State} {inputMw} (hw : (Instr.powerLoopTick inputMw).wf = true) :
    exec (.powerLoopTick inputMw) s = .next (powerTick s inputMw) := by
  change execPowerLoopTick inputMw s = _
  unfold execPowerLoopTick
  exact event_next _ _ hw

/-- A well-formed command has its meaning's effect. -/
theorem exec_thermalCapTick_next {s : State} {die tj} (hw : (Instr.thermalCapTick die tj).wf = true) :
    exec (.thermalCapTick die tj) s = .next (thermalTick s die tj) := by
  change execThermalCapTick die tj s = _
  unfold execThermalCapTick
  exact event_next _ _ hw

/-- A well-formed command has its meaning's effect. -/
theorem exec_thermal_next {s : State} {source cause reading} (hw : (Instr.thermal source cause reading).wf = true) :
    exec (.thermal source cause reading) s = .next (thermalReading s source cause reading) := by
  change execThermal source cause reading s = _
  unfold execThermal
  exact event_next _ _ hw

/-- A well-formed command has its meaning's effect. -/
theorem exec_thermalTrip_next {s : State} {source cause reading} (hw : (Instr.thermalTrip source cause reading).wf = true) :
    exec (.thermalTrip source cause reading) s = .next (thermalTrip s source cause reading) := by
  change execThermalTrip source cause reading s = _
  unfold execThermalTrip
  exact event_next _ _ hw

/-- A well-formed command has its meaning's effect. -/
theorem exec_envelopeReturn_next {s : State} (hw : (Instr.envelopeReturn).wf = true) :
    exec (.envelopeReturn) s = .next (envelopeReturn s) := by
  change execEnvelopeReturn  s = _
  unfold execEnvelopeReturn
  exact event_next _ _ hw

/-- A well-formed command has its meaning's effect. -/
theorem exec_inputVoltageChange_next {s : State} {mv} (hw : (Instr.inputVoltageChange mv).wf = true) :
    exec (.inputVoltageChange mv) s = .next (voltageChange s mv) := by
  change execInputVoltageChange mv s = _
  unfold execInputVoltageChange
  exact event_next _ _ hw

/-- A well-formed command has its meaning's effect. -/
theorem exec_inputPowerLoss_next {s : State} {energyMJ watts vin10mV} (hw : (Instr.inputPowerLoss energyMJ watts vin10mV).wf = true) :
    exec (.inputPowerLoss energyMJ watts vin10mV) s = .next (inputPowerLoss s energyMJ watts vin10mV) := by
  change execInputPowerLoss energyMJ watts vin10mV s = _
  unfold execInputPowerLoss
  exact event_next _ _ hw

/-- A well-formed command has its meaning's effect. -/
theorem exec_regulatorFail_next {s : State} {pos} (hw : (Instr.regulatorFail pos).wf = true) :
    exec (.regulatorFail pos) s = .next (regulatorFail s pos) := by
  change execRegulatorFail pos s = _
  unfold execRegulatorFail
  exact event_next _ _ hw

/-- A well-formed command has its meaning's effect. -/
theorem exec_regulatorFitted_next {s : State} {pos} (hw : (Instr.regulatorFitted pos).wf = true) :
    exec (.regulatorFitted pos) s = .next (regulatorFitted s pos) := by
  change execRegulatorFitted pos s = _
  unfold execRegulatorFitted
  exact event_next _ _ hw

/-- A well-formed command has its meaning's effect. -/
theorem exec_refClockLost_next {s : State} (hw : (Instr.refClockLost).wf = true) :
    exec (.refClockLost) s = .next (refLost s) := by
  change execRefClockLost  s = _
  unfold execRefClockLost
  exact event_next _ _ hw

/-- A well-formed command has its meaning's effect. -/
theorem exec_refClockReturn_next {s : State} (hw : (Instr.refClockReturn).wf = true) :
    exec (.refClockReturn) s = .next ({ s with hub := { s.hub with refLost := false } }) := by
  change execRefClockReturn  s = _
  unfold execRefClockReturn
  exact event_next _ _ hw

/-- A well-formed command has its meaning's effect. -/
theorem exec_moduleReset_next {s : State} (hw : (Instr.moduleReset).wf = true) :
    exec (.moduleReset) s = .next (moduleReset s) := by
  change execModuleReset  s = _
  unfold execModuleReset
  exact event_next _ _ hw

/-- A well-formed command has its meaning's effect. -/
theorem exec_hostLinkTrained_next {s : State} (hw : (Instr.hostLinkTrained).wf = true) :
    exec (.hostLinkTrained) s = .next (hostLinkTrained s) := by
  change execHostLinkTrained  s = _
  unfold execHostLinkTrained
  exact event_next _ _ hw

/-- A well-formed command has its meaning's effect. -/
theorem exec_configReadDone_next {s : State} (hw : (Instr.configReadDone).wf = true) :
    exec (.configReadDone) s = .next (configReadDone s) := by
  change execConfigReadDone  s = _
  unfold execConfigReadDone
  exact event_next _ _ hw

/-- A well-formed command has its meaning's effect. -/
theorem exec_memTrainDone_next {s : State} {serviceOk chans} (hw : (Instr.memTrainDone serviceOk chans).wf = true) :
    exec (.memTrainDone serviceOk chans) s = .next (memTrainDone s serviceOk chans) := by
  change execMemTrainDone serviceOk chans s = _
  unfold execMemTrainDone
  exact event_next _ _ hw

/-- A well-formed command has its meaning's effect. -/
theorem exec_repairStepDone_next {s : State} {up findings} (hw : (Instr.repairStepDone up findings).wf = true) :
    exec (.repairStepDone up findings) s = .next (repairStepDone s up findings) := by
  change execRepairStepDone up findings s = _
  unfold execRepairStepDone
  exact event_next _ _ hw

/-- A well-formed command has its meaning's effect. -/
theorem exec_portTrainDone_next {s : State} {ports far} (hw : (Instr.portTrainDone ports far).wf = true) :
    exec (.portTrainDone ports far) s = .next (portTrainDone s ports far) := by
  change execPortTrainDone ports far s = _
  unfold execPortTrainDone
  exact event_next _ _ hw

/-- A well-formed command has its meaning's effect. -/
theorem exec_bootStepTimeout_next {s : State} {applied up findings ports far} (hw : (Instr.bootStepTimeout applied up findings ports far).wf = true) :
    exec (.bootStepTimeout applied up findings ports far) s = .next (bootTimeout s applied up findings ports far) := by
  change execBootStepTimeout applied up findings ports far s = _
  unfold execBootStepTimeout
  exact event_next _ _ hw

/-- A well-formed command has its meaning's effect. -/
theorem exec_hostLinkReset_next {s : State} (hw : (Instr.hostLinkReset).wf = true) :
    exec (.hostLinkReset) s = .next (hostLinkReset s) := by
  change execHostLinkReset  s = _
  unfold execHostLinkReset
  exact event_next _ _ hw

/-- A well-formed command has its meaning's effect. -/
theorem exec_hubUncorrectable_next {s : State} (hw : (Instr.hubUncorrectable).wf = true) :
    exec (.hubUncorrectable) s = .next (hubUncorrectable s) := by
  change execHubUncorrectable  s = _
  unfold execHubUncorrectable
  exact event_next _ _ hw

/-- A well-formed command has its meaning's effect. -/
theorem exec_faultLogFlush_next {s : State} (hw : (Instr.faultLogFlush).wf = true) :
    exec (.faultLogFlush) s = .next (faultLogFlush s) := by
  change execFaultLogFlush  s = _
  unfold execFaultLogFlush
  exact event_next _ _ hw

/-- A well-formed command has its meaning's effect. -/
theorem exec_flashWriteDone_next {s : State} {region verified} (hw : (Instr.flashWriteDone region verified).wf = true) :
    exec (.flashWriteDone region verified) s = .next (flashWriteDone s (regionOf region) verified) := by
  change execFlashWriteDone region verified s = _
  unfold execFlashWriteDone
  exact event_next _ _ hw

/-- A well-formed command has its meaning's effect. -/
theorem exec_patrolScrub_next {s : State} {die mc chan line rowWord correctable} (hw : (Instr.patrolScrub die mc chan line rowWord correctable).wf = true) :
    exec (.patrolScrub die mc chan line rowWord correctable) s = .next (patrolScrub s die mc chan line rowWord correctable) := by
  change execPatrolScrub die mc chan line rowWord correctable s = _
  unfold execPatrolScrub
  exact event_next _ _ hw

/-- A well-formed command has its meaning's effect. -/
theorem exec_rowRemap_next {s : State} {die mc chan rowWord} (hw : (Instr.rowRemap die mc chan rowWord).wf = true) :
    exec (.rowRemap die mc chan rowWord) s = .next (rowRemap s die mc chan rowWord) := by
  change execRowRemap die mc chan rowWord s = _
  unfold execRowRemap
  exact event_next _ _ hw

/-- A well-formed command has its meaning's effect. -/
theorem exec_caParityError_next {s : State} {die mc chan retries read line reader} (hw : (Instr.caParityError die mc chan retries read line reader).wf = true) :
    exec (.caParityError die mc chan retries read line reader) s = .next (caParity s die mc chan retries read line reader) := by
  change execCaParityError die mc chan retries read line reader s = _
  unfold execCaParityError
  exact event_next _ _ hw

/-- A well-formed command has its meaning's effect. -/
theorem exec_flitReplay_next {s : State} {port} (hw : (Instr.flitReplay port).wf = true) :
    exec (.flitReplay port) s = .next (flitReplay s port) := by
  change execFlitReplay port s = _
  unfold execFlitReplay
  exact event_next _ _ hw

/-- A well-formed command has its meaning's effect. -/
theorem exec_laneFail_next {s : State} {port lane} (hw : (Instr.laneFail port lane).wf = true) :
    exec (.laneFail port lane) s = .next (laneFail s port lane) := by
  change execLaneFail port lane s = _
  unfold execLaneFail
  exact event_next _ _ hw

/-- A well-formed command has its meaning's effect. -/
theorem exec_laneRetrainDone_next {s : State} {port} (hw : (Instr.laneRetrainDone port).wf = true) :
    exec (.laneRetrainDone port) s = .next (laneRetrainDone s port) := by
  change execLaneRetrainDone port s = _
  unfold execLaneRetrainDone
  exact event_next _ _ hw

/-- A well-formed command has its meaning's effect. -/
theorem exec_portDown_next {s : State} {port} (hw : (Instr.portDown port).wf = true) :
    exec (.portDown port) s = .next (portDown s port) := by
  change execPortDown port s = _
  unfold execPortDown
  exact event_next _ _ hw

/-- A well-formed command has its meaning's effect. -/
theorem exec_vlPortRetrain_next {s : State} {port val} (hw : (Instr.vlPortRetrain port val).wf = true) :
    exec (.vlPortRetrain port val) s = .next (portRetrain s port val) := by
  change execVlPortRetrain port val s = _
  unfold execVlPortRetrain
  exact event_next _ _ hw

/-- A well-formed command has its meaning's effect. -/
theorem exec_portRetrainDone_next {s : State} {port result} (hw : (Instr.portRetrainDone port result).wf = true) :
    exec (.portRetrainDone port result) s = .next (portRetrainDone s port result) := by
  change execPortRetrainDone port result s = _
  unfold execPortRetrainDone
  exact event_next _ _ hw

/-- A well-formed command has its meaning's effect. -/
theorem exec_peerTraining_next {s : State} {port} (hw : (Instr.peerTraining port).wf = true) :
    exec (.peerTraining port) s = .next (peerTraining s port) := by
  change execPeerTraining port s = _
  unfold execPeerTraining
  exact event_next _ _ hw

/-- A well-formed command has its meaning's effect. -/
theorem exec_farPortDown_next {s : State} {port} (hw : (Instr.farPortDown port).wf = true) :
    exec (.farPortDown port) s = .next (farPortDown s port) := by
  change execFarPortDown port s = _
  unfold execFarPortDown
  exact event_next _ _ hw

/-- A well-formed command has its meaning's effect. -/
theorem exec_cxlRequestTimeout_next {s : State} {port} (hw : (Instr.cxlRequestTimeout port).wf = true) :
    exec (.cxlRequestTimeout port) s = .next (farPortDown s port) := by
  change execCxlRequestTimeout port s = _
  unfold execCxlRequestTimeout
  exact event_next _ _ hw

/-- A well-formed command has its meaning's effect. -/
theorem exec_trellisFire_next {s : State} {asn entry} (hw : (Instr.trellisFire asn entry).wf = true) :
    exec (.trellisFire asn entry) s = .next (trellisFire s asn entry) := by
  change execTrellisFire asn entry s = _
  unfold execTrellisFire
  exact event_next _ _ hw

/-- A well-formed command has its meaning's effect. -/
theorem exec_ctsArrival_next {s : State} {cts fromRank} (hw : (Instr.ctsArrival cts fromRank).wf = true) :
    exec (.ctsArrival cts fromRank) s = .next (linkEvent (.ctsArrival cts fromRank) (ctsArrival cts fromRank) s) := by
  change execCtsArrival cts fromRank s = _
  unfold execCtsArrival
  exact event_next _ _ hw

/-- A well-formed command has its meaning's effect. -/
theorem exec_ctsRetry_next {s : State} {cts fromRank} (hw : (Instr.ctsRetry cts fromRank).wf = true) :
    exec (.ctsRetry cts fromRank) s = .next (linkEvent (.ctsRetry cts fromRank) (ctsRetry cts fromRank) s) := by
  change execCtsRetry cts fromRank s = _
  unfold execCtsRetry
  exact event_next _ _ hw

/-- A well-formed command has its meaning's effect. -/
theorem exec_packetArrival_next {s : State} {p} (hw : (Instr.packetArrival p).wf = true) :
    exec (.packetArrival p) s = .next (linkEvent (.packetArrival p) (packetArrival p) s) := by
  change execPacketArrival p s = _
  unfold execPacketArrival
  exact event_next _ _ hw

/-- A well-formed command has its meaning's effect. -/
theorem exec_packetAck_next {s : State} {tag gen seq offset} (hw : (Instr.packetAck tag gen seq offset).wf = true) :
    exec (.packetAck tag gen seq offset) s = .next (linkEvent (.packetAck tag gen seq offset) (packetAck tag gen seq offset) s) := by
  change execPacketAck tag gen seq offset s = _
  unfold execPacketAck
  exact event_next _ _ hw

/-- A well-formed command has its meaning's effect. -/
theorem exec_firingComplete_next {s : State} {asn entry} (hw : (Instr.firingComplete asn entry).wf = true) :
    exec (.firingComplete asn entry) s = .next (firingComplete s asn entry) := by
  change execFiringComplete asn entry s = _
  unfold execFiringComplete
  exact event_next _ _ hw

/-- A well-formed command has its meaning's effect. -/
theorem exec_abortArrival_next {s : State} {tag gen seq reason} (hw : (Instr.abortArrival tag gen seq reason).wf = true) :
    exec (.abortArrival tag gen seq reason) s = .next (linkEvent (.abortArrival tag gen seq reason) (abortArrival tag gen seq reason) s) := by
  change execAbortArrival tag gen seq reason s = _
  unfold execAbortArrival
  exact event_next _ _ hw

/-- A well-formed command has its meaning's effect. -/
theorem exec_groupWait_next {s : State} {asn entry} (hw : (Instr.groupWait asn entry).wf = true) :
    exec (.groupWait asn entry) s = .next (groupWait s asn entry) := by
  change execGroupWait asn entry s = _
  unfold execGroupWait
  exact event_next _ _ hw

/-- A well-formed command has its meaning's effect. -/
theorem exec_tierStall_next {s : State} {asn sem} (hw : (Instr.tierStall asn sem).wf = true) :
    exec (.tierStall asn sem) s = .next (tierStall s asn sem) := by
  change execTierStall asn sem s = _
  unfold execTierStall
  exact event_next _ _ hw

/-- A well-formed command has its meaning's effect. -/
theorem exec_keeperPin_next {s : State} {asn set} (hw : (Instr.keeperPin asn set).wf = true) :
    exec (.keeperPin asn set) s = .next (keeperPin s asn set) := by
  change execKeeperPin asn set s = _
  unfold execKeeperPin
  exact event_next _ _ hw

/-- A well-formed command has its meaning's effect. -/
theorem exec_keeperRetire_next {s : State} {asn set} (hw : (Instr.keeperRetire asn set).wf = true) :
    exec (.keeperRetire asn set) s = .next (keeperRetire s asn set) := by
  change execKeeperRetire asn set s = _
  unfold execKeeperRetire
  exact event_next _ _ hw

/-- A well-formed command has its meaning's effect. -/
theorem exec_keeperClaim_next {s : State} {asn set} (hw : (Instr.keeperClaim asn set).wf = true) :
    exec (.keeperClaim asn set) s = .next (keeperClaim s asn set) := by
  change execKeeperClaim asn set s = _
  unfold execKeeperClaim
  exact event_next _ _ hw

/-- A well-formed command has its meaning's effect. -/
theorem exec_keeperPublish_next {s : State} {asn set} (hw : (Instr.keeperPublish asn set).wf = true) :
    exec (.keeperPublish asn set) s = .next (keeperPublish s asn set) := by
  change execKeeperPublish asn set s = _
  unfold execKeeperPublish
  exact event_next _ _ hw

/-- A well-formed command has its meaning's effect. -/
theorem exec_codecSubmitConsume_next {s : State} {stream} (hw : (Instr.codecSubmitConsume stream).wf = true) :
    exec (.codecSubmitConsume stream) s = .next (submitConsume s stream) := by
  change execCodecSubmitConsume stream s = _
  unfold execCodecSubmitConsume
  exact event_next _ _ hw

/-- A well-formed command has its meaning's effect. -/
theorem exec_codecStreamSwitch_next {s : State} {unit} (hw : (Instr.codecStreamSwitch unit).wf = true) :
    exec (.codecStreamSwitch unit) s = .next (streamSwitch s unit) := by
  change execCodecStreamSwitch unit s = _
  unfold execCodecStreamSwitch
  exact event_next _ _ hw

/-- A well-formed command has its meaning's effect. -/
theorem exec_codecFrameDone_next {s : State} {unit} (hw : (Instr.codecFrameDone unit).wf = true) :
    exec (.codecFrameDone unit) s = .next (frameDone s unit) := by
  change execCodecFrameDone unit s = _
  unfold execCodecFrameDone
  exact event_next _ _ hw

/-- A well-formed command has its meaning's effect. -/
theorem exec_codecReleaseConsume_next {s : State} {stream} (hw : (Instr.codecReleaseConsume stream).wf = true) :
    exec (.codecReleaseConsume stream) s = .next (releaseConsume s stream) := by
  change execCodecReleaseConsume stream s = _
  unfold execCodecReleaseConsume
  exact event_next _ _ hw

/-- A well-formed command has its meaning's effect. -/
theorem exec_codecPacedRecord_next {s : State} {stream} (hw : (Instr.codecPacedRecord stream).wf = true) :
    exec (.codecPacedRecord stream) s = .next (pacedRecord s stream) := by
  change execCodecPacedRecord stream s = _
  unfold execCodecPacedRecord
  exact event_next _ _ hw

/-- A well-formed command has its meaning's effect. -/
theorem exec_unmeteredIntervalClose_next {s : State} {energyMJ} (hw : (Instr.unmeteredIntervalClose energyMJ).wf = true) :
    exec (.unmeteredIntervalClose energyMJ) s = .next (unmeteredInterval s energyMJ) := by
  change execUnmeteredIntervalClose energyMJ s = _
  unfold execUnmeteredIntervalClose
  exact event_next _ _ hw

/-- A well-formed command has its meaning's effect. -/
theorem exec_ctxExportDone_next {s : State} {asn} (hw : (Instr.ctxExportDone asn).wf = true) :
    exec (.ctxExportDone asn) s = .next (exportDone s asn) := by
  change execCtxExportDone asn s = _
  unfold execCtxExportDone
  exact event_next _ _ hw

end Sys2Proof.Machine
end

