-- ==== Sys2Proof/Tests/Slice0.lean ====
section
/-! SUPPORT. Tests/Slice0.lean: the model's own tests: ill-formed terms are refused; concrete states and operands that meet the
hypotheses of every statement (witness_<Statement>); single steps whose results the spec states. -/

set_option Elab.async false

namespace Sys2Proof.Machine

/-! ### Small states -/

/-- A die in service: ONLINE, every cluster in its place, its controllers ready. -/
def onlineDie : Die := { Die.reset with
  state := .online, goal := .none, stage := 0, inService := 32
  clusters := List.replicate 32 { ClusterMap.reset with active := true }
  mcs := List.replicate 3 { Mc.reset with state := .ready } }

/-- A module that is READY with four dies in service. -/
def ready : State := { State.reset with
  hub := { Hub.reset with boot := .ready, link := true }, dies := List.replicate 4 onlineDie }

/-- A command header of queue 0. -/
def hdr : CmdHdr := { queue := 0, id := 7, barrier := false }

/-- A job of a program of two instructions at virtual address 0. -/
def job : Job := { hdr := hdr, p := 1, rank := 0, len := 2, progVA := 0, seed := 0, fate := .running, endCmd := []
                   launchTb := 0, issued := false }

/-- A word with values at bit positions. -/
def word (fs : List (Nat × Nat)) : Nat := fs.foldl (fun w f => w + f.2 * 2 ^ f.1) 0

/-- A tensor descriptor with dense strides (R179). -/
def tensor (fmt space base : Nat) (dims : List Nat) (ext : Nat) : Option Bytes :=
  let d := fun i => dims.getD i 1
  some (record 64 [(0, 8, base), (16, 4, fmt + 256 * space + 4096 * (dims.length - 1) + 32768), (24, 4, d 0), (28, 4, d 1),
    (32, 4, d 2), (36, 4, d 3), (40, 4, d 0), (44, 4, d 0 * d 1), (48, 4, d 0 * d 1 * d 2), (56, 4, ext)])

/-- Descriptors the witnesses use: slots 0 to 2 an FP32 number in each space, 3 and 4 BF16, 5 and 6 images, 7 and 8 statistics,
9 to 12 the operands of an attention with the parameter block 13, 14 to 17 the operands of LEES, 18 two FP32 numbers in VIRTUAL
and 19 in CORE. -/
def slots : List (Option Bytes) :=
  [tensor 1 1 0 [1] 1, tensor 1 2 0x10000 [1] 1, tensor 1 0 0x1000 [1] 1, tensor 2 1 0x100 [1] 1, tensor 2 1 0x200 [1] 1,
   tensor 8 1 0x400 [64] 1, tensor 8 1 0x500 [72] 2, tensor 1 1 0x600 [4] 1, tensor 1 1 0x700 [4, 1, 1] 1,
   tensor 4 1 0x800 [8] 1, tensor 4 1 0x840 [8] 1, tensor 4 1 0x880 [8] 1, tensor 4 1 0x8C0 [8] 1, tensor 8 1 0x900 [64] 1,
   tensor 4 1 0xA00 [1, 1] 1, tensor 4 0 0x2000 [1, 1] 1, tensor 4 0 0x2040 [1, 1] 1, tensor 8 0 0x2080 [72] 2,
   tensor 1 0 0x3000 [2] 1, tensor 1 1 0xB00 [2] 1]

/-- The bytes of a number in a memory, from an address on. -/
def bytesAt (a n v : Nat) : Mem := ((leBytes n v).mapIdx fun i b => (a + i, b)).filter fun c => c.2 != 0#8

/-- A parameter block of an attention of one head over a grid of one token; with `chunk` its landing counts are semaphores 4
and 5 (R257). -/
def attnBlock (chunk : Nat) : Mem :=
  bytesAt 0x900 64 (leNat (record 64 [(0, 2, 1), (2, 2, 1), (4, 2, 1), (24, 1, 1), (25, 1, 1), (26, 1, 1), (28, 1, 1), (29, 1, 1),
    (30, 1, 1), (31, 1, 5), (36, 2, 8), (38, 1, 1), (39, 1, 1), (46, 1, 0xFF), (47, 1, 0xFF), (48, 1, 0xFF), (49, 1, 4), (50, 2, chunk), (52, 4, 0x10000),
    (56, 4, 0x1040)]))

/-- A core that runs. -/
def core (store : Mem) : Core := { Core.fresh store with run := .running }

/-- Context 1 on cluster 0, its job running, its 16 cores alike. -/
def seat (k : Core) : Ctx := { newCtx 1 1 false 1000 [0] with
  state := .seated, slots := [some 0, none, none, none], cores := List.replicate 16 k, desc := slots, job := some job }

/-- A module that is READY with one context, its program's first word and a page of address space 1. -/
def tile (w : Nat) (c : Ctx) : State := { ready with
  ctxs := [c], spaces := [{ asn := 1, pages := [{ vpn := 0, ppn := 0, w := true, lost := false }] }]
  mem := bytesAt 0 16 w }

/-! ### Conditions as functions -/

/-- The environment and the word of a core whose header is legal. -/
def fetched (s : State) (asn core : Nat) : Option (Env × Nat) :=
  match rowEnv s asn core with
  | none => none
  | some e => match fetchWord e with
    | .ok w => if headerOk w then some (e, w) else none
    | .error _ => none

theorem fetched_spec {s : State} {asn core : Nat} {e : Env} {w : Nat} (h : fetched s asn core = some (e, w)) :
    Fetches s asn core e w := by
  unfold fetched at h
  split at h
  · cases h
  · rename_i x hx
    split at h
    · rename_i v hv
      split at h
      · rename_i ho
        cases h
        exact ⟨hx, hv, ho⟩
      · cases h
    · cases h

/-- A core that fetches, and a condition on what it fetches. -/
theorem fetched_any {s : State} {asn core : Nat} {p : Env → Nat → Bool}
    (h : (fetched s asn core).any (fun x => p x.1 x.2) = true) : ∃ e w, Fetches s asn core e w ∧ p e w = true := by
  cases hf : fetched s asn core with
  | none => rw [hf] at h; cases h
  | some x => rw [hf] at h; exact ⟨x.1, x.2, fetched_spec hf, h⟩

/-- Nothing in a list of runs is in VIRTUAL. -/
theorem runPages_local (rs : List Run) (h : ∀ r ∈ rs, r.space ≠ 0) : runPages rs = [] := by
  induction rs with
  | nil => rfl
  | cons r t ih =>
    have hr : r.space ≠ 0 := h r (by simp)
    have ht : runPages t = [] := ih fun x hx => h x (by simp [hx])
    unfold runPages at ht ⊢
    simp [List.flatMap_cons, hr, ht]

theorem addRun_local {rs : List Run} {sp a : Nat} {b : Bytes} (hr : ∀ r ∈ rs, r.space ≠ 0) (h : sp ≠ 0) :
    ∀ r ∈ addRun rs sp a b, r.space ≠ 0 := by
  unfold addRun
  cases rs with
  | nil => simp [h]
  | cons r t =>
    have h0 := hr r (by simp)
    have h1 : ∀ x ∈ t, x.space ≠ 0 := fun x hx => hr x (by simp [hx])
    dsimp only
    split
    · intro x hx
      rcases List.mem_cons.1 hx with rfl | hx
      · exact h0
      · exact h1 x hx
    · intro x hx
      rcases List.mem_cons.1 hx with rfl | hx
      · exact h
      · rcases List.mem_cons.1 hx with rfl | hx
        · exact h0
        · exact h1 x hx

theorem joinEW_local {e : Env} {rs : List Run} {x : EW} (hr : ∀ r ∈ rs, r.space ≠ 0) (h : x.space ≠ 0) :
    ∀ r ∈ joinEW e rs x, r.space ≠ 0 := by
  unfold joinEW
  dsimp only
  split
  · cases rs with
    | nil => exact addRun_local hr h
    | cons r t =>
      dsimp only
      split
      · intro y hy
        rcases List.mem_cons.1 hy with rfl | hy
        · exact hr r (by simp)
        · exact hr y (by simp [hy])
      · exact addRun_local hr h
  · exact addRun_local hr h

theorem foldl_joinEW_local {e : Env} {ws : List EW} : ∀ {rs : List Run}, (∀ r ∈ rs, r.space ≠ 0) → (∀ x ∈ ws, x.space ≠ 0) →
    ∀ r ∈ ws.foldl (joinEW e) rs, r.space ≠ 0 := by
  induction ws with
  | nil => intro rs hr _; exact hr
  | cons x t ih =>
    intro rs hr hw
    exact ih (joinEW_local hr (hw x (by simp))) fun y hy => hw y (by simp [hy])

/-- The pads of a plan's writes lie in the spaces of the writes. -/
theorem freePads_local {n : Nat} {ws : List EW} (h : ∀ x ∈ ws, x.space ≠ 0) : ∀ x ∈ freePads n ws, x.space ≠ 0 := by
  unfold freePads
  split
  · exact h
  · intro x hx
    obtain ⟨i, hi, rfl⟩ := List.mem_mapIdx.1 hx
    split
    · exact h ws[i] (List.getElem_mem hi)
    · exact h _ (List.getElem_mem hi)

theorem plan_runs_local {p : Plan} {e : Env} (h0 : ∀ x ∈ p.ews, x.space ≠ 0) : runPages (p.runs e) = [] := by
  apply runPages_local
  unfold Plan.runs
  have h := freePads_local (n := e.s.free + p.free) h0
  split
  · intro r hr
    obtain ⟨x, hx, rfl⟩ := List.mem_map.1 hr
    exact h x hx
  · intro r hr
    unfold runsOf at hr
    exact foldl_joinEW_local (by simp) h r (List.mem_reverse.1 hr)

/-- The pages of a plan's writes take them: always where the writes lie in the stores. -/
def pagesOk (e : Env) (p : Plan) : Bool :=
  p.ews.all (fun y => y.space != 0) || match checkPages e (runPages (p.runs e)) with
    | .ok _ => true
    | .error _ => false

theorem pagesOk_spec {e : Env} {p : Plan} (h : pagesOk e p = true) : checkPages e (runPages (p.runs e)) = .ok () := by
  unfold pagesOk at h
  simp only [Bool.or_eq_true] at h
  rcases h with h | h
  · rw [plan_runs_local (fun x hx => by simpa using List.all_eq_true.1 h x hx)]
    rfl
  · split at h
    · rename_i hc; exact hc
    · cases h

/-- An instruction in flight does its work, with a condition on its plan. -/
def works (ops : UnitOps) (more : Env → Plan → Bool) (x : Env) (f : Flight) : Bool :=
  let x₁ := x.met fun y => ops.run y f.w
  match ops.run x₁ f.w with
  | .ok p => more x₁ p && pagesOk x₁ p
  | .error _ => false

theorem works_spec {ops : UnitOps} {more : Env → Plan → Bool} {x : Env} {f : Flight} (h : works ops more x f = true) :
    ∃ x₁ p, Runs ops x x₁ f p ∧ more x₁ p = true := by
  unfold works at h
  dsimp only at h
  split at h
  · rename_i p hp
    simp only [Bool.and_eq_true] at h
    exact ⟨_, p, ⟨rfl, hp, pagesOk_spec h.2⟩, h.1⟩
  · cases h

/-- Whether a row's instruction issues at a core and does its work, with a condition on its plan. -/
def issues (mine : Nat → Bool) (more : Env → Plan → Bool) (s : State) (asn core : Nat) : Bool :=
  (fetched s asn core).any fun x => mine x.2 && match unitOps x.2 with
    | none => false
    | some ops => match ops.prep x.1 x.2 with
      | .error _ => false
      | .ok pr =>
        let e₁ := x.1.met fun y => ops.check y x.2
        !mustWait x.1.k x.2 pr && match ops.check e₁ x.2 with
          | .error _ => false
          | .ok i => (flightEnv (placed ops e₁ x.2 pr i) asn core e₁.s.nextId).any fun y => works ops more y.1 y.2

theorem issues_spec {mine more s asn core} (h : issues mine more s asn core = true) :
    ∃ e w ops e₁ pr i x f x₁ p, Fetches s asn core e w ∧ mine w = true ∧ unitOps w = some ops ∧ Issues ops e e₁ w pr i ∧
      flightEnv (placed ops e₁ w pr i) asn core e₁.s.nextId = some (x, f) ∧ Runs ops x x₁ f p ∧ more x₁ p = true := by
  obtain ⟨e, w, hf, h⟩ := fetched_any (p := fun e w => mine w && match unitOps w with
    | none => false
    | some ops => match ops.prep e w with
      | .error _ => false
      | .ok pr =>
        let e₁ := e.met fun y => ops.check y w
        !mustWait e.k w pr && match ops.check e₁ w with
          | .error _ => false
          | .ok i => (flightEnv (placed ops e₁ w pr i) asn core e₁.s.nextId).any fun y => works ops more y.1 y.2) h
  simp only [Bool.and_eq_true] at h
  obtain ⟨hm, h⟩ := h
  split at h
  · cases h
  · rename_i ops ho
    split at h
    · cases h
    · rename_i pr hp
      simp only [Bool.and_eq_true, Bool.not_eq_true'] at h
      obtain ⟨hw, h⟩ := h
      split at h
      · cases h
      · rename_i i hi
        obtain ⟨y, hy, h⟩ := (Option.any_eq_true _ _).1 h
        obtain ⟨x₁, p, hr, hmo⟩ := works_spec h
        exact ⟨e, w, ops, _, pr, i, y.1, y.2, x₁, p, hf, hm, ho, ⟨hp, hw, rfl, hi⟩, hy, hr, hmo⟩

/-- No further condition. -/
def always (_ : Env) (_ : Plan) : Bool := true

/-- An instruction word with its operands' slots and further fields. -/
def unit (op sub a b : Nat) (more : List (Nat × Nat)) : Nat := word ([(0, op), (8, sub), (32, a), (40, b)] ++ more)

/-- A row's instruction issues at core 3 of context 1, whose core store holds `store`, and does its work. -/
def runs (op sub w : Nat) (store : Mem) : Bool := issues (isRow op sub) always (tile w (seat (core store))) 1 3

/-- An instruction in flight. -/
def flying (wait : FlightWait) (w : Nat) : Flight :=
  { id := 5, index := 0, word := BitVec.ofNat 128 w, bufs := [], regs := [], cas := false, sem := some 9, verdicts := 0
    sampled := [], wait := wait, xs := List.replicate 16 0#32, par := [], windowed := false, ordinal := 0, since := 0, fill := false
    started := true, engines := [], olds := [], want := 0, entries := 0 }

/-- A decant of address space 1 in progress. -/
def decant : Decant := { id := 1, asn := 1, core := 0, index := 0, sem := 9, window := none
                         runs := [{ src := 0x1000, dst := 0x3000, bytes := 64 }], into := [(0x3000, 64)] }

/-- A context whose semaphore 9 stands for semaphore 8 of context 1. -/
def aliasing : Ctx := { seat (core []) with asn := 2, aliases := [{ index := 9, ownerAsn := 1, ownerIndex := 8, dangling := false }] }

/-- A module with queue 0 enabled, RUNNING, with rings of 16 entries. -/
def host (s : State) : State := { s with
  queues := [(0, { HostQueue.reset with state := .running })], regs := s.regs ++ [(hqBase 0 + 16, 0x80000404#32)] }

/-- A command starts at once, with a condition on the state it runs in. -/
def starts (s : State) (i : Instr) (code : Nat) (p : State → Bool) : Bool :=
  (getQ s hdr.queue).state == .running && startsNow (fetchOne s hdr.queue) hdr.queue i && admitted s code && p (begun s hdr code)

theorem starts_spec {s : State} {i : Instr} {code : Nat} {p : State → Bool} (h : starts s i code p = true) :
    ∃ b, Begins s i hdr code b ∧ p b = true := by
  unfold starts at h
  simp only [Bool.and_eq_true, beq_iff_eq] at h
  exact ⟨_, ⟨⟨h.1.1.1, h.1.1.2, h.1.2⟩, rfl⟩, h.2⟩

/-- A context that is BENCHED and idle. -/
def benched : Ctx := { seat (Core.fresh []) with state := .benched, job := none }


/-- A module with one context, quotas of 512 pages for address spaces 1 and 4, and pages 0 to 7 of address space 1. -/
def spaced (c : Ctx) : State :=
  let s := tile 0 c
  { s with regs := [(tqBase 1, 512#32), (tqBase 4, 512#32), (tqBase 1 + 8, 512#32)]
           spaces := [{ asn := 1, pages := (List.range 8).map fun i => { vpn := i, ppn := i, w := true, lost := false } }] }

/-- A parameter block of a decoder of pictures of 64 × 64, its frames in pages 1 and 2, its ring in page 3, its tensor in page 4
(R592). -/
def codecPar (fed : Nat) : Bytes := record 256 [(0, 1, 1), (4, 2, 64), (6, 2, 64), (8, 2, 30), (10, 2, 1), (12, 1, 2), (14, 1, 3),
  (18, 1, fed), (20, 4, 16), (24, 8, 0x200000), (32, 8, 0x600000), (40, 8, 0x800000), (48, 8, 24576), (56, 4, 1), (60, 4, 128),
  (64, 4, 128)]

/-- A module with stream 0 open. -/
def streaming (t : Stream → Stream) (s : State) : State :=
  putStream s 0 (some (t (newStream s 1 20 (codecPar 1))))

/-- A group of two modules, this one first. -/
def group : Group := { asn := 1, tag := 5, gen := 1, members := [0, 9], rank := 0, credits := 16, wdMs := 1, stale := false, cts := []
                       aborts := [], overSeqs := [], overLanded := [] }

/-! ### Witnesses: instructions of the units -/

theorem witness_CopiesComplete :
    runs 0x10 0 (unit 0x10 0 0 1 []) [] = true ∧
    runs 0x10 1 (unit 0x10 1 0 4 []) [] = true ∧
    runs 0x11 0 (unit 0x11 0 0 2 []) [] = true ∧
    runs 0x11 1 (unit 0x11 1 0 1 []) [] = true ∧
    runs 0x11 2 (unit 0x11 2 0 1 []) [] = true ∧
    runs 0x11 3 (unit 0x11 3 0 1 []) [] = true ∧
    runs 0x11 4 (unit 0x11 4 255 1 []) [] = true ∧
    runs 0x11 5 (unit 0x11 5 0 1 []) [] = true ∧
    runs 0x11 6 (unit 0x11 6 0 1 []) [] = true ∧
    runs 0x11 7 (unit 0x11 7 19 18 []) [] = true ∧
    runs 0x13 0 (unit 0x13 0 14 15 [(48, 16), (56, 17), (80, 1)]) [] = true := by
  decide +kernel

/-- An image of one blend step, a built-in function table, a table of one segment, and blend slots. -/
def loaded : Core := { core (bytesAt 0x400 1 1 ++ bytesAt 0x500 1 1 ++ bytesAt 0x540 8 5) with
  tables := List.replicate 4 (.image (List.replicate 72 0#8), .empty)
  blend := List.replicate 16 (some (.image (record 72 [(0, 1, 1), (64, 8, 5)]))) }

/-- A vintage epoch that no die has acknowledged. -/
def waits : Epoch := { hdr := hdr, taster := false, value := 1, rate := 0, since := 0, timeoutNs := 10000000, dies := [0, 1, 2, 3]
                       late := [], acked := [] }

theorem witness_VectorsComplete :
    let norm := tile (unit 0x24 2 0 3 [(48, 19), (56, 255)]) (seat (core []))
    let runsL := fun op sub w more => issues (isRow op sub) more (tile w (seat loaded)) 1 3
    runs 0x24 0 (unit 0x24 0 0 255 [(48, 7), (56, 255)]) [] = true ∧
    runs 0x24 1 (unit 0x24 1 8 255 [(48, 7), (56, 255)]) [] = true ∧
    issues (isRow 0x24 2) always norm 1 3 = true ∧
    runs 0x25 0 (unit 0x25 0 0 255 [(48, 3)]) [] = true ∧
    runs 0x25 1 (unit 0x25 1 0 4 [(48, 3)]) [] = true ∧
    runs 0x25 2 (unit 0x25 2 0 4 [(48, 3)]) [] = true ∧
    runs 0x25 3 (unit 0x25 3 0 255 [(48, 3)]) [] = true ∧
    runsL 0x26 1 (unit 0x26 1 5 255 []) always = true ∧
    runsL 0x27 0 (unit 0x27 0 0 3 []) always = true ∧
    runsL 0x27 1 (unit 0x27 1 6 255 []) always = true ∧
    runsL 0x26 0 (unit 0x26 0 0 3 []) (fun e _ => !epochHolds e false) = true ∧
    (fetched { tile (unit 0x26 0 0 3 []) (seat loaded) with modes := { Modes.reset with pending := some waits } } 1 3).any
      (fun x => isRow 0x26 0 x.2 && epochHolds x.1 false) = true := by
  decide +kernel

/-- R680: a FUNC APPLY in flight that waits behind a held write has issued, so its die does not acknowledge until it leaves. -/
theorem test_held_write_delays_epoch :
    let f := { flying .none (unit 0x26 0 0 3 []) with started := false }
    let s := tile 0 (seat { core [] with flight := [f], hold := some (0, 0) })
    let d := ((ctxOf s 1).map fun c => c.set.getD 0 0 / 32).getD 4
    dieQuiet { s with modes := { Modes.reset with pending := some waits } } d false = false ∧
    dieQuiet { s with modes := { Modes.reset with pending := some waits } } (d + 1) false = true := by
  decide +kernel

theorem witness_ConvolutionAndAttentionComplete :
    let attn := fun (sub : Nat) => unit 0x21 sub 9 10 [(48, 11), (56, 12), (64, 13), (88, 255)]
    let piece := fun chunk waits => issues (isRow 0x21 2) (fun e p => (match p.wait with | .piece _ => true | _ => false) == waits && e.k.flight.all (fun f => !f.isPiece))
      (tile (attn 2) (seat (core (attnBlock chunk)))) 1 3
    runs 0x22 0 (unit 0x22 0 3 4 [(56, 255)]) [] = true ∧
    runs 0x23 0 (unit 0x23 0 3 4 []) [] = true ∧
    runs 0x23 1 (unit 0x23 1 3 4 []) [] = true ∧
    runs 0x23 2 (unit 0x23 2 3 4 []) [] = true ∧
    runs 0x21 0 (attn 0) (attnBlock 0) = true ∧
    runs 0x21 1 (attn 1) (attnBlock 0) = true ∧
    piece 0 false = true ∧ piece 1 true = true := by
  decide +kernel

/-- A module whose taster samples every tile of a window over the program's first instruction. -/
def tasted (w : Nat) : State :=
  let s := tile w (seat (core []))
  { s with regs := [(precBase 0 0, 1#32), (precBase 0 0 + 0x14, 0x00FFFF02#32)]
           dies := List.replicate 4 { onlineDie with tasteEn := true, tasteRate := 0 } }

theorem witness_ProductCompletes :
    let w := unit 0x20 0 3 4 [(48, 0), (56, 255)]
    issues (isRow 0x20 0) (fun e p => p.taster.isEmpty && !(e.window.isSome && epochHolds e true))
      (tile w (seat (core []))) 1 3 = true ∧
    issues (isRow 0x20 0) (fun e p => p.taster.length == 1 && !(e.window.isSome && epochHolds e true))
      (tasted w) 1 3 = true := by
  decide +kernel

/-! ### Witnesses: instructions the sequencer executes -/

/-- The conditions of `SeqFree`. -/
def seqFree (e : Env) (w : Nat) (resv : List (Nat × Nat)) (reads writes : List Nat) : Bool :=
  zeros w resv && !mustWait e.k w { bufs := [], reads := sels reads, writes := sels writes }

theorem seqFree_spec {e : Env} {w : Nat} {resv : List (Nat × Nat)} {reads writes : List Nat}
    (h : seqFree e w resv reads writes = true) : SeqFree e w resv reads writes := by
  unfold seqFree at h
  simp only [Bool.and_eq_true, Bool.not_eq_true'] at h
  exact ⟨h.1, h.2⟩

/-- Core 3 of context 1 fetches a word, with a condition (`fetched_any` turns it into the premises of a statement). -/
def fetches (w : Nat) (c : Ctx) (p : Env → Nat → Bool) : Bool := (fetched (tile w c) 1 3).any fun x => p x.1 x.2

theorem witness_SequencerEffect :
    (rowEnv (tile (word [(0, 1)]) (seat (core []))) 1 3).isSome = true ∧ (tile 1 (seat (core []))).cells = [] := by
  decide +kernel

/-- LOOP with X[1] = 0 and LIMIT 5 as the register, the limit and the target go; the three clauses at both sides of `below` and of
the program's end. -/
theorem witness_LoopBranches :
    let go := fun (step limit target : Nat) (p : Bool → Bool → Bool) =>
      fetches (word [(0, 2), (32, 5), (40, step), (64, limit), (96, target)]) (seat (core [])) fun e w =>
        isRow 0x02 0 w && seqFree e w [(63, 56), (127, 112)] [bits w 35 32, bits w 39 36] [bits w 35 32] &&
        p (decide ((e.k.xr 5 + BitVec.ofInt 32 (signed 16 (bits w 55 40))).toInt < (BitVec.ofNat 32 (bits w 95 64)).toInt))
          (decide (bits w 111 96 < e.j.len))
    go 5 5 1 (fun below _ => !below) = true ∧ go 4 5 1 (fun below inside => below && inside) = true ∧
    go 4 5 2 (fun below inside => below && !inside) = true := by
  decide +kernel

/-- BRANCH taken and not taken on each kind of condition, to the last instruction and beyond it. -/
theorem witness_BranchJumps :
    let go := fun (sub imm target : Nat) (taken inside : Bool) =>
      fetches (word [(0, 3), (8, sub), (64, imm), (96, target)]) (seat (core [])) fun e w =>
        opOf w == 0x03 && seqFree e w [(63, 40), (127, 112)] [bits w 35 32, bits w 39 36] [] &&
        (decide (subOf w < 5) || e.k.flight.isEmpty) && (branchTaken e w == taken) && (decide (bits w 111 96 < e.j.len) == inside)
    go 0 0 1 true true = true ∧ go 1 1 1 false true = true ∧ go 2 1 2 true false = true ∧ go 3 0 0 false true = true ∧
    go 4 0 1 true true = true ∧ go 5 0 1 false true = true ∧ go 6 0 1 true true = true := by
  decide +kernel

/-- The scalar form of VEC at its first operation, its last one and the first reserved code. -/
theorem witness_ScalarComputes :
    let go := fun (op : Nat) => fetches (word [(0, 0x25), (8, 15), (32, 5), (36, 6), (40, 7), (44, op), (64, 9)]) (seat (core []))
      fun e w => isRow 0x25 15 w && bits w 47 44 == op &&
        seqFree e w [(63, 48), (127, 96)] [bits w 39 36, bits w 43 40] [bits w 35 32]
    (List.range 11).all go = true := by
  decide +kernel

theorem witness_ScalarRegisters : (core []).x.length = 16 := by decide +kernel

theorem witness_EndFinishesCore : fetches (word [(0, 1)]) (seat (core []))
    (fun e w => isRow 0x01 0 w && seqFree e w [(127, 32)] [] []) = true := by
  decide +kernel

theorem witness_OrderingRowsComplete :
    let leaving := { seat (core []) with state := .benching }
    let busy := seat { core [] with flight := [flying .none 0] }
    let gone := { seat (core []) with aliases := [{ index := 9, ownerAsn := 2, ownerIndex := 8, dangling := true }] }
    let drained := fun w c p => fetches w c fun e w => e.k.flight.isEmpty && p e w
    fetches (word [(0, 6), (8, 2)]) busy (fun e w => opOf w == 0x06 && zeros w [(127, 32)] && !e.k.flight.isEmpty) = true ∧
    drained (word [(0, 6), (8, 2)]) (seat (core [])) (fun _ w => opOf w == 0x06 && zeros w [(127, 32)]) = true ∧
    fetches (word [(0, 8)]) busy (fun e w => isRow 0x08 0 w && zeros w [(127, 32)] && !e.k.flight.isEmpty) = true ∧
    drained (word [(0, 8)]) (seat (core [])) (fun e w => isRow 0x08 0 w && zeros w [(127, 32)] && !e.c.leaving) = true ∧
    drained (word [(0, 8)]) leaving (fun e w => isRow 0x08 0 w && zeros w [(127, 32)] && e.c.leaving) = true ∧
    drained (word [(0, 5), (32, 9), (48, 3)]) (seat (core [])) (fun e w => isRow 0x05 0 w && zeros w [(47, 40), (127, 64)] &&
      (semTarget e.c (bits w 39 32)).isSome) = true ∧
    drained (word [(0, 5), (32, 9), (48, 3)]) gone (fun e w => isRow 0x05 0 w && zeros w [(47, 40), (127, 64)] &&
      semTarget e.c (bits w 39 32) == none) = true ∧
    (List.range 2).all (fun i => drained (word [(0, 7), (32, 255 + i), (48, 3)]) (seat (core [])) fun _ w => isRow 0x07 0 w &&
      zeros w [(127, 64)] && (decide (bits w 47 32 < 256) == (i == 0))) = true := by
  decide +kernel

theorem witness_SemaphoreAddSaturates :
    let s := { tile 0 (seat (core [])) with ctxs := [seat (core []), aliasing] }
    (ctxOf s 2).any (fun c => semTarget c 9 == some (1, 8) && semTarget c 8 == some (2, 8)) = true ∧
    (ctxOf s 1).any (fun o => decide (8 < o.sems.length)) = true := by
  decide +kernel

/-- A context with 3 in semaphore 9, and one where core 2 waits for 4 of it. -/
def counted : Ctx := { seat (core []) with sems := (List.replicate 256 0).set 9 3 }
/-- See `counted`. -/
def queued : Ctx := { counted with waiters := [{ sem := 9, asn := 1, core := 2, n := 4, consume := true }] }

/-- WAIT with N = 0, with the count reached and nobody waiting (N = 3 of 3), with too little (N = 4), and behind a waiter. -/
theorem witness_WaitTakesItsCount :
    let go := fun (sub n : Nat) (c : Ctx) (free enough : Bool) => fetches (word [(0, 4), (8, sub), (32, 9), (48, n)]) c fun e w =>
      isRow 0x04 sub w && seqFree e w [(47, 40), (127, 64)] [] [] && semTarget e.c (bits w 39 32) == some (1, 9) &&
      (c.waiters.all (fun x => x.sem != 9) == free) && (decide (bits w 63 48 ≤ semCount e.s 1 9) == enough)
    (List.range 2).all (fun sub => go sub 0 queued false true && go sub 3 counted true true && go sub 4 counted true false &&
      go sub 3 queued false true) = true := by
  decide +kernel

theorem witness_BlockQueuesWaiter :
    let s := tile 0 counted
    (envOf s 1 3 .running).isSome = true ∧ (ctxOf s 1).isSome = true := by
  decide +kernel

theorem witness_WaiterIsServed :
    let c := { queued with sems := (List.replicate 256 0).set 9 4 }
    let s := tile 0 c
    (Instr.waitSatisfied 1 9).wf = true ∧ (coreOf s 1 2).isSome = true ∧ (ctxOf s 1).any (fun o => o.seatedNow &&
      (o.waiters.find? fun x => x.sem == 9).any fun x => x.asn == 1 && x.core == 2 && decide (x.n ≤ o.sems.getD 9 0)) = true := by
  decide +kernel

theorem witness_InstructionCompletes :
    let k := { core [] with flight := [flying .none 0] }
    let s := tile 0 (seat k)
    (Instr.instructionComplete 1 3 ⟨5, 2, 1, false⟩).wf = true ∧
    (Instr.instructionComplete 1 3 ⟨5, 0, 0, true⟩).wf = true ∧ (ctxOf (goCore 1 3 s) 1).isSome = true ∧ (ctxOf s 1).any (·.seatedNow) = true ∧ (coreOf (goCore 1 3 s) 1 3).any (fun k =>
      (k.flight.find? fun f => f.id == 5).any fun f => f.started && f.wait == .none && f.verdicts == 0 && f.want == 0) = true := by
  decide +kernel

/-- A DECANT of 4 bytes with 7 and with 8 in progress, from VIRTUAL and from a host window, at its issue and when it waits. -/
theorem witness_DecantIsAccepted :
    let w := fun (sub : Nat) => unit 0x12 sub (if sub = 0 then 2 else 0) 20 [(12, 1), (16, 9)]
    let desc := slots ++ [tensor 1 0 0x4000 [1] 1]
    let at_ := fun (sub n : Nat) (run : CoreRun) (few : Bool) =>
      let s := { tile (w sub) { seat { core [] with run := run } with desc := desc } with
        decants := List.replicate n decant, regs := [(hwBase 1 0 + 8, 1#32)] }
      match (envOf s 1 3 run).map Env.fetched with
      | none => false
      | some e => headerOk (w sub) && (match fetchWord e with
        | .ok x => x == w sub
        | .error _ => false) && sigOf (w sub) && zeros (w sub) [(127, 56)] &&
        !mustWait e.k (w sub) { bufs := decantBufs e (w sub), reads := sels [bits (w sub) 51 48, bits (w sub) 55 52], writes := [] } &&
        (match (if subOf (w sub) = 0 then decantVirtual e (w sub) else decantHost e (w sub)) with
          | .ok l => !l.isEmpty
          | .error _ => false) && isRow 0x12 sub (w sub) &&
        (decide ((s.decants.filter fun d => d.asn == 1).length < 8) == few)
    at_ 0 7 .running true = true ∧ at_ 0 8 .running false = true ∧ at_ 1 7 .running true = true ∧
    at_ 1 8 .running false = true ∧ at_ 0 7 .decantWait true = true := by
  decide +kernel

/-- An atomic add runs, its element readable. -/
theorem witness_IntegerAtomicValues :
    let good := fun (e : Env) (w : Nat) => match slotDesc e (bits w 39 32), slotDesc e (bits w 47 40) with
      | .ok a, .ok b => match lsPair e w a b, int32Run (fun a b => a + b) e w with
        | .ok (oa, _), .ok _ => (allIdx oa.dims)[0]? == some [0, 0, 0, 0]
        | _, _ => false
      | _, _ => false
    fetches (unit 0x11 1 0 1 []) (seat (core [])) good = true := by
  decide +kernel

/-- A compare-and-swap against a target that holds 0: with X[XIDX] = 0 and with X[XIDX] = 7. -/
theorem witness_CompareAndSwap :
    let good := fun (same : Bool) (e : Env) (w : Nat) => match slotDesc e (bits w 47 40), casRun e w with
      | .ok b, .ok _ => match nowPattern e (b.opnd (e.xn (fXod w))) [0, 0, 0, 0] with
        | .ok y => (y == e.xn (fXidx w)) == same
        | .error _ => false
      | _, _ => false
    let k := { core [] with x := (List.replicate 16 0#32).set 5 7#32 }
    fetches (unit 0x11 4 255 1 []) (seat k) (good true) = true ∧ fetches (unit 0x11 4 255 1 [(60, 5)]) (seat k) (good false) = true := by
  decide +kernel

theorem witness_LoadRegisters :
    let good := fun (e : Env) (w : Nat) => match slotDesc e (bits w 39 32), xregRun e w with
      | .ok a, .ok _ => match rdMain e a (a.base + (a.byteOff (e.xn (fXos w))).1) 16 with
        | .ok b => b.length == 16
        | .error _ => false
      | _, _ => false
    fetches (unit 0x10 1 0 4 []) (seat (core [])) good = true := by
  decide +kernel

/-! ### Witnesses: events of units and dies, contexts and jobs -/

/-- A sampled tile: the engines' pattern `y` against the reference pattern `r`, with bound 0. -/
def sampled (y r : Word) : TasterTile :=
  { core := 3, flight := 5, window := 0, ordinal := 0, width := 8, bound := 0#32, layer := 0#32, pass := 0#32, beats8 := 0
    beats16 := 0, y := [y], y8 := [y], r := [r], writes8 := [], writesR := [(1, 0, [1#8])], flagsY := 0, flags8 := 0, flagsR := 0 }

/-- A tile within its bound and one beyond it; one whose core holds a write, one whose write finds its page in the cellar, one whose
taster finds no free engine. -/
theorem witness_VerdictsComplete :
    let f : Flight := { flying .none (unit 0x20 0 3 4 [(48, 0), (56, 255)]) with verdicts := 1 }
    let good := fun (t : TasterTile) (hold : Option (Nat × Nat)) (fail : Bool) (p : Env → List Run → Bool) =>
      let s := tile 0 { seat { core [] with flight := [f], hold := hold } with clusters := [{ newCluster with taster := [t] }] }
      (Instr.tasterVerdict 1 0).wf && ((ctxOf s 1).any fun c => c.seatedNow && ((c.clusters[0]?).any fun q => q.taster == [t]) &&
        canTaste s c 0) && (tasteFails t.bound t.y t.r == fail) &&
        (flightEnv s 1 t.core t.flight).any fun x => x.2 == f && (x.1.k.hold == hold) && p x.1 (if fail then rawWrites t.writesR else [])
    let ok := fun (e : Env) (l : List Run) => match checkPages e (runPages l) with
      | .ok _ => true
      | .error _ => false
    let far := { sampled 0x3F800000#32 0#32 with writesR := [(0, 0x400000, [1#8])] }
    good (sampled 0#32 0#32) none false ok = true ∧ good (sampled 0x3F800000#32 0#32) none true ok = true ∧
    good (sampled 0#32 0#32) (some (0, 0)) false (fun _ _ => true) = true ∧ good far none true (fun e l => !ok e l) = true ∧
    (let f := { flying .none 0 with engines := [0] }
     let s := { tile 0 (seat { core [] with flight := [f] }) with dies := List.replicate 4 { onlineDie with
       clusters := List.replicate 32 { ClusterMap.reset with active := true, role := .repair, faulty := 1 } } }
     (ctxOf s 1).any (fun c => !canTaste s c 0) = true) := by
  decide +kernel

theorem witness_PromotionCompletes :
    let s := { tile 0 (seat (core [])) with
      spaces := [{ asn := 1, pages := [{ vpn := 4, ppn := 8388608, w := true, lost := false }] }]
      promotions := [{ asn := 1, vpn := 4, dst := 9 }] }
    let five : List Promotion := (List.range 5).map fun i => { asn := 1, vpn := i, dst := 9 + i }
    let full := { s with
      spaces := [{ asn := 1, pages := (List.range 5).map fun i => { vpn := i, ppn := 8388608 + i, w := true, lost := false } }]
      promotions := five }
    (Instr.promotionDone 1 4).wf = true ∧ (s.promotions.find? fun p => p.asn == 1 && p.vpn == 4) = some { asn := 1, vpn := 4, dst := 9 } ∧
    (pageOf s 1 4).any (fun g => !isNear g.ppn) = true ∧ isRunning s { asn := 1, vpn := 4, dst := 9 } = true ∧
    (pageOf full 1 4).any (fun g => !isNear g.ppn) = true ∧ isRunning full { asn := 1, vpn := 4, dst := 13 } = false := by
  decide +kernel

/-- A PIECE with its one key landed; an ordered contribution whose turn it is; a page of a decant from VIRTUAL and one from a host
window. -/
theorem witness_WaitingWorkCompletes :
    (let pc : Piece := { head := 0, step := 0, keys := [{ isGlobal := false, ix := [0, 0, 0] }], rows := [{ m := 0xFF800000#32, l := 0#32, o := [0#32] }] }
     let par := (List.range 64).map fun i => Mem.read (attnBlock 1) (0x900 + i)
     let f := { flying (.piece pc) (unit 0x21 2 9 10 [(48, 11), (56, 12), (64, 13), (88, 255)]) with par := par }
     let s := tile 0 { seat { core (attnBlock 1) with flight := [f] } with sems := ((List.replicate 256 0).set 4 1).set 5 1 }
     (flightEnv s 1 3 5).any (fun x => x.2 == f && x.1.k.hold.isNone &&
       works ⟨attnPrep, attnCheck, pieceRun pc⟩ (fun _ p => p.wait == .none) x.1 x.2) = true) ∧
    (let f := flying (.ordered 0x10000 4 1 0 0) (unit 0x11 6 0 1 [])
     let s := tile 0 { seat { core [] with flight := [f] } with
       clusters := [{ newCluster with tracks := [{ lo := 0x10000, len := 4, fmt := 1, cnt := 0, next := 0 }] }] }
     (flightEnv s 1 3 5).any (fun x => x.2 == f &&
       (x.1.cluster.tracks.any fun t => t.lo == 0x10000 && t.len == 4 && t.fmt == 1 && t.cnt == 0 && t.next == 0) &&
       works ⟨floatAddPrep true, plainCheck orderedWait, orderedNow true⟩ always x.1 x.2) = true) ∧
    (let d := { decant with window := none }
     let s := { tile 0 (seat (core [])) with decants := [d] }
     nextDecant s = some d ∧ agentWritable s 1 0 = true ∧ agentReadable s 1 0 = true) ∧
    (let d := { decant with window := some 0 }
     let s := { tile 0 (seat (core [])) with decants := [d] }
     nextDecant s = some d ∧ agentWritable s 1 0 = true ∧ runStep (some 0) { src := 0x1000, dst := 0x3000, bytes := 64 } = 64) := by
  decide +kernel

theorem witness_DieFaultsComplete :
    let s := tile 0 (seat { core [] with stintNs := 600001 })
    s.dies.length = 4 ∧ (getDie s 0).state ≠ .resetting ∧ dieIs s 3 .online = true ∧ (getDie s 3).screen.state = .idle ∧
    (ctxOf s 1).any (fun c => c.job.isSome && c.seatedNow && (coreOf s 1 3).any fun k => decide (overrunNs s c 3 < k.stintNs)) = true := by
  decide +kernel

/-- A die in the first step of its reset after a fault and at wake, and in built-in test. -/
theorem witness_DieResetsComplete :
    let s := fun (d : Die) => { ready with dies := [onlineDie, onlineDie, onlineDie, d] }
    let is := fun (st : Nat) (g : DieGoal) => (getDie (s { Die.reset with stage := st, goal := g }) 3).state = .resetting ∧
      (getDie (s { Die.reset with stage := st, goal := g }) 3).stage = st ∧
      (getDie (s { Die.reset with stage := st, goal := g }) 3).goal = g
    is 1 .fault ∧ is 1 (.restore hdr) ∧ is 1 (.repair hdr) ∧ is 1 .wake ∧ is 2 .fault ∧ is 2 (.restore hdr) ∧ is 2 (.repair hdr) ∧ (Instr.builtInTestDone 3 [.slot 31 16, .pool 0]).wf = true := by
  decide +kernel

theorem witness_JobsComplete :
    let s := host (tile 0 benched)
    starts s (.jobLaunch hdr 1 2 1 65536 64 0) 0x0020 (fun _ => (Instr.jobLaunch hdr 1 2 1 65536 64 0).wf && (ctxOf s 1).any fun c => c.state != .corked &&
      c.job.isNone && precAgree s c && match trellisLaunch (readTrellis s c) c with
        | .ok _ => true
        | .error _ => false) = true ∧
    starts (host (tile 0 (seat (core [])))) (.jobEnd hdr 1) 0x0021 (fun _ => (ctxOf (tile 0 (seat (core []))) 1).any fun c =>
      c.job.isSome && c.seatedNow) = true ∧
    starts (host (tile 0 { seat (core []) with state := .benched })) (.jobEnd hdr 1) 0x0021 (fun b => (ctxOf b 1).any fun c =>
      c.job.isSome && !c.seatedNow) = true ∧
    (let s := tile 0 (seat { core [] with run := .ended })
     (ctxOf s 1).any (fun c => c.job.any (fun j => j.fate == .running) && c.moving.isNone && jobQuiet s c &&
       c.cores.all fun k => k.run == .ended) = true) := by
  decide +kernel

theorem witness_SeatingCompletes :
    (State.reset.hub.boot ≠ .ready) ∧
    (let b := { seat (core []) with state := .benched }
     let s := tile 0 b
     s.hub.boot = .ready ∧ s.hub.powered = true ∧ s.ctxs.length = 1 ∧ b.state = .benched ∧ b.job.isSome = true ∧
     (nextSeat (seatClaimants s)).isSome = true ∧ nextSeat (seatClaimants ready) = none) ∧
    (let s := tile 0 { seat (core []) with sliceNs := 1000000 }
     (ctxOf s 1).any (fun c => c.state == .seated && c.job.isSome && decide (1000 * c.sliceUs ≤ c.sliceNs)) = true) := by
  decide +kernel

theorem witness_CorksComplete :
    (ctxOf (tile 0 { seat { core [] with run := .parked } with state := .corking }) 1).any
      (fun c => c.leaving && c.moving.isNone && c.allParked) = true ∧
    (ctxOf (tile 0 { seat (core []) with state := .benching, moving := some false }) 1).any
      (fun c => c.moving == some false && !c.cd6 && c.state == .benching) = true ∧
    (ctxOf (tile 0 { seat (core []) with state := .corking, moving := some false }) 1).any
      (fun c => c.moving == some false && !c.cd6 && c.state == .corking) = true ∧
    (let s := tile 0 { seat (core []) with state := .seating, moving := some true }
     (ctxOf s 1).any (fun c => c.moving == some true && c.state == .seating && (poisonedArea (readArea s c) c).isNone && !c.cd6) = true) ∧
    (let s := tile 0 { seat (core []) with state := .seating, moving := some true, cd6 := true }
     (ctxOf s 1).any (fun c => c.moving == some true && c.state == .seating && (poisonedArea (readArea s c) c).isNone && c.cd6) = true) := by
  decide +kernel

/-! ### Witnesses: host commands -/

/-- The four ways a command is met: a queue that is not RUNNING, a start, a boot state that does not admit it, a barrier that waits. -/
theorem witness_HostCommandsStart :
    let h : CmdHdr := { hdr with barrier := true }
    let busy := { host ready with queues := [(0, { HostQueue.reset with state := .running, inProg := [{ id := 1, cmd := 0x30 }] })] }
    (hostCmd (.dormantEnter hdr)).any (fun c => c.code == 0x0071 && c.h == hdr) = true ∧ (Instr.dormantEnter hdr).wf = true ∧
    (getQ ready 0).state ≠ .running ∧ starts (host ready) (.dormantEnter hdr) 0x0071 (fun _ => true) = true ∧
    (getQ (host State.reset) 0).state = .running ∧
    startsNow (fetchOne (host State.reset) 0) 0 (.dormantEnter hdr) = true ∧ admitted (host State.reset) 0x0071 = false ∧
    (hostCmd (.dormantEnter h)).any (fun c => c.h == h) = true ∧ (getQ busy 0).state = .running ∧
    startsNow (fetchOne busy 0) 0 (.dormantEnter h) = false := by
  decide +kernel

theorem witness_EmptyCommandsComplete :
    (Instr.nop hdr).wf = true ∧ starts (host State.reset) (.nop hdr) 0x0001 (fun _ => true) = true ∧
    (Instr.reservedCmd hdr 0x00FF 0).wf = true ∧ (getQ (host State.reset) 0).state = .running ∧
    startsNow (fetchOne (host State.reset) 0) 0 (.reservedCmd hdr 0x00FF 0) = true := by
  decide +kernel

/-- A queue with room, one whose ring is full (CQ_TAIL 15 with HEAD 0 of 16 entries), one that is disabled. -/
theorem witness_CompletionsAreWritten :
    let full := { host ready with queues := [(0, { HostQueue.reset with state := .running, cqTail := 15 })] }
    let last := { host ready with queues := [(0, { HostQueue.reset with state := .running, cqTail := 15, cqHead := 1 })] }
    (hqEnabled (host ready) 0 = true ∧ cqFull (host ready) 0 = false ∧ (getQ (host ready) 0).held = []) ∧
    (hqEnabled last 0 = true ∧ cqFull last 0 = false ∧ (getQ last 0).held = []) ∧
    (hqEnabled full 0 = true ∧ cqFull full 0 = true) ∧ hqEnabled ready 0 = false := by
  decide +kernel

theorem witness_ContextsBecomeResident :
    starts (host (spaced benched)) (.ctxCreate hdr 4 0 0 100 (2 ^ 33 + 2 ^ 1) 0 0 0) 0x0010 (fun b =>
      let set := maskClusters (2 ^ 33 + 2 ^ 1)
      (Instr.ctxCreate hdr 4 0 0 100 (2 ^ 33 + 2 ^ 1) 0 0 0).wf && !set.isEmpty && (ctxOf b 4).isNone &&
      set.all (clusterUsable b) && let b := readImageAt b 4 0 set.length
      (match createFrom b hdr 4 0 0 100 set 0 with
        | .ok _ => true
        | .error _ => false) && !class0Clash b 4 set && decide (nearDue b 4 + 21 * set.length ≤ nearQuota b 4) &&
      fullDies b set == 0) = true ∧
    starts (host (spaced { benched with state := .corked, slots := List.replicate 4 none })) (.ctxUncork hdr 1 (2 ^ 64)) 0x0013 (fun b =>
      let set := maskClusters (2 ^ 64)
      (Instr.ctxUncork hdr 1 (2 ^ 64)).wf && ((ctxOf b 1).any fun c => c.state == .corked &&
        set.length == c.set.length && c.set.all (clusterUsable b)) && set.all (clusterUsable b) && fullDies b set == 0) = true := by
  decide +kernel

theorem witness_ContextCommandsComplete :
    let corked : Ctx := { benched with state := .corked, slots := List.replicate 4 none }
    let large := fun (c : Ctx) => { spaced c with spaces := [{ asn := 1, pages := (List.range 21).map fun i =>
      { vpn := i, ppn := i, w := true, lost := false } }] }
    starts (host (spaced benched)) (.ctxDestroy hdr 1) 0x0011 (fun b => (ctxOf b 1).any fun c => c.job.isNone &&
      (c.state == .benched || c.state == .corked)) = true ∧
    starts (host (spaced benched)) (.ctxCork hdr 1) 0x0012 (fun b => (ctxOf b 1).any fun c => c.state != .corked && c.state != .corking) = true ∧
    starts (host (spaced benched)) (.ctxSetClass hdr 1 0 1000000) 0x0015 (fun b => (Instr.ctxSetClass hdr 1 0 1000000).wf && (ctxOf b 1).any fun c =>
      c.resident && !c.cd6 && !class0Clash b 1 c.set) = true ∧
    starts (host (large corked)) (.ctxExport hdr 1 0 0) 0x0014 (fun b => (ctxOf b 1).any fun c => c.state == .corked &&
      !moveBlocked b 1 && writableRange b 1 0 (imageLen c.set.length)) = true ∧
    (let s := large { corked with exporting := some (hdr, true, 0) }
     (ctxOf s 1).any (fun c => c.exporting == some (hdr, true, 0) &&
       let u := modCtx (c.corkPages.foldl (fun s p => hubReads s p pageBytes) s) 1 fun c => { c with exporting := none }
       writableRange u 1 0 (imageLen c.set.length)) = true) ∧
    starts (host { spaced benched with ctxs := [] }) (.asnDestroy hdr 1) 0x0016 (fun b => (spaceOf b 1).isSome && (ctxOf b 1).isNone &&
      !hasStream b 1 && !hasGroup b 1) = true := by
  decide +kernel

theorem witness_BindingsComplete :
    let two := { spaced benched with ctxs := [benched, aliasing] }
    starts (host two) (.semAliasSet hdr 1 255 2 8) 0x0017 (fun b => (ctxOf b 1).any fun c => c.job.isNone && decide (c.aliases.length < 64) &&
      (ctxOf b 2).any fun o => o.aliases.all fun a => a.index != 8) = true ∧
    starts (host two) (.semSignal hdr 2 9 65535) 0x0018 (fun b => (ctxOf b 2).any fun c => semTarget c 9 == some (1, 8)) = true ∧
    starts (host (spaced benched)) (.descBind hdr 1 254 1 0x1000) 0x0022 (fun b => (Instr.descBind hdr 1 254 1 0x1000).wf && (ctxOf b 1).any fun c =>
      c.job.isNone && match virtRead (agentReads b 1 0x1000 64) 1 0x1000 64 with
        | .ok l => bindCheck (slice l 0 64) == none
        | .error _ => false) = true ∧
    starts (host (spaced benched)) (.trellisBind hdr 1 1024 64) 0x0023 (fun b => (Instr.trellisBind hdr 1 1024 64).wf && (ctxOf b 1).any fun c => c.job.isNone) =
      true ∧
    starts (host (spaced benched)) (.versionSet hdr 1 31 4 250 64) 0x0024 (fun b => (Instr.versionSet hdr 1 31 4 250 64).wf && (ctxOf b 1).any fun c =>
      c.job.isNone && !setsOverlap c 31 250) = true := by
  decide +kernel

theorem witness_PageCommandsComplete :
    let up := fun (s : State) => { s with farPorts := [{ state := .up, lanes := 16, rate := 2, backed := 100 }, .reset] }
    let takes := fun (b : State) (tier n : Nat) => (takePages b tier (places b tier 0) (usedPpns b) 0 n).isSome
    let alloc := fun (tier : Nat) (b : State) => (spaceOf b 1).isSome && placeOk b tier 0 && (pagesIn b 1 8 2).isEmpty &&
      decide (nearDue b 1 + 2 ≤ nearQuota b 1) && decide (cellarDue b 1 + 2 ≤ cellarQuota b 1) &&
      decide (2 ≤ freePages b tier (places b tier 0)) && takes b tier 2
    let migrate := fun (tier access : Nat) (b : State) =>
      let ps := pagesIn b 1 2 2
      let move := (ps.filter fun p => !inPlace tier (places b tier 0) p).length
      placeOk b tier 0 && ps.length == 2 && !busyIn b 1 2 2 && ps.all (fun p => !p.lost) && !jobRunning b 1 &&
      decide (nearDue b 1 - (ps.filter fun p => isNear p.ppn || p.w).length +
        (ps.filter fun p => tier == 0 || newW access p.w).length ≤ nearQuota b 1) &&
      decide (cellarDue b 1 - (ps.filter fun p => !isNear p.ppn).length + 2 ≤ cellarQuota b 1) &&
      decide (move ≤ freePages b tier (places b tier 0)) && takes b tier move
    starts (host (up (spaced benched))) (.memAlloc hdr 1 0 1 2 (8 * pageBytes) 0) 0x0030 (alloc 0) = true ∧
    starts (host (up (spaced benched))) (.memAlloc hdr 1 1 1 2 (8 * pageBytes) 0) 0x0030 (alloc 1) = true ∧
    starts (host (spaced benched)) (.memFree hdr 1 2 (2 * pageBytes)) 0x0032 (fun b => (pagesIn b 1 2 2).length == 2 && !busyIn b 1 2 2 && !jobRunning b 1) = true ∧
    starts (host (up (spaced benched))) (.memMigrate hdr 1 0 0 2 (2 * pageBytes) 0) 0x0031 (migrate 0 0) = true ∧
    starts (host (up (spaced benched))) (.memMigrate hdr 1 1 2 2 (2 * pageBytes) 0) 0x0031 (migrate 1 2) = true ∧
    ([({ hdr := hdr, asn := 1 } : ZeroFill)].find? fun f => f.asn == 1).isSome = true ∧
    (let move := fun (tier vpn : Nat) (dst : Option Nat) (busy inplace waits : Bool) =>
      let m : Migration := { hdr := hdr, asn := 1, left := [(vpn, dst)], tier := tier, place := 0, cursor := 0, moved := 0, kept := 0 }
      let s := up { spaced benched with migrations := [m], promotions := if busy then [{ asn := 1, vpn := 6, dst := 20 }] else [] }
      let s := { s with spaces := [{ asn := 1, pages := (List.range 8).map fun i =>
        { vpn := i, ppn := if i = 6 then 8388608 else i, w := true, lost := false } }] }
      (pageOf s 1 vpn).any fun g => !g.lost && inPlace tier (places s tier 0) g == inplace && (moveDst s m).any fun d =>
        d.1 != g.ppn && waitsFor s g d.1 == waits
     move 0 2 none false true false = true ∧ move 1 2 (some 8388610) false false false = true ∧
     move 1 2 (some 8388610) true false true = true) := by
  decide +kernel

theorem witness_TransfersComplete :
    let sized := fun (s : State) => { s with regs := s.regs ++ [(hwBase 1 15 + 8, 1#32)] }
    ([Instr.xferToHost hdr 1 15 0x1000 64 128, .xferFromHost hdr 1 15 0x1000 64 128].all fun i =>
      starts (host (sized (spaced benched))) i 0x0033 fun b => (spaceOf b 1).isSome && decide (64 + 128 ≤ hwBytes b 1 15) &&
        hwBytes b 1 15 != 0) = true ∧
    (readGood (meetVirt (spaced benched) 1 0x1000 128) 1 (pieces 0x1000 128)).length = 128 ∧ goodLen (spaced benched) 1 (pieces 0x1000 128) = 128 ∧
    (Instr.xferComplete 5 (.data (List.replicate 128 1#8))).wf = true := by
  decide +kernel

theorem witness_GroupsAndStreamsComplete :
    let par := { spaced benched with mem := bytesAt 0x1000 256 (leNat (codecPar 1)) }
    let ids := { spaced benched with mem := bytesAt 0x1000 4 (0 + 65536 * 9) }
    starts (host ids) (.groupCreate hdr 1 2 5 1 16 1 0x1000) 0x0040 (fun b => (Instr.groupCreate hdr 1 2 5 1 16 1 0x1000).wf && match virtRead (agentReads b 1 0x1000 4) 1 0x1000 4 with
      | .ok l =>
        let m := (List.range 2).map fun i => field l (2 * i) 2
        m.all (fun x => decide (x < 4096)) && m.eraseDups.length == 2 && (m.findIdx? (· == modId b)).isSome &&
        !(b.groups.any fun g => g.any fun g => g.tag == 5) && (b.groups.findIdx? Option.isNone).isSome && decide (16 ≤ freeCredits b)
      | .error _ => false) = true ∧
    starts (host { spaced benched with groups := [some group] ++ List.replicate 63 none }) (.groupDestroy hdr 1 0) 0x0041 (fun b =>
      ((b.groups.getD 0 none).any fun g => g.asn == 1) && !jobRunning b 1 && !(b.firings.any fun f => f.slot == 0)) = true ∧
    starts (host par) (.streamOpen hdr 3 1 20 0x1000) 0x0050 (fun b => (spaceOf b 1).isSome && (match virtRead (agentReads b 1 0x1000 256) 1 0x1000 256 with
      | .ok p => parOk p && buffersOk b 1 p && parFits p && ((getCodec b 3).streams.findIdx? Option.isNone).isSome &&
        decide ((loadOf ((getCodec b 3).openStreams.map (·.par) ++ [p])).1 ≤
          codecCapacity * (loadOf ((getCodec b 3).openStreams.map (·.par) ++ [p])).2)
      | .error _ => false)) = true ∧
    starts (host (streaming id (spaced benched))) (.frameSubmit hdr 0 (List.replicate 64 0#8)) 0x0052 (fun b => (getStream b 0).any fun t => t.state == .opened && parFed t.par &&
      !t.fedEnd && decide (t.fed.length < parRing t.par)) = true ∧
    starts (host (streaming (fun t => { t with outCount := 2 }) (spaced benched))) (.frameRelease hdr 0 2) 0x0053 (fun b => (getStream b 0).any fun t =>
      t.state == .opened && parFed t.par && !t.fedEnd && decide (t.released + 2 ≤ t.outCount)) = true ∧
    starts (host (streaming id (spaced benched))) (.streamClose hdr 0) 0x0051 (fun b => (getStream b 0).isSome) = true := by
  decide +kernel

/-- An epoch of dies 0 to 3 that only die 2 has not acknowledged. -/
def epoch (taster : Bool) : Epoch := { hdr := hdr, taster := taster, value := 1, rate := 12, since := 0, timeoutNs := 10000000
                                       dies := [0, 1, 2, 3], late := [], acked := [0, 1, 3] }

theorem witness_ModeEpochsComplete :
    ([Instr.modeSetVintage hdr 1 0 0 100000, .modeSetTaster hdr 0 16 0 10].all fun i =>
      starts (host ready) i 0x0060 fun b => b.modes.pending.isNone && b.modes.epoch == 0) = true ∧
    modeFieldsOk false 1 0 100000 = true ∧ modeFieldsOk true 0 16 10 = true ∧
    (∀ taster : Bool, let s := { tile 0 (seat (core [])) with modes := { Modes.reset with pending := some (epoch taster) } }
      s.modes.pending = some (epoch taster) ∧ 2 ∈ (epoch taster).dies ∧ 2 ∉ (epoch taster).acked ∧ dieQuiet s 2 taster = true ∧
      ∀ x ∈ (epoch taster).dies, x = 2 ∨ x ∈ (epoch taster).acked) ∧
    (epoch true).since + (epoch true).timeoutNs ≤ 10000000 := by
  decide +kernel

/-! ### Witnesses: boot, Dormant, dies, flash -/

/-- A configuration image of one record: PWR_LIMIT 2000 W. -/
def image : FlashBank := mkBank .config 3 ownPart 0 (leBytes 4 0xC00004 ++ leBytes 4 2000)

/-- A module that waits for a configuration. -/
def awaiting : State := { State.reset with hub := { Hub.reset with boot := .awaitConfig } }

theorem witness_ConfigAndDormantComplete :
    let whole : HostRead := .data (image.header ++ image.body)
    let recs := imageRecords (slice image.body 0 (field image.header 8 4))
    let dormant := { ready with hub := { ready.hub with boot := .dormant } }
    ([Instr.applyConfig hdr false 0 0 whole, .applyConfig hdr false 0x1000 72 whole, .applyConfig hdr true 0x1000 72 whole].all fun i =>
      i.wf && starts (host awaiting) i 0x0070 fun b => b.hub.apply.isNone && b.hub.boot == .awaitConfig && crossOk b [] &&
      flashReady b &&
      (imageBank (image.header ++ image.body) == image) && bankValid .config image && decide (72 = 64 + field image.header 8 4) &&
      (checkImage b (field image.header 18 2) (field image.header 20 1) recs).isNone) = true ∧
    starts (host ready) (.applyStoreOnly hdr true 0x1000 72 whole) 0x0070 (fun b => b.hub.apply.isNone && b.hub.boot == .ready && flashReady b &&
      (checkImage b (field image.header 18 2) (field image.header 20 1) recs).isNone) = true ∧
    starts (host ready) (.dormantEnter hdr) 0x0071 (fun b => b.hub.boot == .ready && b.modes.pending.isNone && b.dies.all fun d => d.state != .draining) = true ∧
    (let s := { ready with hub := { ready.hub with boot := .enteringDormant, dormantCmd := some hdr } }
     s.hub.dormantCmd = some hdr ∧ dormantQuiet s hdr = true) ∧
    starts (host dormant) (.wake hdr) 0x0072 (fun b => b.hub.boot == .dormant) = true ∧
    (let s := { ready with hub := { ready.hub with boot := .waking, wakeCmd := some hdr } }
     s.hub.boot = .waking ∧ s.hub.wakeCmd = some hdr ∧ s.dies.length = 4) := by
  decide +kernel

theorem witness_DieCommandsComplete :
    ready.dies.length = 4 ∧ ([Instr.dieDrainHold hdr 3, .dieDrainRepair hdr 3].all fun i =>
      starts (host ready) i 0x0078 fun b => b.hub.boot == .ready && dieIs b 3 .online) = true ∧
    starts (host { ready with dies := List.replicate 4 { onlineDie with state := .offline } }) (.dieRestore hdr 3) 0x0079
      (fun b => b.hub.boot == .ready && dieIs b 3 .offline && (getDie b 3).flag == 0) = true := by
  decide +kernel

/-- A module at a step of its start. -/
def booting (b : BootState) : State := { State.reset with hub := { Hub.reset with boot := b } }

theorem witness_BootSequenceCompletes :
    (bits (0x0CD90001#32).toNat 31 16 = 0x0CD9 ∧ bit (0x0CD90001#32).toNat 0 = true) ∧
    (bits (0x0CD80001#32).toNat 31 16 ≠ 0x0CD9 ∧ bit (0x0CD90000#32).toNat 0 = false) ∧
    (selectedImage (readableFlash (booting .configRead)) = none) ∧
    (let reads := fun (k : FlashBank) (ok : Bool) =>
      let s := { booting .configRead with flash := { Flash.reset with configB := k } }
      s.hub.boot == .configRead && s.hub.powered && match selectedImage (readableFlash s) with
        | some (toB, part, pkg, _, recs) =>
          toB && (checkImage (readBanks s (readableFlash s)) part pkg recs).isNone == ok
        | none => false
     reads image true && reads (mkBank .config 3 ownPart 0 (leBytes 4 2 ++ leBytes 4 0)) false) = true ∧
    ((Instr.memTrainDone true [{ stack := 11, chan := 31, badDq := [71], badCa := 1, pprLeft := [] }]).wf = true ∧
      (booting .memTrain).hub.boot = .memTrain ∧
      (match trainAll (booting .memTrain) (allChans []) with
        | .ok _ => true
        | .error _ => false) = true) ∧
    ((Instr.repairStepDone [0, 2, 3] [(3, .slot 31 16)]).wf = true ∧ (booting .repair).dies.length = 4) ∧
    (Instr.portTrainDone (List.replicate 18 (.partner 15 4095 17)) [.up 16 2 100, .absent]).wf = true ∧
    (Instr.bootStepTimeout 5 [0, 1] [] (List.replicate 18 .noPartner) [.refused, .absent]).wf = true := by
  decide +kernel

theorem witness_ResetsAndFlashComplete :
    let busy := { ready with flash := { Flash.reset with writing := [{ region := .faultLog, body := [], part := ownPart, pkg := 0, upTo := 0 }] } }
    let conf := { ready with flash := { Flash.reset with writing := [{ region := .config, body := [], part := ownPart, pkg := 0, upTo := 0 }] } }
    (ready.xfers = [] ∧ nextDecant ready = none) ∧
    (regionOf 2 = .faultLog ∧ (busy.flash.writing.find? fun w => w.region == regionOf 2).isSome = true ∧ busy.flash.state = .attached) ∧
    ((conf.flash.writing.find? fun w => w.region == Region.config).isSome = true ∧ conf.hub.apply = none ∧
      [false, true].all (fun st => ({ conf with hub := { conf.hub with apply := some { hdr := hdr, storeOnly := st } } }).hub.apply.isSome) = true) ∧
    (let s := { ready with rel := { Rel.reset with unwritten := 1, lastFlush := some 0 }
                           hub := { ready.hub with timebase := 1800000000000 } }
     flashReady s = true ∧ 0 < s.rel.unwritten ∧ ∀ a, s.rel.lastFlush = some a → a + 1800000000000 ≤ s.hub.timebase) ∧
    (let s := { ready with tally := { Tally.reset with uncopied := 1, lastCopy := some 0 }
                           hub := { ready.hub with timebase := 1800000000000 } }
     0 < s.tally.uncopied ∧ ∀ a, s.tally.lastCopy = some a → a + 1800000000000 ≤ s.hub.timebase) ∧
    bit (8#32).toNat 3 = true ∧ bit (4#32).toNat 2 = true ∧
    { Flash.reset with state := .released }.state = .released := by
  refine ⟨by decide +kernel, by decide +kernel, by decide +kernel, ⟨by decide +kernel, by decide +kernel, ?_⟩, ⟨by decide +kernel, ?_⟩, by decide,
    by decide, rfl⟩
  · intro a h; cases h; exact Nat.le_refl _
  · intro a h; cases h; exact Nat.le_refl _

/-! ### Witnesses: registers, accounting, power -/

theorem witness_QueueRegistersComplete :
    let s := host ready
    let idle := { ready with regs := [(hqBase 0 + 16, 0x00000404#32)] }
    let u := fun (s : State) (v : Word) => storeMasked s (hqBase 0 + 16) (rwMask (hqBase 0 + 16)) v
    let lens := fun (s : State) => (regBits s (hqBase 0 + 16) 11 8, regBits s (hqBase 0 + 16) 3 0)
    let off := 0x00000404#32
    let on := 0x80000C04#32
    ((Instr.sqTailDoorbell 0 1#32 [List.replicate 64 0#8] []).wf = true ∧ (getQ s 0).state = .running) ∧
    (let t := { s with queues := [(0, { HostQueue.reset with state := .running, sqTail := 1 })] }
     (getQ t 0).sqHead ≠ (getQ t 0).sqTail) ∧
    (hqEnabled idle 0 = false ∧ hqEnabled (u idle on) 0 = true ∧ lens (u idle on) = (12, 4) ∧ log2Ok 12 = true ∧ log2Ok 4 = true) ∧
    (hqEnabled s 0 = true ∧ hqEnabled (u s off) 0 = false ∧ lens (u s off) = lens s ∧ (getQ s 0).inProg = [] ∧ jobFrom s 0 = false) ∧
    (let c := host (tile 0 (seat (core [])))
     jobFrom c 0 = true ∧ hqEnabled c 0 = true ∧ hqEnabled (u c off) 0 = false) ∧
    (bit (getReg ready 0x408).toNat 31 = false ∧ bit (getReg (storeMasked ready 0x408 (rwMask 0x408) 0x80000004#32) 0x408).toNat 31 = true ∧
      log2Ok (regBits (storeMasked ready 0x408 (rwMask 0x408) 0x80000004#32) 0x408 3 0) = true) := by
  decide +kernel

/-- An aligned offset and one that is not, a register with a high half, and offset 0xFFFFFC, the last one. -/
theorem witness_RegisterAccessesComplete :
    0xFFFFFC % 4 = 0 ∧ 0xFFFFFD % 4 ≠ 0 ∧ (Instr.loReadLatch ⟨true, 0xFFFFFF, 4096⟩).wf = true ∧
    (∃ off, off < 0x1000000 ∧ isLo off = true ∧ off + 4 < 0x1000000 ∧ isLo (off + 4) = false ∧
      answers State.reset (off + 4) = false ∧ answers ready (off + 4) = true ∧
      (({ ready with latches := [(off + 4, 5#32)] } : State).latches.find? fun l => l.1 == off + 4) = some (off + 4, 5#32)) := by
  refine ⟨by decide, by decide, by decide, 0xAC0000, by decide +kernel⟩

theorem witness_DieRegistersComplete :
    let held := tile 0 (seat (core []))
    windowOpen ready 3 = true ∧ bits (50#32).toNat 7 0 ≤ 50 ∧ 50 < bits (51#32).toNat 7 0 ∧ bits (7#32).toNat 3 0 < 8 ∧
    8 ≤ bits (8#32).toNat 3 0 ∧ bit (0x80000000#32).toNat 31 = true ∧
    (∀ c ∈ held.ctxs, c.resident = true → 32 * 3 + 31 ∉ c.set) ∧ (∃ c ∈ held.ctxs, c.resident = true ∧ 32 * 0 + 0 ∈ c.set) ∧
    (precMask 4 ≠ 0 ∧ 4 % 4 = 0 ∧ precOk 4 (getReg (storeMasked ready (precBase 3 63 + 4) (precMask 4) 1#32) (precBase 3 63 + 4)).toNat = true) ∧
    (slotOwner ready 3 63).isNone = true ∧
    (precMask 0x14 ≠ 0 ∧ precOk 0x14 (getReg (storeMasked ready (precBase 3 63 + 0x14) (precMask 0x14) 7#32) (precBase 3 63 + 0x14)).toNat = false) ∧
    (slotOwner held 0 0).any (fun c => c.job.isSome) = true ∧
    (getDie State.reset 3).state = .resetting ∧
    (getDie { ready with dies := List.replicate 4 { onlineDie with state := .poweredDown } } 3).state = .poweredDown := by
  decide +kernel

theorem witness_QuotasAndLimitsComplete :
    let near := fun (v : Word) => nearSum (storeMasked ready (tqBase 255) (rwMask (tqBase 255)) v)
    let cell := fun (v : Word) => cellarSum (storeMasked ready (tqBase 255 + 8) (rwMask (tqBase 255 + 8)) v)
    (near 442332#32 ≤ nearPages ∧ nearPages < near 442333#32 ∧ nearSum ready < near 442333#32) ∧
    (cell 0#32 ≤ backedPages ready ∧ backedPages ready < cell 1#32 ∧ cellarSum ready < cell 1#32) ∧
    (bits (1000#32).toNat 11 0 = 1000 ∧ bits (3400#32).toNat 11 0 = 3400 ∧ bits (999#32).toNat 11 0 < 1000 ∧
      3400 < bits (3401#32).toNat 11 0) ∧
    (let s := { tile 0 { seat (core []) with fences := [{ sem := 9, ns := 5000000, sent := 0, cores := [(3, 0)] }] } with
       regs := [(tqBase 1 + 16, 5#32)] }
     (Instr.tierStall 1 9).wf = true ∧ regBits s (tqBase 1 + 16) 15 0 = 5 ∧ s.ctxs.length = 1 ∧
     (ctxOf s 1).any (fun c => (c.fences.find? fun f => f.sem == 9).any fun f => decide (5 * 1000000 * (f.sent + 1) ≤ f.ns)) = true) := by
  decide +kernel

theorem witness_ReliabilityRegistersComplete :
    let key := fun (n : Nat) => BitVec.ofNat 32 (0x0CD90000 + 2 ^ n)
    let offline := { ready with dies := List.replicate 4 { onlineDie with state := .offline } }
    let masked := { ready with regs := [(scrBase 3 + 4, 0x80000000#32)] }
    let slots := screenSlots masked 3
    let round := fun (last : Nat) (err : Bool) => ({ deviating := slots.mapIdx fun i x => (x.1, x.2, if i = 0 then last else 1)
                                                     testFails := true, serviceError := err } : ScreenRound)
    (bits (key 9).toNat 31 16 = 0x0CD9 ∧ bit (key 9).toNat 9 = true ∧ bit (key 9).toNat 8 = false ∧ dieIs offline 3 .offline = true) ∧
    (bit (key 8).toNat 8 = true ∧ bit (key 8).toNat 9 = false) ∧ bits (0x0CD80200#32).toNat 31 16 ≠ 0x0CD9 ∧
    (vrm ready 8 = .healthy ∧ 9 ≤ healthyVrms ready ∧ bit (8#32).toNat 3 = true) ∧
    (screenOk masked 3 = true ∧ screenOk ready 3 = false ∧ bit (0x80000000#32).toNat 31 = true ∧ bit (0x80000000#32).toNat 30 = false) ∧
    (let s := { masked with dies := List.replicate 4 { onlineDie with screen := { Screen.reset with state := .running } } }
     (getDie s 3).screen.state = .running ∧ (Instr.screenRoundDone 3 (round 2 true)).wf = true ∧
     screenMismatches s 3 (round 2 false) = slots.take 1 ∧ slots ≠ [] ∧ screenMismatches s 3 (round 1 false) = []) := by
  decide +kernel

theorem witness_TallyEventsComplete :
    let key := fun (n : Nat) => BitVec.ofNat 32 (0x0CD90000 + 2 ^ n)
    let metering := { ready with tally := { Tally.reset with state := .metering, recIntervals := 60 } }
    let young := fun (n : Nat) => ({ ready with tally := { Tally.reset with state := .metering, recIntervals := n } } : State)
    (metering.tally.state = .metering ∧ 60 ≤ metering.tally.recIntervals ∧ (young 58).tally.recIntervals < 59 ∧ 59 ≤ (young 59).tally.recIntervals ∧ (Instr.tallyIntervalClose 4294967295 65535 65535 true).wf = true) ∧
    (ready.tally.state ≠ .metering ∧ (Instr.unmeteredIntervalClose 5).wf = true) ∧
    (bits (key 0).toNat 31 16 = 0x0CD9 ∧ bit (key 0).toNat 0 = true ∧ bit (key 0).toNat 1 = false) ∧
    (bits (key 1).toNat 31 16 = 0x0CD9 ∧ bit (key 1).toNat 0 = false ∧ bit (key 1).toNat 1 = true ∧ ready.tally.state = .absent) ∧
    (Instr.tallySelfTestDone true 1 2 3 4 5 false).wf = true ∧ (Instr.tallySelfTestDone false 0 0 0 0 0 true).wf = true := by
  decide +kernel

theorem witness_PowerEventsComplete :
    let limited := { ready with regs := [(0xC00004, 1000#32)] }
    ((Instr.powerLoopTick 2147483647).wf = true ∧ powerLimit limited = 1000000 ∧ powerLimit limited < 2147483647) ∧
    ((Instr.thermalCapTick 3 1001).wf = true ∧ (1000 : Int) < 1001) ∧
    ((Instr.thermal 5 3 199).wf = true ∧ thermalBegins 3 199 = true ∧ thermalBegins 3 200 = false ∧ thermalEnds 3 205 = true) ∧
    ((Instr.thermalTrip 4 4 1120).wf = true ∧ thermalBegins 4 1120 = true ∧ (4, 4) ∉ ready.power.conds) ∧ outOfEnvelope ready = false ∧
    ((Instr.inputVoltageChange 46000).wf = true ∧ (Instr.inputVoltageChange 60000).wf = true) ∧
    (Instr.inputPowerLoss 5 6 7).wf = true ∧ (ready.power.vrms.length = 9 ∧ vrm ready 8 = .healthy ∧
      vrm { ready with power := { Power.reset with vrms := List.replicate 9 .released } } 8 = .released) ∧
    ready.hub.refLost = false := by
  decide +kernel

/-! ### Witnesses: near memory, links, firings, keepers, codecs -/

theorem witness_NearMemoryEventsComplete :
    let d := { onlineDie with mcs := List.replicate 3 { Mc.reset with state := .ready, nominated := [(0, 5)] } }
    let s := { ready with dies := List.replicate 4 d, regs := [(mcCtl 0 0, 1#32)] }
    s.dies.length = 4 ∧ (getDie s 3).mcs.length = 3 ∧ (getMc s 3 2).chans.length = 32 ∧ (getMc s 0 0).state = .ready ∧
    bit (getReg s (mcCtl 0 0)).toNat 0 = true ∧ lineOn 0 0 0 0 = true ∧ rowFits 5 0 = true ∧ bit (getReg { ready with regs := [(mcCtl 0 0, 0#32)] } (mcCtl 0 0)).toNat 0 = false ∧ 0 ∉ s.poison ∧ (Instr.patrolScrub 0 0 0 0 5 true).wf = true ∧
    (0, 5) ∈ (getMc s 0 0).nominated ∧ (getMc s 0 0).nominated.Nodup ∧ ((getMc s 0 0).chans.getD 0 .reset).remap.length < 64 ∧
    (Instr.rowRemap 0 0 0 5).wf = true ∧ (Instr.caParityError 0 0 0 15 false 0 .other).wf = true ∧
    (Instr.caParityError 0 0 0 16 false 0 .other).wf = true ∧ (Instr.caParityError 0 0 0 16 true 0 (.mover 5)).wf = true ∧
    (Instr.caParityError 0 0 0 16 false 0 (.core 1 3)).wf = true := by
  decide +kernel

theorem witness_LinkEventsComplete :
    let at_ := fun (st : PortState) (failed : Nat) => { ready with
      ports := List.replicate 18 { Port.reset with state := st, laneFailed := failed }, regs := [(0x100100 + 4 * 17, 0x80000009#32)]
      farPorts := List.replicate 2 { FarPort.reset with state := .up } }
    let p := fun (s : State) => s.ports.getD 17 .reset
    (at_ .up 0).ports.length = 18 ∧ (p (at_ .up 0)).carries = true ∧ (p (at_ .up3 2)).carries = true ∧
    (bit (p (at_ .up 0)).laneFailed 3 = false ∧ bit (p (at_ .up3 2)).laneFailed 3 = false) ∧ (p (at_ .training 8)).laneTraining = true ∧
    (Instr.portDown 17).wf = true ∧ bit (portCfg (at_ .down 0) 17) 31 = true ∧ locked (at_ .down 0) = true ∧
    (p (at_ .down 0)).state = .down ∧ (p (at_ .absent 0)).state = .absent ∧ (p (at_ .miswired 0)).state = .miswired ∧
    ((Instr.portRetrainDone 17 (.partner 0 9 0)).wf = true ∧ (p (at_ .training 0)).state = .training ∧
      (p (at_ .training 0)).laneFailed = 0) ∧ farUp (at_ .up 0) 1 = true := by
  decide +kernel

/-- An armed entry: a SHIFT of 128 bytes of group 0 from slot 20 to slot 21 at 3 counts of counter 2 (R546). -/
def armed : Armed := { entry := 4, threshold := 3, live := true, firings := 0, bytes := record 64 [(0, 1, 1), (4, 2, 2), (6, 2, 0xFFFF),
  (8, 4, 3), (16, 4, 7), (24, 1, 20), (25, 1, 21), (26, 1, 0xFF), (27, 1, 0xFF), (48, 8, 128)] }

/-- Context 1 with that entry armed, its descriptors bound and counter 2 at 3. -/
def trellised : Ctx := { seat (core []) with
  armed := [armed], counters := (List.replicate 256 0).set 2 3
  desc := slots ++ [tensor 1 0 0x5000 [32] 2, tensor 1 0 0x6000 [32] 2] }

/-- A module with that context and its group. -/
def grouped (g : Group) : State := { tile 0 trellised with groups := some g :: List.replicate 63 none }

/-- The firing of the entry. -/
def firing : Firing := { newFiring trellised armed 1 1 with unsent := [] }

/-- The firing with both directions done, and one that waits past its watchdog; a packet of it. -/
def landedAll : Firing := { firing with cleared := true, landed := [(0, 128)] }
/-- See `landedAll`. -/
def overdue : Firing := { firing with waitNs := 1000000 }
/-- See `landedAll`. -/
def halfLanded : Firing := { firing with landed := [(0, 64)] }
/-- See `landedAll`. -/
def packet : Packet := { tag := 5, gen := 1, seq := 7, offset := 0, data := List.replicate 128 1#8, poisoned := [] }

/-- A packet of the firing that went over port 17 and is to be sent again as it was held. -/
theorem witness_LinkEventsComplete_resend :
    let h : HeldPacket := { off := 0, data := List.replicate 128 1#8, poisoned := [] }
    ({ firing with resend := [(h, 17)] } : Firing).resend = [(h, 17)] ∧ activeGroup (grouped group) firing.slot = some group := by
  decide +kernel

theorem witness_FiringsComplete :
    let s := grouped group
    let with_ := fun (f : Firing) => { grouped group with firings := [f] }
    (portsIdle { s with hub := { s.hub with boot := .dormant } } = true ∧ portsIdle { s with hub := { s.hub with boot := .waking } } = true) ∧
    linksRun s = true ∧
    ((ctxOf s 1).any (fun c => (c.armed.find? fun a => entryReady s c a).any (fun a => a == armed) &&
      (match fireRanks s c (entryOf armed.bytes) group with
        | .ok r => r == (1, 1)
        | .error _ => false) && (startError s (newFiring c armed 1 1)).isNone && (findFiring s 0 7).isNone) = true) ∧
    (findGroup s 5 1 = some (0, group) ∧ findFiring (with_ firing) 0 7 = some firing ∧ firing.toRank = 1 ∧ firing.cleared = false ∧
      firing.bytes = 128 ∧ firing.addFmt = 0 ∧ findFiring s 0 7 = none ∧ group.cts.length < 64 ∧
      64 ≤ ({ group with cts := List.replicate 64 { seq := 1, bytes := 64, addFmt := 0, fromRank := 1 } } : Group).cts.length ∧
      group.rank ≠ 1 ∧ firing.fromRank ≠ group.rank) ∧
    ((Instr.packetArrival packet).wf = true ∧ firing.fits packet = true ∧ firing.fromRank ≠ group.rank ∧
      (firing.fresh packet).length = packet.data.length / 64 ∧ landedAll.fresh packet = [] ∧ landedAll.fits packet = true ∧
      (halfLanded.fresh packet).length ≠ packet.data.length / 64 ∧ (match landLines (with_ halfLanded) halfLanded packet [1] with
        | .ok _ => true
        | .error _ => false) = true ∧ (match landPacket (with_ firing) firing 0 packet.data [] with
        | .ok _ => true
        | .error _ => false) = true) ∧
    (let old := grouped { group with overLanded := [(7, 0, [(0, 128)])] }
     linksRun old = true ∧ packet.seq = 7 ∧ packet.offset + packet.data.length ≤ coverFrom [(0, 128)] 1 packet.offset ∧ findFiring old 0 7 = none ∧
      findGroup old packet.tag packet.gen = some (0, { group with overLanded := [(7, 0, [(0, 128)])] })) ∧
    (((with_ landedAll).firings.find? fun f => f.asn == 1 && f.entry == 4) = some landedAll ∧ landedAll.done = true ∧
      recordError (with_ landedAll) landedAll = none ∧ recordError s { landedAll with recVA := some 0x200000 } ≠ none) ∧
    ((Instr.abortArrival 5 1 7 6).wf = true ∧ 7 ∉ group.overSeqs) ∧
    (overdue.waitsFor group.rank = some 1 ∧ group.wdMs ≠ 0 ∧ (overdue.reports + 1) * group.wdMs * 1000000 ≤ overdue.waitNs) := by
  decide +kernel

/-- A version set with a granted slot and one pin, and the counts of its semaphores PIN, RETIRE, CLAIM, GRANT, PUBLISH, PUBLISHED. -/
def versioned (granted : Option Nat) (counts : List Nat) : State :=
  let v := { VersionSet.fresh 31 3 40 0x1000 0 0 with granted := granted, pins := [1, 0, 0, 0], queue := [0] }
  tile 0 { seat (core []) with sets := [v], sems := List.replicate 40 0 ++ counts ++ List.replicate 210 0 }

theorem witness_KeeperAndCodecsComplete :
    let can := fun (s : State) => (setOf s 1 31).map fun v => (canRetire s 1 v, canPublish s 1 v, canClaim s 1 v, canPin s 1 v)
    (Instr.keeperPin 1 31).wf = true ∧ hubRuns ready = true ∧
    can (versioned none [1, 1, 1, 0, 1, 0]) = some (true, false, true, true) ∧
    can (versioned (some 1) [1, 0, 1, 0, 1, 0]) = some (false, true, false, true) ∧
    can (versioned none [1, 0, 1, 0, 1, 0]) = some (false, false, true, true) ∧
    can (versioned none [1, 0, 0, 0, 0, 0]) = some (false, false, false, true) ∧
    ready.codecs.length = 4 ∧ (∀ u ∈ (streaming id (spaced (seat (core [])))).codecs, u.streams.length = 32) ∧
    (let ringed := fun (t : Stream) => { t with par := codecPar 0 }
     let counted := spaced { seat (core []) with sems := ((List.replicate 256 0).set 20 1).set 23 1 }
     let entry : FedEntry := { hdr := hdr, entry := List.replicate 64 0#8 }
     (getStream (streaming (fun t => { t with fed := [entry] }) counted) 0).any (fun t => t.state == .opened && !t.ending &&
       t.closing.isEmpty && parFed t.par && t.fed == [entry]) = true ∧
     (getStream (streaming ringed counted) 0).any (fun t => !t.ending && t.closing.isEmpty && !parFed t.par &&
       semCount counted t.asn t.semBase != 0) = true ∧
     (getStream (streaming (fun t => { ringed t with outCount := 1 }) counted) 0).any (fun t => !parFed t.par &&
       decide (t.released < t.outCount) && semCount counted t.asn (t.semBase + 3) != 0) = true ∧
     (getStream (streaming (fun t => { t with paced := [([], 0)] }) counted) 0).any (fun t => t.paced == [([], 0)]) = true ∧
     (let ready : CodedEntry := { index := 0, entry := entry.entry, hdr := some hdr, poisoned := false, unread := false }
      let s := streaming (fun t => { t with fed := [entry], ready := [ready] }) counted
      (getCodec s 0).current = none ∧ s.hub.boot = .ready ∧ s.hub.powered = true ∧ pickStream (getCodec s 0) = some 0)) := by
  decide +kernel

/-! ### Witnesses: the machine -/

theorem witness_StepKeepsInvariant : ready.Inv ∧ step ready = .next (tick ready) := by
  refine ⟨⟨rfl, ?_, ?_, rfl, rfl, rfl, rfl, rfl, by decide⟩, rfl⟩
  · intro c hc; cases hc
  · intro c hc; cases hc

theorem witness_StepTakesOneCommand : step { State.reset with pending := [.seatingDecision] } = .next State.reset := rfl

theorem witness_CommandFrame : exec .seatingDecision State.reset = .next State.reset := rfl

theorem witness_EveryCommandRuns : Instr.wf .seatingDecision = true ∧ (Instr.fabricHang 4).wf = false := by decide

theorem witness_TimebaseMoves :
    State.reset.pending = [] ∧ State.reset.hub.powered = true ∧ State.reset.hub.refLost = false ∧
    step State.reset = .next (tick State.reset) ∧ { State.reset with hub := { Hub.reset with powered := false } }.hub.powered = false :=
  ⟨rfl, rfl, rfl, rfl, rfl⟩

/-! ### Ill-formed terms -/

/-- One term for each check of WellFormed.lean that a field of a command can fail. -/
def bad : List Instr :=
  [.endProg 256 0, .endProg 0 2048, .tasterVerdict 0 128, .waitSatisfied 0 256, .fabricHang 4, .builtInTestDone 0 [.slot 32 0],
   .builtInTestDone 0 [.slot 0 17], .builtInTestDone 0 [.pool 32], .nop { hdr with queue := 256 }, .nop { hdr with id := 2 ^ 32 },
   .reservedCmd hdr 65536 0, .ctxCreate hdr 0 0 0 0 (2 ^ 128) 0 0 0, .ctxExport hdr 0 0 (2 ^ 64), .frameSubmit hdr 0 [],
   .sqTailDoorbell 256 0#32 [] [], .sqTailDoorbell 0 0#32 [[]] [], .registerWrite 0x1000000 4 0#64, .islVsetWrite 0 32 0#32,
   .islRateUpdate 0 0 4096, .mcC0LatMaxClr 0 3 0#32, .hwWindowWrite 0 16 0 0#32, .precSettingWrite 0 64 0 0#32,
   .relVrmRelease 9 0#32, .screenRoundDone 0 { deviating := [(32, 0, 0)], testFails := true, serviceError := false },
   .tallyIntervalClose (2 ^ 32) 0 0 false, .powerLoopTick (2 ^ 31), .thermal 5 1 0, .thermal 0 4 0, .thermalTrip 0 1 0,
   .inputVoltageChange 45999, .inputVoltageChange 60001, .memTrainDone true [{ stack := 12, chan := 0, badDq := [], badCa := 0, pprLeft := [] }],
   .memTrainDone true [{ stack := 0, chan := 0, badDq := [72], badCa := 0, pprLeft := [] }], .repairStepDone [4] [],
   .portTrainDone [] [.absent, .absent], .portRetrainDone 0 (.partner 16 0 0), .portTrainDone (List.replicate 18 .noPartner) [.up 5 1 0, .absent],
   .flashWriteDone 4 true, .patrolScrub 0 0 32 0 0 true, .patrolScrub 0 0 0 (2 ^ 42) 0 true, .rowRemap 0 0 0 (2 ^ 30),
   .laneFail 0 4, .flitReplay 18, .farPortDown 2,
   .ctsArrival { tag := 0, gen := 256, seq := 0, bytes := 0, addFmt := 0 } 0, .ctsArrival { tag := 0, gen := 0, seq := 0, bytes := 0, addFmt := 0 } 256,
   .packetArrival { tag := 0, gen := 0, seq := 0, offset := 0, data := [1#8], poisoned := [] },
   .packetArrival { tag := 0, gen := 0, seq := 0, offset := 0, data := [], poisoned := [0] }, .abortArrival 0 0 0 1, .keeperPin 0 32,
   .codecFrameDone 4, .codecReleaseConsume 128]

theorem test_ill_formed_terms : bad.all (fun i => !i.wf) = true := by decide +kernel

theorem test_ill_formed_refused : exec (.fabricHang 4) State.reset = .refused .illFormed := rfl

/-! ### Worked examples of the spec -/

/-- The MXFP4 block of 03_number_formats.md: 200, 37, −90 and 0.9 (R115, R116). -/
theorem test_mxfp4_block :
    let r := Fmt.mxFp4.encodeBlock [XV.ofInt 200, XV.ofInt 37, XV.ofInt (-90), (XV.ofInt 9).div (XV.ofInt 10)]
    r.1 = 0x84 ∧ r.2.1 = [0x7, 0x2, 0xD, 0x0] := by
  decide +kernel

/-- One FP8 beat of two products 2^−12 × 2^−12 onto 1.0 rounds once, to 0x3F80_0001 (R127, 03_number_formats.md). -/
theorem test_beat_rounds_once :
    let v := Fmt.e5m2.decode 0x0C
    pat32 (beatsF 2 XV.one 0 ((plainPE .e5m2 [v, v]).zip (plainPE .e5m2 [v, v]))).1 = 0x3F800001 := by
  decide +kernel

/-- Stochastic rounding of 0x3F80_C000 with r = 0x3A17 and r = 0x9B02 (R135). -/
theorem test_stochastic_rounding : (srBf16 0x3F80C000 0x3A17).1 = 0x3F80 ∧ (srBf16 0x3F80C000 0x9B02).1 = 0x3F81 := by decide +kernel

/-- The ZC line of 08_convolution_and_pooling.md (R366 to R369). -/
theorem test_zc_line :
    let row := (((List.replicate 28 0).set 2 0x3F80).set 3 0x4040 |>.set 17 0xBF00).set 26 0x3E80
    let line := ((descOf (record 64 [(16, 4, 0x4002), (24, 4, 28), (28, 4, 1), (32, 4, 1), (36, 4, 1)])).map fun d => zcLineBytes d row)
    line.map (·.take 16) = some [0x0C#8, 0x00#8, 0x02#8, 0x04#8, 0x00#8, 0x00#8, 0x00#8, 0x00#8, 0x80#8, 0x3F#8, 0x40#8, 0x40#8, 0x00#8,
      0xBF#8, 0x80#8, 0x3E#8] ∧ line.map (·.length) = some 32 := by
  decide +kernel

/-- The step at a seam of 07_functions_and_norms.md: the CD6 path gives 0x3F82 and the CD9 path 0x3F81 (R319, R322). -/
theorem test_seam :
    let t : Table := { red := 0, g := 7, below := 0, above := 0, lo := XV.zero, shift := -7
                       ys := ((List.replicate 129 XV.zero).set 40 (f32 0x3F800080)).set 41 (f32 0x3F817F80) }
    let at_ := fun (vintage : Bool) (x : Nat) => (Fmt.bf16.encode (tableAt t vintage (f32 x)).1).1
    at_ true 0x3EA3FEAC = 0x3F82 ∧ at_ false 0x3EA3FEAC = 0x3F81 ∧ at_ true 0x3EA40000 = 0x3F81 := by
  decide +kernel

/-- The blend program of 07_functions_and_norms.md gives the correctly rounded 1/3 (R327 to R329). -/
theorem test_blend_reciprocal : pat32 (blendLane [] ([0x118, 0x4119, 0x4019].map stepOf) (f32 0x40400000)).1 = 0x3EAAAAAB := by decide +kernel

/-- STATS over 1, 3 and over 5, 7, and their MERGE (R333, R334). -/
theorem test_fold_example :
    let stats := fun (a b : Int) => [XV.ofInt a, XV.ofInt b].foldl Stat.push (Stat.empty, 0)
    (stats 1 3).1.words.map pat32 = [2, 2, 2, 10].map (fun n => pat32 (XV.ofInt n)) ∧
    (stats 5 7).1.words.map pat32 = [2, 6, 2, 74].map (fun n => pat32 (XV.ofInt n)) ∧
    (Stat.merge (stats 1 3) (stats 5 7).1).1.words.map pat32 = [4, 4, 20, 84].map (fun n => pat32 (XV.ofInt n)) := by
  decide +kernel

/-- Filter taps of 08_convolution_and_pooling.md: dilation 20, 15 positions of padding, an extent of 2 (R344, R350). -/
theorem test_conv_taps :
    let a : Axis := { stride := 1, lo := 15, hi := 15, dil := 20, win := 3 }
    a.out 12 = 2 ∧ (List.range 3).map (a.tap 12 0) = [none, some 5, none] ∧ (List.range 3).map (a.tap 12 1) = [none, some 6, none] := by
  decide +kernel

/-- The line at 0x007E_00A0_2340 lies on stack 7 (die 2, controller 1), channel 6 (R28, R56, R487). -/
theorem test_line_place : lineOn 2 1 6 (0x007E00A02340 / 64) = true := by decide +kernel

/-- Core 9 of cluster 17 on die 2 has logical core id 0x519 (R35). -/
theorem test_core_id : { seat (core []) with set := [81] }.coreId 9 = 0x519 := by decide +kernel

/-- The map register of 01_organisation.md after the repair of slot 9 of cluster 17 on C2 reads 0xB200_0200 (R48). -/
theorem test_cluster_map : 
    let m : ClusterMap := { active := true, role := .repair, replaced := 9, faulty := 2 ^ 9 }
    let d := { onlineDie with clusters := onlineDie.clusters.set 17 m }
    readReg { ready with dies := [onlineDie, onlineDie, d, onlineDie] } 0x00800144 = 0xB2000200#32 := by
  decide +kernel

/-- The overrun limit at RATE_NOW 1,800 and 1,200: 600 µs and 725 µs (R73). -/
theorem test_overrun_limit :
    let s := fun (r : Nat) => { tile 0 (seat (core [])) with dies := List.replicate 4 { onlineDie with
      islands := List.replicate 32 { Island.reset with rateNow := r } } }
    overrunNs (s 1800) (seat (core [])) 3 = 600000 ∧ overrunNs (s 1200) (seat (core [])) 3 = 725000 := by
  decide +kernel

/-! ### Single steps -/

/-- What a step leaves of one core. -/
def coreAfter (w : Nat) (i : Instr) (k : Core) : Option Core :=
  match exec i (tile w (seat k)) with
  | .next t => coreOf t 1 3
  | _ => none

/-- LOOP with a step of −1 from 0 wraps to −1, which is below 0: it branches (R176). -/
theorem test_loop_wraps : (coreAfter (word [(0, 2), (32, 5), (40, 0xFFFF), (96, 1)]) (.loop 1 3) (core [])).map (fun k => (k.xr 5, k.pc)) =
    some (0xFFFFFFFF#32, 1) := by decide +kernel

/-- The scalar shift takes 5 bits of b (R175): 1 shifted by 33 is 2. -/
theorem test_scalar_shift : (coreAfter (word [(0, 0x25), (8, 15), (32, 5), (36, 1), (44, 5), (64, 33)]) (.vecScalar 1 3)
    { core [] with x := (List.replicate 16 0#32).set 1 1#32 }).map (·.xr 5) = some 2#32 := by decide +kernel

/-- A write to X0 is discarded (R153). -/
theorem test_x0 : (coreAfter (word [(0, 0x25), (8, 15), (32, 0), (64, 7)]) (.vecScalar 1 3) (core [])).map (·.xr 0) = some 0#32 := by decide +kernel

/-- LOAD XREG reads four little-endian words (R170). -/
theorem test_load_xreg : (coreAfter (unit 0x10 1 0 4 []) (.loadXreg 1 3) (core (bytesAt 0 16 (0x201 + 0x3 * 2 ^ 32 + 0x400 * 2 ^ 64)))).map
    (fun k => (k.xr 4, k.xr 5, k.xr 6)) = some (0x00000201#32, 0x00000003#32, 0x00000400#32) := by decide +kernel

/-- A copy of BF16 1.5 to FP32 widens it (R170). -/
theorem test_load_copy : (coreAfter (unit 0x10 0 3 0 []) (.loadCopy 1 3) (core (bytesAt 0x100 2 0x3FC0))).map (fun k => leNat (k.store.readN 0 4)) =
    some 0x3FC00000 := by decide +kernel

/-- The elementwise sum of 1.0 and IMM 2.0 in BF16 is 3.0 (R302). -/
theorem test_vec_add : (coreAfter (unit 0x25 0 3 0xFF [(48, 4), (64, 0x40000000)]) (.vecEw 1 3) (core (bytesAt 0x100 2 0x3F80))).map
    (fun k => leNat (k.store.readN 0x200 2)) = some 0x4040 := by decide +kernel

/-- A word of another row leaves the state as it is; a reserved header bit stops the job with FORMAT_UNSUPPORTED (R164). -/
theorem test_reserved_bit : (coreAfter (word [(0, 1), (14, 1)]) (.endProg 1 3) (core [])).map (·.run) = some .stopped := by decide +kernel

/-- A register of a die that is RESETTING reads 0 but for DIE_INFO (R47), HUB_PART_ID its reset value (R2). -/
theorem test_reads_at_reset : readReg State.reset 0x400100 = 0#32 ∧ readReg State.reset 0x0 = 0x0CD92000#32 := by decide +kernel

end Sys2Proof.Machine
end

section
/-! The registers of a die's window: which states keep the window shut, what each register's write does while
it is open, and that a window that is shut reads 0 and discards every write. -/

namespace Sys2Proof.Machine

variable {s : State} {d n : Nat} {v : Word}

/-! ### When a window answers -/

/-- R47 names the two states in which the window does not answer. -/
theorem windowOpen_eq_false_iff :
    windowOpen s d = false ↔ (getDie s d).state = .resetting ∨ (getDie s d).state = .poweredDown := by
  unfold windowOpen
  cases (getDie s d).state <;> simp

/-! ### A window that is shut -/

section shut

variable (h : windowOpen s d = false)
include h

@[simp] theorem islVset_of_shut : islVset s d n v = s := by simp [islVset, h]

@[simp] theorem islMargin_of_shut : islMargin s d n v = s := by simp [islMargin, h]

@[simp] theorem islRateMinReset_of_shut : islRateMinReset s d n v = s := by simp [islRateMinReset, h]

@[simp] theorem c0LatClr_of_shut {mc : Nat} : c0LatClr s d mc v = s := by simp [c0LatClr, h]

@[simp] theorem trkPeakClr_of_shut : trkPeakClr s d v = s := by simp [trkPeakClr, h]

@[simp] theorem precWrite_of_shut {slot reg : Nat} : precWrite s d slot reg v = s := by simp [precWrite, h]

@[simp] theorem writeDie_of_shut {o : Nat} : writeDie s d o v = s := by simp [writeDie, h]

end shut

/-! ### The offsets of a die's window -/

section window

variable {o : Nat} (hd : d < 4) (ho : o < 0x200000)
include hd ho

/-- Every register of a die window lies in BAR0. -/
theorem windowOffset_lt : 0x400000 + 0x200000 * d + o < 0xC00000 := by omega

theorem windowOffset_die : (0x400000 + 0x200000 * d + o - 0x400000) / 0x200000 = d := by omega

theorem windowOffset_reg : (0x400000 + 0x200000 * d + o - 0x400000) % 0x200000 = o := by omega

/-- A read in a die's window is that die's: DIE_INFO at its start, and nothing else while it does not answer (R47, R54). -/
theorem readReg_window (ha : o % 4 = 0) : readReg s (0x400000 + 0x200000 * d + o) =
    if o = 0 then dieInfo s d else if windowOpen s d then readDie s d o else 0#32 := by
  have hlt := windowOffset_lt hd ho
  unfold readReg
  rw [if_neg (by omega), if_neg (by omega), if_neg (by omega), if_neg (by omega), if_neg (by omega), if_pos hlt]
  simp only [windowOffset_die hd ho, windowOffset_reg hd ho]

/-- A write in a die's window is that die's (R54). -/
theorem writeReg_window (ha : o % 4 = 0) : writeReg s (0x400000 + 0x200000 * d + o) v = writeDie s d o v := by
  have hlt := windowOffset_lt hd ho
  unfold writeReg
  rw [if_neg (by omega), if_neg (by omega), if_neg (by omega), if_neg (by omega), if_neg (by omega), if_pos hlt,
    windowOffset_die hd ho, windowOffset_reg hd ho]

end window

/-- No register begins at an offset that is no multiple of 4, and what is read there is 0 (R13). -/
theorem readReg_misaligned {off : Nat} (ha : off % 4 ≠ 0) : readReg s off = 0#32 := by
  unfold readReg
  rw [if_pos ha]

/-- A 4-byte access at a multiple of 4 writes one register, one at another offset none (R13). -/
theorem busWrite_four {off : Nat} {w : BitVec 64} :
    busWrite s off 4 w = if off % 4 ≠ 0 then s else writeReg s off (w.setWidth 32) := by
  unfold busWrite
  rw [if_pos rfl]

/-- A shut window reads 0 but for DIE_INFO (R47). -/
theorem readReg_shut {o : Nat} (h : windowOpen s d = false) (hd : d < 4) (ho : o < 0x200000) (h0 : o ≠ 0) :
    readReg s (0x400000 + 0x200000 * d + o) = 0#32 := by
  by_cases ha : o % 4 = 0
  · rw [readReg_window hd ho ha, if_neg h0, h, if_neg Bool.false_ne_true]
  · exact readReg_misaligned (by omega)

/-- A shut window discards a write to any of its offsets (R47). -/
theorem busWrite_shut {o : Nat} {w : BitVec 64} (h : windowOpen s d = false) (hd : d < 4) (ho : o < 0x200000) :
    busWrite s (0x400000 + 0x200000 * d + o) 4 w = s := by
  rw [busWrite_four]
  split
  · rfl
  · rename_i ha
    rw [writeReg_window hd ho (by omega), writeDie_of_shut h]

/-! ### An open window -/

/-- Whether a resident context holds cluster `n` of die `d`, which R97 asks of a margin write. -/
theorem clusterHeld_iff :
    (s.ctxs.any fun c => c.resident && c.set.contains (32 * d + n)) = true ↔
      ∃ c ∈ s.ctxs, c.resident = true ∧ 32 * d + n ∈ c.set := by
  simp

section opened

variable (h : windowOpen s d = true)
include h

/-- R78: a code above 50 is refused. -/
theorem islVset_of_open : islVset s d n v =
    if 50 < bits v.toNat 7 0 then setBits s (islBase d n + 4) 2#32
    else resettle (setReg s (islBase d n) (BitVec.ofNat 32 (bits v.toNat 7 0))) := by
  simp [islVset, h]

/-- R97: a margin above 7, or one other than 0 on a cluster that is held, is refused. -/
theorem islMargin_of_open : islMargin s d n v =
    if 8 ≤ bits v.toNat 3 0 ∨ (bits v.toNat 3 0 ≠ 0 ∧ ∃ c ∈ s.ctxs, c.resident = true ∧ 32 * d + n ∈ c.set) then
      setBits s (islBase d n + 4) 4#32
    else setReg s (islBase d n + 12) (BitVec.ofNat 32 (bits v.toNat 3 0)) := by
  simp only [islMargin, h, Bool.not_true, Bool.false_eq_true, if_false, clusterHeld_iff]

theorem islRateMinReset_of_open (hb : bit v.toNat 31 = true) :
    islRateMinReset s d n v = modIsland s d n fun i => { i with rateMin := i.rateNow } := by
  simp [islRateMinReset, h, hb]

theorem c0LatClr_of_open {mc : Nat} (hb : bit v.toNat 31 = true) : c0LatClr s d mc v = clearReadMax s (3 * d + mc) := by
  simp [c0LatClr, h, hb]

theorem trkPeakClr_of_open (hb : bit v.toNat 31 = true) : trkPeakClr s d v = clearPeak s d := by
  simp [trkPeakClr, h, hb]

/-- R403: a write to a register of the precision block is refused for a reserved code or during the job, else stored. -/
theorem precWrite_of_open {slot reg : Nat} (hm : precMask reg ≠ 0) (ha : reg % 4 = 0) :
    precWrite s d slot reg v =
      let off := precBase d slot + reg
      let u := storeMasked s off (precMask reg) v
      if precOk reg (getReg u off).toNat = false ∨ (∃ c, slotOwner s d slot = some c ∧ c.job.isSome = true) then
        setBits s (precBase d slot) 0x80000000#32
      else if reg = 0 then clearW1c u off v else u := by
  simp [precWrite, h, hm, ha, Option.any_eq_true]

end opened

/-! ### The rows are commands, with their operands in range -/

section rows

variable (hd : d < 4)
include hd

theorem exec_islVsetWrite_eq (hn : n < 32) : exec (.islVsetWrite d n v) s = .next (islVset s d n v) :=
  exec_islVsetWrite_next (by simp [Instr.wf, hd, hn])

theorem exec_islMarginWrite_eq (hn : n < 32) : exec (.islMarginWrite d n v) s = .next (islMargin s d n v) :=
  exec_islMarginWrite_next (by simp [Instr.wf, hd, hn])

theorem exec_islRateMinReset_eq (hn : n < 32) : exec (.islRateMinReset d n v) s = .next (islRateMinReset s d n v) :=
  exec_islRateMinReset_next (by simp [Instr.wf, hd, hn])

theorem exec_islRampDone_eq (hn : n < 32) :
    exec (.islRampDone d n) s = .next (modIsland s d n fun i => { i with ramping := false }) :=
  exec_islRampDone_next (by simp [Instr.wf, hd, hn])

theorem exec_islRateUpdate_eq (hn : n < 32) {rate : Nat} (hr : rate < 4096) :
    exec (.islRateUpdate d n rate) s = .next (islRateUpdate s d n rate) :=
  exec_islRateUpdate_next (by simp [Instr.wf, hd, hn, hr])

theorem exec_mcC0LatMaxClr_eq {mc : Nat} (hmc : mc < 3) : exec (.mcC0LatMaxClr d mc v) s = .next (c0LatClr s d mc v) :=
  exec_mcC0LatMaxClr_next (by simp [Instr.wf, hd, hmc])

theorem exec_trkPeakClr_eq : exec (.trkPeakClr d v) s = .next (trkPeakClr s d v) :=
  exec_trkPeakClr_next (by simp [Instr.wf, hd])

theorem exec_precSettingWrite_eq {slot reg : Nat} (hs : slot < 64) (hr : reg < 256) :
    exec (.precSettingWrite d slot reg v) s = .next (precWrite s d slot reg v) :=
  exec_precSettingWrite_next (by simp [Instr.wf, u8, hd, hs, hr])

/-- A REGISTER_WRITE of 4 bytes to any offset of a window that is shut does nothing (R47). -/
theorem exec_registerWrite_shut {o : Nat} {w : BitVec 64} (h : windowOpen s d = false) (ho : o < 0x200000) :
    exec (.registerWrite (0x400000 + 0x200000 * d + o) 4 w) s = .next s := by
  have hlt := windowOffset_lt hd ho
  rw [exec_registerWrite_next (by simp only [Instr.wf, decide_eq_true_eq]; omega), busWrite_shut h hd ho]

end rows

/-- The totals of the accounts lie outside the window that a die's reset clears. -/
@[simp] theorem totalOf_resetWindow (a : Nat) : totalOf (resetWindow s d) a = totalOf s a := rfl

/-! ### The statement -/

/-- Settles O52: each row is its meaning (`exec_…_eq`), each meaning in an open window is one choice between storing and refusing
(`…_of_open`), and in a shut window nothing (`…_of_shut`, `readReg_shut`, `exec_registerWrite_shut`). -/
theorem dieRegistersComplete : Obligations.DieRegistersComplete := by
  unfold Obligations.DieRegistersComplete
  intro s d n v hd hn
  refine ⟨fun hopen => ⟨?vsetStored, ?vsetRefused, ?marginStored, ?marginRefused, ?clears, ?precision⟩, ?shut,
    totalOf_resetWindow, exec_islRampDone_eq hd hn, fun rate hr => exec_islRateUpdate_eq hd hn hr⟩
  case vsetStored =>
    intro hv
    rw [exec_islVsetWrite_eq hd hn, islVset_of_open hopen, if_neg (by omega)]
  case vsetRefused =>
    intro hv
    rw [exec_islVsetWrite_eq hd hn, islVset_of_open hopen, if_pos hv]
  case marginStored =>
    intro hlow hfree
    rw [exec_islMarginWrite_eq hd hn, islMargin_of_open hopen, if_neg]
    rintro (hhigh | ⟨hne, c, hc, hres, hmem⟩)
    · omega
    · exact hfree.elim hne fun hnone => hnone c hc hres hmem
  case marginRefused =>
    intro hbad
    rw [exec_islMarginWrite_eq hd hn, islMargin_of_open hopen, if_pos hbad]
  case clears =>
    intro hb
    refine ⟨?_, ?_, fun mc hmc => ?_⟩
    · rw [exec_islRateMinReset_eq hd hn, islRateMinReset_of_open hopen hb]
    · rw [exec_trkPeakClr_eq hd, trkPeakClr_of_open hopen hb, clearPeak]
    · rw [exec_mcC0LatMaxClr_eq hd hmc, c0LatClr_of_open hopen hb, clearReadMax]
  case precision =>
    intro slot reg hs hr hm ha off u
    rw [exec_precSettingWrite_eq hd hs hr, precWrite_of_open hopen hm ha]
    refine ⟨fun hok hidle => congrArg _ (if_neg ?_), fun hbad => congrArg _ (if_pos hbad)⟩
    rintro (hcode | ⟨c, hc, hjob⟩)
    · exact Bool.false_ne_true (hcode.symm.trans hok)
    · exact Option.isSome_iff_ne_none.1 hjob (hidle c hc)
  case shut =>
    intro hstate
    have hshut : windowOpen s d = false := windowOpen_eq_false_iff.2 hstate
    refine ⟨?_, ?_, ?_, ?_, fun mc slot reg hmc hs hr => ⟨?_, ?_⟩, fun o ho =>
      ⟨readReg_shut hshut hd ho, exec_registerWrite_shut hd hshut ho⟩⟩
    · rw [exec_islVsetWrite_eq hd hn, islVset_of_shut hshut]
    · rw [exec_islMarginWrite_eq hd hn, islMargin_of_shut hshut]
    · rw [exec_islRateMinReset_eq hd hn, islRateMinReset_of_shut hshut]
    · rw [exec_trkPeakClr_eq hd, trkPeakClr_of_shut hshut]
    · rw [exec_mcC0LatMaxClr_eq hd hmc, c0LatClr_of_shut hshut]
    · rw [exec_precSettingWrite_eq hd hs hr, precWrite_of_shut hshut]

end Sys2Proof.Machine
end

section
/-! The rows LOOP, BRANCH and the scalar form of VEC on a core that issues them: one equation a row, and what each of their
branches answers. -/

namespace Sys2Proof.Machine

/-! ### Where a jump goes -/

section jumps

variable {e : Env} {w t : Nat} {f : Core → Core}

/-- A target within the program is the next instruction of the core. -/
theorem jump_of_lt (h : t < e.j.len) : jump e w t f = seqDone e w fun k => { f k with pc := t } :=
  if_neg (Nat.not_le.2 h)

/-- A target beyond the program halts the core (R178). -/
theorem jump_of_le (h : e.j.len ≤ t) : jump e w t f = haltCore e (.stop .bounds) := if_pos h

end jumps

/-! ### The condition of BRANCH -/

/-- The header check leaves BRANCH the SUBOPs of R177's table. -/
theorem subOf_le_six_of_branch {w : Nat} (h : headerOk w = true) (hop : opOf w = 0x03) : subOf w ≤ 6 := by
  simp only [headerOk, Bool.and_eq_true] at h
  obtain ⟨⟨-, hsub⟩, -⟩ := h
  simpa [subOk, maxSub, hop] using hsub

/-- The table of R177, for the SUBOPs it lists. -/
theorem branchTaken_iff {e : Env} {w : Nat} (h : subOf w ≤ 6) :
    let a := e.k.xr (bits w 35 32)
    let b := e.k.xr (bits w 39 36) + BitVec.ofNat 32 (bits w 95 64)
    branchTaken e w = true ↔ subOf w = 0 ∨ (subOf w = 1 ∧ a = b) ∨ (subOf w = 2 ∧ a ≠ b) ∨ (subOf w = 3 ∧ a.toInt < b.toInt) ∨
      (subOf w = 4 ∧ b.toInt ≤ a.toInt) ∨ (subOf w = 5 ∧ e.k.casOk = some true) ∨ (subOf w = 6 ∧ e.k.casOk ≠ some true) := by
  unfold branchTaken Env.x
  generalize subOf w = sub at h
  have hcases : sub = 0 ∨ sub = 1 ∨ sub = 2 ∨ sub = 3 ∨ sub = 4 ∨ sub = 5 ∨ sub = 6 := by omega
  rcases hcases with rfl | rfl | rfl | rfl | rfl | rfl | rfl <;> simp

/-! ### The rows of a core that issues them -/

section issues

variable {s : State} {asn core w : Nat} {e : Env} (h : Fetches s asn core e w)
include h

/-- A core that halts with a status stops the job of its context at the instruction it fetched. -/
theorem haltCore_stop_of_fetches (st : Status) : haltCore e (.stop st) = stopJob e.s asn st core e.k.pc := by
  obtain ⟨-, hcore, -, hasn, -⟩ := rowEnv_facts h.env
  rw [haltCore, hasn, hcore]

/-- A sequencer instruction that need not wait for earlier ones to complete runs its body once it issues. -/
theorem seqRow_undrained {mine : Nat → Bool} {resv : List (Nat × Nat)} {regs : Nat → List Nat × List Nat}
    {body : Env → Nat → State} (hm : mine w = true) (hf : SeqFree e w resv (regs w).1 (regs w).2) :
    seqRow s asn core mine resv false regs body = body e w :=
  seqRow_eq h hm hf nofun

/-- LOOP counts, compares and jumps or falls through (R176). -/
theorem exec_loop_eq (hw : (Instr.loop asn core).wf = true) (hrow : isRow 0x02 0 w = true)
    (hfree : SeqFree e w [(63, 56), (127, 112)] [bits w 35 32, bits w 39 36] [bits w 35 32]) :
    let xc := bits w 35 32
    let v := e.k.xr xc + BitVec.ofInt 32 (signed 16 (bits w 55 40))
    let k := e.k.setX xc v
    exec (.loop asn core) s = .next
      (if (k.xr xc).toInt < (k.xr (bits w 39 36) + BitVec.ofNat 32 (bits w 95 64)).toInt
        then jump e w (bits w 111 96) fun c => c.setX xc v
        else seqDone e w fun c => (c.setX xc v).next) := by
  rw [exec_loop_next hw, loop, seqRow_undrained h hrow hfree]
  rfl

/-- BRANCH jumps or falls through, where no CAS it asks about is in flight (R177, R160). -/
theorem exec_branch_eq (hw : (Instr.branch asn core).wf = true) (hop : opOf w = 0x03)
    (hfree : SeqFree e w [(63, 40), (127, 112)] [bits w 35 32, bits w 39 36] [])
    (hcas : 5 ≤ subOf w → ∀ f ∈ e.k.flight, f.cas = false) :
    exec (.branch asn core) s = .next
      (if branchTaken e w = true then jump e w (bits w 111 96) id else seqDone e w Core.next) := by
  have hmine : isBranch w = true := by simp [isBranch, hop]
  have hgo : ¬((decide (5 ≤ subOf w) && e.k.flight.any (·.cas)) = true) := by
    simpa using hcas
  rw [exec_branch_next hw, branch, seqRow_undrained h hmine hfree, if_neg hgo]

/-- The scalar form of VEC writes the value of its operation, or halts on a reserved code (R175). -/
theorem exec_vecScalar_eq (hw : (Instr.vecScalar asn core).wf = true) (hrow : isRow 0x25 15 w = true)
    (hfree : SeqFree e w [(63, 48), (127, 96)] [bits w 39 36, bits w 43 40] [bits w 35 32]) :
    let a := e.k.xr (bits w 39 36)
    let b := e.k.xr (bits w 43 40) + BitVec.ofNat 32 (bits w 95 64)
    exec (.vecScalar asn core) s = .next
      (if 9 < bits w 47 44 then haltCore e (.stop .formatUnsupported)
        else seqDone e w fun c => (c.setX (bits w 35 32) (scalarOp (bits w 47 44) a b)).next) := by
  rw [exec_vecScalar_next hw, vecScalar, seqRow_undrained h hrow hfree]
  rfl

end issues

/-! ### The statements -/

/-- Settles O9: the equation of the row (`exec_loop_eq`), at each side of the comparison and of the program's end. -/
theorem loopBranches : Obligations.LoopBranches := by
  unfold Obligations.LoopBranches
  intro s asn core e w hw hf hrow hfree xc target v k below
  rw [exec_loop_eq hf hw hrow hfree]
  refine ⟨fun hnot => ?fallsThrough, fun hbelow hin => ?jumps, fun hbelow hout => ?stops⟩
  case fallsThrough => rw [if_neg hnot]
  case jumps => rw [if_pos hbelow, jump_of_lt hin]
  case stops => rw [if_pos hbelow, jump_of_le hout, haltCore_stop_of_fetches hf]

/-- Settles O10: the equation of the row (`exec_branch_eq`), with the condition read as R177's table (`branchTaken_iff`), which has
every SUBOP that the header check lets through. -/
theorem branchJumps : Obligations.BranchJumps := by
  unfold Obligations.BranchJumps
  intro s asn core e w hw hf hop hfree hcas a b target holds
  have htaken : branchTaken e w = true ↔ holds := branchTaken_iff (subOf_le_six_of_branch hf.header hop)
  rw [exec_branch_eq hf hw hop hfree hcas]
  refine ⟨fun hnot => ?fallsThrough, fun hholds hin => ?jumps, fun hholds hout => ?stops⟩
  case fallsThrough =>
    rw [if_neg (mt htaken.1 hnot)]
    rfl
  case jumps =>
    rw [if_pos (htaken.2 hholds), jump_of_lt hin]
    rfl
  case stops => rw [if_pos (htaken.2 hholds), jump_of_le hout, haltCore_stop_of_fetches hf]

/-- Settles O11: the equation of the row (`exec_vecScalar_eq`) at each operation of `scalarOp`, and at the codes beyond them. -/
theorem scalarComputes : Obligations.ScalarComputes := by
  unfold Obligations.ScalarComputes
  intro s asn core e w hw hf hrow hfree a b gives
  have hexec := exec_vecScalar_eq hf hw hrow hfree
  have hgives : ∀ op, op ≤ 9 → gives op (scalarOp op a b) := fun op hop hcode => by
    rw [hexec, if_neg (by omega), hcode]
  refine ⟨hgives 0 (by decide), hgives 1 (by decide), hgives 2 (by decide), hgives 3 (by decide), hgives 4 (by decide),
    hgives 5 (by decide), hgives 6 (by decide), hgives 7 (by decide), hgives 8 (by decide), hgives 9 (by decide),
    fun hreserved => ?_⟩
  rw [hexec, if_pos (by omega), haltCore_stop_of_fetches hf]

end Sys2Proof.Machine
end

section
/-! Host commands that start at once: what the queue makes of a NOP, and of a reserved command, which no boot state holds off. -/

namespace Sys2Proof.Machine

/-! ### What a command that starts leaves of the entry of one that does nothing -/

/-- A command in progress changes no epoch. -/
@[simp] theorem modeDetail_beginCmd (s : State) (h : CmdHdr) (code reason missing : Nat) :
    modeDetail (beginCmd s h code) reason missing = modeDetail s reason missing := by
  rw [modeDetail, modeDetail, beginCmd_modes]

/-- DETAIL of a failed command depends on the state through the epoch alone (R638), so it may be read before or after the start. -/
@[simp] theorem failDetail_beginCmd (s : State) (h : CmdHdr) (cmd code first : Nat) :
    failDetail (beginCmd s h cmd) code first = failDetail s code first := by
  rw [failDetail, failDetail, modeDetail_beginCmd]

/-! ### The start itself -/

section starting

variable {s : State} {h : CmdHdr} {code first : Nat}

/-- A command that the boot state admits runs once it is in progress (R699). -/
theorem startNow_of_admitted {start : State → State} (ha : admitted (beginCmd s h code) code = true) :
    startNow s h code first start = start (beginCmd s h code) := if_pos ha

/-- Fetching an entry and putting it in progress do not move the boot state, so they decide no admission (R699). -/
@[simp] theorem admitted_begun (s : State) (h : CmdHdr) (code n : Nat) : admitted (begun s h code) n = admitted s n := rfl

/-- A command that starts at once is fetched and runs in the state in which it is in progress (R627, R628). -/
theorem submit_of_starts {i : Instr} {start : State → State} (hs : Starts s i h code) :
    submit s h i code first start = start (begun s h code) := by
  have hadmits : admitted (begun s h code) code = true := (admitted_begun s h code code).trans hs.admits
  rw [submit, if_pos hs.running, if_pos hs.now, startNow_of_admitted hadmits, begun]

/-- A reserved command that starts at once completes with FORMAT_UNSUPPORTED in the state in which it is in progress: its start asks for
no admission (R634). -/
theorem reservedCmd_of_startsNow (hrun : (getQ s h.queue).state = .running)
    (hnow : startsNow (fetchOne s h.queue) h.queue (.reservedCmd h code first) = true) :
    reservedCmd s h code first =
      complete (begun s h code) h code .formatUnsupported (failDetail (begun s h code) code first) := by
  rw [reservedCmd, if_pos hrun, if_pos hnow, startReserved, begun, failDetail_beginCmd]

end starting

/-! ### The statement -/

/-- Settles O37: NOP starts as every command does (`submit_of_starts`), a reserved command without admission
(`reservedCmd_of_startsNow`). -/
theorem emptyCommandsComplete : Obligations.EmptyCommandsComplete := by
  unfold Obligations.EmptyCommandsComplete
  intro s h
  refine ⟨fun hw hs => ?nop, fun code first hw hrun hnow => ?reserved⟩
  case nop => rw [exec_nop_next hw, submit_of_starts hs, startNop]
  case reserved => rw [exec_reservedCmd_next hw, reservedCmd_of_startsNow hrun hnow]

end Sys2Proof.Machine
end

section
/-! The machine as a whole: every command is an event of its operands, what every command keeps, and the step that runs one. -/

namespace Sys2Proof.Machine

/-! ### Every command -/

/-- Every command answers as an event does: its meaning where it is well-formed, a refusal where it is not (notes/assumptions/48). -/
theorem exec_eq_event (i : Instr) (s : State) : ∃ f, exec i s = event i.wf s f := by
  cases i <;> (dsimp only [exec]; exact ⟨_, rfl⟩)

/-- Every command keeps the queue, the invariant and the parts it does not name: its own lemma, one a row. -/
theorem exec_keeps {i : Instr} {s t : State} (hx : exec i s = .next t) : Keeps (Part.among i.parts) s t := by
  cases i with
  | endProg => exact exec_endProg_keeps hx
  | loop => exact exec_loop_keeps hx
  | branch => exact exec_branch_keeps hx
  | waitConsume => exact exec_waitConsume_keeps hx
  | waitPeek => exact exec_waitPeek_keeps hx
  | signal => exact exec_signal_keeps hx
  | fence => exact exec_fence_keeps hx
  | trig => exact exec_trig_keeps hx
  | stint => exact exec_stint_keeps hx
  | loadCopy => exact exec_loadCopy_keeps hx
  | loadXreg => exact exec_loadXreg_keeps hx
  | storeCopy => exact exec_storeCopy_keeps hx
  | storeAddInt32 => exact exec_storeAddInt32_keeps hx
  | storeMinInt32 => exact exec_storeMinInt32_keeps hx
  | storeMaxInt32 => exact exec_storeMaxInt32_keeps hx
  | storeCas => exact exec_storeCas_keeps hx
  | storeAddFloat => exact exec_storeAddFloat_keeps hx
  | storeOrdered => exact exec_storeOrdered_keeps hx
  | storeAddInt64 => exact exec_storeAddInt64_keeps hx
  | decantFromVirtual => exact exec_decantFromVirtual_keeps hx
  | decantFromHost => exact exec_decantFromHost_keeps hx
  | leesCheck => exact exec_leesCheck_keeps hx
  | matProd => exact exec_matProd_keeps hx
  | attnWindow => exact exec_attnWindow_keeps hx
  | attnCross => exact exec_attnCross_keeps hx
  | attnPiece => exact exec_attnPiece_keeps hx
  | convolve => exact exec_convolve_keeps hx
  | poolMax => exact exec_poolMax_keeps hx
  | poolAvg => exact exec_poolAvg_keeps hx
  | poolNearest => exact exec_poolNearest_keeps hx
  | foldStats => exact exec_foldStats_keeps hx
  | foldMerge => exact exec_foldMerge_keeps hx
  | foldNorm => exact exec_foldNorm_keeps hx
  | vecEw => exact exec_vecEw_keeps hx
  | vecRowb => exact exec_vecRowb_keeps hx
  | vecColb => exact exec_vecColb_keeps hx
  | vecReduce => exact exec_vecReduce_keeps hx
  | vecScalar => exact exec_vecScalar_keeps hx
  | funcApply => exact exec_funcApply_keeps hx
  | funcReload => exact exec_funcReload_keeps hx
  | blendRun => exact exec_blendRun_keeps hx
  | blendLoad => exact exec_blendLoad_keeps hx
  | instructionComplete => exact exec_instructionComplete_keeps hx
  | tasterVerdict => exact exec_tasterVerdict_keeps hx
  | promotionDone => exact exec_promotionDone_keeps hx
  | waitSatisfied => exact exec_waitSatisfied_keeps hx
  | pieceLandingReady => exact exec_pieceLandingReady_keeps hx
  | orderedTurn => exact exec_orderedTurn_keeps hx
  | decantAccepted => exact exec_decantAccepted_keeps hx
  | decantPageDone => exact exec_decantPageDone_keeps hx
  | stintOverrun => exact exec_stintOverrun_keeps hx
  | fabricHang => exact exec_fabricHang_keeps hx
  | dieLogicResetDone => exact exec_dieLogicResetDone_keeps hx
  | builtInTestDone => exact exec_builtInTestDone_keeps hx
  | jobComplete => exact exec_jobComplete_keeps hx
  | seatingDecision => exact exec_seatingDecision_keeps hx
  | sliceExpiry => exact exec_sliceExpiry_keeps hx
  | corkBegin => exact exec_corkBegin_keeps hx
  | corkDone => exact exec_corkDone_keeps hx
  | uncorkDone => exact exec_uncorkDone_keeps hx
  | nop => exact exec_nop_keeps hx
  | reservedCmd => exact exec_reservedCmd_keeps hx
  | ctxCreate => exact exec_ctxCreate_keeps hx
  | ctxDestroy => exact exec_ctxDestroy_keeps hx
  | ctxCork => exact exec_ctxCork_keeps hx
  | ctxUncork => exact exec_ctxUncork_keeps hx
  | ctxExport => exact exec_ctxExport_keeps hx
  | ctxSetClass => exact exec_ctxSetClass_keeps hx
  | asnDestroy => exact exec_asnDestroy_keeps hx
  | semAliasSet => exact exec_semAliasSet_keeps hx
  | semAliasClear => exact exec_semAliasClear_keeps hx
  | semSignal => exact exec_semSignal_keeps hx
  | jobLaunch => exact exec_jobLaunch_keeps hx
  | jobEnd => exact exec_jobEnd_keeps hx
  | descBind => exact exec_descBind_keeps hx
  | trellisBind => exact exec_trellisBind_keeps hx
  | versionSet => exact exec_versionSet_keeps hx
  | memAlloc => exact exec_memAlloc_keeps hx
  | zeroFillDone => exact exec_zeroFillDone_keeps hx
  | memMigrate => exact exec_memMigrate_keeps hx
  | migratePageDone => exact exec_migratePageDone_keeps hx
  | memFree => exact exec_memFree_keeps hx
  | xferToHost => exact exec_xferToHost_keeps hx
  | xferFromHost => exact exec_xferFromHost_keeps hx
  | xferComplete => exact exec_xferComplete_keeps hx
  | groupCreate => exact exec_groupCreate_keeps hx
  | groupDestroy => exact exec_groupDestroy_keeps hx
  | streamOpen => exact exec_streamOpen_keeps hx
  | streamClose => exact exec_streamClose_keeps hx
  | frameSubmit => exact exec_frameSubmit_keeps hx
  | frameRelease => exact exec_frameRelease_keeps hx
  | modeSetVintage => exact exec_modeSetVintage_keeps hx
  | modeSetTaster => exact exec_modeSetTaster_keeps hx
  | dieEpochAck => exact exec_dieEpochAck_keeps hx
  | epochTimeout => exact exec_epochTimeout_keeps hx
  | applyConfig => exact exec_applyConfig_keeps hx
  | applyStoreOnly => exact exec_applyStoreOnly_keeps hx
  | dormantEnter => exact exec_dormantEnter_keeps hx
  | dormantPowerDown => exact exec_dormantPowerDown_keeps hx
  | wake => exact exec_wake_keeps hx
  | wakeDone => exact exec_wakeDone_keeps hx
  | dieDrainHold => exact exec_dieDrainHold_keeps hx
  | dieDrainRepair => exact exec_dieDrainRepair_keeps hx
  | dieRestore => exact exec_dieRestore_keeps hx
  | sqTailDoorbell => exact exec_sqTailDoorbell_keeps hx
  | commandFetchError => exact exec_commandFetchError_keeps hx
  | cqHeadDoorbell => exact exec_cqHeadDoorbell_keeps hx
  | hqCtlWrite => exact exec_hqCtlWrite_keeps hx
  | msgCtlWrite => exact exec_msgCtlWrite_keeps hx
  | msgHeadWrite => exact exec_msgHeadWrite_keeps hx
  | registerWrite => exact exec_registerWrite_keeps hx
  | loReadLatch => exact exec_loReadLatch_keeps hx
  | hubResetModule => exact exec_hubResetModule_keeps hx
  | islVsetWrite => exact exec_islVsetWrite_keeps hx
  | islMarginWrite => exact exec_islMarginWrite_keeps hx
  | islRateMinReset => exact exec_islRateMinReset_keeps hx
  | islRampDone => exact exec_islRampDone_keeps hx
  | islRateUpdate => exact exec_islRateUpdate_keeps hx
  | mcC0LatMaxClr => exact exec_mcC0LatMaxClr_keeps hx
  | trkPeakClr => exact exec_trkPeakClr_keeps hx
  | tqNearQuotaWrite => exact exec_tqNearQuotaWrite_keeps hx
  | tqCellarQuotaWrite => exact exec_tqCellarQuotaWrite_keeps hx
  | hwWindowWrite => exact exec_hwWindowWrite_keeps hx
  | precSettingWrite => exact exec_precSettingWrite_keeps hx
  | relDieFlagSet => exact exec_relDieFlagSet_keeps hx
  | relDieFlagClr => exact exec_relDieFlagClr_keeps hx
  | relFlashRelease => exact exec_relFlashRelease_keeps hx
  | relFlashAttach => exact exec_relFlashAttach_keeps hx
  | relVrmRelease => exact exec_relVrmRelease_keeps hx
  | scrStart => exact exec_scrStart_keeps hx
  | scrStop => exact exec_scrStop_keeps hx
  | screenRoundDone => exact exec_screenRoundDone_keeps hx
  | relLogIndexWrite => exact exec_relLogIndexWrite_keeps hx
  | relMapIndexWrite => exact exec_relMapIndexWrite_keeps hx
  | pwrLimitWrite => exact exec_pwrLimitWrite_keeps hx
  | pwrPeakClr => exact exec_pwrPeakClr_keeps hx
  | acctClr => exact exec_acctClr_keeps hx
  | appClr => exact exec_appClr_keeps hx
  | acctFlush => exact exec_acctFlush_keeps hx
  | tallyRelease => exact exec_tallyRelease_keeps hx
  | tallyReleaseDone => exact exec_tallyReleaseDone_keeps hx
  | tallyAttach => exact exec_tallyAttach_keeps hx
  | tallySelfTestDone => exact exec_tallySelfTestDone_keeps hx
  | tallyRecIndexWrite => exact exec_tallyRecIndexWrite_keeps hx
  | tallyIntervalClose => exact exec_tallyIntervalClose_keeps hx
  | tallyRecordClose => exact exec_tallyRecordClose_keeps hx
  | unmeteredRecord => exact exec_unmeteredRecord_keeps hx
  | tallyPulled => exact exec_tallyPulled_keeps hx
  | tallyFault => exact exec_tallyFault_keeps hx
  | tallySealOpened => exact exec_tallySealOpened_keeps hx
  | tallyFlashCopy => exact exec_tallyFlashCopy_keeps hx
  | powerLoopTick => exact exec_powerLoopTick_keeps hx
  | thermalCapTick => exact exec_thermalCapTick_keeps hx
  | thermal => exact exec_thermal_keeps hx
  | thermalTrip => exact exec_thermalTrip_keeps hx
  | envelopeReturn => exact exec_envelopeReturn_keeps hx
  | inputVoltageChange => exact exec_inputVoltageChange_keeps hx
  | inputPowerLoss => exact exec_inputPowerLoss_keeps hx
  | regulatorFail => exact exec_regulatorFail_keeps hx
  | regulatorFitted => exact exec_regulatorFitted_keeps hx
  | refClockLost => exact exec_refClockLost_keeps hx
  | refClockReturn => exact exec_refClockReturn_keeps hx
  | moduleReset => exact exec_moduleReset_keeps hx
  | hostLinkTrained => exact exec_hostLinkTrained_keeps hx
  | configReadDone => exact exec_configReadDone_keeps hx
  | memTrainDone => exact exec_memTrainDone_keeps hx
  | repairStepDone => exact exec_repairStepDone_keeps hx
  | portTrainDone => exact exec_portTrainDone_keeps hx
  | bootStepTimeout => exact exec_bootStepTimeout_keeps hx
  | hostLinkReset => exact exec_hostLinkReset_keeps hx
  | hubUncorrectable => exact exec_hubUncorrectable_keeps hx
  | faultLogFlush => exact exec_faultLogFlush_keeps hx
  | flashWriteDone => exact exec_flashWriteDone_keeps hx
  | patrolScrub => exact exec_patrolScrub_keeps hx
  | rowRemap => exact exec_rowRemap_keeps hx
  | caParityError => exact exec_caParityError_keeps hx
  | flitReplay => exact exec_flitReplay_keeps hx
  | laneFail => exact exec_laneFail_keeps hx
  | laneRetrainDone => exact exec_laneRetrainDone_keeps hx
  | portDown => exact exec_portDown_keeps hx
  | vlPortRetrain => exact exec_vlPortRetrain_keeps hx
  | portRetrainDone => exact exec_portRetrainDone_keeps hx
  | peerTraining => exact exec_peerTraining_keeps hx
  | farPortDown => exact exec_farPortDown_keeps hx
  | cxlRequestTimeout => exact exec_cxlRequestTimeout_keeps hx
  | trellisFire => exact exec_trellisFire_keeps hx
  | ctsArrival => exact exec_ctsArrival_keeps hx
  | ctsRetry => exact exec_ctsRetry_keeps hx
  | packetArrival => exact exec_packetArrival_keeps hx
  | packetAck => exact exec_packetAck_keeps hx
  | firingComplete => exact exec_firingComplete_keeps hx
  | abortArrival => exact exec_abortArrival_keeps hx
  | groupWait => exact exec_groupWait_keeps hx
  | tierStall => exact exec_tierStall_keeps hx
  | keeperPin => exact exec_keeperPin_keeps hx
  | keeperRetire => exact exec_keeperRetire_keeps hx
  | keeperClaim => exact exec_keeperClaim_keeps hx
  | keeperPublish => exact exec_keeperPublish_keeps hx
  | codecSubmitConsume => exact exec_codecSubmitConsume_keeps hx
  | codecStreamSwitch => exact exec_codecStreamSwitch_keeps hx
  | codecFrameDone => exact exec_codecFrameDone_keeps hx
  | codecReleaseConsume => exact exec_codecReleaseConsume_keeps hx
  | codecPacedRecord => exact exec_codecPacedRecord_keeps hx
  | unmeteredIntervalClose => exact exec_unmeteredIntervalClose_keeps hx
  | ctxExportDone => exact exec_ctxExportDone_keeps hx

theorem Part.not_among {l : List Part} {x : Part} (h : x ∉ l) : ¬Part.among l x := by
  simp [Part.among, h]

/-- What keeps the parts that a list does not name changes only those it names. -/
theorem Keeps.only {l : List Part} {s t : State} (h : Keeps (Part.among l) s t) : Only l s t :=
  ⟨h.pending, fun x hx => (h.frame x).resolve_left (Part.not_among hx)⟩

theorem Only.refl (l : List Part) (s : State) : Only l s s := ⟨rfl, fun x _ => x.same_refl s⟩

theorem Only.trans {l : List Part} {r s t : State} (h : Only l r s) (k : Only l s t) : Only l r t :=
  ⟨k.1.trans h.1, fun x hx => Part.same_trans (h.2 x hx) (k.2 x hx)⟩

/-- A list of more parts. -/
theorem Only.mono {l m : List Part} {s t : State} (h : Only l s t) (hlm : ∀ x ∈ l, x ∈ m := by decide) : Only m s t :=
  ⟨h.1, fun x hx => h.2 x fun hl => hx (hlm x hl)⟩

/-- A part that is not named is as before. -/
theorem Only.part {l : List Part} {s t : State} (h : Only l s t) (x : Part) (hx : x ∉ l := by decide) : x.same s t := h.2 x hx

/-! ### Steps -/

/-- A step with a command waiting runs it with the queue's rest. -/
theorem step_cons {s : State} {i : Instr} {rest : List Instr} (h : s.pending = i :: rest) :
    step s = exec i { s with pending := rest } := by
  simp only [step, h]

/-- A step with no command waiting is a tick. -/
theorem step_nil {s : State} (h : s.pending = []) : step s = .next (tick s) := by
  simp only [step, h]

/-- The invariant does not speak of the queue. -/
theorem State.Inv.withPending {s : State} (h : s.Inv) (l : List Instr) : State.Inv { s with pending := l } :=
  ⟨h.mem, h.ctxs, h.exported, h.dies, h.ports, h.farPorts, h.groups, h.codecs, h.timebase⟩

/-- What one step does: a tick on an empty queue, or the first command with the queue's rest. -/
theorem step_cases {s t : State} (h : step s = .next t) :
    (s.pending = [] ∧ t = tick s) ∨ ∃ i rest, s.pending = i :: rest ∧ exec i { s with pending := rest } = .next t := by
  cases hq : s.pending with
  | nil =>
    rw [step_nil hq] at h
    exact .inl ⟨rfl, (Host.Outcome.next.inj h).symm⟩
  | cons i rest =>
    rw [step_cons hq] at h
    exact .inr ⟨i, rest, rfl, h⟩

/-! ### The reset state -/

theorem State.reset_inv : State.reset.Inv where
  mem := rfl
  ctxs := fun _ h => absurd h List.not_mem_nil
  exported := fun _ h => absurd h List.not_mem_nil
  dies := rfl
  ports := rfl
  farPorts := rfl
  groups := rfl
  codecs := rfl
  timebase := Nat.two_pow_pos 64

/-! ### The statements -/

/-- Settles O3: a step is a tick (`tick_inv`) or a command, and every command keeps the invariant (`exec_keeps`). -/
theorem stepKeepsInvariant : Obligations.StepKeepsInvariant := by
  unfold Obligations.StepKeepsInvariant
  intro s t hinv hstep
  rcases step_cases hstep with ⟨-, rfl⟩ | ⟨i, rest, -, hx⟩
  · exact tick_inv hinv
  · exact (exec_keeps hx).inv (hinv.withPending rest)

/-- Settles O7: each command's own lemma (`exec_keeps`), read as a frame. -/
theorem commandFrame : Obligations.CommandFrame := by
  unfold Obligations.CommandFrame
  intro i s t hx
  exact (exec_keeps hx).only

/-- Settles O4: a tick leaves the empty queue (`tick_pending`), a command leaves the rest it was run with (`exec_keeps`). -/
theorem stepTakesOneCommand : Obligations.StepTakesOneCommand := by
  unfold Obligations.StepTakesOneCommand
  intro s t hstep
  rcases step_cases hstep with ⟨hq, rfl⟩ | ⟨i, rest, hq, hx⟩
  · rw [tick_pending, hq, List.tail_nil]
  · rw [(exec_keeps hx).pending, hq, List.tail_cons]

/-- Settles O5: every command is an event of its own well-formedness (`exec_eq_event`). -/
theorem everyCommandRuns : Obligations.EveryCommandRuns := by
  unfold Obligations.EveryCommandRuns
  refine ⟨fun i s hwf => ?runs, fun i s hwf => ?refused⟩
  case runs =>
    obtain ⟨f, hf⟩ := exec_eq_event i s
    exact ⟨f s, hf.trans (event_next s f hwf)⟩
  case refused =>
    obtain ⟨f, hf⟩ := exec_eq_event i s
    exact hf.trans (event_refused s f hwf)

/-- Settles O1: the step on a queue that is not empty. -/
theorem stepRunsFrontCommand : Obligations.StepRunsFrontCommand := by
  unfold Obligations.StepRunsFrontCommand
  intro c rest s
  exact step_cons rfl

/-- Settles O2: each field of the reset state as the invariant wants it. -/
theorem resetMeetsInvariant : Obligations.ResetMeetsInvariant := by
  unfold Obligations.ResetMeetsInvariant
  exact ⟨State.reset_inv, rfl⟩

end Sys2Proof.Machine
end

section
/-! Changes of contexts alone: what of the contexts two states share, seen through a view of a context, and what that gives for
cores and semaphores. -/

namespace Sys2Proof.Machine

/-! ### States that differ in their contexts alone -/

/-- `t` is `s` with other contexts. -/
def CtxsOnly (s t : State) : Prop := ∃ l, t = { s with ctxs := l }

theorem CtxsOnly.refl (s : State) : CtxsOnly s s := ⟨_, rfl⟩

theorem CtxsOnly.trans {r s t : State} (h : CtxsOnly r s) (k : CtxsOnly s t) : CtxsOnly r t := by
  obtain ⟨_, rfl⟩ := h
  obtain ⟨_, rfl⟩ := k
  exact ⟨_, rfl⟩

theorem CtxsOnly.only {s t : State} (h : CtxsOnly s t) : Only [.ctxs] s t := by
  obtain ⟨l, rfl⟩ := h
  refine ⟨rfl, fun x hx => ?_⟩
  cases x <;> simp_all [Part.same]

theorem ctxsOnly_modCtx (s : State) (asn : Nat) (f : Ctx → Ctx) : CtxsOnly s (modCtx s asn f) := ⟨_, rfl⟩

theorem ctxsOnly_modCore (s : State) (asn core : Nat) (f : Core → Core) : CtxsOnly s (modCore s asn core f) := ⟨_, rfl⟩

theorem ctxsOnly_addSem (s : State) (asn i n : Nat) : CtxsOnly s (addSem s asn i n) := by
  unfold addSem
  split
  · exact .refl s
  · split
    · exact .refl s
    · exact ctxsOnly_modCtx ..

theorem ctxsOnly_noteFirst (e : Env) : CtxsOnly e.s (noteFirst e) := by
  obtain ⟨f, h | h, -⟩ := noteFirst_eq e
  · exact h ▸ .refl _
  · exact h ▸ ctxsOnly_modCtx ..

theorem ctxsOnly_notePark (s : State) (asn core : Nat) : CtxsOnly s (notePark s asn core) := ctxsOnly_modCtx ..

theorem ctxsOnly_seqDone (e : Env) (w : Nat) (f : Core → Core) : CtxsOnly e.s (seqDone e w f) := by
  have h : CtxsOnly e.s (modCore (noteFirst e) e.c.asn e.core f) := (ctxsOnly_noteFirst e).trans (ctxsOnly_modCore ..)
  unfold seqDone
  dsimp only
  split
  · exact h.trans (ctxsOnly_addSem ..)
  · exact h

/-! ### Views of contexts -/

/-- Both states have the same contexts, as far as a view shows them. -/
structure SameBy {β : Type} (v : Ctx → β) (s t : State) : Prop where
  view : ∀ a, (ctxOf t a).map v = (ctxOf s a).map v

/-- What the semaphores of a context depend on. -/
def Ctx.semView (c : Ctx) : Nat × List Nat × List Alias := (c.asn, c.sems, c.aliases)

/-- What cores, semaphores and their queues depend on. -/
def Ctx.coreView (c : Ctx) : List Core × (Nat × List Nat × List Alias) × List Waiter := (c.cores, c.semView, c.waiters)

section views

variable {β γ : Type} {v : Ctx → β} {r s t : State}

theorem SameBy.refl (s : State) : SameBy v s s := ⟨fun _ => rfl⟩

theorem SameBy.trans (h : SameBy v r s) (k : SameBy v s t) : SameBy v r t := ⟨fun a => (k.view a).trans (h.view a)⟩

theorem SameBy.symm (h : SameBy v s t) : SameBy v t s := ⟨fun a => (h.view a).symm⟩

/-- A view that shows less. -/
theorem SameBy.less (h : SameBy v s t) (g : β → γ) : SameBy (fun c => g (v c)) s t where
  view a := by
    have := congrArg (Option.map g) (h.view a)
    simpa only [Option.map_map, Function.comp_def] using this

theorem SameBy.of_ctxs (h : t.ctxs = s.ctxs) : SameBy v s t := ⟨fun a => by simp only [ctxOf, h]⟩

/-- A change that the view does not show. -/
theorem sameBy_modCtx (s : State) (asn : Nat) {f : Ctx → Ctx} (hf : ∀ c, (f c).asn = c.asn := by exact fun _ => rfl)
    (hv : ∀ c, v (f c) = v c := by exact fun _ => rfl) :
    SameBy v s (modCtx s asn f) where
  view a := by
    rw [ctxOf_modCtx hf, Option.map_map]
    congr 1
    funext c
    simp only [Function.comp_apply]
    split
    · exact hv c
    · rfl

/-- A change of what the view shows, by what it shows, made in both states. -/
theorem SameBy.modCtx (h : SameBy v s t) {asn : Nat} {f : Ctx → Ctx} (hf : ∀ c, (f c).asn = c.asn) {F : β → β} {n : β → Nat}
    (hn : ∀ c, n (v c) = c.asn) (hv : ∀ c, v (f c) = F (v c)) : SameBy v (modCtx s asn f) (Machine.modCtx t asn f) where
  view a := by
    have key : ∀ x : State, (ctxOf (Machine.modCtx x asn f) a).map v =
        ((ctxOf x a).map v).map fun b => if n b = asn then F b else b := fun x => by
      rw [ctxOf_modCtx hf, Option.map_map, Option.map_map]
      congr 1
      funext c
      simp only [Function.comp_apply, hn]
      split
      · exact hv c
      · rfl
    rw [key, key, h.view a]

/-- A change of the cores is not seen by a view that does not show them. -/
theorem sameBy_modCore (s : State) (asn core : Nat) {f : Core → Core}
    (hv : ∀ (c : Ctx) l, v { c with cores := l } = v c := by exact fun _ _ => rfl) : SameBy v s (modCore s asn core f) :=
  sameBy_modCtx s asn (f := fun c => { c with cores := modAt c.cores core f }) (fun _ => rfl) fun _ => hv ..

theorem SameBy.exists_ctx (h : SameBy v s t) {a : Nat} {c : Ctx} (hc : ctxOf s a = some c) : ∃ d, ctxOf t a = some d ∧ v d = v c := by
  have := h.view a
  rw [hc, Option.map_some, Option.map_eq_some_iff] at this
  exact this

end views

/-- The changed context, where there is one. -/
theorem ctxOf_modCtx_some {s : State} {asn : Nat} {c : Ctx} {f : Ctx → Ctx} (h : ctxOf s asn = some c)
    (hf : ∀ c, (f c).asn = c.asn := by exact fun _ => rfl) : ctxOf (modCtx s asn f) asn = some (f c) := by
  rw [ctxOf_modCtx_self hf, h, Option.map_some]

/-- A context that is not the changed one. -/
theorem ctxOf_modCtx_ne {s : State} {asn a : Nat} {f : Ctx → Ctx} (h : a ≠ asn)
    (hf : ∀ c, (f c).asn = c.asn := by exact fun _ => rfl) : ctxOf (modCtx s asn f) a = ctxOf s a :=
  ctxOf_modCtx_other hf h

/-! ### Cores and semaphores under a view -/

section shown

variable {s t : State}

theorem SameBy.sems (h : SameBy Ctx.coreView s t) : SameBy Ctx.semView s t := h.less (·.2.1)

theorem SameBy.waiters (h : SameBy Ctx.coreView s t) : SameBy (·.waiters) s t := h.less (·.2.2)

theorem SameBy.cores (h : SameBy Ctx.coreView s t) : SameBy (·.cores) s t := h.less (·.1)

theorem SameBy.coreOf (h : SameBy (·.cores) s t) (a k : Nat) : coreOf t a k = Machine.coreOf s a k := by
  have := congrArg (fun o : Option (List Core) => o.bind (·[k]?)) (h.view a)
  simpa only [Machine.coreOf, Option.bind_map, Function.comp_def] using this

theorem SameBy.semCount (h : SameBy Ctx.semView s t) (a i : Nat) : semCount t a i = Machine.semCount s a i := semCount_congr h.view a i

theorem semTarget_congr {c d : Ctx} (h : d.semView = c.semView) (i : Nat) : semTarget d i = semTarget c i := by
  simp only [Ctx.semView, Prod.mk.injEq] at h
  obtain ⟨hasn, -, hal⟩ := h
  unfold semTarget
  rw [hal, hasn]

/-- An addition to a semaphore sees no more of the state than its semaphores. -/
theorem SameBy.addSem (h : SameBy Ctx.semView s t) (asn i n : Nat) :
    SameBy Ctx.semView (addSem s asn i n) (Machine.addSem t asn i n) := by
  cases hs : ctxOf s asn with
  | none =>
    have ht : ctxOf t asn = none := by simpa [hs] using h.view asn
    simpa only [Machine.addSem, hs, ht] using h
  | some c =>
    obtain ⟨d, ht, hv⟩ := h.exists_ctx hs
    unfold Machine.addSem
    simp only [hs, ht, semTarget_congr hv]
    split
    · exact h
    · exact h.modCtx (fun _ => rfl) (F := fun b => (b.1, modAt b.2.1 _ fun v => sat32 (v + n), b.2.2)) (n := (·.1))
        (fun _ => rfl) fun _ => rfl

/-- An addition to a semaphore changes nothing of a context but its semaphores. -/
theorem sameBy_addSem {β : Type} {v : Ctx → β} (s : State) (asn i n : Nat)
    (hv : ∀ (c : Ctx) l, v { c with sems := l } = v c := by exact fun _ _ => rfl) : SameBy v s (Machine.addSem s asn i n) := by
  unfold Machine.addSem
  split
  · exact .refl s
  · split
    · exact .refl s
    · exact sameBy_modCtx _ _ (hv := fun _ => hv ..)

end shown

theorem sameBy_noteFirst (e : Env) : SameBy (fun c => (c.cores, c.semView)) e.s (noteFirst e) := by
  obtain ⟨f, h | h, hf⟩ := noteFirst_eq e
  · exact h ▸ .refl _
  · refine h ▸ sameBy_modCtx _ _ (fun c => (hf c).1) fun c => ?_
    obtain ⟨hasn, hcores, hsems, hal, -⟩ := hf c
    simp only [Ctx.semView, hasn, hcores, hsems, hal]

end Sys2Proof.Machine
end

section
/-! The rows the sequencer executes: what a completed row leaves, what its fetch leaves, the rows that wait for nothing in flight,
WAIT and its queue. -/

namespace Sys2Proof.Machine

/-! ### What the fetch leaves -/

/-- `t` is `s` with other counts of traffic. -/
def TrafficOnly (s t : State) : Prop := ∃ r, t = { s with traffic := r }

theorem TrafficOnly.refl (s : State) : TrafficOnly s s := ⟨_, rfl⟩

theorem TrafficOnly.trans {r s t : State} (h : TrafficOnly r s) (k : TrafficOnly s t) : TrafficOnly r t := by
  obtain ⟨_, rfl⟩ := h
  obtain ⟨_, rfl⟩ := k
  exact ⟨_, rfl⟩

theorem TrafficOnly.foldl {α : Type} {f : State → α → State} (hf : ∀ s x, TrafficOnly s (f s x)) (xs : List α) (s : State) :
    TrafficOnly s (xs.foldl f s) := by
  induction xs generalizing s with
  | nil => exact .refl s
  | cons x t ih => exact (hf s x).trans (ih _)

theorem TrafficOnly.only {s t : State} (h : TrafficOnly s t) : Only [.traffic] s t := by
  obtain ⟨l, rfl⟩ := h
  refine ⟨rfl, fun x hx => ?_⟩
  cases x <;> simp_all [Part.same]

theorem trafficOnly_sendOver (s : State) (l : List (Nat × Nat)) (n : Nat) : TrafficOnly s (sendOver s l n) := ⟨_, rfl⟩

theorem trafficOnly_timeRead (s : State) (ppn : Nat) : TrafficOnly s (timeRead s ppn) := by
  unfold timeRead
  split
  · exact ⟨_, rfl⟩
  · exact .refl s

theorem trafficOnly_coreReads (s : State) (d ppn : Nat) : TrafficOnly s (coreReads s d ppn) := by
  unfold coreReads dieReads
  split
  · exact (trafficOnly_sendOver ..).trans (trafficOnly_sendOver ..)
  · exact trafficOnly_sendOver ..

theorem trafficOnly_envReads (e : Env) (s : State) (ppn : Nat) : TrafficOnly s (e.reads s ppn) := by
  unfold Env.reads
  split
  · exact (trafficOnly_coreReads ..).trans (trafficOnly_timeRead ..)
  · exact trafficOnly_coreReads ..

theorem trafficOnly_eachPiece {asn va n : Nat} {f : State → Nat → Nat → State} (hf : ∀ s p m, TrafficOnly s (f s p m))
    (s : State) : TrafficOnly s (eachPiece asn va n f s) := by
  refine TrafficOnly.foldl (fun s x => ?_) _ s
  split
  · exact hf ..
  · exact .refl s

/-- With no error in any cell a read meets none. -/
theorem meetVirt_of_noCells {s : State} (h : s.cells = []) (asn va n : Nat) : meetVirt s asn va n = s := by
  simp [meetVirt, h]

theorem Reads.only {s t : State} (h : Reads s t) : Only [.dies, .mem, .traffic] s t := by
  obtain ⟨d, p, l, r, rfl⟩ := h
  refine ⟨rfl, fun x hx => ?_⟩
  cases x <;> simp_all [Part.same]

theorem Reads.mem {s t : State} (h : Reads s t) : t.mem = s.mem := by
  obtain ⟨d, p, l, r, rfl⟩ := h
  rfl

theorem Reads.ctxs {s t : State} (h : Reads s t) : t.ctxs = s.ctxs := by
  obtain ⟨d, p, l, r, rfl⟩ := h
  rfl

theorem Reads.ctxOf {s t : State} (h : Reads s t) (a : Nat) : ctxOf t a = Machine.ctxOf s a := by
  simp only [Machine.ctxOf, h.ctxs]

theorem Reads.coreOf {s t : State} (h : Reads s t) (a k : Nat) : coreOf t a k = Machine.coreOf s a k := by
  simp only [Machine.coreOf, h.ctxOf]

/-- A fetch from memory without errors in its cells is traffic and nothing else. -/
theorem trafficOnly_rowEnv {s : State} {asn core : Nat} {e : Env} (h : rowEnv s asn core = some e) (hc : s.cells = []) :
    TrafficOnly s e.s := by
  unfold rowEnv at h
  obtain ⟨e₀, h₀, rfl⟩ := Option.map_eq_some_iff.1 h
  have hs : e₀.s = s := (envOf_facts h₀).1
  have hm : meetVirt e₀.s e₀.c.asn (e₀.j.progVA + 16 * e₀.k.pc) 16 = s := by
    rw [hs, meetVirt_of_noCells hc]
  unfold Env.fetched
  dsimp only
  rw [hm]
  exact (trafficOnly_eachPiece (fun s p _ => trafficOnly_envReads _ s p) _).trans ⟨_, rfl⟩

/-! ### What a completed row leaves -/

section done

variable {s : State} {asn core w : Nat} {e : Env} (f : Core → Core)

/-- The state a completed row leaves, before its SIG adds. -/
def issued (e : Env) (f : Core → Core) : State := modCore (noteFirst e) e.c.asn e.core f

theorem sameBy_issued (e : Env) (f : Core → Core) : SameBy Ctx.semView e.s (issued e f) :=
  ((sameBy_noteFirst e).less (·.2)).trans (sameBy_modCore ..)

theorem seqDone_eq (e : Env) (w : Nat) (f : Core → Core) :
    seqDone e w f = match sigSem w with
      | some j => addSem (issued e f) e.c.asn j 1
      | none => issued e f := rfl

theorem coreOf_seqDone (e : Env) (w a k : Nat) (f : Core → Core) : coreOf (seqDone e w f) a k = coreOf (issued e f) a k := by
  rw [seqDone_eq]
  split
  · exact coreOf_addSem ..
  · rfl

theorem sameBy_seqDone (e : Env) (w : Nat) (f : Core → Core) :
    SameBy Ctx.semView (match sigSem w with | some j => addSem e.s e.c.asn j 1 | none => e.s) (seqDone e w f) := by
  rw [seqDone_eq]
  split
  · exact (sameBy_issued e f).addSem ..
  · exact sameBy_issued e f

theorem coreOf_issued_self (e : Env) (f : Core → Core) :
    coreOf (issued e f) e.c.asn e.core = (coreOf e.s e.c.asn e.core).map f := by
  rw [issued, coreOf_modCore_self, coreOf_noteFirst]

theorem coreOf_issued_other (e : Env) (f : Core → Core) {a k : Nat} (h : ¬(a = e.c.asn ∧ k = e.core)) :
    coreOf (issued e f) a k = coreOf e.s a k := by
  rw [issued, coreOf_modCore_other h, coreOf_noteFirst]

/-- What a completed row leaves, whatever it does to its core. -/
theorem sequenced_seqDone (h : rowEnv s asn core = some e) : Sequenced e.s (seqDone e w f) asn core e w f := by
  obtain ⟨hr, rfl, -, rfl, hk, -⟩ := rowEnv_facts h
  refine ⟨?_, fun a k hak => ?_, (ctxsOnly_seqDone e w f).only, fun a i => (sameBy_seqDone e w f).semCount a i⟩
  · rw [coreOf_seqDone, coreOf_issued_self, hr.coreOf, hk, Option.map_some]
  · rw [coreOf_seqDone, coreOf_issued_other e f hak]

end done

/-! ### Parking -/

theorem asn_notePark (c : Ctx) (core : Nat) : (c.notePark core).asn = c.asn := by
  unfold Ctx.notePark
  dsimp only
  split <;> rfl

theorem coreView_notePark (c : Ctx) (core : Nat) : (c.notePark core).coreView = c.coreView := by
  unfold Ctx.notePark
  dsimp only
  split <;> rfl

theorem sameBy_notePark (s : State) (asn core : Nat) : SameBy Ctx.coreView s (notePark s asn core) :=
  sameBy_modCtx s asn (fun c => asn_notePark c core) fun c => coreView_notePark c core

/-! ### Rows that issue -/

/-- A drained row waits while anything of its core is in flight. -/
theorem seqRow_waits {s : State} {asn core w : Nat} {e : Env} {mine : Nat → Bool} {resv : List (Nat × Nat)}
    {regs : Nat → List Nat × List Nat} {body : Env → Nat → State} (h : Fetches s asn core e w) (hm : mine w = true)
    (hz : zeros w resv = true) (hf : e.k.flight ≠ []) : seqRow s asn core mine resv true regs body = s := by
  unfold seqRow
  rw [tileRow_eq h hm]
  simp only [hz, Bool.not_true, Bool.false_eq_true, if_false, Bool.true_and]
  split
  · rfl
  · rw [if_pos (by simpa using hf)]

/-- With nothing in flight nothing holds a row back. -/
theorem mustWait_of_noFlight {k : Core} (h : k.flight = []) (w : Nat) (p : Prep) : mustWait k w p = false := by
  simp [mustWait, h]

/-- A drained row runs its body once nothing of its core is in flight. -/
theorem seqRow_drained {s : State} {asn core w : Nat} {e : Env} {mine : Nat → Bool} {resv : List (Nat × Nat)}
    {regs : Nat → List Nat × List Nat} {body : Env → Nat → State} (h : Fetches s asn core e w) (hm : mine w = true)
    (hz : zeros w resv = true) (hf : e.k.flight = []) : seqRow s asn core mine resv true regs body = body e w :=
  seqRow_eq h hm ⟨hz, mustWait_of_noFlight hf ..⟩ fun _ => hf

/-! ### Semaphores -/

/-- The count of a semaphore that is not gone is that of its owner. -/
theorem semCount_of_target {s : State} {asn i a j : Nat} {c o : Ctx} (hc : ctxOf s asn = some c) (ht : semTarget c i = some (a, j))
    (ho : ctxOf s a = some o) : semCount s asn i = o.sems.getD j 0 := by
  simp only [semCount, hc, ht, ho]

theorem addSem_of_target {s : State} {asn i a j : Nat} {c : Ctx} (hc : ctxOf s asn = some c) (ht : semTarget c i = some (a, j))
    (n : Nat) : addSem s asn i n = addOwnSem s a j n := by
  simp only [addSem, hc, ht]

theorem getD_of_lt {α : Type} {l : List α} {n : Nat} (d : α) (h : n < l.length) : l.getD n d = l[n] := by
  rw [List.getD_eq_getElem?_getD, List.getElem?_eq_getElem h, Option.getD_some]

theorem getD_of_length_le {α : Type} {l : List α} {n : Nat} (d : α) (h : l.length ≤ n) : l.getD n d = d := by
  rw [List.getD_eq_getElem?_getD, List.getElem?_eq_none h, Option.getD_none]

theorem getD_modAt_self {l : List Nat} {j : Nat} (h : j < l.length) (f : Nat → Nat) : (modAt l j f).getD j 0 = f (l.getD j 0) := by
  simp [modAt, List.getD_eq_getElem?_getD, h]

theorem getD_modAt_other {α : Type} (l : List α) {j k : Nat} (h : k ≠ j) (f : α → α) (x : α) :
    (modAt l j f).getD k x = l.getD k x := by
  simp [modAt, List.getD_eq_getElem?_getD, Ne.symm h]

/-- A context after an addition to a semaphore of one. -/
theorem ctxOf_addOwnSem (s : State) (a j n b : Nat) : ctxOf (addOwnSem s a j n) b =
    (ctxOf s b).map fun c => if c.asn = a then { c with sems := modAt c.sems j fun v => sat32 (v + n) } else c :=
  ctxOf_modCtx (f := fun c => { c with sems := modAt c.sems j fun v => sat32 (v + n) }) fun _ => rfl

/-- Targets of semaphores do not move with counts. -/
theorem exists_ctx_addOwnSem {s : State} {b : Nat} {d : Ctx} (h : ctxOf s b = some d) (a j n : Nat) :
    ∃ d', ctxOf (addOwnSem s a j n) b = some d' ∧ (∀ i, semTarget d' i = semTarget d i) ∧
      d'.sems = if b = a then modAt d.sems j (fun v => sat32 (v + n)) else d.sems := by
  rw [ctxOf_addOwnSem, h, Option.map_some]
  refine ⟨_, rfl, fun i => ?_, ?_⟩
  · split <;> rfl
  · rw [asn_of_ctxOf h]
    split <;> rfl

/-! ### The statements -/

/-- Settles O8: what a completed row leaves (`sequenced_seqDone`), and what the reads of its fetch can do (`Reads`). -/
theorem sequencerEffect : Obligations.SequencerEffect := by
  unfold Obligations.SequencerEffect
  intro s asn core e w f h
  have hr : Reads s e.s := (rowEnv_facts h).1
  exact ⟨sequenced_seqDone f h, hr.only, hr.mem, fun hc => (trafficOnly_rowEnv h hc).only⟩

/-- Settles O15: the addition goes to the target's owner (`addSem_of_target`); no target moves (`exists_ctx_addOwnSem`), so a count with
another target is as before. -/
theorem semaphoreAddSaturates : Obligations.SemaphoreAddSaturates := by
  unfold Obligations.SemaphoreAddSaturates
  intro s asn i n a j c o hc ht ho hj
  rw [addSem_of_target hc ht]
  obtain ⟨c', hc', htgt, -⟩ := exists_ctx_addOwnSem hc a j n
  obtain ⟨o', ho', -, hsems⟩ := exists_ctx_addOwnSem ho a j n
  refine ⟨?self, fun b l d x hd hx hne => ?other⟩
  case self =>
    rw [semCount_of_target hc' ((htgt i).trans ht) ho', semCount_of_target hc ht ho, hsems, if_pos rfl, getD_modAt_self hj]
    rfl
  case other =>
    obtain ⟨b', l'⟩ := x
    obtain ⟨d', hd', htgt', -⟩ := exists_ctx_addOwnSem hd a j n
    have hx' : semTarget d' l = some (b', l') := (htgt' l).trans hx
    cases hb : ctxOf s b' with
    | none =>
      have hb' : ctxOf (addOwnSem s a j n) b' = none := by rw [ctxOf_addOwnSem, hb, Option.map_none]
      simp only [semCount, hd', hd, hx', hx, hb', hb]
    | some q =>
      obtain ⟨q', hq', -, hs'⟩ := exists_ctx_addOwnSem hb a j n
      rw [semCount_of_target hd' hx' hq', semCount_of_target hd hx hb, hs']
      split
      · rename_i hba
        exact getD_modAt_other _ (fun hl => hne (by rw [hba, hl])) _ _
      · rfl

/-- Settles O12: X0 is apart in `Core.setX` and `Core.xr`; the others are places of a list. -/
theorem scalarRegisters : Obligations.ScalarRegisters := by
  unfold Obligations.ScalarRegisters
  intro k i v hlen
  refine ⟨fun h => ?_, ?_, fun hpos hlt => ?_, fun j hj => ?_⟩
  · simp [Core.setX, h]
  · simp [Core.xr]
  · have hi : i < k.x.length := hlen ▸ hlt
    simp [Core.setX, Core.xr, Nat.ne_of_gt hpos, List.getD_eq_getElem?_getD, hi]
  · by_cases hi : i = 0
    · simp [Core.setX, hi]
    · simp [Core.setX, Core.xr, hi, List.getD_eq_getElem?_getD, Ne.symm hj]

/-- Settles O13: END is a completed row (`sequenced_seqDone`) whose core then counts as parked, which its core does not show
(`sameBy_notePark`). -/
theorem endFinishesCore : Obligations.EndFinishesCore := by
  unfold Obligations.EndFinishesCore
  intro s asn core e w hw hf hrow hfree
  obtain ⟨hself, hothers, -, -⟩ := sequenced_seqDone (w := w) (fun k => { k with run := .ended }) hf.env
  have hexec : exec (.endProg asn core) s = .next (notePark (seqDone e w fun k => { k with run := .ended }) asn core) := by
    rw [exec_endProg_next hw, endProg, seqRow_undrained hf hrow hfree]
  have hpark := (sameBy_notePark (seqDone e w fun k => { k with run := .ended }) asn core).cores.coreOf
  refine ⟨_, hexec, (hpark ..).trans hself, fun a k hak => ?_,
    ((ctxsOnly_seqDone ..).trans (ctxsOnly_notePark ..)).only⟩
  rw [hpark, hothers a k hak, (rowEnv_facts hf.env).1.coreOf]

/-- Settles O14: each row waits (`seqRow_waits`) or runs its body (`seqRow_drained`), whose branches the rows' cases name. -/
theorem orderingRowsComplete : Obligations.OrderingRowsComplete := by
  unfold Obligations.OrderingRowsComplete
  intro s asn core e w hf
  refine ⟨fun hop hz hw => ?fence, fun hrow hz hw => ?stint, fun hrow hz hw => ?signal, fun hrow hz hw => ?trig⟩
  case fence =>
    have hm : isFence w = true := by simp [isFence, hop]
    rw [exec_fence_next hw, fence]
    exact ⟨fun h => by rw [seqRow_waits hf hm hz h], fun h => by rw [seqRow_drained hf hm hz h]; rfl⟩
  case stint =>
    rw [exec_stint_next hw, stint]
    refine ⟨fun h => by rw [seqRow_waits hf hrow hz h], fun h hl => ?_, fun h hl => ?_⟩
    · rw [seqRow_drained hf hrow hz h, hl]; rfl
    · rw [seqRow_drained hf hrow hz h, hl]; rfl
  case signal =>
    rw [exec_signal_next hw, signal]
    refine ⟨fun h => by rw [seqRow_waits hf hrow hz h], fun h x hx => ?_, fun h hx => ?_⟩
    · rw [seqRow_drained hf hrow hz h]
      simp only [hx]
      rfl
    · rw [seqRow_drained hf hrow hz h]
      simp only [hx]
      rw [haltCore_stop_of_fetches hf]
  case trig =>
    rw [exec_trig_next hw, trig]
    refine ⟨fun h => by rw [seqRow_waits hf hrow hz h], fun h hb => ?_, fun h hb => ?_⟩
    · rw [seqRow_drained hf hrow hz h, if_neg (Nat.not_le.2 hb)]; rfl
    · rw [seqRow_drained hf hrow hz h, if_pos hb, haltCore_stop_of_fetches hf]

end Sys2Proof.Machine
end

section
/-! WAIT: what it does where its count is met, how a core blocks behind the earlier waiters, and how the oldest waiter is served. -/

namespace Sys2Proof.Machine

/-! ### What blocking leaves of contexts -/

/-- A change made under a condition, which a view does not show. -/
theorem view_ite {β : Type} {v : Ctx → β} {p : Prop} [Decidable p] {c d : Ctx} (h : v d = v c) : v (if p then d else c) = v c := by
  split
  · exact h
  · rfl

theorem sameBy_joinFence (s : State) (asn sem core : Nat) : SameBy Ctx.coreView s (joinFence s asn sem core) := by
  unfold joinFence
  split
  · exact .refl s
  · refine sameBy_modCtx _ _ (fun c => ?_) fun c => ?_
    · split <;> rfl
    · split <;> rfl

theorem sameBy_leaveFences (s : State) (asn core : Nat) : SameBy Ctx.coreView s (leaveFences s asn core) :=
  sameBy_modCtx ..

theorem sameBy_lend (s : State) (asn core owner : Nat) : SameBy Ctx.coreView s (lend s asn core owner) := by
  unfold lend
  split
  · exact .refl s
  · split
    · exact .refl s
    · exact sameBy_modCtx _ _ (fun _ => view_ite (v := (·.asn)) rfl) fun _ => view_ite rfl

theorem ctxsOnly_joinFence (s : State) (asn sem core : Nat) : CtxsOnly s (joinFence s asn sem core) := by
  unfold joinFence
  split
  · exact .refl s
  · exact ctxsOnly_modCtx ..

theorem ctxsOnly_lend (s : State) (asn core owner : Nat) : CtxsOnly s (lend s asn core owner) := by
  unfold lend
  split
  · exact .refl s
  · split
    · exact .refl s
    · exact ctxsOnly_modCtx ..

/-- The state of a core that blocks, before what it lends and joins is noted. -/
def blocked (e : Env) (sem n : Nat) (consume : Bool) (oa oi : Nat) : State :=
  modCore (modCtx (noteFirst e) oa fun o => { o with
    waiters := o.waiters ++ [{ sem := oi, asn := e.c.asn, core := e.core, n := n, consume := consume }] }) e.c.asn e.core
    fun k => { k with run := .waiting sem n consume }

theorem sameBy_block (e : Env) (sem n : Nat) (consume : Bool) (oa oi : Nat) :
    SameBy Ctx.coreView (blocked e sem n consume oa oi) (block e sem n consume oa oi) :=
  ((sameBy_lend ..).trans (sameBy_joinFence ..)).trans (sameBy_notePark ..)

theorem ctxsOnly_block (e : Env) (sem n : Nat) (consume : Bool) (oa oi : Nat) :
    CtxsOnly e.s (block e sem n consume oa oi) :=
  ((((ctxsOnly_noteFirst e).trans (ctxsOnly_modCtx ..)).trans (ctxsOnly_modCore ..)).trans (ctxsOnly_lend ..)).trans
    ((ctxsOnly_joinFence ..).trans (ctxsOnly_notePark ..))

section blocked

variable (e : Env) (sem n : Nat) (consume : Bool) (oa oi : Nat)

/-- Queueing a core changes no core but its own. -/
theorem sameBy_blocked_enqueued :
    SameBy (·.cores) e.s (modCtx (noteFirst e) oa fun o => { o with
      waiters := o.waiters ++ [{ sem := oi, asn := e.c.asn, core := e.core, n := n, consume := consume }] }) :=
  ((sameBy_noteFirst e).less (·.1)).trans (sameBy_modCtx ..)

theorem coreOf_blocked_self : coreOf (blocked e sem n consume oa oi) e.c.asn e.core =
    (coreOf e.s e.c.asn e.core).map fun k => { k with run := .waiting sem n consume } := by
  rw [blocked, coreOf_modCore_self, (sameBy_blocked_enqueued ..).coreOf]

theorem coreOf_blocked_other {a k : Nat} (h : ¬(a = e.c.asn ∧ k = e.core)) :
    coreOf (blocked e sem n consume oa oi) a k = coreOf e.s a k := by
  rw [blocked, coreOf_modCore_other h, (sameBy_blocked_enqueued ..).coreOf]

theorem sameBy_blocked_sems : SameBy Ctx.semView e.s (blocked e sem n consume oa oi) :=
  (((sameBy_noteFirst e).less (·.2)).trans (sameBy_modCtx ..)).trans
    (sameBy_modCore ..)

/-- The queue of a context that a core joins. -/
theorem waiters_blocked : (ctxOf (blocked e sem n consume oa oi) oa).map (·.waiters) =
    ((ctxOf (noteFirst e) oa).map (·.waiters)).map
      (· ++ [{ sem := oi, asn := e.c.asn, core := e.core, n := n, consume := consume }]) := by
  refine (sameBy_modCore _ _ _ (v := (·.waiters)) (fun _ _ => rfl)).view oa |>.trans ?_
  rw [ctxOf_modCtx_self (f := fun o => { o with waiters := o.waiters ++ _ }) fun _ => rfl, Option.map_map, Option.map_map]
  rfl

end blocked

/-- The first issue of a job leaves the queues alone. -/
theorem sameBy_noteFirst_waiters (e : Env) : SameBy (·.waiters) e.s (noteFirst e) := by
  unfold noteFirst
  split
  · exact .refl _
  · exact sameBy_modCtx _ _ (fun _ => view_ite (v := (·.asn)) rfl) fun _ => view_ite (v := (·.waiters)) rfl

/-! ### WAIT on a semaphore that is there -/

section wait

variable {s : State} {asn core w : Nat} {e : Env} (h : Fetches s asn core e w)
  (hfree : SeqFree e w [(47, 40), (127, 64)] [] [])
include h hfree

/-- A WAIT on a semaphore that is gone stops the job (R670). -/
theorem waitRow_gone {sub : Nat} (consume : Bool) (hrow : isRow 0x04 sub w = true) (ht : semTarget e.c (bits w 39 32) = none) :
    waitRow s asn core sub consume = stopJob e.s asn .stateIllegal core e.k.pc := by
  rw [waitRow, seqRow_undrained h hrow hfree]
  simp only [ht]
  exact haltCore_stop_of_fetches h _

/-- A WAIT goes on without a count, takes its count where it is met and nobody waits before it, or blocks (R199, R200). -/
theorem waitRow_target {sub oa oi : Nat} (consume : Bool) (hrow : isRow 0x04 sub w = true) {o : Ctx}
    (ht : semTarget e.c (bits w 39 32) = some (oa, oi)) (ho : ctxOf e.s oa = some o) :
    waitRow s asn core sub consume =
      if bits w 63 48 = 0 then seqDone e w Core.next
      else if bits w 63 48 ≤ semCount e.s asn (bits w 39 32) ∧ ∀ x ∈ o.waiters, x.sem ≠ oi then
        seqDone (if consume then { e with s := takeSem e.s asn (bits w 39 32) (bits w 63 48) } else e) w Core.next
      else block e (bits w 39 32) (bits w 63 48) consume oa oi := by
  rw [waitRow, seqRow_undrained h hrow hfree]
  simp only [ht, ho, Option.any_some]
  congr 1
  refine ite_congr (propext ?_) (fun _ => rfl) fun _ => rfl
  simp only [Bool.and_eq_true, Bool.not_eq_true', List.any_eq_false, beq_iff_eq, decide_eq_true_eq]
  exact And.comm

end wait

/-! ### The statements -/

/-- Settles O16: the branches of WAIT (`waitRow_target`, `waitRow_gone`), once for CONSUME and once for PEEK. -/
theorem waitTakesItsCount : Obligations.WaitTakesItsCount := by
  unfold Obligations.WaitTakesItsCount
  intro s asn core e w hf hfree sem n goOn
  refine ⟨fun hrow hw => ?consume, fun hrow hw => ?peek⟩
  case consume =>
    rw [exec_waitConsume_next hw]
    refine ⟨fun oa oi o ht ho => ?_, fun ht => by rw [waitRow_gone hf hfree true hrow ht]⟩
    intro free
    rw [waitRow_target hf hfree true hrow ht ho]
    refine ⟨fun hn => ?_, fun hn hle hfr => ?_, fun hn hnot => ?_⟩
    · rw [if_pos hn]
      rfl
    · rw [if_neg (Nat.pos_iff_ne_zero.1 hn), if_pos ⟨hle, hfr⟩]
      rfl
    · rw [if_neg (Nat.pos_iff_ne_zero.1 hn), if_neg hnot]
  case peek =>
    rw [exec_waitPeek_next hw]
    refine ⟨fun oa oi o ht ho => ?_, fun ht => by rw [waitRow_gone hf hfree false hrow ht]⟩
    intro free
    rw [waitRow_target hf hfree false hrow ht ho]
    refine ⟨fun hor => ?_, fun hn hnot => ?_⟩
    · by_cases hn : bits w 63 48 = 0
      · rw [if_pos hn]
        rfl
      · rw [if_neg hn, if_pos (hor.resolve_left hn)]
        rfl
    · rw [if_neg (Nat.pos_iff_ne_zero.1 hn), if_neg hnot]

/-- Settles O17: blocking queues the core (`blocked`); what it lends and joins shows in no core, semaphore or queue (`sameBy_block`). -/
theorem blockQueuesWaiter : Obligations.BlockQueuesWaiter := by
  unfold Obligations.BlockQueuesWaiter
  intro s asn core e sem n oa oi consume o he ho t
  obtain ⟨rfl, rfl, -, rfl, hk, -⟩ := envOf_facts he
  have hview : SameBy Ctx.coreView (blocked e sem n consume oa oi) t := sameBy_block ..
  refine ⟨?self, ?waiters, fun a k hak => ?others, fun a i => ?sems, (ctxsOnly_block ..).only⟩
  case self => rw [hview.cores.coreOf, coreOf_blocked_self, hk, Option.map_some]
  case waiters => rw [hview.waiters.view oa, waiters_blocked, (sameBy_noteFirst_waiters e).view oa, ho, Option.map_some, Option.map_some]
  case others => rw [hview.cores.coreOf, coreOf_blocked_other _ _ _ _ _ _ hak]
  case sems => rw [hview.sems.semCount, (sameBy_blocked_sems ..).semCount]

/-! ### The oldest waiter -/

/-- The state in which a waiter has left its queue and taken its count. -/
def waiterOut (s : State) (asn sem : Nat) (x : Waiter) : State :=
  modCtx s asn fun o => { o with
    waiters := o.waiters.erase x
    raised := o.raised.filter fun r => !(r.1 == x.asn && r.2.1 == x.core)
    sems := if x.consume then modAt o.sems sem fun v => v - x.n else o.sems }

/-- The state in which a waiter's core goes on, before the SIG of its WAIT. -/
def waiterServed (s : State) (asn sem : Nat) (x : Waiter) : State :=
  modCore (leaveFences (waiterOut s asn sem x) x.asn x.core) x.asn x.core fun k => { k with run := .running, pc := k.pc + 1 }

theorem waitSatisfied_eq {s : State} {asn sem : Nat} {o c : Ctx} {x : Waiter} {k : Core} (ho : ctxOf s asn = some o)
    (hx : (o.waiters.find? fun x => x.sem == sem) = some x) (hc : ctxOf s x.asn = some c) (hk : coreOf s x.asn x.core = some k)
    (hn : x.n ≤ o.sems.getD sem 0) (hseat : c.seatedNow = true) :
    waitSatisfied s asn sem = match sigSem (wordAt s c k) with
      | some i => addSem (waiterServed s asn sem x) x.asn i 1
      | none => waiterServed s asn sem x := by
  simp only [waitSatisfied, ho, hx, hc, hk, hseat, Option.bind_some, Option.map_some, Bool.not_true, Bool.or_false,
    decide_eq_true_eq, if_neg (Nat.not_lt.2 hn)]
  rfl

section served

variable {s : State} {asn sem : Nat} {x : Waiter}

theorem sameBy_waiterOut : SameBy (·.cores) s (waiterOut s asn sem x) := sameBy_modCtx ..

theorem ctxOf_waiterOut_other {a : Nat} (h : a ≠ asn) : ctxOf (waiterOut s asn sem x) a = ctxOf s a :=
  ctxOf_modCtx_ne h

theorem sameBy_served {β : Type} {v : Ctx → β} (hf : ∀ (c : Ctx) l, v { c with fences := l } = v c)
    (hc : ∀ (c : Ctx) l, v { c with cores := l } = v c) : SameBy v (waiterOut s asn sem x) (waiterServed s asn sem x) :=
  (sameBy_modCtx _ _ (hv := fun _ => hf ..)).trans (sameBy_modCore _ _ _ hc)

theorem coreOf_served_self : coreOf (waiterServed s asn sem x) x.asn x.core =
    (coreOf s x.asn x.core).map fun k => { k with run := .running, pc := k.pc + 1 } := by
  rw [waiterServed, coreOf_modCore_self, (sameBy_leaveFences ..).cores.coreOf, sameBy_waiterOut.coreOf]

theorem coreOf_served_other {a k : Nat} (h : ¬(a = x.asn ∧ k = x.core)) :
    coreOf (waiterServed s asn sem x) a k = coreOf s a k := by
  rw [waiterServed, coreOf_modCore_other h, (sameBy_leaveFences ..).cores.coreOf, sameBy_waiterOut.coreOf]

theorem ctxsOnly_served : CtxsOnly s (waiterServed s asn sem x) :=
  ((ctxsOnly_modCtx ..).trans (ctxsOnly_modCtx ..)).trans (ctxsOnly_modCore ..)

end served

/-- Settles O18: the waiter leaves the queue (`waiterOut`), its core goes on (`waiterServed`), and a SIG adds, which shows in no core
and no queue (`sameBy_addSem`). -/
theorem waiterIsServed : Obligations.WaiterIsServed := by
  unfold Obligations.WaiterIsServed
  intro s asn sem o c x k hw ho hx hc hk hn hseat
  have hsems : SameBy Ctx.semView (waiterOut s asn sem x) (waiterServed s asn sem x) :=
    sameBy_served (fun _ _ => rfl) fun _ _ => rfl
  have hwaiters : (ctxOf (waiterServed s asn sem x) asn).map (·.waiters) = some (o.waiters.erase x) := by
    rw [(sameBy_served (v := (·.waiters)) (fun _ _ => rfl) fun _ _ => rfl).view asn, waiterOut, ctxOf_modCtx_some ho, Option.map_some]
  refine ⟨waiterOut s asn sem x, _, by rw [exec_waitSatisfied_next hw, waitSatisfied_eq ho hx hc hk hn hseat], ?_⟩
  refine ⟨?self, ?queue, ?taken, fun a ha => ctxOf_waiterOut_other ha, fun a i => ?counts, fun a q hq => ?others, ?only⟩
  case self =>
    split
    · rw [coreOf_addSem, coreOf_served_self, hk, Option.map_some]
    · rw [coreOf_served_self, hk, Option.map_some]
  case queue =>
    split
    · exact ((sameBy_addSem (v := (·.waiters)) ..).view asn).trans hwaiters
    · exact hwaiters
  case taken =>
    rw [waiterOut, ctxOf_modCtx_some ho, Option.map_some]
  case counts =>
    cases sigSem (wordAt s c k) with
    | some j => exact (hsems.addSem ..).semCount a i
    | none => exact hsems.semCount a i
  case others =>
    split
    · rw [coreOf_addSem, coreOf_served_other hq]
    · exact coreOf_served_other hq
  case only =>
    split
    · exact (ctxsOnly_served.trans (ctxsOnly_addSem ..)).only
    · exact ctxsOnly_served.only

end Sys2Proof.Machine
end

section
/-! An instruction in flight does its work: what its writes, its flags and its accounts leave of contexts, cores and memory, and that
this is what `Worked` says. -/

namespace Sys2Proof.Machine

/-! ### The writes of a plan -/

section writes

variable {s : State} {asn core : Nat}

theorem ctxs_virtWrite (s : State) (asn va : Nat) (b : Bytes) : (virtWrite s asn va b).ctxs = s.ctxs :=
  ((keeps_virtWrite (w₀ := Part.among [.dies, .moves, .mem]) s asn va b (Keeps.refl s)).only.part .ctxs).1

theorem only_putRuns (s : State) (asn core : Nat) (rs : List Run) : Only [.dies, .moves, .ctxs, .mem] s (putRuns s asn core rs) :=
  (keeps_putRuns s asn core rs (Keeps.refl s)).only

/-- A run of bytes changes cores and pools of its own context alone. -/
theorem sameBy_putRun {β : Type} {v : Ctx → β} (r : Run) (hc : ∀ (c : Ctx) l, v { c with cores := l } = v c)
    (hq : ∀ (c : Ctx) l, v { c with clusters := l } = v c) : SameBy v s (putRun asn core s r) := by
  unfold putRun
  split
  · exact .of_ctxs (ctxs_virtWrite ..)
  · split
    · exact sameBy_modCore _ _ _ hc
    · exact sameBy_modCtx _ _ (hv := fun _ => hq ..)

theorem sameBy_putRuns {β : Type} {v : Ctx → β} (s : State) (asn core : Nat) (rs : List Run)
    (hc : ∀ (c : Ctx) l, v { c with cores := l } = v c := by exact fun _ _ => rfl)
    (hq : ∀ (c : Ctx) l, v { c with clusters := l } = v c := by exact fun _ _ => rfl) : SameBy v s (putRuns s asn core rs) := by
  unfold putRuns
  induction rs generalizing s with
  | nil => exact .refl s
  | cons r rs ih => exact (sameBy_putRun r hc hq).trans (ih _)

/-- A run of bytes changes no other core. -/
theorem coreOf_putRun_other (r : Run) {a q : Nat} (h : ¬(a = asn ∧ q = core)) :
    coreOf (putRun asn core s r) a q = coreOf s a q := by
  unfold putRun
  split
  · exact (SameBy.of_ctxs (ctxs_virtWrite ..)).coreOf a q
  · split
    · exact coreOf_modCore_other h
    · exact (sameBy_modCtx (v := (·.cores)) ..).coreOf a q

theorem coreOf_putRuns_other (s : State) (rs : List Run) {a q : Nat} (h : ¬(a = asn ∧ q = core)) :
    coreOf (putRuns s asn core rs) a q = coreOf s a q := by
  unfold putRuns
  induction rs generalizing s with
  | nil => rfl
  | cons r rs ih => exact (ih _).trans (coreOf_putRun_other r h)

/-- A run of bytes leaves a core where there is one. -/
theorem coreOf_putRun_isSome (r : Run) (h : (coreOf s asn core).isSome = true) :
    (coreOf (putRun asn core s r) asn core).isSome = true := by
  unfold putRun
  split
  · rw [(SameBy.of_ctxs (ctxs_virtWrite ..)).coreOf]
    exact h
  · split
    · rw [coreOf_modCore_self, Option.isSome_map]
      exact h
    · rw [(sameBy_modCtx (v := (·.cores)) ..).coreOf]
      exact h

theorem coreOf_putRuns_isSome (rs : List Run) (h : (coreOf s asn core).isSome = true) :
    (coreOf (putRuns s asn core rs) asn core).isSome = true := by
  unfold putRuns
  induction rs generalizing s with
  | nil => exact h
  | cons r rs ih => exact ih (coreOf_putRun_isSome r h)

end writes

/-! ### The traffic of a plan -/

theorem trafficOnly_noteReads (e : Env) (l : List Nat) (s : State) : TrafficOnly s (e.noteReads l s) := by
  refine TrafficOnly.foldl (fun s x => ?_) _ s
  split
  · exact trafficOnly_envReads ..
  · exact .refl s

theorem trafficOnly_noteWrites (e : Env) (l : List Run) (s : State) : TrafficOnly s (e.noteWrites l s) :=
  TrafficOnly.foldl (fun s _ => trafficOnly_eachPiece (fun _ _ _ => (trafficOnly_sendOver ..).trans (trafficOnly_sendOver ..)) s)
    _ s

theorem TrafficOnly.ctxs {s t : State} (h : TrafficOnly s t) : t.ctxs = s.ctxs := by
  obtain ⟨r, rfl⟩ := h
  rfl

/-! ### The stages of an instruction's work -/

section stages

variable (x : Env) (f : Flight) (pages : List Nat) (p : Plan)

/-- The state once a plan's bytes are written and its traffic is counted. -/
def Env.wrote : State := x.noteWrites (p.runs x) (x.noteReads pages (putRuns x.s x.c.asn x.core (p.runs x)))

/-- The change of a context that takes a plan's accounts and the tiles it gives the taster. -/
def Plan.onCtx (c : Ctx) : Ctx := { c.count x.die (p.beats.add (stallBeats x.s f p)) with
  clusters := modAt c.clusters (x.core / 16) fun q => { q with taster := q.taster ++ p.taster.take (8 - x.cluster.taster.length) } }

/-- The state once a plan's flags, accounts and tiles are taken. -/
def Env.tallied : State := modCtx (orFlags (x.wrote pages p) x.c.asn p.flags) x.c.asn (p.onCtx x f)

/-- The state once a plan's own core has changed. -/
def Env.coreDone : State := modCore (x.tallied f pages p) x.c.asn x.core
  (p.onCore x (linesIn f.bufs (pages ++ runPages (p.runs x))) (p.taster.drop (8 - x.cluster.taster.length)))

/-- The state once the free values a plan draws are drawn. -/
def Env.drawn : State :=
  { x.coreDone f pages p with free := (x.coreDone f pages p).free + p.free + padsDrawn p.ews + b2n (mayStall f p) }

/-- The state once the tiles that a plan samples are counted (R408). -/
def Env.sampled : State :=
  if p.taster.isEmpty then x.drawn f pages p else bumpPrec (x.drawn f pages p) (x.prec + 0x80) p.taster.length

/-- The state an instruction's work leaves where every page takes its writes. -/
def Env.performed : State := noteWait (x.sampled f pages p) x.c.asn x.core p.wait

/-- An instruction's work is done where every page takes its writes, else it halts. -/
theorem perform_eq : perform x f pages p = match checkPages x (runPages (p.runs x)) with
    | .error h => haltFlight x h
    | .ok _ => x.performed f pages p := rfl

variable {x f pages p}

/-! ### Views of the contexts through the stages -/

/-- Clusters whose pools a change leaves alone. -/
theorem pools_modAt_same {l : List Cluster} {i : Nat} {g : Cluster → Cluster} (h : ∀ q, (g q).pool = q.pool) :
    (modAt l i g).map (·.pool) = l.map (·.pool) := by
  refine List.ext_getElem? fun j => ?_
  rw [List.getElem?_map, List.getElem?_map, modAt, List.getElem?_modify]
  split
  · cases l[j]? with
    | none => rfl
    | some q => exact congrArg some (h q)
  · cases l[j]? <;> rfl

theorem asn_onCtx (c : Ctx) : (p.onCtx x f c).asn = c.asn := rfl

theorem sameBy_wrote {β : Type} (v : Ctx → β) : SameBy v (putRuns x.s x.c.asn x.core (p.runs x)) (x.wrote pages p) :=
  .of_ctxs ((trafficOnly_noteReads ..).trans (trafficOnly_noteWrites ..)).ctxs

theorem sameBy_sampled {β : Type} (v : Ctx → β) : SameBy v (x.coreDone f pages p) (x.sampled f pages p) := by
  unfold Env.sampled
  split
  · exact .of_ctxs rfl
  · exact .of_ctxs rfl

/-- What a start that waits leaves of contexts: neither their clusters' tracks nor their cores to park show. -/
theorem sameBy_noteWait {β : Type} {v : Ctx → β} (s : State) (asn core : Nat) (w : FlightWait)
    (hq : ∀ c cl, v (openTracks c cl) = v c) (hp : ∀ c k, v (Ctx.notePark c k) = v c) :
    SameBy v s (noteWait s asn core w) := by
  unfold noteWait
  split
  · exact .refl s
  · exact sameBy_modCtx _ _ (hv := fun _ => hq ..)
  · exact sameBy_modCtx _ _ (fun c => asn_notePark c core) fun c => hp c core

theorem perform_ok (h : checkPages x (runPages (p.runs x)) = .ok ()) : perform x f pages p = x.performed f pages p := by
  rw [perform_eq, h]

/-- A view that shows nothing of a context that an instruction's work changes beside its own core's and cluster's bytes. -/
theorem sameBy_performed {β : Type} {v : Ctx → β} (hc : ∀ (c : Ctx) l, v { c with cores := l } = v c)
    (hf : ∀ (c : Ctx) n, v { c with flags := n } = v c) (ht : ∀ c, v (p.onCtx x f c) = v c)
    (hq : ∀ c cl, v (openTracks c cl) = v c) (hp : ∀ c k, v (Ctx.notePark c k) = v c) :
    SameBy v (putRuns x.s x.c.asn x.core (p.runs x)) (x.performed f pages p) :=
  ((sameBy_wrote v).trans (((sameBy_modCtx _ _ (hv := fun _ => hf ..)).trans
    (sameBy_modCtx _ _ (hf := asn_onCtx) (hv := ht))).trans (sameBy_modCore _ _ _ hc))).trans
    ((sameBy_sampled v).trans (sameBy_noteWait _ _ _ _ hq hp))

theorem view_notePark {β : Type} {v : Ctx → β} (c : Ctx) (k : Nat)
    (h : ∀ (c : Ctx) t r, v { c with toPark := t, raised := r } = v c := by exact fun _ _ _ => rfl) : v (c.notePark k) = v c := by
  unfold Ctx.notePark
  dsimp only
  split
  · exact h ..
  · exact h c _ c.raised

/-! ### What the work leaves of cores -/

theorem sameBy_tallied_cores : SameBy (·.cores) (putRuns x.s x.c.asn x.core (p.runs x)) (x.tallied f pages p) :=
  (sameBy_wrote _).trans ((sameBy_modCtx ..).trans (sameBy_modCtx ..))

theorem sameBy_performed_cores : SameBy (·.cores) (x.coreDone f pages p) (x.performed f pages p) :=
  (sameBy_sampled _).trans (sameBy_noteWait _ _ _ _ (fun _ _ => rfl) fun c k => view_notePark c k)

theorem coreOf_performed_self : coreOf (x.performed f pages p) x.c.asn x.core =
    (coreOf (putRuns x.s x.c.asn x.core (p.runs x)) x.c.asn x.core).map
      (p.onCore x (linesIn f.bufs (pages ++ runPages (p.runs x))) (p.taster.drop (8 - x.cluster.taster.length))) := by
  rw [sameBy_performed_cores.coreOf, Env.coreDone, coreOf_modCore_self, sameBy_tallied_cores.coreOf]

theorem coreOf_performed_other {a q : Nat} (h : ¬(a = x.c.asn ∧ q = x.core)) :
    coreOf (x.performed f pages p) a q = coreOf x.s a q := by
  rw [sameBy_performed_cores.coreOf, Env.coreDone, coreOf_modCore_other h, sameBy_tallied_cores.coreOf,
    coreOf_putRuns_other _ _ h]

/-! ### What the work leaves of its context -/

/-- What of a context an instruction's work leaves as it was. -/
def Ctx.keptView (c : Ctx) : List Nat × List (Option Bytes) × List Nat × List Nat × CtxState × Nat × Option Bool :=
  (c.sems, c.desc, c.counters, c.set, c.state, c.cls, c.moving)

theorem sameBy_performed_kept : SameBy Ctx.keptView (putRuns x.s x.c.asn x.core (p.runs x)) (x.performed f pages p) :=
  sameBy_performed (fun _ _ => rfl) (fun _ _ => rfl) (fun _ => rfl) (fun _ _ => rfl) fun c k => view_notePark c k

theorem sameBy_performed_pools :
    SameBy (fun c => c.clusters.map (·.pool)) (putRuns x.s x.c.asn x.core (p.runs x)) (x.performed f pages p) :=
  sameBy_performed (fun _ _ => rfl) (fun _ _ => rfl) (fun _ => pools_modAt_same fun _ => rfl)
    (fun _ _ => pools_modAt_same fun _ => rfl) fun c k => view_notePark (v := fun c => c.clusters.map (·.pool)) c k

/-- The flags a plan raises are added to those of its context (R132). -/
theorem flags_performed : (ctxOf (x.performed f pages p) x.c.asn).map (·.flags) =
    (ctxOf (putRuns x.s x.c.asn x.core (p.runs x)) x.c.asn).map fun c => c.flags ||| p.flags := by
  have hafter : SameBy (·.flags) (orFlags (x.wrote pages p) x.c.asn p.flags) (x.performed f pages p) :=
    ((sameBy_modCtx (f := p.onCtx x f) ..).trans (sameBy_modCore ..)).trans
      ((sameBy_sampled _).trans (sameBy_noteWait _ _ _ _ (fun _ _ => rfl) fun c k => view_notePark c k))
  rw [hafter.view, orFlags, ctxOf_modCtx_self (f := fun c => { c with flags := c.flags ||| p.flags }) (fun _ => rfl), Option.map_map]
  exact (sameBy_wrote fun c => c.flags ||| p.flags).view x.c.asn

/-! ### What the work leaves of the rest -/

/-- The registers once the tiles that a plan samples are counted (R408). -/
def Plan.regsAfter (p : Plan) (x : Env) (regs : List (Nat × Word)) : List (Nat × Word) :=
  if p.taster.isEmpty then regs else (bumpPrec { x.s with regs := regs } (x.prec + 0x80) p.taster.length).regs

theorem ctxsOnly_noteWait (s : State) (asn core : Nat) (w : FlightWait) : CtxsOnly s (noteWait s asn core w) := by
  unfold noteWait
  split
  · exact .refl s
  · exact ctxsOnly_modCtx ..
  · exact ctxsOnly_modCtx ..

/-- What a plan's bytes leave, with other contexts and traffic. -/
theorem coreDone_eq : ∃ c r, x.coreDone f pages p = { putRuns x.s x.c.asn x.core (p.runs x) with ctxs := c, traffic := r } := by
  obtain ⟨r, hr⟩ : TrafficOnly (putRuns x.s x.c.asn x.core (p.runs x)) (x.wrote pages p) :=
    (trafficOnly_noteReads ..).trans (trafficOnly_noteWrites ..)
  obtain ⟨c, hc⟩ : CtxsOnly (x.wrote pages p) (x.coreDone f pages p) :=
    ((ctxsOnly_modCtx ..).trans (ctxsOnly_modCtx ..)).trans (ctxsOnly_modCore ..)
  rw [hr] at hc
  exact ⟨c, r, hc⟩

/-- After its bytes are written, an instruction's work changes nothing but contexts, traffic, the count of free values, and the count of
sampled tiles. -/
theorem performed_eq : ∃ c r, x.performed f pages p =
    { putRuns x.s x.c.asn x.core (p.runs x) with
      ctxs := c, traffic := r, regs := p.regsAfter x (putRuns x.s x.c.asn x.core (p.runs x)).regs
      free := (putRuns x.s x.c.asn x.core (p.runs x)).free + p.free + padsDrawn p.ews + b2n (mayStall f p) } := by
  obtain ⟨c, r, h⟩ := coreDone_eq (x := x) (p := p) (f := f) (pages := pages)
  obtain ⟨c', hc'⟩ := ctxsOnly_noteWait (x.sampled f pages p) x.c.asn x.core p.wait
  refine ⟨c', r, hc'.trans ?_⟩
  rw [Env.sampled, Env.drawn, h, Plan.regsAfter]
  split <;> rfl

/-- An instruction's work, where every page takes its writes, is what `Worked` says. -/
theorem worked_performed {ops : UnitOps} (hk : (coreOf x.s x.c.asn x.core).isSome = true)
    (hpages : pages = x.pagesRead f.bufs fun y => ops.run y f.w) : Worked (x.performed f pages p) ops x f p := by
  have hput : Only [.dies, .moves, .ctxs, .mem] x.s (putRuns x.s x.c.asn x.core (p.runs x)) := only_putRuns ..
  obtain ⟨k, hk'⟩ := Option.isSome_iff_exists.1 (coreOf_putRuns_isSome (p.runs x) hk)
  obtain ⟨c₁, hc₁, -⟩ := Option.bind_eq_some_iff.1 hk'
  obtain ⟨c₂, hc₂, hkept⟩ := (sameBy_performed_kept (f := f) (pages := pages)).exists_ctx hc₁
  have hpools := (sameBy_performed_pools (x := x) (p := p) (f := f) (pages := pages)).view x.c.asn
  have hflags := flags_performed (x := x) (p := p) (f := f) (pages := pages)
  rw [hc₁, hc₂, Option.map_some, Option.map_some, Option.some.injEq] at hpools hflags
  simp only [Ctx.keptView, Prod.mk.injEq] at hkept
  obtain ⟨hsems, hdesc, hcounters, hset, hstate, -⟩ := hkept
  obtain ⟨c, r, heq⟩ := performed_eq (x := x) (p := p) (f := f) (pages := pages)
  refine ⟨⟨k, hk', ?self⟩, fun a q h => coreOf_performed_other h, ⟨c₁, c₂, hc₁, hc₂, hflags, hpools, hsems, hdesc, hcounters, hset, hstate⟩,
    ?mem, ?only, ?free⟩
  case self => rw [coreOf_performed_self, hk', Option.map_some, hpages]
  case mem => rw [heq]; exact ⟨rfl, rfl, rfl, rfl⟩
  case only =>
    have hrest : Only (if p.taster = [] then [.ctxs, .ids, .traffic] else [.regs, .ctxs, .ids, .traffic])
        (putRuns x.s x.c.asn x.core (p.runs x)) (x.performed f pages p) := by
      rw [heq, Plan.regsAfter]
      split
      · refine ⟨rfl, fun y hy => ?_⟩
        cases y <;> simp_all [Part.same]
      · refine ⟨rfl, fun y hy => ?_⟩
        cases y <;> simp_all [Part.same]
    split
    · rw [if_pos ‹_›] at hrest
      exact hput.mono.trans hrest.mono
    · rw [if_neg ‹_›] at hrest
      exact hput.mono.trans hrest.mono
  case free =>
    have hfree : (putRuns x.s x.c.asn x.core (p.runs x)).free = x.s.free := (hput.part .ids).2
    rw [heq, ← hfree]

end stages

end Sys2Proof.Machine
end

section
/-! An instruction of a unit issues and, with nothing in flight before it, starts at once and does its work. -/

namespace Sys2Proof.Machine

/-! ### A fetched word has 128 bits -/

theorem leNat_lt (b : Bytes) : leNat b < 2 ^ (8 * b.length) := by
  induction b with
  | nil => exact Nat.one_pos
  | cons x t ih =>
    have hx : x.toNat < 256 := x.isLt
    have hpow : 2 ^ (8 * (x :: t).length) = 256 * 2 ^ (8 * t.length) := by
      rw [List.length_cons, Nat.mul_succ, Nat.pow_add, Nat.mul_comm]
    unfold leNat
    omega

/-- The pieces of a range are no longer than the range. -/
theorem sum_vaPieces_le (va len n : Nat) : ((vaPieces va len n).map (·.2.2)).sum ≤ len := by
  induction n generalizing va len with
  | zero => exact Nat.zero_le _
  | succ n ih =>
    unfold vaPieces
    split
    · exact Nat.zero_le _
    · have := ih (va + min len (pageBytes - va % pageBytes)) (len - min len (pageBytes - va % pageBytes))
      simp only [List.map_cons, List.sum_cons]
      omega

theorem length_readPieces {s : State} {asn : Nat} {l : List (Nat × Nat × Nat)} {b : Bytes} (h : readPieces s asn l = .ok b) :
    b.length = (l.map (·.2.2)).sum := by
  induction l generalizing b with
  | nil =>
    cases h
    rfl
  | cons x t ih =>
    obtain ⟨vpn, o, n⟩ := x
    unfold readPieces at h
    split at h
    · cases h
    · split at h
      · cases h
      · split at h
        · cases h
        · split at h
          · cases h
          · rename_i r hr
            cases h
            simp [Mem.readN, ih hr]

theorem fetchWord_lt {e : Env} {w : Nat} (h : fetchWord e = .ok w) : w < 2 ^ 128 := by
  unfold fetchWord at h
  split at h
  · cases h
  · split at h
    · rename_i b hb
      cases h
      have hlen : b.length ≤ 16 := Nat.le_trans (Nat.le_of_eq (length_readPieces hb)) (sum_vaPieces_le ..)
      exact Nat.lt_of_lt_of_le (leNat_lt b) (Nat.pow_le_pow_right Nat.two_pos (by omega))
    · cases h

/-! ### An instruction that issues -/

/-- The core an instruction issues on, once what its checks read has met the errors in its cells: only the state differs. -/
structure IssuesOn (s : State) (asn core : Nat) (e e₁ : Env) : Prop where
  reads : Reads s e₁.s
  atCore : e₁.core = core
  ofAsn : e₁.c.asn = asn
  ctx : ctxOf e₁.s asn = some e₁.c
  own : coreOf e₁.s asn core = some e₁.k
  job : e₁.c.job = some e₁.j
  seated : e₁.c.seatedNow = true
  free : e₁.k.hold = none
  run : e₁.k.run = .running
  same : e₁.k = e.k
  noPiece : e₁.k.flight.any Flight.isPiece = false

theorem issuesOn {s : State} {asn core w : Nat} {e e₁ : Env} {ops : UnitOps} {pr : Prep} {n : Issued} (hf : Fetches s asn core e w)
    (hi : Issues ops e e₁ w pr n) : IssuesOn s asn core e e₁ := by
  obtain ⟨hr, hcore, hctx, hasn, hk, hj, hrun, hseat, hhold, hpiece⟩ := rowEnv_facts hf.env
  obtain ⟨t, ht, hrt⟩ := met_env e fun x => ops.check x w
  rw [hi.met, ht]
  have hreads : Reads s t := hr.trans hrt
  exact ⟨hreads, hcore, hasn, (hreads.ctxOf _).trans hctx, (hreads.coreOf ..).trans hk, hj, hseat, hhold, hrun, rfl, hpiece⟩

section placing

variable (e : Env) (w : Nat) (pr : Prep) (n : Issued) (pages : List Nat)

/-- Issuing changes contexts, traffic and the number of the next flight. -/
theorem place_eq : ∃ c r, place e w pr n pages = { e.s with ctxs := c, traffic := r, nextId := e.s.nextId + 1 } := by
  obtain ⟨c, hc⟩ := ctxsOnly_noteFirst e
  obtain ⟨r, hr⟩ := trafficOnly_noteReads e pages (noteFirst e)
  rw [hc] at hr
  exact ⟨_, r, by rw [place, hc, hr]; rfl⟩

theorem sameBy_noteReads_noteFirst {β : Type} (v : Ctx → β) : SameBy v (noteFirst e) (e.noteReads pages (noteFirst e)) :=
  .of_ctxs (trafficOnly_noteReads ..).ctxs

theorem coreOf_place_self : coreOf (place e w pr n pages) e.c.asn e.core =
    (coreOf e.s e.c.asn e.core).map (Core.issue (newFlight e w pr n) n) := by
  have h : coreOf (place e w pr n pages) e.c.asn e.core =
      coreOf (modCore (e.noteReads pages (noteFirst e)) e.c.asn e.core (Core.issue (newFlight e w pr n) n)) e.c.asn e.core := rfl
  rw [h, coreOf_modCore_self, (sameBy_noteReads_noteFirst ..).coreOf, coreOf_noteFirst]

theorem coreOf_place_other {a q : Nat} (h : ¬(a = e.c.asn ∧ q = e.core)) :
    coreOf (place e w pr n pages) a q = coreOf e.s a q := by
  have h' : coreOf (place e w pr n pages) a q =
      coreOf (modCore (e.noteReads pages (noteFirst e)) e.c.asn e.core (Core.issue (newFlight e w pr n) n)) a q := rfl
  rw [h', coreOf_modCore_other h, (sameBy_noteReads_noteFirst ..).coreOf, coreOf_noteFirst]

/-- What decides whether a context's instructions may start. -/
def Ctx.startView (c : Ctx) : CtxState × Option Bool × Bool := (c.state, c.moving, c.job.isSome)

theorem sameBy_noteFirst_start : SameBy Ctx.startView e.s (noteFirst e) := by
  unfold noteFirst
  split
  · exact .refl _
  · refine sameBy_modCtx _ _ (fun _ => view_ite (v := (·.asn)) rfl) fun c => ?_
    dsimp only
    split
    · simp [Ctx.startView, Ctx.countLow, Ctx.count]
    · simp [Ctx.startView]

theorem sameBy_place_start : SameBy Ctx.startView e.s (place e w pr n pages) :=
  (sameBy_noteFirst_start e).trans ((sameBy_noteReads_noteFirst ..).trans ((sameBy_modCore ..).trans (.of_ctxs rfl)))

theorem seatedNow_congr {c d : Ctx} (h : d.startView = c.startView) : d.seatedNow = c.seatedNow := by
  simp only [Ctx.startView, Prod.mk.injEq] at h
  obtain ⟨hstate, hmoving, -⟩ := h
  simp only [Ctx.seatedNow, hstate, hmoving]

end placing

/-- What an instruction that issues leaves is what `InFlight` says. -/
theorem inFlight_place {e : Env} {w : Nat} {pr : Prep} {n : Issued} (pages : List Nat) (hk : coreOf e.s e.c.asn e.core = some e.k) :
    InFlight (place e w pr n pages) e w pr n := by
  obtain ⟨c, r, heq⟩ := place_eq e w pr n pages
  refine ⟨⟨newFlight e w pr n, _, ?own, rfl, rfl, rfl, rfl, rfl, rfl, rfl, rfl, rfl⟩,
    fun a q h => coreOf_place_other e w pr n pages h, ?mem, ?only, ?next⟩
  case own => rw [coreOf_place_self, hk, Option.map_some]
  case mem => rw [heq]; exact ⟨rfl, rfl, rfl⟩
  case next => rw [heq]
  case only =>
    rw [heq]
    refine ⟨rfl, fun x hx => ?_⟩
    cases x <;> simp_all [Part.same]

/-! ### An instruction that starts -/

/-- An instruction in flight that may start runs. -/
theorem tryStart_begins {s : State} {asn core id : Nat} {c : Ctx} {k : Core} {j : Job} {f : Flight} {ops : UnitOps}
    (hc : ctxOf s asn = some c) (hk : coreOf s asn core = some k) (hj : c.job = some j)
    (hf : (k.flight.find? fun f => f.id == id) = some f) (hb : mayBegin c k f = true) (ho : unitOps f.w = some ops) :
    tryStart asn core s id = runFlight (envAt s c core k j f) f ops.run := by
  simp only [tryStart, hc, hk, hj, hf, hb, ho, if_true, Option.elim_some]

/-- An instruction that is alone in flight has nothing before it to wait for. -/
theorem canBegin_alone (k : Core) (f : Flight) : canBegin k [] f = true := by
  have hfree : (freeEngine []).isSome = true := rfl
  simp [canBegin, enginesReady, tablesReady, slotsReady, hfree]

/-- A core with one instruction in flight lets it start if it may, and grants it tracker entries. -/
theorem goCore_single {s : State} {asn core id : Nat} {k : Core} {c : Ctx} (hk : coreOf s asn core = some k)
    (hf : k.flight.map (·.id) = [id]) (hc : ctxOf (tryStart asn core s id) asn = some c) :
    goCore asn core s = notePeak (modCore (tryStart asn core s id) asn core
      (Core.grant (trackerRoom (tryStart asn core s id) (c.dieOfCore core) (c.cls == 0)))) (c.dieOfCore core) := by
  simp only [goCore, hk, hf, List.foldl_cons, List.foldl_nil, hc]

/-- An instruction whose reads succeed and whose pages take its writes does its work. -/
theorem runFlight_runs {ops : UnitOps} {x x₁ : Env} {f : Flight} {p : Plan} (h : Runs ops x x₁ f p) :
    runFlight x f ops.run = x₁.performed f (x₁.pagesRead f.bufs fun y => ops.run y f.w) p := by
  unfold runFlight
  dsimp only
  rw [← h.met, h.run]
  exact perform_ok h.pages

/-- What the work of an instruction leaves of the context whose core it runs on: the die and the class. -/
theorem exists_ctx_performed {x : Env} {f : Flight} {pages : List Nat} {p : Plan} {c : Ctx} (hc : ctxOf x.s x.c.asn = some c) :
    ∃ d, ctxOf (x.performed f pages p) x.c.asn = some d ∧ d.set = c.set ∧ d.cls = c.cls := by
  obtain ⟨c₁, hc₁, hput⟩ := (sameBy_putRuns (v := Ctx.keptView) x.s x.c.asn x.core (p.runs x)).exists_ctx hc
  obtain ⟨d, hd, hkept⟩ := (sameBy_performed_kept (f := f) (pages := pages)).exists_ctx hc₁
  have h : d.keptView = c.keptView := hkept.trans hput
  simp only [Ctx.keptView, Prod.mk.injEq] at h
  obtain ⟨-, -, -, hset, -, hcls, -⟩ := h
  exact ⟨d, hd, hset, hcls⟩

/-! ### A unit row -/

/-- The first instruction in flight of a core, as it stands there. -/
def firstFlight (e : Env) (w : Nat) (pr : Prep) (n : Issued) : Flight :=
  { newFlight e w pr n with fill := onEngines (newFlight e w pr n).w && enginesReady e.k.flight (newFlight e w pr n) }

theorem w_firstFlight {e : Env} {w : Nat} {pr : Prep} {n : Issued} (hw : w < 2 ^ 128) : (firstFlight e w pr n).w = w := by
  simpa [Flight.w, firstFlight, newFlight] using hw

/-- A core with nothing in flight has one instruction in flight once it issues one. -/
theorem flight_issue {e : Env} {w : Nat} {pr : Prep} {n : Issued} (h : e.k.flight = []) :
    (Core.issue (newFlight e w pr n) n e.k).flight = [firstFlight e w pr n] := by
  simp [Core.issue, firstFlight, h]

section starts

variable {s : State} {asn core : Nat} {e e₁ : Env} {w : Nat} {pr : Prep} {n : Issued} {ops : UnitOps}

/-- The state of a context whose core has issued an instruction with nothing in flight before it. -/
structure Alone (u : State) (asn core : Nat) (f : Flight) (c : Ctx) (k : Core) (j : Job) : Prop where
  ctx : ctxOf u asn = some c
  own : coreOf u asn core = some k
  job : c.job = some j
  seated : c.seatedNow = true
  flight : k.flight = [f]
  mayStart : k.hold = none ∧ k.run = .running ∧ f.started = false ∧ f.isPiece = false

theorem alone_place (hon : IssuesOn s asn core e e₁) (hempty : e.k.flight = []) (pages : List Nat) :
    ∃ c k j, Alone (place e₁ w pr n pages) asn core (firstFlight e₁ w pr n) c k j := by
  obtain ⟨-, rfl, rfl, hctx, hown, hjob, hseat, hhold, hrun, hsame, -⟩ := hon
  have hempty₁ : e₁.k.flight = [] := by rw [hsame, hempty]
  obtain ⟨c, hc, hview⟩ := (sameBy_place_start e₁ w pr n pages).exists_ctx hctx
  have hcjob : c.job.isSome = true := by
    simp only [Ctx.startView, Prod.mk.injEq] at hview
    obtain ⟨-, -, hj⟩ := hview
    rw [hj, hjob, Option.isSome_some]
  obtain ⟨j, hj⟩ := Option.isSome_iff_exists.1 hcjob
  refine ⟨c, Core.issue (newFlight e₁ w pr n) n e₁.k, j, hc, ?_, hj, (seatedNow_congr hview).trans hseat, flight_issue hempty₁,
    hhold, hrun, rfl, rfl⟩
  rw [coreOf_place_self, hown, Option.map_some]

variable {u : State} {f : Flight} {c : Ctx} {k : Core} {j : Job} (h : Alone u asn core f c k j)
include h

theorem Alone.found : (k.flight.find? fun g => g.id == f.id) = some f := by
  simp [h.flight]

theorem Alone.mayBegin : mayBegin c k f = true := by
  obtain ⟨hhold, hrun, hstarted, hpiece⟩ := h.mayStart
  have hbefore : (k.flight.takeWhile fun g => g.id != f.id) = [] := by simp [h.flight]
  have hissues : k.isParked = false := by simp [Core.isParked, Core.issues, hrun, hhold, h.flight, hpiece]
  simp [Machine.mayBegin, h.seated, hstarted, hbefore, canBegin_alone, hhold, hissues]

theorem Alone.flightEnv_eq : flightEnv u asn core f.id = some (envAt u c core k j f, f) := by
  simp only [flightEnv, h.ctx, h.own, h.job, h.found, h.seated, if_true]

/-- What an instruction reads from is the state of its context with the errors met in cells. -/
theorem Alone.reads {x₁ : Env} {p : Plan} (hr : Runs ops (envAt u c core k j f) x₁ f p) :
    Reads u x₁.s ∧ x₁.c = c ∧ x₁.core = core ∧ x₁.c.asn = asn := by
  obtain ⟨t, ht, hreads⟩ := met_env (envAt u c core k j f) fun y => ops.run y f.w
  rw [hr.met.trans ht]
  exact ⟨hreads, rfl, rfl, asn_of_ctxOf h.ctx⟩

/-- It starts at once and, where its work can be done, does it; then its transactions take tracker entries. -/
theorem Alone.goCore_eq (ho : unitOps f.w = some ops) {x₁ : Env} {p : Plan} (hr : Runs ops (envAt u c core k j f) x₁ f p) :
    let t := x₁.performed f (x₁.pagesRead f.bufs fun y => ops.run y f.w) p
    goCore asn core u = granted t x₁ ∧ Worked t ops x₁ f p := by
  intro t
  obtain ⟨hxs, hxc, hcore, hasn⟩ := h.reads hr
  have hstart : tryStart asn core u f.id = x₁.performed f (x₁.pagesRead f.bufs fun y => ops.run y f.w) p := by
    rw [tryStart_begins h.ctx h.own h.job h.found h.mayBegin ho, runFlight_runs hr]
  have hctx : ctxOf x₁.s x₁.c.asn = some c := by rw [hasn, hxs.ctxOf, h.ctx]
  obtain ⟨d, hd, hset, hcls⟩ := exists_ctx_performed (f := f) (pages := x₁.pagesRead f.bufs fun y => ops.run y f.w) (p := p) hctx
  refine ⟨?_, worked_performed (f := f) (p := p) ?_ rfl⟩
  · rw [hasn, ← hstart] at hd
    rw [goCore_single h.own (by rw [h.flight]; rfl) hd, hstart, granted, Env.die, hasn, hcore, hxc, Ctx.dieOfCore, Ctx.dieOfCore,
      hset, hcls]
  · rw [hasn, hcore, hxs.coreOf, h.own, Option.isSome_some]

end starts

/-- A row whose meaning places each instruction that issues starts as `UnitStarts` says. -/
theorem unitStarts {i : Instr} {ops : UnitOps} {s : State} {asn core w : Nat} {e : Env} (hf : Fetches s asn core e w)
    (ho : unitOps w = some ops)
    (hx : ∀ e₁ pr n, Issues ops e e₁ w pr n → exec i s = .next (goCore asn core (placed ops e₁ w pr n))) :
    UnitStarts i ops s asn core e w := by
  intro e₁ pr n hi
  have hon := issuesOn hf hi
  refine ⟨hx e₁ pr n hi, inFlight_place _ ?_, fun hempty => ?_⟩
  · rw [hon.ofAsn, hon.atCore, hon.own]
  · obtain ⟨c, k, j, h⟩ := alone_place (w := w) (pr := pr) (n := n) hon hempty (e₁.pagesRead pr.bufs fun x => ops.check x w)
    have hw : (firstFlight e₁ w pr n).w = w := w_firstFlight (fetchWord_lt hf.word)
    refine ⟨_, _, h.flightEnv_eq, hw, hon.same ▸ rfl, fun x₁ p hr => ?_⟩
    obtain ⟨hgo, hworked⟩ := h.goCore_eq (by rw [hw]; exact ho) hr
    exact ⟨_, by rw [hx e₁ pr n hi, ← hgo]; rfl, hworked⟩

/-- What the row of a unit does for an instruction that issues (R157). -/
theorem unitRow_issues {s : State} {asn core w : Nat} {e e₁ : Env} {mine : Nat → Bool} {ops : UnitOps} {pr : Prep} {n : Issued}
    (hf : Fetches s asn core e w) (hm : mine w = true) (ho : unitOps w = some ops) (hi : Issues ops e e₁ w pr n) :
    unitRow s asn core mine = goCore asn core (placed ops e₁ w pr n) := by
  have hon := issuesOn hf hi
  rw [unitRow_eq hf hm ho hi, hon.ofAsn, hon.atCore]

/-- A row of unit work whose meaning is `unitRow` completes. -/
theorem unitCompletes {c : Nat → Nat → Instr} {op sub : Nat}
    (hops : ∀ w, isRow op sub w = true → ∃ ops, unitOps w = some ops)
    (hx : ∀ s asn core, (c asn core).wf = true → exec (c asn core) s = .next (unitRow s asn core (isRow op sub))) :
    UnitCompletes c op sub := by
  intro s asn core e w hw hf hrow
  obtain ⟨ops, ho⟩ := hops w hrow
  exact ⟨ops, ho, unitStarts hf ho fun e₁ pr n hi => by rw [hx s asn core hw, unitRow_issues hf hrow ho hi]⟩

/-- The opcode and SUBOP of a word of a row. -/
theorem rowOf_of_isRow {op sub w : Nat} (h : isRow op sub w = true) : rowOf w = (op, sub) := by
  simpa [isRow, rowOf] using h

end Sys2Proof.Machine
end

section
/-! The rows of the units complete: copies and atomics, vectors and functions, convolution and attention, products. -/

namespace Sys2Proof.Machine

/-- The unit work of a row, where the table of unit work lists the row. -/
theorem exists_unitOps {op sub : Nat} (h : ∀ w, rowOf w = (op, sub) → (unitOps w).isSome = true) (w : Nat)
    (hrow : isRow op sub w = true) : ∃ ops, unitOps w = some ops :=
  Option.isSome_iff_exists.1 (h w (rowOf_of_isRow hrow))

/-- Settles O21: each of these rows is `unitRow` on the words of its opcode and SUBOP. -/
theorem copiesComplete : Obligations.CopiesComplete := by
  unfold Obligations.CopiesComplete
  refine ⟨unitCompletes ?_ fun _ _ _ => exec_loadCopy_next, unitCompletes ?_ fun _ _ _ => exec_loadXreg_next,
    unitCompletes ?_ fun _ _ _ => exec_storeCopy_next, unitCompletes ?_ fun _ _ _ => exec_storeAddInt32_next,
    unitCompletes ?_ fun _ _ _ => exec_storeMinInt32_next, unitCompletes ?_ fun _ _ _ => exec_storeMaxInt32_next,
    unitCompletes ?_ fun _ _ _ => exec_storeCas_next, unitCompletes ?_ fun _ _ _ => exec_storeAddFloat_next,
    unitCompletes ?_ fun _ _ _ => exec_storeOrdered_next, unitCompletes ?_ fun _ _ _ => exec_storeAddInt64_next,
    unitCompletes ?_ fun _ _ _ => exec_leesCheck_next⟩
  all_goals exact exists_unitOps fun w h => by rw [unitOps, h]; rfl

/-! ### Rows that a mode epoch may hold -/

section epoch

variable {s : State} {asn core w : Nat} {e : Env} {mine : Nat → Bool} {taster : Bool} (hf : Fetches s asn core e w)
  (hm : mine w = true)
include hf hm

/-- A row that no epoch holds is a unit's row. -/
theorem epochRow_free (h : ((!taster || e.window.isSome) && epochHolds e taster) = false) :
    epochRow s asn core mine taster = unitRow s asn core mine := by
  rw [epochRow, unitRow, tileRow_eq hf hm, tileRow_eq hf hm, h]
  rfl

/-- A row that an epoch holds makes its core wait (R680). -/
theorem epochRow_held (h : ((!taster || e.window.isSome) && epochHolds e taster) = true) :
    epochRow s asn core mine taster = modCore e.s asn core fun k => { k with run := .epochHold } := by
  rw [epochRow, tileRow_eq hf hm, h]
  rfl

end epoch

/-- Settles O22: these rows are `unitRow` on their words; FUNC APPLY is one that a vintage epoch may hold (`epochRow_free`,
`epochRow_held`). -/
theorem vectorsComplete : Obligations.VectorsComplete := by
  unfold Obligations.VectorsComplete
  refine ⟨unitCompletes ?_ fun _ _ _ => exec_foldStats_next, unitCompletes ?_ fun _ _ _ => exec_foldMerge_next,
    unitCompletes ?_ fun _ _ _ => exec_foldNorm_next, unitCompletes ?_ fun _ _ _ => exec_vecEw_next,
    unitCompletes ?_ fun _ _ _ => exec_vecRowb_next, unitCompletes ?_ fun _ _ _ => exec_vecColb_next,
    unitCompletes ?_ fun _ _ _ => exec_vecReduce_next, unitCompletes ?_ fun _ _ _ => exec_funcReload_next,
    unitCompletes ?_ fun _ _ _ => exec_blendRun_next, unitCompletes ?_ fun _ _ _ => exec_blendLoad_next, ?apply⟩
  case apply =>
    intro s asn core e w hw hf hrow
    refine ⟨fun hfree => ?_, fun hheld => ?_⟩
    · obtain ⟨ops, ho⟩ : ∃ ops, unitOps w = some ops := exists_unitOps (fun w h => by rw [unitOps, h]; rfl) w hrow
      refine ⟨ops, ho, unitStarts hf ho fun e₁ pr n hi => ?_⟩
      rw [exec_funcApply_next hw, epochRow_free (taster := false) hf hrow (by simpa using hfree), unitRow_issues hf hrow ho hi]
    · rw [exec_funcApply_next hw, epochRow_held (taster := false) hf hrow (by simpa using hheld)]
  all_goals exact exists_unitOps fun w h => by rw [unitOps, h]; rfl

/-- A core whose PIECE waits issues nothing (R277, R278). -/
theorem rowEnv_of_piece {s : State} {asn core : Nat} {k : Core} {f : Flight} (hk : coreOf s asn core = some k) (hf : f ∈ k.flight)
    (hp : f.isPiece = true) : rowEnv s asn core = none := by
  rcases hrow : rowEnv s asn core with _ | e
  · rfl
  · obtain ⟨-, -, -, -, hk', -, -, -, -, hno⟩ := rowEnv_facts hrow
    rw [hk, Option.some.injEq] at hk'
    rw [← hk', List.any_eq_false] at hno
    exact absurd hp (hno f hf)

/-- Settles O23: these rows are `unitRow` on their words; a core whose PIECE waits has no environment to issue in
(`rowEnv_of_piece`). -/
theorem convolutionAndAttentionComplete : Obligations.ConvolutionAndAttentionComplete := by
  unfold Obligations.ConvolutionAndAttentionComplete
  refine ⟨unitCompletes ?_ fun _ _ _ => exec_convolve_next, unitCompletes ?_ fun _ _ _ => exec_poolMax_next,
    unitCompletes ?_ fun _ _ _ => exec_poolAvg_next, unitCompletes ?_ fun _ _ _ => exec_poolNearest_next,
    unitCompletes ?_ fun _ _ _ => exec_attnWindow_next, unitCompletes ?_ fun _ _ _ => exec_attnCross_next,
    unitCompletes ?_ fun _ _ _ => exec_attnPiece_next, ?piece⟩
  case piece =>
    intro s asn core k f pc hk hf hwait
    exact rowEnv_of_piece hk hf (by simp [Flight.isPiece, hwait])
  all_goals exact exists_unitOps fun w h => by rw [unitOps, h]; rfl

/-! ### PROD -/

theorem getReg_congr {s t : State} (h : t.regs = s.regs) (off : Nat) : getReg t off = getReg s off := by
  rw [getReg, getReg, h]

/-- The register of sampled tiles after an instruction's work, and after tracker entries are granted (R408). -/
theorem getReg_granted_performed {x : Env} {f : Flight} {pages : List Nat} {p : Plan} (ht : p.taster ≠ []) :
    getReg (granted (x.performed f pages p) x) (x.prec + 0x80) =
      BitVec.ofNat 32 (min ((getReg x.s (x.prec + 0x80)).toNat + p.taster.length) (2 ^ 32 - 1)) := by
  obtain ⟨c, r, heq⟩ := performed_eq (x := x) (p := p) (f := f) (pages := pages)
  have hput : (putRuns x.s x.c.asn x.core (p.runs x)).regs = x.s.regs := (only_putRuns ..).part .regs
  have hregs : (granted (x.performed f pages p) x).regs = (bumpPrec x.s (x.prec + 0x80) p.taster.length).regs := by
    have : (granted (x.performed f pages p) x).regs = (x.performed f pages p).regs := rfl
    rw [this, heq, Plan.regsAfter, if_neg (by simpa using ht), hput]
  rw [getReg_congr hregs]
  exact getReg_setReg_self ..

/-- Settles O24: PROD is a row that a taster epoch may hold; the tiles it samples are counted as its work is done
(`getReg_granted_performed`), before which no register changes. -/
theorem productCompletes : Obligations.ProductCompletes := by
  unfold Obligations.ProductCompletes
  intro s asn core e w hw hf hrow
  refine ⟨fun hfree => ?free, fun hheld => ?held⟩
  case held => rw [exec_matProd_next hw, epochRow_held (taster := true) hf hrow hheld]
  case free =>
    obtain ⟨ops, ho⟩ : ∃ ops, unitOps w = some ops := exists_unitOps (fun w h => by rw [unitOps, h]; rfl) w hrow
    have hx : ∀ e₁ pr n, Issues ops e e₁ w pr n → exec (.matProd asn core) s = .next (goCore asn core (placed ops e₁ w pr n)) :=
      fun e₁ pr n hi => by
        rw [exec_matProd_next hw, epochRow_free (taster := true) hf hrow hfree, unitRow_issues hf hrow ho hi]
    refine ⟨ops, ho, unitStarts hf ho hx, fun e₁ pr n x f x₁ p t hi hempty hflight hr hnext ht => ?_⟩
    have hon := issuesOn hf hi
    obtain ⟨c, k, j, h⟩ := alone_place (w := w) (pr := pr) (n := n) hon hempty (e₁.pagesRead pr.bufs fun x => ops.check x w)
    obtain ⟨rfl, rfl⟩ : envAt (placed ops e₁ w pr n) c core k j (firstFlight e₁ w pr n) = x ∧ firstFlight e₁ w pr n = f :=
      Prod.mk.inj (Option.some.inj (h.flightEnv_eq.symm.trans hflight))
    have hw' : (firstFlight e₁ w pr n).w = w := w_firstFlight (fetchWord_lt hf.word)
    obtain ⟨hgo, -⟩ := h.goCore_eq (by rw [hw']; exact ho) hr
    obtain rfl : goCore asn core (placed ops e₁ w pr n) = t := Host.Outcome.next.inj ((hx e₁ pr n hi).symm.trans hnext)
    have hregs : x₁.s.regs = s.regs := by
      obtain ⟨cs, tr, hplace⟩ := place_eq e₁ w pr n (e₁.pagesRead pr.bufs fun x => ops.check x w)
      have hplaced : (place e₁ w pr n (e₁.pagesRead pr.bufs fun x => ops.check x w)).regs = e₁.s.regs := by rw [hplace]
      exact ((h.reads hr).1.only.part .regs).trans (hplaced.trans (hon.reads.only.part .regs))
    rw [← getReg_congr hregs, ← getReg_granted_performed (f := firstFlight e₁ w pr n)
      (pages := x₁.pagesRead (firstFlight e₁ w pr n).bufs fun y => ops.run y (firstFlight e₁ w pr n).w) ht, ← hgo]
    rfl

end Sys2Proof.Machine
end

section
/-! The values that CAS and LOAD XREG give. -/

namespace Sys2Proof.Machine

/-- What CAS does once its descriptor and its target's first element are known (R144). -/
theorem casRun_eq {e : Env} {w : Nat} {b : Desc} {y : Nat} (hb : slotDesc e (bits w 47 40) = .ok b)
    (hy : nowPattern e (b.opnd (e.xn (fXod w))) [0, 0, 0, 0] = .ok y) :
    casRun e w = if y = e.xn (fXidx w) then
        (wrPattern (b.opnd (e.xn (fXod w))) [0, 0, 0, 0] (e.xn (fXstep w))).map fun ws => { ews := ws, casOk := some true }
      else .ok { casOk := some false } := by
  simp only [casRun, hb, hy, bind, Except.bind, Except.map]

/-- A write of one element that passes its check is one write at the element's address. -/
theorem wrPattern_ok {o : Opnd} {ix : List Nat} {v : Nat} {ws : List EW} (h : wrPattern o ix v = .ok ws) :
    ws = [{ space := o.d.space, addr := o.bitAddr ix, w := o.d.fmt.width, v := v }] := by
  unfold wrPattern at h
  dsimp only at h
  split at h
  · cases h
    rfl
  · cases h

/-- Settles O26: the branches of `casRun_eq`, the write of which is `wrPattern_ok`. -/
theorem compareAndSwap : Obligations.CompareAndSwap := by
  unfold Obligations.CompareAndSwap
  intro e w b p y hb hrun hy
  rw [casRun_eq hb hy] at hrun
  by_cases heq : y = e.xn (fXidx w)
  · rw [if_pos heq] at hrun
    cases hws : wrPattern (b.opnd (e.xn (fXod w))) [0, 0, 0, 0] (e.xn (fXstep w)) with
    | error h => simp [hws, Except.map] at hrun
    | ok ws =>
      obtain rfl : { ews := ws, casOk := some true } = p := by simpa [hws, Except.map] using hrun
      refine ⟨rfl, rfl, fun _ => ⟨rfl, ?_⟩, fun hne => absurd heq hne⟩
      rw [wrPattern_ok hws]
      rfl
  · rw [if_neg heq] at hrun
    cases hrun
    exact ⟨rfl, rfl, fun h => absurd h heq, fun _ => ⟨rfl, rfl⟩⟩

/-- Settles O27: what `xregRun` gives once its descriptor and its source are known. -/
theorem loadRegisters : Obligations.LoadRegisters := by
  unfold Obligations.LoadRegisters
  intro e w a p src ha hrun hsrc
  simp only [xregRun, ha, hsrc, bind, Except.bind, Except.ok.injEq] at hrun
  subst hrun
  exact ⟨rfl, rfl⟩

end Sys2Proof.Machine
end

section
/-! Dies and the contexts on them: what a change of one die leaves of the others, which operations keep every die's state, which
leave no context more than there was, and what a die fault comes to. -/

namespace Sys2Proof.Machine

/-! ### One die -/

section dies

variable {s t : State} {d e : Nat} {f : Die → Die}

theorem getDie_congr (h : t.dies = s.dies) (d : Nat) : getDie t d = getDie s d := by
  rw [getDie, getDie, h]

theorem getDie_modDie_self (h : d < s.dies.length) : getDie (modDie s d f) d = f (getDie s d) := by
  simp only [getDie, modDie, modAt, List.getD_eq_getElem?_getD, List.getElem?_modify_eq]
  simp [List.getElem?_eq_getElem h]

theorem getDie_modDie_other (h : e ≠ d) : getDie (modDie s d f) e = getDie s e := by
  simp only [getDie, modDie, modAt, List.getD_eq_getElem?_getD, List.getElem?_modify, if_neg h.symm, id_map']

/-- A change of a die that keeps a field keeps that field of every die. -/
theorem dieField_modDie {β : Type} (v : Die → β) (hf : ∀ x, v (f x) = v x) (d e : Nat) :
    v (getDie (modDie s d f) e) = v (getDie s e) := by
  by_cases h : e = d
  · subst h
    by_cases hl : e < s.dies.length
    · rw [getDie_modDie_self hl, hf]
    · have : modAt s.dies e f = s.dies := List.modify_eq_self (Nat.le_of_not_lt hl)
      simp only [getDie, modDie, this]
  · rw [getDie_modDie_other h]

theorem length_modDie : (modDie s d f).dies.length = s.dies.length := List.length_modify ..

/-- A change of every die that keeps a field keeps that field of each. -/
theorem dieField_map {β : Type} (v : Die → β) {g : Nat → Die → Die} (hg : ∀ i x, v (g i x) = v x) (e : Nat)
    (h : t.dies = s.dies.mapIdx g) : v (getDie t e) = v (getDie s e) := by
  simp only [getDie, h, List.getD_eq_getElem?_getD, List.getElem?_mapIdx]
  cases s.dies[e]? with
  | none => rfl
  | some x => exact hg e x

end dies

/-! ### The states of the dies -/

/-- Every die is in the state it was in. -/
structure DieStates (s t : State) : Prop where
  length : t.dies.length = s.dies.length
  state : ∀ d, (getDie t d).state = (getDie s d).state

section dieStates

variable {r s t : State}

theorem DieStates.refl (s : State) : DieStates s s := ⟨rfl, fun _ => rfl⟩

theorem DieStates.trans (h : DieStates r s) (k : DieStates s t) : DieStates r t :=
  ⟨k.length.trans h.length, fun d => (k.state d).trans (h.state d)⟩

theorem DieStates.of_dies (h : t.dies = s.dies) : DieStates s t := ⟨congrArg _ h, fun d => by rw [getDie_congr h]⟩

theorem DieStates.of_only {l : List Part} (h : Only l s t) (hl : Part.dies ∉ l := by decide) : DieStates s t :=
  .of_dies (h.part .dies hl)

theorem DieStates.foldl {α : Type} {f : State → α → State} (hf : ∀ s a, DieStates s (f s a)) (l : List α) (s : State) :
    DieStates s (l.foldl f s) := by
  induction l generalizing s with
  | nil => exact .refl s
  | cons a l ih => exact (hf s a).trans (ih _)

theorem dieStates_modDie (s : State) (d : Nat) {f : Die → Die} (hf : ∀ x, (f x).state = x.state := by exact fun _ => rfl) :
    DieStates s (modDie s d f) := ⟨length_modDie, dieField_modDie (·.state) hf d⟩

theorem dieStates_resettle (s : State) : DieStates s (resettle s) :=
  ⟨List.length_mapIdx .., fun e => dieField_map (s := s) (·.state)
    (g := fun d x => { x with islands := x.islands.mapIdx fun c i => settleIsland s d c i }) (fun _ _ => rfl) e rfl⟩

theorem dieStates_logFault (s : State) (e : LogEntry) : DieStates s (logFault s e) :=
  .of_only (keeps_logFault (w₀ := Part.among [.store]) s e (Keeps.refl s)).only

theorem dieStates_sendMsg (s : State) (code : Nat) (fs) : DieStates s (sendMsg s code fs) :=
  .of_only (keeps_sendMsg (w₀ := Part.among [.regs, .host]) s code fs (Keeps.refl s)).only

theorem dieStates_finishScreen (s : State) (d o : Nat) : DieStates s (finishScreen s d o) := by
  unfold finishScreen
  refine ((((dieStates_modDie s d).trans (.foldl (fun s c => ?_) ..)).trans (dieStates_resettle _)).trans
    (dieStates_logFault ..)).trans (dieStates_sendMsg ..)
  exact .of_dies rfl

theorem dieStates_abortScreen (s : State) (d : Nat) : DieStates s (abortScreen s d) := by
  unfold abortScreen
  split
  · exact .refl s
  · exact dieStates_finishScreen ..

theorem dieStates_complete (s : State) (h : CmdHdr) (c : Nat) (st : Status) (b : Bytes) : DieStates s (complete s h c st b) :=
  .of_only (keeps_complete (w₀ := Part.among [.regs, .host]) s h c st b (Keeps.refl s)).only

theorem dieStates_epochAbort (s : State) (reason : Nat) : DieStates s (epochAbort s reason) := by
  unfold epochAbort
  split
  · exact .refl s
  · refine .trans ?_ (dieStates_sendMsg ..)
    refine .trans ?_ (dieStates_complete ..)
    exact ⟨List.length_map .., fun e => dieField_map (s := s) (·.state)
      (g := fun _ x => { x with fnPending := false, tastePending := false }) (fun _ _ => rfl) e 
        ((List.mapIdx_eq_iff.2 fun i => List.getElem?_map ..).symm)⟩

theorem dieStates_endJob (s : State) (asn : Nat) (st : Status) (c f d i : Nat) : DieStates s (endJob s asn st c f d i) :=
  .of_only (keeps_endJob (w₀ := Part.among [.regs, .host, .ctxs, .groups, .acct]) s asn st c f d i (Keeps.refl s)).only

theorem dieStates_forget (s : State) (asn : Nat) : DieStates s (forget s asn) :=
  .of_only (keeps_forget (w₀ := Part.among [.regs, .moves, .ctxs]) s asn (Keeps.refl s)).only

theorem dieStates_loseCtx (s : State) (asn f d c i : Nat) : DieStates s (loseCtx s asn f d c i) := by
  unfold loseCtx
  split
  · exact .refl s
  · refine .trans ?_ (dieStates_resettle _)
    refine .trans ?_ (dieStates_forget ..)
    exact (dieStates_endJob ..).trans (.trans (.foldl (fun s h => dieStates_complete ..) ..) (.of_dies rfl))

end dieStates

/-! ### A reset begins -/

/-- A die enters its reset, and no other die changes its state. -/
theorem states_enterReset (s : State) (d : Nat) (goal : DieGoal) (hd : d < s.dies.length) :
    (enterReset s d goal).dies.length = s.dies.length ∧
    ∀ e, (getDie (enterReset s d goal) e).state = if e = d then .resetting else (getDie s e).state := by
  have h1 := dieStates_abortScreen s d
  have h3 := dieStates_logFault
    (modDie (abortScreen s d) d fun x => { x with state := .resetting, stage := 1, goal := goal }) { type := 2, die := d }
  have hr : DieStates (modDie (abortScreen s d) d fun x => { x with state := .resetting, stage := 1, goal := goal })
      (enterReset s d goal) := by
    unfold enterReset
    dsimp only
    split
    · split
      · exact h3
      · exact h3.trans (dieStates_epochAbort ..)
    · exact h3
  refine ⟨by rw [hr.length, length_modDie, h1.length], fun e => ?_⟩
  rw [hr.state]
  split
  next h => subst h; rw [getDie_modDie_self (h1.length ▸ hd)]
  next h => rw [getDie_modDie_other h, h1.state]

/-- A die that resets goes on resetting while drains are looked at. -/
theorem resetting_drainCheckDie (s : State) (d e : Nat) (h : (getDie s d).state = .resetting) :
    (getDie (drainCheckDie s e) d).state = .resetting := by
  unfold drainCheckDie
  dsimp only
  split
  · have hs := dieStates_sendMsg s 0x0011 [(16, 1, e), (17, 1, (getDie s e).corked)]
    by_cases he : e < s.dies.length
    · rw [(states_enterReset _ e _ (hs.length.symm ▸ he)).2]
      split
      · rfl
      · rw [hs.state, h]
    · rename_i hc
      have hr : getDie s e = Die.reset := getD_of_length_le _ (Nat.le_of_not_lt he)
      rw [hr] at hc
      cases hc
  · exact h

theorem resetting_drainCheck (s : State) (d : Nat) (h : (getDie s d).state = .resetting) :
    (getDie (drainCheck s) d).state = .resetting := by
  unfold drainCheck
  generalize [0, 1, 2, 3] = l
  induction l generalizing s with
  | nil => exact h
  | cons e l ih => exact ih _ (resetting_drainCheckDie s d e h)

/-! ### Contexts that are left -/

/-- What a context holds of the module. -/
def Ctx.place (c : Ctx) : Nat × CtxState × List Nat := (c.asn, c.state, c.set)

/-- Every context of `t` holds what one of `s` holds. -/
structure HoldsLess (s t : State) : Prop where
  holds : ∀ c ∈ t.ctxs, ∃ b ∈ s.ctxs, b.place = c.place

section holdsLess

variable {r s t : State}

theorem HoldsLess.refl (s : State) : HoldsLess s s := ⟨fun c hc => ⟨c, hc, rfl⟩⟩

theorem HoldsLess.trans (h : HoldsLess r s) (k : HoldsLess s t) : HoldsLess r t where
  holds c hc := by
    obtain ⟨b, hb, hbc⟩ := k.holds c hc
    obtain ⟨a, ha, hab⟩ := h.holds b hb
    exact ⟨a, ha, hab.trans hbc⟩

theorem HoldsLess.of_ctxs (h : t.ctxs = s.ctxs) : HoldsLess s t := ⟨fun c hc => ⟨c, h ▸ hc, rfl⟩⟩

theorem HoldsLess.of_only {l : List Part} (h : Only l s t) (hl : Part.ctxs ∉ l := by decide) : HoldsLess s t :=
  .of_ctxs (h.part .ctxs hl).1

theorem HoldsLess.of_map {g : Ctx → Ctx} (h : t.ctxs = s.ctxs.map g) (hg : ∀ c, (g c).place = c.place) : HoldsLess s t where
  holds c hc := by
    rw [h] at hc
    obtain ⟨b, hb, rfl⟩ := List.mem_map.1 hc
    exact ⟨b, hb, (hg b).symm⟩

theorem HoldsLess.foldl {α : Type} {f : State → α → State} (hf : ∀ s a, HoldsLess s (f s a)) (l : List α) (s : State) :
    HoldsLess s (l.foldl f s) := by
  induction l generalizing s with
  | nil => exact .refl s
  | cons a l ih => exact (hf s a).trans (ih _)

theorem holdsLess_modCtx (s : State) (asn : Nat) {f : Ctx → Ctx} (hf : ∀ c, (f c).place = c.place := by exact fun _ => rfl) :
    HoldsLess s (modCtx s asn f) :=
  .of_map rfl fun c => by
    split
    · exact hf c
    · rfl

theorem holdsLess_dropWaits (s : State) (asn : Nat) (p : Nat → Bool) : HoldsLess s (dropWaits s asn p) := .of_map rfl fun _ => rfl

theorem holdsLess_flushCtx (s : State) (asn : Nat) : HoldsLess s (flushCtx s asn) := by
  unfold flushCtx
  split
  · exact .refl s
  · dsimp only
    refine .trans ?_ (holdsLess_modCtx ..)
    exact .of_ctxs rfl

theorem holdsLess_stopJob (s : State) (asn : Nat) (st : Status) (c i : Nat) : HoldsLess s (stopJob s asn st c i) := by
  unfold stopJob
  split
  · exact .refl s
  · exact (holdsLess_dropWaits ..).trans (holdsLess_modCtx ..)

theorem holdsLess_complete (s : State) (h : CmdHdr) (c : Nat) (st : Status) (b : Bytes) : HoldsLess s (complete s h c st b) :=
  .of_only (keeps_complete (w₀ := Part.among [.regs, .host]) s h c st b (Keeps.refl s)).only

theorem holdsLess_sendMsg (s : State) (code : Nat) (fs) : HoldsLess s (sendMsg s code fs) :=
  .of_only (keeps_sendMsg (w₀ := Part.among [.regs, .host]) s code fs (Keeps.refl s)).only

theorem holdsLess_endJob (s : State) (asn : Nat) (st : Status) (c f d i : Nat) : HoldsLess s (endJob s asn st c f d i) := by
  unfold endJob
  split
  · exact .refl s
  · split
    · exact .refl s
    · refine .trans ?_ (.foldl (fun s h => holdsLess_complete ..) ..)
      refine .trans ?_ (.of_only (keeps_pushCompletion (w₀ := Part.among [.regs, .host]) _ _ _ (Keeps.refl _)).only)
      refine .trans (s := modCtx (dropWaits (flushCtx s asn) asn fun _ => true) asn _) ?_ (.of_ctxs rfl)
      exact ((holdsLess_flushCtx ..).trans (holdsLess_dropWaits ..)).trans (holdsLess_modCtx ..)

/-- A context that is forgotten is gone, and the others hold what they held. -/
theorem holdsLess_forget (s : State) (asn : Nat) : HoldsLess s (forget s asn) ∧ ∀ c ∈ (forget s asn).ctxs, c.asn ≠ asn := by
  have h0 : HoldsLess s (match ctxOf s asn with | some c => clearSlots s c | none => s) := by
    split
    · exact .of_only (keeps_clearSlots (w₀ := Part.among [.regs]) s _ (Keeps.refl s)).only
    · exact .refl s
  have h1 := h0.trans (holdsLess_dropWaits _ asn fun _ => true)
  unfold forget
  dsimp only
  generalize dropWaits (match ctxOf s asn with | some c => clearSlots s c | none => s) asn (fun _ => true) = u at h1 ⊢
  have key : ∀ l : List Waiter, ∀ v : State, (∀ c ∈ v.ctxs, (∃ b ∈ u.ctxs, b.place = c.place) ∧ c.asn ≠ asn) →
      ∀ c ∈ (l.foldl (fun s w => match coreOf s w.asn w.core with
        | some k => stopJob s w.asn .stateIllegal w.core k.pc
        | none => s) v).ctxs, (∃ b ∈ u.ctxs, b.place = c.place) ∧ c.asn ≠ asn := by
    intro l v hv c hc
    have : HoldsLess v (l.foldl (fun s w => match coreOf s w.asn w.core with
        | some k => stopJob s w.asn .stateIllegal w.core k.pc
        | none => s) v) := by
      refine .foldl (fun s w => ?_) ..
      split
      · exact holdsLess_stopJob ..
      · exact .refl s
    obtain ⟨b, hb, hbc⟩ := this.holds c hc
    obtain ⟨⟨a, ha, hab⟩, hn⟩ := hv b hb
    exact ⟨⟨a, ha, hab.trans hbc⟩, fun h => hn ((congrArg (·.1) hbc).trans h)⟩
  have base : ∀ c ∈ (pruneFences { u with
      ctxs := (u.ctxs.filter fun c => c.asn != asn).map fun c =>
        { c with aliases := c.aliases.map fun a => if a.ownerAsn = asn then { a with dangling := true } else a }
      decants := u.decants.filter fun d => d.asn != asn
      promotions := u.promotions }).ctxs, (∃ b ∈ u.ctxs, b.place = c.place) ∧ c.asn ≠ asn := by
    intro c hc
    obtain ⟨b, hb, rfl⟩ := List.mem_map.1 hc
    obtain ⟨a, ha, rfl⟩ := List.mem_map.1 hb
    obtain ⟨ha, hn⟩ := List.mem_filter.1 ha
    exact ⟨⟨a, ha, rfl⟩, by simpa using hn⟩
  exact ⟨h1.trans ⟨fun c hc => (key _ _ base c hc).1⟩, fun c hc => (key _ _ base c hc).2⟩

/-- A context that is lost is gone, and the others hold what they held. -/
theorem holdsLess_loseCtx (s : State) (asn f d k i : Nat) :
    HoldsLess s (loseCtx s asn f d k i) ∧ ∀ c ∈ (loseCtx s asn f d k i).ctxs, c.asn ≠ asn := by
  unfold loseCtx
  split
  next h =>
    exact ⟨.refl s, fun c hc h' => by simpa [h'] using List.find?_eq_none.1 h c hc⟩
  next x h =>
    dsimp only
    generalize hu : ({ (x.corkCmds.foldl (fun s h => complete s h 0x0012 .dieLost []) (endJob s asn .dieLost k f d i)) with
      groups := _, firings := _, codecs := _ } : State) = u
    have hs : HoldsLess s u := by
      subst hu
      exact (holdsLess_endJob ..).trans (.trans (.foldl (fun s h => holdsLess_complete ..) ..) (.of_ctxs rfl))
    obtain ⟨h1, h2⟩ := holdsLess_forget u asn
    exact ⟨hs.trans (h1.trans (.of_ctxs rfl)), h2⟩

/-- Contexts that are lost one after the other are all gone. -/
theorem holdsLess_lost {f : State → Nat → State} (hf : ∀ s a, HoldsLess s (f s a) ∧ ∀ c ∈ (f s a).ctxs, c.asn ≠ a)
    (l : List Nat) (s : State) : HoldsLess s (l.foldl f s) ∧ ∀ c ∈ (l.foldl f s).ctxs, c.asn ∉ l := by
  induction l generalizing s with
  | nil => exact ⟨.refl s, by simp⟩
  | cons a l ih =>
    obtain ⟨h1, h2⟩ := hf s a
    obtain ⟨h3, h4⟩ := ih (f s a)
    refine ⟨h1.trans h3, fun c hc => ?_⟩
    obtain ⟨b, hb, hbc⟩ := h3.holds c hc
    have hba : b.asn = c.asn := congrArg (·.1) hbc
    exact by simpa using ⟨hba ▸ h2 b hb, h4 c hc⟩

theorem holdsLess_enterReset (s : State) (d : Nat) (goal : DieGoal) : HoldsLess s (enterReset s d goal) := by
  have h1 : HoldsLess s (logFault (modDie (abortScreen s d) d fun x => { x with state := .resetting, stage := 1, goal := goal })
      { type := 2, die := d }) := by
    refine .trans (.of_only (keeps_abortScreen (w₀ := Part.among [.regs, .host, .dies, .store]) s d (Keeps.refl s)).only) ?_
    refine .trans ?_ (.of_only (keeps_logFault (w₀ := Part.among [.store]) _ _ (Keeps.refl _)).only)
    exact .of_ctxs rfl
  have h2 : ∀ u reason, HoldsLess u (epochAbort u reason) := by
    intro u reason
    unfold epochAbort
    split
    · exact .refl u
    · refine .trans ?_ (holdsLess_sendMsg ..)
      refine .trans ?_ (holdsLess_complete ..)
      exact .of_map (g := fun c => { c with cores := c.cores.map fun k =>
        if k.run = .epochHold then { k with run := .running } else k }) rfl fun _ => rfl
  unfold enterReset
  dsimp only
  split
  · split
    · exact h1
    · exact h1.trans (h2 ..)
  · exact h1

theorem holdsLess_drainCheck (s : State) : HoldsLess s (drainCheck s) := by
  refine .foldl (fun s d => ?_) ..
  unfold drainCheckDie
  dsimp only
  split
  · exact (holdsLess_sendMsg ..).trans (holdsLess_enterReset ..)
  · exact .refl s

end holdsLess

/-! ### Die faults -/

section faults

variable (s : State) (d : Nat) (code : FaultCode) (onDie : Bool) (asn core index : Option Nat)

/-- The state of a faulting die once the fault is in the log and, where it counts, in its window. -/
def faultLogged : State :=
  let c := asn.bind (ctxOf s)
  let s0 := logFault s { type := 1, die := d, code := code.code
                         core := match c, core with
                           | some c, some k => c.coreId k
                           | _, _ => 0xFFFF
                         asn := asn.getD 0xFF
                         ctxSlot := (c.bind fun c => c.slots.getD d none).getD 0xFF, index := index.getD 0xFFFFFFFF }
  if isHardware code onDie then recordHwFault s0 d else s0

theorem faultLogged_states : DieStates s (faultLogged s d code onDie asn core index) := by
  unfold faultLogged
  dsimp only
  split
  · exact (dieStates_logFault ..).trans (dieStates_modDie ..)
  · exact dieStates_logFault ..

/-- The asns of the resident contexts with a cluster on a die. -/
def residentsOn : List Nat := (s.ctxs.filter fun c => c.resident && c.dies.contains d).map (·.asn)

/-- One context of a faulting die is lost; the faulting one names its core. -/
def contextLost (a : Nat) : State :=
  if asn = some a then loseCtx s a code.code d (core.getD 0xFFFF) (index.getD 0) else loseCtx s a code.code d 0xFFFF 0

theorem contextLost_facts (a : Nat) : DieStates s (contextLost s d code asn core index a) ∧
    HoldsLess s (contextLost s d code asn core index a) ∧
    ∀ c ∈ (contextLost s d code asn core index a).ctxs, c.asn ≠ a := by
  unfold contextLost
  split
  · exact ⟨dieStates_loseCtx .., holdsLess_loseCtx ..⟩
  · exact ⟨dieStates_loseCtx .., holdsLess_loseCtx ..⟩

/-- The contexts of a faulting die are lost: their unflushed counts of the die first, then they. -/
def contextsLost : State :=
  let hits := residentsOn s d
  let gap := hits.foldl (fun s a => setBits s (0x4005C + 0x100 * a) 0x80000000#32) s
  hits.foldl (fun s a => contextLost s d code asn core index a)
    { gap with ctxs := gap.ctxs.map fun c => if hits.elem c.asn then dropFresh d c else c }

theorem contextsLost_facts : DieStates s (contextsLost s d code asn core index) ∧
    ∀ c ∈ (contextsLost s d code asn core index).ctxs, c.resident = true → d ∉ c.dies := by
  unfold contextsLost
  dsimp only
  generalize hhits : residentsOn s d = hits
  have hgap : DieStates s (hits.foldl (fun s a => setBits s (0x4005C + 0x100 * a) 0x80000000#32) s) ∧
      HoldsLess s (hits.foldl (fun s a => setBits s (0x4005C + 0x100 * a) 0x80000000#32) s) :=
    ⟨.foldl (f := fun s a => setBits s (0x4005C + 0x100 * a) 0x80000000#32) (fun _ _ => .of_dies rfl) ..,
      .foldl (f := fun s a => setBits s (0x4005C + 0x100 * a) 0x80000000#32) (fun _ _ => .of_ctxs rfl) ..⟩
  generalize hits.foldl (fun s a => setBits s (0x4005C + 0x100 * a) 0x80000000#32) s = gap at hgap
  obtain ⟨hgd, hgc⟩ := hgap
  have hcl : HoldsLess gap { gap with ctxs := gap.ctxs.map fun c => if hits.elem c.asn then dropFresh d c else c } :=
    .of_map rfl fun c => by split <;> rfl
  obtain ⟨hh, hn⟩ := holdsLess_lost (fun s a => (contextLost_facts s d code asn core index a).2) hits
    { gap with ctxs := gap.ctxs.map fun c => if hits.elem c.asn then dropFresh d c else c }
  have hd' := DieStates.foldl (fun s a => (contextLost_facts s d code asn core index a).1) hits
    { gap with ctxs := gap.ctxs.map fun c => if hits.elem c.asn then dropFresh d c else c }
  refine ⟨hgd.trans (.trans ?_ hd'), fun c hm hr hd => hn c hm ?_⟩
  · exact .of_dies rfl
  · obtain ⟨b, hb, hbc⟩ := (hgc.trans (hcl.trans hh)).holds c hm
    have hasn : b.asn = c.asn := congrArg (·.1) hbc
    have hset : b.set = c.set := congrArg (·.2.2) hbc
    have hstate : b.state = c.state := congrArg (·.2.1) hbc
    rw [← hhits, residentsOn, ← hasn]
    refine List.mem_map_of_mem (List.mem_filter.2 ⟨hb, ?_⟩)
    rw [Ctx.resident, hstate, Ctx.dies, hset]
    simpa [Ctx.resident, Ctx.dies] using And.intro hr hd

/-- A drain whose die faults is over: DIE_DRAIN_DONE is sent. -/
def drainReported : State :=
  if (getDie s d).state = .draining then sendMsg s 0x0011 [(16, 1, d), (17, 1, (getDie s d).corked)] else s

theorem dieStates_drainReported : DieStates s (drainReported s d) := by
  unfold drainReported
  split
  · exact dieStates_sendMsg ..
  · exact .refl s

theorem holdsLess_drainReported : HoldsLess s (drainReported s d) := by
  unfold drainReported
  split
  · exact holdsLess_sendMsg ..
  · exact .refl s

/-- A fault on a die that resets joins it; another loses the contexts on the die and resets it. -/
theorem dieFault_cases :
    ((getDie s d).state = .resetting ∧ dieFault s d code onDie asn core index = faultLogged s d code onDie asn core index) ∨
    ((getDie s d).state ≠ .resetting ∧ ∃ u goal, dieFault s d code onDie asn core index = drainCheck (enterReset u d goal) ∧
      DieStates s u ∧ ∀ c ∈ u.ctxs, c.resident = true → d ∉ c.dies) := by
  have hst := faultLogged_states s d code onDie asn core index
  have hd := hst.state d
  have hdef : dieFault s d code onDie asn core index =
      if dieIs (faultLogged s d code onDie asn core index) d .resetting then faultLogged s d code onDie asn core index
      else dieFault s d code onDie asn core index := by
    split
    next h =>
      have : dieIs s d .resetting = true := by simpa [dieIs, hd] using h
      unfold dieFault
      exact if_pos this
    next => rfl
  by_cases h : (getDie s d).state = .resetting
  · exact .inl ⟨h, hdef.trans (if_pos (by simp [dieIs, hd, h]))⟩
  · refine .inr ⟨h, ?_⟩
    unfold dieFault
    dsimp only
    rw [if_neg (by simpa [dieIs] using h)]
    refine ⟨_, _, rfl, ?_⟩
    change DieStates s (drainReported (sendMsg (contextsLost (faultLogged s d code onDie asn core index) d code asn core index)
      _ _) d) ∧ ∀ c ∈ (drainReported (sendMsg (contextsLost (faultLogged s d code onDie asn core index) d code asn core index)
      _ _) d).ctxs, _
    generalize faultLogged s d code onDie asn core index = v at hst
    obtain ⟨hl, hc⟩ := contextsLost_facts v d code asn core index
    refine ⟨((hst.trans hl).trans (dieStates_sendMsg ..)).trans (dieStates_drainReported ..), fun c hm hr => ?_⟩
    obtain ⟨b, hb, hbc⟩ := ((holdsLess_sendMsg ..).trans (holdsLess_drainReported ..)).holds c hm
    have hset : b.set = c.set := congrArg (·.2.2) hbc
    have hstate : b.state = c.state := congrArg (·.2.1) hbc
    have := hc b hb (by rw [Ctx.resident, hstate]; exact hr)
    rwa [Ctx.dies, hset] at this

/-- After a job fault its die is RESETTING, and no resident context has a cluster on it. -/
theorem dieFault_facts (hd : d < s.dies.length) :
    (getDie (dieFault s d code onDie asn core index) d).state = .resetting ∧
    ((getDie s d).state ≠ .resetting →
      ∀ c ∈ (dieFault s d code onDie asn core index).ctxs, c.resident = true → d ∉ c.dies) := by
  obtain ⟨h, heq⟩ | ⟨h, u, goal, heq, hu, hc⟩ := dieFault_cases s d code onDie asn core index
  · exact ⟨by rw [heq, (faultLogged_states ..).state, h], fun h' => absurd h h'⟩
  · rw [heq]
    refine ⟨resetting_drainCheck _ d ?_, fun _ c hm hr => ?_⟩
    · rw [(states_enterReset u d goal (hu.length ▸ hd)).2 d, if_pos rfl]
    · obtain ⟨b, hb, hbc⟩ := ((holdsLess_enterReset u d goal).trans (holdsLess_drainCheck _)).holds c hm
      have hset : b.set = c.set := congrArg (·.2.2) hbc
      have hstate : b.state = c.state := congrArg (·.2.1) hbc
      have := hc b hb (by rw [Ctx.resident, hstate]; exact hr)
      rwa [Ctx.dies, hset] at this

end faults

/-! ### The obligation -/

/-- Settles O31: losing the contexts on the die keeps every die's state, and what follows (the die's reset, the drains that end) adds
no context. -/
theorem dieFaultsComplete : Obligations.DieFaultsComplete := by
  refine ⟨fun s d code onDie asn core index hd hl => dieFault_facts s d code onDie asn core index (hl ▸ hd), ?_, ?_⟩
  · intro s asn core c k hw hc hk hj hs ho
    rw [exec_stintOverrun_next hw, stintOverrun, hc, hk]
    simp [hj, hs, ho]
  · intro s d hw hdie hscr
    rw [exec_fabricHang_next hw, fabricHang, if_pos hdie]
    simp [hscr]

end Sys2Proof.Machine
end

section
/-! A die's reset and the commands that drain and restore a die: what the repair map and the last step of a reset leave of a die, and
which contexts a drain sets corking. -/

namespace Sys2Proof.Machine

/-! ### The repair map and the last step of a reset -/

/-- A change of the repair map and the log. -/
theorem dies_mapped (s : State) (d : Nat) (findings : List TestFinding) :
    ∃ u l, Only [.regs, .host, .store] s u ∧
      applyMap s d findings = modDie u d fun x => { x with clusters := l, pending := [] } := by
  refine ⟨_, _, ?_, rfl⟩
  refine (Keeps.foldl (w₀ := Part.among [.regs, .host, .store]) (Keeps.foldl (keeps_recordPending s d (Keeps.refl s)) ?_) ?_).only
  · exact fun f u h => keeps_addFinding u d f h
  · exact fun c u h => keeps_repairEvents u d c _ _ h

/-- The repair map changes the clusters of its die and those held pending. -/
theorem getDie_applyMap (s : State) (d : Nat) (findings : List TestFinding) (hd : d < s.dies.length) :
    (applyMap s d findings).dies.length = s.dies.length ∧
    ∃ l, getDie (applyMap s d findings) d = { getDie s d with clusters := l, pending := [] } := by
  obtain ⟨u, l, hu, h⟩ := dies_mapped s d findings
  have hdies : u.dies = s.dies := hu.part .dies
  rw [h]
  exact ⟨by rw [length_modDie, hdies], l, by rw [getDie_modDie_self (hdies ▸ hd), getDie_congr hdies]⟩

theorem healthyVrms_congr {s t : State} (h : t.power = s.power) : healthyVrms t = healthyVrms s := by
  rw [healthyVrms, healthyVrms, h]

theorem healthyVrms_applyMap (s : State) (d : Nat) (findings : List TestFinding) :
    healthyVrms (applyMap s d findings) = healthyVrms s := by
  obtain ⟨u, l, hu, h⟩ := dies_mapped s d findings
  rw [h]
  exact healthyVrms_congr (hu.part .power).1

/-- Flagging a die changes its flag alone. -/
theorem getDie_flagDie (s : State) (d reason : Nat) (hd : d < s.dies.length) :
    (flagDie s d reason).dies.length = s.dies.length ∧
    getDie (flagDie s d reason) d = { getDie s d with flag := reason } := by
  have h : Only [.regs, .host, .store] (modDie s d fun x => { x with flag := reason }) (flagDie s d reason) :=
    (keeps_sendMsg (w₀ := Part.among [.regs, .host, .store]) _ _ _
      (keeps_logFault _ _ (keeps_addMap _ _ _ _ _ _ (Keeps.refl _)))).only
  have hdies := h.part .dies
  exact ⟨by rw [hdies, length_modDie], by rw [getDie_congr hdies, getDie_modDie_self hd]⟩

/-- What the last step of a reset leaves of its die while it decides: it is OFFLINE, out of its reset. -/
structure OutOfReset (s t : State) (d : Nat) : Prop where
  length : t.dies.length = s.dies.length
  power : t.power = s.power
  state : (getDie t d).state = .offline
  stage : (getDie t d).stage = 0
  goal : (getDie t d).goal = .none

theorem outOfReset_flagDie {s t : State} {d : Nat} (reason : Nat) (h : OutOfReset s t d) (hd : d < s.dies.length) :
    OutOfReset s (flagDie t d reason) d := by
  obtain ⟨hl, hg⟩ := getDie_flagDie t d reason (h.length ▸ hd)
  have hp : (flagDie t d reason).power = t.power :=
    ((keeps_flagDie (w₀ := Part.among [.regs, .host, .dies, .store]) t d reason (Keeps.refl t)).only.part .power).1
  exact ⟨hl.trans h.length, hp.trans h.power, by rw [hg]; exact h.state, by rw [hg]; exact h.stage, by rw [hg]; exact h.goal⟩

/-- The last step of the reset of a die that faulted: it is ONLINE exactly where it is not flagged, else OFFLINE. -/
theorem finishReset_fault (s : State) (d : Nat) (hd : d < s.dies.length) (hg : (getDie s d).goal = .fault) :
    ∃ t, finishReset s d = regulatorWatch t ∧ t.power = s.power ∧ (getDie t d).stage = 0 ∧ (getDie t d).goal = .none ∧
      ((getDie t d).state = .online ↔ (getDie t d).flag = 0) ∧
      ((getDie t d).state = .online ∨ (getDie t d).state = .offline) := by
  unfold finishReset
  extract_lets x s1 noCl drained s2 keepOff online s3 s4
  have hx : x.goal = .fault := hg
  have hdr : drained = false := by simp only [drained, hx]
  have hl1 : d < (resetWindow s d).dies.length := by rw [resetWindow, length_modDie]; exact hd
  have hd1 : getDie s1 d = { getDie (resetWindow s d) d with
      stage := 0, goal := .none, state := .offline, repeated := false, hangFlag := false, inService := x.activeCount } :=
    getDie_modDie_self hl1
  have h1 : OutOfReset s s1 d :=
    ⟨by simp only [s1, length_modDie, resetWindow], rfl, by rw [hd1], by rw [hd1], by rw [hd1]⟩
  have h2 : OutOfReset s s2 d := by
    simp only [s2, hdr, hx, Bool.and_false, Bool.false_and, Bool.false_eq_true, if_false]
    split
    · exact outOfReset_flagDie 2 h1 hd
    · split
      · exact outOfReset_flagDie 1 h1 hd
      · exact h1
  have hon : online = ((getDie s2 d).flag == 0) := by
    simp only [online, hx, keepOff, hdr, Bool.false_and, Bool.or_false]
    cases h : (getDie s2 d).flag == 0 <;> simp_all
  have h4 : ∀ {β : Type} (v : Die → β), (∀ (y : Die) i, v { y with islands := i } = v y) → v (getDie s4 d) = v (getDie s3 d) :=
    fun v hv => dieField_map (s := s3) v
      (g := fun d x => { x with islands := x.islands.mapIdx fun c i => settleIsland s3 d c i }) (fun _ _ => hv ..) d rfl
  refine ⟨s4, by simp only [hx], ?_⟩
  have hs3 : s3 = if online then modDie s2 d fun y => { y with state := .online } else s2 := rfl
  rw [h4 (·.stage) (fun _ _ => rfl), h4 (·.goal) (fun _ _ => rfl), h4 (·.state) (fun _ _ => rfl), h4 (·.flag) (fun _ _ => rfl)]
  have hp4 : s4.power = s3.power := rfl
  rw [hp4, hs3, hon]
  have hd2 : d < s2.dies.length := h2.length ▸ hd
  by_cases hf : (getDie s2 d).flag = 0
  · rw [if_pos (by simp [hf]), getDie_modDie_self hd2]
    exact ⟨h2.power, h2.stage, h2.goal, by simp [hf], .inl rfl⟩
  · rw [if_neg (by simp [hf])]
    exact ⟨h2.power, h2.stage, h2.goal, by simp [hf, h2.state], .inr h2.state⟩

/-- Settles O32: the repair map leaves stage, goal and state of its die; the last step of a reset decides on what is left. -/
theorem dieResetsComplete : Obligations.DieResetsComplete := by
  intro s d hd hl hr
  have hds : d < s.dies.length := hl ▸ hd
  refine ⟨fun hw hst => ⟨fun hg => ?_, fun hg => ?_⟩, fun findings hw hst hg => ?_, fun findings hw hst => ?_⟩
  · rw [exec_dieLogicResetDone_next hw, dieLogicResetDone]
    obtain hg | ⟨h, hg | hg⟩ := hg <;> simp [hr, hst, hg]
  · rw [exec_dieLogicResetDone_next hw, dieLogicResetDone]
    simp [hr, hst, hg]
  · obtain ⟨hla, l, ha⟩ := getDie_applyMap s d findings hds
    obtain ⟨t, ht, hp, hrest⟩ := finishReset_fault (applyMap s d findings) d (hla ▸ hds) (by rw [ha]; exact hg)
    refine ⟨t, ?_, hrest⟩
    rw [exec_builtInTestDone_next hw, builtInTestDone]
    have hv : healthyVrms t = healthyVrms s := (healthyVrms_congr hp).trans (healthyVrms_applyMap ..)
    simp [hr, hst, ht, regulatorWatch, hv]
  · rw [exec_builtInTestDone_next hw, builtInTestDone]
    simp [hr, hst]

/-! ### Commands that begin -/

section begins

variable {s b : State} {i : Instr} {h : CmdHdr} {code first : Nat}

theorem submit_of_begins {start : State → State} (hb : Begins s i h code b) : submit s h i code first start = start b := by
  rw [submit_of_starts hb.starts, hb.state]

/-- A command that begins changes the queue alone. -/
theorem only_begun (s : State) (h : CmdHdr) (code : Nat) : Only [.host] s (begun s h code) :=
  (keeps_beginCmd (w₀ := Part.among [.host]) _ _ _ (keeps_fetchOne _ _ (Keeps.refl s))).only

theorem Begins.only (hb : Begins s i h code b) : Only [.host] s b := hb.state ▸ only_begun ..

end begins

/-! ### Drains -/

/-- A context after corks have been started: it holds what it held, and is corking or in the state it was in. -/
def CorkedFrom (b c : Ctx) : Prop := c.asn = b.asn ∧ c.set = b.set ∧ (c.state = .corking ∨ c.state = b.state)

/-- Each context of the second state stood in the first, but for a cork that was started; one of the asn, if it is resident, corks. -/
theorem startCork_ctxs (s : State) (asn : Nat) : ∀ c ∈ (startCork s asn).ctxs,
    (∃ b ∈ s.ctxs, CorkedFrom b c) ∧ (c.asn = asn → c.resident = true → c.state = .corking) := by
  intro c hc
  obtain ⟨b, hb, rfl⟩ := List.mem_map.1 hc
  obtain ⟨a, ha, hab⟩ := (holdsLess_flushCtx s asn).holds b hb
  have hasn : a.asn = b.asn := congrArg (·.1) hab
  have hset : a.set = b.set := congrArg (·.2.2) hab
  have hstate : a.state = b.state := congrArg (·.2.1) hab
  split
  next hba =>
    cases hst : b.state <;> exact ⟨⟨a, ha, by simp [CorkedFrom, hasn, hset, hstate, hst]⟩, by simp [Ctx.resident, hst]⟩
  next hba => exact ⟨⟨a, ha, hasn.symm, hset.symm, .inr hstate.symm⟩, fun h => absurd h hba⟩

theorem startCorks_ctxs (l : List Nat) (s : State) : ∀ c ∈ (l.foldl startCork s).ctxs,
    (∃ b ∈ s.ctxs, CorkedFrom b c) ∧ (c.asn ∈ l → c.resident = true → c.state = .corking) := by
  induction l generalizing s with
  | nil => exact fun c hc => ⟨⟨c, hc, rfl, rfl, .inr rfl⟩, by simp⟩
  | cons a l ih =>
    intro c hc
    obtain ⟨⟨b, hb, hca, hcs, hst⟩, hl⟩ := ih (startCork s a) c hc
    obtain ⟨⟨x, hx, hba, hbs, hbst⟩, hb1⟩ := startCork_ctxs s a b hb
    refine ⟨⟨x, hx, hca.trans hba, hcs.trans hbs, ?_⟩, fun hm hr => ?_⟩
    · obtain h | h := hst
      · exact .inl h
      · rw [h]; exact hbst
    · obtain h | h := hst
      · exact h
      · obtain hm | hm := List.mem_cons.1 hm
        · rw [h]
          exact hb1 (hca ▸ hm) (by rw [Ctx.resident, ← h]; exact hr)
        · exact hl hm hr

theorem dieStates_startCorks (l : List Nat) (s : State) : DieStates s (l.foldl startCork s) :=
  .foldl (fun s a => .of_only (keeps_startCork (w₀ := Part.among [.ctxs, .acct]) s a (Keeps.refl s)).only) ..

/-- A die that is on its way out of service stays so while drains are looked at. -/
theorem leaving_drainCheck (s : State) (d : Nat) (hd : d < s.dies.length) (h : (getDie s d).state = .draining) :
    (getDie (drainCheck s) d).state = .draining ∨ (getDie (drainCheck s) d).state = .resetting := by
  have key : ∀ (l : List Nat) (s : State), d < s.dies.length →
      ((getDie s d).state = .draining ∨ (getDie s d).state = .resetting) →
      ((getDie (l.foldl drainCheckDie s) d).state = .draining ∨ (getDie (l.foldl drainCheckDie s) d).state = .resetting) := by
    intro l
    induction l with
    | nil => exact fun s _ h => h
    | cons e l ih =>
      intro s hd h
      have hs := dieStates_sendMsg s 0x0011 [(16, 1, e), (17, 1, (getDie s e).corked)]
      by_cases hdr : (getDie s e).state = .draining && !(s.ctxs.any fun c => c.resident && c.dies.contains e)
      · have he : e < s.dies.length := by
          refine Nat.lt_of_not_le fun he => ?_
          have hr : getDie s e = Die.reset := getD_of_length_le _ he
          rw [hr] at hdr
          cases hdr
        have heq : drainCheckDie s e = enterReset (sendMsg s 0x0011 [(16, 1, e), (17, 1, (getDie s e).corked)]) e (getDie s e).goal :=
          if_pos hdr
        obtain ⟨hl, hst⟩ := states_enterReset (sendMsg s 0x0011 [(16, 1, e), (17, 1, (getDie s e).corked)]) e (getDie s e).goal
          (hs.length.symm ▸ he)
        refine ih _ (by rw [heq, hl, hs.length]; exact hd) ?_
        rw [heq, hst, hs.state]
        split
        · exact .inr rfl
        · exact h
      · have heq : drainCheckDie s e = s := if_neg hdr
        exact ih _ (heq.symm ▸ hd) (heq.symm ▸ h)
  exact key _ s hd (.inl h)

/-- A drain takes its die out of service, and every context left on it is corking. -/
theorem startDrain_facts (s : State) (d : Nat) (goal : DieGoal) (hd : d < s.dies.length) :
    ((getDie (startDrain s d goal) d).state = .draining ∨ (getDie (startDrain s d goal) d).state = .resetting) ∧
    ∀ c ∈ (startDrain s d goal).ctxs, c.resident = true → d ∈ c.dies → c.state = .corking := by
  unfold startDrain
  extract_lets s1 s2 s3 l
  have h1 : DieStates s s1 := dieStates_abortScreen ..
  have h3 : DieStates s2 s3 := dieStates_logFault ..
  have h4 := dieStates_startCorks l s3
  have hl2 : s2.dies.length = s1.dies.length := length_modDie
  refine ⟨leaving_drainCheck _ d ?_ ?_, fun c hc hr hm => ?_⟩
  · rw [h4.length, h3.length, hl2, h1.length]; exact hd
  · rw [h4.state, h3.state, getDie_modDie_self (h1.length ▸ hd)]
  · obtain ⟨b, hb, hbc⟩ := (holdsLess_drainCheck _).holds c hc
    have hset : b.set = c.set := congrArg (·.2.2) hbc
    have hstate : b.state = c.state := congrArg (·.2.1) hbc
    obtain ⟨⟨a, ha, hba, hbs, hst⟩, hl⟩ := startCorks_ctxs l s3 b hb
    rw [← hstate]
    obtain h | h := hst
    · exact h
    · refine hl (hba ▸ List.mem_map_of_mem (List.mem_filter.2 ⟨ha, ?_⟩)) (by rw [Ctx.resident, hstate]; exact hr)
      rw [Ctx.resident, Ctx.dies, ← h, ← hbs, hset, hstate]
      simpa [Ctx.resident, Ctx.dies] using And.intro hr hm

/-- Settles O47: a drain starts corks of all contexts of its die, and what ends of drains after it leaves no context more. -/
theorem dieCommandsComplete : Obligations.DieCommandsComplete := by
  intro s b h d hd hl hready drains
  have hfacts : ∀ goal {i : Instr} {code : Nat}, Begins s i h code b → _ := fun goal i code (hb : Begins s i h code b) =>
    startDrain_facts b d goal (by rw [hb.only.part .dies, hl]; exact hd)
  have hnot : ¬3 < d := by omega
  refine ⟨fun hw hb hon => ⟨?_, hfacts _ hb⟩, fun hw hb hon => ⟨?_, hfacts _ hb⟩, fun hw hb hoff hflag => ⟨?_, ?_⟩⟩
  · rw [exec_dieDrainHold_next hw, submit_of_begins hb, startDieDrain, if_neg hnot, if_pos ⟨hready, hon⟩]
  · rw [exec_dieDrainRepair_next hw, submit_of_begins hb, startDieDrain, if_neg hnot, if_pos ⟨hready, hon⟩]
  · rw [exec_dieRestore_next hw, submit_of_begins hb, startDieRestore, if_neg hnot, if_pos ⟨hready, hoff, hflag⟩]
  · rw [(states_enterReset b d _ (by rw [hb.only.part .dies, hl]; exact hd)).2 d, if_pos rfl]

end Sys2Proof.Machine
end

section
/-! Host queues: how a host command comes to run, and how completion entries are written. -/

namespace Sys2Proof.Machine

/-! ### How a host command comes to run -/

/-- A host command is submitted to its queue. -/
theorem exec_hostCmd {i : Instr} {c : HostCmd} (s : State) (hc : hostCmd i = some c) (hw : i.wf = true) :
    exec i s = .next (submit s c.h i c.code c.first c.start) := by
  unfold hostCmd at hc
  split at hc
  case h_37 => cases hc
  all_goals
    obtain rfl := Option.some.inj hc
    exact event_next _ _ hw

/-- Settles O36, by the cases of a submission. -/
theorem hostCommandsStart : Obligations.HostCommandsStart := by
  intro i c s hc hw u ready
  rw [exec_hostCmd s hc hw]
  refine ⟨fun hq => ?_, fun hs => ?_, fun hq hr ha => ?_, fun hq hr => ?_⟩
  · rw [submit, if_neg hq]
  · rw [submit_of_starts hs]
  · have ha' : admitted (begun s c.h c.code) c.code = false := (admitted_begun s c.h c.code c.code).trans ha
    rw [submit, if_pos hq, if_pos hr, startNow]
    exact congrArg _ (if_neg (ne_true_of_eq_false ha'))
  · rw [submit, if_pos hq, if_neg hr]

/-! ### Completion entries -/

section completions

variable (s : State) (q : Nat)

theorem getQ_congr {s t : State} (h : t.queues = s.queues) (q : Nat) : getQ t q = getQ s q := by rw [getQ, getQ, h]

theorem queues_raiseMsix (v : Nat) : (raiseMsix v s).queues = s.queues := by
  unfold raiseMsix
  split <;> rfl

/-- A vector is sent, or stays pending. -/
theorem out_raiseMsix (v : Nat) : (raiseMsix v s).out = s.out ++ [.msix v] ∨ (raiseMsix v s).out = s.out := by
  unfold raiseMsix
  split
  · exact .inr rfl
  · exact .inl rfl

theorem getQ_cqWriteOne_other {r : Nat} (h : r ≠ q) : getQ (cqWriteOne s q) r = getQ s r := by
  unfold cqWriteOne
  dsimp only
  split
  · rfl
  · rw [getQ_congr (queues_raiseMsix ..)]
    exact getQ_setQ_other _ _ h

theorem getQ_cqDrainN_other {r : Nat} (h : r ≠ q) (n : Nat) : getQ (cqDrainN n s q) r = getQ s r := by
  induction n generalizing s with
  | zero => rfl
  | succ n ih =>
    unfold cqDrainN
    split
    · rw [ih, getQ_cqWriteOne_other s q h]
    · rfl

theorem getQ_pushCompletion_other {r : Nat} (e : Bytes) (h : r ≠ q) : getQ (pushCompletion s q e) r = getQ s r :=
  (getQ_cqDrainN_other _ q h _).trans (getQ_setQ_other _ _ h)

theorem only_pushCompletion (e : Bytes) : Only [.host, .regs] s (pushCompletion s q e) :=
  (keeps_pushCompletion (w₀ := Part.among [.host, .regs]) s q e (Keeps.refl s)).only

/-- Where nothing may be written, an entry is held. -/
theorem pushCompletion_held (e : Bytes) (h : hqEnabled s q = false ∨ cqFull s q = true) :
    pushCompletion s q e = setQ s q { getQ s q with held := (getQ s q).held ++ [e] } := by
  have hno : ∀ n u, hqEnabled u q = false ∨ cqFull u q = true → cqDrainN n u q = u := fun n u hu => by
    cases n with
    | zero => rfl
    | succ n => rw [cqDrainN, if_neg (by obtain hu | hu := hu <;> simp [hu])]
  refine hno _ _ (h.imp id fun hf => ?_)
  rw [cqFull, getQ_setQ_self]
  exact hf

/-- Where an entry may be written and none is held before it, it is. -/
theorem pushCompletion_written (e : Bytes) (he : hqEnabled s q = true) (hf : cqFull s q = false) (hh : (getQ s q).held = []) :
    pushCompletion s q e = cqWriteOne (setQ s q { getQ s q with held := [e] }) q := by
  rw [pushCompletion, hh]
  dsimp only
  rw [List.nil_append]
  have hf' : cqFull (setQ s q { getQ s q with held := [e] }) q = false := by
    rw [cqFull, getQ_setQ_self]
    exact hf
  have he' : hqEnabled (setQ s q { getQ s q with held := [e] }) q = true := he
  rw [cqDrain, getQ_setQ_self]
  simp [cqDrainN, hf', he', getQ_setQ_self]

end completions

/-- Settles O38: one held entry is written by one step of the drain, or none is. -/
theorem completionsAreWritten : Obligations.CompletionsAreWritten := by
  intro s q e t x next
  refine ⟨fun he hf hh => ?_, fun h => ?_, fun r hr => getQ_pushCompletion_other s q e hr, only_pushCompletion s q e⟩
  · have ht : t = cqWriteOne (setQ s q { x with held := [e] }) q := pushCompletion_written s q e he hf hh
    rw [ht, cqWriteOne]
    dsimp only
    rw [getQ_setQ_self]
    dsimp only
    refine ⟨?_, ?_⟩
    · rw [getQ_congr (queues_raiseMsix ..)]
      refine (getQ_setQ_self ..).trans ?_
      rw [← hh]
      rfl
    · obtain h | h := out_raiseMsix { setQ (setQ s q { x with held := [e] }) q _ with
        out := s.out ++ [.hostWrite (cqAddr s q + 32 * x.cqTail) (putField e 31 1 (b2n x.phase))] }
        (regBits s (hqBase q + 16) 26 16)
      · exact ⟨_, h.trans (by simp), .inr rfl⟩
      · exact ⟨_, h.trans (by simp), .inl rfl⟩
  · have ht : t = setQ s q { x with held := x.held ++ [e] } := pushCompletion_held s q e h
    rw [ht, getQ_setQ_self]
    exact ⟨rfl, rfl⟩

end Sys2Proof.Machine
end

section
/-! Contexts that become resident, are forgotten, exported and bound: the commands on contexts, address spaces, semaphores seen
through others, descriptors, trellis tables and version sets. -/

namespace Sys2Proof.Machine

/-! ### Contexts after a change of all of them -/

section contexts

variable {s t : State} {β : Type} {v : Ctx → β}

theorem ctxOf_congr (h : t.ctxs = s.ctxs) (a : Nat) : ctxOf t a = ctxOf s a := by rw [ctxOf, ctxOf, h]

theorem ctxOf_of_only {l : List Part} (h : Only l s t) (a : Nat) (hl : Part.ctxs ∉ l := by decide) : ctxOf t a = ctxOf s a :=
  ctxOf_congr (h.part .ctxs hl).1 a

theorem ctxOf_of_map {g : Ctx → Ctx} (h : t.ctxs = s.ctxs.map g) (hg : ∀ c, (g c).asn = c.asn) (a : Nat) :
    ctxOf t a = (ctxOf s a).map g := by
  rw [ctxOf, ctxOf, h, List.find?_map]
  congr 2
  funext c
  exact congrArg (· == a) (hg c)

/-- A change of every context that the view does not show. -/
theorem SameBy.of_map {g : Ctx → Ctx} (h : t.ctxs = s.ctxs.map g) (hg : ∀ c, (g c).asn = c.asn) (hv : ∀ c, v (g c) = v c) :
    SameBy v s t where
  view a := by
    rw [ctxOf_of_map h hg, Option.map_map]
    congr 1
    funext c
    exact hv c

theorem SameBy.foldl {α : Type} {f : State → α → State} (hf : ∀ s a, SameBy v s (f s a)) (l : List α) (s : State) :
    SameBy v s (l.foldl f s) := by
  induction l generalizing s with
  | nil => exact .refl s
  | cons a l ih => exact (hf s a).trans (ih _)

/-- The contexts of the other asns are what they were, as far as the view shows them. -/
theorem sameBy_dropWaits (s : State) (asn : Nat) (p : Nat → Bool)
    (hv : ∀ (c : Ctx) w r f, v { c with waiters := w, raised := r, fences := f } = v c := by exact fun _ _ _ _ => rfl) :
    SameBy v s (dropWaits s asn p) := .of_map rfl (fun _ => rfl) fun c => hv c _ _ _

theorem ctxOf_flushCtx {a : Nat} {c : Ctx} (h : ctxOf s a = some c) :
    ctxOf (flushCtx s a) a = some { c with fresh := List.replicate 4 .zero } := by
  rw [flushCtx, h]
  exact ctxOf_modCtx_some (s := addTotal s a _) h

theorem sameBy_flushCtx (s : State) (asn : Nat) (hv : ∀ (c : Ctx) l, v { c with fresh := l } = v c := by exact fun _ _ => rfl) :
    SameBy v s (flushCtx s asn) := by
  unfold flushCtx
  split
  · exact .refl s
  · refine .trans ?_ (sameBy_modCtx _ asn (fun _ => rfl) fun c => hv c _)
    exact .of_ctxs rfl

end contexts

/-! ### Contexts that are gone -/

theorem sameBy_stopJob (s : State) (asn : Nat) (st : Status) (k i : Nat) : SameBy Ctx.place s (stopJob s asn st k i) := by
  unfold stopJob
  split
  · exact .refl s
  · exact (sameBy_dropWaits s asn _).trans (sameBy_modCtx _ asn)

/-- Where a context is forgotten, the others hold what they held. -/
theorem place_forget (s : State) (asn : Nat) : ctxOf (forget s asn) asn = none ∧
    ∀ a, a ≠ asn → (ctxOf (forget s asn) a).map Ctx.place = (ctxOf s a).map Ctx.place := by
  refine ⟨List.find?_eq_none.2 fun c hc => by simpa using (holdsLess_forget s asn).2 c hc, fun a ha => ?_⟩
  unfold forget
  extract_lets s0 s1 blocked s2
  have h1 : SameBy Ctx.place s s1 := by
    refine .trans ?_ (sameBy_dropWaits s0 asn _)
    simp only [s0]
    split
    · exact .of_ctxs ((keeps_clearSlots (w₀ := Part.among [.regs]) s _ (Keeps.refl s)).only.part .ctxs).1
    · exact .refl s
  have h2 : ctxOf s2 a = (ctxOf s1 a).map fun c => { c with
      aliases := c.aliases.map fun x => if x.ownerAsn = asn then { x with dangling := true } else x } := by
    rw [ctxOf_of_map (s := { s1 with ctxs := s1.ctxs.filter fun c => c.asn != asn }) (t := s2) rfl (fun _ => rfl)]
    congr 1
    rw [ctxOf, ctxOf, List.find?_filter]
    congr 1
    funext c
    by_cases hc : c.asn = a
    · subst hc; simp [ha]
    · simp [hc]
  have h3 : SameBy Ctx.place s2 (pruneFences s2) := .of_map rfl (fun _ => rfl) fun _ => rfl
  refine ((SameBy.foldl (fun s w => ?_) blocked (pruneFences s2)).view a).trans ((h3.view a).trans ?_)
  · split
    · exact sameBy_stopJob ..
    · exact .refl s
  · rw [h2, Option.map_map]
    exact h1.view a

/-- A context that is destroyed is gone, and the others hold what they held. -/
theorem place_destroyCtx (s : State) (asn : Nat) : ctxOf (destroyCtx s asn) asn = none ∧
    ∀ a, a ≠ asn → (ctxOf (destroyCtx s asn) a).map Ctx.place = (ctxOf s a).map Ctx.place := by
  obtain ⟨h1, h2⟩ := place_forget (flushCtx s asn) asn
  have hc : ∀ a, ctxOf (destroyCtx s asn) a = ctxOf (forget (flushCtx s asn) asn) a := fun a => ctxOf_congr rfl a
  refine ⟨(hc asn).trans h1, fun a ha => ?_⟩
  rw [hc, h2 a ha]
  exact (sameBy_flushCtx s asn).view a

/-! ### Corks -/

/-- A context whose cork is started. -/
def Ctx.corked (c : Ctx) : Ctx :=
  match c.state with
  | .benched => { c with state := .corking, moving := some false, offClusters := true, claim := false }
  | .corked => c
  | _ => { c with state := .corking, claim := false }

theorem ctxOf_startCork {s : State} {a : Nat} {c : Ctx} (h : ctxOf s a = some c) :
    ctxOf (startCork s a) a = some ({ c with fresh := List.replicate 4 .zero } : Ctx).corked := by
  refine ctxOf_modCtx_some (f := Ctx.corked) (ctxOf_flushCtx h) fun c => ?_
  unfold Ctx.corked
  split <;> rfl

/-! ### The commands on contexts -/

section commands

variable {s b : State} {h : CmdHdr} {asn : Nat} {c : Ctx}

theorem exec_ctxDestroy_ends (hc : ctxOf b asn = some c) (hw : (Instr.ctxDestroy h asn).wf = true)
    (hb : Begins s (.ctxDestroy h asn) h 0x0011 b) (hj : c.job = none) (hst : c.state = .benched ∨ c.state = .corked) :
    exec (.ctxDestroy h asn) s = .next (complete (destroyCtx b asn) h 0x0011 .ok []) := by
  rw [exec_ctxDestroy_next hw, submit_of_begins hb, startDestroy, hc]
  simp [hj, hst]

theorem exec_ctxCork_starts (hc : ctxOf b asn = some c) (hw : (Instr.ctxCork h asn).wf = true)
    (hb : Begins s (.ctxCork h asn) h 0x0012 b) (h1 : c.state ≠ .corked) (h2 : c.state ≠ .corking) :
    exec (.ctxCork h asn) s = .next (modCtx (startCork b asn) asn fun c => { c with corkCmds := c.corkCmds ++ [h] }) := by
  rw [exec_ctxCork_next hw, submit_of_begins hb, startCtxCork, hc]
  simp [h1, h2]

theorem exec_ctxSetClass_ends {cls sl : Nat} (hc : ctxOf b asn = some c) (hw : (Instr.ctxSetClass h asn cls sl).wf = true)
    (hb : Begins s (.ctxSetClass h asn cls sl) h 0x0015 b) (hcls : cls ≤ 3) (hlo : 100 ≤ sl) (hhi : sl ≤ 1000000)
    (hr : c.resident = true) (hz : cls = 0 → c.cd6 = false ∧ class0Clash b asn c.set = false) :
    exec (.ctxSetClass h asn cls sl) s =
      .next (complete (resettle (modCtx b asn fun c => { c with cls := cls, sliceUs := sl })) h 0x0015 .ok []) := by
  have hnot : ¬(3 < cls ∨ sl < 100 ∨ 1000000 < sl) := by omega
  have hz' : ¬((!c.resident) = true ∨ cls = 0 ∧ (c.cd6 = true ∨ class0Clash b asn c.set = true)) := by
    rintro (h1 | ⟨h0, hor⟩)
    · simp [hr] at h1
    · obtain ⟨ha, hb⟩ := hz h0
      simp [ha, hb] at hor
  rw [exec_ctxSetClass_next hw, submit_of_begins hb, startSetClass, if_neg hnot, hc]
  exact congrArg _ (if_neg hz')

theorem exec_ctxExport_starts {move va : Nat} (hc : ctxOf b asn = some c) (hw : (Instr.ctxExport h asn move va).wf = true)
    (hb : Begins s (.ctxExport h asn move va) h 0x0014 b) (hm : move ≤ 1) (hva : va % 64 = 0) (hst : c.state = .corked)
    (hmb : move = 1 → moveBlocked b asn = false) (hwr : writableRange b asn va (imageLen c.set.length) = true) :
    exec (.ctxExport h asn move va) s = .next (modCtx b asn fun c => { c with exporting := some (h, move == 1, va) }) := by
  have hnot : ¬(1 < move ∨ va % 64 ≠ 0) := by omega
  have hmb' : ¬(c.state ≠ .corked ∨ move = 1 ∧ moveBlocked b asn = true) := by
    rintro (h1 | ⟨h1, h2⟩)
    · exact h1 hst
    · simp [hmb h1] at h2
  rw [exec_ctxExport_next hw, submit_of_begins hb, startExport, if_neg hnot, hc]
  dsimp only
  rw [if_neg hmb', hwr]
  rfl

/-- What a copy that ends leaves before its image is written. -/
def copied (s : State) (asn : Nat) (c : Ctx) : State :=
  modCtx (c.corkPages.foldl (fun s p => hubReads s p pageBytes) s) asn fun c => { c with exporting := none }

/-- What a copy that ends leaves once its image is written. -/
def imaged (s : State) (asn va : Nat) (c : Ctx) : State :=
  let img := { c with exporting := none }
  let w := agentWrite (copied s asn c) asn va (slice (Config.imageBytes img) 0 (imageLen c.set.length))
  { w with exported := w.exported ++ [img] }

theorem exportDone_writes {va : Nat} {move : Bool} (hc : ctxOf s asn = some c) (he : c.exporting = some (h, move, va))
    (hwr : writableRange (copied s asn c) asn va (imageLen c.set.length) = true) :
    exportDone s asn =
      complete (if move then destroyCtx (imaged s asn va c) asn else imaged s asn va c) h 0x0014 .ok [] := by
  have hnot : ¬(!writableRange (copied s asn c) asn va (imageLen c.set.length)) = true := by rw [hwr]; decide
  unfold exportDone
  rw [hc]
  dsimp only
  rw [he]
  exact if_neg hnot

/-- No command moves pages of the address space of an ASN_DESTROY that begins. -/
theorem migrations_of_begins (hb : Begins s (.asnDestroy h asn) h 0x0016 b) : ∀ m ∈ b.migrations, m.asn ≠ asn := by
  intro m hm
  have hnow := hb.starts.now
  have hm' : m ∈ s.migrations := (hb.only.part .moves).2.1 ▸ hm
  simp only [startsNow, canStart, asnBusy, cmdHead, Bool.and_eq_true, Bool.not_eq_true', Bool.or_eq_false_iff,
    List.any_eq_false] at hnow
  obtain ⟨⟨-, -, -, ⟨hmigs, -⟩, -⟩, -⟩ := hnow
  simpa using hmigs m hm'

end commands

/-- Settles O40: each command's checks pass, and what is left is what its effect does. -/
theorem contextCommandsComplete : Obligations.ContextCommandsComplete := by
  refine ⟨fun s b h asn c hc => ⟨fun hw hb hj hst => ?_, fun hw hb h1 h2 => ?_, fun cls sl hw hb hcls hlo hhi hr hz => ?_,
    fun move va hw hb hm hva hst hmb hwr => ?_⟩, ?_, fun s b h asn hw hb hsp hc hs hg => ?_⟩
  · obtain ⟨hgone, hothers⟩ := place_destroyCtx b asn
    refine ⟨destroyCtx b asn, exec_ctxDestroy_ends hc hw hb hj hst, hgone, fun a ha => ?_⟩
    have := congrArg (Option.map fun p : Nat × CtxState × List Nat => (p.2.2, p.2.1)) (hothers a ha)
    rwa [Option.map_map, Option.map_map] at this
  · have hd := ctxOf_modCtx_some (f := fun c => { c with corkCmds := c.corkCmds ++ [h] }) (ctxOf_startCork hc)
    refine ⟨_, _, exec_ctxCork_starts hc hw hb h1 h2, hd, ?_⟩
    cases hst : c.state <;> simp_all [Ctx.corked]
  · exact exec_ctxSetClass_ends hc hw hb hcls hlo hhi hr hz
  · exact exec_ctxExport_starts hc hw hb hm hva hst hmb hwr
  · intro s h asn va move c hw hc he
    dsimp only
    intro hwr
    exact (exec_ctxExportDone_next hw).trans (congrArg _ (exportDone_writes hc he hwr))
  · refine ⟨{ b with spaces := b.spaces.filter (fun x => x.asn != asn)
                     promotions := b.promotions.filter fun p => p.asn != asn }, ?_, ?_, fun m hm => migrations_of_begins hb m hm,
      fun p hp => ?_⟩
    · rw [exec_asnDestroy_next hw, submit_of_begins hb, startAsnDestroy, if_neg]
      have := Option.ne_none_iff_isSome.2 hsp
      simp [this, hc, hs, hg]
    · exact List.find?_eq_none.2 fun x hx => by simpa using (List.mem_filter.1 hx).2
    · simpa using (List.mem_filter.1 hp).2

end Sys2Proof.Machine
end

section
/-! Contexts that become resident, and what is bound to a context: semaphores seen through others, descriptors, trellis tables and
version sets. -/

namespace Sys2Proof.Machine

/-! ### Contexts that become resident -/

section residents

variable {s b : State} {asn : Nat} {c : Ctx}

theorem takeSlots_congr {t : State} (h : ∀ d sl, (slotOwner t d sl).isNone = (slotOwner s d sl).isNone) (set : List Nat) :
    takeSlots t set = takeSlots s set := by
  have hf : ∀ d, freeSlot t d = freeSlot s d := fun d => by simp only [freeSlot, h]
  simp only [takeSlots, hf]

/-- A context made resident: its place is its set, and it is BENCHED. -/
def Ctx.benchedOn (c : Ctx) (s : State) (set : List Nat) : Ctx :=
  { c with set := set, state := .benched, slots := takeSlots s set, moving := none, claim := false, savedPrec := []
           live := List.replicate 4 .zero, fresh := List.replicate 4 .zero, readyNs := 0 }

theorem ctxOf_makeResident (s : State) (c : Ctx) (set : List Nat) :
    ctxOf (makeResident s c set) c.asn = some (c.benchedOn s set) := by
  unfold makeResident
  extract_lets c1 s1
  have hc : ctxOf s1 c.asn = some c1 := by
    rw [ctxOf, List.find?_append, List.find?_eq_none.2 fun x hx => by simpa using (List.mem_filter.1 hx).2]
    simp [c1]
  have hl : ctxOf (loadPrec s1 c1) c.asn = some c1 :=
    (ctxOf_of_only (keeps_loadPrec (w₀ := Part.among [.regs]) s1 c1 (Keeps.refl s1)).only c.asn).trans hc
  exact (ctxOf_congr rfl c.asn).trans (ctxOf_modCtx_some (f := fun x => { x with savedPrec := [] }) hl)

theorem spaces_makeResident (s : State) (c : Ctx) (set : List Nat) : (makeResident s c set).spaces = s.spaces := by
  unfold makeResident
  extract_lets c1 s1
  have := ((keeps_loadPrec (w₀ := Part.among [.regs]) s1 c1 (Keeps.refl s1)).only.part .pages).1
  exact this

theorem only_ensureSpace (s : State) (asn : Nat) : Only [.pages] s (ensureSpace s asn) :=
  (keeps_ensureSpace (w₀ := Part.among [.pages]) s asn (Keeps.refl s)).only

theorem spaceOf_ensureSpace (s : State) (asn : Nat) : (spaceOf (ensureSpace s asn) asn).isSome = true := by
  unfold ensureSpace
  split
  next h => exact h
  next h =>
    rw [spaceOf, List.find?_append]
    simp

theorem asn_createFrom {h : CmdHdr} {cls kind sliceUs : Nat} {set : List Nat} {va : Nat}
    (hc : createFrom s h asn cls kind sliceUs set va = .ok c) : c.asn = asn := by
  unfold createFrom at hc
  split at hc
  · cases hc; rfl
  · split at hc
    · cases hc
    · split at hc
      · cases hc
      · split at hc
        · cases hc
        · split at hc
          · cases hc
          · cases hc; rfl

end residents

/-- Settles O39: the context that is made resident is the one of its asn, and the writes of its cork area and its saved settings
do not change it. -/
theorem contextsBecomeResident : Obligations.ContextsBecomeResident := by
  refine ⟨?_, ?_⟩
  · intro s b₀ h asn cls kind sl cl iv rv rc c hw hb hcls hkind hlo hhi hrc hk0 hiv hrv set hset hno hus b hcr hz hq hfull
    have hasn := asn_createFrom hcr
    let c1 : Ctx := { c with corkPages := corkArea b set, resume := (rv, rc) }
    let s1 := makeResident (ensureSpace b asn) c1 set
    have h1 : ctxOf s1 asn = some (c1.benchedOn (ensureSpace b asn) set) := by
      have := ctxOf_makeResident (ensureSpace b asn) c1 set
      rwa [show c1.asn = asn from hasn] at this
    have hes := only_ensureSpace b asn
    have hslots : takeSlots (ensureSpace b asn) set = takeSlots b set :=
      takeSlots_congr (fun d sl => by rw [slotOwner, slotOwner, (hes.part .ctxs).1]) set
    have hsp : (spaceOf s1 asn).isSome = true := by
      rw [spaceOf, spaces_makeResident]
      exact spaceOf_ensureSpace b asn
    have hw2 : Only [.traffic] s1 (if iv = 0 then s1 else c1.corkPages.foldl hubWrites s1) := by
      split
      · exact .refl _ s1
      · exact (Keeps.foldl (w₀ := Part.among [.traffic]) (Keeps.refl s1) fun p u h => keeps_hubWrites u p h).only
    refine ⟨_, c1.benchedOn (ensureSpace b asn) set, ?_, (ctxOf_of_only hw2 asn).trans h1, rfl, rfl, hslots, rfl, rfl, rfl, rfl, rfl,
      rfl, ?_⟩
    · rw [exec_ctxCreate_next hw, submit_of_begins hb, startCreate]
      dsimp only
      have hform : ¬(3 < cls ∨ 1 < kind ∨ sl < 100 ∨ 1000000 < sl ∨ 64 < rc ∨ (kind = 0 ∧ rc ≠ 0) ∨ set.isEmpty = true ∨
          iv % 64 ≠ 0 ∨ rv % 64 ≠ 0) := by
        rintro (h | h | h | h | h | ⟨h, h'⟩ | h | h | h)
        any_goals omega
        · exact hset (List.isEmpty_iff.1 h)
      have hclash : ¬(cls = 0 ∧ (kind = 1 ∨ class0Clash b asn set = true)) := by
        rintro ⟨h0, h1 | h1⟩
        · simp [(hz h0).1] at h1
        · simp [(hz h0).2] at h1
      have husable : ¬(!set.all (clusterUsable b₀)) = true := by simpa using hus
      rw [if_neg hform, if_neg (by simp [hno]), if_neg husable, hcr]
      dsimp only
      rw [if_neg hclash, if_neg (Nat.not_lt.2 hq), if_neg (fun h => h hfull)]
    · rw [spaceOf, (hw2.part .pages).1]
      exact hsp
  · intro s b h asn cl c hw hb hc hst set hus hlen hz hfull
    have hf := ctxOf_flushCtx hc
    have h1 := ctxOf_makeResident (flushCtx b asn) c set
    rw [asn_of_ctxOf hc] at h1
    refine ⟨_, _, ?_, h1, rfl, rfl, rfl, rfl, rfl, rfl, rfl⟩
    rw [exec_ctxUncork_next hw, submit_of_begins hb, startUncork, hc]
    dsimp only
    have hclash : ¬(c.cls = 0 ∧ class0Clash b asn set = true) := by
      rintro ⟨h0, h1⟩
      simp [hz h0] at h1
    have husable : ¬(!set.all (clusterUsable b)) = true := by simpa using hus
    rw [if_neg (fun h => h hst), if_neg husable, if_neg (fun h => h hlen), if_neg hclash, if_neg (fun h => h hfull)]

/-! ### Bindings -/

section bindings

variable {s b : State} {h : CmdHdr} {asn : Nat} {c : Ctx}

/-- Without the entry of one index, the entry of another is found as before. -/
theorem find_unbound (l : List Alias) {i j : Nat} (hj : j ≠ i) :
    (l.filter fun a => a.index != i).find? (fun a => a.index == j) = l.find? fun a => a.index == j := by
  rw [List.find?_filter]
  congr 1
  funext a
  by_cases ha : a.index = j <;> simp [ha, hj]

/-- An index that stands for another context's semaphore names it, and the other indices name what they named. -/
theorem semTarget_bound (c : Ctx) (i oa oi : Nat) :
    let d := { c with aliases := (c.aliases.filter fun a => a.index != i) ++
      [{ index := i, ownerAsn := oa, ownerIndex := oi, dangling := false }] }
    semTarget d i = some (oa, oi) ∧ ∀ j, j ≠ i → semTarget d j = semTarget c j := by
  refine ⟨?_, fun j hj => ?_⟩
  · rw [semTarget, List.find?_append, List.find?_eq_none.2 fun x hx => by simpa using (List.mem_filter.1 hx).2]
    simp
  · rw [semTarget, semTarget, List.find?_append, find_unbound c.aliases hj]
    have hlast : List.find? (fun a : Alias => a.index == j)
        [{ index := i, ownerAsn := oa, ownerIndex := oi, dangling := false }] = none := by simp [Ne.symm hj]
    rw [hlast, Option.or_none]

/-- An index that is cleared names its own semaphore again, and the other indices name what they named. -/
theorem semTarget_cleared (c : Ctx) (i : Nat) (l : List Nat) :
    let d := { c with aliases := c.aliases.filter fun a => a.index != i, sems := l }
    semTarget d i = some (c.asn, i) ∧ ∀ j, j ≠ i → semTarget d j = semTarget c j := by
  refine ⟨?_, fun j hj => ?_⟩
  · rw [semTarget, List.find?_eq_none.2 fun x hx => by simpa using (List.mem_filter.1 hx).2]
  · rw [semTarget, semTarget, find_unbound c.aliases hj]

/-- The descriptors after a bind that passes. -/
def boundDescs (c : Ctx) (first count : Nat) (es : List Bytes) : Ctx :=
  { c with desc := c.desc.mapIdx fun i x => if first ≤ i ∧ i < first + count then bindEntry (es.getD (i - first) []) else x }

theorem exec_descBind_ends {first count va : Nat} {bytes : Bytes} (hc : ctxOf b asn = some c)
    (hw : (Instr.descBind h asn first count va).wf = true) (hb : Begins s (.descBind h asn first count va) h 0x0022 b)
    (h0 : 0 < count) (hle : first + count ≤ 255) (hva : va % 64 = 0) (hj : c.job = none)
    (hr : virtRead (agentReads b asn va (64 * count)) asn va (64 * count) = .ok bytes)
    (hck : ∀ i, i < count → bindCheck (slice bytes (64 * i) 64) = none) :
    exec (.descBind h asn first count va) s = .next (complete (modCtx (agentReads b asn va (64 * count)) asn fun c =>
      boundDescs c first count ((List.range count).map fun i => slice bytes (64 * i) 64)) h 0x0022 .ok []) := by
  have hform : ¬(count = 0 ∨ 255 < count ∨ 254 < first + count - 1 ∨ va % 64 ≠ 0) := by omega
  have hpass : (List.range count).find? (fun i =>
      (bindCheck (((List.range count).map fun i => slice bytes (64 * i) 64).getD i [])).isSome) = none := by
    refine List.find?_eq_none.2 fun i hi => ?_
    have hlt := List.mem_range.1 hi
    simp [List.getD_eq_getElem?_getD, hlt, hck i hlt]
  rw [exec_descBind_next hw, submit_of_begins hb, startDescBind, if_neg hform, hc]
  dsimp only
  rw [hj, if_neg (by decide), readThen, hr]
  dsimp only
  rw [hpass]
  rfl

theorem exec_versionSet_ends {set slots sb va : Nat} (hc : ctxOf b asn = some c)
    (hw : (Instr.versionSet h asn set slots sb va).wf = true) (hb : Begins s (.versionSet h asn set slots sb va) h 0x0024 b)
    (hset : set ≤ 31) (hva : va % 64 = 0) (hj : c.job = none) (hlo : 2 ≤ slots) (hhi : slots ≤ 4) (hsb : sb ≤ 250)
    (ho : setsOverlap c set sb = false) :
    exec (.versionSet h asn set slots sb va) s =
      .next (complete (putSet b asn (.fresh set slots sb va 0 (semCount b asn (sb + 5)))) h 0x0024 .ok []) := by
  have hform : ¬(31 < set ∨ va % 64 ≠ 0) := by omega
  have hstate : ¬(c.job.isSome = true ∨ slots < 2 ∨ 4 < slots ∨ 250 < sb ∨ setsOverlap c set sb = true) := by
    rw [hj, ho]
    simp
    omega
  rw [exec_versionSet_next hw, submit_of_begins hb, startVersionSet, if_neg hform, hc]
  exact congrArg _ (if_neg hstate)

end bindings

/-- Settles O41: each command's checks pass, and its context is the one the binding changes. -/
theorem bindingsComplete : Obligations.BindingsComplete := by
  intro s b h asn c hc
  refine ⟨fun i oa oi o hw hb hne ho hj hfree hlen => ?_, fun i hw hb hj hi => ?_, fun i n x hw hb hn hx => ?_,
    fun first count va bytes hw hb h0 hle hva hj hr hck => ?_, fun entries va hw hb hn hva hj => ?_,
    fun set slots sb va hw hb hset hva hj hlo hhi hsb hov => exec_versionSet_ends hc hw hb hset hva hj hlo hhi hsb hov⟩
  · obtain ⟨hself, hothers⟩ := semTarget_bound c i oa oi
    have hany : (o.aliases.any fun a => a.index == oi) = false := by simpa using hfree
    have hex : exec (.semAliasSet h asn i oa oi) s = .next (complete (modCtx b asn fun c => { c with
        aliases := (c.aliases.filter fun a => a.index != i) ++
          [{ index := i, ownerAsn := oa, ownerIndex := oi, dangling := false }] }) h 0x0017 .ok []) := by
      rw [exec_semAliasSet_next hw, submit_of_begins hb, startAliasSet, if_neg hne, hc, ho]
      simp [hj, hany, Nat.not_le.2 hlen]
    exact ⟨_, _, hex, ctxOf_modCtx_some hc, hself, hothers, rfl⟩
  · obtain ⟨hself, hothers⟩ := semTarget_cleared c i (c.sems.set i 0)
    have hex : exec (.semAliasClear h asn i 0 0) s = .next (complete (modCtx b asn fun c => { c with
        aliases := c.aliases.filter fun a => a.index != i, sems := c.sems.set i 0 }) h 0x0017 .ok []) := by
      rw [exec_semAliasClear_next hw, submit_of_begins hb, startAliasClear, hc]
      simp [hj]
    exact ⟨_, _, hex, ctxOf_modCtx_some hc, hself.trans (by rw [asn_of_ctxOf hc]), hothers, rfl⟩
  · rw [exec_semSignal_next hw, submit_of_begins hb, startSemSignal, if_neg (by omega), hc]
    simp [hx]
  · have hcr : ctxOf (agentReads b asn va (64 * count)) asn = some c :=
      (ctxOf_of_only (keeps_agentReads (w₀ := Part.among [.dies, .mem, .traffic]) b asn va (64 * count) (Keeps.refl b)).only asn).trans hc
    refine ⟨_, _, exec_descBind_ends hc hw hb h0 hle hva hj hr hck, ctxOf_modCtx_some hcr, fun i x hi hx => ?_, fun i hi => ?_⟩
    · have hin : first ≤ first + i ∧ first + i < first + count := by omega
      simp only [boundDescs, List.getElem?_mapIdx, hx, Option.map_some, if_pos hin, Nat.add_sub_cancel_left]
      simp [List.getD_eq_getElem?_getD, hi]
    · have hout : ¬(first ≤ i ∧ i < first + count) := by omega
      simp only [boundDescs, List.getElem?_mapIdx, if_neg hout, Option.map_id']
  · rw [exec_trellisBind_next hw, submit_of_begins hb, startTrellisBind, if_neg (by omega), hc]
    simp [hj]

end Sys2Proof.Machine
end

section
/-! Pages and transfers: what a page of a space is after a change of it, what moving a page leaves, and the page commands and transfers
with their events. -/

namespace Sys2Proof.Machine

/-! ### Pages -/

section pages

variable {s : State} {asn v : Nat} {g : Page}

theorem spaceOf_modSpace {f : Space → Space} (hf : ∀ x, (f x).asn = x.asn) (s : State) (asn : Nat) :
    spaceOf (modSpace s asn f) asn = (spaceOf s asn).map f := by
  simp only [spaceOf, modSpace]
  induction s.spaces with
  | nil => rfl
  | cons x l ih =>
    rw [List.map_cons]
    by_cases hx : x.asn = asn
    · rw [if_pos hx, List.find?_cons_of_pos (by simp [hf, hx]), List.find?_cons_of_pos (by simp [hx]), Option.map_some]
    · rw [if_neg hx, List.find?_cons_of_neg (by simp [hx]), List.find?_cons_of_neg (by simp [hx]), ih]

theorem pageOf_congr {t : State} (h : t.spaces = s.spaces) (asn v : Nat) : pageOf t asn v = pageOf s asn v := by
  rw [pageOf, pageOf, spaceOf, spaceOf, h]

theorem vpn_of_pageOf (h : pageOf s asn v = some g) : g.vpn = v := by
  obtain ⟨x, -, hx⟩ := Option.bind_eq_some_iff.1 h
  simpa using List.find?_some hx

/-- A change of a page that keeps its number is what its number then names. -/
theorem pageOf_modPage {f : Page → Page} (hf : ∀ p, (f p).vpn = p.vpn) (h : pageOf s asn v = some g) :
    pageOf (modPage s asn v f) asn v = some (f g) := by
  obtain ⟨x, hx, hg⟩ := Option.bind_eq_some_iff.1 h
  rw [pageOf, modPage, spaceOf_modSpace (f := fun x => { x with pages := x.pages.map fun p => if p.vpn = v then f p else p })
    (fun _ => rfl), hx]
  simp only [Option.map_some, Option.bind_some]
  rw [List.find?_map]
  have hp : ((fun p : Page => p.vpn == v) ∘ fun p => if p.vpn = v then f p else p) = fun p => p.vpn == v := by
    funext p
    by_cases hp : p.vpn = v <;> simp [hp, hf]
  rw [hp, hg, Option.map_some, if_pos (vpn_of_pageOf h)]

/-- Pages that are unmapped are gone. -/
theorem pageOf_unmapPages (s : State) (asn : Nat) {v n k : Nat} (hlo : v ≤ k) (hhi : k < v + n) :
    pageOf (unmapPages s asn v n) asn k = none := by
  rw [pageOf, unmapPages, spaceOf_modSpace (f := fun x => { x with
    pages := x.pages.filter fun p => !(decide (v ≤ p.vpn) && decide (p.vpn < v + n)) }) (fun _ => rfl)]
  cases spaceOf s asn with
  | none => rfl
  | some x =>
    simp only [Option.map_some, Option.bind_some, List.find?_filter]
    refine List.find?_eq_none.2 fun p _ => ?_
    simp only [Bool.not_eq_true', decide_eq_true_eq, not_and]
    intro hp hk
    have hk' : p.vpn = k := by simpa using hk
    simp [hk', hlo, hhi] at hp

theorem reads_meetCells (s : State) (pa n : Nat) : Reads s (meetCells s pa n) := Reads.foldl reads_meetCell _ s

/-- Moving a page copies its bytes and gives it its new place. -/
theorem movePage_facts (h : pageOf s asn v = some g) (d : Nat) :
    let t := movePage s asn g d
    pageOf t asn v = some { g with ppn := d } ∧ t.mem = s.mem.copy (g.ppn * pageBytes) (d * pageBytes) pageBytes := by
  intro t
  have hv := vpn_of_pageOf h
  have hps := (keeps_poisonSeen (w₀ := Part.among [.regs]) s g.ppn 0 pageBytes (Keeps.refl s)).only
  have hg : pageOf (poisonSeen s g.ppn 0 pageBytes) asn g.vpn = some g := by
    rw [pageOf_congr (hps.part .pages).1, hv, h]
  have hcp := (keeps_copyPage (w₀ := Part.among [.dies, .mem]) (poisonSeen s g.ppn 0 pageBytes) g.ppn d (Keeps.refl _)).only
  have hsw : switchPage (poisonSeen s g.ppn 0 pageBytes) asn g.vpn d =
      modPage (copyPage (poisonSeen s g.ppn 0 pageBytes) g.ppn d) asn g.vpn fun p => { p with ppn := d } := by
    rw [switchPage, hg]
  have ht := (keeps_hubWrites (w₀ := Part.among [.traffic]) _ d (keeps_hubReads (switchPage (poisonSeen s g.ppn 0 pageBytes) asn g.vpn d)
    g.ppn pageBytes (Keeps.refl _))).only
  refine ⟨?_, (ht.part .mem).1.trans ?_⟩
  · refine (pageOf_congr (ht.part .pages).1 asn v).trans ?_
    rw [hsw, ← hv]
    exact pageOf_modPage (f := fun p => { p with ppn := d }) (fun _ => rfl)
      ((pageOf_congr (hcp.part .pages).1 asn _).trans hg)
  · rw [hsw]
    have hmem : (meetCells (poisonSeen s g.ppn 0 pageBytes) (g.ppn * pageBytes) pageBytes).mem = s.mem :=
      (reads_meetCells ..).mem.trans (hps.part .mem).1
    exact congrArg (fun m => Mem.copy m (g.ppn * pageBytes) (d * pageBytes) pageBytes) hmem

theorem only_movePage (s : State) (asn : Nat) (g : Page) (d : Nat) :
    Only [.regs, .dies, .pages, .mem, .traffic] s (movePage s asn g d) :=
  (keeps_movePage (w₀ := Part.among [.regs, .dies, .pages, .mem, .traffic]) s asn g d (Keeps.refl s)).only

/-- Once held writes may leave, no core holds a write for the page. -/
theorem holders_releaseHolders (s : State) (asn v : Nat) : holders (releaseHolders s asn v) asn v = [] := by
  unfold holders releaseHolders
  rw [ctxOf_modCtx_self (f := fun c => { c with cores := c.cores.map fun k => if k.holds v then { k with hold := none } else k })
    fun _ => rfl]
  cases ctxOf s asn with
  | none => rfl
  | some c =>
    refine List.filter_eq_nil_iff.2 fun i _ => ?_
    rw [List.getElem?_map]
    cases c.cores[i]? with
    | none => simp
    | some k => cases hk : k.holds v <;> simp_all [Core.holds]

end pages

/-! ### The page commands -/

section commands

variable {s b : State} {h : CmdHdr} {asn n va : Nat}

theorem exec_memAlloc_maps {tier w place : Nat} {ppns : List Nat} (hva : va % pageBytes = 0) (hn : 0 < n)
    (hend : va + pageBytes * n ≤ 2 ^ 56) (hsp : (spaceOf b asn).isSome = true)
    (hw : (Instr.memAlloc h asn tier w n va place).wf = true) (hb : Begins s (.memAlloc h asn tier w n va place) h 0x0030 b)
    (ht : tier ≤ 1) (hww : w ≤ 1) (hpl : placeOk b tier place = true) (hfree : pagesIn b asn (va / pageBytes) n = [])
    (hnear : tier = 0 ∨ w = 1 → nearDue b asn + n ≤ nearQuota b asn) (hcell : tier = 1 → cellarDue b asn + n ≤ cellarQuota b asn)
    (hroom : n ≤ freePages b tier (places b tier place))
    (htake : takePages b tier (places b tier place) (usedPpns b) 0 n = some ppns) :
    exec (.memAlloc h asn tier w n va place) s = .next { mapPages b asn (va / pageBytes) (w == 1) ppns with
      fills := b.fills ++ [{ hdr := h, asn := asn }] } := by
  have hform : ¬(va % pageBytes ≠ 0 ∨ n = 0 ∨ 1 < tier ∨ 1 < w ∨ (!placeOk b tier place) = true) := by
    rintro (h | h | h | h | h)
    · exact h hva
    any_goals omega
    · simp [hpl] at h
  have hnear' : ¬((tier = 0 ∨ w = 1) ∧ nearQuota b asn < nearDue b asn + n) := fun ⟨h1, h2⟩ => by
    have := hnear h1
    omega
  have hcell' : ¬(tier = 1 ∧ cellarQuota b asn < cellarDue b asn + n) := fun ⟨h1, h2⟩ => by
    have := hcell h1
    omega
  have hfills : (mapPages b asn (va / pageBytes) (w == 1) ppns).fills = b.fills :=
    ((Keeps.foldl (w₀ := Part.among [.mem]) (l := ppns) (Keeps.refl b) fun p u h => keeps_zeroPage u p h).only.part .moves).1
  rw [exec_memAlloc_next hw, submit_of_begins hb, startAlloc]
  dsimp only
  rw [if_neg hform, if_neg (Nat.not_lt.2 hend), if_neg (by simpa using Option.ne_none_iff_isSome.2 hsp), hfree,
    if_neg (by simp), if_neg hnear', if_neg hcell', if_neg (Nat.not_lt.2 hroom), htake]
  dsimp only
  rw [hfills]

theorem exec_memFree_unmaps (hva : va % pageBytes = 0) (hn : 0 < n) (hend : va + pageBytes * n ≤ 2 ^ 56)
    (hsp : (spaceOf b asn).isSome = true) (hw : (Instr.memFree h asn n va).wf = true)
    (hb : Begins s (.memFree h asn n va) h 0x0032 b) (hlen : (pagesIn b asn (va / pageBytes) n).length = n)
    (hbusy : busyIn b asn (va / pageBytes) n = false) (hjob : jobRunning b asn = false) :
    exec (.memFree h asn n va) s = .next (complete (unmapPages b asn (va / pageBytes) n) h 0x0032 .ok []) := by
  have hform : ¬(va % pageBytes ≠ 0 ∨ n = 0) := by
    rintro (h | h)
    · exact h hva
    · omega
  rw [exec_memFree_next hw, submit_of_begins hb, startFree]
  dsimp only
  rw [if_neg hform, if_neg (Nat.not_lt.2 hend), if_neg (by simpa using Option.ne_none_iff_isSome.2 hsp),
    if_neg (by simp [hlen, hbusy]), if_neg (by simp [hjob])]

theorem exec_memMigrate_moves {tier access place : Nat} {ppns : List Nat} (hva : va % pageBytes = 0) (hn : 0 < n)
    (hend : va + pageBytes * n ≤ 2 ^ 56) (hsp : (spaceOf b asn).isSome = true)
    (hw : (Instr.memMigrate h asn tier access n va place).wf = true)
    (hb : Begins s (.memMigrate h asn tier access n va place) h 0x0031 b)
    (ht : tier ≤ 1) (ha : access ≤ 2) (hpl : placeOk b tier place = true) :
    let v := va / pageBytes
    let ps := pagesIn b asn v n
    let move := ps.filter fun p => !inPlace tier (places b tier place) p
    let nearNew := (ps.filter fun p => tier == 0 || newW access p.w).length
    let nearOld := (ps.filter fun p => isNear p.ppn || p.w).length
    let cellOld := (ps.filter fun p => !isNear p.ppn).length
    let cellNew := if tier = 1 then ps.length else 0
    ps.length = n → busyIn b asn v n = false → (∀ p ∈ ps, p.lost = false) → (access ≠ 0 → jobRunning b asn = false) →
    (nearNew ≤ nearOld ∨ nearDue b asn - nearOld + nearNew ≤ nearQuota b asn) →
    (cellNew ≤ cellOld ∨ cellarDue b asn - cellOld + cellNew ≤ cellarQuota b asn) →
    move.length ≤ freePages b tier (places b tier place) →
    takePages b tier (places b tier place) (usedPpns b) 0 move.length = some ppns →
    let u := modSpace b asn fun x => { x with pages := x.pages.map fun p =>
      if v ≤ p.vpn ∧ p.vpn < v + n then { p with w := newW access p.w } else p }
    let m : Migration := { hdr := h, asn := asn, left := (move.zip ppns).map (goal tier), tier := tier, place := place
                           cursor := 0, moved := 0, kept := 0 }
    exec (.memMigrate h asn tier access n va place) s =
      .next (settleMigration { u with migrations := u.migrations ++ [m] } m) := by
  intro v ps move nearNew nearOld cellOld cellNew hlen hbusy hlost hjob hnear hcell hroom htake u m
  have hform : ¬(va % pageBytes ≠ 0 ∨ n = 0 ∨ 1 < tier ∨ 2 < access ∨ (!placeOk b tier place) = true) := by
    rintro (h | h | h | h | h)
    · exact h hva
    any_goals omega
    · simp [hpl] at h
  have hlost' : ¬ps.any (·.lost) = true := by simpa using hlost
  have hjob' : ¬(access ≠ 0 ∧ jobRunning b asn = true) := fun ⟨h1, h2⟩ => by simp [hjob h1] at h2
  have hnear' : ¬(nearOld < nearNew ∧ nearQuota b asn < nearDue b asn - nearOld + nearNew) := by omega
  have hcell' : ¬(cellOld < cellNew ∧ cellarQuota b asn < cellarDue b asn - cellOld + cellNew) := by omega
  have hbusy' : ¬(ps.length ≠ n ∨ busyIn b asn v n = true) := by
    rintro (h | h)
    · exact h hlen
    · simp [hbusy] at h
  rw [exec_memMigrate_next hw, submit_of_begins hb, startMigrate]
  dsimp only
  rw [if_neg hform, if_neg (Nat.not_lt.2 hend), if_neg (by simpa using Option.ne_none_iff_isSome.2 hsp), if_neg hbusy',
    if_neg hlost', if_neg hjob', if_neg hnear', if_neg hcell', if_neg (Nat.not_lt.2 hroom), htake]

end commands

/-- Settles O42: each command's checks pass; a move copies the page's bytes and lets its held writes go. -/
theorem pageCommandsComplete : Obligations.PageCommandsComplete := by
  refine ⟨fun s b h asn n va hva hn hend hsp => ⟨fun tier w place ppns hw hb ht hww hpl hfree hnear hcell hroom htake =>
      exec_memAlloc_maps hva hn hend hsp hw hb ht hww hpl hfree hnear hcell hroom htake,
    fun hw hb hlen hbusy hjob => ⟨exec_memFree_unmaps hva hn hend hsp hw hb hlen hbusy hjob, fun k => pageOf_unmapPages b asn⟩,
    fun tier access place ppns hw hb ht ha hpl => exec_memMigrate_moves hva hn hend hsp hw hb ht ha hpl⟩,
    fun s asn => ⟨fun hw f hf => ?_, fun hw m v x l g hm hl hg hlost => ⟨fun hin => ?_, fun hout d cur hdst => ⟨fun hwt => ?_,
      fun hwt hne => ⟨?_, ?_, ?_, ?_, ?_⟩⟩⟩⟩⟩
  · rw [exec_zeroFillDone_next hw, zeroFillDone, hf]
  · rw [exec_migratePageDone_next hw, migratePageDone, hm]
    simp only [hl, hg, hlost, hin, if_true, Bool.false_eq_true, if_false]
  · rw [exec_migratePageDone_next hw, migratePageDone, hm]
    simp only [hl, hg, hlost, hout, hdst, hwt, if_true, Bool.false_eq_true, if_false]
  · rw [exec_migratePageDone_next hw, migratePageDone, hm]
    simp only [hl, hg, hlost, hout, hdst, hwt, Bool.false_eq_true, if_false]
  · exact (movePage_facts hg d).1
  · exact (movePage_facts hg d).2
  · exact ((only_movePage s asn g d).part .moves).2.1
  · exact holders_releaseHolders ..

/-! ### Transfers -/

theorem startXfer_runs {b : State} {h : CmdHdr} {toHost : Bool} {asn w va off n : Nat} (hw : w ≤ 15) (hva : va % 64 = 0)
    (hoff : off % 64 = 0) (hn : n % 64 = 0) (hsp : (spaceOf b asn).isSome = true) (hfit : off + n ≤ hwBytes b asn w)
    (hsize : hwBytes b asn w ≠ 0) :
    startXfer h toHost asn w va off n b = { b with
      xfers := b.xfers ++ [{ id := b.nextId, hdr := h, asn := asn, toHost := toHost, window := w, va := va, winOff := off, bytes := n }]
      nextId := b.nextId + 1 } := by
  have hform : ¬(15 < w ∨ va % 64 ≠ 0 ∨ off % 64 ≠ 0 ∨ n % 64 ≠ 0) := by omega
  have hstate : ¬((spaceOf b asn).isNone = true ∨ hwBytes b asn w = 0) := by
    rintro (h | h)
    · simp [Option.isNone_iff_eq_none.1 h] at hsp
    · exact hsize h
  rw [startXfer]
  dsimp only
  rw [if_neg hform, if_neg hstate, if_neg (Nat.not_lt.2 hfit)]

/-- What a transfer to the host that delivers bytes leaves before it completes. -/
def delivered (s : State) (x : Xfer) (v : Bytes) : State :=
  let t := hubReadsVirt (meetVirt { s with xfers := s.xfers.erase x } x.asn x.va x.bytes) x.asn x.va v.length
  { t with out := t.out ++ [.hostWrite (hwAddr s x.asn x.window x.winOff) v] }

theorem out_delivered (s : State) (x : Xfer) (v : Bytes) :
    (delivered s x v).out = s.out ++ [.hostWrite (hwAddr s x.asn x.window x.winOff) v] := by
  have h := (keeps_hubReadsVirt (w₀ := Part.among [.dies, .mem, .traffic]) _ x.asn x.va v.length
    (keeps_meetVirt { s with xfers := s.xfers.erase x } x.asn x.va x.bytes (Keeps.refl _))).only
  have hout : (hubReadsVirt (meetVirt { s with xfers := s.xfers.erase x } x.asn x.va x.bytes) x.asn x.va v.length).out = s.out :=
    (h.part .host).2.2.2
  exact congrArg (· ++ [_]) hout

/-- Settles O43: what a transfer that ends reads or writes is what the good part of its range holds. -/
theorem transfersComplete : Obligations.TransfersComplete := by
  refine ⟨?_, ?_⟩
  · intro s b h asn w va off n hw hva hoff hn hsp hfit hsize runs
    refine ⟨fun hwf hb => ?_, fun hwf hb => ?_⟩
    · rw [exec_xferToHost_next hwf, submit_of_begins hb, startXfer_runs hw hva hoff hn hsp hfit hsize]
    · rw [exec_xferFromHost_next hwf, submit_of_begins hb, startXfer_runs hw hva hoff hn hsp hfit hsize]
  · intro s id host x hw hx
    refine ⟨fun hto v hv hne => ⟨delivered s x v, ?_, out_delivered s x v⟩, fun hto d hd => ?_⟩
    · have hemp : v.isEmpty = false := by simpa using hne
      dsimp only at hv ⊢
      rw [exec_xferComplete_next hw]
      unfold xferComplete
      rw [hx]
      dsimp only
      rw [if_pos hto, hv, hemp]
      rfl
    · dsimp only
      rw [exec_xferComplete_next hw]
      unfold xferComplete
      rw [hx, hd]
      dsimp only
      rw [if_neg (by simp [hto])]

end Sys2Proof.Machine
end

section
/-! Groups, streams and mode epochs: the commands that open and close them, and how an epoch ends. -/

namespace Sys2Proof.Machine

/-! ### Groups and streams -/

section groups

variable {s b : State} {h : CmdHdr} {asn : Nat}

/-- The end of a GROUP_CREATE whose member table is good. -/
theorem exec_groupCreate_ends {size tag gen credits wdMs va i r : Nat} {bytes : Bytes}
    (hw : (Instr.groupCreate h asn size tag gen credits wdMs va).wf = true)
    (hb : Begins s (.groupCreate h asn size tag gen credits wdMs va) h 0x0040 b) (h0 : 0 < size) (hsize : size ≤ 256)
    (hlo : 16 ≤ credits) (hhi : credits ≤ 1024) (hva : va % 64 = 0) (hsp : (spaceOf b asn).isSome = true) {u : State}
    (hu : agentReads b asn va (2 * size) = u) (hr : virtRead u asn va (2 * size) = .ok bytes) {ids : List Nat}
    (hids : ids = (List.range size).map fun i => field bytes (2 * i) 2) (hlt : ∀ x ∈ ids, x < 4096)
    (hdup : ids.eraseDups.length = size) (hme : ids.findIdx? (· == modId u) = some r)
    (htag : (u.groups.any fun g => g.any fun g => g.tag == tag) = false) (hslot : u.groups.findIdx? Option.isNone = some i)
    (hcr : credits ≤ freeCredits u) :
    exec (.groupCreate h asn size tag gen credits wdMs va) s = .next (complete { u with groups := u.groups.set i (some
      { asn := asn, tag := tag, gen := gen, members := ids, rank := r, credits := credits, wdMs := wdMs, stale := false, cts := []
        aborts := [], overSeqs := [], overLanded := [] }) } h 0x0040 .ok (record 16 [(0, 1, i)])) := by
  have hform : ¬(size = 0 ∨ 256 < size ∨ credits < 16 ∨ 1024 < credits ∨ va % 64 ≠ 0) := by omega
  have hall : (ids.all fun x => decide (x < 4096)) = true := by simpa using hlt
  have hmem : ¬((!ids.all fun x => decide (x < 4096)) = true ∨ ids.eraseDups.length ≠ size ∨
      (ids.findIdx? (· == modId u)).isNone = true) := by
    simp [hall, hdup, hme]
  rw [exec_groupCreate_next hw, submit_of_begins hb]
  unfold startGroupCreate
  dsimp only
  rw [if_neg hform, if_neg (by simpa using Option.ne_none_iff_isSome.2 hsp), readThen, hu, hr]
  dsimp only
  rw [← hids, if_neg hmem, if_neg (by simp [htag]), hslot]
  dsimp only
  rw [if_neg (Nat.not_lt.2 hcr), hme]
  rfl

theorem exec_groupDestroy_ends {slot : Nat} {g : Group} (hw : (Instr.groupDestroy h asn slot).wf = true)
    (hb : Begins s (.groupDestroy h asn slot) h 0x0041 b) (hslot : slot ≤ 63) (hg : b.groups.getD slot none = some g)
    (hasn : g.asn = asn) (hjob : jobRunning b asn = false) (hf : (b.firings.any fun f => f.slot == slot) = false) :
    exec (.groupDestroy h asn slot) s =
      .next (complete { b with groups := b.groups.set slot none } h 0x0041 .ok []) := by
  rw [exec_groupDestroy_next hw, submit_of_begins hb, startGroupDestroy, if_neg (Nat.not_lt.2 hslot), hg]
  dsimp only
  rw [if_neg (by simp only [hasn, hjob, hf]; simp)]

/-- The end of a STREAM_OPEN whose parameters are good. -/
theorem exec_streamOpen_ends {unit semBase va slot : Nat} {par : Bytes} (hw : (Instr.streamOpen h unit asn semBase va).wf = true)
    (hb : Begins s (.streamOpen h unit asn semBase va) h 0x0050 b) (hunit : unit ≤ 3) (hsem : semBase ≤ 252) (hva : va % 64 = 0)
    (hsp : (spaceOf b asn).isSome = true) {u : State} (hu : agentReads b asn va 256 = u)
    (hr : virtRead u asn va 256 = .ok par) (hpar : parOk par = true) (hbuf : buffersOk u asn par = true) (hfits : parFits par = true)
    (hslot : (getCodec u unit).streams.findIdx? Option.isNone = some slot)
    (hload : (loadOf ((getCodec u unit).openStreams.map (·.par) ++ [par])).1 ≤
      codecCapacity * (loadOf ((getCodec u unit).openStreams.map (·.par) ++ [par])).2) :
    exec (.streamOpen h unit asn semBase va) s = .next (complete
      (putStream u (32 * unit + slot) (some (newStream u asn semBase par))) h 0x0050 .ok [BitVec.ofNat 8 (32 * unit + slot)]) := by
  have hform : ¬(3 < unit ∨ 252 < semBase ∨ va % 64 ≠ 0) := by omega
  rw [exec_streamOpen_next hw, submit_of_begins hb]
  unfold startStreamOpen
  dsimp only
  rw [if_neg hform, if_neg (by simpa using Option.ne_none_iff_isSome.2 hsp), readThen, hu, hr]
  dsimp only
  rw [hpar, hbuf, hfits, if_neg (by decide), if_neg (by decide), if_neg (by decide), hslot]
  dsimp only
  rw [if_neg (Nat.not_lt.2 hload)]

end groups

/-- Settles O44: each command's checks pass, and what is left is what its effect does. -/
theorem groupsAndStreamsComplete : Obligations.GroupsAndStreamsComplete := by
  refine ⟨?_, fun s b h asn slot g hw hb hs hg ha hj hf => exec_groupDestroy_ends hw hb hs hg ha hj hf, ?_,
    fun s b h id t ht => ⟨fun hw hb => ?_, fun entry hw hb hst hfed hend hroom => ?_, fun n hw hb h0 hn hst hfed hend hout => ?_⟩⟩
  · intro s b h asn size tag gen credits wdMs va i r bytes hw hb h0 hsize hlo hhi hva hsp
    dsimp only
    intro hr hlt hdup hme htag hslot hcr
    exact exec_groupCreate_ends hw hb h0 hsize hlo hhi hva hsp rfl hr rfl hlt hdup hme htag hslot hcr
  · intro s b h unit asn semBase va slot par hw hb hunit hsem hva hsp
    dsimp only
    intro hr hpar hbuf hfits hslot hload
    exact exec_streamOpen_ends hw hb hunit hsem hva hsp rfl hr hpar hbuf hfits hslot hload
  · rw [exec_streamClose_next hw, submit_of_begins hb, startStreamClose, ht]
  · rw [exec_frameSubmit_next hw, submit_of_begins hb, startFrameSubmit, ht]
    dsimp only
    rw [if_neg (by simp [hst, hfed, hend]), if_neg (Nat.not_le.2 hroom)]
  · have hform : ¬(n = 0 ∨ 4096 < n) := by omega
    rw [exec_frameRelease_next hw, submit_of_begins hb, startFrameRelease]
    dsimp only
    rw [if_neg hform, ht]
    dsimp only
    rw [if_neg (by simp [hst, hfed, hend, Nat.not_lt.2 hout])]

/-! ### Mode epochs -/

section epochs

variable {s b : State} {h : CmdHdr}

/-- A completion changes the host's side and the registers alone. -/
theorem only_complete (s : State) (h : CmdHdr) (c : Nat) (st : Status) (d : Bytes) : Only [.host, .regs] s (complete s h c st d) :=
  (keeps_complete (w₀ := Part.among [.host, .regs]) s h c st d (Keeps.refl s)).only

theorem only_sendMsg (s : State) (code : Nat) (fs) : Only [.host, .regs] s (sendMsg s code fs) :=
  (keeps_sendMsg (w₀ := Part.among [.host, .regs]) s code fs (Keeps.refl s)).only

theorem startModeSet_begins {taster : Bool} {value rate timeout : Nat} (hp : b.modes.pending = none)
    (hf : modeFieldsOk taster value rate timeout = true) :
    startModeSet h taster value rate b.modes.epoch timeout b = tryCommit { b with modes := { b.modes with pending := some {
      hdr := h, taster := taster, value := value, rate := rate, since := b.hub.timebase
      timeoutNs := 1000 * (if timeout = 0 then 10000 else timeout)
      dies := ((List.range 4).filter fun d => dieIs b d .online) ++ (List.range 4).filter fun d => dieIs b d .draining
      late := (List.range 4).filter fun d => dieIs b d .resetting, acked := [] } } } := by
  unfold startModeSet
  rw [hf, if_neg (by decide), if_neg (fun h => h rfl), hp, if_neg (by decide)]

/-- The modes in force once an epoch commits. -/
def Modes.committed (m : Modes) (e : Epoch) : Modes :=
  let m1 := if e.taster then { m with tasteEn := e.value == 1, rate := e.rate } else { m with vintage := e.value == 1 }
  { m1 with pending := none, epoch := (m.epoch + 1) % 2 ^ 32, lastReason := 0, ackMissing := 0 }

/-- A die of an epoch takes the modes in force. -/
def Die.takes (m : Modes) (e : Epoch) (d : Nat) (x : Die) : Die :=
  let y := { x with fnPending := false, tastePending := false }
  if e.dies.contains d || e.late.contains d then { y with vintage := m.vintage, tasteEn := m.tasteEn, tasteRate := m.rate } else y

/-- An epoch that every die has acknowledged commits. -/
theorem tryCommit_commits {e : Epoch} (hp : s.modes.pending = some e) (hall : ∀ d ∈ e.dies, d ∈ e.acked) :
    (tryCommit s).modes = s.modes.committed e ∧ (tryCommit s).dies = s.dies.mapIdx (Die.takes (s.modes.committed e) e) := by
  unfold tryCommit
  rw [hp]
  dsimp only
  rw [if_neg (by simpa using hall)]
  have hu : ∀ u : State, (complete (releaseHeld u) e.hdr 0x0060 .ok (modeDetail u 0 0)).modes = u.modes ∧
      (complete (releaseHeld u) e.hdr 0x0060 .ok (modeDetail u 0 0)).dies = u.dies := fun u =>
    ⟨(only_complete (releaseHeld u) ..).part .modes, (only_complete (releaseHeld u) ..).part .dies⟩
  exact ⟨(hu _).1, (hu _).2⟩

/-- The last acknowledgement commits the epoch. -/
theorem epochAck_commits {d : Nat} {e : Epoch} (hp : s.modes.pending = some e) (hd : d ∈ e.dies) (hna : d ∉ e.acked)
    (hq : dieQuiet s d e.taster = true) (hall : ∀ x ∈ e.dies, x = d ∨ x ∈ e.acked) :
    let m := s.modes.committed { e with acked := e.acked ++ [d] }
    (epochAck s d).modes = m ∧ ∃ l, (epochAck s d).dies = List.mapIdx (Die.takes m { e with acked := e.acked ++ [d] }) l := by
  intro m
  have hack : epochAck s d = tryCommit (modDie { s with modes := { s.modes with pending := some { e with acked := e.acked ++ [d] } } } d
      fun x => if e.taster then { x with tastePending := true } else { x with fnPending := true }) := by
    unfold epochAck
    rw [hp]
    dsimp only
    rw [if_pos (by simp [hd, hna, hq])]
  obtain ⟨hm, hdies⟩ := tryCommit_commits
    (s := modDie { s with modes := { s.modes with pending := some { e with acked := e.acked ++ [d] } } } d
      fun x => if e.taster then { x with tastePending := true } else { x with fnPending := true })
    (e := { e with acked := e.acked ++ [d] }) rfl (fun x hx => by
      obtain h | h := hall x hx
      · simp [h]
      · simp [h])
  have hmod : (modDie { s with modes := { s.modes with pending := some { e with acked := e.acked ++ [d] } } } d
      fun x => if e.taster then { x with tastePending := true } else { x with fnPending := true }).modes.committed
      { e with acked := e.acked ++ [d] } = m := by
    simp only [m, Modes.committed, modDie_modes]
    cases e.taster <;> rfl
  rw [hack, hm, hdies, hmod]
  exact ⟨rfl, _, rfl⟩

/-- An epoch that is aborted leaves the modes in force. -/
theorem epochAbort_modes {e : Epoch} (reason : Nat) (hp : s.modes.pending = some e) : ∃ miss, (epochAbort s reason).modes =
    { s.modes with pending := none, lastReason := reason, ackMissing := miss } := by
  unfold epochAbort
  rw [hp]
  exact ⟨_, ((only_sendMsg ..).part .modes).trans ((only_complete ..).part .modes)⟩

end epochs

/-- Settles O45: a commit is the modes it sets and what the dies of the epoch take. -/
theorem modeEpochsComplete : Obligations.ModeEpochsComplete := by
  refine ⟨?_, fun s d e hw hp hd hna hq hall => ?_, fun s e hp ht => ?_⟩
  · intro s b h value rate timeout hp dies begins
    refine ⟨fun hw hb hf => ?_, fun hw hb hf => ?_⟩
    · rw [exec_modeSetVintage_next hw, submit_of_begins hb, startModeSet_begins hp hf]
    · rw [exec_modeSetTaster_next hw, submit_of_begins hb, startModeSet_begins hp hf]
  · obtain ⟨hm, l, hl⟩ := epochAck_commits hp hd hna hq hall
    refine ⟨epochAck s d, exec_dieEpochAck_next hw, ?_⟩
    rw [hm, hl]
    refine ⟨rfl, rfl, fun h => ?_, fun h => ?_, fun i x hi hx => ?_⟩
    · simp [Modes.committed, h]
    · simp [Modes.committed, h]
    · rw [List.getElem?_mapIdx] at hx
      obtain ⟨y, -, rfl⟩ := Option.map_eq_some_iff.1 hx
      simp [Die.takes, hi]
  · obtain ⟨miss, hm⟩ := epochAbort_modes 2 hp
    refine ⟨epochAbort s 2, ?_, ?_⟩
    · rw [exec_epochTimeout_next rfl, epochTimeout, hp]
      exact congrArg _ (if_pos ht)
    · rw [hm]
      exact ⟨rfl, rfl, rfl, rfl, rfl, rfl⟩

end Sys2Proof.Machine
end

section
/-! APPLY, Dormant and wake: what an APPLY ends with, and what each die is after a change made die by die. -/

namespace Sys2Proof.Machine

/-! ### APPLY -/

section apply

variable {s b : State} {h : CmdHdr}

/-- An APPLY that writes no image ends at once, and the boot sequence resumes. -/
theorem applyStore_ends (u : State) (h : CmdHdr) (k : FlashBank) : applyStore u h false false k =
    resumeBoot (complete { u with hub := { u.hub with apply := none } } h 0x0070 .ok (applyDetail 0 0 0xFFFFFFFF)) := rfl

/-- An APPLY that writes its image waits for the write. -/
theorem applyStore_writes (u : State) (h : CmdHdr) (storeOnly : Bool) (k : FlashBank) (hf : flashReady u = true) :
    applyStore u h storeOnly true k = startFlashWrite { u with hub := { u.hub with apply := some { hdr := h, storeOnly := storeOnly } } }
      { region := .config, body := slice k.body 0 (field k.header 8 4), part := field k.header 18 2
        pkg := field k.header 20 1, upTo := 0 } :=
  if_pos hf

theorem length_of_bankValid {k : FlashBank} (hv : bankValid .config k = true) : 64 + field k.header 8 4 ≤ 0x1000000 := by
  unfold bankValid at hv
  simp only [Bool.and_eq_true, decide_eq_true_eq] at hv
  obtain ⟨⟨⟨⟨-, hlen⟩, -⟩, -⟩, -⟩ := hv
  have : Region.config.bankSize = 0x1000000 := rfl
  omega

/-- The checks of an APPLY that names a good image pass. -/
theorem startApply_image {storeOnly writeFlash : Bool} {bus bytes : Nat} {d : Bytes} (hst : applyStateOk b storeOnly = true) (hbus : bus ≠ 0) (hmod : bus % 64 = 0) (hw : storeOnly = true → writeFlash = true)
    (hv : bankValid .config (imageBank d) = true) (hlen : d.length = bytes) (hbytes : bytes = 64 + field (imageBank d).header 8 4)
    (hck : checkImage b (field (imageBank d).header 18 2) (field (imageBank d).header 20 1)
      (imageRecords (slice (imageBank d).body 0 (field (imageBank d).header 8 4))) = none) :
    startApply h storeOnly writeFlash bus bytes (.data d) b =
      if storeOnly then applyStore b h true writeFlash (imageBank d) else
        let u := applyRecords b (imageRecords (slice (imageBank d).body 0 (field (imageBank d).header 8 4)))
        applyStore { u with hub := { u.hub with cfgSrc := .apply, cfgSeq := field (imageBank d).header 4 4 } } h false writeFlash
          (imageBank d) := by
  have hle := length_of_bankValid hv
  have hok : applyFieldsOk storeOnly writeFlash bus bytes = true := by
    have h1 : (bytes == 0) = false := beq_eq_false_iff_ne.2 (by omega)
    have h2 : (bus == 0) = false := beq_eq_false_iff_ne.2 hbus
    have h3 : bytes ≤ 0x1000000 := by omega
    have h4 : (bus != 0) = true := by simp [hbus]
    cases storeOnly
    · simp [applyFieldsOk, hmod, h1, h2, h3, h4]
    · simp [applyFieldsOk, hmod, h1, h2, h3, h4, hw]
  have hgood : ¬(!(bankValid .config (imageBank d) && d.length == bytes && bytes == 64 + field (imageBank d).header 8 4)) = true := by
    simp [hv, hlen, ← hbytes]
  unfold startApply
  dsimp only
  rw [if_neg (by simp [hok]), if_neg (by simp [hst]), if_neg hbus, if_neg hgood, hck]

end apply

/-! ### Die by die -/

section dies

variable {f : State → Nat → State} {P : Nat → Die → Die → Prop}

/-- A change made die by die does to each die what its own turn does. -/
theorem getDie_foldl_each (hlen : ∀ s d, (f s d).dies.length = s.dies.length)
    (hother : ∀ s d e, e ≠ d → getDie (f s d) e = getDie s e)
    (hself : ∀ s d, d < s.dies.length → P d (getDie s d) (getDie (f s d) d)) (l : List Nat) (hl : l.Nodup) (s : State) (d : Nat) :
    (d ∉ l → getDie (l.foldl f s) d = getDie s d) ∧
    (d ∈ l → d < s.dies.length → P d (getDie s d) (getDie (l.foldl f s) d)) := by
  induction l generalizing s with
  | nil => simp
  | cons e l ih =>
    obtain ⟨hne, hnd⟩ := List.nodup_cons.1 hl
    obtain ⟨hout, hin⟩ := ih hnd (f s e)
    refine ⟨fun hd => ?_, fun hd hlt => ?_⟩
    · obtain ⟨h1, h2⟩ := not_or.1 (fun h => hd (List.mem_cons.2 h))
      exact (hout h2).trans (hother s e d h1)
    · by_cases hde : d = e
      · subst hde
        have := hself s d hlt
        rwa [← hout hne] at this
      · have := hin ((List.mem_cons.1 hd).resolve_left hde) (by rw [hlen]; exact hlt)
        rwa [hother s e d hde] at this

theorem length_foldl_each (hlen : ∀ s d, (f s d).dies.length = s.dies.length) (l : List Nat) (s : State) :
    (l.foldl f s).dies.length = s.dies.length := by
  induction l generalizing s with
  | nil => rfl
  | cons e l ih => exact (ih _).trans (hlen s e)

theorem dies_resetWindow (s : State) (d : Nat) : (resetWindow s d).dies.length = s.dies.length ∧
    (∀ e, e ≠ d → getDie (resetWindow s d) e = getDie s e) ∧
    ∀ {β : Type} (v : Die → β), (∀ (y : Die) a b c i j k, v { y with
        vintage := a, tasteEn := b, tasteRate := c, islands := i, fnPending := j, tastePending := k } = v y) →
      v (getDie (resetWindow s d) d) = v (getDie s d) :=
  ⟨length_modDie, fun e he => getDie_modDie_other he, fun v hv => by
    by_cases hd : d < s.dies.length
    · have : getDie (resetWindow s d) d = _ := getDie_modDie_self (s := { s with latches := _, traffic := _, regs := _ }) hd
      rw [this]
      exact hv ..
    · have : (resetWindow s d).dies = s.dies := List.modify_eq_self (Nat.le_of_not_lt hd)
      rw [getDie_congr this]⟩

theorem dies_dieAbsent (s : State) (d : Nat) : (dieAbsent s d).dies.length = s.dies.length ∧
    (∀ e, e ≠ d → getDie (dieAbsent s d) e = getDie s e) ∧
    (d < s.dies.length → (getDie (dieAbsent s d) d).state = .offline) := by
  obtain ⟨hl, ho, -⟩ := dies_resetWindow s d
  have h : (dieAbsent s d).dies = (modDie (resetWindow s d) d fun x => { x with state := .offline, stage := 0, goal := .none }).dies :=
    (keeps_sendMsg (w₀ := Part.among [.regs, .host, .store]) _ _ _ (keeps_logFault _ _ (Keeps.refl _))).only.part .dies
  refine ⟨by rw [h, length_modDie, hl], fun e he => ?_, fun hd => ?_⟩
  · rw [getDie_congr h, getDie_modDie_other he, ho e he]
  · rw [getDie_congr h, getDie_modDie_self (hl ▸ hd)]

theorem dies_flagDie (s : State) (d r : Nat) : (flagDie s d r).dies.length = s.dies.length ∧
    (∀ e, e ≠ d → getDie (flagDie s d r) e = getDie s e) ∧ (getDie (flagDie s d r) d).state = (getDie s d).state := by
  have h : (flagDie s d r).dies = (modDie s d fun x => { x with flag := r }).dies :=
    (keeps_sendMsg (w₀ := Part.among [.regs, .host, .store]) _ _ _
      (keeps_logFault _ _ (keeps_addMap _ _ _ _ _ _ (Keeps.refl _)))).only.part .dies
  refine ⟨by rw [h, length_modDie], fun e he => ?_, ?_⟩
  · rw [getDie_congr h, getDie_modDie_other he]
  · rw [getDie_congr h]
    exact dieField_modDie (f := fun x => { x with flag := r }) (·.state) (fun _ => rfl) d d

/-- A die at the end of wake. -/
theorem dies_wakeDie (s : State) (d : Nat) : (wakeDie s d).dies.length = s.dies.length ∧
    (∀ e, e ≠ d → getDie (wakeDie s d) e = getDie s e) ∧
    (d < s.dies.length → (getDie (wakeDie s d) d).state =
      if (getDie s d).stage = 3 ∧ (getDie s d).wasOnline = true ∧ (getDie s d).flag = 0 then .online else .offline) := by
  obtain ⟨hl, ho, hf⟩ := dies_resetWindow s d
  unfold wakeDie
  dsimp only
  split
  next h3 =>
    refine ⟨by rw [length_modDie, hl], fun e he => by rw [getDie_modDie_other he, ho e he], fun hd => ?_⟩
    rw [getDie_modDie_self (hl ▸ hd), settleDie]
    dsimp only
    have hw := hf (·.wasOnline) fun _ _ _ _ _ _ _ => rfl
    have hg := hf (·.flag) fun _ _ _ _ _ _ _ => rfl
    rw [hw, hg]
    simp [h3]
  next h3 =>
    obtain ⟨hla, hoa, hsa⟩ := dies_dieAbsent s d
    obtain ⟨hlf, hof, hsf⟩ := dies_flagDie (dieAbsent s d) d 4
    refine ⟨hlf.trans hla, fun e he => (hof e he).trans (hoa e he), fun hd => ?_⟩
    rw [hsf, hsa hd, if_neg (fun h => h3 h.1)]

end dies

/-! ### Dormant and wake -/

/-- The module once Dormant entry has begun. -/
def dormantBegun (b : State) (h : CmdHdr) : State :=
  { b with
    hub := { b.hub with boot := .enteringDormant, dormantCmd := some h, dormantFrom := b.hub.timebase, corkedCount := 0 }
    dies := b.dies.map fun d => { d with wasOnline := d.state == .online } }

/-- Dormant entry starts the cork of every context that is resident. -/
theorem startDormant_facts (b : State) (h : CmdHdr) (hr : b.hub.boot = .ready) (hm : b.modes.pending = none)
    (hd : ∀ d ∈ b.dies, d.state ≠ .draining) :
    let t := startDormant h b
    t.hub.boot = .enteringDormant ∧ t.hub.dormantCmd = some h ∧ t.hub.dormantFrom = b.hub.timebase ∧
      ∀ c ∈ t.ctxs, c.state = .corking ∨ c.state = .corked := by
  intro t
  have hcond : b.hub.boot = .ready ∧ b.modes.pending.isNone = true ∧ (!(b.dies.any fun d => d.state == .draining)) = true := by
    refine ⟨hr, by simp [hm], ?_⟩
    simpa using hd
  obtain ⟨s2, hs2⟩ : ∃ u, u = [0, 1, 2, 3].foldl abortScreen (dormantBegun b h) := ⟨_, rfl⟩
  have ht : t = ((s2.ctxs.filter (·.resident)).map (·.asn)).foldl startCork s2 := by
    rw [hs2]
    exact if_pos hcond
  have hhub : t.hub = (dormantBegun b h).hub := by
    rw [ht, hs2]
    exact (Keeps.foldl (w₀ := Part.among [.regs, .host, .dies, .store, .ctxs, .acct])
      (Keeps.foldl (Keeps.refl _) fun d u h => keeps_abortScreen u d h) fun a u h => keeps_startCork u a h).only.part .hub
  refine ⟨by rw [hhub]; rfl, by rw [hhub]; rfl, by rw [hhub]; rfl, fun c hc => ?_⟩
  rw [ht] at hc
  obtain ⟨⟨a, ha, hca, hcs, hst⟩, hl⟩ := startCorks_ctxs _ s2 c hc
  by_cases hr : c.resident = true
  · refine .inl ?_
    obtain h | h := hst
    · exact h
    · refine hl (hca ▸ List.mem_map_of_mem (List.mem_filter.2 ⟨ha, ?_⟩)) hr
      rw [Ctx.resident, ← h]
      exact hr
  · exact .inr (by simpa [Ctx.resident] using hr)

/-- The module with its dies powered down. -/
def poweredDown (s : State) : State :=
  { s with
    hub := { s.hub with boot := .dormant, dormantCmd := none }
    dies := s.dies.map fun d => { d.setMcs .selfRefresh with state := .poweredDown, stage := 0, goal := .none } }

/-- The dies power down with their memory in self-refresh. -/
theorem dormantPowerDown_facts {s : State} {h : CmdHdr} (hb : s.hub.boot = .enteringDormant) (hc : s.hub.dormantCmd = some h)
    (hq : dormantQuiet s h = true) :
    let t := dormantPowerDown s
    t.hub.boot = .dormant ∧ t.hub.dormantCmd = none ∧
      ∀ x ∈ t.dies, x.state = .poweredDown ∧ ∀ m ∈ x.mcs, m.state = .selfRefresh := by
  intro t
  have ht : t = complete (sendMsg (poweredDown s) 0x0090
      [(16, 4, s.hub.corkedCount), (24, 8, s.hub.timebase - s.hub.dormantFrom)]) h 0x0071 .ok [] := by
    simp only [t, dormantPowerDown, hc]
    exact if_pos ⟨hb, hq⟩
  have hk : Only [.regs, .host] (poweredDown s) t :=
    ht ▸ (keeps_complete (w₀ := Part.among [.regs, .host]) _ h 0x0071 .ok [] (keeps_sendMsg (poweredDown s) 0x0090
      [(16, 4, s.hub.corkedCount), (24, 8, s.hub.timebase - s.hub.dormantFrom)] (Keeps.refl _))).only
  have hhub : t.hub = (poweredDown s).hub := hk.part .hub
  have hdies : t.dies = (poweredDown s).dies := hk.part .dies
  refine ⟨by rw [hhub]; rfl, by rw [hhub]; rfl, fun x hx => ?_⟩
  rw [hdies] at hx
  obtain ⟨y, -, rfl⟩ := List.mem_map.1 hx
  refine ⟨rfl, fun m hm => ?_⟩
  obtain ⟨n, -, rfl⟩ := List.mem_map.1 hm
  rfl

/-- What wake leaves before a module with too few regulators drains its dies. -/
theorem wakeDone_facts {s : State} {h : CmdHdr} (hb : s.hub.boot = .waking) (hc : s.hub.wakeCmd = some h)
    (hl : s.dies.length = 4) :
    ∃ t, wakeDone s = regulatorWatch t ∧ t.power = s.power ∧ t.hub.boot = .ready ∧ t.hub.wakeCmd = none ∧
      (∀ x ∈ t.dies, ∀ m ∈ x.mcs, m.state = .ready) ∧ ∀ d, d < 4 → (getDie t d).state =
        if (getDie s d).stage = 3 ∧ (getDie s d).wasOnline = true ∧ (getDie s d).flag = 0 then .online else .offline := by
  unfold wakeDone
  rw [hc]
  dsimp only
  rw [if_pos hb]
  generalize hs1 : [0, 1, 2, 3].foldl wakeDie s = s1
  generalize hs2 : ({ s1 with hub := { s1.hub with boot := .ready, wakeCmd := none }
                              dies := s1.dies.map fun d => { d with mcs := d.mcs.map fun m => { m with state := .ready } } } : State) = s2
  generalize hs3 : sendMsg s2 0x0091 [(16, 1, onlineMask s2), (24, 8, s.hub.timebase - s.hub.wakeFrom)] = s3
  have hp1 : s1.power = s.power := by
    rw [← hs1]
    exact ((Keeps.foldl (w₀ := Part.among [.regs, .host, .dies, .store, .traffic]) (Keeps.refl s)
      fun d u h => keeps_wakeDie u d h).only.part .power).1
  have hk3 : Only [.host, .regs] s2 s3 := hs3 ▸ only_sendMsg ..
  have hk4 := only_complete (resettle s3) h 0x0072 .ok []
  have hdies : (complete (resettle s3) h 0x0072 .ok []).dies = (resettle s3).dies := hk4.part .dies
  have hhub : (complete (resettle s3) h 0x0072 .ok []).hub = s2.hub := (hk4.part .hub).trans (hk3.part .hub)
  have hd3 : s3.dies = s2.dies := hk3.part .dies
  have hd2 : s2.dies = s1.dies.map fun d => { d with mcs := d.mcs.map fun m => { m with state := .ready } } := by rw [← hs2]
  refine ⟨_, rfl, ?_, ?_, ?_, fun x hx m hm => ?_, fun d hd => ?_⟩
  · rw [(hk4.part .power).1, ← hp1, ← show s2.power = s1.power by rw [← hs2]]
    exact (hk3.part .power).1
  · rw [hhub, ← hs2]
  · rw [hhub, ← hs2]
  · rw [hdies] at hx
    obtain ⟨i, hlt, hi⟩ := List.mem_mapIdx.1 hx
    rw [← hi] at hm
    have hmem : s3.dies[i] ∈ s2.dies := hd3 ▸ List.getElem_mem _
    rw [hd2] at hmem
    obtain ⟨y, -, hy⟩ := List.mem_map.1 hmem
    have hm' : m ∈ s3.dies[i].mcs := hm
    rw [← hy] at hm'
    obtain ⟨n, -, rfl⟩ := List.mem_map.1 hm'
    rfl
  · have h1 := (getDie_foldl_each (f := wakeDie)
      (P := fun _ x y => y.state = if x.stage = 3 ∧ x.wasOnline = true ∧ x.flag = 0 then .online else .offline)
      (fun s d => (dies_wakeDie s d).1) (fun s d => (dies_wakeDie s d).2.1) (fun s d => (dies_wakeDie s d).2.2)
      [0, 1, 2, 3] (by decide) s d).2 (by simp; omega) (hl ▸ hd)
    rw [hs1] at h1
    rw [← h1, getDie_congr hdies, (dieStates_resettle s3).state, getDie_congr hd3]
    exact dieField_map (s := s1) (·.state) (g := fun _ x => { x with mcs := x.mcs.map fun m => { m with state := .ready } })
      (fun _ _ => rfl) d (hd2.trans (List.mapIdx_eq_iff.2 fun i => List.getElem?_map ..).symm)

/-- The module once WAKE has begun. -/
def wakeBegun (b : State) (h : CmdHdr) : State :=
  { b with
    hub := { b.hub with boot := .waking, wakeCmd := some h, wakeFrom := b.hub.timebase }
    dies := b.dies.map fun d => { d with state := .resetting, stage := 1, goal := .wake } }

theorem only_wakeBegun (b : State) (h : CmdHdr) : Only [.hub, .dies] b (wakeBegun b h) := by
  refine ⟨rfl, fun x hx => ?_⟩
  cases x <;> simp_all [Part.same, wakeBegun]

theorem flashReady_applyRecords (s : State) (recs : List (Nat × Nat)) : (applyRecords s recs).flash = s.flash := by
  unfold applyRecords
  induction recs generalizing s with
  | nil => rfl
  | cons r l ih =>
    refine (ih _).trans ?_
    unfold applyRecord
    dsimp only
    split
    · rfl
    · split <;> rfl

/-- Settles O46: an APPLY whose checks pass stores its settings and ends or writes its image; each die after wake is what its own turn
makes it. -/
theorem configAndDormantComplete : Obligations.ConfigAndDormantComplete := by
  refine ⟨fun s b h image hap hboot => ⟨fun hw hb hx => ?_, ?_, ?_⟩, ?_, fun s b h hw hb hr hm hd => ?_,
    fun s h hboot hc hq => ?_, fun s b h hw hb hboot => ?_, fun s h hboot hc hl => ?_⟩
  · have hst : applyStateOk b false = true := by simp [applyStateOk, hap, hboot]
    rw [exec_applyConfig_next hw, submit_of_begins hb]
    unfold startApply
    dsimp only
    rw [if_neg (by decide), if_neg (by simp [hst]), if_pos rfl, if_pos hx, applyStore_ends, ← hap]
  · intro bus bytes d himg hw hb hbus hmod
    subst himg
    dsimp only
    intro hv hlen hbytes hck
    have hst : applyStateOk b false = true := by simp [applyStateOk, hap, hboot]
    rw [exec_applyConfig_next hw, submit_of_begins hb, startApply_image hst hbus hmod (by simp) hv hlen hbytes hck,
      if_neg (by decide)]
    dsimp only
    rw [applyStore_ends]
  · intro bus bytes d himg hw hb hbus hmod
    subst himg
    dsimp only
    intro hv hlen hbytes hf hck
    have hst : applyStateOk b false = true := by simp [applyStateOk, hap, hboot]
    rw [exec_applyConfig_next hw, submit_of_begins hb, startApply_image hst hbus hmod (by simp) hv hlen hbytes hck,
      if_neg (by decide)]
    dsimp only
    rw [applyStore_writes]
    rw [flashReady] at hf ⊢
    rw [← hf]
    exact congrArg (fun f : Flash => f.state == .attached) (flashReady_applyRecords b _)
  · intro s b h bus bytes d hw hb hap hboot hbus hmod
    dsimp only
    intro hv hlen hbytes hf hck
    have hst : applyStateOk b true = true := by simp [applyStateOk, hap, hboot]
    rw [exec_applyStoreOnly_next hw, submit_of_begins hb, startApply_image hst hbus hmod (by simp) hv hlen hbytes hck, if_pos rfl,
      applyStore_writes _ _ _ _ hf]
  · exact ⟨startDormant h b, by rw [exec_dormantEnter_next hw, submit_of_begins hb], startDormant_facts b h hr hm hd⟩
  · exact ⟨dormantPowerDown s, exec_dormantPowerDown_next rfl, dormantPowerDown_facts hboot hc hq⟩
  · refine ⟨wakeBegun b h, ?_, rfl, rfl, rfl, only_wakeBegun b h, fun x hx => ?_⟩
    · rw [exec_wake_next hw, submit_of_begins hb]
      exact congrArg _ (if_pos hboot)
    · obtain ⟨y, -, rfl⟩ := List.mem_map.1 hx
      exact ⟨rfl, rfl, rfl⟩
  · obtain ⟨t, ht, hp, hrest⟩ := wakeDone_facts hboot hc hl
    refine ⟨t, ?_, hrest⟩
    rw [exec_wakeDone_next rfl, ht, regulatorWatch, healthyVrms_congr hp]

end Sys2Proof.Machine
end

section
/-! The power-on sequence, step by step: what a refusal leaves, and what each step ends with. -/

namespace Sys2Proof.Machine

section boot

variable {s : State}

/-! ### Refusals -/

/-- A refusal leaves every die OFFLINE and says why; the rest of the hub's state is what it was. -/
theorem refuse_facts (s : State) (r : RefuseReason) (st ch i off : Nat) :
    (refuse s r st ch i off).hub = { s.hub with refuse := r, boot := if r.recoverable then .awaitConfig else .refusedPermanent } ∧
    ∀ x ∈ (refuse s r st ch i off).dies, x.state = .offline := by
  have h := only_sendMsg { s with
    hub := { s.hub with refuse := r, boot := if r.recoverable then .awaitConfig else .refusedPermanent }
    dies := s.dies.map fun d => { d with state := .offline, stage := 0, goal := .none } } 0x0002
    [(16, 1, r.code), (17, 1, b2n s.hub.bankAValid + 2 * b2n s.hub.bankBValid), (18, 1, st), (19, 1, ch), (20, 4, i), (24, 4, off)]
  have hdies : (refuse s r st ch i off).dies = _ := h.part .dies
  refine ⟨h.part .hub, fun x hx => ?_⟩
  rw [hdies] at hx
  obtain ⟨y, -, rfl⟩ := List.mem_map.1 hx
  rfl

/-! ### The configuration -/

/-- What a refusal of the configuration that is read leaves. -/
theorem refuse_readBanks (s : State) (f : Flash) (r : RefuseReason) (i off : Nat) :
    let t := refuse (readBanks s f) r 0xFF 0xFF i off
    t.hub.refuse = r ∧ t.hub.boot = (if r.recoverable then .awaitConfig else .refusedPermanent) ∧ t.hub.cfgSrc = s.hub.cfgSrc ∧
      t.hub.cfgSeq = s.hub.cfgSeq ∧ Only [.hub, .store, .dies, .host, .regs] s t ∧ ∀ x ∈ t.dies, x.state = .offline := by
  intro t
  obtain ⟨hhub, hdies⟩ := refuse_facts (readBanks s f) r 0xFF 0xFF i off
  refine ⟨by rw [hhub], by rw [hhub], by rw [hhub]; rfl, by rw [hhub]; rfl, ?_, hdies⟩
  exact (keeps_refuse (w₀ := Part.among [.hub, .store, .dies, .host, .regs]) _ r 0xFF 0xFF i off
    (keeps_readBanks s f (Keeps.refl s))).only

/-- The configuration of a module whose banks hold a good image is in force, and memory training is next. -/
def configured (u : State) (recs : List (Nat × Nat)) (toB : Bool) (seq : Nat) : State :=
  let s2 := applyRecords u recs
  { s2 with hub := { s2.hub with boot := .memTrain, cfgSrc := if toB then .bankB else .bankA, cfgSeq := seq }
            dies := s2.dies.map fun d => { d with mcs := d.mcs.map fun m => { m with state := .training } } }

theorem mcs_configured (u : State) (recs : List (Nat × Nat)) (toB : Bool) (seq : Nat) :
    ∀ x ∈ (configured u recs toB seq).dies, ∀ m ∈ x.mcs, m.state = .training := by
  intro x hx m hm
  obtain ⟨y, -, rfl⟩ := List.mem_map.1 hx
  obtain ⟨n, -, rfl⟩ := List.mem_map.1 hm
  rfl

theorem configReadDone_reads (hb : s.hub.boot = .configRead) (hp : s.hub.powered = true) :
    configReadDone s = match selectedImage (readableFlash s) with
      | none => refuse (readBanks s (readableFlash s)) .noValidBank 0xFF 0xFF 0xFFFFFFFF 0
      | some (toB, part, pkg, seq, recs) => match checkImage (readBanks s (readableFlash s)) part pkg recs with
        | some (r, i) => refuse (readBanks s (readableFlash s)) r 0xFF 0xFF i
            (if i = 0xFFFFFFFF then 0 else (recs.getD i (0, 0)).1)
        | none => configured (readBanks s (readableFlash s)) recs toB seq :=
  if_pos ⟨.inr (.inl hb), hp⟩

/-! ### Memory training -/

theorem only_writeBootCount (s : State) : Only [.store] s (writeBootCount s) :=
  (keeps_writeBootCount (w₀ := Part.among [.store]) s (Keeps.refl s)).only

theorem memTrainDone_trains {chans : List ChanTrain} (hb : s.hub.boot = .memTrain) {u : State}
    (hu : trainAll s (allChans chans) = .ok u) :
    (memTrainDone s true chans).hub.boot = .repair ∧ ∀ x ∈ (memTrainDone s true chans).dies, ∀ m ∈ x.mcs, m.state = .ready := by
  have h : memTrainDone s true chans = { writeBootCount { u with dies := u.dies.map fun d =>
        { d with mcs := d.mcs.map fun m => { m with state := .ready } } } with
      hub := { (writeBootCount { u with dies := u.dies.map fun d =>
        { d with mcs := d.mcs.map fun m => { m with state := .ready } } }).hub with boot := .repair } } := by
    unfold memTrainDone
    rw [if_neg (fun h => h hb), if_neg (by decide), hu]
  rw [h]
  refine ⟨rfl, fun x hx m hm => ?_⟩
  have hdies := (only_writeBootCount { u with dies := u.dies.map fun d =>
    { d with mcs := d.mcs.map fun m => { m with state := .ready } } }).part .dies
  dsimp only at hx
  rw [hdies] at hx
  obtain ⟨y, -, rfl⟩ := List.mem_map.1 hx
  obtain ⟨n, -, rfl⟩ := List.mem_map.1 hm
  rfl

/-! ### The repair map and the ports -/

theorem dies_bringUp (up : List Nat) (findings : List (Nat × TestFinding)) (s : State) (d : Nat) :
    (bringUp up findings s d).dies.length = s.dies.length ∧ (∀ e, e ≠ d → getDie (bringUp up findings s d) e = getDie s e) ∧
    (d < s.dies.length → d ∉ up → (getDie (bringUp up findings s d) d).state = .offline) := by
  unfold bringUp
  split
  next hc =>
    obtain ⟨u, l, hu, h⟩ := dies_mapped s d ((findings.filter fun f => f.1 == d).map (·.2))
    have hdies : u.dies = s.dies := hu.part .dies
    dsimp only
    rw [h]
    refine ⟨by rw [length_modDie, length_modDie, hdies], fun e he => ?_, fun _ hn => absurd (by simpa using hc) hn⟩
    rw [getDie_modDie_other he, getDie_modDie_other he, getDie_congr hdies]
  next hc =>
    obtain ⟨hl, ho, hs⟩ := dies_dieAbsent s d
    exact ⟨hl, ho, fun hd _ => hs hd⟩

theorem repairStepDone_facts {up : List Nat} {findings : List (Nat × TestFinding)} (hb : s.hub.boot = .repair)
    (hl : s.dies.length = 4) :
    let t := repairStepDone s up findings
    t.hub.boot = .portTrain ∧ (∀ n, n < t.ports.length →
      (t.ports.getD n .reset).state = if bit (getReg t (0x100100 + 4 * n)).toNat 31 then .training else .disabled) ∧
    ∀ d, d < 4 → d ∉ up → (getDie t d).state = .offline := by
  intro t
  have ht : t = repairStepDone s up findings := rfl
  unfold repairStepDone at ht
  rw [if_neg (fun h => h hb)] at ht
  have hd := getDie_foldl_each (f := bringUp up findings) (P := fun d _ y => d ∉ up → y.state = .offline)
    (fun s d => (dies_bringUp up findings s d).1) (fun s d => (dies_bringUp up findings s d).2.1)
    (fun s d => (dies_bringUp up findings s d).2.2) [0, 1, 2, 3] (by decide) s
  dsimp only at ht
  generalize [0, 1, 2, 3].foldl (bringUp up findings) s = s1 at ht hd
  refine ⟨by rw [ht], fun n hn => ?_, fun d hlt hup => ?_⟩
  · have hports : t.ports = s1.ports.mapIdx fun n p =>
        { p with state := if bit (getReg s1 (0x100100 + 4 * n)).toNat 31 then .training else .disabled } := by rw [ht]
    have hreg : getReg t (0x100100 + 4 * n) = getReg s1 (0x100100 + 4 * n) := getReg_congr (by rw [ht]) _
    rw [hports, List.length_mapIdx] at hn
    rw [hports, hreg, List.getD_eq_getElem?_getD, List.getElem?_mapIdx, List.getElem?_eq_getElem hn]
    rfl
  · rw [ht]
    exact (hd d).2 (by simp; omega) (hl ▸ hlt) hup

theorem boot_ready (u : State) (code : Nat) (fs : List (Nat × Nat × Nat)) :
    (regulatorWatch (sendMsg { u with hub := { u.hub with boot := .ready } } code fs)).hub.boot = .ready :=
  congrArg Hub.boot ((keeps_regulatorWatch (w₀ := Part.among [.regs, .host, .dies, .ctxs, .modes, .acct, .store]) _
    (keeps_sendMsg { u with hub := { u.hub with boot := .ready } } code fs (Keeps.refl _))).only.part .hub)

theorem boot_goReady (s : State) : (goReady s).hub.boot = .ready := by
  unfold goReady
  dsimp only
  generalize List.foldl _ s [0, 1, 2, 3] = u
  exact boot_ready u _ _

theorem portTrainDone_facts {ports : List PortTrain} {far : List FarTrain} (hb : s.hub.boot = .portTrain) (hf : far.length = 2) :
    (portTrainDone s ports far).hub.boot = .ready ∧ (portTrainDone s ports far).farPorts = far.map farTrained := by
  unfold portTrainDone
  rw [if_neg (fun h => h hb)]
  dsimp only
  generalize (List.range 18).foldl _ s = s1
  have hfar : (List.range 2).map (fun p => farTrained (far.getD p .absent)) = far.map farTrained := by
    match far, hf with
    | [a, b], _ => rfl
  rw [hfar]
  refine ⟨?_, ((keeps_goReady (w₀ := Part.among [.hub, .regs, .host, .dies, .ctxs, .modes, .acct, .store, .traffic]) _
    (Keeps.refl _)).only.part .links).2⟩
  exact boot_goReady _

end boot

/-- Settles O48: each step's checks pass or fail as stated, and what is left is what the step ends with. -/
theorem bootSequenceCompletes : Obligations.BootSequenceCompletes := by
  intro s
  refine ⟨⟨moduleReset s, exec_moduleReset_next rfl, rfl, rfl, rfl, rfl, rfl, rfl, rfl, rfl, rfl, fun x hx => ?_, fun v h1 h2 => ?_⟩,
    fun v hv => ?_, fun hp => ?_, fun hb hp => ⟨fun hi => ?_, ?_⟩, fun chans hw hb u hu => ?_, fun up findings hw hb hl => ?_,
    fun ports far hw hb => ?_, fun n up findings ports far hw hb => ?_⟩
  · obtain ⟨y, -, rfl⟩ := List.mem_map.1 hx
    rfl
  · rw [exec_hubResetModule_next rfl, hubResetWrite, if_pos ⟨h1, h2⟩]
  · rw [exec_hubResetModule_next rfl, hubResetWrite, if_neg]
    rintro ⟨h1, h2⟩
    obtain h | h := hv
    · exact h h1
    · simp [h] at h2
  · rw [exec_hostLinkTrained_next rfl, hostLinkTrained, if_pos hp]
  · obtain ⟨h1, h2, -, -, -, h3⟩ := refuse_readBanks s (readableFlash s) .noValidBank 0xFFFFFFFF 0
    refine ⟨_, ?_, h2, h1, h3⟩
    rw [exec_configReadDone_next rfl, configReadDone_reads hb hp, hi]
  · intro toB part pkg seq recs hi
    dsimp only
    refine ⟨fun r i hck => ?_, fun hck => ?_⟩
    · obtain ⟨h1, -, h2, h3, h4, h5⟩ := refuse_readBanks s (readableFlash s) r i
        (if i = 0xFFFFFFFF then 0 else (recs.getD i (0, 0)).1)
      refine ⟨_, ?_, h1, h2, h3, h4, h5⟩
      rw [exec_configReadDone_next rfl, configReadDone_reads hb hp, hi]
      dsimp only
      rw [hck]
    · refine ⟨configured (readBanks s (readableFlash s)) recs toB seq, ?_, rfl, rfl, mcs_configured _ _ _ _⟩
      rw [exec_configReadDone_next rfl, configReadDone_reads hb hp, hi]
      dsimp only
      rw [hck]
  · exact ⟨_, exec_memTrainDone_next hw, memTrainDone_trains hb hu⟩
  · obtain ⟨h1, h2, h3⟩ := repairStepDone_facts (up := up) (findings := findings) hb hl
    refine ⟨_, exec_repairStepDone_next hw, h1, h2, h3, fun n ports far hw => ?_⟩
    rw [exec_bootStepTimeout_next hw, bootTimeout, hb]
  · have hf : far.length = 2 := by
      simp only [Instr.wf, Bool.and_eq_true, beq_iff_eq] at hw
      exact hw.1.2
    obtain ⟨h1, h2⟩ := portTrainDone_facts (ports := ports) hb hf
    refine ⟨_, exec_portTrainDone_next hw, h1, h2, fun n up findings hw => ?_⟩
    rw [exec_bootStepTimeout_next hw, bootTimeout, hb]
  · obtain ⟨h1, h2⟩ := refuse_facts s .trainFailed 0xFF 0xFF 0xFFFFFFFF 0
    refine ⟨refuse s .trainFailed 0xFF 0xFF 0xFFFFFFFF 0, ?_, by rw [h1]; rfl, by rw [h1], h2⟩
    rw [exec_bootStepTimeout_next hw, bootTimeout, hb]

end Sys2Proof.Machine
end

section
/-! The host's accesses: queue registers, the latch of split values, and the quotas, windows and accounts of an address space. -/

namespace Sys2Proof.Machine

/-! ### Queue registers -/

section queues

variable {s : State} {q : Nat} {v : Word}

theorem fetchError_stops (hr : (getQ s q).state = .running) (hn : (getQ s q).sqHead ≠ (getQ s q).sqTail) :
    getQ (fetchError s q) q = { getQ s q with state := .stopped } ∧
      getReg (fetchError s q) (hqBase q + 0x14) = (getReg s (hqBase q + 0x14) ||| 0x10000000#32) := by
  have h : fetchError s q = setBits (setQ s q { getQ s q with state := .stopped }) (hqBase q + 0x14) 0x10000000#32 :=
    if_pos ⟨hr, hn⟩
  rw [h]
  exact ⟨getQ_setQ_self s q _, getReg_setReg_self ..⟩

theorem sqTail_fetches (hr : (getQ s q).state = .running) (fetched : List Bytes) (images : List HostRead) :
    let x := getQ s q
    let tail := bits v.toNat 11 0 % sqSize s q
    let n := (tail + sqSize s q - x.sqHead) % sqSize s q
    sqTail s q v fetched images =
      startWaiting ((fetched.take n).foldl (takeEntry q) (setQ s q { x with sqTail := tail }, images)).1 :=
  if_neg (fun h => h hr)

theorem cqHead_frees (hr : (getQ s q).state = .running) :
    cqHead s q v = startWaiting (cqDrain (setQ s q { getQ s q with cqHead := bits v.toNat 11 0 }) q) :=
  if_neg (fun h => h hr)

/-- The state a write to HQ_CTL makes where the write is taken. -/
def hqStored (s : State) (q : Nat) (v : Word) : State := storeMasked s (hqBase q + 16) (rwMask (hqBase q + 16)) v

theorem hqCtl_starts (hl : log2Ok (regBits (hqStored s q v) (hqBase q + 16) 11 8) = true)
    (hc : log2Ok (regBits (hqStored s q v) (hqBase q + 16) 3 0) = true) (hoff : hqEnabled s q = false)
    (hon : hqEnabled (hqStored s q v) q = true) : hqCtl s q v = startQueue (hqStored s q v) q := by
  unfold hqStored at *
  simp only [hqCtl, hoff, hon, hl, hc]
  rfl

section stopped

variable (hl : log2Ok (regBits (hqStored s q v) (hqBase q + 16) 11 8) = true)
  (hc : log2Ok (regBits (hqStored s q v) (hqBase q + 16) 3 0) = true) (hon : hqEnabled s q = true)
  (hoff : hqEnabled (hqStored s q v) q = false)
  (hsq : regBits (hqStored s q v) (hqBase q + 16) 11 8 = regBits s (hqBase q + 16) 11 8)
  (hcq : regBits (hqStored s q v) (hqBase q + 16) 3 0 = regBits s (hqBase q + 16) 3 0)

include hl hc hon hoff hsq hcq

/-- A write that clears EN and changes no size is refused exactly while commands are in progress or a job runs. -/
theorem hqCtl_stops : hqCtl s q v = if !(getQ s q).inProg.isEmpty || jobFrom s q then refuseHq s q
    else setQ (hqStored s q v) q { getQ (hqStored s q v) q with state := .disabled, waiting := [] } := by
  unfold hqStored at *
  rw [hsq] at hl
  rw [hcq] at hc
  simp only [hqCtl, hon, hoff, hsq, hcq, hl, hc]
  simp

theorem hqCtl_disables (hp : (getQ s q).inProg = []) (hj : jobFrom s q = false) :
    hqCtl s q v = setQ (hqStored s q v) q { getQ (hqStored s q v) q with state := .disabled, waiting := [] } := by
  rw [hqCtl_stops hl hc hon hoff hsq hcq, hp, hj]
  rfl

theorem hqCtl_refuses (hp : (getQ s q).inProg ≠ [] ∨ jobFrom s q = true) : hqCtl s q v = refuseHq s q := by
  rw [hqCtl_stops hl hc hon hoff hsq hcq, if_pos]
  simpa using hp

end stopped

theorem msgWrite_starts (hoff : bit (getReg s 0x408).toNat 31 = false)
    (hon : bit (getReg (storeMasked s 0x408 (rwMask 0x408) v) 0x408).toNat 31 = true)
    (hl : log2Ok (regBits (storeMasked s 0x408 (rwMask 0x408) v) 0x408 3 0) = true) :
    let u := storeMasked s 0x408 (rwMask 0x408) v
    msgWrite s 0x408 v = msgDrain { u with msg := { u.msg with tail := 0, head := 0, phase := true } } := by
  simp only [msgWrite, hoff, hon, hl]
  rfl

end queues

/-- Settles O50: each register of a queue by its own meaning, the write to HQ_CTL split by the bit EN before and after it. -/
theorem queueRegistersComplete : Obligations.QueueRegistersComplete := by
  unfold Obligations.QueueRegistersComplete
  intro s q hq
  have hwf : decide (q < 256) = true := decide_eq_true hq
  refine ⟨fun v fetched images hw hr => ?_, fun hr hn => ⟨_, exec_commandFetchError_next hwf, fetchError_stops hr hn⟩,
    fun v hr => ?_, fun v => ?_, fun v => ?_, fun v => exec_msgHeadWrite_next rfl⟩
  · rw [exec_sqTailDoorbell_next hw, sqTail_fetches hr]
  · rw [exec_cqHeadDoorbell_next hwf, cqHead_frees hr]
  · rw [exec_hqCtlWrite_next hwf]
    intro u hl hc
    refine ⟨fun hoff hon => congrArg _ (hqCtl_starts hl hc hoff hon), fun hon hoff hsq hcq => ⟨fun hp hj => ?_, fun hp => ?_⟩⟩
    · exact congrArg _ (hqCtl_disables hl hc hon hoff hsq hcq hp hj)
    · exact congrArg _ (hqCtl_refuses hl hc hon hoff hsq hcq hp)
  · intro u hoff hon hl
    rw [exec_msgCtlWrite_next rfl, msgWrite_starts hoff hon hl]

/-! ### Accesses to BAR0 -/

section bar

variable {s : State} {off : Nat} {v : Word}

theorem getReg_storeMasked_self (s : State) (off mask : Nat) (v : Word) : getReg (storeMasked s off mask v) off =
    ((getReg s off &&& ~~~BitVec.ofNat 32 mask) ||| (v &&& BitVec.ofNat 32 mask)) := getReg_setReg_self ..

theorem getReg_storeMasked_other (s : State) (mask : Nat) (v : Word) {o : Nat} (h : o ≠ off) :
    getReg (storeMasked s off mask v) o = getReg s o := getReg_setReg_other _ _ h

theorem getReg_clearW1c_self (s : State) (off : Nat) (v : Word) :
    getReg (clearW1c s off v) off = (getReg s off &&& ~~~(v &&& BitVec.ofNat 32 (w1cMask off))) := getReg_setReg_self ..

theorem getReg_clearW1c_other (s : State) (v : Word) {o : Nat} (h : o ≠ off) : getReg (clearW1c s off v) o = getReg s o :=
  getReg_setReg_other _ _ h

theorem eq_of_w1c_zero (x v : Word) : x = (x &&& ~~~(v &&& BitVec.ofNat 32 0)) := by
  rw [BitVec.and_zero, BitVec.not_zero, BitVec.and_allOnes]

theorem eq_of_mask_zero (x v : Word) : x = ((x &&& ~~~BitVec.ofNat 32 0) ||| (v &&& BitVec.ofNat 32 0)) := by
  rw [BitVec.and_zero, BitVec.not_zero, BitVec.and_allOnes, BitVec.or_zero]

theorem getReg_plainWrite_self (s : State) (off : Nat) (v : Word) : getReg (plainWrite s off v) off =
    (((getReg s off &&& ~~~BitVec.ofNat 32 (rwMask off)) ||| (v &&& BitVec.ofNat 32 (rwMask off))) &&&
      ~~~(v &&& BitVec.ofNat 32 (w1cMask off))) := by
  have hs : getReg (if rwMask off = 0 then s else storeMasked s off (rwMask off) v) off =
      ((getReg s off &&& ~~~BitVec.ofNat 32 (rwMask off)) ||| (v &&& BitVec.ofNat 32 (rwMask off))) := by
    split
    case isTrue h => rw [h]; exact eq_of_mask_zero _ v
    case isFalse => exact getReg_storeMasked_self ..
  rw [← hs]
  unfold plainWrite
  dsimp only
  generalize (if rwMask off = 0 then s else storeMasked s off (rwMask off) v) = u
  split
  case isTrue h => rw [h]; exact eq_of_w1c_zero _ v
  case isFalse => exact getReg_clearW1c_self ..

theorem getReg_plainWrite_other (s : State) (v : Word) {o : Nat} (h : o ≠ off) : getReg (plainWrite s off v) o = getReg s o := by
  unfold plainWrite
  dsimp only
  split
  all_goals
    try rw [getReg_clearW1c_other _ _ h]
    split
    · rfl
    · exact getReg_storeMasked_other _ _ _ h

/-- A register that does not answer reads 0. -/
theorem readReg_of_not_answers (h : answers s off = false) : readReg s off = 0#32 := by
  unfold answers at h
  split at h
  case isFalse => cases h
  case isTrue hoff =>
    obtain ⟨ho, hw⟩ := Bool.or_eq_false_iff.1 h
    unfold readReg
    split
    · rfl
    · rw [if_neg (by omega), if_neg (by omega), if_neg (by omega), if_neg (by omega), if_pos hoff.2]
      dsimp only
      rw [if_neg (by simpa using ho), hw]
      rfl

theorem find_assocSet_self {α : Type} (l : List (Nat × α)) (k : Nat) (v : α) :
    (assocSet l k v).find? (fun x => x.1 == k) = some (k, v) := by
  induction l with
  | nil => simp [assocSet]
  | cons x l ih =>
    obtain ⟨j, w⟩ := x
    rcases Nat.lt_trichotomy k j with h | h | h
    · rw [assocSet, if_pos h, List.find?_cons_of_pos (by simp)]
    · rw [assocSet, if_neg (by omega), if_pos h, List.find?_cons_of_pos (by simp)]
    · rw [assocSet, if_neg (by omega), if_neg (by omega), List.find?_cons_of_neg (by simp; omega), ih]

/-- What a read of one register sends out. -/
theorem out_hostRead (s : State) (off : Nat) : (hostRead s off).out =
    s.out ++ [.readValue off (match answers s off, s.latches.find? fun l => l.1 == off with
      | true, some l => l.2
      | _, _ => readReg s off)] := by
  unfold hostRead
  dsimp only
  cases answers s off with
  | true => simp only [Bool.and_true]; rcases s.latches.find? _ with _ | l <;> rfl
  | false => rw [List.find?_eq_none.2 fun l _ => by simp]

theorem latches_hostRead_of_isLo (h : isLo off = true) : (hostRead s off).latches =
    assocSet (s.latches.filter fun l => l.1 != off) (off + 4) (readReg s (off + 4)) := if_pos h

theorem find_latches_hostRead (h : isLo off = false) : ((hostRead s off).latches.find? fun l => l.1 == off) = none := by
  unfold hostRead
  simp [h, List.find?_eq_none]

theorem only_hostRead (s : State) (off : Nat) : Only [.host, .ids] s (hostRead s off) :=
  (keeps_hostRead (w₀ := Part.among [.host, .ids]) s off (Keeps.refl s)).only

theorem busRead_word (h : off % 4 = 0) : busRead s ⟨false, off, 4⟩ = hostRead s off := by
  unfold busRead
  rw [if_neg (by simp), if_neg (by simpa using h)]
  simp [List.range_succ]

theorem busRead_two_words (h : off % 4 = 0) : busRead s ⟨false, off, 8⟩ = hostRead (hostRead s off) (off + 4) := by
  unfold busRead
  rw [if_neg (by simp), if_neg (by simpa using h)]
  simp [List.range_succ]

/-- The half that a read latched is what the next read of it returns, as long as its register answers. -/
theorem out_hostRead_latched {u : State} {w : Word}
    (hf : (u.latches.find? fun l => l.1 == off) = some (off, w)) :
    (hostRead u off).out = u.out ++ [.readValue off (if answers u off = true then w else 0#32)] := by
  rw [out_hostRead, hf]
  cases ha : answers u off with
  | true => rfl
  | false => rw [if_neg (by decide)]; dsimp only; rw [readReg_of_not_answers ha]

end bar

/-- Settles O51: the widths of an access one by one; the latch by what an association list holds after it is set. -/
theorem registerAccessesComplete : Obligations.RegisterAccessesComplete := by
  unfold Obligations.RegisterAccessesComplete
  intro s off hoff
  have hread (bar2 : Bool) (o width : Nat) (ho : o < 0x1000000) (h1 : 1 ≤ width) (h2 : width ≤ 4096) (s : State) :
      exec (.loReadLatch ⟨bar2, o, width⟩) s = .next (busRead s ⟨bar2, o, width⟩) :=
    exec_loReadLatch_next (by simp [Instr.wf, ho, h1, h2])
  have hwrite (n : Nat) (v : BitVec 64) : exec (.registerWrite off n v) s = .next (busWrite s off n v) :=
    exec_registerWrite_next (decide_eq_true hoff)
  refine ⟨fun v => ⟨fun hal => ⟨?_, ?_⟩, fun n hn => ?_⟩,
    fun v => ⟨getReg_plainWrite_self s off v, fun o ho => getReg_plainWrite_other s v ho⟩,
    fun width h1 h2 => ⟨hread _ _ _ hoff h1 h2 s, fun hal => ?_⟩, fun hal => ?_⟩
  · rw [hwrite, busWrite, if_neg (by omega), if_pos rfl]
  · rw [hwrite, busWrite, if_neg (by omega), if_neg (by decide), if_pos rfl]
  · rw [hwrite, busWrite]
    split
    · rfl
    · rw [if_neg (by omega), if_neg (by omega)]
  · rw [hread _ _ _ hoff h1 h2, busRead, if_neg (by simp), if_pos hal]
  · refine ⟨hostRead s off, by rw [hread _ _ _ hoff (by decide) (by decide), busRead_word hal], only_hostRead s off,
      fun ho4 => ?_, out_hostRead s off, fun hlo ho4 u hu => ?_⟩
    · rw [hread _ _ _ hoff (by decide) (by decide), hread _ _ _ ho4 (by decide) (by decide), busRead_two_words hal,
        busRead_word (by omega)]
    · refine ⟨hostRead u (off + 4), ?_, out_hostRead_latched ?_, find_latches_hostRead⟩
      · rw [hread _ _ _ ho4 (by decide) (by decide), busRead_word (by omega)]
      · rw [hu, latches_hostRead_of_isLo hlo, find_assocSet_self]

/-! ### Accounts -/

section accounts

variable {s : State} {asn : Nat} {v : Word}

theorem acctCtl_clears (h : bit v.toNat 0 = true) : totalOf (acctCtl s asn v) asn = .zero ∧
    ∀ a, a ≠ asn → totalOf (acctCtl s asn v) a = totalOf s a := by
  simp only [acctCtl, h]
  exact ⟨assocD_assocSet_self .., fun a ha => assocD_assocSet_other _ _ _ ha⟩

theorem only_acctCtl (s : State) (asn : Nat) (v : Word) : Only [.regs, .acct] s (acctCtl s asn v) :=
  (keeps_acctCtl (w₀ := Part.among [.regs, .acct]) s asn v (Keeps.refl s)).only

theorem only_acctFlush (s : State) : Only [.ctxs, .acct] s (acctFlush s) :=
  (keeps_acctFlush (w₀ := Part.among [.ctxs, .acct]) s (Keeps.refl s)).only

/-- The flush of a module with one context. -/
theorem acctFlush_one {c : Ctx} (hc : s.ctxs = [c]) :
    totalOf (acctFlush s) c.asn = (totalOf s c.asn).add (c.fresh.foldl Acct.add .zero) ∧
      (ctxOf (acctFlush s) c.asn).map (·.fresh) = some (List.replicate 4 .zero) := by
  have hx : ctxOf s c.asn = some c := by simp [ctxOf, hc]
  have h : acctFlush s = flushCtx s c.asn := by rw [acctFlush, hc]; rfl
  rw [h, ctxOf_flushCtx hx]
  refine ⟨?_, rfl⟩
  rw [flushCtx, hx]
  exact assocD_assocSet_self ..

/-- One more report of a fence. -/
def FencePeriod.reported (sem : Nat) (x : FencePeriod) : FencePeriod := if x.sem = sem then { x with sent := x.sent + 1 } else x

theorem FencePeriod.reported_sem (sem : Nat) (x : FencePeriod) : (x.reported sem).sem = x.sem := by
  unfold FencePeriod.reported
  split <;> rfl

theorem find_reported {l : List FencePeriod} {sem : Nat} {f : FencePeriod} (h : (l.find? fun f => f.sem == sem) = some f) :
    ((l.map (FencePeriod.reported sem)).find? fun f => f.sem == sem) = some { f with sent := f.sent + 1 } := by
  have hs : f.sem = sem := by simpa using List.find?_some h
  have hp : ((fun f : FencePeriod => f.sem == sem) ∘ FencePeriod.reported sem) = fun f => f.sem == sem :=
    funext fun x => by rw [Function.comp, FencePeriod.reported_sem]
  rw [List.find?_map, hp, h, Option.map_some, FencePeriod.reported, if_pos hs]

theorem tierStall_reports {sem : Nat} {c : Ctx} {f : FencePeriod} (hc : ctxOf s asn = some c)
    (hf : (c.fences.find? fun f => f.sem == sem) = some f) (hp : regBits s (tqBase asn + 16) 15 0 ≠ 0)
    (hns : regBits s (tqBase asn + 16) 15 0 * 1000000 * (f.sent + 1) ≤ f.ns) :
    ∃ l, tierStall s asn sem =
      sendMsg (modCtx s asn fun c => { c with fences := c.fences.map (FencePeriod.reported sem) }) 0x0030 l := by
  have hb : ((ctxOf s asn).bind fun c => (c.fences.find? fun f => f.sem == sem).map fun f => (c, f)) = some (c, f) := by
    rw [hc, Option.bind_some, hf]
    rfl
  refine ⟨[(16, 1, asn), (17, 1, sem), (18, 2, c.coreId (f.cores.headD (0, 0)).1), (24, 8, f.ns)], ?_⟩
  unfold tierStall
  dsimp only
  rw [hb]
  exact if_neg (by omega)

end accounts

theorem not_and_of_le {a b c : Nat} (h : a ≤ b ∨ a ≤ c) : ¬ (b < a ∧ c < a) := by omega

/-- Settles O53: each write by its own condition, the flush and the report of a fence by the lemmas above. -/
theorem quotasAndLimitsComplete : Obligations.QuotasAndLimitsComplete := by
  unfold Obligations.QuotasAndLimitsComplete
  intro s asn v hasn
  have hu8 : u8 asn = true := by simpa [u8] using hasn
  refine ⟨?_, ?_, fun w reg hw hreg => ?_, ?_, fun hb => ?_, fun hb => ⟨?_, ?_⟩,
    ⟨_, exec_acctFlush_next rfl, only_acctFlush s, fun c hc => acctFlush_one hc⟩, fun sem c f hw hc hf hp hns => ?_⟩
  · rw [exec_tqNearQuotaWrite_next hu8, nearQuotaWrite]
    exact ⟨fun h => by rw [if_neg (not_and_of_le h)], fun h1 h2 => by rw [if_pos ⟨h1, h2⟩]⟩
  · rw [exec_tqCellarQuotaWrite_next hu8, cellarQuotaWrite]
    exact ⟨fun h => by rw [if_neg (not_and_of_le h)], fun h1 h2 => by rw [if_pos ⟨h1, h2⟩]⟩
  · intro used
    rw [exec_hwWindowWrite_next (by simp [Instr.wf, hu8, hw]; omega), hwWrite, if_neg (by omega)]
  · rw [exec_pwrLimitWrite_next rfl]
    exact ⟨fun h1 h2 => congrArg _ (if_pos ⟨h1, h2⟩), fun h => congrArg _ (if_neg (by omega))⟩
  · rw [exec_pwrPeakClr_next rfl, pwrPeakClr, if_pos hb]
  · obtain ⟨hz, ho⟩ := acctCtl_clears (s := s) (asn := asn) hb
    exact ⟨_, exec_acctClr_next hu8, hz, ho, only_acctCtl s asn v⟩
  · rw [exec_appClr_next rfl, appCtl, if_pos hb]
  · obtain ⟨l, hl⟩ := tierStall_reports hc hf hp hns
    refine ⟨_, exec_tierStall_next hw, (keeps_tierStall (w₀ := Part.among [.ctxs, .host, .regs]) s asn sem (Keeps.refl s)).only, ?_⟩
    rw [hl, ctxOf_of_only (only_sendMsg _ _ _), ctxOf_modCtx_some hc, Option.bind_some]
    exact find_reported hf

end Sys2Proof.Machine
end

section
/-! Reliability, the Tally, power: what a screen, a flag and a reading window leave, how records close, how caps move. -/

namespace Sys2Proof.Machine

/-! ### Flags and screens -/

section reliability

variable {s t : State} {d : Nat} {v : Word}

theorem dieFlagWrite_sets (hk : bits v.toNat 31 16 = 0x0CD9) (hset : bit v.toNat 9 = true) (hclr : bit v.toNat 8 = false)
    (ho : dieIs s d .offline = true) : dieFlagWrite s d v = flagDie s d 5 := by
  simp [dieFlagWrite, hk, hset, hclr, ho]

theorem dieFlagWrite_clears (hk : bits v.toNat 31 16 = 0x0CD9) (hset : bit v.toNat 9 = false) (hclr : bit v.toNat 8 = true) :
    dieFlagWrite s d v = clearFlag s d := by
  simp [dieFlagWrite, hk, hset, hclr]

theorem dieFlagWrite_ignores (hk : bits v.toNat 31 16 ≠ 0x0CD9) : dieFlagWrite s d v = s := if_pos hk

theorem flag_clearFlag (hd : d < s.dies.length) : (getDie (clearFlag s d) d).flag = 0 := by
  unfold clearFlag
  split
  case isTrue h => exact h
  case isFalse =>
    rw [getDie_congr ((keeps_flushMap (w₀ := Part.among [.store]) _ (Keeps.refl _)).only.part .dies)]
    have : getDie (modDie s d fun y => { y with flag := 0 }) d = _ := getDie_modDie_self hd
    exact congrArg Die.flag this

theorem vrmRelease_releases {n : Nat} (hb : bit v.toNat 3 = true) (hh : vrm s n = .healthy) (h9 : 9 ≤ healthyVrms s) :
    vrmRelease s n v = setVrm s n .released := by
  rw [vrmRelease, if_pos (by simp [hb, hh, h9])]

theorem getDie_resettle {β : Type} (w : Die → β) (hw : ∀ (x : Die) l, w { x with islands := l } = w x) (s : State) (d : Nat) :
    w (getDie (resettle s) d) = w (getDie s d) :=
  dieField_map (s := s) w (g := fun d x => { x with islands := x.islands.mapIdx fun c i => settleIsland s d c i })
    (fun _ _ => hw _ _) d rfl

/-- How a screen starts. -/
theorem screenStart_starts (hok : screenOk s d = true) (hd : d < s.dies.length) :
    let t := screenStart s d
    (getDie t d).screen.state = .running ∧ (getDie t d).screen.round = 0 ∧
      t.rel.screens = sat32 (s.rel.screens + 1) ∧ (getDie t d).screen.id = t.rel.screens := by
  have hs : ∀ x : Screen, (getDie (resettle (modDie { s with rel := { s.rel with screens := sat32 (s.rel.screens + 1) } } d
      fun y => { y with screen := x })) d).screen = x := by
    intro x
    rw [getDie_resettle (·.screen) (fun _ _ => rfl)]
    exact congrArg Die.screen (getDie_modDie_self (s := { s with rel := _ }) hd)
  dsimp only
  rw [screenStart, if_pos hok]
  dsimp only
  rw [hs]
  exact ⟨rfl, rfl, rfl, rfl⟩

/-- A screen that is finished is IDLE with its outcome. -/
theorem screen_finishScreen (hd : d < s.dies.length) (o : Nat) :
    (getDie (finishScreen s d o) d).screen = { (getDie s d).screen with state := .idle, outcome := o } := by
  have hfold : ∀ (l : List Nat) (u : State), (l.foldl (fun s c => setReg s (dieBase d + 0x100C + 16 * c) 0#32) u).dies = u.dies := by
    intro l
    induction l with
    | nil => exact fun _ => rfl
    | cons c l ih => exact fun u => ih _
  unfold finishScreen
  dsimp only
  rw [getDie_congr ((only_sendMsg _ _ _).part .dies)]
  rw [getDie_congr ((keeps_logFault (w₀ := Part.among [.store]) _ _ (Keeps.refl _)).only.part .dies)]
  rw [getDie_resettle (·.screen) (fun _ _ => rfl), getDie_congr (hfold _ _), getDie_modDie_self hd]

theorem scrCmd_stop (hstop : bit v.toNat 30 = true) (hstart : bit v.toNat 31 = false)
    (hs : (getDie s d).screen.state ≠ .idle) : scrCmd s d v = finishScreen s d 5 := by
  simp [scrCmd, hstop, hstart, abortScreen, hs]

theorem scrCmd_start (hstart : bit v.toNat 31 = true) (hstop : bit v.toNat 30 = false) : scrCmd s d v = screenStart s d := by
  simp [scrCmd, hstop, hstart]

/-- What a round adds to what the screen of its die has seen. -/
def roundSeen (s : State) (d : Nat) (r : ScreenRound) : State := modDie s d fun y =>
  { y with screen := y.screen.see (screenMismatches s d r) (screenReference s d r).isSome r.testFails }

theorem screenRound_aborts {r : ScreenRound} (hs : (getDie s d).screen.state ≠ .idle) (he : r.serviceError = true) :
    screenRound s d r = finishScreen s d 5 := by
  simp [screenRound, hs, he, abortScreen]

theorem screenRound_running {r : ScreenRound} (hs : (getDie s d).screen.state = .running) (he : r.serviceError = false) :
    screenRound s d r = if (screenMismatches s d r).isEmpty then nextRound (roundSeen s d r) d
      else resettle (modDie (roundSeen s d r) d fun y => { y with screen := { y.screen with state := .confirming } }) := by
  simp only [screenRound, he, hs]
  rfl

/-- A round with a mismatch is run again: the screen is CONFIRMING, in the round it was in. -/
theorem screenRound_confirms {r : ScreenRound} (hs : (getDie s d).screen.state = .running) (he : r.serviceError = false)
    (hm : screenMismatches s d r ≠ []) (hd : d < s.dies.length) :
    (getDie (screenRound s d r) d).screen.state = .confirming ∧
      (getDie (screenRound s d r) d).screen.round = (getDie s d).screen.round := by
  rw [screenRound_running hs he, if_neg (by simpa using hm), getDie_resettle (·.screen) (fun _ _ => rfl),
    getDie_modDie_self (by rw [roundSeen, length_modDie]; exact hd), roundSeen, getDie_modDie_self hd]
  exact ⟨rfl, rfl⟩

theorem only_logIndexWrite (s : State) (v : Word) : Only [.regs, .store] s (logIndexWrite s v) :=
  (keeps_logIndexWrite (w₀ := Part.among [.regs, .store]) s v (Keeps.refl s)).only

end reliability

/-- Settles O54: each register's write split by its bits; a screen by what START, a round and its end leave of its die. -/
theorem reliabilityRegistersComplete : Obligations.ReliabilityRegistersComplete := by
  unfold Obligations.ReliabilityRegistersComplete
  intro s d v hd hlen
  have hwf : decide (d < 4) = true := decide_eq_true hd
  have hlt : d < s.dies.length := hlen ▸ hd
  refine ⟨fun hk => ⟨fun hset hclr ho => ?_, fun hclr hset => ?_⟩, fun hk => ⟨?_, ?_⟩, fun n hn hb hh h9 => ?_,
    fun hstart hstop => ⟨fun hok => ?_, fun hno => ?_⟩, fun hstop hstart hs => ?_, fun r hw => ?_, ?_, ?_⟩
  · refine ⟨_, (exec_relDieFlagSet_next hwf).trans (by rw [dieFlagWrite_sets hk hset hclr ho]), ?_⟩
    rw [(getDie_flagDie s d 5 hlt).2]
    exact ⟨rfl, by simpa [dieIs] using ho⟩
  · exact ⟨_, (exec_relDieFlagClr_next hwf).trans (by rw [dieFlagWrite_clears hk hset hclr]), flag_clearFlag hlt⟩
  · rw [exec_relDieFlagSet_next hwf, dieFlagWrite_ignores hk]
  · rw [exec_relDieFlagClr_next hwf, dieFlagWrite_ignores hk]
  · rw [exec_relVrmRelease_next (decide_eq_true hn), vrmRelease_releases hb hh h9]
  · exact ⟨_, (exec_scrStart_next hwf).trans (by rw [scrCmd_start hstart hstop]), screenStart_starts hok hlt⟩
  · rw [exec_scrStart_next hwf, scrCmd_start hstart hstop, screenStart, if_neg (by simp [hno])]
  · refine ⟨_, (exec_scrStop_next hwf).trans (by rw [scrCmd_stop hstop hstart hs]), ?_⟩
    rw [screen_finishScreen hlt]
    exact ⟨rfl, rfl⟩
  · intro ms seen
    rw [exec_screenRoundDone_next hw]
    refine ⟨fun hs he => by rw [screenRound_aborts hs he], fun hs he => ⟨fun hm => ?_, fun hm => ?_⟩⟩
    · rw [screenRound_running hs he, if_pos (List.isEmpty_iff.2 hm)]
      rfl
    · exact ⟨_, rfl, screenRound_confirms hs he hm hlt⟩
  · exact ⟨_, exec_relLogIndexWrite_next rfl, rfl, rfl, only_logIndexWrite s v⟩
  · exact exec_relMapIndexWrite_next rfl

/-! ### The Tally -/

section tally

variable {s : State}

theorem only_withTally (s : State) (x : Tally) : Only [.power, .acct] s { s with tally := x } := by
  refine ⟨rfl, fun p hp => ?_⟩
  cases p with
  | power => exact absurd hp (by decide)
  | _ => simp [Part.same]

theorem only_apportion (s : State) (e : Nat) : Only [.acct] s (apportion s e) :=
  (keeps_apportion (w₀ := Part.among [.acct]) s e (Keeps.refl s)).only

theorem length_leBytes (n v : Nat) : (leBytes n v).length = n := by
  induction n generalizing v with
  | zero => rfl
  | succ n ih => rw [leBytes, List.length_cons, ih]

theorem length_putField {b : Bytes} {off n v : Nat} (h : off + n ≤ b.length) : (putField b off n v).length = b.length := by
  simp only [putField, List.length_append, List.length_take, List.length_drop, length_leBytes]
  omega

/-- A record is as long as it says where its fields lie within it. -/
theorem length_record {len : Nat} {fs : List (Nat × Nat × Nat)} (h : ∀ f ∈ fs, f.1 + f.2.1 ≤ len) : (record len fs).length = len := by
  suffices ∀ b : Bytes, b.length = len → (fs.foldl (fun b f => putField b f.1 f.2.1 f.2.2) b).length = len from
    this _ List.length_replicate
  induction fs with
  | nil => exact fun b hb => hb
  | cons f fs ih =>
    obtain ⟨hf, hfs⟩ := List.forall_mem_cons.1 h
    exact fun b hb => ih hfs _ ((length_putField (hb ▸ hf)).trans hb)

theorem length_recordBody (s : State) (final : Bool) : (recordBody s final).length = 64 := length_record (by simp)

theorem slice_append_left {a : Bytes} (b : Bytes) {n : Nat} (h : a.length = n) : slice (a ++ b) 0 n = a := by
  simp [slice, ← h]

/-- The Tally after a record closes: it holds the record, and accumulates the next one. -/
theorem closeRecord_facts (s : State) (final : Bool) : ∃ r, slice r 0 64 = recordBody s final ∧
    (closeRecord s final).tally.records = (r :: s.tally.records).take 1024 ∧
    (closeRecord s final).tally.recSeq = s.tally.recSeq + 1 ∧ (closeRecord s final).tally.recIntervals = 0 ∧
    (closeRecord s final).tally.total = s.tally.total ∧ (closeRecord s final).tally.state = s.tally.state := by
  refine ⟨recordBody s final ++ slice (Config.tallySign s.tally.serial (recordBody s final)) 0 64,
    slice_append_left _ (length_recordBody s final), ?_⟩
  rw [closeRecord, ((only_sendMsg _ _ _).part .power).2]
  exact ⟨rfl, rfl, rfl, rfl, rfl⟩

/-- A metering Tally adds the interval; the 60th closes the record. -/
theorem tallyInterval_adds {e w v : Nat} {o : Bool} (hm : s.tally.state = .metering) :
    tallyInterval s e w v o = if 60 ≤ s.tally.recIntervals + 1 then
        closeRecord (apportion { s with tally := addInterval s.tally e w v o } e) false
      else apportion { s with tally := addInterval s.tally e w v o } e :=
  if_pos hm

theorem unmeteredInterval_adds (e : Nat) (hm : s.tally.state ≠ .metering) :
    (unmeteredInterval s e).tally.unmTotal = s.tally.unmTotal + e ∧
      (unmeteredInterval s e).tally.unmIntervals = s.tally.unmIntervals + 1 ∧
      (unmeteredInterval s e).tally.total = s.tally.total := by
  rw [unmeteredInterval, if_neg hm]
  exact ⟨rfl, rfl, rfl⟩

theorem unmeteredRecord_closes (hm : s.tally.state ≠ .metering) :
    (unmeteredRecord s).tally.unmSeq = s.tally.unmSeq + 1 ∧ (unmeteredRecord s).tally.unmRecord = 0 ∧
      (unmeteredRecord s).tally.records = s.tally.records := by
  have h : unmeteredRecord s = _ := if_neg hm
  dsimp only at h
  rw [h, ((only_sendMsg _ _ _).part .power).2]
  exact ⟨rfl, rfl, rfl⟩

theorem tallyCtl_release {v : Word} (hk : bits v.toNat 31 16 = 0x0CD9) (hr : bit v.toNat 0 = true) (ha : bit v.toNat 1 = false) :
    tallyCtl s v = tallyRelease s := by
  simp [tallyCtl, hk, hr, ha]

theorem tallyCtl_attach {v : Word} (hk : bits v.toNat 31 16 = 0x0CD9) (hr : bit v.toNat 0 = false) (ha : bit v.toNat 1 = true) :
    tallyCtl s v = tallyAttach s := by
  simp [tallyCtl, hk, hr, ha]

theorem tallyRelease_fault (h : s.tally.state = .fault) :
    tallyRelease s = { s with tally := { s.tally with state := .releasing } } := by
  unfold tallyRelease
  simp only [h]

theorem tallyAttach_absent (h : s.tally.state = .absent ∨ s.tally.state = .released) :
    tallyAttach s = { s with tally := { s.tally with state := .starting } } := by
  unfold tallyAttach
  rcases h with h | h <;> simp only [h]

theorem tallyRelease_metering (hm : s.tally.state = .metering) (h60 : s.tally.recIntervals < 60) : ∃ e w v n, tallyRelease s =
    closeRecord (apportion { s with tally := { addInterval s.tally e w v false with state := .releasing }, free := n } e) true := by
  refine ⟨(Config.freeWord s.free).toNat, (Config.freeWord (s.free + 1)).toNat % 65536,
    (Config.freeWord (s.free + 2)).toNat % 65536, s.free + 3, ?_⟩
  unfold tallyRelease
  simp only [hm, if_neg (Nat.not_le.2 h60)]

/-- A metering Tally that is released closes its last record. -/
theorem tallyRelease_closes (hm : s.tally.state = .metering) (h60 : s.tally.recIntervals < 60) :
    ∃ r, (tallyRelease s).tally.state = .releasing ∧ (tallyRelease s).tally.records = (r :: s.tally.records).take 1024 ∧
      (tallyRelease s).tally.recSeq = s.tally.recSeq + 1 := by
  obtain ⟨e, w, v, n, h⟩ := tallyRelease_metering hm h60
  obtain ⟨r, -, hr, hs, -, -, hstate⟩ := closeRecord_facts
    (apportion { s with tally := { addInterval s.tally e w v false with state := .releasing }, free := n } e) true
  rw [h]
  exact ⟨r, hstate, hr, hs⟩

theorem uncopied_tallyCopy (h : flashReady s = true) : (tallyCopy s).tally.uncopied = 0 := by
  unfold tallyCopy
  split
  · rfl
  case isFalse hn => exact Nat.eq_zero_of_not_pos fun hp => hn ⟨h, hp⟩

theorem bypass_tallyCopy (s : State) : (tallyCopy s).tally.bypass = s.tally.bypass := by
  unfold tallyCopy
  split <;> rfl

theorem tallyReleaseDone_releases (hr : s.tally.state = .releasing) :
    (tallyReleaseDone s).tally.state = .released ∧ (tallyReleaseDone s).tally.bypass = true ∧
      (flashReady s = true → (tallyReleaseDone s).tally.uncopied = 0) := by
  rw [tallyReleaseDone, if_pos hr]
  exact ⟨rfl, bypass_tallyCopy _, fun hf => uncopied_tallyCopy (s := { s with tally := { s.tally with bypass := true } }) hf⟩

theorem tallyFaulted_faults (h : s.tally.state = .metering ∨ s.tally.state = .starting) :
    (tallyFaulted s).tally.state = .fault ∧ (tallyFaulted s).tally.bypass = true := by
  unfold tallyFaulted
  rcases h with h | h <;> simp only [h, and_self]

theorem tallyPulled_leaves (h : s.tally.state ≠ .absent) : (tallyPulled s).tally.state = .absent ∧
    (tallyPulled s).tally.bypass = true ∧ (tallyPulled s).tally.gap = true := by
  rw [tallyPulled, if_neg h]
  exact ⟨rfl, rfl, rfl⟩

end tally

/-- Settles O55: intervals by what they add, records by what closing one leaves, the rest by the state of the Tally. -/
theorem tallyEventsComplete : Obligations.TallyEventsComplete := by
  unfold Obligations.TallyEventsComplete
  intro s
  refine ⟨fun e w v o hw hm => ?_, fun e hw hm => ?_, fun hm h60 => ?_, fun hm => ?_, fun v hk => ⟨fun hr ha => ⟨?_, ?_⟩, ?_⟩, fun hr => ?_,
    fun ok fw serial secs total seq broken hw hs => ?_, fun v => ?_, fun h => ?_, fun h => ?_, exec_tallySealOpened_next rfl⟩
  · intro u
    rw [exec_tallyIntervalClose_next hw, tallyInterval_adds hm]
    refine ⟨fun h => ⟨_, by rw [if_neg (by omega)], rfl, ?_⟩, fun h => ?_⟩
    · exact (only_withTally s _).trans ((only_apportion _ e).mono)
    · obtain ⟨r, hr, hrec, hseq, hint, -⟩ := closeRecord_facts u false
      exact ⟨_, r, by rw [if_pos (by omega)], hrec, hr, hseq, hint⟩
  · obtain ⟨h1, h2, h3⟩ := unmeteredInterval_adds e hm
    exact ⟨_, exec_unmeteredIntervalClose_next hw, h1, h2, h3,
      (keeps_unmeteredInterval (w₀ := Part.among [.power, .acct]) s e (Keeps.refl s)).only⟩
  · obtain ⟨r, hr, hrec, hseq, hint, htot, -⟩ := closeRecord_facts s false
    exact ⟨_, r, (exec_tallyRecordClose_next rfl).trans (by rw [tallyRecordClose, if_pos ⟨hm, .inl h60⟩]), hrec, hr, hseq, hint, htot⟩
  · exact ⟨_, exec_unmeteredRecord_next rfl, unmeteredRecord_closes hm⟩
  · intro h
    rw [exec_tallyRelease_next rfl, tallyCtl_release hk hr ha, tallyRelease_fault h]
  · intro hm h60
    obtain ⟨r, hst, hrec, hseq⟩ := tallyRelease_closes hm h60
    exact ⟨_, r, (exec_tallyRelease_next rfl).trans (by rw [tallyCtl_release hk hr ha]), hst, hrec, hseq⟩
  · intro hr ha h
    rw [exec_tallyAttach_next rfl, tallyCtl_attach hk hr ha, tallyAttach_absent h]
  · exact ⟨_, exec_tallyReleaseDone_next rfl, tallyReleaseDone_releases hr⟩
  · refine ⟨_, exec_tallySelfTestDone_next hw, fun hok => ?_, fun hok => ?_⟩
    all_goals
      rw [hok, tallySelfTest, if_neg (fun h => h hs)]
    · exact ⟨rfl, rfl, rfl, rfl, rfl, rfl, rfl, rfl⟩
    · exact ⟨rfl, rfl⟩
  · exact ⟨_, exec_tallyRecIndexWrite_next rfl, rfl, (keeps_tallyRecIndex (w₀ := Part.among [.regs, .power]) s v (Keeps.refl s)).only⟩
  · exact ⟨_, exec_tallyPulled_next rfl, tallyPulled_leaves h⟩
  · exact ⟨_, exec_tallyFault_next rfl, tallyFaulted_faults h⟩

end Sys2Proof.Machine
end

section
/-! Power and temperature: what moves a cap and how far, and what the power loop, a reading and a regulator leave. -/

namespace Sys2Proof.Machine

section power

variable {s t : State}

/-! ### Caps -/

/-- An island of a die. -/
def islandOf (s : State) (d n : Nat) : Island := (getDie s d).islands.getD n .reset

theorem islandOf_congr (h : t.dies = s.dies) (d n : Nat) : islandOf t d n = islandOf s d n := by
  rw [islandOf, islandOf, getDie_congr h]

/-- What a change of every island does to each. -/
theorem islandOf_mapped {g : Nat → Nat → Island → Island} {R : Island → Island → Prop} (hr : ∀ i, R i i) (hg : ∀ d c i, R i (g d c i))
    (h : t.dies = s.dies.mapIdx fun d x => { x with islands := x.islands.mapIdx (g d) }) (d n : Nat) :
    R (islandOf s d n) (islandOf t d n) := by
  simp only [islandOf, getDie, h, List.getD_eq_getElem?_getD, List.getElem?_mapIdx]
  cases s.dies[d]? with
  | none => exact hr _
  | some x =>
    simp only [Option.map_some, Option.getD_some, List.getElem?_mapIdx]
    cases x.islands[n]? with
    | none => exact hr _
    | some i => exact hg d n i

/-- No cap that the view shows is above what it was. -/
def CapsFall (v : Island → Nat) (s t : State) : Prop := ∀ d n, v (islandOf t d n) ≤ v (islandOf s d n)

variable {v : Island → Nat}

theorem CapsFall.of_dies (h : t.dies = s.dies) : CapsFall v s t := fun d n => Nat.le_of_eq (by rw [islandOf_congr h])

theorem CapsFall.trans {u : State} (h : CapsFall v s t) (k : CapsFall v t u) : CapsFall v s u := fun d n => Nat.le_trans (k d n) (h d n)

theorem capsFall_resettle (s : State) (hv : ∀ (i : Island) a b, v { i with veff := a, ramping := b } = v i := by exact fun _ _ _ => rfl) :
    CapsFall v s (resettle s) :=
  islandOf_mapped (R := fun i j => v j ≤ v i) (fun _ => Nat.le_refl _) (g := fun d c i => settleIsland s d c i)
    (fun d c i => by
      unfold settleIsland
      dsimp only
      split
      · exact Nat.le_refl _
      · exact Nat.le_of_eq (hv i _ _)) rfl

theorem capsFall_modTier (s : State) (k : Nat) {p : Nat → Nat → Island → Bool} {f : Island → Island}
    (hf : ∀ d c i, p d c i = true → v (f i) ≤ v i) : CapsFall v s (modTier s k p f) :=
  islandOf_mapped (R := fun i j => v j ≤ v i) (fun _ => Nat.le_refl _)
    (g := fun d c i => if tierOf s (32 * d + c) == k && p d c i then f i else i)
    (fun d c i => by
      split
      case isTrue h => exact hf d c i (Bool.and_eq_true_iff.1 h).2
      case isFalse => exact Nat.le_refl _) rfl

theorem capsFall_lowerCaps (s : State) : CapsFall (·.pcap) s (lowerCaps s) := by
  unfold lowerCaps
  dsimp only
  split
  · refine capsFall_modTier s _ fun d c i _ => ?_
    exact Nat.le_trans (Nat.sub_le _ _) (Nat.min_le_left _ _)
  · exact .of_dies rfl

/-! ### The power loop -/

theorem power_lowerCaps (s : State) : (lowerCaps s).power = s.power := by
  unfold lowerCaps
  dsimp only
  split <;> rfl

theorem power_raiseCaps (s : State) : (raiseCaps s).power.inputMw = s.power.inputMw ∧ (raiseCaps s).power.peakMw = s.power.peakMw := by
  unfold raiseCaps
  dsimp only
  split <;> exact ⟨rfl, rfl⟩

/-- A report of the caps remembers the causes; else it sends a message at most. -/
theorem only_reportCaps (s : State) : Only [.host, .regs]
    { s with power := { s.power with causes := activeCauses s, capped := decide (0 < powerCapped s) } } (reportCaps s) := by
  unfold reportCaps
  dsimp only
  split
  · split
    · exact only_sendMsg _ _ _
    · split
      · exact only_sendMsg _ _ _
      · exact Only.refl _ _
  · split
    · exact only_sendMsg _ _ _
    · exact Only.refl _ _

/-- The state of the loop's step before it moves a cap. -/
def powerMeasured (s : State) (p : Nat) : State := { s with power := { s.power with
  inputMw := p, peakMw := max s.power.peakMw p
  quiet := if decide (100 * p < 97 * powerLimit s) then min 20 (s.power.quiet + 1) else 0
  sinceRaise := min 4 (s.power.sinceRaise + 1) } }

/-- The state of the loop's step before it reports. -/
def powerStepped (s : State) (p : Nat) : State :=
  if powerLimit s < p then lowerCaps (powerMeasured s p)
  else if (powerMeasured s p).power.quiet = 20 ∧ (powerMeasured s p).power.sinceRaise = 4 then raiseCaps (powerMeasured s p)
  else powerMeasured s p

theorem powerTick_eq (s : State) (p : Nat) : powerTick s p = reportCaps (resettle (powerStepped s p)) := rfl

theorem power_powerStepped (s : State) (p : Nat) :
    (powerStepped s p).power.inputMw = p ∧ (powerStepped s p).power.peakMw = max s.power.peakMw p := by
  unfold powerStepped
  split
  · rw [power_lowerCaps]
    exact ⟨rfl, rfl⟩
  · split
    · exact power_raiseCaps _
    · exact ⟨rfl, rfl⟩

theorem powerTick_facts (s : State) (p : Nat) : (powerTick s p).power.inputMw = p ∧
    (powerTick s p).power.peakMw = max s.power.peakMw p ∧
    (powerLimit s < p → CapsFall (·.pcap) s (powerTick s p)) := by
  have ho := only_reportCaps (resettle (powerStepped s p))
  obtain ⟨hin, hpeak⟩ := power_powerStepped s p
  rw [powerTick_eq, (ho.part .power).1]
  refine ⟨hin, hpeak, fun hl => ?_⟩
  have hlow : powerStepped s p = lowerCaps (powerMeasured s p) := if_pos hl
  have h1 : CapsFall (·.pcap) s (lowerCaps (powerMeasured s p)) := capsFall_lowerCaps (powerMeasured s p)
  have h2 : CapsFall (·.pcap) (lowerCaps (powerMeasured s p)) (resettle (powerStepped s p)) := hlow ▸ capsFall_resettle _
  exact (h1.trans h2).trans (.of_dies (ho.part .dies))

/-! ### The thermal loop -/

/-- The state of a thermal step before it moves a cap. -/
def thermalMeasured (s : State) (d : Nat) (tj : Int) : State := { s with power := { s.power with
  tjDie := s.power.tjDie.set d tj
  cool := s.power.cool.set d (decide (tj ≤ 1000)) } }

theorem power_thermalTick (s : State) (d : Nat) (tj : Int) : (thermalTick s d tj).power = (thermalMeasured s d tj).power := by
  unfold thermalTick
  dsimp only
  split
  · split <;> rfl
  · split
    · split <;> rfl
    · rfl

theorem capsFall_thermalTick {d : Nat} {tj : Int} (h : 1000 < tj) : CapsFall (·.tcap) s (thermalTick s d tj) := by
  have hc : decide (tj ≤ 1000) = false := decide_eq_false (by omega)
  unfold thermalTick
  dsimp only
  rw [hc, Bool.false_and]
  refine .trans (t := if 1030 ≤ tj then _ else _) ?_ (capsFall_resettle _)
  split
  · split
    · exact capsFall_modTier (thermalMeasured s d tj) _ fun d c i _ => Nat.sub_le _ _
    · exact .of_dies rfl
  · exact .of_dies rfl

/-! ### Readings, voltage and regulators -/

theorem conds_setSensor (p : Power) (source cause : Nat) (r : Int) : (setSensor p source cause r).conds = p.conds := by
  unfold setSensor
  split
  · rfl
  · split
    · rfl
    · split <;> rfl

theorem power_logFault (s : State) (e : LogEntry) : (logFault s e).power = s.power :=
  ((keeps_logFault (w₀ := Part.among [.store]) s e (Keeps.refl s)).only.part .power).1

theorem power_sendMsg (s : State) (code : Nat) (fs) : (sendMsg s code fs).power = s.power := ((only_sendMsg s code fs).part .power).1

theorem conds_thermalReading (s : State) (source cause : Nat) (r : Int) : (thermalReading s source cause r).power.conds =
    if (source, cause) ∈ s.power.conds then
      if thermalEnds cause r then s.power.conds.erase (source, cause) else s.power.conds
    else if thermalBegins cause r then s.power.conds ++ [(source, cause)] else s.power.conds := by
  have hsend : ∀ u c fs e, (resettle (sendMsg (logFault u e) c fs)).power = u.power := fun u c fs e =>
    (power_sendMsg _ c fs).trans (power_logFault u e)
  have hkeep : (resettle { s with power := setSensor s.power source cause r }).power.conds = s.power.conds := conds_setSensor ..
  unfold thermalReading
  by_cases hon : (source, cause) ∈ s.power.conds
  · rw [if_pos hon]
    simp only [List.contains_iff_mem.2 hon, Bool.not_true, Bool.false_and, Bool.true_and, Bool.false_eq_true, if_false]
    split
    · rw [hsend, conds_setSensor]
    · exact hkeep
  · rw [if_neg hon]
    have hoff : s.power.conds.contains (source, cause) = false := by simpa using hon
    simp only [hoff, Bool.not_false, Bool.true_and, Bool.false_and, Bool.false_eq_true, if_false]
    split
    · rw [hsend, conds_setSensor]
    · exact hkeep

theorem thermalTrip_begins {source cause : Nat} {r : Int} (hn : (source, cause) ∉ s.power.conds) (hb : thermalBegins cause r = true) :
    thermalTrip s source cause r = if source < 4 then drainHold (thermalReading s source cause r) source 0
      else [0, 1, 2, 3].foldl (fun s d => drainHold s d 0) (thermalReading s source cause r) := by
  have : (!s.power.conds.contains (source, cause) && thermalBegins cause r) = true := by simpa [hb] using hn
  simp only [thermalTrip, this, if_true]

/-- Inside the envelope no cap stays below code 20. -/
theorem caps_envelopeReturn (h : outOfEnvelope s = false) :
    ∀ x ∈ (envelopeReturn s).dies, ∀ i ∈ x.islands, 20 ≤ i.pcap ∧ 20 ≤ i.tcap := by
  intro x hx i hi
  rw [envelopeReturn, if_neg (by simp [h])] at hx
  obtain ⟨d, hd, rfl⟩ := List.mem_mapIdx.1 hx
  obtain ⟨c, hc, rfl⟩ := List.mem_mapIdx.1 hi
  simp only [List.getElem_map, settleIsland]
  split <;> exact ⟨Nat.le_max_right _ _, Nat.le_max_right _ _⟩

theorem vinMv_voltageChange (s : State) (mv : Nat) : (voltageChange s mv).power.vinMv = mv := by
  unfold voltageChange
  dsimp only
  split
  · exact congrArg Power.vinMv (power_logFault { s with power := { s.power with vinMv := mv } } _)
  · rfl

theorem vrm_setVrm {n : Nat} (st : VrmState) (h : n < s.power.vrms.length) : vrm (setVrm s n st) n = st := by
  simp [vrm, setVrm, h]

theorem vrm_congr (h : t.power = s.power) (n : Nat) : vrm t n = vrm s n := by rw [vrm, vrm, h]

theorem power_regulatorWatch (s : State) : (regulatorWatch s).power = s.power :=
  ((keeps_regulatorWatch (w₀ := Part.among [.regs, .host, .dies, .ctxs, .modes, .acct, .store]) s (Keeps.refl s)).only.part .power).1

theorem vrm_regulatorFail {n : Nat} (hh : vrm s n = .healthy) (h : n < s.power.vrms.length) : vrm (regulatorFail s n) n = .failed := by
  rw [regulatorFail, if_pos (.inl hh)]
  have hp : (resettle (regulatorWatch (logFault (setVrm s n .failed) { type := 10, code := n }))).power = (setVrm s n .failed).power :=
    (power_regulatorWatch _).trans (power_logFault ..)
  exact (vrm_congr hp n).trans (vrm_setVrm _ h)

theorem vrm_regulatorFitted {n : Nat} (hr : vrm s n = .released) (h : n < s.power.vrms.length) : vrm (regulatorFitted s n) n = .healthy := by
  unfold regulatorFitted
  simp only [hr]
  have hp : (resettle (logFault (setVrm s n .healthy) { type := 12, code := 2 })).power = (setVrm s n .healthy).power :=
    power_logFault ..
  exact (vrm_congr hp n).trans (vrm_setVrm _ h)

end power

/-- Settles O56: the loops by what may move a cap, a reading by the condition it meets, the rest by the field each event sets. -/
theorem powerEventsComplete : Obligations.PowerEventsComplete := by
  unfold Obligations.PowerEventsComplete
  intro s
  refine ⟨fun p hw => ⟨_, exec_powerLoopTick_next hw, powerTick_facts s p⟩, fun d tj hw => ⟨_, exec_thermalCapTick_next hw, ?_, ?_, ?_⟩,
    fun source cause r hw => ⟨_, exec_thermal_next hw, conds_thermalReading ..⟩, fun source cause r hw hn hb => ?_,
    fun h => ⟨_, exec_envelopeReturn_next rfl, caps_envelopeReturn h⟩,
    fun mv hw => ⟨_, exec_inputVoltageChange_next hw, vinMv_voltageChange s mv⟩,
    fun e w v hw => ⟨_, exec_inputPowerLoss_next hw, rfl, rfl, rfl, fun hm => ?_⟩,
    fun n hn hlen => ⟨fun hh => ?_, fun hr => ?_⟩, fun hr => ?_, exec_refClockReturn_next rfl⟩
  · rw [power_thermalTick]
    rfl
  · rw [power_thermalTick]
    rfl
  · exact fun h => capsFall_thermalTick h
  · rw [exec_thermalTrip_next hw, thermalTrip_begins hn hb]
  · simp only [inputPowerLoss, if_pos hm]
    exact ⟨rfl, rfl⟩
  · exact ⟨_, exec_regulatorFail_next (decide_eq_true hn), vrm_regulatorFail hh (hlen ▸ hn)⟩
  · exact ⟨_, exec_regulatorFitted_next (decide_eq_true hn), vrm_regulatorFitted hr (hlen ▸ hn)⟩
  · have h : refLost s = setBits { s with hub := { s.hub with refLost := true } } 0x208 2#32 := if_neg (by simp [hr])
    refine ⟨_, (exec_refClockLost_next rfl).trans (congrArg _ h), rfl, getReg_setReg_self .., ?_⟩
    rw [← h]
    exact (keeps_refLost (w₀ := Part.among [.hub, .regs]) s (Keeps.refl s)).only

end Sys2Proof.Machine
end

section
/-! The near tier's controllers: what a change of one leaves of the others, what an error that is met counts, and what a row that is
remapped takes along. -/

namespace Sys2Proof.Machine

/-! ### One controller -/

section controller

variable {s t : State} {d mc : Nat} {f : Mc → Mc}

/-- A controller that the module has. -/
structure HasMc (s : State) (d mc : Nat) : Prop where
  die : d < s.dies.length
  lt : mc < 3
  mc : mc < (getDie s d).mcs.length

theorem stack_die (h : mc < 3) : (3 * d + mc) / 3 = d := by omega

theorem stack_mc (h : mc < 3) : (3 * d + mc) % 3 = mc := by omega

theorem getMc_congr (h : t.dies = s.dies) (d mc : Nat) : getMc t d mc = getMc s d mc := by rw [getMc, getMc, getDie_congr h]

theorem HasMc.of_dies (h : HasMc s d mc) (ht : t.dies = s.dies) : HasMc t d mc :=
  ⟨ht ▸ h.die, h.lt, getDie_congr ht d ▸ h.mc⟩

theorem HasMc.modMc (h : HasMc s d mc) (st : Nat) (f : Mc → Mc) : HasMc (modMc s st f) d mc :=
  ⟨length_modDie.symm ▸ h.die, h.lt, by
    have := dieField_modDie (s := s) (f := fun x => { x with mcs := modAt x.mcs (st % 3) f }) (·.mcs.length)
      (fun _ => List.length_modify ..) (st / 3) d
    exact this.symm ▸ h.mc⟩

theorem getMc_modMc_self (h : HasMc s d mc) : getMc (modMc s (3 * d + mc) f) d mc = f (getMc s d mc) := by
  unfold getMc Machine.modMc
  rw [stack_die h.lt, stack_mc h.lt, getDie_modDie_self h.die]
  simp [modAt, h.mc]

/-- A change of a controller that a view does not show. -/
theorem mcView_modMc {β : Type} (v : Mc → β) (hf : ∀ m, v (f m) = v m) (s : State) (st d mc : Nat) :
    v (getMc (modMc s st f) d mc) = v (getMc s d mc) := by
  refine dieField_modDie (s := s) (f := fun x => { x with mcs := modAt x.mcs (st % 3) f }) (fun x => v (x.mcs.getD mc .reset))
    (fun x => ?_) (st / 3) d
  simp only [modAt, List.getD_eq_getElem?_getD, List.getElem?_modify]
  cases x.mcs[mc]? with
  | none => rfl
  | some m =>
    simp only [Option.getD_some]
    split
    · exact hf m
    · rfl

/-- A change of a channel does not show in a view of the rest of its controller. -/
theorem mcView_modChan {β : Type} (v : Mc → β) (hv : ∀ m l, v { m with chans := l } = v m) (s : State) (st chan : Nat)
    (g : Chan → Chan) (d mc : Nat) : v (getMc (modChan s st chan g) d mc) = v (getMc s d mc) :=
  mcView_modMc v (fun m => hv m _) s st d mc

theorem getChan_modChan {chan : Nat} {g : Chan → Chan} (h : HasMc s d mc) (hc : chan < (getMc s d mc).chans.length) :
    (getMc (modChan s (3 * d + mc) chan g) d mc).chans.getD chan .reset = g ((getMc s d mc).chans.getD chan .reset) := by
  rw [modChan, getMc_modMc_self h]
  simp [modAt, hc]

theorem only_modMc (s : State) (st : Nat) (f : Mc → Mc) : Only [.dies] s (modMc s st f) :=
  (keeps_modMc (w₀ := Part.among [.dies]) s st f (Keeps.refl s)).only

theorem only_modChan (s : State) (st chan : Nat) (f : Chan → Chan) : Only [.dies] s (modChan s st chan f) := only_modMc ..

theorem only_sendChan (s : State) (kind d mc chan row : Nat) : Only [.store, .host, .regs] s (sendChan s kind d mc chan row) :=
  (keeps_sendChan (w₀ := Part.among [.store, .host, .regs]) s kind d mc chan row (Keeps.refl s)).only

end controller

/-! ### Errors that are met -/

section errors

variable {s : State} {d mc chan line row : Nat}

theorem mem_nominate (m : Mc) (chan row : Nat) : (chan, row) ∈ (m.nominate chan row).nominated := by
  unfold Mc.nominate
  split
  case isTrue h => simpa using h
  case isFalse => simp

theorem errors_nominate (m : Mc) (chan row : Nat) : (m.nominate chan row).errCorr = m.errCorr ∧
    (m.nominate chan row).errUncorr = m.errUncorr := by
  unfold Mc.nominate
  split <;> exact ⟨rfl, rfl⟩

theorem mem_insertAsc {l : List Nat} {k x : Nat} : x ∈ insertAsc l k ↔ x = k ∨ x ∈ l := by
  induction l with
  | nil => simp [insertAsc]
  | cons j l ih =>
    unfold insertAsc
    split
    · simp
    · split
      case isTrue h => subst h; simp
      case isFalse => simp [ih, or_left_comm]

theorem correctedError_counts (h : HasMc s d mc) (chan row : Nat) :
    (getMc (correctedError s d mc chan row) d mc).errCorr = sat32 ((getMc s d mc).errCorr + 1) ∧
      (getMc (correctedError s d mc chan row) d mc).errUncorr = (getMc s d mc).errUncorr := by
  unfold correctedError
  dsimp only
  rw [getMc_modMc_self h]
  split
  · exact errors_nominate _ _ _
  · exact ⟨rfl, rfl⟩

theorem uncorrectable_counts (h : HasMc s d mc) (chan line row : Nat) :
    line ∈ (uncorrectable s d mc chan line row).poison ∧
      (getMc (uncorrectable s d mc chan line row) d mc).errUncorr = sat32 ((getMc s d mc).errUncorr + 1) ∧
      (chan, row) ∈ (getMc (uncorrectable s d mc chan line row) d mc).nominated ∧
      (getMc (uncorrectable s d mc chan line row) d mc).errCorr = (getMc s d mc).errCorr := by
  have hm : getMc (uncorrectable s d mc chan line row) d mc =
      Mc.nominate { getMc s d mc with errUncorr := sat32 ((getMc s d mc).errUncorr + 1) } chan row :=
    (getMc_congr rfl d mc).trans (getMc_modMc_self h)
  obtain ⟨hcorr, huncorr⟩ := errors_nominate { getMc s d mc with errUncorr := sat32 ((getMc s d mc).errUncorr + 1) } chan row
  rw [hm]
  exact ⟨mem_insertAsc.2 (.inl rfl), huncorr, mem_nominate .., hcorr⟩

/-- An error that is met in a line of a controller. -/
theorem meetCell_on (h : mc < 3) (hl : lineOn d mc chan line = true) (fixable : Bool) :
    meetCell s { line := line, row := row, fixable := fixable } =
      let s1 := { s with cells := s.cells.erase { line := line, row := row, fixable := fixable } }
      if fixable then correctedError s1 d mc chan row else uncorrectable s1 d mc chan line row := by
  obtain ⟨hst, hch⟩ := Bool.and_eq_true_iff.1 hl
  unfold meetCell
  dsimp only
  rw [eq_of_beq hst, eq_of_beq hch, stack_die h, stack_mc h]

section patrol

variable {err : Bool} (hl : lineOn d mc chan line = true) (hf : rowFits row line = true) (hp : line ∉ s.poison)

include hl hf hp

theorem patrolScrub_finds (hr : (getMc s d mc).state = .ready) (hen : bit (getReg s (mcCtl d mc)).toNat 0 = true) :
    patrolScrub s d mc chan line row err =
      meetCell { s with cells := s.cells.filter fun x => x.line != line } { line := line, row := row, fixable := err } := by
  unfold patrolScrub
  dsimp only
  rw [if_neg (by simpa [hl, hf] using hp), if_pos ⟨hr, hen⟩]

theorem patrolScrub_leaves (hen : bit (getReg s (mcCtl d mc)).toNat 0 = false) (hc : ∀ x ∈ s.cells, x.line ≠ line) :
    patrolScrub s d mc chan line row err = { s with cells := s.cells ++ [{ line := line, row := row, fixable := err }] } := by
  unfold patrolScrub
  dsimp only
  rw [if_neg (by simpa [hl, hf] using hp), if_neg (by simp [hen]), if_neg (by simpa using hc)]

end patrol

theorem only_patrolScrub (s : State) (d mc chan line row : Nat) (err : Bool) :
    Only [.dies, .mem] s (patrolScrub s d mc chan line row err) :=
  (keeps_patrolScrub (w₀ := Part.among [.dies, .mem]) s d mc chan line row err (Keeps.refl s)).only

/-- What patrol scrub counts of an error it finds. -/
theorem meetCell_counts (h : HasMc s d mc) (hl : lineOn d mc chan line = true) (err : Bool) :
    let t := meetCell s { line := line, row := row, fixable := err }
    t.mem = s.mem ∧
      (err = true → t.poison = s.poison ∧ (getMc t d mc).errCorr = sat32 ((getMc s d mc).errCorr + 1) ∧
        (getMc t d mc).errUncorr = (getMc s d mc).errUncorr) ∧
      (err = false → line ∈ t.poison ∧ (getMc t d mc).errUncorr = sat32 ((getMc s d mc).errUncorr + 1) ∧
        (chan, row) ∈ (getMc t d mc).nominated ∧ (getMc t d mc).errCorr = (getMc s d mc).errCorr) := by
  intro t
  have hcell (l : List CellError) : HasMc { s with cells := l } d mc := h.of_dies rfl
  cases err with
  | true =>
    have ht : t = correctedError _ d mc chan row := meetCell_on h.lt hl true
    rw [ht]
    exact ⟨rfl, fun _ => ⟨rfl, correctedError_counts (hcell _) chan row⟩, nofun⟩
  | false =>
    have ht : t = uncorrectable _ d mc chan line row := meetCell_on h.lt hl false
    rw [ht]
    exact ⟨rfl, nofun, fun _ => uncorrectable_counts (hcell _) chan line row⟩

end errors

/-! ### Row remapping -/

section remap

variable {s : State} {d mc : Nat}

/-- What copying the cells of a row to its spare leaves: the controller's tables, every poisoned line, and each line with an error that
cannot be corrected poisoned. -/
structure CellsCopied (d mc : Nat) (l : List CellError) (s t : State) : Prop where
  has : HasMc t d mc
  nominated : (getMc t d mc).nominated = (getMc s d mc).nominated
  chans : (getMc t d mc).chans = (getMc s d mc).chans
  poison : ∀ x ∈ s.poison, x ∈ t.poison
  lines : ∀ x ∈ l, x.fixable = false → x.line ∈ t.poison

theorem copyCell_copies (h : HasMc s d mc) (c : CellError) : CellsCopied d mc [c] s (copyCell d mc s c) := by
  have h1 : HasMc { s with cells := s.cells.erase c } d mc := h.of_dies rfl
  unfold copyCell
  dsimp only
  split
  case isTrue hf =>
    refine ⟨h1.modMc _ _, ?_, ?_, fun x hx => hx, fun x hx hn => ?_⟩
    · exact mcView_modMc (f := fun m => { m with errCorr := sat32 (m.errCorr + 1) }) (·.nominated) (fun _ => rfl) _ _ d mc
    · exact mcView_modMc (f := fun m => { m with errCorr := sat32 (m.errCorr + 1) }) (·.chans) (fun _ => rfl) _ _ d mc
    · rw [List.mem_singleton.1 hx, hf] at hn
      cases hn
  case isFalse =>
    refine ⟨(h1.modMc _ _).of_dies rfl, ?_, ?_, fun x hx => mem_insertAsc.2 (.inr hx), fun x hx _ => mem_insertAsc.2 (.inl ?_)⟩
    · exact mcView_modMc (f := fun m => { m with errUncorr := sat32 (m.errUncorr + 1) }) (·.nominated) (fun _ => rfl) _ _ d mc
    · exact mcView_modMc (f := fun m => { m with errUncorr := sat32 (m.errUncorr + 1) }) (·.chans) (fun _ => rfl) _ _ d mc
    · rw [List.mem_singleton.1 hx]

theorem foldl_copyCell_copies (l : List CellError) (s : State) (h : HasMc s d mc) :
    CellsCopied d mc l s (l.foldl (copyCell d mc) s) := by
  induction l generalizing s with
  | nil => exact ⟨h, rfl, rfl, fun x hx => hx, nofun⟩
  | cons c l ih =>
    have hc := copyCell_copies h c
    have hl := ih _ hc.has
    refine ⟨hl.has, hl.nominated.trans hc.nominated, hl.chans.trans hc.chans, fun x hx => hl.poison x (hc.poison x hx),
      fun x hx hn => ?_⟩
    rcases List.mem_cons.1 hx with rfl | hx
    · exact hl.poison _ (hc.lines x (List.mem_singleton.2 rfl) hn)
    · exact hl.lines x hx hn

/-- The cells of a row, copied. -/
def rowCopied (s : State) (d mc chan row : Nat) : State :=
  let s1 := modMc s (3 * d + mc) fun m => { m with nominated := m.nominated.erase (chan, row) }
  (s1.cells.filter fun x => x.row == row && lineOn d mc chan x.line).foldl (copyCell d mc) s1

theorem rowRemap_copies {chan row : Nat} (hn : (chan, row) ∈ (getMc s d mc).nominated)
    (hr : ((getMc s d mc).chans.getD chan .reset).remap.length < 64) :
    rowRemap s d mc chan row = sendChan (modChan (rowCopied s d mc chan row) (3 * d + mc) chan fun c => { c with
      remap := c.remap ++ [{ row := row, fromMap := false }], corrRows := c.corrRows.filter fun r => r.1 != row }) 1 d mc chan row := by
  unfold rowRemap
  dsimp only
  rw [if_neg (by simpa using hn), if_neg (Nat.not_le.2 hr)]
  rfl

theorem rowRemap_facts {chan row : Nat} (h : HasMc s d mc) (hc : chan < (getMc s d mc).chans.length)
    (hn : (chan, row) ∈ (getMc s d mc).nominated) (hnd : (getMc s d mc).nominated.Nodup)
    (hr : ((getMc s d mc).chans.getD chan .reset).remap.length < 64) :
    (chan, row) ∉ (getMc (rowRemap s d mc chan row) d mc).nominated ∧
      (∀ x ∈ s.cells, x.row = row → lineOn d mc chan x.line = true → x.fixable = false → x.line ∈ (rowRemap s d mc chan row).poison) ∧
      ((getMc (rowRemap s d mc chan row) d mc).chans.getD chan .reset).remap =
        ((getMc s d mc).chans.getD chan .reset).remap ++ [{ row := row, fromMap := false }] := by
  have h1 := h.modMc (3 * d + mc) fun m => { m with nominated := m.nominated.erase (chan, row) }
  have hg := getMc_modMc_self (f := fun m => { m with nominated := m.nominated.erase (chan, row) }) h
  have hcp : CellsCopied d mc _ _ (rowCopied s d mc chan row) := foldl_copyCell_copies _ _ h1
  have hchans : (getMc (rowCopied s d mc chan row) d mc).chans = (getMc s d mc).chans := by rw [hcp.chans, hg]
  have hsend := only_sendChan (modChan (rowCopied s d mc chan row) (3 * d + mc) chan fun c => { c with
      remap := c.remap ++ [{ row := row, fromMap := false }], corrRows := c.corrRows.filter fun r => r.1 != row }) 1 d mc chan row
  rw [rowRemap_copies hn hr, getMc_congr (hsend.part .dies)]
  refine ⟨?_, fun x hx hrow hline hfix => ?_, ?_⟩
  · rw [mcView_modChan (·.nominated) (fun _ _ => rfl), hcp.nominated, hg]
    exact fun hm => hnd.not_mem_erase hm
  · obtain ⟨-, hp, -⟩ := hsend.part .mem
    rw [hp]
    exact hcp.lines x (List.mem_filter.2 ⟨hx, by simp [hrow, hline]⟩) hfix
  · rw [getChan_modChan hcp.has (hchans ▸ hc), hchans]

end remap

/-! ### Command parity -/

section parity

variable {s : State} {d mc chan : Nat}

/-- The retries of a command counted, and its channel DEGRADED after three. -/
def retried (s : State) (d mc chan retries : Nat) : State :=
  let s1 := modMc s (3 * d + mc) fun m => { m with caRetry := sat32 (m.caRetry + min retries 15) }
  if retries ≤ 3 ∨ ((getMc s d mc).chans.getD chan .reset).degraded then s1
  else sendChan (modChan s1 (3 * d + mc) chan fun c => { c with degraded := true }) 3 d mc chan 0

theorem caParity_eq {line : Nat} (hl : lineOn d mc chan line = true) (retries : Nat) (read : Bool) (reader : CaReader) :
    caParity s d mc chan retries read line reader =
      if 15 < retries then caFailed (retried s d mc chan retries) d mc read line reader else retried s d mc chan retries :=
  if_neg (by simp [hl])

structure Retried (d mc chan retries : Nat) (s t : State) : Prop where
  has : HasMc t d mc
  mem : t.mem = s.mem
  poison : t.poison = s.poison
  exhausted : (getMc t d mc).caExhausted = (getMc s d mc).caExhausted
  retry : (getMc t d mc).caRetry = sat32 ((getMc s d mc).caRetry + min retries 15)
  degraded : ((getMc t d mc).chans.getD chan .reset).degraded =
    (((getMc s d mc).chans.getD chan .reset).degraded || decide (3 < retries))

theorem retried_facts (h : HasMc s d mc) (hc : chan < (getMc s d mc).chans.length) (retries : Nat) :
    Retried d mc chan retries s (retried s d mc chan retries) := by
  have h1 := h.modMc (3 * d + mc) fun m => { m with caRetry := sat32 (m.caRetry + min retries 15) }
  have hg := getMc_modMc_self (f := fun m => { m with caRetry := sat32 (m.caRetry + min retries 15) }) h
  unfold retried
  dsimp only
  split
  case isTrue hr =>
    refine ⟨h1, rfl, rfl, by rw [hg], by rw [hg], ?_⟩
    rw [hg]
    rcases hr with hr | hr
    · rw [decide_eq_false (Nat.not_lt.2 hr), Bool.or_false]
    · rw [hr, Bool.true_or]
  case isFalse hr =>
    obtain ⟨hr3, -⟩ := not_or.1 hr
    generalize hu : modMc s (3 * d + mc) (fun m => { m with caRetry := sat32 (m.caRetry + min retries 15) }) = u at *
    have hum : u.mem = s.mem ∧ u.poison = s.poison := hu ▸ ⟨rfl, rfl⟩
    have hsend := only_sendChan (modChan u (3 * d + mc) chan fun c => { c with degraded := true }) 3 d mc chan 0
    have hmc := getMc_congr (hsend.part .dies) d mc
    refine ⟨(h1.modMc _ _).of_dies (hsend.part .dies), ?_, ?_, ?_, ?_, ?_⟩
    · exact (hsend.part .mem).1.trans hum.1
    · exact (hsend.part .mem).2.1.trans hum.2
    · rw [hmc, mcView_modChan (·.caExhausted) (fun _ _ => rfl), hg]
    · rw [hmc, mcView_modChan (·.caRetry) (fun _ _ => rfl), hg]
    · rw [hmc, getChan_modChan h1 (by rw [hg]; exact hc), decide_eq_true (Nat.lt_of_not_le hr3), Bool.or_true]

end parity

/-- Settles O57: each event by what it counts in its controller, a remapped row by induction over the cells it holds. -/
theorem nearMemoryEventsComplete : Obligations.NearMemoryEventsComplete := by
  unfold Obligations.NearMemoryEventsComplete
  intro s d mc chan line row hd hlen hmc hchan hmcs hchans
  have h : HasMc s d mc := ⟨hlen ▸ hd, hmc, hmcs ▸ hmc⟩
  have hc : chan < (getMc s d mc).chans.length := hchans ▸ hchan
  refine ⟨fun err hw hr hen hl hf hp => ⟨_, exec_patrolScrub_next hw, only_patrolScrub .., ?_⟩, fun err hw hen hl hf hp hcells => ?_,
    fun hw hn hnd hr => ⟨_, exec_rowRemap_next hw, rowRemap_facts h hc hn hnd hr⟩, fun retries read reader hw hl => ⟨fun hr => ?_, fun hr => ?_⟩⟩
  · rw [patrolScrub_finds hl hf hp hr hen]
    exact meetCell_counts (s := { s with cells := s.cells.filter fun x => x.line != line }) (h.of_dies rfl) hl err
  · rw [exec_patrolScrub_next hw, patrolScrub_leaves hl hf hp hen hcells]
  · have ht := retried_facts h hc retries
    refine ⟨_, (exec_caParityError_next hw).trans (by rw [caParity_eq hl, if_neg (Nat.not_lt.2 hr)]), ht.poison, ?_, ht.degraded⟩
    rw [ht.retry, Nat.min_eq_left hr]
  · have ht := retried_facts h hc retries
    refine ⟨modMc (retried s d mc chan retries) (3 * d + mc) fun m => { m with caExhausted := sat32 (m.caExhausted + 1) }, ?_,
      ht.mem, ht.poison, ?_⟩
    · rw [getMc_modMc_self ht.has, ← ht.exhausted]
    · rw [exec_caParityError_next hw, caParity_eq hl, if_pos hr]
      rfl

end Sys2Proof.Machine
end

section
/-! Ports: what a change of a port's state leaves, the packets a port that goes down sends again, and the loss of a far-tier port. -/

namespace Sys2Proof.Machine

section links

variable {s : State} {n : Nat} {f : Port → Port}

/-! ### One port -/

theorem entry_modAt_self {α : Type} {l : List α} {i : Nat} {f : α → α} (d : α) (h : i < l.length) :
    (modAt l i f).getD i d = f (l.getD i d) := by
  simp [modAt, h]

/-- A change of one entry that a view does not show. -/
theorem view_getD_modAt {α β : Type} (v : α → β) {f : α → α} (hf : ∀ x, v (f x) = v x) (l : List α) (i n : Nat) (d : α) :
    v ((modAt l i f).getD n d) = v (l.getD n d) := by
  simp only [modAt, List.getD_eq_getElem?_getD, List.getElem?_modify]
  cases l[n]? with
  | none => rfl
  | some x =>
    simp only [Option.map_eq_map, Option.map_some, Option.getD_some]
    split
    · exact hf x
    · rfl

theorem view_getD_map {α β : Type} (v : α → β) {f : α → α} (hf : ∀ x, v (f x) = v x) (l : List α) (n : Nat) (d : α) :
    v ((l.map f).getD n d) = v (l.getD n d) := by
  simp only [List.getD_eq_getElem?_getD, List.getElem?_map]
  cases l[n]? with
  | none => rfl
  | some x => exact hf x

/-- The ports once one of them has changed its state: every port's share starts anew. -/
def portsMoved (s : State) (n : Nat) (f : Port → Port) : List Port := (modAt s.ports n f).map fun p => { p with spent := 0 }

theorem only_sendLink (s : State) (n : Nat) : Only [.regs, .host, .store] s (sendLink s n) :=
  (keeps_sendLink (w₀ := Part.among [.regs, .host, .store]) s n (Keeps.refl s)).only

/-- A port that changes its state. -/
theorem setPort_moves (hn : n < s.ports.length) (hst : (f (s.ports.getD n .reset)).state ≠ (s.ports.getD n .reset).state) :
    Only [.regs, .host, .store] { s with ports := portsMoved s n f } (setPort s n f) := by
  unfold setPort
  dsimp only
  rw [entry_modAt_self _ hn, if_neg hst]
  split
  · refine .trans (s := setBits _ (0x100200 + 4 * n) 0x100#32) ?_ (only_sendLink _ n)
    exact (keeps_setBits (w₀ := Part.among [.regs, .host, .store]) _ _ _ (Keeps.refl _)).only
  · exact .refl _ _

theorem ports_setPort (hn : n < s.ports.length) (hst : (f (s.ports.getD n .reset)).state ≠ (s.ports.getD n .reset).state) :
    (setPort s n f).ports = portsMoved s n f := ((setPort_moves hn hst).part .links).1

theorem state_setPort (hn : n < s.ports.length) :
    ((setPort s n f).ports.getD n .reset).state = (f (s.ports.getD n .reset)).state := by
  by_cases hst : (f (s.ports.getD n .reset)).state = (s.ports.getD n .reset).state
  · have h : setPort s n f = { s with ports := modAt s.ports n f } := if_pos (by dsimp only; rw [entry_modAt_self _ hn, hst])
    rw [h]
    exact congrArg Port.state (entry_modAt_self _ hn)
  · rw [ports_setPort hn hst, portsMoved, view_getD_map Port.state (f := fun p => { p with spent := 0 }) (fun _ => rfl), entry_modAt_self _ hn]

/-! ### Lanes and training -/

theorem laneFail_narrows {lane : Nat} (hl : bit (s.ports.getD n .reset).laneFailed lane = false) (hu : (s.ports.getD n .reset).state = .up) :
    laneFail s n lane = setPort s n fun p => { p with state := .training, laneFailed := 2 ^ lane } := by
  simp only [laneFail, hl, hu]
  rfl

theorem laneFail_goesDown {lane : Nat} (hl : bit (s.ports.getD n .reset).laneFailed lane = false)
    (h : (s.ports.getD n .reset).state = .up3 ∨ (s.ports.getD n .reset).laneTraining = true) :
    laneFail s n lane = goDown s n (2 ^ lane) := by
  have hup : (s.ports.getD n .reset).state ≠ .up := by
    generalize s.ports.getD n .reset = p at h
    rintro hu
    simp [Port.laneTraining, hu] at h
  simp only [laneFail, hl, hup, h, if_true, if_false, Bool.false_eq_true]

theorem training_of_laneTraining {p : Port} (h : p.laneTraining = true) : p.state = .training := by
  simpa [Port.laneTraining] using (Bool.and_eq_true_iff.1 h).1

theorem laneRetrainDone_pumps (h : (s.ports.getD n .reset).laneTraining = true) :
    laneRetrainDone s n = pumpPackets (setPort s n fun p => { p with state := .up3 }) := if_pos h

theorem portDown_goesDown (h : (s.ports.getD n .reset).carries = true ∨ (s.ports.getD n .reset).laneTraining = true) :
    portDown s n = goDown s n 0 := if_pos (Bool.or_eq_true_iff.2 h)

/-- A firing whose packets went to the partner of a port that goes down: those not acknowledged are to be sent again. -/
def sentAgain (s : State) (n : Nat) (f : Firing) : Firing :=
  if sendsTo s (bits (portCfg s n) 11 0) f then { f with resend := f.resend ++ f.unacked.map (fun o => (o, n)), unacked := [] } else f

/-- The state in which a port has gone down, before the others take its packets. -/
def portLost (s : State) (n lanes : Nat) : State :=
  let s1 := setPort s n fun p => { p with state := .down, laneFailed := p.laneFailed ||| lanes }
  { s1 with firings := s1.firings.map (sentAgain s n) }

theorem only_portLost (s : State) (n lanes : Nat) : Only [.regs, .host, .links, .groups, .store] s (portLost s n lanes) := by
  refine .trans (keeps_setPort (w₀ := Part.among [.regs, .host, .links, .groups, .store]) s n
    (fun p => { p with state := .down, laneFailed := p.laneFailed ||| lanes }) (Keeps.refl s)).only ?_
  unfold portLost
  dsimp only
  generalize setPort s n (fun p => { p with state := .down, laneFailed := p.laneFailed ||| lanes }) = u
  refine ⟨rfl, fun x hx => ?_⟩
  cases x with
  | groups => exact absurd hx (by decide)
  | _ => simp [Part.same]

theorem goDown_pumps (s : State) (n lanes : Nat) : goDown s n lanes = pumpPackets (portLost s n lanes) := rfl

theorem firings_portLost (s : State) (n lanes : Nat) : (portLost s n lanes).firings = s.firings.map (sentAgain s n) := by
  have h : (setPort s n fun p => { p with state := .down, laneFailed := p.laneFailed ||| lanes }).firings = s.firings :=
    ((keeps_setPort (w₀ := Part.among [.regs, .host, .links, .store]) s n _ (Keeps.refl s)).only.part .groups).2.1
  exact congrArg (List.map (sentAgain s n)) h

theorem ports_portLost (hn : n < s.ports.length)
    (h : (s.ports.getD n .reset).carries = true ∨ (s.ports.getD n .reset).laneTraining = true) (lanes : Nat) :
    (portLost s n lanes).ports = portsMoved s n fun p => { p with state := .down, laneFailed := p.laneFailed ||| lanes } := by
  refine ports_setPort hn fun hd => ?_
  have hd : (s.ports.getD n .reset).state = .down := hd.symm
  generalize s.ports.getD n .reset = p at h hd
  simp [Port.carries, Port.laneTraining, hd] at h

theorem startTraining_moves (hn : n < s.ports.length) (h : (s.ports.getD n .reset).state ≠ .training) :
    (startTraining s n).ports = portsMoved s n fun p => { p with state := .training, laneFailed := 0 } :=
  ports_setPort hn fun hd => h hd.symm

theorem portRetrain_starts {v : Word} (hb : bit v.toNat 0 = true) (hen : bit (portCfg s n) 31 = true) (hl : locked s = true)
    (h : (s.ports.getD n .reset).state = .down ∨ (s.ports.getD n .reset).state = .absent ∨ (s.ports.getD n .reset).state = .miswired) :
    portRetrain s n v = startTraining s n := by
  refine if_pos ?_
  generalize s.ports.getD n .reset = p at h
  rcases h with h | h | h <;> simp [hb, hen, hl, h]

theorem peerTraining_starts (hen : bit (portCfg s n) 31 = true) (hl : locked s = true) (h : (s.ports.getD n .reset).state = .absent) :
    peerTraining s n = startTraining s n := if_pos (by rw [hen, hl, h]; rfl)

theorem state_endTraining (hn : n < s.ports.length) (r : PortTrain) : ((endTraining s n r).ports.getD n .reset).state =
    if bit (portCfg s n) 31 then trainedState (portCfg s n) r else .disabled := by
  unfold endTraining portCfg
  dsimp only
  rw [state_setPort hn]
  cases r with
  | noPartner => rfl
  | partner lanes m p =>
    dsimp only
    generalize bit (getReg s (0x100100 + 4 * n)).toNat 31 = en
    cases en <;> rfl

/-! ### Packets that are sent again -/

theorem sendOne_again {fr : Firing} {g : Group} {port : Nat} {h : HeldPacket} {l : List (HeldPacket × Nat)}
    (hr : fr.resend = (h, n) :: l) (hg : activeGroup s fr.slot = some g) : sendOne s fr port =
      putPacket (countResend (setFiring s { fr with resend := l, unacked := fr.unacked ++ [h] }) n) fr g port h := by
  simp only [sendOne, hg, hr]

theorem resend_putPacket (hn : n < s.ports.length) (fr u : Firing) (g : Group) (port : Nat) (h : HeldPacket) :
    ((putPacket (countResend (setFiring s u) n) fr g port h).ports.getD n .reset).resend = sat32 ((s.ports.getD n .reset).resend + 1) := by
  refine (view_getD_modAt Port.resend
    (f := Port.served (if fr.isClass0 (countResend (setFiring s u) n) then none else some fr.slot)) (fun _ => rfl) (modAt s.ports n _) port n .reset).trans ?_
  exact congrArg Port.resend (entry_modAt_self .reset hn)

/-! ### Far-tier ports -/

/-- The loss of a far-tier port changes no far-tier port but that one. -/
theorem farPorts_farPortDown {q : Nat} (h : farUp s q = true) :
    (farPortDown s q).farPorts = modAt s.farPorts q fun x => { x with state := .down } := by
  unfold farPortDown
  rw [if_neg (by simp [h])]
  dsimp only
  generalize hu : { s with farPorts := modAt s.farPorts q fun x => { x with state := .down } } = u
  have hf : modAt s.farPorts q (fun x => { x with state := .down }) = u.farPorts := hu ▸ rfl
  have hlost : Only [.regs, .host, .pages, .moves, .store] u
      (settleMigrations ((losePages (sendMsg (logFault u { type := 8, code := 2 }) 0x0051 [(16, 1, 2), (17, 1, q), (18, 1, 3)]) q).migrations.foldl
        (fun s m => rerouteDown s q m) (losePages (sendMsg (logFault u { type := 8, code := 2 }) 0x0051 [(16, 1, 2), (17, 1, q), (18, 1, 3)]) q))) :=
    (keeps_settleMigrations (w₀ := Part.among [.regs, .host, .pages, .moves, .store]) _ (Keeps.foldl (keeps_losePages _ _
      (keeps_sendMsg _ _ _ (keeps_logFault _ _ (Keeps.refl u)))) fun m a h => keeps_rerouteDown a q m h)).only
  generalize settleMigrations _ = w at *
  rw [hf, ← (hlost.part .links).2]
  exact ((Keeps.foldl (Keeps.refl _) fun x a h => keeps_faultHolder (w₀ := Part.among
    [.regs, .host, .dies, .moves, .ctxs, .groups, .codecs, .modes, .acct, .store]) a x h).only.part .links).2

theorem mem_farPortDown (s : State) (q : Nat) : (farPortDown s q).mem = s.mem :=
  ((keeps_farPortDown (w₀ := Part.among [.regs, .host, .dies, .pages, .moves, .ctxs, .links, .groups, .codecs, .modes, .acct, .store])
    s q (Keeps.refl s)).only.part .mem).1

end links

/-- Settles O58: each event by the change of its port's state, a resent packet by the view of the port's count. -/
theorem linkEventsComplete : Obligations.LinkEventsComplete := by
  unfold Obligations.LinkEventsComplete
  intro s n hn18 hlen p moved
  have hn : n < s.ports.length := hlen ▸ hn18
  have hwf : decide (n < 18) = true := decide_eq_true hn18
  refine ⟨fun hc => ?_, fun lane hlane hl => ⟨fun hu => ?_, fun h => ?_⟩, fun h => ⟨?_, ?_⟩,
    fun h => ⟨?_, fun lanes => ⟨portLost s n lanes, goDown_pumps s n lanes, ports_portLost hn h lanes, firings_portLost s n lanes,
      only_portLost s n lanes⟩⟩, fun f g port h l hr hg => ?_, fun hen hl => ⟨fun v hb hst => ?_, fun hst => ?_⟩,
    fun r hw hst hlf hl => ⟨?_, state_endTraining hn r⟩, fun q hq hfar hup => ?_⟩
  · have h : flitReplay s n = { s with ports := modAt s.ports n fun p => { p with replay := sat32 (p.replay + 1) } } := if_pos hc
    refine ⟨_, (exec_flitReplay_next hwf).trans (congrArg _ h), rfl, ?_⟩
    rw [← h]
    exact (keeps_flitReplay (w₀ := Part.among [.links]) s n (Keeps.refl s)).only
  · refine ⟨_, exec_laneFail_next (by simp [Instr.wf, hn18, hlane]), ?_⟩
    rw [laneFail_narrows hl hu]
    exact ports_setPort hn fun hd => by rw [hu] at hd; cases hd
  · rw [exec_laneFail_next (by simp [Instr.wf, hn18, hlane]), laneFail_goesDown hl h]
  · rw [exec_laneRetrainDone_next hwf, laneRetrainDone_pumps h]
  · exact ports_setPort hn fun hd => by rw [training_of_laneTraining h] at hd; cases hd
  · rw [exec_portDown_next hwf, portDown_goesDown h]
  · rw [sendOne_again hr hg]
    exact ⟨resend_putPacket hn f _ g port h, rfl⟩
  · refine ⟨_, (exec_vlPortRetrain_next hwf).trans (congrArg _ (portRetrain_starts hb hen hl hst)), startTraining_moves hn ?_⟩
    rcases hst with h | h | h <;> exact h ▸ nofun
  · refine ⟨_, (exec_peerTraining_next hwf).trans (congrArg _ (peerTraining_starts hen hl hst)), startTraining_moves hn ?_⟩
    exact hst ▸ nofun
  · rw [exec_portRetrainDone_next hw]
    exact congrArg _ (if_pos ⟨hst, hlf, hl⟩)
  · exact ⟨_, exec_farPortDown_next (decide_eq_true hq), exec_cxlRequestTimeout_next (decide_eq_true hq), farPorts_farPortDown hup,
      mem_farPortDown s q⟩

end Sys2Proof.Machine
end

section
/-! Firings: what waits while the ports idle, and each step of a firing from its entry to its record. -/

namespace Sys2Proof.Machine

section firings

variable {s : State}

/-! ### What comes over a port -/

theorem hubRuns_of_linksRun (h : linksRun s = true) : hubRuns s = true := by
  obtain ⟨hb, hp⟩ := Bool.and_eq_true_iff.1 h
  simp [hubRuns, hb, hp]

theorem linkEvent_runs (i : Instr) (f : State → State) (h : linksRun s = true) : linkEvent i f s = f s :=
  if_pos (hubRuns_of_linksRun h)

theorem linkEvent_waits (i : Instr) (f : State → State) (h : portsIdle s = true) :
    linkEvent i f s = { s with paused := s.paused ++ [i] } := by
  have hn : hubRuns s = false := by
    obtain ⟨hp, hb⟩ := Bool.and_eq_true_iff.1 h
    rcases Bool.or_eq_true_iff.1 hb with hb | hb <;> simp [hubRuns, hp, eq_of_beq hb]
  rw [linkEvent, if_neg (by simp [hn]), if_pos h]

/-! ### Groups and firings that are found -/

theorem activeGroup_of_findGroup {tag gen i : Nat} {g : Group} (h : findGroup s tag gen = some (i, g)) : activeGroup s i = some g := by
  obtain ⟨j, -, hj⟩ := List.exists_of_findSome?_eq_some h
  cases hg : activeGroup s j with
  | none => rw [hg] at hj; cases hj
  | some x =>
    rw [hg] at hj
    dsimp only at hj
    split at hj
    · obtain ⟨rfl, rfl⟩ : j = i ∧ x = g := by simpa using hj
      exact hg
    · cases hj

/-- A change of a group that keeps it ACTIVE. -/
theorem activeGroup_modGroup {i : Nat} {g : Group} {f : Group → Group} (h : activeGroup s i = some g) (hf : (f g).stale = g.stale) :
    activeGroup (modGroup s i f) i = some (f g) := by
  obtain ⟨hg, hst⟩ := Option.filter_eq_some_iff.1 h
  have hi : i < s.groups.length := by
    refine Nat.lt_of_not_le fun hn => ?_
    rw [getD_of_length_le _ hn] at hg
    cases hg
  have hm : (modGroup s i f).groups.getD i none = some (f g) := by
    refine (entry_modAt_self none hi).trans ?_
    rw [hg]
    rfl
  rw [activeGroup, hm]
  exact Option.filter_eq_some_iff.2 ⟨rfl, by rw [hf]; exact hst⟩

theorem only_modGroup (s : State) (i : Nat) (f : Group → Group) : Only [.groups] s (modGroup s i f) :=
  (keeps_modGroup (w₀ := Part.among [.groups]) s i f (Keeps.refl s)).only

/-! ### An entry fires -/

theorem trellisFire_enters {asn entry to_ from_ : Nat} {c : Ctx} {a : Armed} {g : Group} (hrun : linksRun s = true)
    (hc : ctxOf s asn = some c) (ha : (c.armed.find? fun a => entryReady s c a) = some a) (he : a.entry = entry)
    (hg : activeGroup s (entryOf a.bytes).group = some g)
    (hranks : fireRanks (setArmed (readPerm s c (entryOf a.bytes) g) asn a.fired) c (entryOf a.bytes) g = .ok (to_, from_))
    (herr : startError (setArmed (readPerm s c (entryOf a.bytes) g) asn a.fired) (newFiring c a to_ from_) = none)
    (hnew : findFiring (setArmed (readPerm s c (entryOf a.bytes) g) asn a.fired) (newFiring c a to_ from_).slot
      (newFiring c a to_ from_).seq = none) :
    trellisFire s asn entry =
      enterFiring (setArmed (readPerm s c (entryOf a.bytes) g) asn a.fired) g (newFiring c a to_ from_) := by
  unfold trellisFire
  simp only [hc, ha, hg]
  rw [if_neg (by simp [he, hrun])]
  simp only [hranks, herr, hnew, Option.isSome_none, Bool.false_eq_true, if_false]

/-! ### Clears-to-send -/

section cts

variable {x : Cts} {r i : Nat} {g : Group} (hg : findGroup s x.tag x.gen = some (i, g))

include hg

theorem ctsArrival_meets {f : Firing} (hf : findFiring s i x.seq = some f) (hr : f.toRank = r) (hc : f.cleared = false)
    (hb : x.bytes = f.bytes) (ha : x.addFmt = f.addFmt) :
    ctsArrival x r s = pumpPackets (setFiring s { f with cleared := true }) := by
  simp [ctsArrival, hg, hf, hr, hc, meetCts, ctsMismatch, hb, ha]

theorem ctsArrival_held (hf : findFiring s i x.seq = none) (hl : g.cts.length < 64) :
    ctsArrival x r s = modGroup s i fun g => { g with
      cts := g.cts ++ [{ seq := x.seq, bytes := x.bytes, addFmt := x.addFmt, fromRank := r }] } := by
  simp only [ctsArrival, hg, hf]
  rw [if_neg (Nat.not_le.2 hl)]

theorem ctsArrival_refused (hf : findFiring s i x.seq = none) (hl : 64 ≤ g.cts.length) :
    ctsArrival x r s = { s with out := s.out ++ [.ctsRefused g.tag g.gen x.seq r] } := by
  simp only [ctsArrival, hg, hf]
  rw [if_pos hl]

theorem ctsRetry_arrives (hr : g.rank ≠ r) : ctsRetry x r s = ctsArrival x r s := by
  simp only [ctsRetry, hg]
  rw [if_pos hr]

theorem ctsRetry_own {f : Firing} (hf : findFiring s i x.seq = some f) (hr : g.rank = r) (hn : f.fromRank ≠ g.rank)
    (hb : f.bytes = x.bytes) (ha : f.addFmt = x.addFmt) :
    ctsRetry x r s = { s with out := s.out ++ [.cts g.tag g.gen f.seq f.bytes f.addFmt f.fromRank] } := by
  simp only [ctsRetry, hg, hf]
  rw [if_neg (fun h => h hr), if_pos ⟨hn, hb, ha⟩]

end cts

/-! ### Packets -/

/-- A packet has at least one line. -/
theorem lines_pos_of_fits {f : Firing} {p : Packet} (h : f.fits p = true) : p.data.length / 64 ≠ 0 := by
  simp only [Firing.fits, Bool.and_eq_true, beq_iff_eq, bne_iff_ne, decide_eq_true_eq] at h
  omega

section packets

variable {p : Packet} {i : Nat} {g : Group} {f : Firing} (hg : findGroup s p.tag p.gen = some (i, g))

include hg

theorem packetArrival_over {r : Nat} {rs : List (Nat × Nat)} (hf : findFiring s i p.seq = none)
    (ho : (g.overLanded.find? fun o => o.1 == p.seq) = some (p.seq, r, rs))
    (hl : p.offset + p.data.length ≤ coverFrom rs rs.length p.offset) :
    packetArrival p s = { s with out := s.out ++ [.ack g.tag g.gen p.seq p.offset r] } := by
  simp only [packetArrival, hg, hf, landedBefore, ho]
  rw [if_pos hl]

variable (hf : findFiring s i p.seq = some f) (hfit : f.fits p = true) (hn : f.fromRank ≠ g.rank)

include hf hfit hn

theorem packetArrival_lands {t : State} (hl : (if (f.fresh p).length = p.data.length / 64 then
      landPacket s f p.offset p.data p.poisoned else landLines s f p (f.fresh p)) = .ok t) :
    packetArrival p s = ackOut t g f p.offset := by
  simp only [packetArrival, hg, hf, hl]
  exact if_neg (by simp [hfit, hn])

theorem packetArrival_whole {t : State} (hw : (f.fresh p).length = p.data.length / 64)
    (hl : landPacket s f p.offset p.data p.poisoned = .ok t) : packetArrival p s = ackOut t g f p.offset := by
  exact packetArrival_lands hg hf hfit hn (by rw [if_pos hw, hl])

theorem packetArrival_part {t : State} (hw : (f.fresh p).length ≠ p.data.length / 64)
    (hl : landLines s f p (f.fresh p) = .ok t) : packetArrival p s = ackOut t g f p.offset := by
  exact packetArrival_lands hg hf hfit hn (by rw [if_neg hw, hl])

theorem packetArrival_again (hw : f.fresh p = []) : packetArrival p s = ackOut s g f p.offset :=
  packetArrival_part hg hf hfit hn (by rw [hw]; exact (lines_pos_of_fits hfit).symm) (by rw [hw]; rfl)

end packets

theorem packetAck_frees {tag gen seq i : Nat} (off : Nat) {g : Group} {f : Firing} (hg : findGroup s tag gen = some (i, g))
    (hf : findFiring s i seq = some f) : packetAck tag gen seq off s = pumpPackets (setFiring s
      { f with unacked := f.unacked.filter fun p => p.off != off, resend := f.resend.filter fun r => r.1.off != off }) := by
  simp only [packetAck, hg, hf]

/-! ### The end of a firing -/

section ends

variable {asn entry : Nat} {f : Firing}

/-- The state in which the record, flags, semaphore and chain counter of a firing that is done have been written. -/
def firingDone (s : State) (asn : Nat) (f : Firing) : State :=
  let s1 := orFlags (writeRecord s f 0) asn f.flags
  let s2 := match f.doneSem with
    | some i => addSem s1 asn i 1
    | none => s1
  match f.chain with
  | some i => addCounter s2 asn i 1
  | none => s2

theorem firingComplete_stops (hrun : linksRun s = true) (hf : (s.firings.find? fun f => f.asn == asn && f.entry == entry) = some f)
    (hd : f.done = true) {e : VErr} (he : recordError s f = some e) : firingComplete s asn entry = stopFiring s f e.fire none := by
  simp only [firingComplete, hf, he]
  exact if_neg (by simp [hd, hubRuns_of_linksRun hrun])

theorem firingComplete_ends (hrun : linksRun s = true) (hf : (s.firings.find? fun f => f.asn == asn && f.entry == entry) = some f)
    (hd : f.done = true) (he : recordError s f = none) :
    firingComplete s asn entry = pumpPackets (dropFiring (firingDone s asn f) f) := by
  simp only [firingComplete, hf, he]
  exact if_neg (by simp [hd, hubRuns_of_linksRun hrun])

/-- A firing that is dropped is no longer in progress. -/
theorem not_mem_dropFiring (hf : f.asn = asn ∧ f.entry = entry) (u : State) :
    ∀ x ∈ (dropFiring u f).firings, ¬(x.asn = asn ∧ x.entry = entry) := by
  rintro x hx ⟨ha, he⟩
  obtain ⟨-, h⟩ := List.mem_filter.1 hx
  simp [ha, he, hf.1, hf.2] at h

theorem abortArrival_stops {tag gen seq i : Nat} (reason : Nat) {g : Group} (hg : findGroup s tag gen = some (i, g))
    (hf : findFiring s i seq = some f) : abortArrival tag gen seq reason s = stopFiring s f (abortStatus reason) none := by
  simp only [abortArrival, hg, hf]

theorem abortArrival_held {tag gen seq i : Nat} (reason : Nat) {g : Group} (hg : findGroup s tag gen = some (i, g))
    (hf : findFiring s i seq = none) (ho : seq ∉ g.overSeqs) : abortArrival tag gen seq reason s =
      modGroup s i fun g => { g with aborts := g.aborts ++ [(seq, reason)] } := by
  simp only [abortArrival, hg, hf]
  rw [if_neg (by simpa using ho)]

theorem groupWait_reports {r : Nat} {g : Group} (hf : (s.firings.find? fun f => f.asn == asn && f.entry == entry) = some f)
    (hg : activeGroup s f.slot = some g) (hw : f.waitsFor g.rank = some r) (h0 : g.wdMs ≠ 0)
    (hns : (f.reports + 1) * g.wdMs * 1000000 ≤ f.waitNs) :
    (groupWait s asn entry).firings = (setFiring s { f with reports := f.reports + 1 }).firings := by
  have h : ∃ e fs, groupWait s asn entry = sendMsg (logFault (setFiring s { f with reports := f.reports + 1 }) e) 0x0051 fs := by
    refine ⟨{ type := 8, code := 3, asn := asn },
      [(16, 1, 3), (17, 1, f.slot), (20, 2, g.tag), (22, 2, r), (24, 4, f.seq), (32, 8, f.waitNs)], ?_⟩
    simp only [groupWait, hf, hg, hw]
    exact if_neg (by omega)
  obtain ⟨e, fs, h⟩ := h
  rw [h, ((only_sendMsg _ _ _).part .groups).2.1]
  exact ((keeps_logFault (w₀ := Part.among [.store]) _ e (Keeps.refl _)).only.part .groups).2.1

end ends

end firings

/-- Settles O59: what waits by the state of the ports, each step of a firing by what its event finds. -/
theorem firingsComplete : Obligations.FiringsComplete := by
  unfold Obligations.FiringsComplete
  refine ⟨fun s hidle => ⟨fun x r => ⟨fun hw => ?_, fun hw => ?_⟩, fun p hw => ?_, fun tag gen seq n => ⟨fun hw => ?_, fun hw => ?_⟩⟩,
    fun s hrun => ⟨fun asn entry c a g to_ from_ hw hc ha he hg hranks herr hnew => ⟨?_, rfl, rfl⟩,
      fun x r i g hw hg => ⟨fun f hf hr hcl hb hadd => ⟨?_, fun hrank => ?_⟩, fun hf hl => ?_, fun hf hl => ?_, fun f hf hr hn hb hadd => ?_⟩,
      fun p i g f hw hg hf hfit hn => ⟨fun hfresh => ?_, fun t hwhole hl => ?_, fun t hwhole hl => ?_⟩,
      fun p i r g rs hw hg hf ho hl => ?_, fun tag gen seq off i g f hw hg hf => ?_, fun asn entry f hw hf hd => ⟨fun e he => ?_, fun he => ⟨?_, ?_⟩⟩,
      fun tag gen seq reason i g hw hg => ⟨fun f hf => ?_, fun hf ho => ?_⟩, fun asn entry r f g hw hf hg hwait h0 hns => ?_⟩⟩
  · rw [exec_ctsArrival_next hw, linkEvent_waits _ _ hidle]
  · rw [exec_ctsRetry_next hw, linkEvent_waits _ _ hidle]
  · rw [exec_packetArrival_next hw, linkEvent_waits _ _ hidle]
  · rw [exec_packetAck_next hw, linkEvent_waits _ _ hidle]
  · rw [exec_abortArrival_next hw, linkEvent_waits _ _ hidle]
  · rw [exec_trellisFire_next hw, trellisFire_enters hrun hc ha he hg hranks herr hnew]
  · rw [exec_ctsArrival_next hw, linkEvent_runs _ _ hrun, ctsArrival_meets hg hf hr hcl hb hadd]
  · rw [exec_ctsRetry_next hw, linkEvent_runs _ _ hrun, ctsRetry_arrives hg hrank, ctsArrival_meets hg hf hr hcl hb hadd]
  · refine ⟨_, ?_, fun hrank => ?_, activeGroup_modGroup (f := fun g => { g with
        cts := g.cts ++ [{ seq := x.seq, bytes := x.bytes, addFmt := x.addFmt, fromRank := r }] })
      (activeGroup_of_findGroup hg) rfl, only_modGroup s i _⟩
    · rw [exec_ctsArrival_next hw, linkEvent_runs _ _ hrun, ctsArrival_held hg hf hl]
    · rw [exec_ctsRetry_next hw, linkEvent_runs _ _ hrun, ctsRetry_arrives hg hrank, ctsArrival_held hg hf hl]
  · rw [exec_ctsArrival_next hw, linkEvent_runs _ _ hrun, ctsArrival_refused hg hf hl]
  · rw [exec_ctsRetry_next hw, linkEvent_runs _ _ hrun, ctsRetry_own hg hf hr hn hb hadd]
  · rw [exec_packetArrival_next hw, linkEvent_runs _ _ hrun, packetArrival_again hg hf hfit hn hfresh]
  · rw [exec_packetArrival_next hw, linkEvent_runs _ _ hrun, packetArrival_whole hg hf hfit hn hwhole hl]
  · rw [exec_packetArrival_next hw, linkEvent_runs _ _ hrun, packetArrival_part hg hf hfit hn hwhole hl]
  · rw [exec_packetArrival_next hw, linkEvent_runs _ _ hrun, packetArrival_over hg hf ho hl]
  · rw [exec_packetAck_next hw, linkEvent_runs _ _ hrun, packetAck_frees off hg hf]
  · rw [exec_firingComplete_next hw, firingComplete_stops hrun hf hd he]
  · exact (exec_firingComplete_next hw).trans (congrArg _ (firingComplete_ends hrun hf hd he))
  · exact not_mem_dropFiring (by simpa using List.find?_some hf) _
  · rw [exec_abortArrival_next hw, linkEvent_runs _ _ hrun, abortArrival_stops reason hg hf]
  · rw [exec_abortArrival_next hw, linkEvent_runs _ _ hrun, abortArrival_held reason hg hf ho]
  · exact ⟨_, exec_groupWait_next hw, groupWait_reports hf hg hwait h0 hns,
      (keeps_groupWait (w₀ := Part.among [.regs, .host, .groups, .store]) s asn entry (Keeps.refl s)).only⟩

end Sys2Proof.Machine
end

section
/-! The version keeper and the codec units: what an action of the keeper leaves of its set, what of a unit the handling of a stream
leaves as it was, and each event of a stream. -/

namespace Sys2Proof.Machine

/-! ### The keeper -/

section keeper

variable {s t : State} {asn n : Nat} {v w : VersionSet}

theorem setOf_of_sameBy (h : SameBy (·.sets) s t) (asn n : Nat) : setOf t asn n = setOf s asn n := by
  have hv : ∀ u : State, setOf u asn n = ((ctxOf u asn).map (·.sets)).bind fun l => l.find? fun v => v.set == n := fun u => by
    rw [setOf]
    cases ctxOf u asn <;> rfl
  rw [hv, hv, h.view asn]

theorem set_of_setOf (h : setOf s asn n = some v) : v.set = n := by
  obtain ⟨c, -, hf⟩ := Option.bind_eq_some_iff.1 h
  simpa using List.find?_some hf

theorem setOf_putSet {c : Ctx} (hc : ctxOf s asn = some c) (w : VersionSet) : setOf (putSet s asn w) asn w.set = some w := by
  have h : ctxOf (putSet s asn w) asn = some { c with sets := (c.sets.filter fun x => x.set != w.set) ++ [w] } :=
    ctxOf_modCtx_some hc
  have hf : (c.sets.filter fun x => x.set != w.set).find? (fun x => x.set == w.set) = none :=
    List.find?_eq_none.2 fun x hx => by simpa using (List.mem_filter.1 hx).2
  rw [setOf, h, Option.bind_some, List.find?_append, hf]
  simp

theorem sameBy_takeSem {β : Type} {v : Ctx → β} (s : State) (asn i n : Nat)
    (hv : ∀ (c : Ctx) l, v { c with sems := l } = v c := by exact fun _ _ => rfl) : SameBy v s (takeSem s asn i n) := by
  unfold takeSem
  split
  · exact .refl s
  · split
    · exact .refl s
    · exact sameBy_modCtx _ _ (hv := fun _ => hv ..)

theorem only_hubWrite (s : State) (asn va : Nat) (b : Bytes) :
    Only [.regs, .dies, .pages, .moves, .mem, .traffic] s (hubWrite s asn va b) :=
  (keeps_hubWrite (w₀ := Part.among [.regs, .dies, .pages, .moves, .mem, .traffic]) s asn va b (Keeps.refl s)).only

/-- An action of the keeper puts the set it makes. -/
theorem setOf_keeperAct {c : Ctx} (hc : ctxOf s asn = some c) (v w : VersionSet) (role version : Nat) (sig : Option Nat) :
    setOf (keeperAct s asn v w role version sig) asn w.set = some w := by
  have hview := (sameBy_takeSem (v := fun c => c.asn) s asn (v.sem role) 1).view asn
  obtain ⟨c1, hc1⟩ : ∃ c1, ctxOf (takeSem s asn (v.sem role) 1) asn = some c1 := by
    rw [hc] at hview
    obtain ⟨c1, h, -⟩ := Option.map_eq_some_iff.1 hview
    exact ⟨c1, h⟩
  have hrec : setOf (rewriteRecord (putSet (takeSem s asn (v.sem role) 1) asn w) asn w version) asn w.set = some w := by
    rw [rewriteRecord, setOf_of_sameBy (.of_ctxs ((only_hubWrite _ _ _ _).part .ctxs).1), setOf_putSet hc1]
  unfold keeperAct
  cases sig with
  | none => exact hrec
  | some r => exact (setOf_of_sameBy (sameBy_addSem ..) asn w.set).trans hrec

theorem keeper_acts {may : VersionSet → Bool} {act : VersionSet → State} (hv : setOf s asn n = some v) (hr : hubRuns s = true)
    (hm : may v = true) : keeper s asn n may act = act v := by
  simp only [keeper, hv, hr, hm, Bool.and_self, if_true]

theorem set_retire (v : VersionSet) : v.retire.set = v.set := by
  unfold VersionSet.retire
  split <;> rfl

theorem set_publish (v : VersionSet) (version : Nat) : (v.publish version).set = v.set := by
  unfold VersionSet.publish
  split <;> rfl

/-- What an action leaves, by the set number the context knows it under. -/
theorem setOf_acted (hv : setOf s asn n = some v) (hw : w.set = v.set) (role version : Nat) (sig : Option Nat) :
    setOf (keeperAct s asn v w role version sig) asn n = some w := by
  obtain ⟨c, hc, -⟩ := Option.bind_eq_some_iff.1 hv
  rw [← set_of_setOf hv, ← hw]
  exact setOf_keeperAct hc v w role version sig

end keeper

/-! ### Streams -/

section streams

variable {s t : State} {id : Nat}

/-- A stream slot that the module has. -/
structure HasSlot (s : State) (id : Nat) : Prop where
  codec : id / 32 < s.codecs.length
  slot : id % 32 < (getCodec s (id / 32)).streams.length

theorem getCodec_congr (h : t.codecs = s.codecs) (u : Nat) : getCodec t u = getCodec s u := by rw [getCodec, getCodec, h]

theorem getStream_congr (h : t.codecs = s.codecs) (id : Nat) : getStream t id = getStream s id := by
  rw [getStream, getStream, getCodec_congr h]

theorem HasSlot.of_codecs (h : HasSlot s id) (ht : t.codecs = s.codecs) : HasSlot t id :=
  ⟨ht ▸ h.codec, getCodec_congr ht (id / 32) ▸ h.slot⟩

theorem hasSlot_of_lt (hid : id < 128) (hlen : s.codecs.length = 4) (hst : ∀ u ∈ s.codecs, u.streams.length = 32) : HasSlot s id := by
  have h : id / 32 < s.codecs.length := by omega
  refine ⟨h, ?_⟩
  rw [getCodec, getD_of_lt _ h, hst _ (List.getElem_mem h)]
  exact Nat.mod_lt _ (by decide)

theorem getCodec_modCodec_self {u : Nat} {f : Codec → Codec} (h : u < s.codecs.length) : getCodec (modCodec s u f) u = f (getCodec s u) :=
  entry_modAt_self _ h

theorem getStream_putStream (h : HasSlot s id) (t : Option Stream) : getStream (putStream s id t) id = t := by
  rw [getStream, putStream, getCodec_modCodec_self h.codec]
  exact entry_modAt_self _ h.slot

theorem only_putStream (s : State) (id : Nat) (t : Option Stream) : Only [.codecs] s (putStream s id t) :=
  (keeps_putStream (w₀ := Part.among [.codecs]) s id t (Keeps.refl s)).only

theorem only_takeSem (s : State) (asn i n : Nat) : Only [.ctxs] s (takeSem s asn i n) :=
  (keeps_takeSem (w₀ := Part.among [.ctxs]) s asn i n (Keeps.refl s)).only

theorem only_addSem (s : State) (asn i n : Nat) : Only [.ctxs] s (addSem s asn i n) :=
  (keeps_addSem (w₀ := Part.among [.ctxs]) s asn i n (Keeps.refl s)).only

theorem only_agentReads (s : State) (asn va n : Nat) : Only [.dies, .mem, .traffic] s (agentReads s asn va n) :=
  (keeps_agentReads (w₀ := Part.among [.dies, .mem, .traffic]) s asn va n (Keeps.refl s)).only

section events

variable {x : Stream} (hx : getStream s id = some x)

include hx

/-- A fed stream takes up the next entry it was fed. -/
theorem submitConsume_fed {e : FedEntry} {l : List FedEntry} (ho : x.state = .opened) (hr : hubRuns s = true) (he : x.ending = false)
    (hc : x.closing = []) (hf : parFed x.par = true) (hl : x.fed = e :: l) :
    submitConsume s id = putStream s id (some { x with fed := l, inCount := x.inCount + 1, ready := x.ready ++
      [{ index := x.inCount, entry := e.entry, hdr := some e.hdr, poisoned := false, unread := false }] }) := by
  simp only [submitConsume, hx, hl, hf, if_true]
  exact if_neg (by simp [ho, hr, he, hc])

theorem submitConsume_ring (ho : x.state = .opened) (hr : hubRuns s = true) (he : x.ending = false) (hc : x.closing = [])
    (hf : parFed x.par = false) (hs : semCount s x.asn x.semBase ≠ 0) :
    submitConsume s id =
      let r := agentReads s x.asn (parRingVA x.par + 64 * (x.inCount % parRing x.par)) 64
      let s1 := takeSem r x.asn x.semBase 1
      putStream { s1 with free := s1.free + 16 } id (some { x with inCount := x.inCount + 1, ready := x.ready ++ [readEntry r x] }) := by
  simp only [submitConsume, hx, hf, hs, if_false, Bool.false_eq_true]
  exact if_neg (by simp [ho, hr, he, hc])

theorem releaseConsume_counts (ho : x.state = .opened) (hr : hubRuns s = true) (hf : parFed x.par = false)
    (hc : x.released < x.outCount) (hs : semCount s x.asn (x.semBase + 3) ≠ 0) :
    releaseConsume s id = drainStream (putStream (takeSem s x.asn (x.semBase + 3) 1) id (some (x.release 1))) id := by
  simp only [releaseConsume, hx]
  exact if_neg (by simp [ho, hr, hf, hs, Nat.not_le.2 hc])

theorem pacedRecord_emits {r : Bytes} {due : Nat} {l : List (Bytes × Nat)} (ho : x.state = .opened) (hr : hubRuns s = true)
    (hp : x.paced = (r, due) :: l) (hd : due ≤ (getCodec s (id / 32)).clock) :
    pacedRecord s id = emitRecord s id { x with paced := l } r := by
  simp only [pacedRecord, hx, hp]
  exact if_pos (by simp [ho, hr, hd])

end events

/-- The stream that is put once its entry has been read from its ring. -/
theorem getStream_taken {r : State} (h : HasSlot s id) (hr : r.codecs = s.codecs) (asn i n free : Nat) (x : Option Stream) :
    getStream (putStream { takeSem r asn i n with free := free } id x) id = x :=
  getStream_putStream (s := { takeSem r asn i n with free := free })
    (h.of_codecs (((only_takeSem r asn i n).part .codecs).trans hr)) x

/-- What a record that is written leaves of its stream. -/
theorem getStream_emitRecord (h : HasSlot s id) (x : Stream) (r : Bytes) : ∃ w, getStream (emitRecord s id x r) id = some w ∧
    w.outCount = x.outCount + 1 ∧ w.paced = x.paced := by
  have hw := (only_hubWrite s x.asn (parRingVA x.par + 64 * parRing x.par + 64 * (x.outCount % parRing x.par))
    (putField r 0 4 x.outCount)).part .codecs
  refine ⟨_, (getStream_congr ((only_addSem _ _ _ _).part .codecs) id).trans (getStream_putStream (h.of_codecs hw) _), rfl, rfl⟩

end streams

/-! ### A unit while one of its streams is handled -/

/-- Every unit serves what it served, and its engines have the work they had. -/
structure UnitsSame (s t : State) : Prop where
  current : ∀ u, (getCodec t u).current = (getCodec s u).current
  work : ∀ u, (getCodec t u).work = (getCodec s u).work

section units

variable {r s t : State}

theorem UnitsSame.refl (s : State) : UnitsSame s s := ⟨fun _ => rfl, fun _ => rfl⟩

theorem UnitsSame.trans (h : UnitsSame r s) (k : UnitsSame s t) : UnitsSame r t :=
  ⟨fun u => (k.current u).trans (h.current u), fun u => (k.work u).trans (h.work u)⟩

theorem UnitsSame.of_codecs (h : t.codecs = s.codecs) : UnitsSame s t :=
  ⟨fun u => by rw [getCodec_congr h], fun u => by rw [getCodec_congr h]⟩

theorem UnitsSame.of_only {l : List Part} (h : Only l s t) (hl : Part.codecs ∉ l := by decide) : UnitsSame s t :=
  .of_codecs (h.part .codecs hl)

theorem UnitsSame.foldl {α : Type} {f : State → α → State} (hf : ∀ s a, UnitsSame s (f s a)) (l : List α) (s : State) :
    UnitsSame s (l.foldl f s) := by
  induction l generalizing s with
  | nil => exact .refl s
  | cons a l ih => exact (hf s a).trans (ih _)

/-- A fold over the state and the stream that is handled. -/
theorem UnitsSame.foldl_fst {α β : Type} {f : State × β → α → State × β} (hf : ∀ x a, UnitsSame x.1 (f x a).1) (l : List α)
    (x : State × β) : UnitsSame x.1 (l.foldl f x).1 := by
  induction l generalizing x with
  | nil => exact .refl _
  | cons a l ih => exact (hf x a).trans (ih _)

theorem unitsSame_putStream (s : State) (id : Nat) (t : Option Stream) : UnitsSame s (putStream s id t) :=
  ⟨fun u => view_getD_modAt Codec.current (f := fun u => { u with streams := modAt u.streams (id % 32) fun _ => t }) (fun _ => rfl) s.codecs (id / 32) u .reset,
   fun u => view_getD_modAt Codec.work (f := fun u => { u with streams := modAt u.streams (id % 32) fun _ => t }) (fun _ => rfl) s.codecs (id / 32) u .reset⟩

theorem unitsSame_hubWrite (s : State) (asn va : Nat) (b : Bytes) : UnitsSame s (hubWrite s asn va b) := .of_only (only_hubWrite ..)

theorem unitsSame_agentReads (s : State) (asn va n : Nat) : UnitsSame s (agentReads s asn va n) := .of_only (only_agentReads ..)

theorem unitsSame_addSem (s : State) (asn i n : Nat) : UnitsSame s (addSem s asn i n) := .of_only (only_addSem ..)

theorem unitsSame_complete (s : State) (h : CmdHdr) (c : Nat) (st : Status) (b : Bytes) : UnitsSame s (complete s h c st b) :=
  .of_only (only_complete ..)

theorem unitsSame_readBuffers (s : State) (t : Stream) (l : List Nat) : UnitsSame s (readBuffers s t l) :=
  .foldl (fun s _ => unitsSame_agentReads s ..) _ s

theorem unitsSame_writeTensor (s : State) (t : Stream) (slot : Nat) (p : Pic) : UnitsSame s (writeTensor s t slot p) :=
  .foldl (fun s _ => unitsSame_hubWrite s ..) _ s

theorem unitsSame_emitRecord (s : State) (id : Nat) (t : Stream) (r : Bytes) : UnitsSame s (emitRecord s id t r) :=
  ((unitsSame_hubWrite s ..).trans (unitsSame_putStream _ id _)).trans (unitsSame_addSem ..)

theorem unitsSame_paceOrEmit (s : State) (id : Nat) (t : Stream) (r : Bytes) (n : Nat) : UnitsSame s (paceOrEmit s id t r n) := by
  unfold paceOrEmit
  dsimp only
  split
  · split
    · exact unitsSame_emitRecord ..
    · exact unitsSame_putStream ..
  · exact unitsSame_emitRecord ..

theorem unitsSame_writeHead (s : State) (id : Nat) (t : Stream) : UnitsSame s (writeHead s id t) := by
  unfold writeHead
  split
  · exact .refl s
  · dsimp only
    split
    · exact ((unitsSame_readBuffers ..).trans (unitsSame_writeTensor ..)).trans (unitsSame_paceOrEmit ..)
    · split
      · exact unitsSame_paceOrEmit ..
      · exact (unitsSame_hubWrite ..).trans (unitsSame_paceOrEmit ..)

theorem unitsSame_drainOut (n : Nat) (s : State) (id : Nat) : UnitsSame s (drainOut n s id) := by
  induction n generalizing s with
  | zero => exact .refl s
  | succ n ih =>
    unfold drainOut
    split
    · split
      · exact (unitsSame_writeHead s id _).trans (ih _)
      · exact .refl s
    · exact .refl s

theorem unitsSame_entryDone (s : State) (t : Stream) (e : CodedEntry) : UnitsSame s (entryDone s t e) := by
  unfold entryDone
  dsimp only
  split
  · exact (unitsSame_addSem ..).trans (unitsSame_complete ..)
  · exact unitsSame_addSem ..

theorem unitsSame_entryEnds (s : State) (id : Nat) (t : Stream) (e : CodedEntry) : UnitsSame s (entryEnds s id t e) := by
  unfold entryEnds
  split
  · exact (unitsSame_putStream ..).trans (unitsSame_complete ..)
  · exact unitsSame_putStream ..

theorem unitsSame_stored (s : State) (id : Nat) (t u : Stream) (e : CodedEntry) :
    UnitsSame s (entryDone (putStream s id (some t)) u e) := (unitsSame_putStream ..).trans (unitsSame_entryDone ..)

theorem unitsSame_codeFrame (x : State × Stream) (n : Nat) : UnitsSame x.1 (codeFrame x n).1 := by
  obtain ⟨s, t⟩ := x
  unfold codeFrame
  dsimp only
  split
  · exact .refl s
  · split
    · exact unitsSame_readBuffers ..
    · split <;> exact unitsSame_readBuffers ..

theorem unitsSame_encodeEntry (s : State) (id : Nat) (t : Stream) (e : CodedEntry) : UnitsSame s (encodeEntry s id t e) := by
  have hcode (x : State × Stream) (l : List Nat) : UnitsSame x.1 (l.foldl codeFrame x).1 := .foldl_fst unitsSame_codeFrame l x
  unfold encodeEntry
  dsimp only
  split
  · exact unitsSame_entryEnds ..
  · split
    · exact unitsSame_entryEnds ..
    · split
      · exact (hcode (s, _) _).trans (unitsSame_stored ..)
      · split
        · exact unitsSame_entryEnds ..
        · refine .trans (UnitsSame.foldl (fun s r => unitsSame_agentReads s t.asn r.2.2.1 r.2.2.2) (tensorRows t.par (field e.entry 8 8)) s) ?_
          split
          · exact unitsSame_stored ..
          · exact ((unitsSame_hubWrite ..).trans (hcode (fillBuffer _ _ _, _) _)).trans (unitsSame_stored ..)

theorem unitsSame_decodeFrame (u : StreamFeatures) (pts : Nat) (bad : Bool) (x : State × Stream) (f : DecodedFrame) :
    UnitsSame x.1 (decodeFrame u pts bad x f).1 := by
  obtain ⟨s, t⟩ := x
  unfold decodeFrame
  dsimp only
  split
  · exact .refl s
  · split
    · exact .refl s
    · split
      · exact unitsSame_readBuffers ..
      · exact (unitsSame_readBuffers ..).trans (unitsSame_hubWrite ..)

theorem unitsSame_decodeData (s : State) (t : Stream) (pts : Nat) (data : Option Bytes) : UnitsSame s (decodeData s t pts data).1 := by
  unfold decodeData
  dsimp only
  split
  · exact .refl s
  · split
    · exact .refl s
    · exact .foldl_fst (fun x f => unitsSame_decodeFrame _ pts _ x f) _ (s, _)

theorem unitsSame_decodeEntry (s : State) (id : Nat) (t : Stream) (e : CodedEntry) : UnitsSame s (decodeEntry s id t e) := by
  unfold decodeEntry
  dsimp only
  split
  · exact unitsSame_entryEnds ..
  · split
    · exact unitsSame_stored ..
    · split
      · exact unitsSame_entryEnds ..
      · refine .trans (t := entryDone (putStream _ id _) t e) ?_ ((unitsSame_decodeData ..).trans (unitsSame_stored ..))
        split
        · exact .refl s
        · exact unitsSame_agentReads ..

theorem unitsSame_freeStream (s : State) (id : Nat) (t : Stream) : UnitsSame s (freeStream s id t) :=
  ((unitsSame_putStream s id none).trans (.foldl (fun s h => unitsSame_complete s h ..) _ _)).trans
    (.foldl (fun s h => unitsSame_complete s h ..) _ _)

/-- The entry of a stream's frame is taken in. -/
def entryTaken (s : State) (id : Nat) (t : Stream) : State :=
  match t.ready with
  | e :: r =>
    if t.canTake then
      let t1 := { t with ready := r, frames := t.frames + 1 }
      if parDec t.par then decodeEntry s id t1 e else encodeEntry s id t1 e
    else s
  | [] => s

/-- The outputs of a stream are written while there is room, and a stream that is closing is freed. -/
def outputsDrained (s : State) (id : Nat) : State :=
  match getStream s id with
  | none => s
  | some t1 =>
    let s2 := drainOut t1.outbox.length s id
    match getStream s2 id with
    | some t2 => if t2.closing.isEmpty then s2 else freeStream s2 id t2
    | none => s2

/-- What happens at the end of a frame, once its unit is at a frame boundary. -/
def frameEnded (s : State) (id : Nat) : State :=
  match getStream s id with
  | none => s
  | some t =>
    if t.state ≠ .opened ∨ !hubRuns s then (if t.closing.isEmpty then s else freeStream s id t)
    else outputsDrained (entryTaken s id t) id

theorem frameDone_ends {u k : Nat} (h : (getCodec s u).current = some k) :
    frameDone s u = frameEnded (modCodec s u fun c => { c with current := none, work := none }) (32 * u + k) := by
  unfold frameDone
  rw [h]
  rfl

theorem unitsSame_closed (s : State) (id : Nat) (t : Stream) : UnitsSame s (if t.closing.isEmpty then s else freeStream s id t) := by
  split
  · exact .refl s
  · exact unitsSame_freeStream ..

theorem unitsSame_entryTaken (s : State) (id : Nat) (t : Stream) : UnitsSame s (entryTaken s id t) := by
  unfold entryTaken
  split
  · dsimp only
    split
    · split
      · exact unitsSame_decodeEntry ..
      · exact unitsSame_encodeEntry ..
    · exact .refl s
  · exact .refl s

theorem unitsSame_outputsDrained (s : State) (id : Nat) : UnitsSame s (outputsDrained s id) := by
  unfold outputsDrained
  dsimp only
  split
  · exact .refl s
  case h_2 t1 _ =>
    refine (unitsSame_drainOut t1.outbox.length s id).trans ?_
    split
    · exact unitsSame_closed ..
    · exact .refl _

theorem unitsSame_frameEnded (s : State) (id : Nat) : UnitsSame s (frameEnded s id) := by
  unfold frameEnded
  split
  · exact .refl s
  · split
    · exact unitsSame_closed ..
    · exact (unitsSame_entryTaken s id _).trans (unitsSame_outputsDrained ..)

theorem frameDone_boundary {u : Nat} (hu : u < s.codecs.length) (h : (getCodec s u).current ≠ none) :
    (getCodec (frameDone s u) u).current = none ∧ (getCodec (frameDone s u) u).work = none := by
  obtain ⟨k, hk⟩ := Option.ne_none_iff_exists'.1 h
  have hs := unitsSame_frameEnded (modCodec s u fun c => { c with current := none, work := none }) (32 * u + k)
  rw [frameDone_ends hk, hs.current u, hs.work u, getCodec_modCodec_self hu]
  exact ⟨rfl, rfl⟩

theorem streamSwitch_picks {u k : Nat} (hc : (getCodec s u).current = none) (hb : s.hub.boot = .ready) (hp : s.hub.powered = true)
    (hk : pickStream (getCodec s u) = some k) : streamSwitch s u = modCodec s u fun c => { c with
      current := some k
      work := ((c.streams.getD k none).map Stream.work)
      streams := modAt c.streams k fun t => t.map fun t => { t with servedAt := s.hub.timebase } } := by
  simp only [streamSwitch, hk]
  exact if_neg (by simp [hc, hb, hp])

end units

/-- Settles O60: the keeper by what an action puts, the streams slot by slot, the end of a frame by what its handling leaves of the unit. -/
theorem keeperAndCodecsComplete : Obligations.KeeperAndCodecsComplete := by
  unfold Obligations.KeeperAndCodecsComplete
  refine ⟨fun s asn n v hw hv hrun => ⟨fun hr => ?_, fun hr hp => ?_, fun hr hp hc => ?_, fun hr hp hc hpin => ?_⟩,
    fun s id t hid hlen hst ht ho hrun => ?_, fun s u hu hlen => ⟨fun k hc hb hp hk => ?_, fun h => ?_⟩⟩
  · refine ⟨_, exec_keeperRetire_next hw, ?_⟩
    rw [keeperRetire, keeper_acts hv hrun hr]
    exact setOf_acted hv (set_retire v) 1 (setCount s asn v 5) none
  · refine ⟨_, exec_keeperPublish_next hw, ?_⟩
    rw [keeperPublish, keeper_acts hv hrun (by simp [hr, hp])]
    exact setOf_acted (w := v.publish (sat32 (setCount s asn v 5 + 1))) hv (set_publish v _) 4 (sat32 (setCount s asn v 5 + 1)) (some 5)
  · refine ⟨_, exec_keeperClaim_next hw, ?_⟩
    rw [keeperClaim, keeper_acts hv hrun (by simp [hr, hp, hc])]
    exact setOf_acted (w := v.claim) hv rfl 2 (setCount s asn v 5) (some 3)
  · refine ⟨_, exec_keeperPin_next hw, ?_⟩
    rw [keeperPin, keeper_acts hv hrun (by simp [hr, hp, hc, hpin])]
    exact setOf_acted (w := v.pin) hv rfl 0 (setCount s asn v 5) none
  · have hslot := hasSlot_of_lt hid hlen hst
    have hwf : decide (id < 128) = true := decide_eq_true hid
    refine ⟨fun e l he hc hf hl => ?_, fun he hc hf hs => ?_, fun hf hrel hs => ?_, fun r due l hp hd => ?_⟩
    · refine ⟨_, (exec_codecSubmitConsume_next hwf).trans (congrArg _ (submitConsume_fed ht ho hrun he hc hf hl)), only_putStream ..,
        getStream_putStream hslot _⟩
    · intro r
      refine ⟨_, exec_codecSubmitConsume_next hwf, (keeps_submitConsume
        (w₀ := Part.among [.dies, .ctxs, .codecs, .mem, .ids, .traffic]) s id (Keeps.refl s)).only, ?_⟩
      rw [submitConsume_ring ht ho hrun he hc hf hs]
      exact getStream_taken hslot ((only_agentReads s _ _ _).part .codecs) ..
    · refine ⟨_, (exec_codecReleaseConsume_next hwf).trans (congrArg _ (releaseConsume_counts ht ho hrun hf hrel hs)), ?_,
        getStream_putStream (hslot.of_codecs ((only_takeSem _ _ _ _).part .codecs)) _⟩
      exact (only_takeSem ..).mono.trans (only_putStream ..).mono
    · obtain ⟨w, hw, hout, hpaced⟩ := getStream_emitRecord hslot { t with paced := l } r
      exact ⟨_, w, (exec_codecPacedRecord_next hwf).trans (congrArg _ (pacedRecord_emits ht ho hrun hp hd)), hw, hout, hpaced⟩
  · have hlt : u < s.codecs.length := hlen ▸ hu
    have h := streamSwitch_picks hc hb hp hk
    refine ⟨_, (exec_codecStreamSwitch_next (decide_eq_true hu)).trans (congrArg _ h), ?_, ?_, ?_⟩
    · rw [getCodec_modCodec_self hlt]
    · rw [getCodec_modCodec_self hlt]
    · rw [← h]
      exact (keeps_streamSwitch (w₀ := Part.among [.codecs]) s u (Keeps.refl s)).only
  · exact ⟨_, exec_codecFrameDone_next (decide_eq_true hu), frameDone_boundary (hlen ▸ hu) h⟩

end Sys2Proof.Machine
end

section
/-! An instruction in flight that completes, and a DECANT that is accepted or waits. -/

namespace Sys2Proof.Machine

/-! ### Completion -/

section completion

variable {s : State} {asn core : Nat} {errs : Completion}

theorem instructionComplete_ready {c c' : Ctx} {k : Core} {f : Flight} (hc : ctxOf s asn = some c) (hseat : c.seatedNow = true)
    (hc' : ctxOf (goCore asn core s) asn = some c') (hk : coreOf (goCore asn core s) asn core = some k)
    (hf : (k.flight.find? fun f => f.id == errs.id) = some f) (hr : f.ready = true) :
    instructionComplete s asn core errs =
      let s1 := onDieErrors (goCore asn core s) (c'.dieOfCore core) errs
      if errs.uncorrected then dieFault s1 (c'.dieOfCore core) .stateUncorrectable true (some asn) (some core) (some f.index)
      else
        let s2 := goCore asn core (modCore s1 asn core (Core.finish errs.id))
        match f.sem with
        | some i => addSem s2 asn i 1
        | none => s2 := by
  unfold instructionComplete
  simp only [hc, Option.map_some, hseat, hc', hk, Option.bind_some, hf, hr, if_true]
    <;> rfl

theorem ready_of_started {f : Flight} (hs : f.started = true) (hw : f.wait = .none) (hv : f.verdicts = 0)
    (hn : f.want = 0 ∨ 0 < f.entries) : f.ready = true := by
  simp [Flight.ready, hs, hw, hv, hn]

/-- A change that moves a reload's table leaves the instructions that came before it in flight. -/
theorem ids_swapTable (k : Core) (f : Flight) (l : List Flight) : (k.swapTable f l).2.map (·.id) = l.map (·.id) := by
  unfold Core.swapTable
  split
  · simp only [List.map_map]
    rfl
  · rfl

/-- An instruction that completes leaves the list in flight, which keeps its order. -/
theorem ids_finish (id : Nat) (k : Core) : (Core.finish id k).flight.map (·.id) = (k.flight.map (·.id)).erase id := by
  have herase : ∀ l : List Flight, (l.map (·.id)).erase id =
      (l.takeWhile fun g => g.id != id).map (·.id) ++ ((l.dropWhile fun g => g.id != id).drop 1).map (·.id) := by
    intro l
    induction l with
    | nil => rfl
    | cons g l ih =>
      by_cases hg : g.id = id
      · simp [hg]
      · rw [List.map_cons, List.erase_cons_tail (by simpa using hg), ih]
        simp [hg]
  unfold Core.finish
  split
  case h_1 h =>
    rw [List.erase_of_not_mem]
    rintro hm
    obtain ⟨g, hg, rfl⟩ := List.mem_map.1 hm
    simpa using List.find?_eq_none.1 h g hg
  case h_2 =>
    rw [herase]
    simp only [List.map_append, ids_swapTable]

theorem corr_onDieErrors (s : State) {d : Nat} (errs : Completion) (hd : d < s.dies.length) :
    (getDie (onDieErrors s d errs) d).corr = min ((getDie s d).corr + errs.corrected) (2 ^ 32 - 1) := by
  have : getDie (modDie s d fun x => { x with corr := sat32 (x.corr + errs.corrected) }) d = _ := getDie_modDie_self hd
  exact congrArg Die.corr this

theorem only_onDieErrors (s : State) (d : Nat) (errs : Completion) : Only [.dies, .store] s (onDieErrors s d errs) :=
  (keeps_onDieErrors (w₀ := Part.among [.dies, .store]) s d errs (Keeps.refl s)).only

end completion

/-- Settles O19: the two outcomes of an instruction that is ready, and the list in flight by where the instruction stands in it. -/
theorem instructionCompletes : Obligations.InstructionCompletes := by
  unfold Obligations.InstructionCompletes
  intro s asn core errs c c' k f hw hc hseat u hc' hk hf hst hwait hv hwant d v left
  have h := instructionComplete_ready hc hseat hc' hk hf (ready_of_started hst hwait hv hwant)
  have hctx : v.ctxs = u.ctxs := ((only_onDieErrors u d errs).part .ctxs).1
  have hcore (a q : Nat) : coreOf v a q = coreOf u a q := by simp only [coreOf, ctxOf_congr hctx]
  refine ⟨fun hu => ?_, fun hu => ?_, corr_onDieErrors u errs, rfl, rfl, only_onDieErrors u d errs, ?_, ids_finish _ _, fun a q haq => ?_,
    fun a i => ?_, (ctxsOnly_modCore v asn core _).only⟩
  · rw [exec_instructionComplete_next hw, h]
    exact congrArg _ (if_pos hu)
  · rw [exec_instructionComplete_next hw, h]
    exact congrArg _ (if_neg (by simp [hu]))
  · rw [coreOf_modCore_self, hcore, hk, Option.map_some]
  · rw [coreOf_modCore_other haq, hcore]
  · exact ((SameBy.of_ctxs hctx).trans (sameBy_modCore v asn core)).semCount a i

/-! ### DECANT -/

section decant

variable {s : State} {asn core w : Nat} {e : Env} {runs : List CopyRun}

theorem sameBy_fenceWaiters (s : State) (asn sem : Nat) : SameBy Ctx.coreView s (fenceWaiters s asn sem) := by
  unfold fenceWaiters
  split
  · exact .refl s
  · refine SameBy.foldl (fun s x => ?_) _ s
    split
    · split
      · exact sameBy_joinFence ..
      · exact .refl s
    · exact .refl s

theorem ctxsOnly_fenceWaiters (s : State) (asn sem : Nat) : Only [.ctxs] s (fenceWaiters s asn sem) :=
  (keeps_fenceWaiters (w₀ := Part.among [.ctxs]) s asn sem (Keeps.refl s)).only

/-- What a DECANT is issued from: a state in which only the fetch has read, with the core as it stands there. -/
structure DecantEnv (s : State) (asn core : Nat) (e : Env) : Prop where
  reads : Reads s e.s
  ofAsn : e.c.asn = asn
  ofCore : e.core = core
  stands : coreOf s asn core = some e.k

theorem decantEnv_rowEnv (h : rowEnv s asn core = some e) : DecantEnv s asn core e := by
  obtain ⟨hr, hcore, -, hasn, hk, -⟩ := rowEnv_facts h
  exact ⟨hr, hasn, hcore, hk⟩

theorem reads_fetched (e : Env) : Reads e.s e.fetched.s :=
  ((reads_meetVirt ..).trans (reads_eachPiece (fun s p _ => reads_envReads _ s p) _)).trans ⟨_, _, _, _, rfl⟩

theorem decantEnv_fetched {run : CoreRun} (h : envOf s asn core run = some e) : DecantEnv s asn core e.fetched := by
  obtain ⟨hs, hcore, -, hasn, hk, -⟩ := envOf_facts h
  exact ⟨hs ▸ reads_fetched e, hasn, hcore, hk⟩

theorem DecantEnv.few (h : DecantEnv s asn core e) : (e.s.decants.filter fun d => d.asn == e.c.asn) =
    s.decants.filter fun d => d.asn == asn := by
  obtain ⟨-, -, hd, -⟩ := h.reads.only.part .moves
  rw [hd, h.ofAsn]

/-- A DECANT that passes its checks is accepted, or waits behind eight others. -/
theorem decantBody_passes (hsig : sigOf w = true) (hz : zeros w [(127, 56)] = true)
    (hmw : mustWait e.k w { bufs := decantBufs e w, reads := sels [bits w 51 48, bits w 55 52], writes := [] } = false)
    (hr : (if subOf w = 0 then decantVirtual e w else decantHost e w) = .ok runs) (h : DecantEnv s asn core e) (t : State) :
    decantBody t e w = if 8 ≤ (s.decants.filter fun d => d.asn == asn).length then issued e fun k => { k with run := .decantWait }
      else acceptDecant e w runs := by
  unfold decantBody
  rw [hmw, hr, h.few]
  simp only [hsig, hz]
  rfl

/-- The DECANT that joins the engine's queue. -/
def newDecant (s : State) (asn core : Nat) (e : Env) (w : Nat) (runs : List CopyRun) : Decant :=
  { id := s.nextId, asn := asn, core := core, index := e.k.pc, sem := semOf w
    window := if subOf w = 1 then some (bits w 39 32) else none, runs := runs
    into := runs.map fun r => (r.dst, r.bytes) }

/-- The state in which a DECANT has joined the queue, before the cores that wait on its semaphore join its fence. -/
def decantQueued (s : State) (asn core : Nat) (e : Env) (w : Nat) (runs : List CopyRun) : State :=
  { issued e (fun k => { k.next with run := .running }) with
    decants := s.decants ++ [newDecant s asn core e w runs], nextId := s.nextId + 1 }

theorem ctxsOnly_issued (e : Env) (f : Core → Core) : CtxsOnly e.s (issued e f) :=
  (ctxsOnly_noteFirst e).trans (ctxsOnly_modCore ..)

theorem acceptDecant_joins (h : DecantEnv s asn core e) :
    acceptDecant e w runs = fenceWaiters (decantQueued s asn core e w runs) asn (semOf w) := by
  obtain ⟨hreads, rfl, rfl, -⟩ := h
  have ho := (ctxsOnly_issued e fun k => { k.next with run := .running }).only
  have hd : (issued e fun k => { k.next with run := .running }).decants = s.decants :=
    (ho.part .moves).2.2.1.trans (hreads.only.part .moves).2.2.1
  have hi : e.s.nextId = s.nextId := (hreads.only.part .ids).1
  have hn : (issued e fun k => { k.next with run := .running }).nextId = s.nextId := (ho.part .ids).1.trans hi
  have key (u : State) (h1 : u.decants = s.decants) (h2 : u.nextId = s.nextId) (d : Decant) :
      { u with decants := u.decants ++ [d], nextId := u.nextId + 1 } =
        { u with decants := s.decants ++ [d], nextId := s.nextId + 1 } := by rw [h1, h2]
  unfold acceptDecant decantQueued newDecant
  rw [hi]
  exact congrArg (fenceWaiters · e.c.asn (semOf w)) (key _ hd hn _)

theorem only_decantQueued : Only [.ctxs, .moves, .ids] e.s (decantQueued s asn core e w runs) := by
  refine .trans (ctxsOnly_issued e fun k => { k.next with run := .running }).only.mono ?_
  unfold decantQueued
  generalize issued e (fun k => { k.next with run := .running }) = u
  refine ⟨rfl, fun x hx => ?_⟩
  cases x <;> simp_all [Part.same]

theorem acceptDecant_facts (h : DecantEnv s asn core e) :
    (acceptDecant e w runs).decants = s.decants ++ [newDecant s asn core e w runs] ∧
      coreOf (acceptDecant e w runs) asn core = some { e.k with pc := e.k.pc + 1, run := .running } ∧
      (∀ a k, ¬(a = asn ∧ k = core) → coreOf (acceptDecant e w runs) a k = coreOf s a k) ∧
      Only [.ctxs, .moves, .ids] e.s (acceptDecant e w runs) := by
  have hjoin := ctxsOnly_fenceWaiters (decantQueued s asn core e w runs) asn (semOf w)
  have hcores := (sameBy_fenceWaiters (decantQueued s asn core e w runs) asn (semOf w)).cores
  have honly := (only_decantQueued (s := s) (asn := asn) (core := core) (e := e) (w := w) (runs := runs)).trans hjoin.mono
  rw [acceptDecant_joins h]
  obtain ⟨hreads, rfl, rfl, hk⟩ := h
  refine ⟨(hjoin.part .moves).2.2.1, ?_, fun a k hak => ?_, ?_⟩
  · rw [hcores.coreOf]
    refine (coreOf_issued_self e _).trans ?_
    rw [hreads.coreOf, hk, Option.map_some]
    rfl
  · rw [hcores.coreOf]
    exact (coreOf_issued_other e _ hak).trans (hreads.coreOf a k)
  · exact honly

/-- What a DECANT that waits leaves. -/
theorem decantWaits_facts (h : DecantEnv s asn core e) :
    coreOf (issued e fun k => { k with run := .decantWait }) asn core = some { e.k with run := .decantWait } ∧
      (∀ a k, ¬(a = asn ∧ k = core) → coreOf (issued e fun k => { k with run := .decantWait }) a k = coreOf s a k) ∧
      Only [.ctxs] e.s (issued e fun k => { k with run := .decantWait }) := by
  obtain ⟨hreads, rfl, rfl, hk⟩ := h
  refine ⟨?_, fun a k hak => (coreOf_issued_other e _ hak).trans (hreads.coreOf a k), (ctxsOnly_issued e _).only⟩
  rw [coreOf_issued_self, hreads.coreOf, hk, Option.map_some]

end decant

/-- Settles O20: a DECANT issued by its row or let in later runs the same body, which joins the queue or waits. -/
theorem decantIsAccepted : Obligations.DecantIsAccepted := by
  unfold Obligations.DecantIsAccepted
  intro s asn core e w runs hhead hfetch hsig hz hmw hruns few accepted waits
  have hfew (h : DecantEnv s asn core e) (hf : few) (t : State) : decantBody t e w = acceptDecant e w runs := by
    rw [decantBody_passes hsig hz hmw hruns h, if_neg (Nat.not_le.2 hf)]
  have hmany (h : DecantEnv s asn core e) (hf : ¬few) (t : State) :
      decantBody t e w = issued e fun k => { k with run := .decantWait } := by
    rw [decantBody_passes hsig hz hmw hruns h, if_pos (Nat.le_of_not_lt hf)]
  have hrow (sub : Nat) (he : rowEnv s asn core = some e) (hm : isRow 0x12 sub w = true) :
      tileRow s asn core (isRow 0x12 sub) (decantBody s) = decantBody s e w := tileRow_eq ⟨he, hfetch, hhead⟩ hm
  refine ⟨fun he hm hw => ⟨fun hf => ?_, fun hf => ?_⟩, fun he hm hw => ⟨fun hf => ?_, fun hf => ?_⟩,
    fun e₀ he₀ hee hop hw => ⟨fun hf => ?_, fun hf => ?_⟩⟩
  · have h := decantEnv_rowEnv he
    exact ⟨_, (exec_decantFromVirtual_next hw).trans (by rw [hrow 0 he hm, hfew h hf]), acceptDecant_facts h⟩
  · have h := decantEnv_rowEnv he
    exact ⟨_, (exec_decantFromVirtual_next hw).trans (by rw [hrow 0 he hm, hmany h hf]), decantWaits_facts h⟩
  · have h := decantEnv_rowEnv he
    exact ⟨_, (exec_decantFromHost_next hw).trans (by rw [hrow 1 he hm, hfew h hf]), acceptDecant_facts h⟩
  · have h := decantEnv_rowEnv he
    exact ⟨_, (exec_decantFromHost_next hw).trans (by rw [hrow 1 he hm, hmany h hf]), decantWaits_facts h⟩
  · subst hee
    have h := decantEnv_fetched he₀
    have ha : decantAccepted s asn core = acceptDecant e₀.fetched w runs := by
      simp only [decantAccepted, he₀, hfetch]
      rw [if_neg (Nat.not_le.2 hf), hfew h hf]
    exact ⟨_, (exec_decantAccepted_next hw).trans (congrArg _ ha), acceptDecant_facts h⟩
  · rw [exec_decantAccepted_next hw]
    simp only [decantAccepted, he₀]
    rw [if_pos (Nat.le_of_not_lt hf)]

end Sys2Proof.Machine
end

section
/-! What held the cores goes on: a promotion that ends lets held writes leave; a PIECE whose keys have landed, an ordered contribution
whose turn has come and the pages of a decant do their work. -/

namespace Sys2Proof.Machine

/-! ### A promotion that ends -/

section promotion

variable {s : State} {asn vpn : Nat} {p : Promotion} {g : Page}

theorem coreOf_releaseHolders (s : State) (asn vpn a k : Nat) : coreOf (releaseHolders s asn vpn) a k =
    (coreOf s a k).map fun x => if a = asn ∧ x.holds vpn = true then { x with hold := none } else x := by
  unfold releaseHolders
  by_cases ha : a = asn
  · subst ha
    simp only [coreOf]
    rw [ctxOf_modCtx_self (f := fun c => { c with cores := c.cores.map fun k => if k.holds vpn then { k with hold := none } else k })
      fun _ => rfl]
    cases ctxOf s a with
    | none => rfl
    | some c => simp [List.getElem?_map]
  · simp only [ha, false_and, if_false, Option.map_id']
    exact congrArg (Option.bind · _) (ctxOf_modCtx_ne ha)

/-- The state a running promotion leaves before what waits on the cores goes on. -/
def promoted (s : State) (asn vpn : Nat) (p : Promotion) (g : Page) : State :=
  releaseHolders { movePage s asn g p.dst with promotions := s.promotions.erase p } asn vpn

theorem promotionDone_runs (hp : (s.promotions.find? fun p => p.asn == asn && p.vpn == vpn) = some p)
    (hg : pageOf s asn vpn = some g) (hcellar : isNear g.ppn = false) (hrun : isRunning s p = true) :
    promotionDone s asn vpn = promoted s asn vpn p g := by
  simp [promotionDone, promoted, hp, hg, hcellar, hrun]

theorem promotionDone_waits (hp : (s.promotions.find? fun p => p.asn == asn && p.vpn == vpn) = some p)
    (hrun : isRunning s p = false) : promotionDone s asn vpn = s := by
  simp [promotionDone, hp, hrun]

theorem only_promoted : Only [.regs, .dies, .pages, .mem, .ctxs, .traffic] s (promoted s asn vpn p g) := by
  unfold promoted
  refine .trans (only_movePage s asn g p.dst).mono (.trans ?_ (ctxsOnly_modCtx ..).only.mono)
  generalize movePage s asn g p.dst = u
  refine ⟨rfl, fun x hx => ?_⟩
  cases x <;> simp_all [Part.same]

theorem ctxs_movePage (d : Nat) : (movePage s asn g d).ctxs = s.ctxs := ((only_movePage s asn g d).part .ctxs).1

end promotion

/-- Settles O29: a promotion that runs moves its page and releases what its cores hold; one that does not leaves the state as it is. -/
theorem promotionCompletes : Obligations.PromotionCompletes := by
  unfold Obligations.PromotionCompletes
  intro s asn vpn p g hw hp hg hcellar
  rw [exec_promotionDone_next hw]
  refine ⟨fun hrun => by rw [promotionDone_waits hp hrun], fun hrun => ⟨promoted s asn vpn p g, ?_, rfl, ?_, ?_, fun a k => ?_, only_promoted⟩⟩
  · rw [promotionDone_runs hp hg hcellar hrun]
  · exact (movePage_facts hg p.dst).1
  · exact (movePage_facts hg p.dst).2
  · rw [promoted, coreOf_releaseHolders]
    exact congrArg (Option.map _) ((SameBy.of_ctxs (ctxs_movePage (g := g) p.dst)).coreOf a k)

/-! ### Work that waited in flight -/

section flight

variable {s : State} {asn core : Nat}

/-- A run of bytes changes nothing of a core but its store. -/
theorem coreView_putRun {β : Type} {v : Core → β} (r : Run) (hv : ∀ k m, v { k with store := m } = v k := by exact fun _ _ => rfl) :
    (coreOf (putRun asn core s r) asn core).map v = (coreOf s asn core).map v := by
  unfold putRun
  split
  · rw [(SameBy.of_ctxs (ctxs_virtWrite ..)).coreOf]
  · split
    · rw [coreOf_modCore_self, Option.map_map]
      exact congrArg (Option.map · _) (funext fun k => hv k _)
    · rw [(sameBy_modCtx (v := (·.cores)) ..).coreOf]

theorem coreView_putRuns {β : Type} {v : Core → β} (rs : List Run)
    (hv : ∀ k m, v { k with store := m } = v k := by exact fun _ _ => rfl) :
    (coreOf (putRuns s asn core rs) asn core).map v = (coreOf s asn core).map v := by
  unfold putRuns
  induction rs generalizing s with
  | nil => rfl
  | cons r rs ih => exact ih.trans (coreView_putRun r hv)

variable {id : Nat} {e : Env} {f : Flight}

/-- What `flightEnv` finds. -/
theorem flightEnv_facts (h : flightEnv s asn core id = some (e, f)) : ∃ k, coreOf s asn core = some k ∧ f ∈ k.flight ∧ f.id = id ∧
    e.s = s ∧ e.c.asn = asn ∧ e.core = core ∧ e.id = id ∧ ctxOf s asn = some e.c ∧ e.k.hold = k.hold := by
  unfold flightEnv at h
  split at h
  case h_2 => cases h
  case h_1 c k hc hk =>
    split at h
    case h_2 => cases h
    case h_1 j g hj hg =>
      split at h
      case isFalse => cases h
      case isTrue =>
        cases h
        have hid : f.id = id := by simpa using List.find?_some hg
        exact ⟨k, hk, List.mem_of_find?_eq_some hg, hid, rfl, asn_of_ctxOf hc, rfl, hid, hc, rfl⟩

/-- The reads of a run start from the same core of the same context, and find its core as it was. -/
theorem flightEnv_met {ops : UnitOps} {x : Env} {p : Plan} (h : flightEnv s asn core id = some (e, f)) (hr : Runs ops e x f p) :
    Reads s x.s ∧ x.c.asn = asn ∧ x.core = core ∧ x.id = id := by
  obtain ⟨k, -, -, -, hs, hasn, hcore, hid, -⟩ := flightEnv_facts h
  obtain ⟨t, ht, hreads⟩ := met_env e fun y => ops.run y f.w
  rw [hr.met.trans ht]
  exact ⟨hs ▸ hreads, hasn, hcore, hid⟩

/-- An instruction that waited and whose run succeeds does its work. -/
theorem runFlight_worked {ops : UnitOps} {x : Env} {p : Plan} (h : flightEnv s asn core id = some (e, f)) (hr : Runs ops e x f p) :
    Worked (runFlight e f ops.run) ops x f p := by
  obtain ⟨k, hk, -⟩ := flightEnv_facts h
  obtain ⟨hreads, hasn, hcore, -⟩ := flightEnv_met h hr
  rw [runFlight_runs hr]
  refine worked_performed ?_ rfl
  rw [hasn, hcore, hreads.coreOf, hk, Option.isSome_some]

theorem setX_flight (k : Core) (i : Nat) (v : Word) : (k.setX i v).flight = k.flight := by
  unfold Core.setX
  split <;> rfl

theorem foldl_setX_flight (l : List (Nat × Word)) (k : Core) : (l.foldl (fun k r => k.setX r.1 r.2) k).flight = k.flight := by
  induction l generalizing k with
  | nil => rfl
  | cons r l ih => rw [List.foldl_cons, ih, setX_flight]

/-- A plan that waits for nothing leaves its instruction in flight, waiting for nothing. -/
theorem any_free_onCore {p : Plan} {x : Env} {k : Core} {want : Nat} {later : List TasterTile} (hp : p.wait = .none)
    (hf : ∃ g ∈ k.flight, g.id = x.id) :
    ((p.onCore x want later k).flight.any fun g => g.id == x.id && g.wait == .none) = true := by
  obtain ⟨g, hg, hid⟩ := hf
  simp only [Plan.onCore, hp, bne_self_eq_false, Bool.and_false, Bool.false_eq_true, if_false, foldl_setX_flight,
    List.any_map, List.any_eq_true]
  exact ⟨g, hg, by simp [hid]⟩

/-- So it does after its run. -/
theorem runFlight_free {ops : UnitOps} {x : Env} {p : Plan} (h : flightEnv s asn core id = some (e, f)) (hr : Runs ops e x f p)
    (hp : p.wait = .none) :
    ((coreOf (runFlight e f ops.run) asn core).map fun k => k.flight.any fun g => g.id == id && g.wait == .none) = some true := by
  obtain ⟨k, hk, hf, hfid, -⟩ := flightEnv_facts h
  obtain ⟨hreads, rfl, rfl, rfl⟩ := flightEnv_met h hr
  obtain ⟨k', hk', hdone⟩ := (runFlight_worked h hr).self
  have hflight : k'.flight = k.flight := by
    have hview := coreView_putRuns (s := x.s) (asn := x.c.asn) (core := x.core) (v := (·.flight)) (p.runs x)
    rw [hk', hreads.coreOf, hk] at hview
    exact Option.some.inj hview
  rw [hdone, Option.map_some, any_free_onCore hp ⟨f, hflight ▸ hf, hfid⟩]

end flight

theorem wait_orderedNow {first : Bool} {e : Env} {w : Nat} {p : Plan} (h : orderedNow first e w = .ok p) : p.wait = .none := by
  simp only [orderedNow, bind, Except.bind, Except.map] at h
  repeat' split at h
  all_goals cases h
  rfl

/-- Settles O30: each event unfolds to its run, whose work is `runFlight_worked`; a decant's page is one of its copy. -/
theorem waitingWorkCompletes : Obligations.WaitingWorkCompletes := by
  unfold Obligations.WaitingWorkCompletes
  refine ⟨?piece, ?ordered, ?decant⟩
  case piece =>
    intro s asn core id pc e x f p hw hf hwait hhold ops hr
    refine ⟨_, ?_, runFlight_worked hf hr⟩
    rw [exec_pieceLandingReady_next hw]
    simp [pieceLandingReady, hf, hwait, hhold, ops]
  case ordered =>
    intro s asn core id lo len fm cnt idx e x f p hw hf hwait hturn ops hr
    refine ⟨_, runFlight_worked hf hr, ?_⟩
    rw [exec_orderedTurn_next hw]
    simp only [orderedTurn, hf, hwait]
    rw [if_pos hturn, if_pos (runFlight_free hf hr (wait_orderedNow hr.run))]
  case decant =>
    intro s id host d r l hw hd hready hnext hruns hwritable n left rest fin
    have hpage : ¬(s.hub.boot ≠ .ready ∨ nextDecant s ≠ some d) := fun h => h.elim (· hready) (· hnext)
    rw [exec_decantPageDone_next hw]
    unfold decantPage
    rw [hd]
    dsimp only
    rw [if_neg hpage, hruns]
    dsimp only
    rw [hwritable, Bool.not_true, if_neg Bool.false_ne_true]
    refine ⟨fun hwin hread => ?_, fun w b hwin hhost hlen => ?_⟩
    · split
      case h_3 => rw [if_pos hread]
      all_goals simp_all only [reduceCtorEq]
    · subst hhost
      split
      case h_1 hb =>
        cases hb
        rw [if_neg (Nat.not_lt.2 hlen)]
      all_goals simp_all only [reduceCtorEq]

end Sys2Proof.Machine
end

section
/-! Jobs start, are ended by their command, and end of themselves. -/

namespace Sys2Proof.Machine

section job

variable {s : State} {asn : Nat} {c : Ctx} {j : Job} {h : CmdHdr}

/-! ### Start -/

/-- The job that a launch starts. -/
def newJob (h : CmdHdr) (p rank len va seed tb : Nat) : Job :=
  { hdr := h, p := p, rank := rank, len := len, progVA := va, seed := seed, fate := .running, endCmd := [], launchTb := tb, issued := false }

/-- The state in which a job has started, before its version sets start again. -/
def launched (b : State) (h : CmdHdr) (asn : Nat) (c : Ctx) (j : Job) (armed : List Armed) : State :=
  let u := clearPrecCounters (modCtx (complete (readTrellis b c) h 0x0020 .ok []) asn fun c => c.startJob j armed) c
  { u with groups := u.groups.map fun g => g.map fun g => if g.asn = asn then { g with overSeqs := [], overLanded := [] } else g }

theorem ctxOf_launched {b : State} {armed : List Armed} (hc : ctxOf b asn = some c) :
    ctxOf (launched b h asn c j armed) asn = some (c.startJob j armed) := by
  have hread := (keeps_readTrellis (w₀ := Part.among [.dies, .mem, .traffic]) b c (Keeps.refl b)).only
  have hctx : ctxOf (complete (readTrellis b c) h 0x0020 .ok []) asn = some c := by
    rw [ctxOf_of_only (only_complete ..), ctxOf_of_only hread, hc]
  have hclear := (keeps_clearPrecCounters (w₀ := Part.among [.regs])
    (modCtx (complete (readTrellis b c) h 0x0020 .ok []) asn fun c => c.startJob j armed) c (Keeps.refl _)).only
  refine Eq.trans ?_ (ctxOf_modCtx_some (f := fun c => c.startJob j armed) hctx fun _ => rfl)
  exact ctxOf_of_only (t := clearPrecCounters _ c) hclear asn

theorem startJobLaunch_launched {b : State} {p rank len va seed : Nat} {armed : List Armed} (hp : 0 < p) (hr : rank < p) (hl : 0 < len)
    (hl' : len ≤ 65536) (hva : va % 64 = 0) (hc : ctxOf b asn = some c) (hs : c.state ≠ .corked) (hj : c.job = none)
    (ha : precAgree b c = true) (ht : trellisLaunch (readTrellis b c) c = .ok armed) :
    startJobLaunch h asn p rank len va seed b =
      resetSets (launched b h asn c (newJob h p rank len va seed b.hub.timebase) armed) asn := by
  have hform : ¬(p = 0 ∨ p ≤ rank ∨ len = 0 ∨ 65536 < len ∨ va % 64 ≠ 0) := by omega
  have hfree : ¬(c.state = .corked ∨ c.job.isSome = true) := by simp [hs, hj]
  unfold startJobLaunch
  rw [if_neg hform, hc]
  dsimp only
  rw [if_neg hfree, ha, Bool.not_true, if_neg Bool.false_ne_true, ht]
  rfl

/-! ### End -/

/-- A context whose job has ended. -/
def Ctx.afterJob (c : Ctx) : Ctx :=
  { c with job := none, cores := c.cores.map Core.clearSeq, claim := false, readyNs := 0
           clusters := c.clusters.map fun k => { k with tracks := [], taster := [] } }

/-- What is left of a context's job and its cores once the job has ended. -/
theorem ctxOf_endJob {st : Status} {core fault die index : Nat} (hc : ctxOf s asn = some c) (hj : c.job = some j) :
    ∃ d, ctxOf (endJob s asn st core fault die index) asn = some d ∧ d.job = none ∧ d.state = c.state ∧ d.sems = c.sems ∧
      d.flags = c.flags ∧ d.cores = c.cores.map Core.clearSeq := by
  have hdrop := ctxOf_of_map (t := dropWaits (flushCtx s asn) asn fun _ => true) rfl (fun _ => rfl) asn
  rw [ctxOf_flushCtx hc, Option.map_some] at hdrop
  have hend := ctxOf_modCtx_some (f := Ctx.afterJob) hdrop fun _ => rfl
  refine ⟨_, Eq.trans ?_ hend, rfl, rfl, rfl, rfl, rfl⟩
  unfold endJob
  rw [hc]
  dsimp only
  rw [hj]
  dsimp only
  refine (ctxOf_of_only (Keeps.foldl (w₀ := Part.among [.host, .regs]) (Keeps.refl _)
    fun h u hk => keeps_complete u h _ _ _ hk).only asn).trans ?_
  refine (ctxOf_of_only (keeps_pushCompletion (w₀ := Part.among [.host, .regs]) _ _ _ (Keeps.refl _)).only asn).trans ?_
  rfl

theorem jobComplete_ended (hc : ctxOf s asn = some c) (hj : c.job = some j) (hf : j.fate = .running) (hm : c.moving = none)
    (hq : jobQuiet s c = true) (he : ∀ k ∈ c.cores, k.run = .ended) : jobComplete s asn = endJob s asn .ok 0xFFFF 0 0 0 := by
  have hall : (c.cores.all fun k => k.run == .ended) = true := List.all_eq_true.2 fun k hk => by rw [he k hk]; rfl
  simp only [jobComplete, hc, hj, hf, hm, hq, hall, Option.isNone_none, Bool.and_self, if_true]

theorem startJobEnd_runs (hc : ctxOf s asn = some c) (hj : c.job.isSome = true) :
    let u := modCtx (endTransfers s asn) asn fun c => { c with job := c.job.map fun j => { j with endCmd := j.endCmd ++ [h] } }
    startJobEnd h asn s = if c.state = .seated then stopJob u asn .ended 0xFFFF 0 else endJob u asn .ended 0xFFFF 0 0 0 := by
  obtain ⟨j, hj⟩ := Option.isSome_iff_exists.1 hj
  simp only [startJobEnd, hc, hj]

end job

/-- Settles O33: a launch that passes its checks starts the job; JOB_END stops or ends it; a job that is over ends. -/
theorem jobsComplete : Obligations.JobsComplete := by
  unfold Obligations.JobsComplete
  refine ⟨?launch, ?stop, ?ended⟩
  case launch =>
    intro s b h asn p rank len va seed c armed hw hb hp hr hl hl' hva hc hs hj ha ht
    refine ⟨_, _, ?_, ctxOf_launched (h := h) (j := newJob h p rank len va seed b.hub.timebase) (armed := armed) hc,
      rfl, rfl, rfl, rfl, rfl, rfl, ⟨_, rfl, rfl, rfl, rfl, rfl, rfl, rfl⟩, fun i k hk => ?_⟩
    · rw [exec_jobLaunch_next hw, submit_of_begins hb, startJobLaunch_launched hp hr hl hl' hva hc hs hj ha ht]
    · exact List.getElem?_mapIdx.trans (congrArg (Option.map _) hk)
  case stop =>
    intro s h asn c hw hs hc hj u
    rw [exec_jobEnd_next hw, submit_of_starts hs, startJobEnd_runs ((ctxOf_of_only (only_begun s h _) asn).trans hc) hj]
  case ended =>
    intro s asn c j hw hc hj hf hm hq he
    obtain ⟨d, hd, hjob, hstate, hsems, hflags, hcores⟩ := ctxOf_endJob (st := .ok) (core := 0xFFFF) (fault := 0) (die := 0)
      (index := 0) hc hj
    refine ⟨d, by rw [exec_jobComplete_next hw, jobComplete_ended hc hj hf hm hq he], hd, hjob, hstate, hsems, hflags, fun k hk => ?_⟩
    rw [hcores] at hk
    obtain ⟨k', -, rfl⟩ := List.mem_map.1 hk
    rfl

end Sys2Proof.Machine
end

section
/-! Seating: a claim by a context that is alone on the module, and slices that expire. -/

namespace Sys2Proof.Machine

/-- A claimant that starts its uncork. -/
def Ctx.seat (c : Ctx) : Ctx := { c with fresh := List.replicate 4 .zero, state := .seating, moving := some true, claim := false }

section alone

variable {s : State} {b : Ctx} (hs : s.ctxs = [b])
include hs

theorem ctxOf_alone : ctxOf s b.asn = some b := by simp [ctxOf, hs]

theorem clearFor_alone : clearFor s b = true := by simp [clearFor, hs]

/-- A claimant that is alone is seated. -/
theorem ctxs_seatOne_alone (hclaim : b.claim = true) (hb : b.state = .benched) : (seatOne s b.asn).ctxs = [b.seat] := by
  simp [seatOne, ctxOf_alone hs, hclaim, hb, clearFor_alone hs, flushCtx, modCtx, addTotal, hs, Ctx.seat]

/-- A context that is alone and claims nothing is left as it is. -/
theorem seatOne_unclaimed (hclaim : b.claim = false) : seatOne s b.asn = s := by
  simp [seatOne, ctxOf_alone hs, hclaim]

theorem seatClaimants_alone : seatClaimants s = seatOne s b.asn := by simp [seatClaimants, hs]

/-- It waits for a seat exactly where it is the next. -/
theorem nextSeat_alone : nextSeat s = if b.waitsForSeat then some b else none := by
  cases hw : b.waitsForSeat <;> simp [nextSeat, hs, hw, lets]

theorem displace_alone : (s.ctxs.map (·.asn)).foldl (displace b) s = s := by
  simp [hs, displace, ctxOf_alone hs]

/-- What a decision leaves of it: it is seated, its claim made first or by the decision. -/
theorem ctxs_seatingDecision_alone (hready : s.hub.boot = .ready) (hp : s.hub.powered = true) (hb : b.state = .benched)
    (hj : b.job.isSome = true) : (seatingDecision s).ctxs = [b.seat] := by
  have hruns : ¬(s.hub.boot ≠ .ready ∨ (!s.hub.powered) = true) := by simp [hready, hp]
  unfold seatingDecision
  rw [if_neg hruns]
  dsimp only
  rw [seatClaimants_alone hs]
  cases hclaim : b.claim with
  | true =>
    have hu := ctxs_seatOne_alone hs hclaim hb
    have hseat : b.seat.waitsForSeat = false := rfl
    rw [nextSeat_alone hu, hseat]
    exact hu
  | false =>
    have hwaits : b.waitsForSeat = true := by simp [Ctx.waitsForSeat, hb, hj, hclaim]
    rw [seatOne_unclaimed hs hclaim, nextSeat_alone hs, hwaits, if_pos rfl]
    dsimp only
    rw [displace_alone hs]
    exact ctxs_seatOne_alone (s := modCtx s b.asn fun c => { c with claim := true }) (b := { b with claim := true })
      (by simp [modCtx, hs]) rfl hb

end alone

/-- Settles O34: a decision unfolds to its rule (R654); a lone context meets none that could be in its way. -/
theorem seatingCompletes : Obligations.SeatingCompletes := by
  unfold Obligations.SeatingCompletes
  refine ⟨fun s hs => ?_, fun s b hready hp hs hb hj => ?_, fun s hready hp => ⟨fun hn => ?_, fun b hn => ?_⟩, fun s asn c hw hc hs hj hslice => ?_⟩
  · rw [exec_seatingDecision_next rfl, seatingDecision, if_pos (.inl hs)]
  · exact ⟨_, b.seat, exec_seatingDecision_next rfl, ctxOf_alone (ctxs_seatingDecision_alone hs hready hp hb hj), rfl, rfl, rfl, rfl, rfl⟩
  · rw [exec_seatingDecision_next rfl, seatingDecision, if_neg (by simp [hready, hp])]
    dsimp only
    rw [hn]
  · rw [exec_seatingDecision_next rfl, seatingDecision, if_neg (by simp [hready, hp])]
    dsimp only
    rw [hn]
  · have hasn (x : Ctx) : (if (x.state = .seated && x.job.isSome && decide (1000 * x.sliceUs ≤ x.sliceNs)) = true then
        { x with expired := true } else x).asn = x.asn := by split <;> rfl
    refine ⟨sliceExpiry s asn, exec_sliceExpiry_next hw, (ctxOf_modCtx_some hc hasn).trans ?_,
      fun a ha => ctxOf_modCtx_ne ha hasn, (ctxsOnly_modCtx ..).only⟩
    simp [hs, hj, hslice]

end Sys2Proof.Machine
end

section
/-! Corks begin and end; uncorks end. -/

namespace Sys2Proof.Machine

section cork

variable {s : State} {asn : Nat} {c : Ctx}

/-! ### The start of a cork -/

/-- A context whose cork has begun. -/
def Ctx.corkBegun (c : Ctx) : Ctx := { c with moving := some false, cores := c.cores.map Core.noEntries }

/-- The state in which a cork has begun. -/
def corkBegun (s : State) (asn : Nat) (c : Ctx) : State :=
  modCtx (unqueue (writeArea (flushCtx s asn) c) asn) asn Ctx.corkBegun

theorem corkBegin_begins (hc : ctxOf s asn = some c) (hl : c.leaving = true) (hm : c.moving = none) (hp : c.allParked = true) :
    corkBegin s asn = corkBegun s asn c := by
  simp only [corkBegin, hc, hl, hm, hp, Option.isNone_none, Bool.and_self, if_true]
  rfl

theorem ctxOf_corkBegun (hc : ctxOf s asn = some c) : ∃ d, ctxOf (corkBegun s asn c) asn = some d ∧ d.moving = some false ∧
    d.state = c.state ∧ d.cores = c.cores.map Core.noEntries := by
  have harea : ctxOf (writeArea (flushCtx s asn) c) asn = some { c with fresh := List.replicate 4 .zero } :=
    (ctxOf_of_only (keeps_writeArea (w₀ := Part.among [.mem, .traffic]) _ c (Keeps.refl _)).only asn).trans (ctxOf_flushCtx hc)
  have hqueue := ctxOf_of_map (t := unqueue (writeArea (flushCtx s asn) c) asn) rfl (fun _ => rfl) asn
  rw [harea, Option.map_some] at hqueue
  exact ⟨_, ctxOf_modCtx_some (f := Ctx.corkBegun) hqueue fun _ => rfl, rfl, rfl, rfl⟩

/-- A context whose cork has begun waits for no semaphore. -/
theorem waiters_corkBegun : ∀ x ∈ (corkBegun s asn c).ctxs, ∀ w ∈ x.waiters, w.asn ≠ asn := by
  intro x hx w hw
  obtain ⟨y, hy, rfl⟩ := List.mem_map.1 hx
  obtain ⟨z, -, rfl⟩ := List.mem_map.1 hy
  have hwait : w ∈ z.waiters.filter fun w => w.asn != asn := by
    split at hw
    · exact hw
    · exact hw
  simpa using (List.mem_filter.1 hwait).2

/-! ### The end of a cork -/

/-- A context once its accounts are flushed and, where it streams, its stores are discarded. -/
def Ctx.left (c : Ctx) : Ctx := ({ c with fresh := List.replicate 4 .zero } : Ctx).discard

theorem asn_discard (c : Ctx) : c.discard.asn = c.asn := by
  unfold Ctx.discard
  split <;> rfl

/-- What a context's place on its clusters, its slots and its sequencer state are once it has left. -/
theorem left_facts (c : Ctx) : c.left.asn = c.asn ∧ c.left.state = c.state ∧ c.left.sems = c.sems ∧ c.left.dies = c.dies ∧
    c.left.slots = c.slots ∧ c.left.cores = c.discard.cores ∧ c.left.clusters = c.discard.clusters := by
  unfold Ctx.left Ctx.discard
  cases h : c.cd6 <;> exact ⟨rfl, rfl, rfl, rfl, rfl, rfl, rfl⟩

theorem discard_of_local (h : c.cd6 = false) : c.discard = c := by
  rw [Ctx.discard, h]
  rfl

/-- The state in which a context has left its clusters. -/
def leftState (s : State) (asn : Nat) : State := modCtx (flushCtx s asn) asn Ctx.discard

theorem ctxOf_leftState (hc : ctxOf s asn = some c) : ctxOf (leftState s asn) asn = some c.left :=
  ctxOf_modCtx_some (f := Ctx.discard) (ctxOf_flushCtx hc) asn_discard

theorem corkDone_benches (hc : ctxOf s asn = some c) (hm : c.moving = some false) (hb : c.state = .benching) :
    corkDone s asn = seatClaimants (modCtx (leftState s asn) asn fun c => { c with state := .benched, moving := none }) := by
  obtain ⟨-, hstate, -⟩ := left_facts c
  have hleft := ctxOf_leftState hc
  unfold leftState at hleft
  simp only [corkDone, hc, hm, ne_eq, not_true, if_false, hleft, hstate, hb]
  rfl

theorem corkDone_corks (hc : ctxOf s asn = some c) (hm : c.moving = some false) (hb : c.state = .corking) :
    corkDone s asn = seatClaimants (becomeCorked (leftState s asn) c.left) := by
  obtain ⟨-, hstate, -⟩ := left_facts c
  have hleft := ctxOf_leftState hc
  unfold leftState at hleft
  simp only [corkDone, hc, hm, ne_eq, not_true, if_false, hleft, hstate, hb]
  rfl

/-- A context that holds no slot any more. -/
def Ctx.offSlots (saved : List (Nat × Nat × Word)) (c : Ctx) : Ctx :=
  { c with state := .corked, moving := none, offClusters := false, claim := false, slots := List.replicate 4 none, savedPrec := saved
           corkCmds := [] }

/-- The state in which a context is CORKED, before the dies that drained look whether they may reset. -/
def corkedState (s : State) (c : Ctx) : State :=
  let u := flushCtx (modCtx s c.asn fun c => c.countLow { Acct.zero with corks := 1 }) c.asn
  countCorked (c.corkCmds.foldl (fun s h => complete s h 0x0012 .ok [])
    (modCtx (clearSlots u c) c.asn (Ctx.offSlots (savePrec u c)))) c

theorem becomeCorked_eq : becomeCorked s c = resettle (drainCheck (corkedState s c)) := rfl

theorem savePrec_congr {t : State} {d : Ctx} (hr : t.regs = s.regs) (hd : d.dies = c.dies) (hs : d.slots = c.slots) :
    savePrec t d = savePrec s c := by
  unfold savePrec getReg
  rw [hr, hd, hs]

theorem ctxOf_corkedState (hc : ctxOf s c.asn = some c) :
    ∃ d, ctxOf (corkedState s c) c.asn = some d ∧ d.state = .corked ∧ d.moving = none ∧ d.slots = List.replicate 4 none ∧
      d.savedPrec = savePrec s c ∧ d.cores = c.cores ∧ d.clusters = c.clusters ∧ d.sems = c.sems := by
  generalize hu : flushCtx (modCtx s c.asn fun c => c.countLow { Acct.zero with corks := 1 }) c.asn = u
  have hctx : ctxOf u c.asn =
      some { c.countLow { Acct.zero with corks := 1 } with fresh := List.replicate 4 .zero } :=
    hu ▸ ctxOf_flushCtx (ctxOf_modCtx_some (f := fun c => c.countLow { Acct.zero with corks := 1 }) hc fun _ => rfl)
  have hregs : u.regs = s.regs := hu ▸
    ((ctxsOnly_modCtx s c.asn (f := fun c => c.countLow { Acct.zero with corks := 1 })).only.mono.trans
      (keeps_flushCtx (w₀ := Part.among [.ctxs, .acct]) _ _ (Keeps.refl _)).only).part .regs
  have hclear : ctxOf (clearSlots u c) c.asn = _ :=
    (ctxOf_of_only (keeps_clearSlots (w₀ := Part.among [.regs]) u c (Keeps.refl _)).only c.asn).trans hctx
  have hoff := ctxOf_modCtx_some (f := Ctx.offSlots (savePrec u c)) hclear fun _ => rfl
  refine ⟨_, Eq.trans ?_ hoff, rfl, rfl, rfl, savePrec_congr hregs rfl rfl, rfl, rfl, rfl⟩
  unfold corkedState
  rw [hu]
  exact (ctxOf_of_only (keeps_countCorked (w₀ := Part.among [.hub, .dies]) _ c (Keeps.refl _)).only c.asn).trans
    (ctxOf_of_only (Keeps.foldl (w₀ := Part.among [.host, .regs]) (Keeps.refl _)
      fun h u hk => keeps_complete u h _ _ _ hk).only c.asn)

/-! ### The end of an uncork -/

/-- A context whose uncork has ended. -/
def Ctx.uncorked (epoch : Bool) (c : Ctx) : Ctx :=
  let todo := notYetParked c
  { c with
    state := if c.state = .seating then .seated else c.state
    moving := none, sliceNs := 0, expired := false, readyNs := 0, toPark := todo
    raised := if todo.isEmpty then [] else c.raised
    cores := if c.halting then c.cores.map Core.halt else c.cores.map (Core.resume c.leaving epoch) }

/-- The state in which an uncork has ended, before what waits goes on. -/
def uncorkedState (s : State) (asn : Nat) (c : Ctx) : State :=
  modCtx (flushCtx (readArea s c) asn) asn (Ctx.uncorked s.modes.pending.isSome)

theorem ctxOf_uncorkedState (hc : ctxOf s asn = some c) (hs : c.state = .seating) : ∃ d, ctxOf (uncorkedState s asn c) asn = some d ∧
    d.dies = c.dies ∧ d.state = .seated ∧ d.moving = none ∧ d.sliceNs = 0 ∧ d.expired = false ∧ d.sems = c.sems ∧
    d.cores = if c.halting then c.cores.map Core.halt else c.cores.map (Core.resume false s.modes.pending.isSome) := by
  have hread : ctxOf (readArea s c) asn = some c :=
    (ctxOf_of_only (keeps_readArea (w₀ := Part.among [.dies, .mem, .traffic]) s c (Keeps.refl s)).only asn).trans hc
  have hleaving : c.leaving = false := by rw [Ctx.leaving, hs]
  refine ⟨_, ctxOf_modCtx_some (f := Ctx.uncorked s.modes.pending.isSome) (ctxOf_flushCtx hread) fun _ => rfl, rfl, if_pos hs, rfl, rfl,
    rfl, rfl, ?_⟩
  rw [← hleaving]
  rfl

/-- How a context goes on once it is seated: one that streams has its resume list replayed first (R673). -/
def resumed (u : State) (asn : Nat) (c : Ctx) : State :=
  if c.cd6 then
    match replayList u asn c.resume.1 c.resume.2 with
    | (v, .ok _) => goCtx v asn
    | (v, .error false) => stopJob v asn .bounds 0xFFFF 0
    | (v, .error true) => dieFault v (c.dies.headD 0) .stateUncorrectable true (some asn) none none
  else goCtx u asn

theorem uncorkDone_resumes (hc : ctxOf s asn = some c) (hm : c.moving = some true) (hp : poisonedArea (readArea s c) c = none) :
    uncorkDone s asn = resumed ((List.range c.cores.length).foldl (requeue asn) (uncorkedState s asn c)) asn c := by
  unfold uncorkDone
  rw [hc]
  dsimp only
  rw [if_neg (fun h => h hm), hp]
  rfl

end cork

/-- Settles O35: each event unfolds to its step, and what it leaves of its context is `ctxOf_corkBegun`, `ctxOf_leftState`,
`ctxOf_corkedState` and `ctxOf_uncorkedState`. -/
theorem corksComplete : Obligations.CorksComplete := by
  unfold Obligations.CorksComplete
  refine ⟨?start, ?leave, ?resume⟩
  case start =>
    intro s asn c hw hc hl hm hp
    obtain ⟨d, hd, hmoving, hstate, hcores⟩ := ctxOf_corkBegun hc
    exact ⟨_, d, by rw [exec_corkBegin_next hw, corkBegin_begins hc hl hm hp], hd, hmoving, hstate, hcores, waiters_corkBegun⟩
  case leave =>
    intro s asn c hw hc hm
    have hleft := ctxOf_leftState hc
    obtain ⟨hasn, -, hsems, hdies, hslots, hcores, hclusters⟩ := left_facts c
    refine ⟨fun hb => ?_, fun hb => ?_, discard_of_local⟩
    · refine ⟨_, _, by rw [exec_corkDone_next hw, corkDone_benches hc hm hb],
        ctxOf_modCtx_some (f := fun c => { c with state := .benched, moving := none }) hleft fun _ => rfl, rfl, rfl, hcores, hclusters, hsems⟩
    · have hasn' : c.left.asn = asn := hasn.trans (asn_of_ctxOf hc)
      obtain ⟨d, hd, hstate, hmoving, hoff, hsaved, hcores', hclusters', hsems'⟩ :=
        ctxOf_corkedState (s := leftState s asn) (c := c.left) (hasn' ▸ hleft)
      have hregs : (leftState s asn).regs = s.regs :=
        ((keeps_flushCtx (w₀ := Part.among [.ctxs, .acct]) s asn (Keeps.refl s)).only.trans (ctxsOnly_modCtx ..).only.mono).part .regs
      refine ⟨_, d, by rw [exec_corkDone_next hw, corkDone_corks hc hm hb, becomeCorked_eq], hasn' ▸ hd, hstate, hmoving, hoff,
        hsaved.trans (savePrec_congr hregs hdies hslots), hcores'.trans hcores, hclusters'.trans hclusters, hsems'.trans hsems⟩
  case resume =>
    intro s asn c hw hc hm hs hpoison n
    obtain ⟨d, hd, hdies, hstate, hmoving, hslice, hexp, hsems, hcores⟩ := ctxOf_uncorkedState hc hs
    refine ⟨uncorkedState s asn c, d, hd, ?_, hstate, hmoving, hslice, hexp, hsems, hcores⟩
    intro u r
    rw [exec_uncorkDone_next hw, uncorkDone_resumes hc hm hpoison, hdies]
    refine congrArg _ (ite_congr rfl (fun _ => ?_) fun _ => rfl)
    generalize hr : r = x
    change replayList u asn c.resume.1 c.resume.2 = x at hr
    rw [hr]
    rcases x with ⟨v, (_ | _) | _⟩ <;> rfl

end Sys2Proof.Machine
end

section
/-! The taster's verdicts: what one leaves of its context, of the memory and of the precision counters. -/

namespace Sys2Proof.Machine

/-! ### Messages and counters -/

theorem getReg_raiseMsix (s : State) {v o : Nat} (hv : v < 2048) (ho : 0x400000 ≤ o) : getReg (raiseMsix v s) o = getReg s o := by
  unfold raiseMsix
  split
  · refine getReg_setReg_other _ _ ?_
    dsimp only [msixPending]
    omega
  · rfl

theorem regBits_vector_lt (s : State) : regBits s 0x408 26 16 < 2048 := Nat.mod_lt _ (by decide)

theorem getReg_msgWriteOne (s : State) {o : Nat} (ho : 0x400000 ≤ o) : getReg (msgWriteOne s) o = getReg s o := by
  unfold msgWriteOne
  split
  · rfl
  · exact getReg_raiseMsix _ (regBits_vector_lt s) ho

theorem getReg_msgDrainN (n : Nat) (s : State) {o : Nat} (ho : 0x400000 ≤ o) : getReg (msgDrainN n s) o = getReg s o := by
  induction n generalizing s with
  | zero => rfl
  | succ n ih =>
    unfold msgDrainN
    split
    · rw [ih, getReg_msgWriteOne s ho]
    · rfl

/-- A message changes no register of a die. -/
theorem getReg_sendMsg (s : State) (code : Nat) (fs : List (Nat × Nat × Nat)) {o : Nat} (ho : 0x400000 ≤ o) :
    getReg (sendMsg s code fs) o = getReg s o := by
  unfold sendMsg
  dsimp only
  split
  · exact getReg_msgDrainN _ _ ho
  · rfl

/-- Precision counters of two slots do not share a place. -/
theorem precBase_counters_ne (d k d' k' : Nat) : precBase d k + 0x84 ≠ precBase d' k' + 0x88 := by
  unfold precBase dieBase
  omega

theorem le_precBase (d k : Nat) : 0x400000 ≤ precBase d k := by
  unfold precBase dieBase
  omega

/-! ### Lists with one entry changed -/

section lists

variable {α β : Type} {v : α → β} {f : α → α}

theorem map_modAt {F : β → β} (h : ∀ x, v (f x) = F (v x)) (l : List α) (i : Nat) : (modAt l i f).map v = modAt (l.map v) i F := by
  refine List.ext_getElem? fun j => ?_
  simp only [modAt, List.getElem?_map, List.getElem?_modify]
  cases l[j]? with
  | none => rfl
  | some x => simp only [Option.map_eq_map, Option.map_some]; split <;> simp [h]

theorem map_modAt_same (h : ∀ x, v (f x) = v x) (l : List α) (i : Nat) : (modAt l i f).map v = l.map v := by
  rw [map_modAt (F := id) h]
  exact List.modify_id ..

end lists

/-! ### What the taster sees of a context -/

/-- What of a context the taster works on. -/
def Ctx.tasteView (c : Ctx) : Nat × List (List Flight) × List (List TasterTile) :=
  (c.flags, c.cores.map (·.flight), c.clusters.map (·.taster))

section view

variable {s : State} {asn core : Nat}

/-- A core that keeps what is in flight. -/
theorem tasteView_modCore (s : State) (asn core : Nat) {f : Core → Core} (hf : ∀ k, (f k).flight = k.flight) :
    SameBy Ctx.tasteView s (modCore s asn core f) :=
  sameBy_modCtx s asn (fun _ => rfl) fun c => by
    unfold Ctx.tasteView
    rw [map_modAt_same hf]

theorem tasteView_putRun (r : Run) : SameBy Ctx.tasteView s (putRun asn core s r) := by
  unfold putRun
  split
  · exact .of_ctxs (ctxs_virtWrite ..)
  · split
    · exact tasteView_modCore _ _ _ fun _ => rfl
    · refine sameBy_modCtx s asn (fun _ => rfl) fun c => ?_
      exact congrArg (fun l => (c.flags, c.cores.map (·.flight), l)) (map_modAt_same (v := (·.taster))
        (f := fun q => { q with pool := q.pool.writeN r.addr r.data }) (fun _ => rfl) c.clusters (core / 16))

theorem tasteView_putRuns (s : State) (rs : List Run) : SameBy Ctx.tasteView s (putRuns s asn core rs) :=
  SameBy.foldl (fun _ r => tasteView_putRun r) rs s

theorem tasteView_bumpPrec (s : State) (off n : Nat) : SameBy Ctx.tasteView s (bumpPrec s off n) := .of_ctxs rfl

theorem tasteView_sendMsg {r : State} {code : Nat} {fs : List (Nat × Nat × Nat)} (h : SameBy Ctx.tasteView r s) :
    SameBy Ctx.tasteView r (sendMsg s code fs) := h.trans (.of_ctxs ((only_sendMsg ..).part .ctxs).1)

theorem tasteView_noteWide (s : State) (asn : Nat) (t : TasterTile) : SameBy Ctx.tasteView s (noteWide s asn t) := by
  unfold noteWide
  split
  · dsimp only
    split
    · split
      · exact (tasteView_bumpPrec s _ 1).trans (tasteView_modCore _ _ _ fun _ => rfl)
      · refine tasteView_sendMsg (.trans ?_ (sameBy_modCtx _ _ (fun _ => rfl) fun _ => rfl))
        exact (tasteView_bumpPrec s _ 1).trans (tasteView_modCore _ _ _ fun _ => rfl)
    · exact .refl s
  · exact .refl s

theorem getReg_noteWide (s : State) (asn : Nat) (t : TasterTile) (d k : Nat) :
    getReg (noteWide s asn t) (precBase d k + 0x84) = getReg s (precBase d k + 0x84) := by
  unfold noteWide
  split
  · dsimp only
    split
    · have hbump (d' k' : Nat) : getReg (bumpPrec s (precBase d' k' + 0x88) 1) (precBase d k + 0x84) = getReg s (precBase d k + 0x84) :=
        getReg_setReg_other _ _ (precBase_counters_ne d k d' k')
      split
      · exact hbump ..
      · exact (getReg_sendMsg _ _ _ (Nat.le_add_right_of_le (le_precBase d k))).trans (hbump ..)
    · rfl
  · rfl

end view

/-! ### A verdict that is given -/

section verdict

variable {s u : State} {asn cl : Nat} {c d : Ctx} {e : Env} {t : TasterTile} {v : Verdict}

/-- What a verdict does to an instruction in flight: the one that sampled the tile waits for one less. -/
def TasterTile.settles (t : TasterTile) (f : Flight) : Flight :=
  if f.id = t.flight then { f with verdicts := f.verdicts - 1 } else f

theorem sampled_settles (f : Flight) : (t.settles f).sampled = f.sampled := by
  unfold TasterTile.settles
  split <;> rfl

/-- The state once a verdict's writes are done. -/
def verdictWrote (e : Env) (t : TasterTile) (v : Verdict) : State :=
  e.noteWrites v.runs (putRuns e.s e.c.asn t.core v.runs)

/-- What a verdict of cluster `cl` does to its context. -/
def Ctx.takesVerdict (e : Env) (cl : Nat) (v : Verdict) (c : Ctx) : Ctx :=
  { c.count e.die { Acct.zero with taste := v.beats } with
    clusters := modAt c.clusters cl fun q => { q with taster := q.taster.drop 1 } }

/-- The state once the tile has left the queue. -/
def verdictTaken (e : Env) (cl : Nat) (t : TasterTile) (v : Verdict) : State :=
  modCore (modCtx (orFlags (verdictWrote e t v) e.c.asn v.flags) e.c.asn (Ctx.takesVerdict e cl v)) e.c.asn t.core
    fun k => { k with flight := k.flight.map t.settles }

/-- The state once a failed verdict is counted. -/
def verdictCounted (e : Env) (t : TasterTile) (v : Verdict) (s : State) : State :=
  if v.fail then noteWide (modCore (bumpPrec s (e.prec + 0x84) 1) e.c.asn t.core (noteFail t)) e.c.asn t else s

/-- The state a verdict leaves, before what waits on the cluster's cores starts. -/
def verdictGiven (e : Env) (cl : Nat) (t : TasterTile) (v : Verdict) : State :=
  verdictCounted e t v (refillQueue (verdictTaken e cl t v) e.c.asn cl)

theorem giveVerdict_eq : giveVerdict e cl t v =
    (List.range 16).foldl (fun s i => goCore e.c.asn (16 * cl + i) s) (verdictGiven e cl t v) := rfl

/-! #### Its context -/

theorem tasteView_verdictWrote : SameBy Ctx.tasteView e.s (verdictWrote e t v) :=
  (tasteView_putRuns ..).trans (.of_ctxs (trafficOnly_noteWrites ..).ctxs)

/-- The flags, what is in flight and the queue once the tile has left it. -/
theorem ctxOf_verdictTaken (hc : ctxOf e.s e.c.asn = some c) : ∃ d, ctxOf (verdictTaken e cl t v) e.c.asn = some d ∧
    d.flags = c.flags ||| v.flags ∧
    d.cores.map (·.flight) = modAt (c.cores.map (·.flight)) t.core (List.map t.settles) ∧
    d.clusters.map (·.taster) = modAt (c.clusters.map (·.taster)) cl (List.drop 1) := by
  obtain ⟨b, hb, hview⟩ := tasteView_verdictWrote.exists_ctx hc
  simp only [Ctx.tasteView, Prod.mk.injEq] at hview
  obtain ⟨hflags, hcores, htaster⟩ := hview
  have hor := ctxOf_modCtx_some (f := fun c => { c with flags := c.flags ||| v.flags }) hb fun _ => rfl
  have htaken := ctxOf_modCtx_some (f := Ctx.takesVerdict e cl v) hor fun _ => rfl
  refine ⟨_, ctxOf_modCtx_some htaken fun _ => rfl, congrArg (· ||| v.flags) hflags, ?_, ?_⟩
  · exact (map_modAt (f := fun k : Core => { k with flight := k.flight.map t.settles }) (F := List.map t.settles) (fun _ => rfl)
      b.cores t.core).trans (by rw [hcores])
  · exact (map_modAt (f := fun q : Cluster => { q with taster := q.taster.drop 1 }) (F := List.drop 1) (fun _ => rfl)
      b.clusters cl).trans (by rw [htaster])

/-- What of a core's instructions in flight a tile that joins the queue leaves. -/
def Core.verdictView (k : Core) : List (Nat × Nat) := k.flight.map fun f => (f.id, f.verdicts)

theorem verdictView_dropSampled (k : Core) : k.dropSampled.verdictView = k.verdictView := by
  unfold Core.verdictView Core.dropSampled
  dsimp only
  split
  · rfl
  · rw [List.map_map]
    refine List.map_congr_left fun g _ => ?_
    simp only [Function.comp_apply]
    split <;> rfl

theorem sampling_eq_none {k : Core} (h : ∀ f ∈ k.flight, f.sampled = []) : k.sampling = none := by
  refine List.find?_eq_none.2 fun f hf => ?_
  simp [h f hf]

/-- A free place of the queue takes at most one tile, and none where no instruction has one that waits. -/
theorem refillQueue_facts (hc : ctxOf u asn = some d) : ∃ b more, ctxOf (refillQueue u asn cl) asn = some b ∧
    b.flags = d.flags ∧ b.cores.map (·.verdictView) = d.cores.map (·.verdictView) ∧
    b.clusters.map (·.taster) = modAt (d.clusters.map (·.taster)) cl (· ++ more) ∧ more.length ≤ 1 ∧
    ((∀ k ∈ d.cores, ∀ f ∈ k.flight, f.sampled = []) → more = []) := by
  have hsame : d.clusters.map (·.taster) = modAt (d.clusters.map (·.taster)) cl (· ++ []) := by
    simp only [List.append_nil]
    exact (List.modify_id ..).symm
  unfold refillQueue
  rw [hc]
  dsimp only
  split
  · exact ⟨d, [], hc, rfl, rfl, hsame, Nat.zero_le 1, fun _ => rfl⟩
  · split
    next => exact ⟨d, [], hc, rfl, rfl, hsame, Nat.zero_le 1, fun _ => rfl⟩
    next core x hx =>
      refine ⟨_, [x], ctxOf_modCtx_some (f := fun c => { c with
          cores := modAt c.cores core Core.dropSampled
          clusters := modAt c.clusters cl fun q => { q with taster := q.taster ++ [x] } }) hc fun _ => rfl, rfl,
        map_modAt_same verdictView_dropSampled .., map_modAt (v := fun q : Cluster => q.taster) (F := (· ++ [x])) (fun _ => rfl) .., Nat.le_refl 1, fun hnone => ?_⟩
      obtain ⟨i, -, hi⟩ := List.exists_of_findSome?_eq_some hx
      simp only [Option.map_eq_some_iff, Option.bind_eq_some_iff] at hi
      obtain ⟨y, ⟨f, ⟨k, hk, hf⟩, -⟩, -⟩ := hi
      rw [sampling_eq_none (hnone k (List.mem_of_getElem? hk))] at hf
      cases hf

theorem tasteView_verdictCounted : SameBy Ctx.tasteView s (verdictCounted e t v s) := by
  unfold verdictCounted
  split
  · refine .trans ?_ (tasteView_noteWide _ _ _)
    exact (tasteView_bumpPrec s _ 1).trans (tasteView_modCore _ _ _ fun _ => rfl)
  · exact .refl s

/-- What a verdict leaves of its context. -/
theorem ctxOf_verdictGiven (hc : ctxOf e.s e.c.asn = some c) : ∃ d more, ctxOf (verdictGiven e cl t v) e.c.asn = some d ∧
    d.flags = c.flags ||| v.flags ∧
    d.cores.map (·.verdictView) =
      (modAt (c.cores.map (·.flight)) t.core (List.map t.settles)).map (List.map fun f => (f.id, f.verdicts)) ∧
    d.clusters.map (·.taster) = modAt (c.clusters.map (·.taster)) cl (fun l => l.drop 1 ++ more) ∧ more.length ≤ 1 ∧
    ((∀ k ∈ c.cores, ∀ f ∈ k.flight, f.sampled = []) → more = []) := by
  obtain ⟨x, hx, hflags, hcores, htaster⟩ := ctxOf_verdictTaken (cl := cl) (t := t) (v := v) hc
  obtain ⟨y, more, hy, hflags', hcores', htaster', hmore, hnone⟩ := refillQueue_facts (cl := cl) hx
  obtain ⟨d, hd, hview⟩ := (tasteView_verdictCounted (e := e) (t := t) (v := v)).exists_ctx hy
  simp only [Ctx.tasteView, Prod.mk.injEq] at hview
  obtain ⟨hflags'', hcores'', htaster''⟩ := hview
  refine ⟨d, more, hd, hflags''.trans (hflags'.trans hflags), ?cores, ?taster, hmore, fun h => hnone ?none⟩
  case cores =>
    rw [← hcores]
    have hd' := congrArg (List.map (List.map fun f : Flight => (f.id, f.verdicts))) hcores''
    simp only [List.map_map] at hd' ⊢
    exact hd'.trans hcores'
  case taster =>
    rw [htaster'', htaster', htaster]
    simp only [modAt, List.modify_modify_eq]
    rfl
  case none =>
    intro k hk f hf
    have hmem : k.flight ∈ x.cores.map (·.flight) := List.mem_map_of_mem hk
    rw [hcores] at hmem
    obtain hmem | ⟨l, hl, heq⟩ := mem_modAt hmem
    · obtain ⟨k', hk', heq⟩ := List.mem_map.1 hmem
      exact h k' hk' f (heq ▸ hf)
    · obtain ⟨k', hk', rfl⟩ := List.mem_map.1 hl
      rw [heq] at hf
      obtain ⟨g, hg, rfl⟩ := List.mem_map.1 hf
      rw [sampled_settles]
      exact h k' hk' g hg

/-! #### The other parts -/

theorem ctxsOnly_refillQueue (s : State) (asn cl : Nat) : CtxsOnly s (refillQueue s asn cl) := by
  unfold refillQueue
  split
  · exact .refl s
  · split
    · exact .refl s
    · split
      · exact .refl s
      · exact ctxsOnly_modCtx ..

/-- Until it is counted, a verdict whose writes are done changes contexts alone. -/
theorem ctxsOnly_verdictQueue : CtxsOnly (verdictWrote e t v) (refillQueue (verdictTaken e cl t v) e.c.asn cl) :=
  ((ctxsOnly_modCtx ..).trans ((ctxsOnly_modCtx ..).trans (ctxsOnly_modCore ..))).trans (ctxsOnly_refillQueue ..)

theorem only_verdictWrote : Only [.dies, .moves, .ctxs, .mem, .traffic] e.s (verdictWrote e t v) :=
  (only_putRuns ..).mono.trans (trafficOnly_noteWrites ..).only.mono

theorem only_verdictCounted : Only [.host, .regs, .ctxs] s (verdictCounted e t v s) := by
  unfold verdictCounted
  split
  · exact (keeps_noteWide (w₀ := Part.among [.host, .regs, .ctxs]) _ _ _
      (keeps_modCore (f := noteFail t) (keeps_bumpPrec _ _ _ (Keeps.refl s)) (fun _ h => h) trivial)).only
  · exact .refl _ s

theorem mem_verdictGiven : (verdictGiven e cl t v).mem = (putRuns e.s e.c.asn t.core v.runs).mem :=
  (only_verdictCounted.part .mem).1.trans ((ctxsOnly_verdictQueue.only.part .mem).1.trans ((trafficOnly_noteWrites ..).only.part .mem).1)

/-- A tile that passes changes contexts alone. -/
theorem only_verdictGiven (hfail : v.fail = false) (hruns : v.runs = []) : Only [.ctxs] e.s (verdictGiven e cl t v) := by
  have hwrote : verdictWrote e t v = e.s := by
    rw [verdictWrote, hruns]
    rfl
  rw [verdictGiven, verdictCounted, hfail]
  exact hwrote ▸ ctxsOnly_verdictQueue.only

/-- A tile that fails is counted. -/
theorem getReg_verdictGiven (hfail : v.fail = true) : getReg (verdictGiven e cl t v) (e.prec + 0x84) =
    BitVec.ofNat 32 (sat32 ((getReg e.s (e.prec + 0x84)).toNat + 1)) := by
  have hregs : (refillQueue (verdictTaken e cl t v) e.c.asn cl).regs = e.s.regs :=
    (ctxsOnly_verdictQueue.only.part .regs).trans (only_verdictWrote.part .regs)
  rw [verdictGiven, verdictCounted, if_pos hfail, Env.prec, getReg_noteWide]
  rw [← getReg_congr hregs]
  exact getReg_setReg_self ..

/-- The tile's core: its instruction waits for one verdict less. -/
theorem coreOf_verdictGiven (hc : ctxOf e.s e.c.asn = some c) :
    (coreOf (verdictGiven e cl t v) e.c.asn t.core).map (·.verdictView) =
      (coreOf e.s e.c.asn t.core).map fun k => k.flight.map fun f => (f.id, (t.settles f).verdicts) := by
  obtain ⟨d, -, hd, -, hcores, -⟩ := ctxOf_verdictGiven (cl := cl) (t := t) (v := v) hc
  have hat := congrArg (fun l => l[t.core]?) hcores
  simp only [modAt, List.getElem?_map, List.getElem?_modify, if_true] at hat
  simp only [coreOf, hc, hd, Option.bind_some, hat]
  cases c.cores[t.core]? with
  | none => rfl
  | some k =>
    simp only [Option.map_eq_map, Option.map_some, List.map_map]
    refine congrArg some (List.map_congr_left fun f _ => ?_)
    simp only [Function.comp_apply, TasterTile.settles]
    split <;> rfl

/-- The queue of the cluster: its first tile has left, and at most one that waited has joined. -/
theorem taster_verdictGiven {q : Cluster} {l : List TasterTile} (hc : ctxOf e.s e.c.asn = some c) (hq : c.clusters[cl]? = some q)
    (hl : q.taster = t :: l) : ∃ more, ((ctxOf (verdictGiven e cl t v) e.c.asn).bind fun d => d.clusters[cl]?).map (·.taster) =
      some (l ++ more) ∧ ((∀ k ∈ c.cores, ∀ f ∈ k.flight, f.sampled = []) → more = []) ∧ more.length ≤ 1 := by
  obtain ⟨d, more, hd, -, -, htaster, hmore, hnone⟩ := ctxOf_verdictGiven (cl := cl) (t := t) (v := v) hc
  have hat := congrArg (fun l => l[cl]?) htaster
  simp only [modAt, List.getElem?_map, List.getElem?_modify, if_true, hq, Option.map_eq_map, Option.map_some, hl, List.drop_succ_cons,
    List.drop_zero] at hat
  exact ⟨more, by rw [hd, Option.bind_some, hat], hnone, hmore⟩

/-! #### The event -/

theorem tasterVerdict_idle {q : Cluster} {l : List TasterTile} (hc : ctxOf s asn = some c) (hq : c.clusters[cl]? = some q)
    (hl : q.taster = t :: l) (h : c.seatedNow = false ∨ canTaste s c cl = false) : tasterVerdict s asn cl = s := by
  have hno : (!c.seatedNow || !canTaste s c cl) = true := by
    obtain h | h := h <;> simp [h]
  simp only [tasterVerdict, hc, List.getD_eq_getElem?_getD, hq, Option.getD_some, hl, hno, if_true]

/-- What an event comes to whose tile may be judged: its core holds a write, a page takes no write, or the verdict is given. -/
theorem tasterVerdict_judges {q : Cluster} {l : List TasterTile} {f : Flight} (hc : ctxOf s asn = some c) (hq : c.clusters[cl]? = some q)
    (hl : q.taster = t :: l) (hs : c.seatedNow = true) (ht : canTaste s c cl = true)
    (he : flightEnv s asn t.core t.flight = some (e, f)) :
    (e.k.hold ≠ none → tasterVerdict s asn cl = s) ∧
    (∀ h, e.k.hold = none → checkPages e (runPages t.verdict.runs) = .error h → tasterVerdict s asn cl = haltCore e h) ∧
    (e.k.hold = none → checkPages e (runPages t.verdict.runs) = .ok () → tasterVerdict s asn cl = giveVerdict e cl t t.verdict) := by
  unfold tasterVerdict
  simp only [hc, List.getD_eq_getElem?_getD, hq, Option.getD_some, hl, hs, ht, he, Bool.not_true, Bool.or_self,
    Bool.false_eq_true, if_false]
  refine ⟨fun hhold => if_pos (Option.isSome_iff_ne_none.2 hhold), fun h hhold hpages => ?_, fun hhold hpages => ?_⟩
  · simp only [hhold, hpages, Option.isSome_none, Bool.false_eq_true, if_false]
  · simp only [hhold, hpages, Option.isSome_none, Bool.false_eq_true, if_false]

theorem verdict_facts (t : TasterTile) :
    let fail := tasteFails t.bound t.y t.r
    let pass8 := t.width == 4 && !tasteFails t.bound t.y8 t.r
    t.verdict.fail = fail ∧ t.verdict.runs = (if fail then rawWrites (if pass8 then t.writes8 else t.writesR) else []) ∧
      t.verdict.flags = if fail then (if pass8 then t.flags8 else t.flagsR) else t.flagsY := by
  unfold TasterTile.verdict
  cases tasteFails t.bound t.y t.r <;> simp

end verdict

/-- Settles O28: a verdict that may be given takes its tile off the queue and settles its instruction; what it writes, raises and
counts is `TasterTile.verdict`. -/
theorem verdictsComplete : Obligations.VerdictsComplete := by
  unfold Obligations.VerdictsComplete
  intro s asn cl c q t l hw hc hq hl
  rw [exec_tasterVerdict_next hw]
  refine ⟨fun h => by rw [tasterVerdict_idle hc hq hl h], ?_⟩
  intro e f hs ht he base fail pass8 writes flags less
  obtain ⟨-, -, -, -, rfl, rfl, hcore, -, hctx, -⟩ := flightEnv_facts he
  obtain rfl : e.c = c := Option.some.inj (hctx.symm.trans hc)
  obtain ⟨hfail, hruns, hflags⟩ := verdict_facts t
  have hbase : e.prec = base := by rw [Env.prec, Env.die, hcore]
  obtain ⟨hheld, hhalts, hgives⟩ := tasterVerdict_judges hc hq hl hs ht he
  rw [hruns] at hhalts hgives
  refine ⟨fun hhold => by rw [hheld hhold], fun h hhold hpages => by rw [hhalts h hhold hpages], fun hhold hpages => ?given⟩
  case given =>
    obtain ⟨d, -, hd, hdflags, -⟩ := ctxOf_verdictGiven (cl := cl) (t := t) (v := t.verdict) hc
    rw [hgives hhold hpages]
    refine ⟨verdictGiven e cl t t.verdict, congrArg _ giveVerdict_eq, taster_verdictGiven hc hq hl, ?_, ?_, ?_, fun h => ?_, fun h => ?_⟩
    · rw [hd, Option.map_some, hdflags, hflags]
    · refine (coreOf_verdictGiven hc).trans (congrArg (Option.map · _) (funext fun k => List.map_congr_left fun f _ => ?_))
      simp only [less, TasterTile.settles]
      split <;> rfl
    · rw [mem_verdictGiven, hruns]
    · exact only_verdictGiven (hfail.trans h) (hruns.trans (if_neg fun ht => Bool.false_ne_true (h.symm.trans ht)))
    · rw [← hbase]
      exact getReg_verdictGiven (hfail.trans h)

end Sys2Proof.Machine
end
